-- ==== Sys2Proof/Word.lean ====
section
/-!
DEFINITION. The word types of the Z2: a byte, a parcel or register of 32 bits, and a 64-bit pair (R4, R15).
-/

namespace Sys2Proof

/-- One byte of memory. -/
abbrev Byte := BitVec 8

/-- One parcel, or one lane of a register: 32 bits. -/
abbrev Word := BitVec 32

/-- One even and odd register pair read as a whole: 64 bits, low word in the even register. -/
abbrev DWord := BitVec 64

/-- One specifier field of nine bits (R35). -/
abbrev Spec := BitVec 9

end Sys2Proof
end

