-- ==== Sys2Proof/Machine/Maps.lean ====
section
/-!
DEFINITION. Sparse maps from numbers, held as lists with strictly rising keys, and bit-field helpers.
Two maps with the same entries are the same list.
-/

namespace Sys2Proof.Machine

/-- A map from numbers: pairs in strictly rising order of key. -/
abbrev KMap (α : Type) := List (Nat × α)

/-- The entry of a key, if the map lists it. -/
def kget? {α : Type} : KMap α → Nat → Option α
  | [], _ => none
  | (k, v) :: m, n => if n = k then some v else if n < k then none else kget? m n

/-- Sets the entry of a key, keeping the order. -/
def kset {α : Type} : KMap α → Nat → α → KMap α
  | [], n, v => [(n, v)]
  | (k, w) :: m, n, v =>
    if n = k then (n, v) :: m else if n < k then (n, v) :: (k, w) :: m else (k, w) :: kset m n v

/-- Drops the entry of a key. -/
def kdel {α : Type} : KMap α → Nat → KMap α
  | [], _ => []
  | (k, w) :: m, n => if n = k then m else if n < k then (k, w) :: m else (k, w) :: kdel m n

/-- The entry of a key, or a default where the map lists none. -/
def kgetD {α : Type} (m : KMap α) (n : Nat) (d : α) : α := (kget? m n).getD d

/-- Sets the entry of a key in a map whose unlisted keys read as `d`: writing `d` drops the entry. -/
def ksetD {α : Type} [DecidableEq α] (m : KMap α) (n : Nat) (v d : α) : KMap α :=
  if v = d then kdel m n else kset m n v

/-- Whether the keys rise strictly from the first key on. -/
def kordered {α : Type} : KMap α → Bool
  | [] => true
  | [_] => true
  | (k, _) :: (n, w) :: m => decide (k < n) && kordered ((n, w) :: m)

/-- Drops every entry whose key lies in lo ≤ key < hi. -/
def kclear {α : Type} (m : KMap α) (lo hi : Nat) : KMap α := m.filter (fun e => e.1 < lo || hi ≤ e.1)

/-- Applies a function to the entry of a key, if there is one. -/
def kmodify {α : Type} (m : KMap α) (n : Nat) (f : α → α) : KMap α :=
  match kget? m n with
  | some v => kset m n (f v)
  | none => m

/-- Bits [lo + n - 1 : lo] of a number. -/
def bitsOf (x lo n : Nat) : Nat := x / 2 ^ lo % 2 ^ n

/-- Bit i of a number. -/
def bitOf (x i : Nat) : Bool := x / 2 ^ i % 2 == 1

/-- A number of n bits with its bits [lo + w - 1 : lo] replaced. -/
def setBits (x lo w v : Nat) : Nat := x - bitsOf x lo w * 2 ^ lo + v % 2 ^ w * 2 ^ lo

/-- The two's-complement value of the low n bits of a number (0 for n = 0). -/
def sextN (x n : Nat) : Int := if x % 2 ^ n * 2 < 2 ^ n then (x % 2 ^ n : Nat) else (x % 2 ^ n : Nat) - (2 ^ n : Nat)

/-- A number of n bits from an integer, modulo 2 to the n. -/
def wrapN (x : Int) (n : Nat) : Nat := (x % (2 ^ n : Nat)).toNat

/-- The little-endian value of some bytes (R4). -/
def leNat : List Byte → Nat
  | [] => 0
  | b :: bs => b.toNat + 256 * leNat bs

/-- The n low bytes of a number, lowest first (R4). -/
def leBytes : Nat → Nat → List Byte
  | 0, _ => []
  | n + 1, x => BitVec.ofNat 8 x :: leBytes n (x / 256)

/-- The lanes of a mask, ascending: lane l is bit l. -/
def lanesOf (m : Word) : List Nat := (List.range 32).filter (fun l => m.getLsbD l)

/-- The mask that holds the lanes of a list. -/
def maskOf (ls : List Nat) : Word := ls.foldl (fun m l => m ||| (1#32 <<< l)) 0#32

/-- Rounds up to a multiple. -/
def roundUp (x n : Nat) : Nat := (x + n - 1) / n * n

/-- Population count of the low n bits. -/
def popcN (x : Nat) : Nat → Nat
  | 0 => 0
  | n + 1 => popcN x n + x / 2 ^ n % 2

/-- The first element of a list with a property, together with its place. -/
def findIdxD {α : Type} (p : α → Bool) : List α → Nat → Option (Nat × α)
  | [], _ => none
  | x :: xs, i => if p x then some (i, x) else findIdxD p xs (i + 1)

/-- The list with the entry at a place replaced. -/
def setAt {α : Type} (l : List α) (i : Nat) (v : α) : List α := l.set i v

/-- Inserts into a list kept in rising order of a key. -/
def insertBy {α : Type} (key : α → Nat) (x : α) : List α → List α
  | [] => [x]
  | y :: ys => if key x < key y then x :: y :: ys else y :: insertBy key x ys

/-- Sorts by a key, keeping the order of equal keys. -/
def sortBy {α : Type} (key : α → Nat) (l : List α) : List α := l.foldr (fun x acc => insertBy' key x acc) []
where
  /-- Inserts before the first element of no lower key. -/
  insertBy' (key : α → Nat) (x : α) : List α → List α
    | [] => [x]
    | y :: ys => if key x ≤ key y then x :: y :: ys else y :: insertBy' key x ys

/-- The numbers lo, lo + 1, …, below hi. -/
def rangeFrom (lo hi : Nat) : List Nat := (List.range (hi - lo)).map (· + lo)

/-- Runs an operation up to n times while it answers a state. -/
def iter {α : Type} (f : α → α) : Nat → α → α
  | 0, a => a
  | n + 1, a => iter f n (f a)

end Sys2Proof.Machine
end

