-- ==== Sys2Proof/Machine/Flags.lean ====
section
/-!
DEFINITION. Number formats, their values, rounding and the FP status flags (R176 to R181, R202, R203, R209), and stochastic
rounding (R179).
-/

namespace Sys2Proof.Machine

/-- Flag NV (R203). -/
def flNV : Nat := 16
/-- Flag DZ. -/
def flDZ : Nat := 8
/-- Flag OF. -/
def flOF : Nat := 4
/-- Flag UF. -/
def flUF : Nat := 2
/-- Flag NX. -/
def flNX : Nat := 1

/-- A number format: width, exponent and mantissa widths, bias, and special rule 0 none, 1 NaN at all-ones, 2 IEEE,
3 codebook (R176, R180). An exponent width of 0 is an integer. -/
structure Fmt where
  w : Nat
  e : Nat
  m : Nat
  bias : Nat
  rule : Nat
  deriving DecidableEq, Repr

/-- FP32 (Table 10-1). -/
def fp32 : Fmt := ⟨32, 8, 23, 127, 2⟩
/-- FP16. -/
def fp16 : Fmt := ⟨16, 5, 10, 15, 2⟩
/-- BF16. -/
def bf16 : Fmt := ⟨16, 8, 7, 127, 2⟩
/-- E5M2. -/
def e5m2 : Fmt := ⟨8, 5, 2, 15, 2⟩
/-- E4M3. -/
def e4m3 : Fmt := ⟨8, 4, 3, 7, 1⟩

/-- The format of a page's format code (Table 10-7): codes 1 to 11. -/
def fmtOf (code : Nat) : Option Fmt :=
  match code with
  | 1 => some fp32
  | 2 => some fp16
  | 3 => some bf16
  | 4 => some e5m2
  | 5 => some e4m3
  | 6 => some ⟨6, 3, 2, 3, 0⟩
  | 7 => some ⟨6, 2, 3, 1, 0⟩
  | 8 => some ⟨4, 2, 1, 1, 0⟩
  | 9 => some ⟨8, 0, 7, 0, 0⟩
  | 10 => some ⟨4, 0, 3, 0, 0⟩
  | 11 => some ⟨4, 0, 3, 0, 3⟩
  | _ => none

/-- The format that a number-format word names (Table 10-4). -/
def nfFmt (v : Nat) : Fmt :=
  ⟨[4, 6, 8, 0].getD (v % 4) 0, bitsOf v 4 4, bitsOf v 8 4, bitsOf v 16 8, bitsOf v 30 2⟩

/-- The codebook slot of a number-format word. -/
def nfSlot (v : Nat) : Nat := bitsOf v 24 6

/-- Whether a number-format word is valid (R181). -/
def nfValid (v : Nat) : Bool :=
  let f := nfFmt v
  bitsOf v 2 2 == 0 && bitsOf v 12 4 == 0 && v % 4 != 3 && 1 + f.e + f.m == f.w &&
  (match f.rule with
    | 1 => 1 ≤ f.e
    | 2 => 2 ≤ f.e && 1 ≤ f.m
    | 3 => f.e == 0 && f.w == 4
    | _ => true) &&
  (f.rule == 3 || nfSlot v == 0) && (f.e != 0 || f.bias == 0) && f.e ≤ 8 &&
  (f.e == 0 || (2 ^ f.e ≤ 128 + f.bias && f.bias + f.m ≤ 150))

/-- Whether a format holds integers. -/
def Fmt.isInt (f : Fmt) : Bool := f.e == 0

/-- A value of a format: NaN, an infinity, or a sign with m × 2^e; a zero keeps its sign. -/
inductive FV where
  | nan
  | inf (neg : Bool)
  | fin (neg : Bool) (m : Nat) (e : Int)
  deriving DecidableEq, Repr

/-- The value of a code (R177); an integer format's code is two's complement. -/
def decodeF (f : Fmt) (c : Nat) : FV :=
  if f.isInt then let v := sextN c f.w; .fin (v < 0) v.natAbs 0
  else
    let neg := bitOf c (f.w - 1)
    let ex := bitsOf c f.m f.e
    let mt := c % 2 ^ f.m
    if f.rule = 2 ∧ ex = 2 ^ f.e - 1 then (if mt = 0 then .inf neg else .nan)
    else if f.rule = 1 ∧ ex = 2 ^ f.e - 1 ∧ mt = 2 ^ f.m - 1 then .nan
    else if ex = 0 then .fin neg mt (1 - (f.bias : Int) - f.m)
    else .fin neg (2 ^ f.m + mt) ((ex : Int) - f.bias - f.m)

/-- The canonical NaN of a format, or the code of zero in a format without one (R177, R202, Table 10-2). -/
def canonNaN (f : Fmt) : Nat :=
  if f.isInt then 0
  else match f.rule with
    | 2 => (2 ^ f.e - 1) * 2 ^ f.m + 2 ^ (f.m - 1)
    | 1 => 2 ^ (f.e + f.m) - 1
    | _ => 0

/-- The magnitude code of the largest finite value. -/
def maxCode (f : Fmt) : Nat :=
  match f.rule with
  | 2 => (2 ^ f.e - 1) * 2 ^ f.m - 1
  | 1 => 2 ^ (f.e + f.m) - 2
  | _ => 2 ^ (f.e + f.m) - 1

/-- A magnitude in units of 2^u: quotient, discarded bits and how many there are (R178 steps 1 and 2). -/
structure Cut where
  k : Nat
  r : Nat
  sh : Nat
  deriving DecidableEq, Repr

/-- Cuts m × 2^e at unit 2^u; a magnitude far below the unit keeps only that it is not zero. -/
def cut (m : Nat) (e u : Int) : Cut :=
  if u ≤ e then ⟨m * 2 ^ (e - u).toNat, 0, 0⟩
  else if (Nat.log2 m : Int) + e < u - 40 then ⟨0, if m = 0 then 0 else 1, 40⟩
  else let sh := (u - e).toNat; ⟨m / 2 ^ sh, m % 2 ^ sh, sh⟩

/-- Whether a rounding mode takes the next magnitude (R178 step 3): 0 near, 1 zero, 2 down, 3 up, 4 stochastic with the 16
bits `rnd` of R179. -/
def Cut.up (c : Cut) (rm rnd : Nat) (neg : Bool) : Bool :=
  match rm with
  | 0 => 2 ^ c.sh < 2 * c.r || (2 * c.r == 2 ^ c.sh && c.k % 2 == 1 && c.r != 0)
  | 2 => neg && c.r != 0
  | 3 => !neg && c.r != 0
  | 4 => 2 ^ 16 ≤ c.r * 2 ^ 16 / 2 ^ c.sh + rnd
  | _ => false

/-- The rounded quotient. -/
def Cut.round (c : Cut) (rm rnd : Nat) (neg : Bool) : Nat := if c.up rm rnd neg then c.k + 1 else c.k

/-- The least unit of a floating format: the exponent of its subnormal spacing. -/
def Fmt.emin (f : Fmt) : Int := 1 - (f.bias : Int) - f.m

/-- The unit of a format at m × 2^e (R178 step 1). -/
def unitAt (f : Fmt) (m : Nat) (e : Int) : Int :=
  if f.isInt then 0 else max f.emin ((Nat.log2 m : Int) + e - f.m)

/-- The discarded bits D of a value (R179): 0 for an exact, infinite or NaN value. -/
def discard (f : Fmt) (x : FV) : Nat :=
  match x with
  | .fin _ m e => let c := cut m e (unitAt f m e); c.r * 2 ^ 16 / 2 ^ c.sh
  | _ => 0

/-- The random bits of element e among the discarded bits of a group of g (R179). -/
def stochM (g : Nat) (d : Nat → Nat) (e : Nat) : Nat :=
  let rot (v : Nat) : Nat := (v * 32 + v / 2 ^ 11) % 2 ^ 16
  let m := Nat.xor (Nat.xor (d ((e + g - 1) % g)) (rot (d ((e + 1) % g)))) (e * 0x9E37 % 2 ^ 16)
  let m := (m * 0xA5C3 + 0x3C6E) % 2 ^ 16
  Nat.xor m (m / 2 ^ 7)

/-- Whether a nonzero magnitude, rounded with an unbounded exponent, lies below the smallest normal (R203, UF). -/
def tiny (f : Fmt) (m : Nat) (e : Int) (rm rnd : Nat) (neg : Bool) : Bool :=
  let l := (Nat.log2 m : Int) + e
  if 1 - (f.bias : Int) ≤ l then false
  else if l < -(f.bias : Int) then true
  else (cut m e (l - f.m)).round rm rnd neg < 2 ^ (f.m + 1)

/-- The code of a rounded value with its flags (R178, Table 10-2, R203): a NaN or an infinity has no value in an integer format, and
raises NV there. An infinity delivered as the largest finite value of a float format that has none raises no flag (DEDUCED, log 9). -/
def roundTo (f : Fmt) (rm rnd : Nat) (x : FV) : Nat × Nat :=
  let sign (neg : Bool) (c : Nat) : Nat := if neg then 2 ^ (f.w - 1) + c else c
  match x with
  | .nan => (canonNaN f, if f.isInt then flNV else 0)
  | .inf neg =>
    if f.isInt then (if neg then 2 ^ (f.w - 1) else 2 ^ (f.w - 1) - 1, flNV)
    else (sign neg (if f.rule = 2 then maxCode f + 1 else maxCode f), 0)
  | .fin neg m e =>
    let u := unitAt f m e
    let c := cut m e u
    let k := c.round rm rnd neg
    if f.isInt then
      let lim := if neg then 2 ^ (f.w - 1) else 2 ^ (f.w - 1) - 1
      if lim < k then (if neg then 2 ^ (f.w - 1) else 2 ^ (f.w - 1) - 1, flOF + flNX)
      else (wrapN (if neg then -(k : Int) else k) f.w, if c.r = 0 then 0 else flNX)
    else if m = 0 then (sign neg 0, 0)
    else
      let code := (u - f.emin).toNat * 2 ^ f.m + k
      if maxCode f < code then
        let inf := f.rule == 2 && (rm == 0 || rm == 4 || (rm == 2 && neg) || (rm == 3 && !neg))
        (sign neg (if inf then maxCode f + 1 else maxCode f), flOF + flNX)
      else
        let nx := if c.r = 0 then 0 else flNX
        (sign neg code, nx + (if nx ≠ 0 && tiny f m e rm rnd neg then flUF else 0))

/-! ### Exact arithmetic -/

/-- Negates a value. -/
def FV.neg : FV → FV
  | .nan => .nan
  | .inf n => .inf (!n)
  | .fin n m e => .fin (!n) m e

/-- The exact product, with NV where 0 meets ∞ (R202). -/
def mulFV (a b : FV) : FV × Nat :=
  match a, b with
  | .inf x, .fin y m _ => if m = 0 then (.nan, flNV) else (.inf (x != y), 0)
  | .fin y m _, .inf x => if m = 0 then (.nan, flNV) else (.inf (x != y), 0)
  | .inf x, .inf y => (.inf (x != y), 0)
  | .fin x m e, .fin y n g => (.fin (x != y) (m * n) (e + g), 0)
  | _, _ => (.nan, 0)

/-- The signed integer of a finite value in units of 2^u, where u is no more than its exponent. -/
def FV.units (u : Int) : FV → Int
  | .fin n m e => let v : Int := m * 2 ^ (e - u).toNat; if n then -v else v
  | _ => 0

/-- The exact sum of some values in a rounding mode's convention for zero, with NV where infinities oppose (R202). -/
def sumFV (rm : Nat) (xs : List FV) : FV × Nat :=
  let pos := xs.any (· == .inf false)
  let neg := xs.any (· == .inf true)
  if pos && neg then (.nan, flNV)
  else if xs.any (· == .nan) then (.nan, 0)
  else if pos then (.inf false, 0)
  else if neg then (.inf true, 0)
  else
    let es := xs.filterMap (fun x => match x with | .fin _ m e => if m = 0 then none else some e | _ => none)
    match es with
    | [] =>
      let signs := xs.map (fun x => match x with | .fin n _ _ => n | _ => false)
      (.fin (if signs.all id then true else if signs.all (fun b => !b) then false else rm == 2) 0 0, 0)
    | e :: es =>
      let u := es.foldl min e
      let unit (x : FV) : Int := match x with | .fin n m e => if m = 0 then 0 else FV.units u (.fin n m e) | _ => 0
      let v : Int := (xs.map unit).foldl (· + ·) 0
      if v = 0 then (.fin (rm == 2) 0 0, 0) else (.fin (v < 0) v.natAbs u, 0)

/-- a × b + c, exact, with its flags (R202). -/
def fmaFV (rm : Nat) (a b c : FV) : FV × Nat :=
  let p := mulFV a b
  let r := sumFV rm [p.1, c]
  if p.2 ≠ 0 then (.nan, flNV) else r

/-! ### Minimum, maximum, comparison -/

/-- Whether a code is NaN. -/
def isNaNCode (f : Fmt) (c : Nat) : Bool := decodeF f c == .nan

/-- A code's place in the order of its format, with −0 below +0 (R209). -/
def codeKey (f : Fmt) (c : Nat) : Int :=
  if f.isInt then sextN c f.w
  else if bitOf c (f.w - 1) then -((c % 2 ^ (f.w - 1) : Nat) : Int) - 1 else (c % 2 ^ (f.w - 1) : Nat)

/-- `fmin` or `fmax` of two codes (R209). -/
def minmaxF (f : Fmt) (mx : Bool) (a b : Nat) : Nat :=
  match isNaNCode f a, isNaNCode f b with
  | true, true => canonNaN f
  | true, false => b
  | false, true => a
  | false, false => if (if mx then codeKey f b ≤ codeKey f a else codeKey f a ≤ codeKey f b) then a else b

/-- The condition of a compare on two FP32 codes (R217). -/
def fcond (cond a b : Nat) : Bool :=
  let un := isNaNCode fp32 a || isNaNCode fp32 b
  let key (c : Nat) : Int := if c % 2 ^ 31 = 0 then 0 else if bitOf c 31 then -((c % 2 ^ 31 : Nat) : Int) else (c : Int)
  match cond with
  | 0 => !un && key a == key b
  | 1 => un || key a != key b
  | 2 => !un && key a < key b
  | 3 => !un && key a ≤ key b
  | 4 => !un && key b < key a
  | 5 => !un && key b ≤ key a
  | 6 => un
  | _ => !un

/-- The class of an FP32 code: 0 −∞, 1 −normal, 2 −subnormal, 3 −0, 4 +0, 5 +subnormal, 6 +normal, 7 +∞, 8 NaN (R217). -/
def fclassOf (c : Nat) : Nat :=
  match decodeF fp32 c with
  | .nan => 8
  | .inf n => if n then 0 else 7
  | .fin n m _ =>
    if m = 0 then (if n then 3 else 4)
    else if m < 2 ^ 23 then (if n then 2 else 5) else (if n then 1 else 6)

/-- An FP32 code rounded to an integral value in a mode (R208): sign, ±0 and ±∞ stay, no flag. -/
def froundV (rm c : Nat) : Nat :=
  match decodeF fp32 c with
  | .fin n m e => (roundTo fp32 0 0 (.fin n ((cut m e 0).round rm 0 n) 0)).1
  | x => (roundTo fp32 0 0 x).1

/-- An FP32 code rounded to an integer of n bits, signed or unsigned, with its flags (R212). -/
def f2iV (n : Nat) (u : Bool) (rm c : Nat) : Nat × Nat :=
  let lo : Int := if u then 0 else -(2 : Int) ^ (n - 1)
  let hi : Int := if u then 2 ^ n - 1 else 2 ^ (n - 1) - 1
  match decodeF fp32 c with
  | .nan => (0, flNV)
  | .inf s => (wrapN (if s then lo else hi) n, flNV)
  | .fin s m e =>
    let t := cut m e 0
    let k := t.round rm 0 s
    let v : Int := if s then -(k : Int) else k
    if v < lo then (wrapN lo n, flNV) else if hi < v then (wrapN hi n, flNV)
    else (wrapN v n, if t.r = 0 then 0 else flNX)

/-- An integer as FP32, with its flags (R211). -/
def i2fV (rm : Nat) (v : Int) : Nat × Nat := roundTo fp32 rm 0 (.fin (v < 0) v.natAbs 0)

/-- A code of one format as FP32, exactly (R191, R211). -/
def toFp32 (f : Fmt) (c : Nat) : Nat := (roundTo fp32 0 0 (decodeF f c)).1

end Sys2Proof.Machine
end

