-- ==== Sys2Proof/Syntax.lean ====
section
/-!
DEFINITION. The instructions and the device events of the Z2, one constructor for each row of the opcode table.
An encoded instruction carries its fields as the spec lays them out (R24, R26, R33); an event names what it happens to.
-/

namespace Sys2Proof

/-- The fields of an S-form UN instruction (R24). -/
structure SForm where
  st : BitVec 3
  d : Spec
  a : Spec
  deriving DecidableEq, Repr

/-- The fields of a BRS parcel (R24, Table 2-4): guard and a 17-bit offset in parcels. -/
structure BrsForm where
  st : BitVec 3
  k : BitVec 3
  neg : Bool
  off : BitVec 17
  deriving DecidableEq, Repr

/-- The fields of `ldi` (R25). -/
structure LdiForm where
  st : BitVec 3
  d : Spec
  imm : BitVec 12
  deriving DecidableEq, Repr

/-- The fields of an L-form instruction (R26); `lit` is the third parcel of an X form (R32). -/
structure LForm where
  st : BitVec 3
  d : Spec
  a : Spec
  b : Spec
  c : Spec
  gk : BitVec 3
  gneg : Bool
  tr : Bool
  ru : Bool
  md : BitVec 5
  lit : Option Word
  deriving DecidableEq, Repr

/-- An L form followed by its four parameter parcels (R33). -/
structure PForm where
  l : LForm
  p0 : Word
  p1 : Word
  p2 : Word
  p3 : Word
  deriving DecidableEq, Repr

/-- What the reel copies or hauls in ahead of need (R108). -/
inductive ReelAhead where
  | payPly
  | payLink
  | haulPly
  | haulLink
  deriving DecidableEq, Repr

/-- The storage an uncorrectable error is found in (R352, R127, R225, R319). -/
inductive ErrLoc where
  /-- near DRAM or the capacity tier, by physical address -/
  | dram (pa : Nat)
  /-- a line of a core's L1, by line number -/
  | l1 (core line : Nat)
  /-- a line of the L2, by physical address, with the context that its owner tag names -/
  | l2 (pa ctx : Nat)
  /-- a register file, a global store or a bypass of a core slot -/
  | strand (th : Nat)
  /-- accumulator storage of a core's quadrant -/
  | table (quad : Nat) (block : Nat)
  /-- a scratchpad bank of a core -/
  | scratch (core bank : Nat)
  /-- a common-memory bank -/
  | common (bank : Nat)
  /-- data that a running operation reads or writes -/
  | flight (f : Nat)
  deriving DecidableEq, Repr

/-- One host access to a base address register window (R388, R389): function, register, offset, bytes, direction, value, and whether
it comes with valid integrity on an IDE stream. -/
structure BarAccess where
  fn : Nat
  bar : Nat
  off : Nat
  size : Nat
  write : Bool
  value : Nat
  ide : Bool
  deriving DecidableEq, Repr

/-- One message of the Ngalan die protocol on a link (R398, Table 21-5): the fields of its header and the bytes of its other
slots. -/
structure NgMsg where
  link : Nat
  cls : Nat
  op : Nat
  addr : Nat
  tag : Nat
  more : Nat
  ctx : Nat
  scope : Nat
  src : Nat
  operand : Nat
  data : List Byte
  deriving DecidableEq, Repr

/-- One access of a device-link peer (R402): export, offset, kind (0 read, 1 write, 2 atomic, 3 exact add, 4 exact add of FP32),
bytes, atomic operation, value and compare value. -/
structure LinkAccess where
  exp : Nat
  off : Nat
  kind : Nat
  size : Nat
  op : Nat
  value : Nat
  cmp : Nat
  deriving DecidableEq, Repr

/-- Every operation and event of the opcode table. -/
inductive Instr where
  /-- The quadrant scheduler picks a ready strand and group, decodes the clause fetched whole, and commits the issue slot to it for the whole clause (R81). -/
  | clausePick (q : Nat)
  /-- A ready strand passed over in 4,096 consecutive ordinary picks is picked at the next pick, whatever its counter (R83). -/
  | starvationGuard (q : Nat)
  /-- A group that has issued 1,024 clauses in its slot is moved to the bottom of the fork stack, and the topmost runnable entry takes the slot (R128). -/
  | groupRotation (th : Nat)
  /-- A control core picks the ready queue thread of highest priority for its next clause, with rotation and a 256-pick starvation guard (R377). -/
  | controlCorePick (n : Nat)
  /-- S-form register move (.b32) (R24). -/
  | unMov (x : SForm)
  /-- S-form bitwise not (.b32) (R24). -/
  | unNot (x : SForm)
  /-- S-form negate (.s32) (R24). -/
  | unNeg (x : SForm)
  /-- S-form absolute value (.s32) (R24). -/
  | unAbs (x : SForm)
  /-- S-form population count (.b32) (R24). -/
  | unPopc (x : SForm)
  /-- S-form count of leading zeros (.b32) (R24). -/
  | unClz (x : SForm)
  /-- S-form bit reversal (.b32) (R24). -/
  | unBrev (x : SForm)
  /-- S-form FP32 absolute value by clearing the sign bit, raising no flag (R205). -/
  | fabs (x : SForm)
  /-- S-form nop: takes its issue cycle and its stall count, and changes nothing else (R99). -/
  | ctlsNop (st : BitVec 3)
  /-- S-form yield: the group continues at the next clause as if the clause carried YLD (R99). -/
  | ctlsYield (st : BitVec 3)
  /-- S-form knot: parks the group, merges it with a group parked at the same knot, and runs the release rule (R131). -/
  | ctlsKnot (st : BitVec 3)
  /-- S-form ret: returns each lane to the return point in its link record (R122). -/
  | ctlsRet (st : BitVec 3)
  /-- S-form exit: commits the quantum of each lane of the group and ends the lane (R98). -/
  | ctlsExit (st : BitVec 3)
  /-- S-form done: marks every lane of the group idle after committing its quantum (R92). -/
  | ctlsDone (st : BitVec 3)
  /-- S-form brk: stops the group with BRK (R350). -/
  | ctlsBrk (st : BitVec 3)
  /-- S-form take: commits the active lanes' quanta and adds idle lanes to the group with items drawn from the workgroup's item queue (R93). -/
  | ctlsTake (st : BitVec 3)
  /-- Short branch by a 17-bit parcel offset under guard k, which divides the group by destination (R134). -/
  | brs (x : BrsForm)
  /-- Loads a sign-extended 12-bit immediate into an f, g or s register (R25). -/
  | ldi (x : LdiForm)
  /-- Integer add, wrapping or saturating (R204). -/
  | add (x : LForm)
  /-- Integer subtract, wrapping or saturating (R204). -/
  | sub (x : LForm)
  /-- Integer multiply, low half (R204). -/
  | mul (x : LForm)
  /-- Signed multiply, high 32 bits (R204). -/
  | mulh (x : LForm)
  /-- Unsigned multiply, high 32 bits (R204). -/
  | mulhu (x : LForm)
  /-- Integer multiply-add modulo 2^32 (R204). -/
  | mad (x : LForm)
  /-- Signed minimum (R204). -/
  | min (x : LForm)
  /-- Signed maximum (R204). -/
  | max (x : LForm)
  /-- Unsigned minimum (R204). -/
  | minu (x : LForm)
  /-- Unsigned maximum (R204). -/
  | maxu (x : LForm)
  /-- L-form absolute value (R204). -/
  | abs (x : LForm)
  /-- L-form negation (R204). -/
  | neg (x : LForm)
  /-- Bitwise and (R204). -/
  | and (x : LForm)
  /-- Bitwise or (R204). -/
  | or (x : LForm)
  /-- Bitwise exclusive-or (R204). -/
  | xor (x : LForm)
  /-- L-form bitwise not (R204). -/
  | not (x : LForm)
  /-- Three-input truth-table logic with the old destination as selector (R205). -/
  | tbl3 (x : LForm)
  /-- Shift left (R204). -/
  | shl (x : LForm)
  /-- Logical shift right (R204). -/
  | shr (x : LForm)
  /-- Arithmetic shift right (R204). -/
  | sar (x : LForm)
  /-- Rotate left (R204). -/
  | rotl (x : LForm)
  /-- Signed bit-field extract (R205). -/
  | bfe (x : LForm)
  /-- Unsigned bit-field extract (R205). -/
  | bfeu (x : LForm)
  /-- Bit-field insert into the old destination (R205). -/
  | bfi (x : LForm)
  /-- L-form count of leading zeros (R204). -/
  | clz (x : LForm)
  /-- L-form population count (R204). -/
  | popc (x : LForm)
  /-- L-form bit reversal (R204). -/
  | brev (x : LForm)
  /-- L-form register move (R204). -/
  | mov (x : LForm)
  /-- Four-way signed byte dot product plus c (R205). -/
  | dot4 (x : LForm)
  /-- 64-bit add with optional extension of b (R206). -/
  | add64 (x : LForm)
  /-- 64-bit subtract with optional extension of b (R206). -/
  | sub64 (x : LForm)
  /-- Address computation a + (b' << sh) (R206). -/
  | lea (x : LForm)
  /-- Code-relative address of a label (R207). -/
  | leaCode (x : LForm)
  /-- 64-bit move, or extension of a 32-bit operand (R206). -/
  | mov64 (x : LForm)
  /-- 64-bit shift left (R206). -/
  | shl64 (x : LForm)
  /-- 64-bit logical shift right (R206). -/
  | shr64 (x : LForm)
  /-- Removes the window base of an address's space (R259). -/
  | apoff (x : LForm)
  /-- Adds the window base of a named space to an offset (R259). -/
  | apgen (x : LForm)
  /-- Returns the space code of an address (R259). -/
  | apclass (x : LForm)
  /-- Floating add (R208). -/
  | fadd (x : LForm)
  /-- Floating subtract (R208). -/
  | fsub (x : LForm)
  /-- Floating multiply (R208). -/
  | fmul (x : LForm)
  /-- Fused multiply-add with one rounding (R208). -/
  | fma (x : LForm)
  /-- Fused negated multiply-add with one rounding (R208). -/
  | fnma (x : LForm)
  /-- Floating minimum with the NaN rules (R209). -/
  | fmin (x : LForm)
  /-- Floating maximum with the NaN rules (R209). -/
  | fmax (x : LForm)
  /-- Rounds to an integral value in the mode (R208). -/
  | fround (x : LForm)
  /-- fmin(fmax(a, b), c) (R209). -/
  | fclamp (x : LForm)
  /-- Packed two-element dot product plus an FP32 c, with one rounding (R208). -/
  | fdot2 (x : LForm)
  /-- Reciprocal (R210). -/
  | frcp (x : LForm)
  /-- Reciprocal square root (R210). -/
  | frsq (x : LForm)
  /-- Square root (R210). -/
  | fsqrt (x : LForm)
  /-- Power of two (R210). -/
  | fexp2 (x : LForm)
  /-- Base-2 logarithm (R210). -/
  | flog2 (x : LForm)
  /-- sin(pi a) (R210). -/
  | fsin (x : LForm)
  /-- cos(pi a) (R210). -/
  | fcos (x : LForm)
  /-- Hyperbolic tangent (R210). -/
  | ftanh (x : LForm)
  /-- Converts two FP32 values to a packed f16 or bf16 pair, optionally with stochastic rounding (R211). -/
  | fcvt (x : LForm)
  /-- FP32 to integer with range settlement (R212). -/
  | f2i (x : LForm)
  /-- Integer to FP32 (R211). -/
  | i2f (x : LForm)
  /-- Packs two 16-bit halves, truncating or saturating (R211). -/
  | pack2 (x : LForm)
  /-- Widens one 16-bit element (R211). -/
  | unpack2 (x : LForm)
  /-- Narrow-format add per element (R214). -/
  | nadd (x : LForm)
  /-- Narrow-format multiply per element (R214). -/
  | nmul (x : LForm)
  /-- Narrow-format fused multiply-add per element (R214). -/
  | nfma (x : LForm)
  /-- Narrow-format minimum per element (R214). -/
  | nmin (x : LForm)
  /-- Narrow-format maximum per element (R214). -/
  | nmax (x : LForm)
  /-- Rounds a value into element e of the destination (R213). -/
  | npack (x : LForm)
  /-- Extracts element e as FP32 or s32 (R213). -/
  | nunpack (x : LForm)
  /-- Converts every element from format nfj to nfK (R214). -/
  | ncvt (x : LForm)
  /-- Signed integer compare into a k register or a value (R217). -/
  | icmp (x : LForm)
  /-- Unsigned integer compare (R217). -/
  | icmpu (x : LForm)
  /-- FP32 compare (R217). -/
  | fcmp (x : LForm)
  /-- Tests the FP32 class of a value against a mask (R217). -/
  | fclass (x : LForm)
  /-- k-register and (R217). -/
  | kand (x : LForm)
  /-- k-register or (R217). -/
  | kor (x : LForm)
  /-- k-register exclusive-or (R217). -/
  | kxor (x : LForm)
  /-- k-register inversion (R217). -/
  | kinv (x : LForm)
  /-- Moves between k registers, values, masks and ballots by mode (R217). -/
  | kmov (x : LForm)
  /-- Counts the non-helper lanes of the group with a k bit set (R217). -/
  | kpop (x : LForm)
  /-- Lane exchange within a tile by mode at, rel, rot or flip (R143). -/
  | lxch (x : LForm)
  /-- Tile vote: any, all, uni or ballot (R144). -/
  | vote (x : LForm)
  /-- Tile reduction in fixed ascending order (R146). -/
  | redux (x : LForm)
  /-- Inclusive or exclusive tile scan (R146). -/
  | scan (x : LForm)
  /-- Packs the selected lanes' values into low tile positions (R147). -/
  | compress (x : LForm)
  /-- Spreads low tile positions to the selected lanes (R147). -/
  | expand (x : LForm)
  /-- Intersects two sorted coordinate lists per tile (R148). -/
  | isect (x : LForm)
  /-- Sets the strand's tile size (R142). -/
  | part (x : LForm)
  /-- Reads one lane's register into a scalar register (R149). -/
  | rdlane (x : LForm)
  /-- Broadcasts a value from an invariant tile position (R143). -/
  | bcast (x : LForm)
  /-- Quad swap horizontal, vertical or diagonal (R150). -/
  | qswap (x : LForm)
  /-- Quad broadcast from one position (R150). -/
  | qbcast (x : LForm)
  /-- Quad reduction (R150). -/
  | qred (x : LForm)
  /-- Sets a number-format register after validating the word (R183). -/
  | nfset (x : LForm)
  /-- Reads a number-format register (R183). -/
  | nfget (x : LForm)
  /-- Validates 16 entries and waits for captures of the codebook slot to be released (R186). -/
  | cbld (x : LForm)
  /-- Once no operation holds a capture of the slot, the slot is replaced at one instant for the whole context (R186). -/
  | cbldInstant (f : Nat)
  /-- Reads a codebook slot into eight scalar registers (R187). -/
  | cbrd (x : LForm)
  /-- Sets a loop queue's depth, taking a ply from the ring if it was unset (R158). -/
  | lqset (x : LForm)
  /-- Unsets a loop queue and returns its ply to the frame ring (R158). -/
  | lqclr (x : LForm)
  /-- Sized load, plain or acquire, after the per-lane checks (R273). -/
  | ld (x : LForm)
  /-- A load's data returns and is written to each lane's destination; the path counter falls in issue order (R273). -/
  | loadDataReturn (f : Nat)
  /-- The home holds back a narrow release's value until the releasing core has applied its stores at home (R331). -/
  | remotePromotion (f : Nat)
  /-- Sized store, buffered in the lane's quantum, or a release store (R274). -/
  | st (x : LForm)
  /-- Element load decoded by page format and block scale (R273). -/
  | lde (x : LForm)
  /-- Element store encoded into the page format and buffered (R192). -/
  | ste (x : LForm)
  /-- Compress-store of active lanes to consecutive slots, with a resumable done mask (R275). -/
  | cst (x : LForm)
  /-- Requests lines into L1 or L2; never faults (R277). -/
  | prefetch (x : LForm)
  /-- Atomic read-modify-write at the location's home, returning the old value (R279). -/
  | atom (x : LForm)
  /-- Atomic reduction at home with no return value (R279). -/
  | red (x : LForm)
  /-- An atomic performed at its home; its result is written and path C falls (R279). -/
  | atomicPerform (f : Nat)
  /-- Commits the group's quanta and orders at scope by kind (R328). -/
  | fence (x : LForm)
  /-- A committed store is applied at its home, after any engine write lock is released; path S falls (R317). -/
  | storeApply (f k : Nat)
  /-- The group waits until a path counter is at or below a threshold (R269). -/
  | wait (x : LForm)
  /-- Arrives at a workgroup barrier and waits for its release (R87). -/
  | bar (x : LForm)
  /-- Arrives at a workgroup barrier without waiting (R87). -/
  | barArrive (x : LForm)
  /-- Waits for the barrier phase in which the lanes arrived (R87). -/
  | barWait (x : LForm)
  /-- Per-lane add into a common-memory word or exact cell (R288). -/
  | cmAdd (x : LForm)
  /-- Per-lane maximum into a common-memory word or exact cell (R288). -/
  | cmMax (x : LForm)
  /-- Range y := alpha x + y at the banks (R289). -/
  | cmAxpy (x : LForm)
  /-- Range y := alpha y at the banks (R289). -/
  | cmScale (x : LForm)
  /-- Range fill at the banks (R289). -/
  | cmFill (x : LForm)
  /-- Sums a range into one destination element (R289). -/
  | cmSum (x : LForm)
  /-- The banks have performed every element of a range operation; path C falls (R289). -/
  | cmRangeCompletion (f : Nat)
  /-- Issues an asynchronous byte copy after its checks, with range locks (R295). -/
  | cpy (x : LForm)
  /-- Issues a two-dimensional copy with pitches and padding (R295). -/
  | cpyt (x : PForm)
  /-- Issues an AES-GCM decrypting copy (R298). -/
  | dcpy (x : LForm)
  /-- Issues an AES-GCM encrypting copy (R298). -/
  | ecpy (x : LForm)
  /-- A copy completes: its writes become visible at scope, locks are released, bytes are counted down on the barrier and E falls (R295). -/
  | copyCompletion (f : Nat)
  /-- Initialises an arrival barrier (R304). -/
  | abset (x : LForm)
  /-- Declares expected bytes on an arrival barrier (R304). -/
  | abdecl (x : LForm)
  /-- Commits the group's quanta and releases at core scope before arriving (R304). -/
  | abarr (x : LForm)
  /-- Once the release is complete, the arrival is checked and applied at the bank, and the phase settles (R304). -/
  | arrivalPerform (f : Nat)
  /-- Waits until the barrier reaches a target generation (R304). -/
  | abwait (x : LForm)
  /-- Tests whether a target generation has been reached, into a k register (R304). -/
  | abtest (x : LForm)
  /-- Gathers elements through a handle, decoding formats and zero masks (R307). -/
  | fget (x : PForm)
  /-- Gathered elements land in the lanes; the lock is released and F falls (R307). -/
  | fgetCompletion (f : Nat)
  /-- Bumps a handle slot's generation and installs a new descriptor (R309). -/
  | hset (x : LForm)
  /-- Invalidates a handle slot (R309). -/
  | hinv (x : LForm)
  /-- Reads a slot's current handle and validity (R309). -/
  | hget (x : LForm)
  /-- An hset, hinv or hget issued earlier has its scalar results written, and path F falls for it (R309). -/
  | handleResultWritten (f : Nat)
  /-- Opens an accumulator table with its spill region (R228). -/
  | spOpen (x : PForm)
  /-- Checks a seed list and marks the table seeded (R229). -/
  | spSeed (x : LForm)
  /-- One seed record is placed in the table as one unit (R229). -/
  | seedRecordUnit (f : Nat)
  /-- Issues one dense K-step into a table (R246). -/
  | spMma (x : PForm)
  /-- Issues a k-matching join of two tuple streams (R247). -/
  | spJoinKj (x : PForm)
  /-- Issues a join that enters records as sums (R247). -/
  | spJoinRec (x : PForm)
  /-- Issues dot products for a list of (r, c) pairs (R248). -/
  | spJoinPair (x : PForm)
  /-- Issues a grouped K-step with a B operand per group (R249). -/
  | spGrp (x : PForm)
  /-- An array applies one unit whole to its table, entering sums in key order, inserting, discarding or spilling; the last unit completes the operation (R250). -/
  | spliceUnit (f : Nat)
  /-- Snapshots a table and emits its entries rounded or raw (R231). -/
  | spDrain (x : LForm)
  /-- A drain's writes complete and become visible; X falls (R231). -/
  | drainCompletion (f : Nat)
  /-- Clears a table, optionally keeping seeds (R232). -/
  | spClear (x : LForm)
  /-- Closes a table and unpins its spill region (R232). -/
  | spClose (x : LForm)
  /-- Reads a table's occupancy and counts (R233). -/
  | spStat (x : LForm)
  /-- Sets the burst credit of the table's arrays and starts ramp-up (R252). -/
  | burst (x : LForm)
  /-- An array with no queued unit and no credit for 256 cycles ramps down (R251). -/
  | arrayRampDown (q : Nat)
  /-- An array idle for 256 or more cycles ramps up over 48 filler cycles before its next unit (R251). -/
  | arrayRampUp (q : Nat)
  /-- Burst credit expires after 4,096 idle cycles (R252). -/
  | burstCreditExpiry (q : Nat)
  /-- Sets each active lane's frame size (R116). -/
  | frame (x : LForm)
  /-- Grows each active lane's frame, stalling for payouts (R116). -/
  | grow (x : LForm)
  /-- Grows only the lanes able to grow at once, reporting failures in kq (R117). -/
  | growTry (x : LForm)
  /-- Grows the strand's ring from free quadrant plies (R118). -/
  | growRing (x : LForm)
  /-- Shrinks each active lane's frame (R116). -/
  | trim (x : LForm)
  /-- Pays out resident plies below base and the link records (R119). -/
  | flush (x : LForm)
  /-- The reel writes a needed lane-ply or link record to memory, or marks it stuck on a fault (R107). -/
  | reelPayout (th : Nat)
  /-- The reel reads a needed lane-ply or link record back from memory (R107). -/
  | reelHaulIn (th : Nat)
  /-- The reel copies or hauls in one ply or record ahead of need (R108). -/
  | reelWorkAhead (th lane : Nat) (x : ReelAhead)
  /-- L-form branch by a 27-bit offset (R134). -/
  | bra (x : LForm)
  /-- Branch to a parcel offset held in a scalar register (R135). -/
  | jmp (x : LForm)
  /-- Indirect branch through a target table (R136). -/
  | brx (x : LForm)
  /-- Direct call that writes a link record and moves the frame base (R121). -/
  | call (x : LForm)
  /-- Indirect call through a target table (R121). -/
  | callx (x : LForm)
  /-- L-form return under a guard (R122). -/
  | ret (x : LForm)
  /-- L-form exit of the guarded lanes (R98). -/
  | exit (x : LForm)
  /-- L-form knot (R131). -/
  | knot (x : LForm)
  /-- L-form done: marks the guarded lanes idle (R92). -/
  | done (x : LForm)
  /-- L-form take (R93). -/
  | take (x : LForm)
  /-- L-form yield (R99). -/
  | yield (x : LForm)
  /-- L-form nop (R99). -/
  | nop (x : LForm)
  /-- Stops the acting lanes' group with TRAP and a code (R350). -/
  | trap (x : LForm)
  /-- L-form brk: stops the acting lanes' group with BRK (R350). -/
  | brk (x : LForm)
  /-- A strand with no group, idle lanes and a non-empty item queue is restarted at its loop head (R94). -/
  | strandRestart (th : Nat)
  /-- A strand with no live lane retires once its path counters and reel transfers are done, freeing its slot, plies and region (R100). -/
  | strandRetire (th : Nat)
  /-- Every workgroup and engine operation of a launch is done: the completion word receives its add at system scope with release (R74). -/
  | launchComplete (l : Nat)
  /-- Reads a control register (R343). -/
  | csrr (x : LForm)
  /-- Writes a control register that has no row of its own, such as TLBA (R341). -/
  | csrw (x : LForm)
  /-- A write of SCR sets the FP status and the partition, with the effect of part (R341). -/
  | scrWrite (th : Nat) (v : Word)
  /-- TLBC command 0 drops every translation of the page at TLBA and holds the writer until this is done (R342). -/
  | tlbInvalidatePage (th : Nat)
  /-- TLBC command 1 drops every translation of the context (R342). -/
  | tlbInvalidateAll (th : Nat)
  /-- Selects a stopped strand for the window (R346). -/
  | winsel (x : LForm)
  /-- Reads an item of the selected strand (R347). -/
  | winrd (x : LForm)
  /-- Writes an item of the selected strand (R347). -/
  | winwr (x : LForm)
  /-- Commits and releases the handler's stores, then continues the selected strand (R349). -/
  | resume (x : LForm)
  /-- Discards the selected strand's quanta and exits all of its lanes (R349). -/
  | kill (x : LForm)
  /-- Escalates the selected stop to the fault log (R349). -/
  | faultack (x : LForm)
  /-- An idle handler slot starts the context's handler at its entry for a pending stop (R344). -/
  | handlerStart (core : Nat)
  /-- An escalation takes a free ring slot, or coalesces, writes its record and raises the vector and FAULT event bits (R351). -/
  | faultLogWrite
  /-- Commits and releases the issuer's quanta and appends a launch to the distributor list (R73). -/
  | launch (x : PForm)
  /-- The distributor places the next waiting workgroup on the first core that can hold it, and sets up its state (R76). -/
  | workgroupPlacement (ctx : Nat)
  /-- Waits until a memory word meets a condition (R381). -/
  | watch (x : LForm)
  /-- The home finds a value meeting the condition; the thread receives it and acquires (R381). -/
  | watchMet (q : Nat)
  /-- A watched word in host memory or a device-link window is read at least once per microsecond (R381). -/
  | watchPoll (q : Nat)
  /-- Releases, writes a word atomically and raises a vector (R382). -/
  | signal (x : LForm)
  /-- Releases and ORs bits into a queue's event register (R382). -/
  | signalQ (x : LForm)
  /-- Waits for events of a mask, with a timeout (R383). -/
  | evwait (x : LForm)
  /-- The evwait timeout passes and the thread receives the TIMER bit (R383). -/
  | evwaitTimeout (q : Nat)
  /-- Sets a queue's priority (R384). -/
  | qprio (x : LForm)
  /-- Closes a counted loop in the access slice (R165). -/
  | aLoop (x : LForm)
  /-- Reads 128 bytes into a feed-queue row (R166). -/
  | aLd (x : LForm)
  /-- Walks a CSR or COO list into the feed queues (R167). -/
  | aWalk (x : LForm)
  /-- Waits until a feed queue holds at most n rows (R168). -/
  | aSync (x : LForm)
  /-- Ends the access thread (R168). -/
  | aEnd (x : LForm)
  /-- Writes an a register by mode (R164). -/
  | aSet (x : LForm)
  /-- A feed row read lands in its queue and path A falls (R169). -/
  | feedRowLand (f : Nat)
  /-- An L1 copy of a policy-0 line is dropped at most 4,096 cycles after its fill (R323). -/
  | l1LineDrop (core line : Nat)
  /-- At the end of each 1 ms window, the average power decides whether issue cycles are withheld (R14). -/
  | powerWindow (watts : Nat)
  /-- A rail that cannot hold causes an undervoltage error that ends every resident context (R14). -/
  | undervoltage
  /-- An uncorrectable ECC error ends its owning context, or zero-fills a line with no resident owner (R352). -/
  | uncorrectableError (loc : ErrLoc)
  /-- The scrubber reads and corrects every protected array within each 24 hours (R353). -/
  | scrubPass
  /-- Every 10 s the planner sets the rail offsets and marks quadrants degraded (R404). -/
  | marginPlan (slack : List (Nat × Nat))
  /-- A quadrant whose slack reaches 0 ps ends its owning contexts and is withdrawn (R405). -/
  | quadrantSlackZero (q : Nat)
  /-- A switch-out request halts a workgroup's strands at clause boundaries once reconverged (R360). -/
  | workgroupHalt (w : Nat)
  /-- After h µs, unhalted strands halt at their next clause boundary with a forced save (R360). -/
  | haltTimeout (w : Nat)
  /-- Once E, F and A are zero, the workgroup record is written to the save area and its resources are freed (R363). -/
  | workgroupSave (w : Nat)
  /-- A shared quadrant issues nothing for 128 cycles, then the other half becomes active (R362). -/
  | shadowSwap (q : Nat)
  /-- The background copy of the old half to its save area ends (R362). -/
  | shadowSpillEnd (q : Nat)
  /-- A saved workgroup returns to its core when R77 can allot its needs (R364). -/
  | workgroupRestore (w : Nat)
  /-- At t0 and every 10 µs, each affected queue is set to run, checkpoint, discard or ended (R370). -/
  | deadlineDecision (d : Nat)
  /-- At T - 40 µs, remaining affected workgroups are discarded or their contexts end (R370). -/
  | deadlineCutoff (d : Nat)
  /-- Once every affected workgroup has left, the reply is written as a system-scope release (R373). -/
  | deadlineReply (d : Nat)
  /-- A master claims ownership of the device (R395). -/
  | claim
  /-- The owner extends its lease (R395). -/
  | renew
  /-- The owner names a target master kind and a nonce for takeover (R396). -/
  | handover
  /-- Writes a summary snapshot of device state (R397). -/
  | resync
  /-- Creates a context from a descriptor (R357). -/
  | ctxCreate
  /-- Ends a context and zero-fills its storage (R356). -/
  | ctxDestroy
  /-- Changes a context's fence-strengthening mode (R335). -/
  | ctxFlags
  /-- Writes the page-owner table (R358). -/
  | pageOwner
  /-- Loads an AES key slot and resets its counters (R296). -/
  | keyLoad
  /-- Posts an eviction deadline (R368). -/
  | deadline
  /-- Reopens quadrants for placement and restore (R371). -/
  | reopen
  /-- Starts a queue thread on a code object (R378). -/
  | queueStart
  /-- Stops a queue thread and discards its open quantum (R379). -/
  | queueStop
  /-- Resumes a queue thread stopped by a fault (R379). -/
  | queueResume
  /-- Sets the fault-log ring base, size and vector (R351). -/
  | faultlogSet
  /-- Resolves a fault-log record: resume, kill or end the context (R351). -/
  | faultReply
  /-- Validates and maps a code object into its code window (R61). -/
  | codeLoad
  /-- Swaps in a re-optimised translation at one instant (R68). -/
  | codeReplace
  /-- Unloads a code object once no strand uses it (R69). -/
  | codeUnload
  /-- Verifies and stages firmware for the next reset (R403). -/
  | fwStage
  /-- Verifies and stages a configuration record for the next reset (R403). -/
  | cfgStage
  /-- Returns the margins section (R394). -/
  | margin
  /-- The owner's 1 s lease runs out and the device has no owner (R395). -/
  | leaseExpiry
  /-- A handover with no matching claim within 1 s lapses (R396). -/
  | handoverLapse
  /-- An FLR of a virtual function destroys its bound context (R390). -/
  | functionLevelReset (vf : Nat)
  /-- A TDI leaving RUN ends its bound confidential context (R390). -/
  | tdiLeaveRun (vf : Nat)
  /-- A host access through BAR2 is translated and checked, or completes with all-ones (R389). -/
  | hostBarAccess (a : BarAccess)
  /-- At reset the device zero-fills DRAM, has no owner and runs topology discovery before accepting work (R409). -/
  | deviceReset
  /-- Die records answering challenges are verified, and links enabled or disabled (R401). -/
  | topologyDiscovery (link : Nat) (rec : List Byte)
  /-- A die record missing after 100 ms leaves its link disabled (R401). -/
  | dieRecordTimeout (link : Nat)
  /-- A request message of the die protocol (R399). -/
  | ngalanReq (m : NgMsg)
  /-- A snoop that invalidates another die's copy (R400). -/
  | ngalanSnp (m : NgMsg)
  /-- A response message of the die protocol (R399). -/
  | ngalanRsp (m : NgMsg)
  /-- A data message of the die protocol (R399). -/
  | ngalanDat (m : NgMsg)
  /-- A management message, such as from a fabric manager (R399). -/
  | ngalanMgt (m : NgMsg)
  /-- An error message of the die protocol (R398). -/
  | ngalanErr (m : NgMsg)
  /-- A message with a reserved class or opcode is dropped and counted, with a retrain after 16 within 1 ms (R398). -/
  | ngalanBadMessage (m : NgMsg)
  /-- An inbound device-link access is checked against its export and translated (R402). -/
  | inboundLinkAccess (a : LinkAccess)
  /-- A received flit's control slot returns credits for each message class and carries an acknowledgement number (R398). -/
  | controlSlot (link : Nat) (credits : List Nat) (ack : Nat)
  deriving DecidableEq, Repr

end Sys2Proof
end

