-- ==== Sys2Proof/WellFormed.lean ====
section
/-!
DEFINITION. Which instructions are well formed: the limits on fields, types, flags and literals that a clause's parcels
decide on their own (R23 to R36, R199, R200 and the field tables of each chapter), and the kinds of code and clause
classes that may hold each operation (R51, R52).
-/

namespace Sys2Proof

/-- The kinds of code of Table 3-4. -/
inductive CodeKind where
  | exec | handler | access | queue
  deriving DecidableEq, Repr

/-- An instruction by its form, major and minor (Tables 3-1 and 3-3); an event has no encoding. -/
inductive Parts where
  | un (minor : Nat) (x : SForm)
  | ctls (minor : Nat) (st : BitVec 3)
  | brs (x : BrsForm)
  | ldi (x : LdiForm)
  | l (major minor : Nat) (x : LForm)
  | p (major minor : Nat) (x : PForm)
  | event
  deriving DecidableEq, Repr

/-- The form, major and minor of each operation (Tables 3-1 and 3-3). -/
def Instr.parts : Instr → Parts
  | .unMov x => .un 0 x
  | .unNot x => .un 1 x
  | .unNeg x => .un 2 x
  | .unAbs x => .un 3 x
  | .unPopc x => .un 4 x
  | .unClz x => .un 5 x
  | .unBrev x => .un 6 x
  | .fabs x => .un 7 x
  | .ctlsNop n => .ctls 0 n
  | .ctlsYield n => .ctls 1 n
  | .ctlsKnot n => .ctls 2 n
  | .ctlsRet n => .ctls 3 n
  | .ctlsExit n => .ctls 4 n
  | .ctlsDone n => .ctls 5 n
  | .ctlsBrk n => .ctls 6 n
  | .ctlsTake n => .ctls 7 n
  | .brs x => .brs x
  | .ldi x => .ldi x
  | .add x => .l 1 0 x
  | .sub x => .l 1 1 x
  | .mul x => .l 1 2 x
  | .mulh x => .l 1 3 x
  | .mulhu x => .l 1 4 x
  | .mad x => .l 1 5 x
  | .min x => .l 1 6 x
  | .max x => .l 1 7 x
  | .minu x => .l 1 8 x
  | .maxu x => .l 1 9 x
  | .abs x => .l 1 10 x
  | .neg x => .l 1 11 x
  | .and x => .l 1 12 x
  | .or x => .l 1 13 x
  | .xor x => .l 1 14 x
  | .not x => .l 1 15 x
  | .tbl3 x => .l 1 16 x
  | .shl x => .l 1 17 x
  | .shr x => .l 1 18 x
  | .sar x => .l 1 19 x
  | .rotl x => .l 1 20 x
  | .bfe x => .l 1 21 x
  | .bfeu x => .l 1 22 x
  | .bfi x => .l 1 23 x
  | .clz x => .l 1 24 x
  | .popc x => .l 1 25 x
  | .brev x => .l 1 26 x
  | .mov x => .l 1 27 x
  | .dot4 x => .l 1 28 x
  | .add64 x => .l 2 0 x
  | .sub64 x => .l 2 1 x
  | .lea x => .l 2 2 x
  | .leaCode x => .l 2 2 x
  | .mov64 x => .l 2 3 x
  | .shl64 x => .l 2 4 x
  | .shr64 x => .l 2 5 x
  | .apoff x => .l 2 6 x
  | .apgen x => .l 2 6 x
  | .apclass x => .l 2 7 x
  | .fadd x => .l 3 0 x
  | .fsub x => .l 3 1 x
  | .fmul x => .l 3 2 x
  | .fma x => .l 3 3 x
  | .fnma x => .l 3 4 x
  | .fmin x => .l 3 5 x
  | .fmax x => .l 3 6 x
  | .fround x => .l 3 7 x
  | .fclamp x => .l 3 8 x
  | .fdot2 x => .l 3 9 x
  | .frcp x => .l 4 0 x
  | .frsq x => .l 4 1 x
  | .fsqrt x => .l 4 2 x
  | .fexp2 x => .l 4 3 x
  | .flog2 x => .l 4 4 x
  | .fsin x => .l 4 5 x
  | .fcos x => .l 4 6 x
  | .ftanh x => .l 4 7 x
  | .fcvt x => .l 5 0 x
  | .f2i x => .l 5 1 x
  | .i2f x => .l 5 2 x
  | .pack2 x => .l 5 3 x
  | .unpack2 x => .l 5 4 x
  | .nadd x => .l 6 0 x
  | .nmul x => .l 6 1 x
  | .nfma x => .l 6 2 x
  | .nmin x => .l 6 3 x
  | .nmax x => .l 6 4 x
  | .npack x => .l 6 5 x
  | .nunpack x => .l 6 6 x
  | .ncvt x => .l 6 7 x
  | .icmp x => .l 7 0 x
  | .icmpu x => .l 7 1 x
  | .fcmp x => .l 7 2 x
  | .fclass x => .l 7 3 x
  | .kand x => .l 7 4 x
  | .kor x => .l 7 5 x
  | .kxor x => .l 7 6 x
  | .kinv x => .l 7 7 x
  | .kmov x => .l 7 8 x
  | .kpop x => .l 7 9 x
  | .lxch x => .l 8 0 x
  | .vote x => .l 8 1 x
  | .redux x => .l 8 2 x
  | .scan x => .l 8 3 x
  | .compress x => .l 8 4 x
  | .expand x => .l 8 5 x
  | .isect x => .l 8 6 x
  | .part x => .l 8 7 x
  | .rdlane x => .l 8 8 x
  | .bcast x => .l 8 9 x
  | .qswap x => .l 9 0 x
  | .qbcast x => .l 9 1 x
  | .qred x => .l 9 2 x
  | .nfset x => .l 10 0 x
  | .nfget x => .l 10 1 x
  | .cbld x => .l 10 2 x
  | .cbrd x => .l 10 3 x
  | .lqset x => .l 10 4 x
  | .lqclr x => .l 10 5 x
  | .ld x => .l 12 0 x
  | .st x => .l 12 1 x
  | .lde x => .l 12 2 x
  | .ste x => .l 12 3 x
  | .cst x => .l 12 4 x
  | .prefetch x => .l 12 5 x
  | .atom x => .l 13 0 x
  | .red x => .l 13 1 x
  | .fence x => .l 14 0 x
  | .wait x => .l 14 1 x
  | .bar x => .l 14 2 x
  | .barArrive x => .l 14 3 x
  | .barWait x => .l 14 4 x
  | .cmAdd x => .l 15 0 x
  | .cmMax x => .l 15 1 x
  | .cmAxpy x => .l 15 2 x
  | .cmScale x => .l 15 3 x
  | .cmFill x => .l 15 4 x
  | .cmSum x => .l 15 5 x
  | .cpy x => .l 16 0 x
  | .cpyt x => .p 16 1 x
  | .dcpy x => .l 16 2 x
  | .ecpy x => .l 16 3 x
  | .abset x => .l 16 4 x
  | .abdecl x => .l 16 5 x
  | .abarr x => .l 16 6 x
  | .abwait x => .l 16 7 x
  | .abtest x => .l 16 8 x
  | .fget x => .p 17 0 x
  | .hset x => .l 17 1 x
  | .hinv x => .l 17 2 x
  | .hget x => .l 17 3 x
  | .spOpen x => .p 18 0 x
  | .spSeed x => .l 18 1 x
  | .spMma x => .p 18 2 x
  | .spJoinKj x => .p 18 3 x
  | .spJoinRec x => .p 18 3 x
  | .spJoinPair x => .p 18 3 x
  | .spGrp x => .p 18 4 x
  | .spDrain x => .l 18 5 x
  | .spClear x => .l 18 6 x
  | .spClose x => .l 18 7 x
  | .spStat x => .l 18 8 x
  | .burst x => .l 18 9 x
  | .frame x => .l 19 0 x
  | .grow x => .l 19 1 x
  | .growTry x => .l 19 1 x
  | .growRing x => .l 19 1 x
  | .trim x => .l 19 2 x
  | .flush x => .l 19 3 x
  | .bra x => .l 20 0 x
  | .jmp x => .l 20 1 x
  | .brx x => .l 20 2 x
  | .call x => .l 20 3 x
  | .callx x => .l 20 4 x
  | .ret x => .l 20 5 x
  | .exit x => .l 20 6 x
  | .knot x => .l 20 7 x
  | .done x => .l 20 8 x
  | .take x => .l 20 9 x
  | .yield x => .l 20 10 x
  | .nop x => .l 20 11 x
  | .trap x => .l 20 12 x
  | .brk x => .l 20 13 x
  | .csrr x => .l 21 0 x
  | .csrw x => .l 21 1 x
  | .winsel x => .l 21 2 x
  | .winrd x => .l 21 3 x
  | .winwr x => .l 21 4 x
  | .resume x => .l 21 5 x
  | .kill x => .l 21 6 x
  | .faultack x => .l 21 7 x
  | .launch x => .p 22 0 x
  | .watch x => .l 22 1 x
  | .signal x => .l 22 2 x
  | .signalQ x => .l 22 2 x
  | .evwait x => .l 22 3 x
  | .qprio x => .l 22 4 x
  | .aLoop x => .l 23 0 x
  | .aLd x => .l 23 1 x
  | .aWalk x => .l 23 2 x
  | .aSync x => .l 23 3 x
  | .aEnd x => .l 23 4 x
  | .aSet x => .l 23 5 x
  | .clausePick _ => .event
  | .starvationGuard _ => .event
  | .groupRotation _ => .event
  | .controlCorePick _ => .event
  | .cbldInstant _ => .event
  | .loadDataReturn _ => .event
  | .remotePromotion _ => .event
  | .atomicPerform _ => .event
  | .storeApply _ _ => .event
  | .cmRangeCompletion _ => .event
  | .copyCompletion _ => .event
  | .arrivalPerform _ => .event
  | .fgetCompletion _ => .event
  | .seedRecordUnit _ => .event
  | .spliceUnit _ => .event
  | .drainCompletion _ => .event
  | .arrayRampDown _ => .event
  | .arrayRampUp _ => .event
  | .burstCreditExpiry _ => .event
  | .reelPayout _ => .event
  | .reelHaulIn _ => .event
  | .reelWorkAhead _ _ _ => .event
  | .strandRestart _ => .event
  | .strandRetire _ => .event
  | .launchComplete _ => .event
  | .scrWrite _ _ => .event
  | .tlbInvalidatePage _ => .event
  | .tlbInvalidateAll _ => .event
  | .handlerStart _ => .event
  | .faultLogWrite => .event
  | .workgroupPlacement _ => .event
  | .watchMet _ => .event
  | .watchPoll _ => .event
  | .evwaitTimeout _ => .event
  | .feedRowLand _ => .event
  | .l1LineDrop _ _ => .event
  | .powerWindow _ => .event
  | .undervoltage => .event
  | .uncorrectableError _ => .event
  | .scrubPass => .event
  | .marginPlan _ => .event
  | .quadrantSlackZero _ => .event
  | .workgroupHalt _ => .event
  | .haltTimeout _ => .event
  | .workgroupSave _ => .event
  | .shadowSwap _ => .event
  | .shadowSpillEnd _ => .event
  | .workgroupRestore _ => .event
  | .deadlineDecision _ => .event
  | .deadlineCutoff _ => .event
  | .deadlineReply _ => .event
  | .claim => .event
  | .renew => .event
  | .handover => .event
  | .resync => .event
  | .ctxCreate => .event
  | .ctxDestroy => .event
  | .ctxFlags => .event
  | .pageOwner => .event
  | .keyLoad => .event
  | .deadline => .event
  | .reopen => .event
  | .queueStart => .event
  | .queueStop => .event
  | .queueResume => .event
  | .faultlogSet => .event
  | .faultReply => .event
  | .codeLoad => .event
  | .codeReplace => .event
  | .codeUnload => .event
  | .fwStage => .event
  | .cfgStage => .event
  | .margin => .event
  | .leaseExpiry => .event
  | .handoverLapse => .event
  | .functionLevelReset _ => .event
  | .tdiLeaveRun _ => .event
  | .hostBarAccess _ => .event
  | .deviceReset => .event
  | .topologyDiscovery _ _ => .event
  | .dieRecordTimeout _ => .event
  | .ngalanReq _ => .event
  | .ngalanSnp _ => .event
  | .ngalanRsp _ => .event
  | .ngalanDat _ => .event
  | .ngalanMgt _ => .event
  | .ngalanErr _ => .event
  | .ngalanBadMessage _ => .event
  | .inboundLinkAccess _ => .event
  | .handleResultWritten _ => .event
  | .controlSlot _ _ _ => .event

/-- An f register (Table 2-8). -/
def isF (s : Nat) : Bool := s < 320
/-- A g register. -/
def isG (s : Nat) : Bool := 320 ≤ s && s < 384
/-- A scalar register. -/
def isS (s : Nat) : Bool := 384 ≤ s && s < 448
/-- A loop queue. -/
def isLq (s : Nat) : Bool := 448 ≤ s && s < 464
/-- A feed queue. -/
def isFq (s : Nat) : Bool := 464 ≤ s && s < 472
/-- A bypass entry. -/
def isByp (s : Nat) : Bool := 472 ≤ s && s < 475
/-- An integer or FP32 constant specifier. -/
def isConst (s : Nat) : Bool := 480 ≤ s && s < 504
/-- An f or g register. -/
def isFG (s : Nat) : Bool := s < 384
/-- An f, g or s register. -/
def isFGS (s : Nat) : Bool := s < 448
/-- An even f, g or s register, naming a pair (R28). -/
def isPair (s : Nat) : Bool := s < 448 && s % 2 == 0
/-- An invariant specifier (Table 2-8). -/
def isInv (s : Nat) : Bool := isS s || s == 476 || s == 479 || isConst s || s == 504
/-- Any 32-bit source, the literal included (Table 2-8). -/
def src (s : Nat) : Bool := s < 505
/-- Any 32-bit source of an nf format: no constant specifier (Table 2-9). -/
def srcNf (s : Nat) : Bool := s < 480 || s == 504
/-- A 64-bit source: a pair, %zero, a constant or the literal (R199, R36, R32). -/
def src64 (s : Nat) : Bool := isPair s || s == 479 || isConst s || s == 504
/-- A 32-bit source in an X or L form whose value is an integer 480..495, a scalar or the literal. -/
def intArg (s : Nat) : Bool := isS s || (480 ≤ s && s < 496) || s == 504
/-- As `intArg`, without the literal. -/
def intArgL (s : Nat) : Bool := isS s || (480 ≤ s && s < 496)
/-- An integer specifier lo..hi, a scalar or the literal. -/
def intIn (lo hi s : Nat) : Bool := isS s || (lo ≤ s && s ≤ hi) || s == 504
/-- A vector destination of 32 bits. -/
def dstV (s : Nat) : Bool := isFG s || isLq s || s == 479
/-- A 32-bit destination, vector or scalar. -/
def dstVS (s : Nat) : Bool := isFGS s || isLq s || s == 479
/-- An even scalar register. -/
def isSPair (s : Nat) : Bool := isS s && s % 2 == 0
/-- A field that must be zero. -/
def zro (s : Nat) : Bool := s == 0
/-- A plain number in a range. -/
def num (lo hi s : Nat) : Bool := lo ≤ s && s ≤ hi

/-- The rule of one register field: whether it holds a specifier, and which values it may hold. -/
structure FieldRule where
  spec : Bool
  ok : Nat → Bool

/-- A field that holds a specifier. -/
def sp (f : Nat → Bool) : FieldRule := ⟨true, f⟩
/-- A field that holds a plain number, or nothing. -/
def nu (f : Nat → Bool) : FieldRule := ⟨false, f⟩

/-- The shared limits of an L form (R27, R29, R30, R32, R37): each field's rule; `tOk`: T may be set; `ruOk`: RU may be set;
`k0`: the guard must be k0. A scalar destination takes invariant sources and guard k0; the literal is present exactly when a
source names it; in a queue program no specifier is per lane. -/
def LForm.chkLit (dLit : Bool) (kd : CodeKind) (x : LForm) (d a b c : FieldRule) (tOk ruOk k0 : Bool) (md : Bool) : Bool :=
  let lits := dLit || (a.spec && x.a.toNat == 504) || (b.spec && x.b.toNat == 504) || (c.spec && x.c.toNat == 504)
  let invs := (!a.spec || isInv x.a.toNat) && (!b.spec || isInv x.b.toNat) && (!c.spec || isInv x.c.toNat)
  let sd := d.spec && isS x.d.toNat
  d.ok x.d.toNat && a.ok x.a.toNat && b.ok x.b.toNat && c.ok x.c.toNat && md &&
  (x.lit.isSome == lits) &&
  (!x.tr || (tOk && d.spec && isFG x.d.toNat)) && (!x.ru || ruOk) &&
  (!x.gneg || x.gk != 0) && (!k0 || x.gk == 0) &&
  (!sd || (invs && x.gk == 0)) &&
  (kd != .queue || (invs && (!d.spec || isInv x.d.toNat)))

/-- `LForm.chkLit` where field d holds no literal, as it is no source. -/
def LForm.chk (kd : CodeKind) (x : LForm) (d a b c : FieldRule) (tOk ruOk k0 : Bool) (md : Bool) : Bool :=
  x.chkLit false kd d a b c tOk ruOk k0 md

/-- The type field of an arithmetic modifier (R28). -/
def LForm.ty (x : LForm) : Nat := x.md.toNat / 4
/-- The rounding field of an arithmetic modifier (R28). -/
def LForm.rn (x : LForm) : Nat := x.md.toNat % 4

/-- Whether an integer operand that the parcels give by themselves, as a constant or the literal, keeps its limits (R23); a register's
value is checked at the instruction. -/
def LForm.fixedIn (x : LForm) (s lo hi : Nat) : Bool :=
  if s == 504 then num lo hi (x.lit.getD 0).toNat else !(480 ≤ s && s < 496) || num lo hi (s - 480)

/-- The INT minors (R204, Table 11-1). -/
def wfInt (kd : CodeKind) (m : Nat) (x : LForm) : Bool :=
  let w := x.ty == 5 || x.ty == 6
  let md (ts : List Nat) := ts.contains x.ty && x.rn == 0
  let d := sp (if w then isPair else dstVS)
  let s := sp (if w then src64 else src)
  let z := nu zro
  let go (a b c : FieldRule) (ts : List Nat) := x.chk kd d a b c (!w) false false (md ts)
  match m with
  | 0 | 1 => go s s (nu (num 0 (if w then 0 else 1))) [0, 5]
  | 2 | 6 | 7 => go s s z [0, 5]
  | 3 => go s s z [0]
  | 4 => go s s z [1]
  | 5 | 28 => go s s s [0]
  | 8 | 9 | 12 | 13 | 14 => go s s z [1, 6]
  | 10 => go s z z [0]
  | 11 => go s z z [0, 5]
  | 15 | 27 => go s z z [1, 6]
  | 16 => x.chk kd (sp isFGS) s s (nu (num 0 255)) true false false (md [1])
  | 17 | 18 => go s (sp src) z [1, 6]
  | 19 => go s (sp src) z [0, 5]
  | 20 => go s s z [1]
  | 21 => go s s s [0]
  | 22 => go s s s [1]
  | 23 => x.chk kd (sp isFGS) s s s true false false (md [1])
  | 24 | 25 | 26 => go s z z [1]
  | _ => false

/-- The ADR minors (R206, R207, R259; Tables 11-3, 11-4, 14-2). The modifier is CODE or DIR, two bits, ZX, SX. -/
def wfAdr (kd : CodeKind) (m : Nat) (x : LForm) : Bool :=
  let md := x.md.toNat
  let ex := md == 1 || md == 2
  let z := nu zro
  let go (a b c : FieldRule) (ok : Bool) := x.chk kd (sp isPair) a b c false false false ok
  match m with
  | 0 | 1 => go (sp src64) (sp (if ex then src else src64)) z (md ≤ 2)
  | 2 =>
    if md == 16 then go (sp (· == 504)) z z true
    else go (sp src64) (sp src) (nu (num 0 7)) ex
  | 3 => go (sp (if ex then src else src64)) z z (md ≤ 2)
  | 4 | 5 => go (sp src64) (sp src) z (md == 0)
  | 6 => go (sp isPair) z z (if md < 16 then md == 0 else md % 2 == 0 && md % 16 / 2 ≤ 4)
  | 7 => x.chk kd (sp isFGS) (sp isPair) z z false false false (md == 0)
  | _ => false

/-- Whether a type is packed (R200). -/
def packedTy (t : Nat) : Bool := t == 3 || t == 4

/-- A source of an element type: 2 to the −128 has no FP16 value (Table 2-9). -/
def srcF (t s : Nat) : Bool := src s && !(t == 3 && s == 503)

/-- The FPU minors (R208, Table 11-5). -/
def wfFpu (kd : CodeKind) (m : Nat) (x : LForm) : Bool :=
  let t := x.ty
  let d := sp (if packedTy t then dstV else dstVS)
  let s := sp (srcF t)
  let z := nu zro
  let ft := t == 2 || packedTy t
  match m with
  | 0 | 1 | 2 => x.chk kd d s s z true false false ft
  | 3 | 4 => x.chk kd d s s s true false false ft
  | 5 | 6 => x.chk kd d s s z true false false (ft && x.rn == 0)
  | 7 => x.chk kd d s z z true false false (t == 2)
  | 8 => x.chk kd d s s s true false false (ft && x.rn == 0)
  | 9 => x.chk kd (sp dstV) s s (sp src) true false false (packedTy t)
  | _ => false

/-- The SFU minors (R210). -/
def wfSfu (kd : CodeKind) (m : Nat) (x : LForm) : Bool :=
  m < 8 && x.chk kd (sp dstV) (sp src) (nu zro) (nu zro) true false false (x.ty == 2)

/-- The CVT minors (R211, Table 11-9). -/
def wfCvt (kd : CodeKind) (m : Nat) (x : LForm) : Bool :=
  let t := x.ty
  let z := nu zro
  let bit := nu (num 0 1)
  match m with
  | 0 => x.chk kd (sp dstV) (sp src) (sp src) bit true false false (packedTy t && (x.c == 0 || x.rn == 0))
  | 1 => x.chk kd (sp (if t == 5 then isPair else dstVS)) (sp src) z bit (t != 5) false false (t == 0 || t == 5)
  | 2 => x.chk kd (sp dstVS) (sp (if t == 5 then src64 else src)) z bit true false false (t == 0 || t == 5)
  | 3 => x.chk kd (sp dstVS) (sp src) (sp src) z true false false ((t == 0 || t == 1) && x.rn == 0)
  | 4 =>
    x.chk kd (sp (if packedTy t then dstV else dstVS)) (sp (srcF t)) z bit true false false
      ((t == 0 || t == 1 || packedTy t) && x.rn == 0)
  | _ => false

/-- The NRW minors (R213, Table 11-12). -/
def wfNrw (kd : CodeKind) (m : Nat) (x : LForm) : Bool :=
  let d := sp dstV
  let s := sp srcNf
  let z := nu zro
  let rm := nu (num 0 4)
  let e := sp (intIn 480 487)
  let ok := x.ty == 7
  match m with
  | 0 | 1 => x.chk kd d s s rm true false false ok
  | 2 => x.chk kd d s s s true false false ok
  | 3 | 4 => x.chk kd d s s z true false false ok
  | 5 => x.chk kd (sp isFG) (sp src) e rm true false false ok
  | 6 => x.chk kd d s e z true false false ok
  | 7 => x.chk kd d s rm (nu (num 0 3)) true false false ok
  | _ => false

/-- The CMP minors (R216, Table 11-14). -/
def wfCmp (kd : CodeKind) (m : Nat) (x : LForm) : Bool :=
  let z := nu zro
  let kd7 := nu (num 1 7)
  let ka := nu (num 0 7)
  let val := x.c.toNat / 8 == 1
  let cond := x.c.toNat % 8
  let d := if val then sp dstVS else kd7
  let cc (hi : Nat) := nu (fun c => c < 16 && c % 8 ≤ hi)
  let s := sp (if x.ty == 5 || x.ty == 6 then src64 else src)
  let md0 := x.md == 0
  let _ := cond
  match m with
  | 0 => x.chk kd d s s (cc 5) val false false ((x.ty == 0 || x.ty == 5) && x.rn == 0)
  | 1 => x.chk kd d s s (cc 5) val false false ((x.ty == 1 || x.ty == 6) && x.rn == 0)
  | 2 => x.chk kd d s s (cc 7) val false false (x.ty == 2 && x.rn == 0)
  | 3 => x.chk kd kd7 s z (nu (fun _ => true)) false false false (x.ty == 2 && x.rn == 0)
  | 4 | 5 | 6 => x.chk kd kd7 ka ka z false false false md0
  | 7 => x.chk kd kd7 ka z z false false false md0
  | 8 =>
    match x.c.toNat with
    | 0 => x.chk kd kd7 (sp src) z (nu (fun _ => true)) false false false md0
    | 1 => x.chk kd kd7 (sp isInv) z (nu (fun _ => true)) false false false md0
    | 2 => x.chk kd (sp dstV) ka z (nu (fun _ => true)) true false false md0
    | 3 => x.chk kd (sp isS) ka z (nu (fun _ => true)) false false false md0
    | _ => false
  | 9 => x.chk kd (sp dstVS) ka z z true false false md0
  | _ => false

/-- The XLN minors (R141, Table 8-1). A loop queue may be a of `rdlane`, as R159 lets it stand in every source field that takes an f register
(DEDUCED, log 9). -/
def wfXln (kd : CodeKind) (m : Nat) (x : LForm) : Bool :=
  let md := x.md.toNat
  let z := nu zro
  let s := sp src
  let d := sp dstV
  let i := sp intArg
  match m with
  | 0 => x.chk kd d s s z true false false true
  | 1 => x.chk kd d s z z true false false (md < 24 || md == 24)
  | 2 => x.chk kd d s z z true false false (md ≤ 10)
  | 3 => x.chk kd d s z z true false false (md % 16 ≤ 10)
  | 4 | 5 => x.chk kd d s s z true false false (md == 0)
  | 6 =>
    x.chk kd (sp (fun d => d ≤ 318 || (320 ≤ d && d ≤ 382))) s s (nu (fun c => isSPair c)) false false false
      (1 ≤ md && md ≤ 7) && (kd != .queue)
  | 7 => x.chk kd z (sp (fun a => intArg a && (!isConst a || a == 482 || a == 484 || a == 488))) z z false false true (md == 0)
  | 8 => x.chk kd (nu isS) (nu (fun a => isFG a || isLq a)) i z false false true (md == 0 && x.fixedIn x.b.toNat 0 31)
  | 9 => x.chk kd d s i z true false false (md == 0)
  | _ => false

/-- The QUAD minors (R141, Table 8-1). -/
def wfQuad (kd : CodeKind) (m : Nat) (x : LForm) : Bool :=
  let md := x.md.toNat
  let d := sp dstV
  let s := sp src
  match m with
  | 0 => x.chk kd d s (nu (num 481 483)) (nu zro) true false false (md == 0)
  | 1 => x.chk kd d s (nu (num 480 483)) (nu zro) true false false (md == 0)
  | 2 => x.chk kd d s (nu zro) (nu zro) true false false (md ≤ 10)
  | _ => false

/-- The CFG minors (R157, R182, R185). -/
def wfCfg (kd : CodeKind) (m : Nat) (x : LForm) : Bool :=
  let md := x.md.toNat
  let z := nu zro
  match m with
  | 0 => x.chk kd z (sp (fun a => isS a || a == 504)) z z false false true (md < 4)
  | 1 => x.chk kd (sp isFGS) z z z false false false (md < 4)
  | 2 => x.chk kd z (sp (fun a => 384 ≤ a && a ≤ 440)) (nu (num 0 63)) z false false true (md == 0)
  | 3 => x.chk kd (sp (fun d => 384 ≤ d && d ≤ 440)) z (nu (num 0 63)) z false false true (md == 0)
  | 4 => x.chk kd (nu isLq) (sp (intIn 481 488)) z z false false true (md == 0 && x.fixedIn x.a.toNat 1 8)
  | 5 => x.chk kd (nu isLq) z z z false false true (md == 0)
  | _ => false

/-- A data operand of a sized access (R271): .b64 a pair, .b128 a quad in one class; of 32 bits or less a register for a load and
any source for a store. -/
def dataReg (size : Nat) (load : Bool) (s : Nat) : Bool :=
  match size with
  | 5 => isPair s
  | 6 => isFGS s && s % 4 == 0
  | _ => if load then isFGS s else src s

/-- The data field d of `st` and `cst`, a source (R35, R270, Table 14-9): a register of the size, or any source that R36 and R32 give
a value of 64 bits or less; %lit there needs the X form, and queue code takes invariant sources only (R52). -/
def dataOk (kd : CodeKind) (size : Nat) (x : LForm) : Bool :=
  let d := x.d.toNat
  (dataReg size false d || (size == 5 && src64 d)) && (kd != .queue || isInv d)

/-- The MEM minors (R270, R271, Tables 14-9 and 14-10). -/
def wfMem (kd : CodeKind) (m : Nat) (x : LForm) : Bool :=
  let sz := x.ty
  let od := x.rn
  let sc := x.c.toNat / 64
  let base := sp isPair
  let free := nu (fun _ => true)
  let scOk := (sc == 0 && od == 0) || (1 ≤ sc && sc ≤ 5 && od != 0 && sz != 6)
  match m with
  | 0 => x.chk kd (sp (dataReg sz true)) base (sp src) free false false false (sz ≤ 6 && od ≤ 2 && scOk && (od != 2 || 4 ≤ sc))
  | 1 => x.chkLit (x.d.toNat == 504) kd (nu (fun _ => true)) base (sp src) free false false false
           (sz ≤ 6 && sz != 1 && sz != 3 && od ≤ 1 && scOk && dataOk kd sz x)
  | 2 => x.chk kd (sp isFGS) base (sp src) (nu (· < 64)) false false false (x.md == 0)
  | 3 => x.chk kd (nu (fun d => isFGS d || isLq d)) base (sp src) (nu (· < 64)) false false false
           (x.md.toNat % 16 < 4 && (x.md.toNat < 16 || od == 0))
  | 4 => x.chkLit (x.d.toNat == 504) kd (nu (fun _ => true)) (sp isSPair) (sp isInv) (nu (· < 64)) false false false
           ((sz == 4 || sz == 5) && od == 0 && dataOk kd sz x)
  | 5 => x.chk kd (nu zro) base (sp src) (nu (· < 64)) false false false (od == 0 && (sz == 0 || sz == 2))
  | _ => false

/-- The access size of an atomic operation (Table 14-13). -/
def atomZ (op : Nat) : Nat := if op == 1 || op == 10 || op == 12 then 8 else 4

/-- The ATM minors (R278). -/
def wfAtm (kd : CodeKind) (m : Nat) (x : LForm) : Bool :=
  let op := x.md.toNat / 2
  let sc := x.c.toNat / 64
  let od := x.c.toNat / 16 % 4
  let b := if op == 11 then sp (fun b => isFG b && b % 2 == 0)
    else if op == 12 then sp (fun b => isFGS b && b % 4 == 0)
    else sp (if atomZ op == 8 then src64 else if op == 13 || op == 14 || op == 15 then src else src)
  let ok := x.md.toNat % 2 == 0 && 1 ≤ sc && sc ≤ 5
  match m with
  | 0 => x.chk kd (sp (if atomZ op == 8 then isPair else isFGS)) (sp isPair) b (nu (fun _ => true)) false false false ok
  | 1 => x.chk kd (nu zro) (sp isPair) b (nu (fun _ => true)) false false false
           (ok && (od == 0 || od == 2) && !(9 ≤ op && op ≤ 12))
  | _ => false

/-- The SYN minors (R86, R269, R328). -/
def wfSyn (kd : CodeKind) (m : Nat) (x : LForm) : Bool :=
  let z := nu zro
  let id := sp (fun a => isS a || (480 ≤ a && a ≤ 487))
  match m with
  | 0 => x.chk kd z z z z false false true (1 ≤ x.ty && x.ty ≤ 5)
  | 1 => x.chk kd z (sp intArg) (nu (num 0 7)) z false false true (x.md == 0 && x.fixedIn x.a.toNat 0 255)
  | 2 | 3 => x.chk kd z id (sp intArg) z false false true (x.md == 0 && x.fixedIn x.b.toNat 0 32)
  | 4 => x.chk kd z id z z false false true (x.md == 0)
  | _ => false

/-- The CMM minors (R285, Tables 15-2 to 15-4). -/
def wfCmm (kd : CodeKind) (m : Nat) (x : LForm) : Bool :=
  let t := x.ty
  let n := sp intArg
  let s := sp isS
  let ok (ts : List Nat) := ts.contains t && x.rn == 0 && (m < 2 || x.fixedIn x.c.toNat 0 (2 ^ 24))
  match m with
  | 0 => x.chk kd (nu zro) (sp isPair) (sp src) (nu (· < 64)) false false false (ok [0, 2, 3, 4])
  | 1 => x.chk kd (nu zro) (sp isPair) (sp src) (nu (· < 64)) false false false (ok [0, 1, 2, 3, 4])
  | 2 => x.chk kd (nu isS) s s n false false true (ok [0, 2])
  | 3 => x.chk kd (nu isS) s (nu zro) n false false true (ok [0, 2])
  | 4 => x.chk kd (nu (fun d => isS d || d == 479 || (480 ≤ d && d < 496))) s (nu zro) n false false true (ok [0, 2, 3])
  | 5 => x.chk kd (nu zro) s s n false false true (ok [0, 2, 3, 4])
  | _ => false

/-- Whether a parameter parcel is a substitution marker (R34). -/
def isMarker (p : Word) : Bool := p.toNat / 2 ^ 25 == 127
/-- Whether a marker is legal: a scalar register, bits [24:9] zero (R34). -/
def markerOk (p : Word) : Bool := isS (p.toNat % 512) && p.toNat / 512 % 65536 == 0

/-- A parameter parcel: a legal marker, or a value that meets its limits. -/
def par (p : Word) (ok : Nat → Bool) : Bool := if isMarker p then markerOk p else ok p.toNat

/-- A barrier field of a copy (Table 16-1). -/
def barArg (s : Nat) : Bool := isS s || s == 479

/-- The limits of the parameter parcels of `cpyt` (Table 16-4), each on its own. -/
def cpytPar (k v : Nat) : Bool :=
  match k with
  | 0 => 1 ≤ v / 65536 && 1 ≤ v % 65536
  | 3 => v < 65536
  | _ => true

/-- The limits of `cpyt` that several parcels decide together: D is 0 or at least S, dp at least D (Table 16-4). -/
def cpytTogether (p0 p2 p3 : Nat) : Bool :=
  let s := p0 % 65536
  let d := if p3 == 0 then s else p3
  s ≤ d && d ≤ p2

/-- What the parcels of `cpyt` that are no markers decide by themselves (R23): S is at most D and dp, and D at most dp. -/
def cpytFixed (p0 p2 p3 : Word) : Bool :=
  let s := p0.toNat % 65536
  (isMarker p0 || isMarker p3 || p3 == 0 || s ≤ p3.toNat) &&
  (isMarker p0 || isMarker p2 || s ≤ p2.toNat) &&
  (isMarker p2 || isMarker p3 || p3.toNat ≤ p2.toNat) &&
  (isMarker p2 || p2 != 0)

/-- The ENG minors without parameters (R293, Table 16-1). -/
def wfEng (kd : CodeKind) (m : Nat) (x : LForm) : Bool :=
  let sc := x.ty
  let cp := 1 ≤ sc && sc ≤ 5 && x.rn == 0
  let pr := sp isSPair
  let z := nu zro
  let b := sp isS
  match m with
  | 0 => x.chk kd (nu barArg) pr pr (sp intArg) false false true cp
  | 2 | 3 => x.chk kd (nu barArg) pr pr pr false false true cp
  | 4 => x.chk kd z b (sp (intIn 481 495)) z false false true (x.md == 0)
  | 5 => x.chk kd z b (sp intArg) z false false true (x.md == 0 && x.fixedIn x.b.toNat 0 (2 ^ 31 - 1))
  | 6 => x.chk kd z b (sp (intIn 481 495)) (sp intArg) false false true (x.md == 0)
  | 7 => x.chk kd z b (sp intArg) z false false true (x.md == 0)
  | 8 => x.chk kd (nu (num 1 7)) b (sp intArg) z false false true (x.md == 0)
  | _ => false

/-- `cpyt` (Tables 16-1 and 16-4). -/
def wfCpyt (kd : CodeKind) (x : PForm) : Bool :=
  x.l.chk kd (nu barArg) (sp isSPair) (sp isSPair) (nu zro) false false true (1 ≤ x.l.ty && x.l.ty ≤ 5 && x.l.rn == 0) &&
  par x.p0 (cpytPar 0) && par x.p1 (cpytPar 1) && par x.p2 (cpytPar 2) && par x.p3 (cpytPar 3) &&
  cpytFixed x.p0 x.p2 x.p3

/-- The FET minors without parameters (Table 16-1). -/
def wfFet (kd : CodeKind) (m : Nat) (x : LForm) : Bool :=
  let z := nu zro
  match m with
  | 1 => x.chk kd (sp isS) (sp intArg) (sp isSPair) z false false true (x.md.toNat % 16 == 0)
  | 2 => x.chk kd z (sp intArg) z z false false true (x.md == 0)
  | 3 => x.chk kd (sp (fun d => isS d && d ≤ 446)) (sp intArg) z z false false true (x.md == 0)
  | _ => false

/-- `fget` (R307, Table 16-12): the destinations lie in one class. -/
def wfFget (kd : CodeKind) (x : PForm) : Bool :=
  let n := if isMarker x.p0 then 1 else x.p0.toNat % 4 + 1
  x.l.chk kd (sp isFG) (nu isS) (sp src) (sp src) false false false (1 ≤ x.l.md.toNat && x.l.md.toNat ≤ 7) &&
  x.l.lit.isNone &&
  (isF (x.l.d.toNat + n - 1) || (isG x.l.d.toNat && isG (x.l.d.toNat + n - 1))) &&
  par x.p0 (· < 4) && par x.p1 (fun _ => true) && par x.p2 (fun _ => true) && par x.p3 (fun _ => true)

/-- A and B operands of a dense splice (Table 13-2). -/
def bArg (s : Nat) : Bool := isFq s || isS s
/-- The scale register of a dense splice (Table 13-2). -/
def cArg (s : Nat) : Bool := isFG s || s == 479

/-- The SPL minors without parameters (R227, R230, R244; Tables 12-6, 12-9 and 13-2). -/
def wfSpl (kd : CodeKind) (m : Nat) (x : LForm) : Bool :=
  let z := nu zro
  let md := x.md.toNat
  match m with
  | 1 => x.chk kd z (sp isSPair) (sp intArg) z false false true (md < 4)
  | 5 =>
    let f := x.d.toNat % 8
    let form := x.d.toNat / 8 % 4
    x.chk kd (nu (· < 128)) (sp isSPair) (sp (fun b => isS b || (496 ≤ b && b ≤ 503) || b == 480 || b == 504))
      (if form == 2 then z else sp intArg) false false true (md < 4) &&
      f ≤ 5 && form ≤ 2 && !(f == 5 && x.d.toNat / 32 % 2 == 1)
  | 6 => x.chk kd z z z z false false true (md < 8)
  | 7 => x.chk kd z z z z false false true (md < 4)
  | 8 => x.chk kd (sp (fun d => isS d && d ≤ 444)) z z z false false true (md < 4)
  | 9 => x.chk kd z (sp intArg) z z false false true (md < 4 && x.fixedIn x.a.toNat 0 65535)
  | _ => false

/-- The limits of `sp.open` parcel 0 and 2 on their own (Table 12-7). -/
def openPar (k v : Nat) : Bool :=
  match k with
  | 0 => v < 2 ^ 25 && v / 2 ^ 23 % 4 ≤ 2 && 6 ≤ v / 2 ^ 13 % 32 && v / 2 ^ 13 % 32 ≤ 17 && v % 8192 == 0 &&
      (v / 2 ^ 22 % 2 == 1 || v / 2 ^ 18 % 16 == 0)
  | 1 => v < 2 ^ 17
  | 2 => v < 2 ^ 24
  | _ => true

/-- `sp.open` (Tables 12-6 and 12-7): its c names a pair in direct mode and is zero in hash mode. -/
def wfSpOpen (kd : CodeKind) (x : PForm) : Bool :=
  let hash := x.p0.toNat / 2 ^ 22 % 2 == 1
  let c := if isMarker x.p0 then nu (fun c => c == 0 || isSPair c) else if hash then nu zro else nu isSPair
  x.l.chk kd (nu zro) (sp isSPair) (nu intArgL) c false false true (x.l.md.toNat < 4) &&
  par x.p0 (openPar 0) && par x.p1 (openPar 1) && par x.p2 (openPar 2) && par x.p3 (fun _ => true) &&
  (isMarker x.p0 || isMarker x.p2 || !hash || x.p2 == 0)

/-- The limits of the splice parcels on their own (Table 13-3). `k` is the parcel, `mn` the mode: 0 mma, 1 PAIR, 2 KJ, 3 REC,
4 grp. -/
def spPar (mn k v : Nat) : Bool :=
  match mn, k with
  | 0, 0 | 1, 0 => v < 2 ^ 25 && v / 512 % 16 == 0
  | 0, 1 | 2, 3 => v < 65536
  | 1, 1 => 1 ≤ v / 65536
  | 2, 0 => v < 2 ^ 17 && v % 2 ^ 13 == 0
  | 3, 0 | 3, 2 | 3, 3 => v == 0
  | 4, 0 => v < 2 ^ 17 && v / 512 % 16 == 0
  | 4, 1 => v < 2 ^ 20 && 1 ≤ v / 65536 && v / 65536 ≤ 8
  | _, _ => true

/-- All four splice parcels. -/
def spPars (mn : Nat) (x : PForm) : Bool :=
  par x.p0 (spPar mn 0) && par x.p1 (spPar mn 1) && par x.p2 (spPar mn 2) && par x.p3 (spPar mn 3)

/-- Registers of an A block of m rows from a specifier on lie wholly in one class (R241). -/
def aBlock (a m : Nat) : Bool :=
  let n := (m + 1) / 2
  if isF a then a + n ≤ 320 else a + n ≤ 384

/-- The sizes of a `sp.grp`: parcel 2 holds those of groups 0 to 3, parcel 3 those of groups 4 to 7 (Table 13-3). -/
def grpSizes (p2 p3 : Nat) : List Nat :=
  [p2 % 256, p2 / 2 ^ 8 % 256, p2 / 2 ^ 16 % 256, p2 / 2 ^ 24 % 256, p3 % 256, p3 / 2 ^ 8 % 256, p3 / 2 ^ 16 % 256, p3 / 2 ^ 24 % 256]

/-- What the parcels of a splice that are no markers decide by themselves (R23): nfB is 0 where B is a feed queue (R242), the A block
of a literal M lies in one class (R241), and group sizes keep their limits (Table 13-3); the sizes of a marker's groups count as 0. -/
def spTogether (mn : Nat) (x : PForm) : Bool :=
  let p0 := x.p0.toNat
  let fixed (p : Word) : Nat := if isMarker p then 0 else p.toNat
  let sz := grpSizes (fixed x.p2) (fixed x.p3)
  let m := sz.foldl (· + ·) 0
  (isMarker x.p0 || !isFq x.l.b.toNat || p0 / 2 ^ 13 % 4 == 0) &&
  (if mn == 4 then
    (isMarker x.p1 || (sz.drop (x.p1.toNat / 65536)).all (· == 0)) && m ≤ 256 && aBlock x.l.a.toNat m
  else isMarker x.p0 || aBlock x.l.a.toNat (p0 / 2 ^ 17 % 256 + 1))

/-- The splice minors with parameters (Table 13-2). -/
def wfSplP (kd : CodeKind) (m : Nat) (x : PForm) : Bool :=
  let md := x.l.md.toNat
  let z := nu zro
  match m with
  | 0 => wfSpOpen kd x
  | 2 => x.l.chk kd z (nu isFG) (nu bArg) (nu cArg) false true true (md < 4) && spPars 0 x && spTogether 0 x
  | 3 =>
    if md < 4 then x.l.chk kd z (sp isSPair) (sp isSPair) z false false true true && spPars 2 x
    else if md < 8 then x.l.chk kd z (nu isFG) (nu bArg) (nu isS) false true true true && spPars 1 x && spTogether 1 x
    else if md < 12 then x.l.chk kd z (sp isSPair) z z false false true true && spPars 3 x
    else false
  | 4 => x.l.chk kd (nu isSPair) (nu isFG) (nu bArg) (nu cArg) false true true (md < 4) && spPars 4 x && spTogether 4 x
  | _ => false

/-- The FRM minors (R115, Table 6-6). -/
def wfFrm (kd : CodeKind) (m : Nat) (x : LForm) : Bool :=
  let z := nu zro
  let md := x.md.toNat
  let a := sp (fun a => isFG a || isLq a || intArg a)
  let lim (lo hi : Nat) := x.fixedIn x.a.toNat lo hi
  match m with
  | 0 => x.chk kd z a z z false false false (md == 0 && lim 1 40)
  | 2 => x.chk kd z a z z false false false (md == 0 && lim 1 39)
  | 1 =>
    if md == 8 then x.chk kd (sp isS) (sp intArg) z z false false true (lim 8 256)
    else x.chk kd z a z z false false false ((md == 0 || (17 ≤ md && md ≤ 23)) && lim 1 39)
  | 3 => x.chk kd z z z z false false false (md == 0)
  | _ => false

/-- The CTL minors (R97, R120, R130, R134 to R136, R350). The stall count of an L-form `knot` may be any (DEDUCED, log 9): R130's fields
are those of the operation, as the S form has the count too. -/
def wfCtl (kd : CodeKind) (m : Nat) (x : LForm) : Bool :=
  let z := nu zro
  let any := nu (fun _ => true)
  let md := x.md.toNat
  match m with
  | 0 => x.chk kd z any any any false false false (md == 0)
  | 1 => x.chk kd z (nu isS) z z false false false (md == 0)
  | 2 => x.chk kd z (nu isFGS) any z false false false (md ≤ 1) && (kd != .queue || isS x.a.toNat)
  | 3 => x.chk kd (nu (num 0 39)) any any any false false false (md == 0)
  | 4 => x.chk kd (nu (num 0 39)) (nu isFGS) any z false false false (md ≤ 1)
  | 5 | 6 | 8 | 13 => x.chk kd z z z z false false false (md == 0)
  | 7 | 9 | 10 | 11 => x.chk kd z z z z false false true (md == 0)
  | 12 => x.chk kd z (nu intArgL) z z false false false (md == 0)
  | _ => false

/-- Control-register numbers (Table 18-3). -/
def isCsr (n : Nat) : Bool := n == 0 || n == 16 || n == 17 || n == 32

/-- The SYS minors (R343, Table 18-6 and the text below it). -/
def wfSys (kd : CodeKind) (m : Nat) (x : LForm) : Bool :=
  let z := nu zro
  let i := nu intArgL
  match m with
  | 0 => x.chk kd (sp isS) (nu isCsr) z z false false true (x.md == 0)
  | 1 => x.chk kd z (nu isCsr) i z false false true (x.md == 0)
  | 2 => x.chk kd (sp isS) (nu isS) z z false false false (x.md == 0)
  | 3 => x.chk kd (sp isFGS) i z z false false false (x.md == 0)
  | 4 => x.chk kd z i (nu (fun b => b < 504)) z false false false (x.md == 0)
  | 5 | 6 | 7 => x.chk kd z z z z false false true (x.md == 0)
  | _ => false

/-- The LCH minors without parameters (R380, Table 20-3). -/
def wfLch (kd : CodeKind) (m : Nat) (x : LForm) : Bool :=
  let z := nu zro
  let md := x.md.toNat
  let w := md / 2 % 2 == 1
  let v := nu (fun b => (480 ≤ b && b < 496) || isS b)
  let v64 := nu (fun b => (480 ≤ b && b < 496) || isSPair b)
  match m with
  | 1 => x.chk kd (sp (if w then isSPair else isS)) (sp isSPair) (if w then v64 else v) (nu (num 0 5)) false false true
           (x.ty == 4 || x.ty == 5) && md % 2 == 0
  | 2 =>
    if md == 0 then x.chk kd z (sp isS) v z false false true true
    else x.chk kd z (sp isSPair) (if 2 ≤ x.rn then v64 else v) (nu (fun c => intArgL c || c == 479)) false false true
           (x.ty == 4 || x.ty == 5)
  | 3 => x.chk kd (sp isS) (nu intArgL) v z false false true (md == 0)
  | 4 => x.chk kd z (nu barArg) (nu (fun b => isS b || (480 ≤ b && b ≤ 487))) z false false true (md == 0)
  | _ => false

/-- The limits of the launch parcels on their own (Table 5-2). -/
def launchPar (k v : Nat) : Bool :=
  match k with
  | 0 => 1 ≤ v && v < 2 ^ 31
  | 1 => 1 ≤ v / 65536 && 1 ≤ v % 65536
  | 2 => v < 2 ^ 27 && v / 8 % 2 ^ 13 == 0 && 1 ≤ v / 65536 && v / 65536 ≤ 1024
  | _ => v < 2 ^ 31

/-- The item-count limit, which four parcels decide together (R72). -/
def itemsOk (gx yz items : Nat) : Bool := items * (gx * (yz % 65536) * (yz / 65536)) ≤ 2 ^ 32 - 2

/-- The item-count limit where no factor of it is substituted (R23, R72). -/
def itemsFixed (p0 p1 p3 : Word) : Bool :=
  isMarker p0 || isMarker p1 || isMarker p3 || itemsOk p0.toNat p1.toNat p3.toNat

/-- `launch` (R71, R72, Table 5-2). -/
def wfLaunch (kd : CodeKind) (x : PForm) : Bool :=
  x.l.chk kd (nu zro) (sp isS) (sp isSPair) (sp isSPair) false false true (x.l.md == 0) &&
  par x.p0 (launchPar 0) && par x.p1 (launchPar 1) && par x.p2 (launchPar 2) && par x.p3 (launchPar 3) &&
  itemsFixed x.p0 x.p1 x.p3

/-- The guard field of four bits that FLD reads as a plain number (Table 9-4). -/
def LForm.fldG (x : LForm) : Nat := x.gk.toNat + 8 * (if x.gneg then 1 else 0)

/-- The FLD minors (R163, R164, R168, Table 9-4). -/
def wfFld (m : Nat) (x : LForm) : Bool :=
  let d := x.d.toNat
  let a := x.a.toNat
  let b := x.b.toNat
  let c := x.c.toNat
  let g := x.fldG
  let md := x.md.toNat
  let fq (s : Nat) := isFq s
  (!x.tr && !x.ru && x.lit.isNone) &&
  match m with
  | 0 => d < 16 && (a < 16 || a == 479) && (if a == 479 then b == 0 else b < 16)
  | 1 => fq d && a < 16 && b == 0 && c == 0 && g == 0 && md == 0
  | 2 => fq d && (d ≤ 470 && (md / 8 % 2 == 0 || d ≤ 469)) && a < 13 && b == 0 && c == 0 && g == 0 && md % 8 == 0
  | 3 => fq d && a ≤ 16 && b == 0 && c == 0 && g == 0 && md == 0
  | 4 => d == 0 && a == 0 && b == 0 && c == 0 && g == 0 && md == 0
  | 5 =>
    d < 16 && (if g < 3 then true
      else if g < 5 then a < 16 && b < 16 && c == 0 && md == 0
      else if g == 5 then a < 16 && c == 0 && md == 0
      else if g == 6 then a < 16 && b < 64 && c == 0 && md == 0
      else false)
  | _ => false

/-- The limits of an L form by major and minor. -/
def wfL (kd : CodeKind) (maj m : Nat) (x : LForm) : Bool :=
  match maj with
  | 1 => wfInt kd m x
  | 2 => wfAdr kd m x
  | 3 => wfFpu kd m x
  | 4 => wfSfu kd m x
  | 5 => wfCvt kd m x
  | 6 => wfNrw kd m x
  | 7 => wfCmp kd m x
  | 8 => wfXln kd m x
  | 9 => wfQuad kd m x
  | 10 => wfCfg kd m x
  | 12 => wfMem kd m x
  | 13 => wfAtm kd m x
  | 14 => wfSyn kd m x
  | 15 => wfCmm kd m x
  | 16 => wfEng kd m x
  | 17 => wfFet kd m x
  | 18 => wfSpl kd m x
  | 19 => wfFrm kd m x
  | 20 => wfCtl kd m x
  | 21 => wfSys kd m x
  | 22 => wfLch kd m x
  | 23 => wfFld m x
  | _ => false

/-- The limits of a form with parameters by major and minor (R55). -/
def wfP (kd : CodeKind) (maj m : Nat) (x : PForm) : Bool :=
  match maj, m with
  | 16, 1 => wfCpyt kd x
  | 17, 0 => wfFget kd x
  | 18, _ => wfSplP kd m x
  | 22, 0 => wfLaunch kd x
  | _, _ => false

/-- The operations that each kind of code may hold (R52, Table 3-4). -/
def kindOk (kd : CodeKind) : Parts → Bool
  | .un _ _ => kd != .access
  | .ldi _ => kd != .access
  | .brs _ => kd != .access
  | .ctls m _ =>
    match kd with
    | .exec => true
    | .handler => m != 5 && m != 7
    | .access => m == 0
    | .queue => m == 0 || m == 1 || m == 4
  | .l maj m _ | .p maj m ⟨_, _, _, _, _⟩ =>
    match kd with
    | .exec => maj != 23 && (maj != 21 || m < 2) && (maj != 22 || m == 0)
    | .handler =>
      maj != 23 && (maj != 22 || m == 0) && !(maj == 14 && 2 ≤ m) && maj != 18 && !(maj == 20 && (m == 8 || m == 9))
    | .access => maj == 23 || (maj == 20 && m == 11)
    | .queue =>
      maj == 1 || maj == 2 || maj == 7 || (maj == 12 && m < 2) || maj == 13 || (maj == 14 && m < 2) ||
      (maj == 20 && (m ≤ 2 || m == 6 || m == 10 || m == 11 || m == 12)) || (maj == 21 && m < 2) || maj == 22
  | .event => true

/-- The clause classes that may hold each operation: 0 V, 1 M, 2 X, 3 C (R51, Table 3-2). -/
def classOk (cl : Nat) : Parts → Bool
  | .l maj _ _ | .p maj _ ⟨_, _, _, _, _⟩ =>
    if maj == 1 || maj == 2 || maj == 7 then cl ≤ 2
    else if maj ≤ 9 then cl == 0
    else if maj == 10 || maj == 21 || maj == 22 then cl == 3
    else if maj == 14 then cl == 1 || cl == 3
    else if maj == 18 || maj == 19 then cl == 2
    else if maj == 20 then true
    else cl == 1
  | _ => true

/-- Whether an operation must end its clause (R21, R163). -/
def endsClause : Parts → Bool
  | .ctls m _ => m != 0
  | .brs _ => true
  | .l 20 m _ => m != 11
  | .l 23 m _ => m == 0
  | _ => false

/-- Whether an instruction's fields keep their limits in a kind of code. -/
def wfParts (kd : CodeKind) : Parts → Bool
  | .un _ x =>
    dstVS x.d.toNat && (x.a.toNat < 504) && (!isS x.d.toNat || isInv x.a.toNat) &&
    (kd != .queue || (isInv x.a.toNat && isInv x.d.toNat))
  | .ctls _ _ => true
  | .brs x => !(x.neg && x.k == 0)
  | .ldi x => isFGS x.d.toNat && (kd != .queue || isS x.d.toNat)
  | .l maj m x => wfL kd maj m x
  | .p maj m x => wfP kd maj m x && x.l.lit.isNone
  | .event => true

/-- Whether the mode of an operation that shares its minor with others is its own (R55, R116 to R118, R206, R247, R382). -/
def Instr.modeOk : Instr → Bool
  | .lea x => x.md.toNat != 16
  | .leaCode x => x.md.toNat == 16
  | .apoff x => decide (x.md.toNat < 16)
  | .apgen x => decide (16 ≤ x.md.toNat)
  | .spJoinRec x => x.l.md.toNat / 8 == 1
  | .spJoinPair x => x.l.md.toNat / 4 == 1
  | .spJoinKj x => x.l.md.toNat / 8 != 1 && x.l.md.toNat / 4 != 1
  | .growRing x => x.md.toNat == 8
  | .growTry x => decide (16 ≤ x.md.toNat)
  | .grow x => x.md.toNat != 8 && decide (x.md.toNat < 16)
  | .signalQ x => x.md.toNat == 0
  | .signal x => x.md.toNat != 0
  | _ => true

/-- Whether an instruction is well formed in a kind of code: it may stand there, its mode is its own and its fields keep their
limits. -/
def Instr.wfIn (kd : CodeKind) (i : Instr) : Bool := kindOk kd i.parts && i.modeOk && wfParts kd i.parts

/-- Whether an instruction is well formed in some kind of code. -/
def Instr.wf (i : Instr) : Bool := i.wfIn .exec || i.wfIn .handler || i.wfIn .access || i.wfIn .queue

end Sys2Proof
end

