-- ==== Sys2Proof/Decode.lean ====
section
/-!
DEFINITION. Reading an instruction from parcels, total on any list and refusing by none what has no meaning
(R15, R24, R26, R32, R33, R47, R50, R56), and the encoder, which lays fields out by the same tables.
-/

namespace Sys2Proof

/-- The UN operation of a minor (Table 3-1). -/
def mkUn (m : Nat) (x : SForm) : Option Instr :=
  match m with
  | 0 => some (.unMov x)
  | 1 => some (.unNot x)
  | 2 => some (.unNeg x)
  | 3 => some (.unAbs x)
  | 4 => some (.unPopc x)
  | 5 => some (.unClz x)
  | 6 => some (.unBrev x)
  | 7 => some (.fabs x)
  | _ => none

/-- The CTLS operation of a minor (Table 3-1). -/
def mkCtls (m : Nat) (st : BitVec 3) : Option Instr :=
  match m with
  | 0 => some (.ctlsNop st)
  | 1 => some (.ctlsYield st)
  | 2 => some (.ctlsKnot st)
  | 3 => some (.ctlsRet st)
  | 4 => some (.ctlsExit st)
  | 5 => some (.ctlsDone st)
  | 6 => some (.ctlsBrk st)
  | 7 => some (.ctlsTake st)
  | _ => none

/-- The INT operation of a minor (Table 3-3). -/
def mkInt (m : Nat) (x : LForm) : Option Instr :=
  match m with
  | 0 => some (.add x)
  | 1 => some (.sub x)
  | 2 => some (.mul x)
  | 3 => some (.mulh x)
  | 4 => some (.mulhu x)
  | 5 => some (.mad x)
  | 6 => some (.min x)
  | 7 => some (.max x)
  | 8 => some (.minu x)
  | 9 => some (.maxu x)
  | 10 => some (.abs x)
  | 11 => some (.neg x)
  | 12 => some (.and x)
  | 13 => some (.or x)
  | 14 => some (.xor x)
  | 15 => some (.not x)
  | 16 => some (.tbl3 x)
  | 17 => some (.shl x)
  | 18 => some (.shr x)
  | 19 => some (.sar x)
  | 20 => some (.rotl x)
  | 21 => some (.bfe x)
  | 22 => some (.bfeu x)
  | 23 => some (.bfi x)
  | 24 => some (.clz x)
  | 25 => some (.popc x)
  | 26 => some (.brev x)
  | 27 => some (.mov x)
  | 28 => some (.dot4 x)
  | _ => none

/-- The ADR operation of a minor (Table 3-3). -/
def mkAdr (m : Nat) (x : LForm) : Option Instr :=
  match m with
  | 0 => some (.add64 x)
  | 1 => some (.sub64 x)
  | 2 => if x.md == 16 then some (.leaCode x) else some (.lea x)
  | 3 => some (.mov64 x)
  | 4 => some (.shl64 x)
  | 5 => some (.shr64 x)
  | 6 => if 16 ≤ x.md.toNat then some (.apgen x) else some (.apoff x)
  | 7 => some (.apclass x)
  | _ => none

/-- The FPU operation of a minor (Table 3-3). -/
def mkFpu (m : Nat) (x : LForm) : Option Instr :=
  match m with
  | 0 => some (.fadd x)
  | 1 => some (.fsub x)
  | 2 => some (.fmul x)
  | 3 => some (.fma x)
  | 4 => some (.fnma x)
  | 5 => some (.fmin x)
  | 6 => some (.fmax x)
  | 7 => some (.fround x)
  | 8 => some (.fclamp x)
  | 9 => some (.fdot2 x)
  | _ => none

/-- The SFU operation of a minor (Table 3-3). -/
def mkSfu (m : Nat) (x : LForm) : Option Instr :=
  match m with
  | 0 => some (.frcp x)
  | 1 => some (.frsq x)
  | 2 => some (.fsqrt x)
  | 3 => some (.fexp2 x)
  | 4 => some (.flog2 x)
  | 5 => some (.fsin x)
  | 6 => some (.fcos x)
  | 7 => some (.ftanh x)
  | _ => none

/-- The CVT operation of a minor (Table 3-3). -/
def mkCvt (m : Nat) (x : LForm) : Option Instr :=
  match m with
  | 0 => some (.fcvt x)
  | 1 => some (.f2i x)
  | 2 => some (.i2f x)
  | 3 => some (.pack2 x)
  | 4 => some (.unpack2 x)
  | _ => none

/-- The NRW operation of a minor (Table 3-3). -/
def mkNrw (m : Nat) (x : LForm) : Option Instr :=
  match m with
  | 0 => some (.nadd x)
  | 1 => some (.nmul x)
  | 2 => some (.nfma x)
  | 3 => some (.nmin x)
  | 4 => some (.nmax x)
  | 5 => some (.npack x)
  | 6 => some (.nunpack x)
  | 7 => some (.ncvt x)
  | _ => none

/-- The CMP operation of a minor (Table 3-3). -/
def mkCmp (m : Nat) (x : LForm) : Option Instr :=
  match m with
  | 0 => some (.icmp x)
  | 1 => some (.icmpu x)
  | 2 => some (.fcmp x)
  | 3 => some (.fclass x)
  | 4 => some (.kand x)
  | 5 => some (.kor x)
  | 6 => some (.kxor x)
  | 7 => some (.kinv x)
  | 8 => some (.kmov x)
  | 9 => some (.kpop x)
  | _ => none

/-- The XLN operation of a minor (Table 3-3). -/
def mkXln (m : Nat) (x : LForm) : Option Instr :=
  match m with
  | 0 => some (.lxch x)
  | 1 => some (.vote x)
  | 2 => some (.redux x)
  | 3 => some (.scan x)
  | 4 => some (.compress x)
  | 5 => some (.expand x)
  | 6 => some (.isect x)
  | 7 => some (.part x)
  | 8 => some (.rdlane x)
  | 9 => some (.bcast x)
  | _ => none

/-- The QUAD operation of a minor (Table 3-3). -/
def mkQuad (m : Nat) (x : LForm) : Option Instr :=
  match m with
  | 0 => some (.qswap x)
  | 1 => some (.qbcast x)
  | 2 => some (.qred x)
  | _ => none

/-- The CFG operation of a minor (Table 3-3). -/
def mkCfg (m : Nat) (x : LForm) : Option Instr :=
  match m with
  | 0 => some (.nfset x)
  | 1 => some (.nfget x)
  | 2 => some (.cbld x)
  | 3 => some (.cbrd x)
  | 4 => some (.lqset x)
  | 5 => some (.lqclr x)
  | _ => none

/-- The MEM operation of a minor (Table 3-3). -/
def mkMem (m : Nat) (x : LForm) : Option Instr :=
  match m with
  | 0 => some (.ld x)
  | 1 => some (.st x)
  | 2 => some (.lde x)
  | 3 => some (.ste x)
  | 4 => some (.cst x)
  | 5 => some (.prefetch x)
  | _ => none

/-- The ATM operation of a minor (Table 3-3). -/
def mkAtm (m : Nat) (x : LForm) : Option Instr :=
  match m with
  | 0 => some (.atom x)
  | 1 => some (.red x)
  | _ => none

/-- The SYN operation of a minor (Table 3-3). -/
def mkSyn (m : Nat) (x : LForm) : Option Instr :=
  match m with
  | 0 => some (.fence x)
  | 1 => some (.wait x)
  | 2 => some (.bar x)
  | 3 => some (.barArrive x)
  | 4 => some (.barWait x)
  | _ => none

/-- The CMM operation of a minor (Table 3-3). -/
def mkCmm (m : Nat) (x : LForm) : Option Instr :=
  match m with
  | 0 => some (.cmAdd x)
  | 1 => some (.cmMax x)
  | 2 => some (.cmAxpy x)
  | 3 => some (.cmScale x)
  | 4 => some (.cmFill x)
  | 5 => some (.cmSum x)
  | _ => none

/-- The ENG operation of a minor (Table 3-3). -/
def mkEng (m : Nat) (x : LForm) : Option Instr :=
  match m with
  | 0 => some (.cpy x)
  | 2 => some (.dcpy x)
  | 3 => some (.ecpy x)
  | 4 => some (.abset x)
  | 5 => some (.abdecl x)
  | 6 => some (.abarr x)
  | 7 => some (.abwait x)
  | 8 => some (.abtest x)
  | _ => none

/-- The FET operation of a minor (Table 3-3). -/
def mkFet (m : Nat) (x : LForm) : Option Instr :=
  match m with
  | 1 => some (.hset x)
  | 2 => some (.hinv x)
  | 3 => some (.hget x)
  | _ => none

/-- The SPL operation of a minor (Table 3-3). -/
def mkSpl (m : Nat) (x : LForm) : Option Instr :=
  match m with
  | 1 => some (.spSeed x)
  | 5 => some (.spDrain x)
  | 6 => some (.spClear x)
  | 7 => some (.spClose x)
  | 8 => some (.spStat x)
  | 9 => some (.burst x)
  | _ => none

/-- The FRM operation of a minor (Table 3-3). -/
def mkFrm (m : Nat) (x : LForm) : Option Instr :=
  match m with
  | 0 => some (.frame x)
  | 1 => if x.md == 8 then some (.growRing x) else if 16 ≤ x.md.toNat then some (.growTry x) else some (.grow x)
  | 2 => some (.trim x)
  | 3 => some (.flush x)
  | _ => none

/-- The CTL operation of a minor (Table 3-3). -/
def mkCtl (m : Nat) (x : LForm) : Option Instr :=
  match m with
  | 0 => some (.bra x)
  | 1 => some (.jmp x)
  | 2 => some (.brx x)
  | 3 => some (.call x)
  | 4 => some (.callx x)
  | 5 => some (.ret x)
  | 6 => some (.exit x)
  | 7 => some (.knot x)
  | 8 => some (.done x)
  | 9 => some (.take x)
  | 10 => some (.yield x)
  | 11 => some (.nop x)
  | 12 => some (.trap x)
  | 13 => some (.brk x)
  | _ => none

/-- The SYS operation of a minor (Table 3-3). -/
def mkSys (m : Nat) (x : LForm) : Option Instr :=
  match m with
  | 0 => some (.csrr x)
  | 1 => some (.csrw x)
  | 2 => some (.winsel x)
  | 3 => some (.winrd x)
  | 4 => some (.winwr x)
  | 5 => some (.resume x)
  | 6 => some (.kill x)
  | 7 => some (.faultack x)
  | _ => none

/-- The LCH operation of a minor (Table 3-3). -/
def mkLch (m : Nat) (x : LForm) : Option Instr :=
  match m with
  | 1 => some (.watch x)
  | 2 => if x.md == 0 then some (.signalQ x) else some (.signal x)
  | 3 => some (.evwait x)
  | 4 => some (.qprio x)
  | _ => none

/-- The FLD operation of a minor (Table 3-3). -/
def mkFld (m : Nat) (x : LForm) : Option Instr :=
  match m with
  | 0 => some (.aLoop x)
  | 1 => some (.aLd x)
  | 2 => some (.aWalk x)
  | 3 => some (.aSync x)
  | 4 => some (.aEnd x)
  | 5 => some (.aSet x)
  | _ => none

/-- The operation of an L major and minor (R50). -/
def mkL (maj m : Nat) (x : LForm) : Option Instr :=
  match maj with
  | 1 => mkInt m x
  | 2 => mkAdr m x
  | 3 => mkFpu m x
  | 4 => mkSfu m x
  | 5 => mkCvt m x
  | 6 => mkNrw m x
  | 7 => mkCmp m x
  | 8 => mkXln m x
  | 9 => mkQuad m x
  | 10 => mkCfg m x
  | 12 => mkMem m x
  | 13 => mkAtm m x
  | 14 => mkSyn m x
  | 15 => mkCmm m x
  | 16 => mkEng m x
  | 17 => mkFet m x
  | 18 => mkSpl m x
  | 19 => mkFrm m x
  | 20 => mkCtl m x
  | 21 => mkSys m x
  | 22 => mkLch m x
  | 23 => mkFld m x
  | _ => none

/-- The operation with a parameter block of a major and minor (R55). -/
def mkP (maj m : Nat) (x : PForm) : Option Instr :=
  match maj, m with
  | 16, 1 => some (.cpyt x)
  | 17, 0 => some (.fget x)
  | 18, 0 => some (.spOpen x)
  | 18, 2 => some (.spMma x)
  | 18, 3 =>
    if x.l.md.toNat / 8 == 1 then some (.spJoinRec x)
    else if x.l.md.toNat / 4 == 1 then some (.spJoinPair x)
    else some (.spJoinKj x)
  | 18, 4 => some (.spGrp x)
  | 22, 0 => some (.launch x)
  | _, _ => none

/-- Whether a major and minor take a parameter block (R33, R55). -/
def takesPar (maj m : Nat) : Bool :=
  (maj == 16 && m == 1) || (maj == 17 && m == 0) || (maj == 18 && (m == 0 || m == 2 || m == 3 || m == 4)) ||
  (maj == 22 && m == 0)

/-- A field of a parcel: n bits from bit lo on. -/
def fld (w lo n : Nat) : BitVec n := BitVec.ofNat n (w / 2 ^ lo)

/-- The S-form operation in a parcel (R24, R25, R47, R48). -/
def decodeS (w : Nat) : Option Instr :=
  match w / 32 % 64 with
  | 1 => mkUn (w / 2 ^ 29 % 8) { st := fld w 2 3, d := fld w 11 9, a := fld w 20 9 }
  | 2 => if w / 2 ^ 11 % 2 ^ 18 = 0 then mkCtls (w / 2 ^ 29 % 8) (fld w 2 3) else none
  | 3 => some (.brs { st := fld w 2 3, k := fld w 11 3, neg := w / 2 ^ 14 % 2 == 1, off := fld w 15 17 })
  | 4 => some (.ldi { st := fld w 2 3, d := fld w 11 9, imm := fld w 20 12 })
  | _ => none

/-- The fields of an L form in its two parcels (R26). -/
def unpackL (w q : Nat) (lit : Option Word) : LForm where
  st := fld w 2 3
  d := fld w 11 9
  a := fld w 20 9
  b := BitVec.ofNat 9 (w / 2 ^ 29 % 8 + 8 * (q % 64))
  c := fld q 6 9
  gk := fld q 15 3
  gneg := q / 2 ^ 18 % 2 == 1
  tr := q / 2 ^ 19 % 2 == 1
  ru := q / 2 ^ 20 % 2 == 1
  md := fld q 27 5
  lit := lit

/-- The operation whose first parcel heads a list, with the parcels after it, before its fields are checked (R56). -/
def decodeRaw : List Word → Option (Instr × List Word)
  | [] => none
  | p :: r =>
    let w := p.toNat
    match w % 4 with
    | 0 => (decodeS w).map (·, r)
    | 1 =>
      match r with
      | q :: r1 =>
        let maj := w / 32 % 64
        let m := q.toNat / 2 ^ 21 % 64
        let x := unpackL w q.toNat none
        if takesPar maj m then
          match r1 with
          | p0 :: p1 :: p2 :: p3 :: r2 => (mkP maj m { l := x, p0 := p0, p1 := p1, p2 := p2, p3 := p3 }).map (·, r2)
          | _ => none
        else (mkL maj m x).map (·, r1)
      | [] => none
    | 2 =>
      match r with
      | q :: v :: r1 =>
        let maj := w / 32 % 64
        let m := q.toNat / 2 ^ 21 % 64
        if takesPar maj m then none else (mkL maj m (unpackL w q.toNat (some v))).map (·, r1)
      | _ => none
    | _ => none

/-- The instruction that heads a list of parcels in a kind of code, and the parcels after it (R56). -/
def decode (kd : CodeKind) (ps : List Word) : Option (Instr × List Word) :=
  match decodeRaw ps with
  | some (i, r) => if i.wfIn kd then some (i, r) else none
  | none => none

/-- The first parcel of an L form (R26), without its length code's value for an X form. -/
def packL0 (maj : Nat) (x : LForm) : Nat :=
  (if x.lit.isSome then 2 else 1) + x.st.toNat * 4 + maj * 32 + x.d.toNat * 2 ^ 11 + x.a.toNat * 2 ^ 20 +
  x.b.toNat % 8 * 2 ^ 29

/-- The second parcel of an L form (R26). -/
def packL1 (m : Nat) (x : LForm) : Nat :=
  x.b.toNat / 8 + x.c.toNat * 64 + x.gk.toNat * 2 ^ 15 + (if x.gneg then 1 else 0) * 2 ^ 18 +
  (if x.tr then 1 else 0) * 2 ^ 19 + (if x.ru then 1 else 0) * 2 ^ 20 + m * 2 ^ 21 + x.md.toNat * 2 ^ 27

/-- A parcel from a number. -/
def parcel (n : Nat) : Word := BitVec.ofNat 32 n

/-- The parcels of an L or X form (R26, R32). -/
def encodeL (maj m : Nat) (x : LForm) : List Word :=
  parcel (packL0 maj x) :: parcel (packL1 m x) :: x.lit.toList

/-- The parcels of an operation by form, major and minor; an event has none. -/
def encodeParts : Parts → List Word
  | .un m x => [parcel (x.st.toNat * 4 + 1 * 32 + x.d.toNat * 2 ^ 11 + x.a.toNat * 2 ^ 20 + m * 2 ^ 29)]
  | .ctls m st => [parcel (st.toNat * 4 + 2 * 32 + m * 2 ^ 29)]
  | .brs x =>
    [parcel (x.st.toNat * 4 + 3 * 32 + x.k.toNat * 2 ^ 11 + (if x.neg then 1 else 0) * 2 ^ 14 + x.off.toNat * 2 ^ 15)]
  | .ldi x => [parcel (x.st.toNat * 4 + 4 * 32 + x.d.toNat * 2 ^ 11 + x.imm.toNat * 2 ^ 20)]
  | .l maj m x => encodeL maj m x
  | .p maj m x => encodeL maj m x.l ++ [x.p0, x.p1, x.p2, x.p3]
  | .event => []

/-- The parcels of an instruction. -/
def encode (i : Instr) : List Word := encodeParts i.parts

/-- The number of parcels of an instruction (R15, R32, R33). -/
def Instr.size (i : Instr) : Nat := (encode i).length

/-- The parcels of a number of bits, lowest first, followed by zeros up to the longest instruction of six parcels. -/
def wordParcels (w : Nat) : List Word :=
  [parcel w, parcel (w / 2 ^ 32), parcel (w / 2 ^ 64), parcel (w / 2 ^ 96), parcel (w / 2 ^ 128), parcel (w / 2 ^ 160)]

/-- The instruction that the decoder reads from the bits of one opcode-table row (nbits of them, zero above). -/
def decodeTableWord (nbits w : Nat) : Option Instr :=
  match decodeRaw (wordParcels (w % 2 ^ nbits)) with
  | some (i, _) => if i.wf then some i else none
  | none => none

end Sys2Proof
end

