-- ==== Sys2Proof/Twifel.lean ====
section
/-!
DEFINITION. Twifel, the portable form of a kernel, as data (R64, Table 4-5): types, values, operations, blocks and functions.
What the table leaves out of the form is read as log 8 says (DESIGN CHOICE).
-/

namespace Sys2Proof.Twifel

/-- The types of Table 4-5. -/
inductive Ty where
  | i1 | i32 | i64 | f32 | f16x2 | bf16x2 | ptr
  deriving DecidableEq, Repr

/-- A field, or a parameter, of a Z2 operation that takes a value. -/
inductive Field where
  | d | a | b | c | p0 | p1 | p2 | p3
  deriving DecidableEq, Repr

/-- An argument: a value by its number, or a constant. -/
inductive Arg where
  | val (n : Nat)
  | num (v : Nat)
  deriving DecidableEq, Repr

/-- What a definition computes (Table 4-5). An operation is the Z2 operation of its major and minor opcode with its modifiers and numbers,
and names the argument of each field that is a source; the fields' registers are the loader's. -/
inductive Rhs where
  | op (major minor : Nat) (x : LForm) (args : List (Field × Arg))
  | lane
  | depth
  | sreg (n : Nat)
  | phi (ins : List (Arg × Nat))
  | call (func : Nat) (args : List (Ty × Arg))
  deriving DecidableEq, Repr

/-- A line of a block: the value that it assigns, with its type, if any. -/
structure Line where
  dest : Option (Nat × Ty)
  rhs : Rhs
  deriving DecidableEq, Repr

/-- How a block ends: with a branch that names its reconvergence block, a switch with its own, a return, or by going on at the next block. -/
inductive Last where
  | br (p : Arg) (yes no knot : Nat)
  | switch (i : Arg) (meet : Nat) (targets : List Nat)
  | ret (v : Option Arg)
  | next
  deriving DecidableEq, Repr

/-- A block: whether its first line is `knot`, its lines and its end. -/
structure Block where
  knot : Bool
  lines : List Line
  last : Last
  deriving DecidableEq, Repr

/-- A function, or the kernel's entry, which begins at its first block. -/
structure Func where
  params : List (Nat × Ty)
  result : Option Ty
  blocks : List Block
  deriving DecidableEq, Repr

/-- A kernel with the functions that it calls by number. -/
structure Kernel where
  entry : Func
  funcs : List Func
  deriving DecidableEq, Repr

end Sys2Proof.Twifel
end

