-- ==== Sys2Proof/Config.lean ====
section
/-!
DEFINITION. What the spec leaves open, as constants with no body, and what the model fixes for the part it describes.
A constant with no body can be neither evaluated nor proved to have a value: a statement about it holds for every value.
-/

namespace Sys2Proof.Config

/-- Free values: the n-th one that a run draws (DESIGN CHOICE, log 6). -/
opaque freeNat : Nat → Nat

/-- Free choices between two behaviours that the spec allows (DESIGN CHOICE, log 6). -/
opaque freeChoice : Nat → Bool

/-- The rounding of a special function whose enclosure of 600 bits does not decide it (DESIGN CHOICE, log 7):
function, input code, rounding mode. -/
opaque sfuTie : Nat → Nat → Nat → Bool

/-- The kernel that some Twifel text is, if it is one (R64). The spec gives the forms by examples and not the text's grammar (DESIGN CHOICE,
log 8). -/
opaque twifelParse : List Byte → Option Twifel.Kernel

/-- Whether the loader maps what it makes of an object's portable section although the object has an execute slice, which it may (log 8). -/
opaque twifelFirst : List Byte → Bool

/-- The object that the loader makes of a portable one and of the kernel that its text is (R65, R66): its bytes in the window's own layout, with
the header values. The spec does not state them (DESIGN CHOICE, log 8). -/
opaque twifel : List Byte → Twifel.Kernel → List Byte

/-- Whether a signature over some bytes verifies under the key that they name (R401, R403; log 8). -/
opaque signatureOk : List Byte → Bool

/-- The magic number of a signed record's header, which R403 does not give (log 8). -/
opaque recordMagic : Nat

/-- Whether the key of a number may sign a record of a kind (R403, log 8). -/
opaque recordKey : Nat → Nat → Bool

/-- Whether a configuration record, with the die-record keys in force, names a key that may sign a die record (R399, R401, R403; log 8). -/
opaque dieKey : List Byte → List Byte → Nat → Bool

/-- Whether a configuration record, with the VF table in force, has a virtual function (R390, R403; log 8). -/
opaque cfgFunction : List Byte → List Byte → Nat → Bool

/-- The rail offset that the margin planner sets for a die from the margin records (R404, log 8). -/
opaque railOffset : Nat → Nat → Nat

/-- The digest that the RESYNC summary gives of some bytes (R397, log 8). -/
opaque digest : List Byte → Nat

/-- Whether a configuration record enables a master kind (R395, log 8). -/
opaque cfgMaster : List Byte → Nat → Bool

/-- The part modelled: true for a ZN2-1280 with two compute dies (R1, log 2). -/
def twoDies : Bool := true

/-- Compute dies of the part (R1). -/
def dies : Nat := if twoDies then 2 else 1

/-- Cores of the part: 64 on each die (R8). -/
def cores : Nat := 64 * dies

/-- Control cores of the part: four for each die, so that 64 queue threads run on eight (R9, R376). -/
def controlCores : Nat := 4 * dies

/-- Queue threads of the part (R9, R376). -/
def queueThreads : Nat := 32 * dies

/-- Fitted capacity tier in bytes (R260, log 2). -/
def capacityBytes : Nat := 2 ^ 40

end Sys2Proof.Config
end

