-- ==== Sys2Proof/Machine/State.lean ====
section
/-!
DEFINITION. The state of a Z2 part as plain data, the reasons a step can stop, and the state right after reset.
Each structure's docstring names the rules of spec/ that give the machine what it holds.
-/

namespace Sys2Proof.Machine

/-- The fault classes of Table 18-1 (R338). -/
inductive FClass where
  | illegal | check | page | prot | locked | frame | handle | spill | qlog | queue
  | format | target | crypto | ecc | align | trap | brk
  deriving DecidableEq, Repr

/-- The kinds of thread that issue clauses (Table 3-4): an ordinary strand, the handler slot of a core, a queue thread. -/
inductive Kind where
  | strand | handler | queue
  deriving DecidableEq, Repr

/-- The state field of a group record (Table 7-1). -/
inductive GState where
  | runnable | parked | waiting
  deriving DecidableEq, Repr

/-- What holds a group at its instruction, beside being parked at a knot (R80, R38).
`path`: a path counter above a threshold (R269). `barrier`: a workgroup barrier whose phase the arrival bits of a mask
wait for (R87). `arrival`: an arrival barrier at a shared offset and a target generation (R304). `reel`: transfers that
a frame operation needs (R107, R110). `feed`: a feed queue without a landed row (R170). `flight`: an operation in flight
that the hardware finishes before the next instruction. `drained`: what a release of a scope comes after, of the operations numbered below a flight (R324, R328).
`word`: a memory word watched, polled where its home is no memory of the device, with its leaf entry, and the first value found
that meets the condition (R381). `events`: an event mask with the time its wait ends (R383).
`table`: earlier splice operations of the strand on a table (R231). `phase`: an arrival that waits for the barrier's next
phase (R87), of a `bar` where `bar` says so and of a `bar.arrive` otherwise. `handle`: a handle slot whose descriptor is being rewritten (R307). -/
inductive Hold where
  | free
  | path (p n : Nat)
  | barrier (id : Nat)
  | phase (id : Nat) (rest : Word) (bar : Bool)
  | arrival (off target : Nat)
  | reel
  | feed (q : Nat)
  | flight (f : Nat)
  | drained (f scope : Nat)
  | word (a v cond size : Nat) (poll : Bool) (leaf : List Nat) (got : Option Nat)
  | events (mask : Nat) (till : Option Nat)
  | table (t : Nat)
  | handle (slot : Nat)
  deriving DecidableEq, Repr

/-- A clause fetched whole and decoded (R23): its header's offset and word, its body, and the place of the next instruction. -/
structure Clause where
  hdr : Nat
  word : Word
  body : List Word
  pos : Nat := 0
  deriving DecidableEq, Repr

/-- A group of lanes (R124, Table 7-1): state, W bit, PC and mask, with the hold that a waiting group waits for, the offset at which it
continues once a wait with W set has ended, and the clause of a `bar` at whose arrival it gave up its slot (R128). -/
structure Group where
  st : GState := .runnable
  w : Bool := false
  pc : Nat := 0
  mask : Word := 0
  hold : Hold := .free
  next : Nat := 0
  clause : Option Clause := none
  deriving DecidableEq, Repr

/-- One bypass entry (R31): a value for each lane and the cycle it lands. -/
structure Byp where
  vals : List Word
  ready : Nat
  deriving DecidableEq, Repr

/-- A program-counter slot (R124): its group, the clause the group is part-way through, bypass entries with the most
recent first, and the clauses its group has issued since it took the slot (R128). -/
structure PcSlot where
  grp : Option Group := none
  clause : Option Clause := none
  byp : List Byp := []
  issued : Nat := 0
  deriving DecidableEq, Repr

/-- A fixed-latency result not yet landed (R38 to R41): the cell, what it held before, and the cycle it lands. -/
structure Pend where
  cell : Nat
  old : Word
  ready : Nat
  deriving DecidableEq, Repr

/-- A lane's frame word (R102, Table 6-1). -/
structure LaneFrame where
  base : Nat := 0
  lo : Nat := 0
  depth : Nat := 0
  size : Nat := 1
  linkLow : Nat := 0
  deriving DecidableEq, Repr

/-- A link record (R114, Table 6-4). -/
structure LinkRec where
  depth : Nat
  size : Nat
  ob8 : Nat
  ret : Nat
  deriving DecidableEq, Repr

/-- A stuck lane-ply or link record (R110): ply or depth, lane, class and address of its failed transfer. -/
structure Stuck where
  link : Bool
  idx : Nat
  lane : Nat
  cls : FClass
  addr : Nat
  deriving DecidableEq, Repr

/-- A loop queue that is set (R156): depth, head row, occupancy; its rows are cells of the register map. -/
structure LoopQ where
  depth : Nat
  head : Nat := 0
  occ : Nat := 0
  deriving DecidableEq, Repr

/-- A transfer that a frame operation needs of the reel (R107). -/
structure Need where
  pay : Bool
  link : Bool
  idx : Nat
  lane : Nat
  deriving DecidableEq, Repr

/-- A transfer of the reel under way (R111): the number under which its range lock is registered, and whether it works ahead of need
(R108). -/
structure Xfer where
  need : Need
  id : Nat
  ahead : Bool
  deriving DecidableEq, Repr

/-- A buffered store of a lane's open quantum (R315): its naturally aligned 16-byte chunk, the flat addresses of the
chunk's two halves fixed at issue, the bits written, the addresses of the leaf entries whose D bit its commit sets, and whether it is a
record of the quantum log. -/
structure BufEntry where
  lane : Nat
  chunk : Nat
  half0 : Nat
  half1 : Nat
  mask : Nat
  data : Nat
  leaf : List Nat
  logged : Bool := false
  deriving DecidableEq, Repr

/-- A fault record (R339, Table 18-2). -/
structure FaultRec where
  pc : Nat := 0
  pos : Nat := 0
  addr : Nat := 0
  mask : Word := 0
  cls : FClass := .illegal
  source : Nat := 0
  cstValid : Bool := false
  stuck : Bool := false
  pending : Bool := false
  detail : Nat := 0
  seqNo : Nat := 0
  deriving DecidableEq, Repr

/-- The tag of a feed row (R166): format code, geometry, codebook slot, and a scale for each element. -/
structure RowTag where
  fmt : Nat := 0
  geo : Nat := 0
  slot : Nat := 0
  scales : List Nat := []
  deriving DecidableEq, Repr

/-- A feed-queue row (R162): 128 bytes as one word for each lane, and the tag. -/
structure FeedRow where
  words : List Word
  tag : RowTag
  deriving DecidableEq, Repr

/-- An access thread (R162, R167): registers, PC, walk cursor, whether it has ended, the clause it runs,
and its fault. -/
structure Access where
  a : List Nat
  pc : Nat
  cursor : Nat := 0
  ended : Bool := false
  clause : Option Clause := none
  faulted : Bool := false
  deriving DecidableEq, Repr

/-- The A latch of a strand (R174): the specifier, the shape, and the captured words of each row register. -/
structure Latch where
  spec : Nat
  shape : Nat
  rows : List (List Word)
  deriving DecidableEq, Repr

/-- The window selection of a handler (R346): the thread selected. -/
abbrev Sel := Option Nat

/-- Where a strand belongs (R70, R77, R78): kind, context, launch, workgroup, code object and translation,
strand index, core, quadrant index, slot, and the base of its lane-private region as an offset of the pool (R113). -/
structure Place where
  kind : Kind := .strand
  ctx : Nat := 0
  launch : Nat := 0
  wg : Nat := 0
  code : Nat := 0
  trans : Nat := 0
  idx : Nat := 0
  core : Nat := 0
  quad : Nat := 0
  slot : Nat := 0
  region : Nat := 0
  half : Nat := 0
  deriving DecidableEq, Repr

/-- The groups of a strand and its issue (R80 to R84, R124 to R128): both slots, the fork stack with its top first,
the slot that is issuing and the slot picked last, the issue cycle in the clause, the progress counter, the picks that
passed it over, whether its stop was decided for a halt (R360). -/
structure Paths where
  s0 : PcSlot := {}
  s1 : PcSlot := {}
  fork : List Group := []
  issuing : Option Nat := none
  last : Nat := 1
  clk : Nat := 0
  progress : Nat := 0
  passed : Nat := 0
  halted : Bool := false
  forced : Bool := false
  deriving DecidableEq, Repr

/-- The registers and the reel state of a strand (R103, R104, R106, R156): cells, results not landed, ring size, the
physical plies, lane frames, clean lane-plies, resident link records by depth and lane, those of them that memory holds too, stuck
transfers, loop queues, the transfers that the reel has still to make for a frame operation, what it has hauled in for it, the
transfers of it that have failed, and the transfer under way. -/
structure Regs where
  cells : KMap Word := []
  pend : List Pend := []
  q : Nat := 8
  plymap : List Nat := []
  frames : List LaneFrame := []
  clean : List (Nat × Nat) := []
  links : KMap LinkRec := []
  kept : List (Nat × Nat) := []
  stuck : List Stuck := []
  lqs : KMap LoopQ := []
  need : List Need := []
  got : List (Need × Nat) := []
  failed : List Need := []
  xfer : Option Xfer := none
  deriving DecidableEq, Repr

/-- The lanes of a strand (R79, R85, R92 to R96): exited, idle and helper masks, the item of each lane, the loop head,
and the arrival bits of each barrier as a lane mask. -/
structure Lanes where
  exited : Word := 0
  idle : Word := 0
  helper : Word := 0
  items : List Word := []
  lh : Option Nat := none
  arr : List Word := []
  deriving DecidableEq, Repr

/-- The open quanta of a strand (R315, R319), the records written to its log since that was last empty, and the cst done mask with its PC
(R276). -/
structure Quanta where
  buf : List BufEntry := []
  log : List BufEntry := []
  used : Nat := 0
  closed : List (Nat × BufEntry) := []
  cstMask : Word := 0
  cstPc : Nat := 0
  deriving DecidableEq, Repr

/-- The control registers of a thread (R341, R180, Tables 18-3 and 18-4), its stop (R137, R339) with a pending
record and the asynchronous faults not yet reported (R339), the fault-log reply that it takes once it is restored (R351; true for a
kill), its window selection (R346), the A latch (R174), and the queue that a handler's launches belong to (R368). -/
structure Ctl where
  part : Nat := 5
  fp : Nat := 0
  chk : Bool := false
  nf : List Word := []
  tlba : Word := 0
  sel : Sel := none
  fault : Option FaultRec := none
  pending : Option FaultRec := none
  later : List FaultRec := []
  stopped : Bool := false
  acked : Bool := false
  due : Option Bool := none
  latch : Option Latch := none
  ownQ : Option Nat := none
  deriving DecidableEq, Repr

/-- One thread that issues clauses: an ordinary strand, a handler slot or a queue thread (R70, R344, R376). -/
structure Strand where
  pl : Place := {}
  ps : Paths := {}
  rg : Regs := {}
  ln : Lanes := {}
  qn : Quanta := {}
  ct : Ctl := {}
  access : Option Access := none
  fqs : List (List FeedRow) := []
  deriving DecidableEq, Repr

/-- A table slot that is not empty (R221, Table 12-2): its state is seeded or live; `dirty` once written since its workgroup's last save
(R369). -/
structure TSlot where
  seeded : Bool
  key : Nat
  pos : Nat
  v : Nat
  dirty : Bool := true
  deriving DecidableEq, Repr

/-- An open table (R220, R226, Table 12-5), with its occupied slots by table slot; `unchecked` once the window has rewritten its spill
region (R225). -/
structure Table where
  spillBase : Nat := 0
  spillCap : Nat := 0
  spillCount : Nat := 0
  discard : Nat := 0
  unplaced : Nat := 0
  tag : Nat := 0
  scope : Nat := 0
  hash : Bool := false
  seeded : Bool := false
  probe : Nat := 0
  logS : Nat := 6
  b : Nat := 0
  m1 : Nat := 0
  n1 : Nat := 0
  row0 : Nat := 0
  col0 : Nat := 0
  posEnd : Nat := 0
  slots : KMap TSlot := []
  pins : List Nat := []
  unchecked : Bool := false
  deriving DecidableEq, Repr

/-- A workgroup that is resident or saved (R70, R77, R85, R91, R219, R360 to R366). `bars` holds the eight barrier words,
`counted` the strands counted in a phase, `closed` the stores
that strands which have retired closed for a phase, each with its strand's index and its barrier. -/
structure Workgroup where
  ctx : Nat := 0
  launch : Nat := 0
  code : Nat := 0
  trans : Nat := 0
  lin : Nat := 0
  core : Nat := 0
  rank : Nat := 0
  partner : Option Nat := none
  strands : Nat := 1
  lanes : Nat := 32
  threads : List Nat := []
  quads : List Nat := []
  half : Nat := 0
  banks : List Nat := []
  tabA : Nat := 0
  tabQuads : List Nat := []
  tabOff : Nat := 0
  itemNext : Nat := 0
  itemEnd : Nat := 0
  bars : List Nat := []
  counted : List (Nat × Nat) := []
  closed : List (Nat × Nat × BufEntry) := []
  tables : KMap Table := []
  placedAt : Nat := 0
  haltAt : Option Nat := none
  saved : Bool := false
  image : List Strand := []
  saveAt : Nat := 0
  saveLen : Nat := 0
  bankImage : List (List Host.Cell) := []
  regions : List Nat := []
  deriving DecidableEq, Repr

/-- A launch that has retired (R71 to R76, R368). `outcome`: 0 completed, 1 discarded, 2 rejected; `rel` names the
writes that its placement waits for (R75). -/
structure Launch where
  ctx : Nat := 0
  code : Nat := 0
  trans : Nat := 0
  args : Nat := 0
  cw : Nat := 0
  gx : Nat := 1
  gy : Nat := 1
  gz : Nat := 1
  lanes : Nat := 32
  items : Nat := 0
  chk : Bool := false
  clu : Bool := false
  rst : Bool := false
  queue : Option Nat := none
  start : Nat := 0
  next : Nat := 0
  doneWgs : Nat := 0
  runSum : Nat := 0
  outcome : Option Nat := none
  rel : List Nat := []
  deriving DecidableEq, Repr

/-- One mapped translation of a code object (R58, R62): its place in the window in bytes, its image's byte size, and the
header values of Table 4-1. -/
structure Trans where
  off : Nat := 0
  len : Nat := 0
  mmrev : Nat := 2
  strands : Nat := 1
  frame : Nat := 1
  ring : Nat := 8
  gcount : Nat := 0
  banks : Nat := 0
  depth : Nat := 1
  tabA : Nat := 0
  fplies : Nat := 8
  lstack : Nat := 0
  forks : Nat := 4
  qlog : Nat := 4096
  entry : Nat := 0
  exOff : Nat := 0
  acOff : Nat := 0
  acLen : Nat := 0
  tabOff : Nat := 0
  tabs : List (List Nat) := []
  deriving DecidableEq, Repr

/-- A loaded code object (R61, R62, R68): its context, its window base and its translations by number. -/
structure Code where
  ctx : Nat := 0
  base : Nat := 0
  trans : KMap Trans := []
  cur : Nat := 0
  deriving DecidableEq, Repr

/-- A handle slot of a context (R306): generation, validity, and the descriptor of Table 16-11. -/
structure HSlot where
  gen : Nat := 0
  valid : Bool := false
  base : Nat := 0
  x : Nat := 0
  y : Nat := 0
  p : Nat := 0
  zm : Bool := false
  raw : Bool := false
  rewriting : Bool := false
  deriving DecidableEq, Repr

/-- A key slot of a context (R296). -/
structure KeySlot where
  key : List Byte := []
  lastEnc : Nat := 0
  lastDec : Nat := 0
  deriving DecidableEq, Repr

/-- A context (R356, Table 19-1), with its codebooks (R184), handle slots (R306), key slots (R296), the distributor's start
pointer (R76), its distributor list (R75) and its stop number (R339). -/
structure Context where
  mode : Nat := 0
  conf : Bool := false
  strengthen : Bool := false
  saveArea : Bool := false
  haltUs : Nat := 20
  root : Nat := 0
  poolBase : Nat := 0
  poolSize : Nat := 0
  save0 : Nat := 0
  save0Len : Nat := 0
  save1 : Nat := 0
  save1Len : Nat := 0
  handler : Nat := 0
  plain : List Nat := []
  exact : List Nat := []
  quads : List Nat := []
  banks : KMap (List Nat) := []
  fn : Nat := 0
  cb : KMap (List Nat) := []
  handles : KMap HSlot := []
  keys : KMap KeySlot := []
  start : Nat := 0
  order : List Nat := []
  stops : Nat := 0
  saves : List Nat := [0, 0]
  lost : List Bool := [false, false]
  descr : List Byte := []
  ended : Bool := false
  dying : Bool := false
  deriving DecidableEq, Repr

/-- How a load delivers the bits it read (R273, R191): zero- or sign-extended from a width, or as an element of a format
with the scale that its block had at issue (R190; log 11), and its codebook captured at issue. -/
inductive Conv where
  | zext
  | sext (n : Nat)
  | elem (fmt : Nat) (scale : Option Int) (cb : List Nat)
  deriving DecidableEq, Repr

/-- One lane of a load in flight (R273, R318): destination cells, flat address of each byte read, the bits its own open
quantum forwards, the first bit and width, whether an L1 copy may serve it, and how the bits are delivered. -/
structure LoadLane where
  lane : Nat
  cells : List Nat
  pas : List Nat
  fmask : Nat := 0
  fdata : Nat := 0
  shift : Nat := 0
  width : Nat := 32
  cached : Bool := false
  conv : Conv := .zext
  deriving DecidableEq, Repr

/-- The bytes of one commit in one 32-byte sector (R317): bits written, data, leaf entries, where each byte lies for range locks (R274),
the lanes whose stores they are, and whether applied. -/
structure SectorW where
  pa : Nat
  mask : Nat
  data : Nat
  leaf : List Nat := []
  places : List (Nat × Nat) := []
  lanes : Word := 0xFFFFFFFF
  applied : Bool := false
  deriving DecidableEq, Repr

/-- One lane of an atomic in flight (R279, R288): flat address, destination cells, operand and compare value. -/
structure AtomLane where
  lane : Nat
  pa : Nat
  cells : List Nat
  v : Nat
  cmp : Nat := 0
  leaf : List Nat := []
  deriving DecidableEq, Repr

/-- A byte range of a lock (R299): generic start and length, write or read, and the address space key of the range. -/
structure LockRange where
  space : Nat
  lo : Nat
  len : Nat
  write : Bool
  deriving DecidableEq, Repr

/-- A range-lock entry (R299): registration number, context, core, die or core table, operation and ranges. One that is `quiet` has been
released and binds later operations and commits alone, not the accesses of threads: it stands for spill records that are written and not
yet visible (R225, R301). -/
structure LockEntry where
  reg : Nat
  ctx : Nat
  core : Nat
  overflow : Bool
  flight : Nat
  ranges : List LockRange
  quiet : Bool := false
  deriving DecidableEq, Repr

/-- A splice operation in flight (R246 to R250, Table 13-7): its instruction, operands read at issue, progress, feed rows popped
for the next unit, codebooks captured through their tags (R243), and the bytes of its spill records, visible at its completion
(R225), with the leaf entries of their pages. -/
structure Splice where
  minor : Nat
  wg : Nat
  table : Nat
  recMode : Bool := false
  pair : Bool := false
  pc : Nat := 0
  lane : Nat := 0
  fmtA : Nat := 0
  fmtB : Nat := 0
  cbA : List Nat := []
  cbB : List Nat := []
  rows : List (List Byte) := []
  sclA : List Int := []
  sB : Int := 0
  m : Nat := 0
  n : Nat := 0
  oi : Nat := 0
  oj : Nat := 0
  fq : Option Nat := none
  off : Nat := 0
  count : Nat := 0
  sizes : List Nat := []
  aPas : List Nat := []
  bPas : List Nat := []
  na : Nat := 0
  nb : Nat := 0
  unitsDone : Nat := 0
  p : Nat := 0
  q : Nat := 0
  run : Nat := 0
  popped : Nat := 0
  heldRows : List FeedRow := []
  cbF : KMap (List Nat) := []
  spilled : List Host.Cell := []
  leaves : List Nat := []
  suspended : Bool := false
  deriving DecidableEq, Repr

/-- One element of a fetch in flight (R307, R308): lane, destination cell, whether in range, the flat address of each byte read
(none for a byte that a zero mask leaves out), and how it is decoded; `dropped` once a forced rewrite has taken it (R309). -/
structure FetchElem where
  lane : Nat
  cell : Nat
  inr : Bool
  pas : List (Option Nat) := []
  shift : Nat := 0
  width : Nat := 32
  conv : Conv := .zext
  dropped : Bool := false
  deriving DecidableEq, Repr

/-- The work of an operation in flight. -/
inductive Work where
  /-- a load (R273), with its acquire scope and whether it promotes (R331) -/
  | load (lanes : List LoadLane) (acq : Nat) (rp : Bool)
  /-- a quantum commit or a release store (R317, R324): sectors; the scope of a release store, or 0 -/
  | commit (secs : List SectorW) (rel : Nat)
  /-- an atomic or a common-memory lane operation (R279, R288): operation code, access size, scope and order -/
  | atom (op z scope order : Nat) (lanes : List AtomLane)
  /-- a common-memory range operation (R289): minor, type, scalar operand, the flat addresses of y and x elements, and the elements
  performed, each with the value that a sum has read of it -/
  | cmRange (minor ty v : Nat) (ys xs : List Nat) (got : List (Nat × Nat))
  /-- a copy (R295): minor, bytes to read and write with their flat addresses, barrier offset, declared scope -/
  | copy (minor : Nat) (src : List Nat) (dst : List Nat) (barrier : Option Nat) (n : Nat) (scope : Nat)
      (key iv : List Byte) (aad : List Nat) (tag rec : List Nat) (ctr : Nat) (rows s d : Nat) (dirty : List Nat)
  /-- an `abset`, `abdecl` or `abarr` (R304): flat address of the barrier, which, count, bytes -/
  | arrive (pa kind count x : Nat) (waitFor : Nat)
  /-- an `abtest` (R304): flat address, target, k cell, lanes -/
  | abtest (pa target cell : Nat) (lanes : Word)
  /-- a fetch (R307): slot, generation, elements, kq cell, active lanes, fill -/
  | fetch (slot gen : Nat) (elems : List FetchElem) (kcell : Nat) (lanes : Word) (fill : Word)
  /-- an `hset`, `hinv` or `hget` (R309): minor, slot, forced, new descriptor, destination cells -/
  | hand (minor slot : Nat) (force : Bool) (d : HSlot) (cells : List Nat) (gen : Nat)
  /-- an `sp.seed` (R229): workgroup, table, the flat address of each record byte, records done -/
  | seed (wg t : Nat) (pas : List Nat) (count done : Nat)
  /-- a splice operation (R246 to R249) -/
  | splice (x : Splice)
  /-- an `sp.drain` in flight (R231): the bytes to write with their flat addresses, and leaf entries -/
  | drain (wg t : Nat) (writes : List Host.Cell) (leaf : List Nat)
  /-- an `sp.open`, `sp.clear`, `sp.close` or `sp.stat` (R228, R232, R233): workgroup, table, which, destination cells,
  and the descriptor of an `sp.open` -/
  | tabop (wg t kind : Nat) (cells : List Nat) (d : Table)
  /-- a `cbld` waiting for its instant (R186): context, slot, entries -/
  | cbld (ctx slot : Nat) (e : List Nat)
  /-- a feed-row read (R166, R167): queue, flat address of each byte, tag, the words of an emitted row -/
  | feed (q : Nat) (pas : List Nat) (tag : RowTag) (words : List Word) (scalePas : List (Option Nat))
  /-- a TLB invalidation that holds its writer (R342): command 0 or 1 -/
  | tlbi (cmd : Nat)
  /-- an acquire fence: later loads of the thread return after its earlier loads (R328, R337) -/
  | fence
  deriving DecidableEq, Repr

/-- An operation in flight (R267, R268): number, thread, core, context, launch, path codes it holds, destination cells, the virtual
register of each destination in the ring (R123), codebook slots captured (R186), leaf entries of pinned pages (R266), the vector that its write raises (R382), whether it has
finished, its work, the number of the first commit of another thread of its core that it need not see (R325), the lanes that it acts for,
and the writes of other threads that happen before it (R327). -/
structure Flight where
  id : Nat
  th : Nat
  core : Nat
  ctx : Nat
  launch : Nat := 0
  paths : List Nat
  dests : List Nat := []
  vregs : List (Nat × Nat) := []
  caps : List Nat := []
  pins : List Nat := []
  vec : Option Nat := none
  done : Bool := false
  work : Work
  till : Nat := 0
  lanes : Word := 0xFFFFFFFF
  hb : List Nat := []
  deriving DecidableEq, Repr

/-- A translation held for a context (R266): page base and size in bytes, leaf words, and the leaf's physical address. -/
structure TlbEntry where
  ctx : Nat
  va : Nat
  size : Nat
  lo : Nat
  hi : Nat
  leaf : Nat
  deriving DecidableEq, Repr

/-- An L1 copy of a line (R261, R323, R352): core, line number, its bytes, the time of its fill, and the context that its owner tag names. -/
structure L1Line where
  core : Nat
  line : Nat
  data : List Byte
  at_ : Nat := 0
  ctx : Nat := 0
  deriving DecidableEq, Repr

/-- The caches that a program can observe (R261, R266, R331, R400): translations, L1 copies, the core of each line's
latest narrow release with the release's flight, and the directory state of lines. -/
structure Caches where
  tlb : List TlbEntry := []
  l1 : List L1Line := []
  narrow : KMap (Nat × Nat) := []
  dir : KMap Nat := []
  deriving DecidableEq, Repr

/-- The range-lock tables (R299): entries and the next registration number. -/
structure Locks where
  entries : List LockEntry := []
  next : Nat := 0
  deriving DecidableEq, Repr

/-- What happens before what (R326, R327), as the numbers of writes in flight, of which those of the core that are not applied yet count
(DESIGN CHOICE, log 1): for each thread the writes that happen before the later operations of some lanes, and those whose release its plain
reads have read, which happen so after its next acquire fence; the writes that a release before a value in memory came after, by flat
address; and those that the arrivals of a barrier's phase, and of the phases released, came after. -/
structure Order where
  hb : KMap (List (Nat × Word)) := []
  rd : KMap (List (Nat × Word)) := []
  rel : KMap (List Nat) := []
  bar : KMap (List Nat) := []
  deriving DecidableEq, Repr

/-- A quadrant (R82, R81, R359, R362, R368, R404, R405, R251, R252): rotation pointer, the strand that holds its issue
slot, active half, swap in progress, contexts it is closed for, slack, degraded, withdrawn; its array's ramp, whether a `burst` has it
ramping up, credit, idle cycles and the spanning operation that slaves it. -/
structure Quadrant where
  rho : Nat := 0
  holder : Option Nat := none
  yielded : Option Nat := none
  active : Nat := 0
  swapTill : Option Nat := none
  spilling : Option Nat := none
  closed : List Nat := []
  slack : Nat := 15
  degraded : Bool := false
  withdrawn : Bool := false
  ramped : Bool := false
  rising : Bool := false
  credit : Nat := 0
  idleAt : Nat := 0
  slaved : Option Nat := none
  deriving DecidableEq, Repr

/-- A core's handler slot (R344): the context it serves, and the pending stops of the core in stop order. -/
structure CoreSt where
  serves : Option Nat := none
  pending : List Nat := []
  deriving DecidableEq, Repr

/-- A queue (R376 to R384): state 0..4, priority, the context of its last start, status address, status writes, event
bits, launches, and its fault record. -/
structure Queue where
  state : Nat := 0
  prio : Nat := 0
  ctx : Option Nat := none
  status : Nat := 0
  seqNo : Nat := 0
  events : Nat := 0
  launches : Nat := 0
  passed : Nat := 0
  frec : Option FaultRec := none
  stopReq : Bool := false
  block : List Byte := []
  deriving DecidableEq, Repr

/-- An escalation waiting for a ring slot, or a record of the fault log (R351, Table 18-7). -/
structure LogRec where
  seqNo : Nat := 0
  ctx : Nat := 0
  cls : Nat := 0
  source : Nat := 0
  resolved : Bool := false
  core : Nat := 0
  threads : List Nat := []
  count : Nat := 1
  addr : Nat := 0
  pc : Nat := 0
  mask : Word := 0
  detail : Nat := 0
  slot : Nat := 0
  launch : Nat := 0
  ring : Nat := 0
  deriving DecidableEq, Repr

/-- The fault log (R351): ring base, entries, vector, next slot, slots taken, records, escalations waiting, next number. -/
structure FaultLog where
  base : Nat := 0
  entries : Nat := 0
  vector : Nat := 0
  next : Nat := 0
  taken : List Nat := []
  recs : List LogRec := []
  waiting : List LogRec := []
  seqNo : Nat := 0
  deriving DecidableEq, Repr

/-- A queue's choice under a deadline (R370): 0 undecided, 1 run, 2 checkpoint, 3 discard, 4 ended, 5 lost; its estimate
in µs, the context, the bytes saved, and its dirty bytes on each die at its admission to checkpoint (R369). -/
structure DlChoice where
  choice : Nat := 0
  est : Nat := 0
  ctx : Nat := 0
  bytes : Nat := 0
  dirty : List Nat := []
  deriving DecidableEq, Repr

/-- A posted deadline (R368 to R373); `place` is its entry of the RESYNC summary (R397). -/
structure Deadline where
  kind : Nat := 0
  t0 : Nat := 0
  till : Nat := 0
  ctxs : List Nat := []
  quads : List Nat := []
  reply : Nat := 0
  chan : Nat := 0
  choices : KMap DlChoice := []
  reqHead : List Byte := []
  lastAt : Option Nat := none
  place : Nat := 0
  deriving DecidableEq, Repr

/-- A request in service (R392, R393): channel (a virtual function's is 4 + its number), slot, opcode, payload, tag, sequence word,
whether its issuer was the owner as it was submitted (R395), whether its header's length keeps Table 21-1, whether it came over an IDE stream,
whether its service has begun and waits, the time of its arrival, and whether an owner held a lease then (R396). -/
structure Request where
  chan : Nat
  slot : Nat
  op : Nat
  payload : List Byte
  tag : Nat
  seqNo : Nat
  owner : Bool := false
  good : Bool := true
  ide : Bool := false
  started : Bool := false
  at_ : Nat := 0
  held : Bool := false
  deriving DecidableEq, Repr

/-- Ownership and management (R391 to R397): the owner's channel and identity, the lease's end, the handover's target, nonce and end,
mailbox bytes by channel and offset, requests in service in order of arrival, the management sequence number with that of each
entry's latest change, and the next handle. -/
structure Mgmt where
  owner : Option Nat := none
  identity : Nat := 0
  leaseEnd : Nat := 0
  handover : Option (Nat × Nat × Nat) := none
  mbox : KMap Byte := []
  reqs : List Request := []
  seqNo : Nat := 0
  changes : KMap Nat := []
  nextCode : Nat := 1
  deriving DecidableEq, Repr

/-- A function of the host link (R388, R390): enabled vectors, the context bound, and whether IDE is established on its stream and its
TDI is in the RUN state. -/
structure Func where
  vectors : Nat := 2048
  ctx : Option Nat := none
  ide : Bool := false
  run : Bool := false
  deriving DecidableEq, Repr

/-- The challenge of one end of a die link (R401): whether the record that answers it is verified, the number of the free value that is its
nonce with the time it was sent, and the record. -/
structure DieEnd where
  verified : Bool := false
  nonce : Nat := 0
  asked : Nat := 0
  record : List Byte := []
  deriving DecidableEq, Repr

/-- A die link (R398 to R401): the challenges of its two ends, whether it is disabled, the credits of each class in slots that this part
holds as the sender, those that its peer holds (R399), the acknowledgement received and the messages received that the next one
acknowledges, the times of bad messages, their count, retrains, and messages that wait: snoops for their answers and requests for their turn. -/
structure DieLink where
  end0 : DieEnd := {}
  end1 : DieEnd := {}
  disabled : Bool := false
  credits : List Nat := [64, 32, 128, 128, 8, 64]
  granted : List Nat := [64, 32, 128, 128, 8, 64]
  ack : Nat := 0
  got : Nat := 0
  bad : Nat := 0
  badTimes : List Nat := []
  retrains : Nat := 0
  pend : List NgMsg := []
  deriving DecidableEq, Repr

/-- Whether a link is verified: from both of its ends. -/
def DieLink.verified (l : DieLink) : Bool := l.end0.verified && l.end1.verified

/-- One end's challenge of a link. -/
def DieLink.end_ (l : DieLink) (k : Nat) : DieEnd := if k % 2 = 0 then l.end0 else l.end1

/-- Replaces one end's challenge. -/
def DieLink.setEnd (l : DieLink) (k : Nat) (e : DieEnd) : DieLink := if k % 2 = 0 then { l with end0 := e } else { l with end1 := e }

/-- A remote window's binding (R402): peer, mask of the 16 device-link ports (R10), export index. -/
structure Window where
  peer : Nat
  ports : BitVec 16
  exp : Nat
  deriving DecidableEq, Repr

/-- An export entry (R402): context, whether a common range, base, length, rights. -/
structure Export where
  ctx : Nat
  common : Bool
  base : Nat
  len : Nat
  r : Bool
  w : Bool
  atomic : Bool
  deriving DecidableEq, Repr

/-- An access of the outside that waits for the answer to a snoop (R400): of the host (R389) or of a device-link peer (R402). -/
inductive OutAccess where
  | host (a : BarAccess)
  | link (a : LinkAccess)
  deriving DecidableEq, Repr

/-- The outside of the part: functions, interrupts raised and dropped (R389), accesses dropped for want of integrity (R388), windows
and exports (R402), die links (R398 to R401), the data of the latest host read (R389), the status and data of the latest
device-link access (R402), messages that wait for credits and that have been sent on links, control slots sent with their link, credits and
acknowledgement, accesses of the outside that wait, oldest first, and bytes that the device has written and that wait for the answer to a
snoop (R400). -/
structure Links where
  funcs : KMap Func := []
  irqs : List (Nat × Nat) := []
  irqDropped : Nat := 0
  ideDropped : Nat := 0
  windows : KMap Window := []
  exports : KMap Export := []
  dies : KMap DieLink := []
  hostData : Option Nat := none
  linkData : Option (Nat × Nat) := none
  outbox : List NgMsg := []
  sent : List NgMsg := []
  ctl : List (Nat × List Nat × Nat) := []
  waits : List OutAccess := []
  parked : List Host.Cell := []
  deriving DecidableEq, Repr

/-- A signed record in force and the one staged for the next reset (R403): version, security version and bytes. -/
structure SignedRec where
  ver : Nat := 0
  sec : Nat := 0
  bytes : List Byte := []
  staged : Option (List Byte) := none
  deriving DecidableEq, Repr

/-- The device's upkeep (R14, R353, R358, R403, R404): page owners by 64 KiB page, the signed records by kind (0 firmware, 1 configuration,
2 VF table, 3 die-record keys), the master kinds that the configuration enables (R395), the virtual functions that the VF table has
(R390), rail offsets, withholding, error counters by die and array (16 times the die and the array's number), scrub passes, accepting
work, retired pages, and compute dies held in reset (R401). -/
structure Upkeep where
  pages : KMap Nat := []
  recs : KMap SignedRec := []
  masters : List Nat := [1, 2, 3]
  vfs : List Nat := (List.range 32).map (· + 1)
  rails : KMap Nat := []
  withhold : Nat := 0
  corr : KMap Nat := []
  uncorr : KMap Nat := []
  scrubs : Nat := 0
  accepting : Bool := false
  retired : List Nat := []
  held : List Nat := []
  deriving DecidableEq, Repr

/-- A move of the agenda (DESIGN CHOICE, log 1): a thread issues its next instruction, an access thread issues, an event happens, the BMC writes
bytes of its channel (R391), the host sets a function's MSI-X table size, IDE and TDI state (R388), the owner binds or unbinds a
remote window or sets or drops an export entry (R402), which no request of Table 21-2 does, or a correctable error is corrected (R352). -/
inductive Move where
  | issue (th : Nat)
  | accessIssue (th : Nat)
  | event (i : Instr)
  | bmcWrite (off : Nat) (data : List Byte)
  | function (fn vectors : Nat) (ide run : Bool)
  | window (n : Nat) (w : Option Window)
  | exportEntry (n : Nat) (e : Option Export)
  | corrected (loc : ErrLoc)
  deriving DecidableEq, Repr

/-- The model's own fields (DESIGN CHOICE, log 1): the moves that come next, each after an amount of time in control-core cycles; the
thread that an instruction acts for; the counter of free values; and the number the next object receives. -/
structure Run where
  agenda : List (Nat × Move) := []
  cur : Option Nat := none
  fresh : Nat := 0
  nextId : Nat := 1
  deriving DecidableEq, Repr

/-- The state of the part. `mem` holds every byte of memory as flat addresses: physical addresses below 2 to the 52
(R260), scratchpad banks and common-memory banks above (DESIGN CHOICE, log 3). `ccores` names the queue thread that each control core issues and `ccLast` the queue it picked last (R377). `now`
counts control-core cycles (R5, R11). `dirty` names the scratchpad rows, as flat addresses over 8, that have been written since the last save of
the workgroup that holds them (R369). -/
structure State where
  mem : List Host.Cell := []
  ths : KMap Strand := []
  wgs : KMap Workgroup := []
  launches : KMap Launch := []
  ctxs : KMap Context := []
  codes : KMap Code := []
  fl : List Flight := []
  ch : Caches := {}
  lk : Locks := {}
  ord : Order := {}
  dirty : List Nat := []
  quads : KMap Quadrant := []
  cores : KMap CoreSt := []
  ccores : KMap Nat := []
  ccLast : KMap Nat := []
  queues : KMap Queue := []
  log : FaultLog := {}
  dls : KMap Deadline := []
  mg : Mgmt := {}
  io : Links := {}
  up : Upkeep := {}
  now : Nat := 0
  run : Run := {}
  deriving DecidableEq, Repr

/-- Why a step stops with a fault. The part's own faults are no stops: they are next states (R137). -/
inductive Fault where
  /-- Raised by the meaning of an encoded instruction when no thread is at the issue of an instruction: there is nothing
  for it to act on. Safe: the hardware issues an instruction only for a thread. -/
  | noIssuer
  deriving DecidableEq, Repr

/-- Why a step is refused. -/
inductive Refusal where
  /-- Raised by Dispatch for an instruction whose meaning is not modelled yet. Safe: nothing is claimed of it. -/
  | notModelled (mnemonic : String)
  deriving DecidableEq, Repr

/-- The state right after reset: every die has sent its challenges (R409, R395, R401, R82): near DRAM and the capacity tier hold zero, no context, no code,
no thread, no owner, discovery not ended. The values the spec does not give are those of log 4. -/
def State.reset : State :=
  { io := { dies := (List.range (if Config.twoDies then 3 else 1)).map (fun n =>
      (n, { end0 := { nonce := 2 * n }, end1 := { nonce := 2 * n + 1 } })) }
    run := { fresh := 16 } }

end Sys2Proof.Machine
end

