-- ==== Sys2Proof/Machine/Mem.lean ====
section
/-!
DEFINITION. Memory as flat bytes (R4, R260, R409, log 3), translation (R263 to R266), generic addresses (R256 to R258,
R283), regions (R113), and the accessors of the state's maps.
-/

namespace Sys2Proof.Machine

/-! ### Bytes -/

/-- What an unlisted byte reads as: zero (R409; host memory and device-link windows by log 3). -/
def emptyByte : Byte := 0

/-- The byte at a flat address. -/
def memGet (m : List Host.Cell) (a : Nat) : Byte := kgetD m a emptyByte

/-- Writes one byte, keeping the canonical form: writing what an unlisted byte reads as drops the entry. -/
def memSet (m : List Host.Cell) (a : Nat) (v : Byte) : List Host.Cell := ksetD m a v emptyByte

/-- Whether a memory has its canonical form: addresses strictly rising, no entry equal to an unlisted byte. -/
def Memory.wf (m : List Host.Cell) : Bool := kordered m && m.all (fun e => e.2 != emptyByte)

/-- The bytes at some flat addresses. -/
def memGets (m : List Host.Cell) (as : List Nat) : List Byte := as.map (memGet m)

/-- Writes bytes at flat addresses, in order. -/
def memSets : List Host.Cell → List Host.Cell → List Host.Cell
  | m, [] => m
  | m, (a, v) :: ws => memSets (memSet m a v) ws

/-- The little-endian value of n bytes from a flat address on (R4). -/
def memNat (m : List Host.Cell) (a n : Nat) : Nat := leNat ((List.range n).map (fun i => memGet m (a + i)))

/-- Writes n little-endian bytes of a value from a flat address on (R4). -/
def memPut (m : List Host.Cell) (a n v : Nat) : List Host.Cell :=
  memSets m ((List.range n).zip (leBytes n v) |>.map (fun p => (a + p.1, p.2)))

/-- Writes the bits of a mask of n bytes, from a flat address on. -/
def memMask (m : List Host.Cell) (a n mask data : Nat) : List Host.Cell :=
  memPut m a n ((memNat m a n &&& ((2 ^ (8 * n) - 1) ^^^ mask)) ||| (data &&& mask))

/-! ### Accessors -/

/-- The thread of a number, or an empty one. -/
def State.th (s : State) (n : Nat) : Strand := kgetD s.ths n {}
/-- Sets a thread. -/
def State.setTh (s : State) (n : Nat) (t : Strand) : State := { s with ths := kset s.ths n t }
/-- Changes a thread that exists. -/
def State.modTh (s : State) (n : Nat) (f : Strand → Strand) : State := { s with ths := kmodify s.ths n f }
/-- The context of a number, or an empty one. -/
def State.ctx (s : State) (n : Nat) : Context := kgetD s.ctxs n {}
/-- Changes a context that exists. -/
def State.modCtx (s : State) (n : Nat) (f : Context → Context) : State := { s with ctxs := kmodify s.ctxs n f }
/-- The workgroup of a number, or an empty one. -/
def State.wg (s : State) (n : Nat) : Workgroup := kgetD s.wgs n {}
/-- Changes a workgroup that exists. -/
def State.modWg (s : State) (n : Nat) (f : Workgroup → Workgroup) : State := { s with wgs := kmodify s.wgs n f }
/-- The launch of a number, or an empty one. -/
def State.launch (s : State) (n : Nat) : Launch := kgetD s.launches n {}
/-- Changes a launch that exists. -/
def State.modLaunch (s : State) (n : Nat) (f : Launch → Launch) : State := { s with launches := kmodify s.launches n f }
/-- A quadrant by package-wide number (R8). -/
def State.quad (s : State) (n : Nat) : Quadrant := kgetD s.quads n {}
/-- Changes a quadrant. -/
def State.modQuad (s : State) (n : Nat) (f : Quadrant → Quadrant) : State :=
  { s with quads := kset s.quads n (f (s.quad n)) }
/-- A core's handler slot state. -/
def State.core (s : State) (n : Nat) : CoreSt := kgetD s.cores n {}
/-- Changes a core's handler slot state. -/
def State.modCore (s : State) (n : Nat) (f : CoreSt → CoreSt) : State :=
  { s with cores := kset s.cores n (f (s.core n)) }
/-- A queue by number. -/
def State.queue (s : State) (n : Nat) : Queue := kgetD s.queues n {}
/-- Changes a queue. -/
def State.modQueue (s : State) (n : Nat) (f : Queue → Queue) : State :=
  { s with queues := kset s.queues n (f (s.queue n)) }
/-- A flight by number. -/
def State.flight? (s : State) (n : Nat) : Option Flight := s.fl.find? (·.id == n)
/-- Changes the flight of a number. -/
def State.modFlight (s : State) (n : Nat) (f : Flight → Flight) : State :=
  { s with fl := s.fl.map (fun x => if x.id = n then f x else x) }
/-- A code object's translation. -/
def State.transOf (s : State) (code tr : Nat) : Trans := kgetD (kgetD s.codes code {}).trans tr {}
/-- The translation a thread was started on. -/
def State.transTh (s : State) (t : Strand) : Trans := s.transOf t.pl.code t.pl.trans
/-- Whether a context exists. -/
def State.hasCtx (s : State) (n : Nat) : Bool := (kget? s.ctxs n).isSome
/-- A number for a new object. -/
def State.newId (s : State) : Nat × State := (s.run.nextId, { s with run := { s.run with nextId := s.run.nextId + 1 } })
/-- A free value of the spec's (DESIGN CHOICE, log 6). -/
def State.freeNat (s : State) : Nat × State :=
  (Config.freeNat s.run.fresh, { s with run := { s.run with fresh := s.run.fresh + 1 } })
/-- A free choice between two behaviours that the spec allows (DESIGN CHOICE, log 6). -/
def State.freeBool (s : State) : Bool × State :=
  (Config.freeChoice s.run.fresh, { s with run := { s.run with fresh := s.run.fresh + 1 } })

/-- Thread number of an ordinary strand: core, quadrant and slot. -/
def strandNo (core quad slot : Nat) : Nat := core * 64 + quad * 16 + slot
/-- Thread number of a core's handler slot. -/
def handlerNo (core : Nat) : Nat := 8192 + core
/-- Thread number of a queue. -/
def queueNo (q : Nat) : Nat := 8320 + q
/-- The queue of a queue thread's number. -/
def queueOf (th : Nat) : Nat := th - 8320
/-- The die of a core (R8). -/
def dieOf (core : Nat) : Nat := core / 64

/-! ### The lane-private region (R113, Table 6-3) -/

/-- Offset of the link area. -/
def linkArea (t : Trans) : Nat := roundUp (t.fplies * 1024) 4096
/-- Offset of the fork area. -/
def forkArea (t : Trans) : Nat := roundUp (linkArea t + t.depth * 256) 4096
/-- Offset of the quantum log. -/
def qlogArea (t : Trans) : Nat := roundUp (forkArea t + t.forks * 16) 4096
/-- Offset of the lane stacks. -/
def stackArea (t : Trans) : Nat := roundUp (qlogArea t + t.qlog) 4096
/-- Size of the region. -/
def regionSize (t : Trans) : Nat := roundUp (stackArea t + 32 * t.lstack) 65536

/-! ### Physical addresses (R260, Table 14-4) -/

/-- First flat address of a core's scratchpad bank (DESIGN CHOICE, log 3). -/
def scratchFlat (core bank : Nat) : Nat := 2 ^ 52 + core * 2 ^ 20 + bank * 2 ^ 15
/-- First flat address of a common-memory bank (DESIGN CHOICE, log 3). -/
def commonFlat (bank : Nat) : Nat := 2 ^ 53 + bank * 2 ^ 18
/-- First flat address of the storage that holds a code object's window (R62, log 3). -/
def codeFlat (handle : Nat) : Nat := 2 ^ 54 + handle * 2 ^ 26
/-- Near DRAM of a die. -/
def nearDram (pa : Nat) : Option Nat :=
  if pa < 48 * 2 ^ 30 then some 0
  else if Config.twoDies && 2 ^ 36 ≤ pa && pa < 2 ^ 36 + 48 * 2 ^ 30 then some 1 else none
/-- The capacity tier. -/
def inCapacity (pa : Nat) : Bool := 2 ^ 40 ≤ pa && pa < 2 ^ 40 + Config.capacityBytes
/-- A device-link window's number (R402). -/
def windowOf (pa : Nat) : Option Nat := if 2 ^ 50 ≤ pa && pa < 2 ^ 51 then some ((pa - 2 ^ 50) / 2 ^ 44) else none
/-- Host memory. -/
def inHost (pa : Nat) : Bool := 2 ^ 51 ≤ pa && pa < 2 ^ 52
/-- Whether an address lies in a row of Table 14-4, in a bound window where it lies in one (R402), or in code storage. -/
def populated (s : State) (pa : Nat) : Bool :=
  (nearDram pa).isSome || inCapacity pa || inHost pa || 2 ^ 54 ≤ pa ||
  (match windowOf pa with | some w => (kget? s.io.windows w).isSome | none => false)
/-- The die that is a line's home (R260, R399). -/
def homeDie (pa : Nat) : Nat :=
  if !Config.twoDies then 0
  else match nearDram pa with
    | some d => d
    | none => popcN (pa / 2 ^ 7) 33 % 2
/-- The owner of a physical page under the page-owner table (R358): 0xFF for none. -/
def pageOwnerOf (s : State) (pa : Nat) : Nat := kgetD s.up.pages (pa / 65536) 255

/-! ### Translation -/

/-- A leaf found by a walk: entry words, the entry's flat address, page base and size. -/
structure Leaf where
  lo : Nat
  hi : Nat
  at_ : Nat
  va : Nat
  size : Nat
  deriving DecidableEq, Repr

/-- One level of Table 14-6: index position and bits, the page size of a leaf, or 0 for none. -/
abbrev Level := Nat × Nat × Nat

/-- The four levels of Table 14-6. -/
def levels : List Level := [(39, 9, 0), (30, 9, 2 ^ 30), (21, 9, 2 ^ 21), (16, 5, 2 ^ 16)]

/-- Reads an entry at a level of the walk (R263, R264): a table, a leaf, or PAGE as none. -/
def walkFrom (m : List Host.Cell) (va table : Nat) : List Level → Option Leaf
  | [] => none
  | (p, b, page) :: rest =>
    let at_ := table + bitsOf va p b * 16
    let lo := memNat m at_ 8
    let hi := memNat m (at_ + 8) 8
    let addr := bitsOf lo 12 40 * 4096
    if lo % 2 = 0 then none
    else if lo / 2 % 2 = 0 then
      if hi ≠ 0 ∨ bitsOf lo 4 8 ≠ 0 ∨ bitsOf lo 52 12 ≠ 0 ∨ rest = [] ∨ (rest.length ≠ 1 ∧ addr % 8192 ≠ 0) then none
      else walkFrom m va addr rest
    else if page = 0 ∨ bitsOf lo 52 12 ≠ 0 ∨ bitsOf hi 0 9 ≠ 0 ∨ bitsOf lo 9 3 ≠ 0 ∨ bitsOf lo 7 2 = 3 ∨ addr % page ≠ 0
    then none
    else some { lo := lo, hi := hi, at_ := at_, va := va / page * page, size := page }

/-- The leaf that the loader gives a page of a context's code windows that holds part of a translation (R62): R and X without W. -/
def codeLeaf (s : State) (c va : Nat) : Option Leaf :=
  let page := va / 65536 * 65536
  s.codes.findSome? (fun e =>
    if e.2.ctx = c ∧ e.2.base ≤ va ∧ va < e.2.base + 2 ^ 26 ∧
      e.2.trans.any (fun t => t.2.off < page - e.2.base + 65536 && page - e.2.base < t.2.off + t.2.len) then
      some { lo := codeFlat e.1 + (page - e.2.base) + 0x37, hi := 0, at_ := 2 ^ 56 + e.1 * 2 ^ 16 + (page - e.2.base) / 65536 * 16,
             va := page, size := 65536 }
    else none)

/-- The physical address of a virtual address under a leaf. -/
def Leaf.pa (l : Leaf) (va : Nat) : Nat := l.lo / 4096 * 4096 + (va - l.va)

/-- The leaf of a virtual address of a context: one of its code windows, or from its root table (R62, R264); a page that has been retired
is mapped nowhere (R352). -/
def walk (s : State) (c va : Nat) : Option Leaf :=
  match codeLeaf s c va with
  | some l => some l
  | none => (walkFrom s.mem va (s.ctx c).root levels).filter (fun l => !s.up.retired.contains (l.pa va / 65536))

/-- The flat addresses of the entries that a walk reads, whether or not it finds a leaf (R264). -/
def walkPath (m : List Host.Cell) (va table : Nat) : List Level → List Nat
  | [] => []
  | (p, b, _) :: rest =>
    let at_ := table + bitsOf va p b * 16
    let lo := memNat m at_ 8
    at_ :: (if lo % 4 = 1 then walkPath m va (bitsOf lo 12 40 * 4096) rest else [])

/-- Sets the accessed bit of a leaf (R264). -/
def setAccessed (m : List Host.Cell) (l : Leaf) : List Host.Cell :=
  memSet m l.at_ (memGet m l.at_ ||| 0x20#8)

/-- A walk of the device's own, which sets the accessed bit as every walk does (R264). -/
def walkSet (s : State) (c va : Nat) : Option Leaf × State :=
  match walk s c va with
  | none => (none, s)
  | some l => (some l, { s with mem := setAccessed s.mem l })

/-- Whether two leaf words map alike: they differ at most in A and D. -/
def sameLeaf (lo hi : Nat) (l : Leaf) : Bool := lo &&& 0xFFFFFFFFFFFFFF9F == l.lo &&& 0xFFFFFFFFFFFFFF9F && hi == l.hi

/-- The translation of a virtual address below 2 to the 48 (R264, R266). A held translation serves; where the tables have
changed since, either the old or the new entry serves until an invalidation, by a free choice. No entry serves a page that has been
retired (R352). -/
def translate (s : State) (c va : Nat) : Option Leaf × State :=
  let held := s.ch.tlb.find? (fun e => e.ctx == c && e.va ≤ va && va < e.va + e.size &&
    !s.up.retired.contains ((e.lo / 4096 * 4096 + (va - e.va)) / 65536))
  match walk s c va, held with
  | none, none => (none, s)
  | some l, none =>
    let e : TlbEntry := { ctx := c, va := l.va, size := l.size, lo := l.lo, hi := l.hi, leaf := l.at_ }
    (some l, { s with mem := setAccessed s.mem l, ch := { s.ch with tlb := e :: s.ch.tlb } })
  | w, some e =>
    let old : Leaf := { lo := e.lo, hi := e.hi, at_ := e.leaf, va := e.va, size := e.size }
    if (match w with | some l => sameLeaf e.lo e.hi l && l.va == e.va | none => false) then (some old, s)
    else
      let s := { s with run := { s.run with fresh := s.run.fresh + 1 } }
      if Config.freeChoice (s.run.fresh - 1) then (some old, s)
      else (w, { s with mem := match w with | some l => setAccessed s.mem l | none => s.mem })

/-- The leaf grants reads. -/
def Leaf.r (l : Leaf) : Bool := bitOf l.lo 2
/-- The leaf grants writes. -/
def Leaf.w (l : Leaf) : Bool := bitOf l.lo 3
/-- The leaf grants fetches. -/
def Leaf.x (l : Leaf) : Bool := bitOf l.lo 4
/-- Cache policy. -/
def Leaf.policy (l : Leaf) : Nat := bitsOf l.lo 7 2
/-- Element format code (Table 14-5). -/
def Leaf.fmt (l : Leaf) : Nat := bitsOf l.hi 9 6
/-- Block geometry. -/
def Leaf.geo (l : Leaf) : Nat := bitsOf l.hi 15 3
/-- Codebook slot. -/
def Leaf.slot (l : Leaf) : Nat := bitsOf l.hi 18 6
/-- Scale sidecar's physical address. -/
def Leaf.sidecar (l : Leaf) : Nat := bitsOf l.hi 24 40 * 4096

/-! ### Generic addresses -/

/-- Window base of a space code of Table 14-2. -/
def spaceBase (sp : Nat) : Nat :=
  match sp with
  | 1 => 0xFE00000000000000
  | 2 => 0xFF00000000000000
  | 3 => 0xFF01000000000000
  | 4 => 0xFF02000000000000
  | _ => 0

/-- The space code of a generic address (R256, R259): 7 when it lies in no space. -/
def spaceOf (a : Nat) : Nat :=
  if a < 2 ^ 48 then 0
  else if 0xFE00000000000000 ≤ a && a < 0xFE00000000000000 + 2 ^ 40 then 1
  else if 0xFF00000000000000 ≤ a && a < 0xFF00000000000000 + 2 ^ 32 then 2
  else if 0xFF01000000000000 ≤ a && a < 0xFF01000000000000 + 2 ^ 32 then 3
  else if 0xFF02000000000000 ≤ a && a < 0xFF02000000000000 + 2 ^ 32 then 4
  else 7

/-- Where a generic address leads: flat address, path code (R267), space code, leaf of a translated address, and
whether it is an exact common cell (R284). -/
structure Loc where
  pa : Nat
  path : Nat
  space : Nat
  leaf : Option Leaf
  exact : Bool := false
  deriving DecidableEq, Repr

/-- What an access does, for its permission checks (R264, R265). -/
inductive Acc where
  | read | write | atomic
  deriving DecidableEq, Repr

/-- The flat address of an offset into a workgroup's scratchpad banks (R257), if it lies in their extent. -/
def scratchAt (g : Workgroup) (x : Nat) : Option Nat :=
  let nb := g.banks.length
  if x < nb * 32768 then some (scratchFlat g.core (g.banks.getD (x / 8 % nb) 0) + x / 8 / nb * 8 + x % 8) else none

/-- The flat address of a common-space offset (R283, Table 15-1), and whether it is an exact cell's. -/
def commonAt (c : Context) (x : Nat) : Option (Nat × Bool) :=
  if x < 2 ^ 31 then
    let np := c.plain.length
    if x < np * 2 ^ 18 then some (commonFlat (c.plain.getD (x / 128 % np) 0) + x / 128 / np * 128 + x % 128, false) else none
  else
    let ne := c.exact.length
    let y := x - 2 ^ 31
    if y < ne * 2 ^ 18 then some (commonFlat (c.exact.getD (y / 32 % ne) 0) + y / 32 / ne * 32 + y % 32, true) else none

/-- Whether an offset of a context's pool lies in a PROT area of a strand's region, resident or saved (R113); what lies between the end of
an area and the next multiple of 4 KiB is held to be the area's (DESIGN CHOICE, log 3). -/
def inProtArea (s : State) (c off : Nat) : Bool :=
  s.ths.any (fun e => e.2.pl.kind == .strand && e.2.pl.ctx == c && e.2.pl.region ≤ off &&
    off < e.2.pl.region + stackArea (s.transTh e.2)) ||
  s.wgs.any (fun e => e.2.saved && e.2.ctx == c &&
    e.2.regions.any (fun r => r ≤ off && off < r + stackArea (s.transOf e.2.code e.2.trans)))

/-- Whether two byte ranges overlap. -/
def overlap (a n b m : Nat) : Bool := n != 0 && m != 0 && a < b + m && b < a + n

/-- The save areas of a context: base and size (Table 19-1). -/
def saveAreas (c : Context) : List (Nat × Nat) := if c.saveArea then [(c.save0, c.save0Len), (c.save1, c.save1Len)] else []

/-- Whether a virtual address lies in a page that holds part of a save area of its context, which kernels may not touch (R357). -/
def inSaveArea (s : State) (c va : Nat) : Bool :=
  (s.ctx c).saveArea &&
    (match walk s c va with
     | some l => (saveAreas (s.ctx c)).any (fun r => overlap l.va l.size r.1 r.2)
     | none => (saveAreas (s.ctx c)).any (fun r => overlap (va / 65536 * 65536) 65536 r.1 r.2))

/-- Whether an address of the global or lane-private space of a context is one that kernels may not touch: it lies in a PROT area (R113),
in a page of a save area (R357), or outside the pool (R256). -/
def barred (s : State) (c a : Nat) : Bool :=
  let x := s.ctx c
  match spaceOf a with
  | 0 => inSaveArea s c a || (x.poolBase ≤ a && a < x.poolBase + x.poolSize && inProtArea s c (a - x.poolBase))
  | 1 =>
    let o := a - spaceBase 1
    x.poolSize ≤ o || inProtArea s c o || inSaveArea s c (x.poolBase + o)
  | 2 | 3 | 4 => false
  | _ => true

/-- Notes the scratchpad rows that a write of some bytes reaches (R369). -/
def wroteRows (s : State) (pas : List Nat) : State :=
  let rows := ((pas.filter (fun a => 2 ^ 52 ≤ a && a < 2 ^ 53)).map (· / 8)).eraseDups
  { s with dirty := s.dirty ++ rows.filter (fun r => !s.dirty.contains r) }

/-- Whether a scratchpad row lies in a bank of a workgroup. -/
def rowOf (g : Workgroup) (r : Nat) : Bool := g.banks.any (fun b => scratchFlat g.core b ≤ 8 * r && 8 * r < scratchFlat g.core b + 32768)

/-- Whether a leaf grants an access (R264): an atomic needs both rights and a page that is not uncached. -/
def grants (l : Leaf) : Acc → Bool
  | .read => l.r
  | .write => l.w
  | .atomic => l.r && l.w && l.policy != 2

/-- Whether the peer of a remote window answers an access with an error, which the access takes as PROT (R402): the peer's free choice
(DESIGN CHOICE, log 6). -/
def peerRefuses (s : State) (pa : Nat) : Bool × State := if (windowOf pa).isSome then s.freeBool else (false, s)

/-- Translates a virtual address for a kernel access and checks its rights (R272 steps 3 and 4). -/
def virtLoc (s : State) (c va space : Nat) (acc : Acc) : Except FClass Loc × State :=
  match translate s c va with
  | (none, s) => (.error .page, s)
  | (some l, s) =>
    if !grants l acc || !populated s (l.pa va) then (.error .prot, s)
    else match peerRefuses s (l.pa va) with
      | (true, s) => (.error .prot, s)
      | (false, s) => (.ok { pa := l.pa va, path := 0, space := space, leaf := some l }, s)

/-- Resolves a generic address for an access of a thread (R256 to R258, R272 steps 2 to 4; R344, R376 for the handler and
queue threads). -/
def resolve (s : State) (th a : Nat) (acc : Acc) : Except FClass Loc × State :=
  let t := s.th th
  let c := s.ctx t.pl.ctx
  match spaceOf a with
  | 0 =>
    if barred s t.pl.ctx a then (.error .prot, s) else virtLoc s t.pl.ctx a 0 acc
  | 1 =>
    if t.pl.kind == .queue || barred s t.pl.ctx a then (.error .prot, s)
    else virtLoc s t.pl.ctx (c.poolBase + (a - spaceBase 1)) 1 acc
  | 2 =>
    if t.pl.kind != .strand then (.error .prot, s)
    else match scratchAt (s.wg t.pl.wg) (a - spaceBase 2) with
      | some pa => (.ok { pa := pa, path := 2, space := 2, leaf := none }, s)
      | none => (.error .prot, s)
  | 3 =>
    if t.pl.kind != .strand then (.error .prot, s)
    else match (s.wg t.pl.wg).partner with
      | none => (.error .prot, s)
      | some p =>
        if (kget? s.wgs p).isNone then (.error .prot, s)
        else match scratchAt (s.wg p) (a - spaceBase 3) with
          | some pa => (.ok { pa := pa, path := 2, space := 3, leaf := none }, s)
          | none => (.error .prot, s)
  | 4 =>
    match commonAt c (a - spaceBase 4) with
    | some (pa, ex) => (.ok { pa := pa, path := 6, space := 4, leaf := none, exact := ex }, s)
    | none => (.error .prot, s)
  | _ => (.error .prot, s)

/-- Resolves each byte of a run from a generic address on: the flat address of each byte, and the first failure. -/
def resolveRun (s : State) (th : Nat) (acc : Acc) : Nat → Nat → Except (FClass × Nat) (List Loc) × State
  | _, 0 => (.ok [], s)
  | a, n + 1 =>
    match resolve s th a acc with
    | (.error e, s) => (.error (e, a), s)
    | (.ok l, s) =>
      match resolveRun s th acc (a + 1) n with
      | (.ok ls, s) => (.ok (l :: ls), s)
      | (.error e, s) => (.error e, s)

/-- Translates an address of a context for the device itself, with a right to read or write. -/
def deviceLoc (s : State) (c va : Nat) (acc : Acc) : Except FClass Nat × State :=
  if 2 ^ 48 ≤ va then (.error .prot, s)
  else match virtLoc s c va 0 acc with
    | (.ok l, s) => (.ok l.pa, s)
    | (.error e, s) => (.error e, s)

/-- Sets the dirty bit of a leaf at its home before a write to its page is visible (R265, R334). -/
def setDirty (s : State) (leaf : List Nat) : State :=
  { s with mem := leaf.foldl (fun m a => memSet m a (memGet m a ||| 0x40#8)) s.mem }

/-! ### Cells of the register map (log 3) -/

/-- Cell of a ring row in a lane's column. -/
def ringCell (slot row l : Nat) : Nat := (slot * 8 + row) * 32 + l
/-- Cell of a g register. -/
def gCell (n l : Nat) : Nat := 0x20000 + n * 32 + l
/-- Cell of a scalar register. -/
def sCell (n : Nat) : Nat := 0x30000 + n
/-- Cell of a lane's bit of a k register. -/
def kCell (n l : Nat) : Nat := 0x40000 + n * 32 + l
/-- Cell of a row of a loop queue. -/
def lqCell (n row l : Nat) : Nat := 0x50000 + (n * 8 + row) * 32 + l

/-- Plies of the frame ring: the ring less the loop queues set (R156). -/
def Regs.qf (r : Regs) : Nat := r.q - r.lqs.length

/-- The cell of virtual register vr of a lane. -/
def vrCell (r : Regs) (vr l : Nat) : Nat := ringCell (vr / 8 % r.qf) (vr % 8) l

/-- The lane of a ring cell. -/
def cellLane (c : Nat) : Nat := c % 32

/-- The virtual register that a ring cell holds for a lane whose window begins at a ply (R103, R106). -/
def cellVr (r : Regs) (lo c : Nat) : Nat := 8 * (lo + (c / 256 + r.qf - lo % r.qf) % r.qf) + c / 32 % 8

/-! ### Range locks -/

/-- The die of a core number, or of a queue thread, which counts as a core of its own from 256 on (R8, R9, R376). -/
def dieOfCore (core : Nat) : Nat := if 256 ≤ core then (core - 256) / 32 else core / 64

/-- Where a generic address of a context's workgroup lies for range locks: a space key and an address in it. Lane-private addresses are
global ones at the pool base (R256); shared and cluster space are those of one workgroup. -/
def lockPlaceOf (s : State) (ctx wg a : Nat) : Nat × Nat :=
  match spaceOf a with
  | 0 => (0, a)
  | 1 => (0, (s.ctx ctx).poolBase + (a - spaceBase 1))
  | 2 => (16 + wg, a - spaceBase 2)
  | 3 => (16 + (s.wg wg).partner.getD 0, a - spaceBase 3)
  | _ => (1, a - spaceBase 4)

/-- Where a generic address of a thread lies for range locks. -/
def lockPlace (s : State) (th a : Nat) : Nat × Nat := lockPlaceOf s (s.th th).pl.ctx (s.th th).pl.wg a

/-- Whether two locks of one context on one die conflict (R301): ranges overlap and one of them writes. -/
def lockConflict (a b : LockEntry) : Bool :=
  a.ctx == b.ctx && dieOfCore a.core == dieOfCore b.core &&
  a.ranges.any (fun r => b.ranges.any (fun q => r.space == q.space && (r.write || q.write) && overlap r.lo r.len q.lo q.len))

/-- Whether an earlier-registered entry still orders a flight's entry (R301). -/
def lockWaits (s : State) (id : Nat) : Bool :=
  match s.lk.entries.find? (fun e => e.flight == id && !e.quiet) with
  | none => false
  | some e => s.lk.entries.any (fun g => g.reg < e.reg && lockConflict g e)

/-- Whether a core can register an entry, in its own table or its die's (R299). -/
def lockRoom (s : State) (core : Nat) : Bool :=
  (s.lk.entries.filter (fun e => e.core == core && !e.overflow && !e.quiet)).length < 64 ||
  (s.lk.entries.filter (fun e => dieOfCore e.core == dieOfCore core && e.overflow && !e.quiet)).length < 1024

/-- Registers an entry of an operation (R299); one with no ranges registers nothing. -/
def addLock (s : State) (core ctx id : Nat) (rs : List LockRange) : State :=
  let rs := rs.filter (·.len != 0)
  if rs.isEmpty then s
  else
    let own := (s.lk.entries.filter (fun e => e.core == core && !e.overflow && !e.quiet)).length < 64
    let e : LockEntry := { reg := s.lk.next, ctx := ctx, core := core, overflow := !own, flight := id, ranges := rs }
    { s with lk := { entries := s.lk.entries ++ [e], next := s.lk.next + 1 } }

/-- Releases an operation's entry. -/
def dropLock (s : State) (id : Nat) : State := { s with lk := { s.lk with entries := s.lk.entries.filter (·.flight != id) } }

/-- A generic range as a lock range. -/
def lockRange (s : State) (th a n : Nat) (write : Bool) : LockRange :=
  let p := lockPlace s th a
  { space := p.1, lo := p.2, len := n, write := write }

/-- Registers an entry that is released within the same move, such as that of a quantum-log write (R299); none while both tables are
full. -/
def lockPass (s : State) (core ctx : Nat) (rs : List LockRange) : Option State :=
  if lockRoom s core then some (dropLock (addLock s core ctx 0 rs) 0) else none

end Sys2Proof.Machine
end

