-- ==== Sys2Proof/Machine/Ops.lean ====
section
/-!
DEFINITION. Shared operations: flights and path counters (R267, R268), quanta and commits (R315 to R317), taking a fault
(R137, R339, R345, R351, R379), groups, knots and slots (R124 to R131), waits and barriers (R85 to R89), and the end of an
instruction and of a clause (R81, R38, R39).
The instants at which these effects happen are those of log 11 (DEDUCED).
-/

namespace Sys2Proof.Machine

/-! ### Slots and groups -/

/-- The program-counter slot of an index (R124). -/
def Strand.slot (t : Strand) (k : Nat) : PcSlot := if k = 0 then t.ps.s0 else t.ps.s1

/-- Sets a program-counter slot. -/
def Strand.setSlot (t : Strand) (k : Nat) (v : PcSlot) : Strand :=
  { t with ps := if k = 0 then { t.ps with s0 := v } else { t.ps with s1 := v } }

/-- The group of a slot, or an empty one. -/
def Strand.grp (t : Strand) (k : Nat) : Group := (t.slot k).grp.getD {}

/-- Sets the group of a slot. -/
def Strand.setGrp (t : Strand) (k : Nat) (g : Option Group) : Strand := t.setSlot k { t.slot k with grp := g }

/-- The lanes that are neither exited nor idle (R87). -/
def Strand.live (t : Strand) : Word := ~~~(t.ln.exited ||| t.ln.idle)

/-- A lane's frame word (R102). -/
def Strand.frame (t : Strand) (l : Nat) : LaneFrame := t.rg.frames.getD l {}

/-- Sets a lane's frame word. -/
def Strand.setFrame (t : Strand) (l : Nat) (f : LaneFrame) : Strand :=
  { t with rg := { t.rg with frames := t.rg.frames.set l f } }

/-- The offset of the instruction that a slot is at: inside its clause, or its group's PC (R62). -/
def curPc (t : Strand) (k : Nat) : Nat :=
  match (t.slot k).clause with
  | some c => c.hdr + 2 + c.pos
  | none => (t.grp k).pc

/-- The offset of the clause after the one a slot is in. -/
def nextClause (t : Strand) (k : Nat) : Nat :=
  match (t.slot k).clause with
  | some c => c.hdr + 2 + c.body.length
  | none => (t.grp k).pc

/-- The thread and slot at the issue of an instruction: the thread that the model's own field names, where it exists and
a group of it issues (DESIGN CHOICE, log 1). -/
def issuer (s : State) : Option (Nat × Nat) :=
  match s.run.cur with
  | none => none
  | some n =>
    match kget? s.ths n with
    | none => none
    | some t =>
      match t.ps.issuing with
      | none => none
      | some k => if (t.slot k).grp.isSome then some (n, k) else none

/-- Runs a meaning for the thread and slot at issue; with none there is nothing to act on. -/
def withIssuer (s : State) (f : Nat → Nat → State) : Host.Outcome State Fault Refusal :=
  match issuer s with
  | none => .fault .noIssuer
  | some (n, k) => .next (f n k)

/-- What an issuing instruction is: thread, slot, size in parcels, stall count, guard and literal. -/
structure Iss where
  th : Nat
  k : Nat
  size : Nat := 1
  st : Nat := 0
  gk : Nat := 0
  gneg : Bool := false
  lit : Word := 0
  deriving DecidableEq, Repr

/-! ### Flights -/

/-- The in-flight counter of a path (R267): the operations of the thread that the path has not released. -/
def counter (s : State) (th p : Nat) : Nat := (s.fl.filter (fun f => f.th == th && f.paths.contains p)).length

/-- The commits that a thread's closed quanta will be at the releases of their phases (R87, R316). Their room on path S is kept from the
arrival on, as no rule lets a release wait (DEDUCED, log 11). -/
def pledged (t : Strand) (p : Nat) : Nat := if p = 1 then (t.qn.closed.map (·.1)).eraseDups.length else 0

/-- The greatest count of a path from which an instruction that raises the paths of a list may go on (R267): each mention raises one, and
the commits of closed quanta keep their room. -/
def pathRoom (s : State) (th : Nat) (ps : List Nat) (p : Nat) : Nat := 255 - ps.count p - pledged (s.th th) p

/-- The first path of a list with no room for what the list raises (R267). -/
def fullPath (s : State) (th : Nat) (ps : List Nat) : Option Nat := ps.find? (fun p => pathRoom s th ps p < counter s th p)

/-- Drops what a thread's finished operations hold, in issue order on each path (R268); `blk` holds the paths on which an
earlier operation of the thread is not released. -/
def sweepGo (th : Nat) : List Flight → List Nat → List Flight
  | [], _ => []
  | f :: fs, blk =>
    if f.th ≠ th then f :: sweepGo th fs blk
    else if f.done then
      let keep := f.paths.filter (fun p => blk.contains p)
      if keep.isEmpty then sweepGo th fs blk else { f with paths := keep } :: sweepGo th fs (blk ++ keep)
    else f :: sweepGo th fs (blk ++ f.paths)

/-- Marks an operation finished and lets its path counters fall in issue order (R268). -/
def finishFlight (s : State) (id : Nat) : State :=
  match s.flight? id with
  | none => s
  | some f =>
    let s := s.modFlight id (fun x => { x with done := true })
    { s with fl := sweepGo f.th s.fl [] }

/-! ### Happens-before -/

/-- Whether an operation in flight has still to write for some lanes: a commit with a sector of theirs that is not applied, or an atomic
that is not performed. The minors of common memory are published by a wait alone (R292). -/
def Flight.writesBy (f : Flight) (lanes : Word) : Bool :=
  match f.work with
  | .commit secs _ => secs.any (fun x => !x.applied && x.lanes &&& lanes != 0)
  | .atom op _ _ _ ls => op < 32 && !f.done && ls.any (fun l => lanes.getLsbD l.lane)
  | _ => false

/-- Whether an operation in flight is an acquire whose later loads wait for it (R325). -/
def acquires (f : Flight) : Bool :=
  match f.work with
  | .load _ acq _ => acq != 0
  | .atom _ _ _ order _ => order == 1 || order == 3
  | .abtest _ _ _ _ => true
  | .fence => true
  | _ => false

/-- The numbers of some writes that are still in flight. -/
def stillOut (s : State) (ids : List Nat) : List Nat :=
  ((s.fl.filter (fun g => ids.contains g.id && g.writesBy 0xFFFFFFFF)).map (·.id))

/-- The writes of other threads, still in flight, that happen before the next operation of some lanes of a thread (R327). -/
def hbOf (s : State) (th : Nat) (lanes : Word) : List Nat :=
  stillOut s (((kgetD s.ord.hb th []).filter (fun e => e.2 &&& lanes != 0)).map (·.1))

/-- Adds writes to a list of those that happen before some lanes' operations; those that are over are dropped. -/
def hbAdd (s : State) (old : List (Nat × Word)) (lanes : Word) (ids : List Nat) : List (Nat × Word) :=
  old.filter (fun e => stillOut s [e.1] != []) ++ (stillOut s ids).map (fun n => (n, lanes))

/-- An acquire of some lanes synchronises with releases that came after some writes (R326). -/
def hbAcquire (s : State) (th : Nat) (lanes : Word) (ids : List Nat) : State :=
  if ids == [] then s
  else { s with ord := { s.ord with hb := kset s.ord.hb th (hbAdd s (kgetD s.ord.hb th []) lanes ids) } }

/-- A plain read of some lanes has read the value of such releases: an acquire fence after it synchronises with them (R326). -/
def hbRead (s : State) (th : Nat) (lanes : Word) (ids : List Nat) : State :=
  if ids == [] then s
  else { s with ord := { s.ord with rd := kset s.ord.rd th (hbAdd s (kgetD s.ord.rd th []) lanes ids) } }

/-- An acquire fence of some lanes ends (R326). -/
def hbFence (s : State) (th : Nat) (lanes : Word) : State :=
  hbAcquire s th lanes (((kgetD s.ord.rd th []).filter (fun e => e.2 &&& lanes != 0)).map (·.1))

/-- Whether an earlier acquire of some lanes of a thread, numbered below a bound, has not finished (R325). -/
def priorAcquire (s : State) (th bound : Nat) (lanes : Word) : Bool :=
  s.fl.any (fun g => g.th == th && g.id < bound && !g.done && acquires g && g.lanes &&& lanes != 0)

/-- The writes in flight that a release of some lanes, numbered by a bound, comes after (R324): those that the lanes made, and those
that happen before it. -/
def priorWrites (s : State) (th bound : Nat) (lanes : Word) (hb : List Nat) : List Flight :=
  s.fl.filter (fun g => g.th == th && g.id < bound && g.writesBy lanes || hb.contains g.id && g.writesBy 0xFFFFFFFF)

/-- Whether a release of cluster scope or wider still waits: for the home of a write that comes before it, or for an acquire of its lanes
(R324, R327). -/
def homeWaits (s : State) (th bound : Nat) (lanes : Word) (hb : List Nat) : Bool :=
  priorAcquire s th bound lanes || priorWrites s th bound lanes hb != []

/-- Whether a flight is a release store of cluster scope or wider that still waits: it is visible at no scope yet (R324). -/
def unreleased (s : State) (f : Flight) : Bool :=
  match f.work with | .commit _ rel => 3 ≤ rel && homeWaits s f.th f.id f.lanes f.hb | _ => false

/-- Whether a release of core scope still waits: its core sees every commit but such release stores, and no atomic before it is performed
(R324, R328). -/
def coreWaits (s : State) (th bound : Nat) (lanes : Word) (hb : List Nat) : Bool :=
  priorAcquire s th bound lanes ||
  (priorWrites s th bound lanes hb).any (fun g => match g.work with | .commit _ _ => unreleased s g | _ => true)

/-- Whether a release of a scope still waits (R324): at strand scope there is nothing to wait for. -/
def relWaits (s : State) (th bound : Nat) (lanes : Word) (scope : Nat) : Bool :=
  if 3 ≤ scope then homeWaits s th bound lanes (hbOf s th lanes)
  else scope == 2 && coreWaits s th bound lanes (hbOf s th lanes)

/-- The writes in flight that a release of some lanes of a thread comes after now. -/
def comesAfter (s : State) (th : Nat) (lanes : Word) : List Nat :=
  (priorWrites s th s.run.nextId lanes (hbOf s th lanes)).map (·.id)

/-- Adds the writes that an arrival came after to those of its barrier (R326). -/
def hbArrive (s : State) (key : Nat) (ids : List Nat) : State :=
  if ids == [] then s
  else { s with ord := { s.ord with bar := kset s.ord.bar key (stillOut s (kgetD s.ord.bar key []) ++ ids) } }

/-- The key of a workgroup's barrier under which the writes before the arrivals of its phase stand, and with 8 more those of its phases
that have been released. -/
def barKey (w id : Nat) : Nat := 16 * w + id

/-! ### Operations in flight -/

/-- The lanes that a thread's instruction acts for: those of the issuing group, or all where none issues. -/
def issuingLanes (t : Strand) : Word := match t.ps.issuing with | some k => (t.grp k).mask | none => 0xFFFFFFFF

/-- The lanes that an operation acts for: those of a load, an atomic, an `abtest`, a fetch or a commit, else those of its group. -/
def workLanes (t : Strand) (w : Work) : Word :=
  match w with
  | .load ls _ _ => maskOf (ls.map (·.lane))
  | .commit secs 0 => secs.foldl (fun m x => m ||| x.lanes) 0
  | .abtest _ _ _ lanes => lanes
  | .fetch _ _ _ _ lanes _ => lanes
  | _ => issuingLanes t

/-- Adds an operation of a thread; answers its number (R267). -/
def newFlight (s : State) (th : Nat) (paths dests : List Nat) (w : Work) : Nat × State :=
  let t := s.th th
  let (id, s) := s.newId
  let vregs := (dests.filter (· < 0x20000)).map (fun c => (c, cellVr t.rg (t.rg.frames.getD (cellLane c) {}).lo c))
  let lanes := workLanes t w
  (id, { s with fl := s.fl ++ [{ id := id, th := th, core := t.pl.core, ctx := t.pl.ctx, launch := t.pl.launch,
                                 paths := paths, dests := dests, vregs := vregs, work := w, till := id, lanes := lanes,
                                 hb := hbOf s th lanes }] })

/-! ### Die links and the directory -/

/-- Changes a link that exists. -/
def modLink (s : State) (n : Nat) (f : DieLink → DieLink) : State := { s with io := { s.io with dies := kmodify s.io.dies n f } }

/-- Whether a message may go out: none of its class waits before it on the link, and the class has credits for its slots (R399). -/
def maySend (s : State) (m : NgMsg) : Bool :=
  !s.io.outbox.any (fun x => x.link == m.link && x.cls == m.cls) && m.more < (kgetD s.io.dies m.link {}).credits.getD m.cls 0

/-- Takes slots of a class off a link's credits. -/
def lessCredits (l : List Nat) (m : NgMsg) : List Nat := l.set m.cls (l.getD m.cls 0 - (m.more + 1))

/-- Sends a message on its link, against credits of its class. -/
def emit (s : State) (m : NgMsg) : State :=
  let s := modLink s m.link (fun l => { l with credits := lessCredits l.credits m })
  { s with io := { s.io with sent := s.io.sent ++ [m] } }

/-- Sends a message, or keeps it until credits return. -/
def send (s : State) (m : NgMsg) : State := if maySend s m then emit s m else { s with io := { s.io with outbox := s.io.outbox ++ [m] } }

/-- The directory state of a line at its home (R400): 0 uncached elsewhere, 1 shared, 2 owned by the other compute die. -/
def dirOf (s : State) (pa : Nat) : Nat := kgetD s.ch.dir (pa / 128) 0

/-- Sets the directory state of a line. -/
def setDir (s : State) (pa v : Nat) : State := { s with ch := { s.ch with dir := kset s.ch.dir (pa / 128) v } }

/-- The link between the compute dies (log 13). -/
def dieLink : Nat := 2

/-- The lines of some bytes of which the other compute die holds a copy (R400). -/
def copiesOf (s : State) (pas : List Nat) : List Nat := ((pas.map (· / 128)).eraseDups).filter (fun n => dirOf s (128 * n) != 0)

/-- Sends the snoop that invalidates a line at the other compute die, and keeps it until its answer; one that is on its way is not sent
again (R400). -/
def snoop (s : State) (line : Nat) : State :=
  let waits := (kgetD s.io.dies dieLink {}).pend.filter (fun x => x.cls == 1)
  if waits.any (fun x => x.addr == 128 * line) then s
  else
    let tag := ((List.range 4096).find? (fun n => !waits.any (·.tag == n))).getD 0
    let m : NgMsg := { link := dieLink, cls := 1, op := 0, addr := 128 * line, tag := tag, more := 0, ctx := 0, scope := 4, src := 0,
                       operand := 0, data := [] }
    send (modLink s dieLink (fun l => { l with pend := l.pend ++ [m] })) m

/-- What writes bytes at their homes, once the other compute die holds no copy of their lines; until then the snoops go out (R400). -/
def atHome (s : State) (pas : List Nat) (done : State) : State :=
  match copiesOf s pas with
  | [] => done
  | ls => ls.foldl snoop s

/-! ### Device writes -/

/-- Writes a byte for the device at a flat address; neither a narrow release of its line nor a release sequence of the byte stands any
longer (R330, R331). Where the other compute die holds a
copy of the line the byte waits for the answer to the snoop (R400). -/
def physByte (s : State) (pa : Nat) (b : Byte) : State :=
  if dirOf s pa = 0 then
    { s with mem := memSet s.mem pa b, ch := { s.ch with narrow := kdel s.ch.narrow (pa / 128) }, ord := { s.ord with rel := kdel s.ord.rel pa } }
  else
    let s := snoop s (pa / 128)
    { s with io := { s.io with parked := s.io.parked ++ [(pa, b)] } }

/-- Writes a byte for the device at a virtual address of a context (R264, R265); where no writable page maps it, it is not written. -/
def devByte (s : State) (c va : Nat) (b : Byte) : State :=
  match walkSet s c va with
  | (some l, s) => if l.w && populated s (l.pa va) then physByte (setDirty s [l.at_]) (l.pa va) b else s
  | (none, s) => s

/-- Writes bytes for the device at a virtual address of a context. -/
def devWrite (s : State) (c va : Nat) (bs : List Byte) : State :=
  ((List.range bs.length).zip bs).foldl (fun s p => devByte s c (va + p.1) p.2) s

/-! ### Commits -/

/-- Adds a naturally aligned 8-byte piece, with its place for range locks, to the sector it lies in (R317). -/
def addHalf (secs : List SectorW) (pa mask data : Nat) (leaf : List Nat) (place : Nat × Nat) (lanes : Word) : List SectorW :=
  if mask = 0 then secs
  else
    let base := pa / 32 * 32
    let m := mask * 2 ^ (pa % 32 * 8)
    let d := (data &&& mask) * 2 ^ (pa % 32 * 8)
    let ps := ((List.range 8).filter (fun j => bitsOf mask (8 * j) 8 != 0)).map (fun j => (place.1, place.2 + j))
    match secs with
    | [] => [{ pa := base, mask := m, data := d, leaf := leaf, places := ps, lanes := lanes }]
    | x :: xs =>
      if x.pa = base then
        { x with mask := x.mask ||| m, data := (x.data &&& ((2 ^ 256 - 1) ^^^ m)) ||| d,
                 leaf := if leaf.all x.leaf.contains then x.leaf else x.leaf ++ leaf, places := x.places ++ ps, lanes := x.lanes ||| lanes } :: xs
      else x :: addHalf xs pa mask data leaf place lanes

/-- The sectors that buffered stores write, in their order of application (R317); `place` says where a chunk lies for range locks. -/
def sectorsOf (place : Nat → Nat × Nat) (es : List BufEntry) : List SectorW :=
  es.foldl (fun acc e =>
    let p := place e.chunk
    let l := 1#32 <<< e.lane
    addHalf (addHalf acc e.half0 (e.mask % 2 ^ 64) (e.data % 2 ^ 64) e.leaf p l) e.half1 (e.mask / 2 ^ 64) (e.data / 2 ^ 64) e.leaf
      (p.1, p.2 + 8) l) []

/-- The sectors that stores of a thread write. -/
def sectorsTh (s : State) (th : Nat) (es : List BufEntry) : List SectorW := sectorsOf (lockPlace s th) es

/-- Commits buffered stores of a thread as one operation on path S (R316, R317): its core can see them from now on, so the D bits of
their pages are set first (R265, R334); nothing to commit raises nothing. -/
def commitEntries (s : State) (th : Nat) (es : List BufEntry) (rel : Nat) : State :=
  match sectorsTh s th es with
  | [] => s
  | secs => (newFlight (setDirty s (secs.flatMap (·.leaf))) th [1] [] (.commit secs rel)).2

/-- The open stores of a lane set in the order of R317: lanes ascending, resident entries, then log records. -/
def openEntries (q : Quanta) (lanes : Word) : List BufEntry :=
  (lanesOf lanes).flatMap (fun l => q.buf.filter (·.lane == l) ++ q.log.filter (·.lane == l))

/-- Drops the open stores of a lane set. -/
def dropOpen (q : Quanta) (lanes : Word) : Quanta :=
  { q with buf := q.buf.filter (fun e => !lanes.getLsbD e.lane), log := q.log.filter (fun e => !lanes.getLsbD e.lane) }

/-- Writes the header of a strand's quantum log: its used count, its capacity and its reserved bytes (Table 17-3). -/
def logHeader (s : State) (th : Nat) : State :=
  let t := s.th th
  let tr := s.transTh t
  devWrite s t.pl.ctx ((s.ctx t.pl.ctx).poolBase + t.pl.region + qlogArea tr)
    (leBytes 4 t.qn.used ++ leBytes 4 ((tr.qlog - 64) / 48) ++ List.replicate 56 0)

/-- Whether a quantum has a record in the log, open or closed for a phase. -/
def Quanta.logs (q : Quanta) : Bool := q.log != [] || q.closed.any (·.2.logged)

/-- After a commit of a thread: one that has emptied its log sets the used count to 0 (R319). -/
def logEmptied (s : State) (th : Nat) : State :=
  if (s.th th).qn.used = 0 || (s.th th).qn.logs then s
  else logHeader (s.modTh th (fun t => { t with qn := { t.qn with used := 0 } })) th

/-- Commits the open quanta of a lane set of a thread (R316, R319). -/
def commitLanes (s : State) (th : Nat) (lanes : Word) : State :=
  let t := s.th th
  commitEntries (logEmptied (s.modTh th (fun t => { t with qn := dropOpen t.qn lanes })) th) th (openEntries t.qn lanes) 0

/-- The path that a commit of the open quanta of a lane set raises, if it holds a store (R267). -/
def commitPath (t : Strand) (lanes : Word) : List Nat := if openEntries t.qn lanes == [] then [] else [1]

/-- Drops a core's L1 copies (R325). -/
def dropL1 (s : State) (core : Nat) : State :=
  { s with ch := { s.ch with l1 := s.ch.l1.filter (fun x => x.core != core) } }

/-- The scope of an acquire, release or fence under the context's fence-strengthening mode (R335). -/
def strong (s : State) (ctx scope : Nat) : Nat :=
  if (s.ctx ctx).strengthen && scope != 0 && scope < 4 then 4 else scope

/-- Drops L1 copies for an acquire of a scope of cluster or wider (R325). -/
def acquireAt (s : State) (th scope : Nat) : State :=
  let t := s.th th
  if 3 ≤ strong s t.pl.ctx scope then dropL1 s t.pl.core else s

/-- Whether a store commit of a core numbered below a bound has a sector that is not applied (R324, R328). -/
def undrained (s : State) (core bound : Nat) : Bool :=
  s.fl.any (fun f => f.core == core && f.id < bound &&
    (match f.work with | .commit secs _ => secs.any (fun x => !x.applied) | _ => false))

/-! ### Fork stack in memory -/

/-- The group of a slot as its record names it: inside a clause the pc is that of the next instruction (Table 7-1). -/
def slotGroup (p : PcSlot) : Option Group :=
  p.grp.map (fun g => match p.clause with | some c => { g with pc := c.hdr + 2 + c.pos } | none => g)

/-- A group record's 16 bytes (Table 7-1). -/
def groupWord (g : Group) : Nat :=
  let st := match g.st with
    | .runnable => 0
    | .parked => 1
    | .waiting => match g.hold with
      | .path _ _ | .barrier _ | .phase _ _ true | .arrival _ _ => 2
      | _ => 0
  g.mask.toNat + g.pc % 2 ^ 24 * 2 ^ 32 + (if g.w then 2 ^ 61 else 0) + st * 2 ^ 62

/-- Writes the fork stack to the strand's fork area, bottom first, as it stands while stopped or switched out (R127). -/
def spillForks (s : State) (th : Nat) : State :=
  let t := s.th th
  let base := (s.ctx t.pl.ctx).poolBase + t.pl.region + forkArea (s.transTh t)
  if t.pl.kind != .strand then s
  else devWrite s t.pl.ctx base (t.ps.fork.reverse.flatMap (fun g => leBytes 16 (groupWord g)))

/-! ### Queues' status and events -/

/-- A fault record's 32 bytes (Table 18-2). -/
def faultBytes (r : FaultRec) : List Byte :=
  leBytes 4 r.pc ++ leBytes 4 r.pos ++ leBytes 8 r.addr ++ leBytes 4 r.mask.toNat ++
  leBytes 1 (match r.cls with
    | .illegal => 1 | .check => 2 | .page => 3 | .prot => 4 | .locked => 5 | .frame => 6 | .handle => 7 | .spill => 8
    | .qlog => 9 | .queue => 10 | .format => 11 | .target => 12 | .crypto => 13 | .ecc => 14 | .align => 15 | .trap => 16
    | .brk => 17) ++
  leBytes 1 r.source ++
  leBytes 1 ((if r.cstValid then 1 else 0) + (if r.stuck then 2 else 0) + (if r.pending then 4 else 0)) ++ [0] ++
  leBytes 4 r.detail ++ leBytes 4 r.seqNo

/-- The code of a fault class (Table 18-1). -/
def clsCode (c : FClass) : Nat := ((faultBytes { cls := c }).getD 20 0).toNat

/-! ### Queues and the RESYNC summary -/

/-- A queue's status block (Table 20-2). -/
def statusBytes (n : Nat) (q : Queue) : List Byte :=
  leBytes 4 q.state ++ leBytes 1 n ++ leBytes 1 (q.ctx.getD 0) ++ leBytes 1 q.prio ++ [0] ++ leBytes 4 q.seqNo ++
  leBytes 4 q.events ++ leBytes 8 q.launches ++ List.replicate 8 0 ++
  (if q.state = 3 then faultBytes (q.frec.getD {}) else List.replicate 32 0)

/-- Numbers a change of an entry of the RESYNC summary, by section and place (R397). -/
def noteChange (s : State) (sect n : Nat) : State :=
  { s with mg := { s.mg with seqNo := s.mg.seqNo + 1, changes := kset s.mg.changes (sect * 2 ^ 32 + n) (s.mg.seqNo + 1) } }

/-- Error counters of the summary have changed (Table 21-4): of the two entries of each die the first, with the counts of errors, or the
second. -/
def countersChange (s : State) (k : Nat) : State := (List.range Config.dies).foldl (fun s d => noteChange s 6 (2 * d + k)) s

/-- Withdraws a quadrant from placement until reset (R401, R405). -/
def withdraw (s : State) (q : Nat) : State := noteChange (s.modQuad q (fun a => { a with withdrawn := true })) 7 q

/-- Sets a queue's state and writes its status block as a system-scope release (R379), where a writable page maps it (R264). -/
def queueState (s : State) (n st : Nat) : State :=
  let q := s.queue n
  if q.state = st then s
  else
    let q := { q with state := st, seqNo := (q.seqNo + 1) % 2 ^ 32 }
    let q := { q with block := (statusBytes n q).take 32 }
    let s := noteChange (s.modQueue n (fun _ => q)) 3 n
    match q.ctx with
    | none => s
    | some c =>
      match walkSet s c q.status with
      | (none, s) => s
      | (some l, s) =>
        if !l.w || !populated s (l.pa q.status) then s else
        let pa := l.pa q.status
        let v := leNat (statusBytes n q)
        let all := 2 ^ 256 - 1
        (newFlight (setDirty s [l.at_]) (queueNo n) [] [] (.commit [{ pa := pa, mask := all, data := v % 2 ^ 256, leaf := [l.at_] },
          { pa := pa + 32, mask := all, data := v / 2 ^ 256, leaf := [l.at_] }] 5)).2

/-! ### Taking a fault -/

/-- Adds an escalation for the fault log (R351); it takes a ring slot or coalesces at the log's next write. A handler stands in no core slot:
its record names that of the strand it has selected, or 0 (DESIGN CHOICE, log 14). -/
def escalate (s : State) (source : Nat) (th : Nat) (r : FaultRec) (launch : Nat) : State :=
  let t := s.th th
  let place (t : Strand) : Nat := 16 * t.pl.quad + t.pl.slot
  let slot := match t.pl.kind with | .handler => t.ct.sel.elim 0 (fun n => place (s.th n)) | _ => place t
  let e : LogRec := { ctx := t.pl.ctx, cls := clsCode r.cls, source := source, core := t.pl.core, threads := [th],
                      addr := r.addr, pc := r.pc, mask := r.mask, detail := r.detail, slot := slot, launch := launch }
  { s with log := { s.log with waiting := s.log.waiting ++ [e] } }

/-- Frees every issue slot that a thread holds. -/
def freeIssue (s : State) (th : Nat) : State :=
  { s with quads := s.quads.map (fun e => if e.2.holder = some th then (e.1, { e.2 with holder := none }) else e),
           ccores := s.ccores.filter (fun e => e.2 != th),
           run := if s.run.cur = some th then { s.run with cur := none } else s.run }

/-- Stops a thread with a fault record (R137, R339): every group is held as it stands, results of earlier instructions have
been written (R39), and the record takes the context's next stop number and says whether another one is pending. A strand's stop waits for the handler of its core;
with no handler code it is escalated as if acknowledged (R345). A handler's stop is escalated as source 2 (R345). A queue
thread's stop goes into its status block (R379). -/
def stopThread (s : State) (th : Nat) (r : FaultRec) : State :=
  let t := s.th th
  let c := s.ctx t.pl.ctx
  let r := { r with seqNo := c.stops % 2 ^ 32, pending := t.ct.pending.isSome }
  let settle (p : PcSlot) : PcSlot := { p with byp := p.byp.map (fun b => { b with ready := 0 }) }
  let s := s.modCtx t.pl.ctx (fun c => { c with stops := c.stops + 1 })
  let s := s.modTh th (fun t => { t with
    ct := { t.ct with fault := some r, stopped := true, acked := t.pl.kind == .handler || c.handler == 0 },
    rg := { t.rg with pend := [], need := [], got := [], failed := [] },
    ps := { t.ps with issuing := none, clk := 0, s0 := settle t.ps.s0, s1 := settle t.ps.s1 } })
  let s := spillForks (freeIssue s th) th
  match t.pl.kind with
  | .strand =>
    if c.handler = 0 then escalate s 0 th r 0
    else s.modCore t.pl.core (fun x => { x with pending := x.pending ++ [th] })
  | .handler => escalate s 2 th r 0
  | .queue => queueState (s.modQueue (queueOf th) (fun q => { q with frec := some { r with mask := 1, source := 0 } })) (queueOf th) 3

/-- Stops the issuing thread at its instruction (R137): class, lanes named, address and detail. -/
def faultAt (s : State) (th k : Nat) (cls : FClass) (mask : Word) (addr detail : Nat) : State :=
  stopThread s th { pc := curPc (s.th th) k, addr := addr, mask := mask, cls := cls, detail := detail }

/-- Stops the issuing thread with ILLEGAL at its instruction, naming lanes. -/
def illegalAt (s : State) (th k : Nat) (mask : Word) : State := faultAt s th k .illegal mask 0 0

/-- An asynchronous fault of a thread, from its access thread or a suspended splice unit (R171, R250): the thread stops before
its next clause pick, or keeps the record as pending while it is stopped (R339). -/
def asyncFault (s : State) (th : Nat) (r : FaultRec) : State :=
  s.modTh th (fun t => { t with ct :=
    if t.ct.pending.isSome then { t.ct with later := t.ct.later ++ [r] }
    else { t.ct with pending := some r,
                     fault := if t.ct.stopped then t.ct.fault.map (fun f => { f with pending := true }) else t.ct.fault } })

/-- Stops a thread that is between clauses with its first asynchronous fault, naming its live lanes (R171, R250, R339). -/
def deliverAsync (s : State) (th : Nat) : State :=
  let t := s.th th
  match t.ct.pending with
  | none => s
  | some r =>
    if t.ct.stopped || t.ps.issuing.isSome then s
    else stopThread (s.modTh th (fun t => { t with ct := { t.ct with pending := t.ct.later.head?, later := t.ct.later.drop 1 } })) th
      { r with mask := t.live }

/-! ### Feed queues -/

/-- The feed rows that a splice operation pops in all (R242, R248, R249). -/
def Splice.rowsInAll (x : Splice) : Nat := (x.n + 1) / 2 * (if x.minor = 4 then x.sizes.length else 1)

/-- Whether a splice operation of a thread numbered below a bound has still to pop rows of a feed queue (R242). -/
def splicePops (s : State) (th q bound : Nat) : Bool :=
  s.fl.any (fun f => f.th == th && f.id < bound && !f.done &&
    (match f.work with | .splice x => x.fq == some q && x.popped < x.rowsInAll | _ => false))

/-! ### Interrupts and events of queues -/

/-- Whether a vector of a function is enabled (R389). -/
def vectorOn (s : State) (fn v : Nat) : Bool := v < (kgetD s.io.funcs fn {}).vectors

/-- Raises an interrupt vector; one that its function has not enabled is dropped and counted (R389). -/
def raiseVector (s : State) (fn v : Nat) : State :=
  if vectorOn s fn v then { s with io := { s.io with irqs := s.io.irqs ++ [(fn, v)] } }
  else countersChange { s with io := { s.io with irqDropped := s.io.irqDropped + 1 } } 1

/-- Sets event bits of every queue of a context (R383). -/
def contextEvents (s : State) (ctx bits : Nat) : State :=
  { s with queues := s.queues.map (fun e => if e.2.ctx = some ctx then (e.1, { e.2 with events := e.2.events ||| bits }) else e) }

/-- The event bit FAULT (Table 20-5). -/
def evFault : Nat := 2 ^ 19

/-- Whether a value meets a watch condition against v, in n bits (R381). -/
def watchCond (cond n x v : Nat) : Bool :=
  match cond with
  | 0 => x == v
  | 1 => x != v
  | 2 => v ≤ x
  | 3 => x < v
  | 4 => sextN v n ≤ sextN x n
  | _ => sextN x n < sextN v n

/-- Tests the value that a watched word holds at its home; the first one that meets the condition is kept (R381). -/
def watchGroup (m : List Host.Cell) (g : Group) : Group :=
  match g.hold with
  | .word a v cond z false leaf none =>
    if g.st == .waiting && watchCond cond (8 * z) (memNat m a z) v then { g with hold := .word a v cond z false leaf (some (memNat m a z)) }
    else g
  | _ => g

/-- The homes of the device's own memory test every value that a watched word takes (R381). -/
def watchTest (s : State) : State :=
  { s with ths := s.ths.map (fun e => if e.2.pl.kind == .queue then
      (e.1, { e.2 with ps := { e.2.ps with s0 := { e.2.ps.s0 with grp := e.2.ps.s0.grp.map (watchGroup s.mem) } } }) else e) }

/-! ### Waits -/

/-- The flat addresses of the 16 bytes of an arrival barrier (R303, R257), where they lie in the extent. -/
def abFlats (g : Workgroup) (off : Nat) : Option (List Nat) := ((List.range 16).map (fun i => scratchAt g (off + i))).mapM id

/-- Whether a target generation has been reached (R304). -/
def abReached (s : State) (wg off target : Nat) : Bool :=
  match abFlats (s.wg wg) off with
  | none => false
  | some as =>
    let gen := bitsOf (leNat (memGets s.mem as)) 96 31
    (gen + 2 ^ 31 - target % 2 ^ 31) % 2 ^ 31 < 2 ^ 30

/-- The arrival bits of a barrier as a lane mask (R85). -/
def Strand.arrOf (t : Strand) (id : Nat) : Word := t.ln.arr.getD id 0

/-- Whether the hold of a group has ended. -/
def holdDone (s : State) (th : Nat) (g : Group) : Bool :=
  let t := s.th th
  match g.hold with
  | .free => true
  | .path p n => counter s th p ≤ n
  | .barrier id => (t.arrOf id &&& g.mask) == 0 &&
      !((s.ctx t.pl.ctx).strengthen && stillOut s (kgetD s.ord.bar (barKey t.pl.wg id + 8) []) != [])
  | .phase id rest _ => match lanesOf rest with
    | [] => true
    | l :: _ => !(t.arrOf id).getLsbD l
  | .arrival off target => abReached s t.pl.wg off target
  | .reel => t.rg.need.isEmpty
  | .feed q => !splicePops s th q s.run.nextId &&
      (t.access.isNone || (t.access.elim false (·.ended)) || (t.fqs.getD q []) != [])
  | .flight f => (s.flight? f).elim true (·.done)
  | .drained b sc => !relWaits s th b g.mask sc
  | .word .. => false
  | .events m _ => (s.queue (queueOf th)).events &&& m != 0
  | .table tb => !s.fl.any (fun f => f.th == th && !f.done && (match f.work with
      | .splice x => x.table == tb | .seed _ x _ _ _ => x == tb | .drain _ x _ _ => x == tb
      | .tabop _ x _ _ _ => x == tb | _ => false))
  | .handle slot => !((kgetD (s.ctx t.pl.ctx).handles slot {}).rewriting)

/-- A waiting group whose hold has ended becomes runnable: with W set it continues after its instruction, otherwise the
instruction is issued again (R81, Table 7-1). -/
def settleGroup (s : State) (th : Nat) (inClause : Bool) (g : Group) : Group :=
  if g.st == .waiting && holdDone s th g then
    let h := match g.hold with | .phase id r b => Hold.phase id r b | _ => .free
    if g.w then
      if inClause then { g with st := .runnable, hold := .free } else { g with st := .runnable, w := false, pc := g.next, hold := .free }
    else { g with st := .runnable, hold := h }
  else g

/-- The scope at which the end of a wait acquires, 0 for none (R325): fetch and splice paths, barriers and `abwait` at core
scope (R90, R332); the copy path and a fence's wait at a scope that drops L1 copies, which a core may always do. -/
def holdScope (h : Hold) : Nat :=
  match h with
  | .path p _ => if p = 4 then 3 else if p = 3 ∨ p = 5 then 2 else 0
  | .barrier _ => 2
  | .arrival _ _ => 2
  | .drained _ _ => 3
  | _ => 0

/-- What the end of a group's wait synchronises with (R90, R305, R326): the barrier phases that have been released, or the arrivals at an arrival
barrier. -/
def hbHold (s : State) (th : Nat) (g : Group) : State :=
  match g.hold with
  | .barrier id => hbAcquire s th g.mask (kgetD s.ord.bar (barKey (s.th th).pl.wg id + 8) [])
  | .arrival off _ => hbAcquire s th g.mask (kgetD s.ord.rel ((scratchAt (s.wg (s.th th).pl.wg) off).getD 0) [])
  | _ => s

/-- Settles a slot. A wait inside a clause that has ended moves the clause to its next instruction. -/
def settleSlot (s : State) (th : Nat) (p : PcSlot) : PcSlot :=
  match p.grp with
  | none => p
  | some g =>
    match p.clause with
    | none => { p with grp := some (settleGroup s th false g) }
    | some c =>
      let g' := settleGroup s th true g
      if g'.w && g'.st == .runnable then
        { p with grp := some { g' with w := false, pc := g'.next }, clause := some { c with pos := g'.next - (c.hdr + 2) } }
      else { p with grp := some g' }

/-- Whether an instruction of a size at a clause's place is its last apart from padding (R21, R128). -/
def lastAt (c : Clause) (size : Nat) : Bool :=
  c.body.length ≤ c.pos + size || (c.pos + size + 1 == c.body.length && c.body.getD (c.pos + size) 0 == 0x40)

/-- Whether a group is running in the sense of R131. -/
def runningGrp (g : Group) : Bool :=
  match g.st with
  | .runnable => true
  | .parked => false
  | .waiting => match g.hold with | .barrier _ | .phase _ _ true => false | _ => true

/-- The greatest depth of a group's lanes (R131). -/
def grpDepth (t : Strand) (g : Group) : Nat := ((lanesOf g.mask).map (fun l => (t.frame l).depth)).foldl Nat.max 0

/-- Whether parked group x is released ahead of y: deeper, then lower PC, then lower lane (R131). -/
def releasedBefore (t : Strand) (x y : Group) : Bool :=
  let dx := grpDepth t x
  let dy := grpDepth t y
  dy < dx || (dx == dy && (x.pc < y.pc || (x.pc == y.pc && (lanesOf x.mask).headD 32 < (lanesOf y.mask).headD 32)))

/-- The parcels of the instruction that a clause is at, where it takes no parameters: three of an X form (R32). -/
def sizeAt (c : Clause) : Nat := if (c.body.getD c.pos 0).toNat % 4 = 2 then 3 else 2

/-- Whether a slot's group waits at a `bar` that is the last instruction of its clause and has not arrived at the phase (R87, R128). -/
def barHeld (p : PcSlot) : Bool :=
  match p.grp, p.clause with
  | some g, some c => g.st == .waiting && lastAt c (sizeAt c) && (match g.hold with | .phase _ _ b => b | _ => false)
  | _, _ => false

/-- A group takes a slot, and the one that the slot held goes on top of the fork stack with its state (R128, R131); one that waits to
arrive at a `bar` keeps its clause with it. -/
def enterSlot (t : Strand) (k : Nat) (g : Group) : Strand :=
  let old := t.slot k
  let fork := match old.grp with | some o => { o with clause := old.clause } :: t.ps.fork | none => t.ps.fork
  ({ t with ps := { t.ps with fork := fork } }).setSlot k { grp := some { g with clause := none }, clause := g.clause }

/-- The release rule of knots (R131). A knot clause's body is two parcels (R130). -/
def releaseKnots (t : Strand) : Strand :=
  let gs := t.ps.s0.grp.toList ++ t.ps.s1.grp.toList ++ t.ps.fork
  if gs.any runningGrp then t
  else
    match gs.filter (·.st == .parked) with
    | [] => t
    | p :: ps =>
      let x := ps.foldl (fun b y => if releasedBefore t y b then y else b) p
      let up (g : Group) : Group := if g = x then { g with st := .runnable, pc := g.pc + 4 } else g
      if t.ps.s0.grp = some x then t.setGrp 0 (some (up x))
      else if t.ps.s1.grp = some x then t.setGrp 1 (some (up x))
      else
        let k := if t.ps.s0.grp.elim false (·.st == .parked) then 0 else 1
        let old := t.slot k
        if old.clause.isSome && !barHeld old then { t with ps := { t.ps with fork := t.ps.fork.map up } }
        else enterSlot { t with ps := { t.ps with fork := t.ps.fork.filter (· ≠ x) } } k (up x)

/-- The topmost runnable entry of a fork stack, with the rest (R128). -/
def topRunnable : List Group → Option (Group × List Group)
  | [] => none
  | g :: gs => if g.st == .runnable then some (g, gs) else (topRunnable gs).map (fun r => (r.1, g :: r.2))

/-- Whether a slot takes the topmost runnable entry (R128): it is empty, or its group is parked, or waits at the last
instruction of its clause. -/
def slotTakes (p : PcSlot) : Bool :=
  barHeld p ||
  (match p.grp with
  | none => true
  | some g => p.clause.isNone && (g.st == .parked ||
      (g.st == .waiting && (match g.hold with | .path _ _ | .barrier _ | .arrival _ _ => true | _ => false))))

/-- Lets a slot take the topmost runnable fork-stack entry, if it may (R128). A slot whose group waits already takes an entry that has
become runnable since, as a parked group's slot does (DEDUCED, log 9). -/
def fillSlot (t : Strand) (k : Nat) : Strand :=
  if slotTakes (t.slot k) then
    match topRunnable t.ps.fork with
    | none => t
    | some (g, rest) => enterSlot { t with ps := { t.ps with fork := rest } } k g
  else t

/-- What groups whose waits end acquire: L1 copies that a wait of a wide scope drops (R325), and what they synchronise with (R326). -/
def endWaits (s : State) (th : Nat) (gs : List Group) : State :=
  gs.foldl (fun s g => hbHold s th g) (acquireAt s th ((gs.map (fun g => holdScope g.hold)).foldl Nat.max 0))

/-- Settles a thread's waits, runs the knot release, fills its slots, slot 0 first (R128, R131), and stops it with an asynchronous
fault that is due. A strand that is stopped or halted holds every group as it stands (R137, R127). -/
def refresh (s : State) (th : Nat) : State :=
  if (s.th th).ct.stopped || (s.th th).ps.halted then s else
  let t := s.th th
  let gs := (t.ps.s0.grp.toList ++ t.ps.s1.grp.toList ++ t.ps.fork).filter (fun g => g.st == .waiting && holdDone s th g)
  let s' := endWaits s th gs
  let t := { t with ps := { t.ps with s0 := settleSlot s th t.ps.s0, s1 := settleSlot s th t.ps.s1,
                                      fork := t.ps.fork.map (settleGroup s th false) } }
  deliverAsync (s'.modTh th (fun _ => fillSlot (fillSlot (releaseKnots t) 0) 1)) th

/-! ### The end of an instruction -/

/-- Ends the clause of a slot (R81, R39): results have landed, the issue slot is free, the count toward rotation grows. -/
def endClause (s : State) (th k : Nat) (yld : Bool) : State :=
  let t := s.th th
  let y := yld || (match (t.slot k).clause with | some c => bitOf c.word.toNat 28 | none => false)
  let s := s.modTh th (fun t =>
    let t := { t with rg := { t.rg with pend := [] }, ps := { t.ps with issuing := none, clk := 0 } }
    t.setSlot k { t.slot k with clause := none, byp := [], issued := (t.slot k).issued + 1 })
  let s := if y then { s with quads := s.quads.map (fun e =>
      if e.2.holder = some th then (e.1, { e.2 with yielded := some th }) else e) } else s
  refresh (freeIssue s th) th

/-- Whether a slot's instruction of a size is the last of its clause apart from padding (R21, R128). -/
def isLast (t : Strand) (k size : Nat) : Bool :=
  (t.slot k).clause.elim true (fun c => lastAt c size)

/-- Moves the issuing group past an instruction: its size in parcels and stall count (R38). -/
def finishInstr (s : State) (th k size st : Nat) : State :=
  let t := s.th th
  let pc := curPc t k + size
  match (t.slot k).clause with
  | none => s.modTh th (fun t => t.setGrp k (some { t.grp k with pc := pc, st := .runnable, w := false, hold := .free }))
  | some c =>
    let t := t.setSlot k { t.slot k with grp := some { t.grp k with pc := pc, st := .runnable, w := false, hold := .free },
                                         clause := some { c with pos := c.pos + size } }
    let s := s.modTh th (fun _ => { t with ps := { t.ps with clk := t.ps.clk + 1 + st } })
    if c.body.length ≤ c.pos + size then endClause s th k false else s

/-- Makes the issuing group wait (R81, R128). With w the instruction has done all but its wait; a wait at the last
instruction of a clause ends the clause; any other wait that frees the issue slot keeps the clause and its bypass. At the last instruction
a wait of a `grow` or for a feed row keeps the issue slot. A hold that keeps it takes cycles in which earlier results land (R38): those of the
instruction where it has been issued, and as many as the hold lasts, a free value (DESIGN CHOICE, log 6). -/
def holdGroup (s : State) (th k : Nat) (h : Hold) (w frees : Bool) (size : Nat) (st : Nat := 0) : State :=
  let t := s.th th
  let last := isLast t k size
  let pc := curPc t k
  let nx := if last then nextClause t k else pc + size
  let g := { t.grp k with st := .waiting, w := w, hold := h, next := nx, pc := pc }
  let s := s.modTh th (fun t => t.setGrp k (some g))
  if !frees || (last && (match h with | .reel | .feed _ => true | _ => false)) then
    let (n, s) := s.freeNat
    s.modTh th (fun t => { t with ps := { t.ps with clk := t.ps.clk + (if w then 1 + st else 0) + n } })
  else if last && w then endClause s th k false
  else
    let settle (p : PcSlot) : PcSlot := { p with byp := p.byp.map (fun b => { b with ready := 0 }) }
    let s := s.modTh th (fun t => { t with rg := { t.rg with pend := [] }, ps := { t.ps with
      issuing := none, clk := 0, s0 := settle t.ps.s0, s1 := settle t.ps.s1 } })
    refresh (freeIssue s th) th

/-- Makes the issuing group wait for a condition, or passes at once where it holds already (R269, R304, R328); a fence's wait keeps the
issue slot (R81). -/
def waitFor (s : State) (th k : Nat) (h : Hold) (size st : Nat) : State :=
  let g := { (s.th th).grp k with hold := h }
  if holdDone s th g then finishInstr (hbHold (acquireAt s th (holdScope h)) th g) th k size st
  else holdGroup s th k h true (match h with | .drained _ _ => false | _ => true) size st

/-- Holds the issuing group, keeping the issue slot, until an operation has finished (R38, R342). -/
def holdFlight (s : State) (i : Iss) (f cost : Nat) : State := holdGroup s i.th i.k (.flight f) true false i.size (i.st + cost)

/-- The issue of an instruction that raises paths: it waits while one of their counters stands at 255 (R267). -/
def withPaths (s : State) (th k : Nat) (ps : List Nat) (size : Nat) (f : State → State) : State :=
  match fullPath s th ps with
  | some p => holdGroup s th k (.path p (pathRoom s th ps p)) false false size
  | none => f s

/-! ### Dividing -/

/-- Gathers lanes by destination, in order of each destination's lowest lane (R126). -/
def gather (ds : List (Nat × Nat)) : List (Nat × Word) :=
  ds.foldl (fun acc d =>
    if acc.any (·.1 == d.2) then acc.map (fun e => if e.1 = d.2 then (e.1, e.2 ||| (1#32 <<< d.1)) else e)
    else acc ++ [(d.2, 1#32 <<< d.1)]) []

/-- Divides the group of a slot by destination (R126); none where the fork stack would overflow (R127). With no part the
group ends. -/
def divide (t : Strand) (limit k : Nat) (parts : List (Nat × Word)) : Option Strand :=
  let new (p : Nat × Word) : Group := { pc := p.1, mask := p.2 }
  match parts with
  | [] => some (t.setSlot k {})
  | p :: rest =>
    let t := t.setGrp k (some (new p))
    match rest with
    | [] => some t
    | q :: more =>
      let (t, more) := if (t.slot (1 - k)).grp.isNone then (t.setSlot (1 - k) { grp := some (new q) }, more) else (t, q :: more)
      if limit < t.ps.fork.length + more.length then none
      else some { t with ps := { t.ps with fork := more.map new ++ t.ps.fork } }

/-- Carries out a control transfer: the destination of each lane of the group; FRAME naming the acting lanes where the fork
stack overflows (R126, R127). The clause ends (R21). -/
def transfer (s : State) (th k : Nat) (act : Word) (ds : List (Nat × Nat)) : State :=
  match divide (s.th th) (s.transTh (s.th th)).forks k (gather ds) with
  | none => faultAt s th k .frame act 0 0
  | some t => endClause (s.modTh th (fun _ => t)) th k false

/-! ### Barriers -/

/-- Whether every live lane of a strand has arrived at a barrier (R87). -/
def arrivedAll (t : Strand) (id : Nat) : Bool := t.live != 0 && (t.live &&& ~~~(t.arrOf id)) == 0

/-- The threads of a workgroup that still belong to it, in strand order. -/
def wgThreads (s : State) (w : Nat) : List Nat :=
  (s.wg w).threads.filter (fun n => match kget? s.ths n with | some t => t.pl.kind == .strand && t.pl.wg == w | none => false)

/-- Commits the closed quanta that one strand of a workgroup has at a barrier, by its index: a strand's own, or those it left at its
retirement (R87, R100). -/
def commitClosed (s : State) (w id idx : Nat) : State :=
  let g := s.wg w
  let es := sortBy (fun e : BufEntry => e.lane) ((g.closed.filter (fun e => e.1 == idx && e.2.1 == id)).map (·.2.2))
  let s := match sectorsOf (lockPlaceOf s g.ctx w) es with
    | [] => s
    | secs =>
      let (n, s) := (setDirty s (secs.flatMap (·.leaf))).newId
      { s with fl := s.fl ++ [{ id := n, th := 2 ^ 20, core := g.core, ctx := g.ctx, launch := g.launch, paths := [], dests := [],
                                work := .commit secs 0, till := n }] }
  match (wgThreads s w).find? (fun n => (s.th n).pl.idx == idx) with
  | none => s
  | some n =>
    let t := s.th n
    let es := sortBy (fun e : BufEntry => e.lane) ((t.qn.closed.filter (·.1 == id)).map (·.2))
    let s := s.modTh n (fun t => { t with
      qn := { t.qn with closed := t.qn.closed.filter (·.1 != id) },
      ln := { t.ln with arr := t.ln.arr.set id 0 },
      ps := { t.ps with progress := 0 } })
    commitEntries (logEmptied s n) n es 0

/-- Releases a barrier phase (R87): the closed quanta of the phase commit, strands and lanes ascending, arrival bits clear,
the phase flips and the progress counters restart. -/
def barRelease (s : State) (w id : Nat) : State :=
  let first := s.run.nextId
  let s := (List.range 32).foldl (fun s idx => commitClosed s w id idx) s
  let key := barKey w id
  let s := hbArrive s (key + 8) (kgetD s.ord.bar key [] ++ rangeFrom first s.run.nextId)
  let s := { s with ord := { s.ord with bar := kdel s.ord.bar key } }
  s.modWg w (fun g => { g with
    bars := g.bars.set id (if bitOf (g.bars.getD id 0) 15 then 0 else 2 ^ 15),
    counted := g.counted.filter (·.1 != id),
    closed := g.closed.filter (·.2.1 != id) })

/-- Counts a workgroup's arrivals at a barrier and releases it when enough have come (R87). -/
def barEval (s : State) (w id : Nat) : State :=
  let g := s.wg w
  let ns := wgThreads s w
  let new := ns.filter (fun n => !g.counted.contains (id, n) && arrivedAll (s.th n) id)
  let word := g.bars.getD id 0
  let arrived := word % 64 + new.length
  let all := bitOf word 14
  let expected := bitsOf word 8 6
  let need := if all then (ns.filter (fun n => (s.th n).live != 0)).length else expected
  let s := s.modWg w (fun g => { g with bars := g.bars.set id (setBits word 0 6 arrived),
                                        counted := g.counted ++ new.map (fun n => (id, n)) })
  if need ≤ arrived then
    ns.foldl refresh (barRelease s w id)
  else s

/-- Evaluates every barrier of a workgroup (R87). -/
def barEvalAll (s : State) (w : Nat) : State := (List.range 8).foldl (fun s id => barEval s w id) s

/-! ### Lanes leaving their groups -/

/-- Removes lanes from every group of a strand; an empty group ends (R92, R98). -/
def dropLanes (t : Strand) (lanes : Word) : Strand :=
  let cut (g : Group) : Option Group := let m := g.mask &&& ~~~lanes; if m = 0 then none else some { g with mask := m }
  let slot (p : PcSlot) : PcSlot := match p.grp with
    | none => p
    | some g => if g.mask &&& lanes = 0 then p else match cut g with | some g' => { p with grp := some g' } | none => {}
  let fork := t.ps.fork.flatMap (fun g => if g.mask &&& lanes = 0 then [g] else (cut g).toList)
  { t with ps := { t.ps with s0 := slot t.ps.s0, s1 := slot t.ps.s1, fork := fork } }

/-- Sends the rest of the issuing group on to the next clause after some of its lanes have left it (R92, R98). The lanes of one
instruction leave together, and the barriers are evaluated once for them; where no lane has left, nothing is (R87; DEDUCED, log 9). -/
def leaveGroup (s : State) (th k : Nat) (lanes : Word) : State :=
  let t := s.th th
  let nx := nextClause t k
  let rest := (t.grp k).mask &&& ~~~lanes
  let t := if rest = 0 then t.setSlot k {} else t.setGrp k (some { t.grp k with mask := rest, pc := nx, st := .runnable })
  let s := s.modTh th (fun _ => t)
  let s := endClause s th k false
  if t.pl.kind == .strand && lanes != 0 then refresh (barEvalAll s t.pl.wg) th else s

/-! ### Code -/

/-- The virtual address of a parcel offset in a code object's window (R62). -/
def codeVa (s : State) (code off : Nat) : Nat := (kgetD s.codes code {}).base + 4 * off

/-- Reads a parcel of a code window, to be fetched (X) or read (R) (R22, R62, R264). -/
def codeRead (s : State) (ctx code off : Nat) (fetch : Bool) : Except FClass Word × State :=
  let va := codeVa s code off
  if 2 ^ 48 ≤ va then (.error .prot, s)
  else match translate s ctx va with
    | (none, s) => (.error .page, s)
    | (some l, s) =>
      if (if fetch then l.x else l.r) && populated s (l.pa va) then (.ok (BitVec.ofNat 32 (memNat s.mem (l.pa va) 4)), s)
      else (.error .prot, s)

/-- Checks that a parcel offset holds a clause header (R22): TARGET, PAGE or PROT where it does not. -/
def checkTarget (s : State) (th off : Nat) : Option FClass × State :=
  let t := s.th th
  if 2 ^ 24 ≤ off then (some .target, s)
  else match codeRead s t.pl.ctx t.pl.code off true with
    | (.ok w, s) => (if w.toNat % 4 = 3 then none else some .target, s)
    | (.error e, s) => (some e, s)

/-! ### Plies -/

/-- The plies of a quadrant that a context may use: all of them, or those of its half (Table 19-2). -/
def plyRange (s : State) (ctx half : Nat) : Nat × Nat :=
  if (s.ctx ctx).mode = 0 then (0, 512) else (256 * half, 256 * half + 256)

/-- The free plies of a quadrant for a context, ascending (R77, R118). -/
def freePlies (s : State) (ctx core quad half : Nat) : List Nat :=
  let used := s.ths.flatMap (fun e => if e.2.pl.kind == .strand && e.2.pl.core == core && e.2.pl.quad == quad then e.2.rg.plymap else [])
  let r := plyRange s ctx half
  (rangeFrom r.1 r.2).filter (fun p => !used.contains p)

/-! ### A fresh thread -/

/-- The number-format registers at placement (R180). -/
def nfReset : List Word := [0x40070342, 0x800F0252, 0x00010321, 0x00010120]

/-- A thread as it is placed (R79, R85, R139, R162, R180), before its preloaded registers and its first group. -/
def freshStrand (pl : Place) (q : Nat) : Strand :=
  { pl := pl, rg := { q := q, frames := List.replicate 32 {} },
    ln := { items := List.replicate 32 0xFFFFFFFF, arr := List.replicate 8 0 },
    ct := { nf := nfReset }, fqs := List.replicate 8 [] }

/-! ### Reading the next instruction -/

/-- The kind of code a thread runs (Table 3-4). -/
def Strand.codeKind (t : Strand) : CodeKind :=
  match t.pl.kind with | .strand => .exec | .handler => .handler | .queue => .queue

/-- The instruction that a slot's clause is at, decoded from the clause as it was fetched (R23, R56). -/
def nextInstr (t : Strand) (k : Nat) : Option Instr :=
  match (t.slot k).clause with
  | none => none
  | some c => (decode t.codeKind (c.body.drop c.pos)).map (·.1)

/-- The instruction that an access thread's clause is at; none where it has ended, stands at a fault, or has stopped at an
instruction boundary with its strand (R168, R171, R172). -/
def nextAccess (t : Strand) : Option Instr :=
  match t.access with
  | none => none
  | some a => match a.clause with
    | none => none
    | some c => if a.ended || a.faulted || t.ps.halted then none else (decode .access (c.body.drop c.pos)).map (·.1)

/-- Whether a slot's clause has no instruction left: its last one was held until an operation had finished (R38). -/
def clauseOver (t : Strand) (k : Nat) : Bool :=
  match (t.slot k).clause with
  | none => false
  | some c => c.body.length ≤ c.pos

/-- Stops a thread at its clause's header for a parcel that does not decode (R23, R56). -/
def stopClause (s : State) (th k pos : Nat) : State :=
  let t := s.th th
  match (t.slot k).clause with
  | none => s
  | some c => stopThread s th { pc := c.hdr, pos := pos, mask := (t.grp k).mask, cls := .illegal }

end Sys2Proof.Machine
end

