-- ==== Sys2Proof/Machine/Operands.lean ====
section
/-!
DEFINITION. Operands: register cells (R102 to R105, R156), constants (Table 2-9), the order of checks at issue (R338, R41,
R103, R159, R170), reading sources (R153 to R155), and writing results with their latencies (R29 to R31, R38 to R40, R160).
Corners that these rules leave to be inferred are read as log 9 says (DEDUCED).
-/

namespace Sys2Proof.Machine

/-- The type that a source is read with: it decides what a constant or the literal supplies (Table 2-9, R32). -/
inductive OTy where
  | w32 | f32 | f16 | bf16 | s64 | b64
  deriving DecidableEq, Repr

/-- A source operand: specifier, type, and the number of registers it takes from the named one on. A specifier of 512 + n is
the k register n (R215). `only` names the lanes in which its frame is checked, where these are not the active ones (R149). -/
structure Opnd where
  spec : Nat
  ty : OTy := .w32
  regs : Nat := 1
  only : Option (List Nat) := none
  deriving DecidableEq, Repr

/-- The issue of an L or X form (R26, R32). -/
def issL (x : LForm) (th k : Nat) : Iss :=
  { th := th, k := k, size := if x.lit.isSome then 3 else 2, st := x.st.toNat, gk := x.gk.toNat, gneg := x.gneg,
    lit := x.lit.getD 0 }

/-- The issue of a form with parameters (R33). -/
def issP (x : PForm) (th k : Nat) : Iss := { issL x.l th k with size := 6 }

/-! ### Cells -/

/-- The cell that fK names in a lane, or none where the lane is out of frame (R103). -/
def fCell (t : Strand) (n l : Nat) : Option Nat :=
  let f := t.frame l
  if 8 * f.size ≤ n then none else some (vrCell t.rg (8 * f.base + n) l)

/-- The cell that an f, g or s specifier names in a lane (R103). -/
def regCell (t : Strand) (spec l : Nat) : Option Nat :=
  if isF spec then fCell t spec l
  else if isG spec then some (gCell (spec - 320) l)
  else if isS spec then some (sCell (spec - 384))
  else none

/-- Where an operation in flight writes one of its destinations now: a cell, none where its lane-ply no longer lies in the lane's
window (R123). -/
def homeCell (t : Strand) (f : Flight) (c : Nat) : Option Nat :=
  match f.vregs.find? (·.1 == c) with
  | none => some c
  | some (_, vr) =>
    let l := cellLane c
    if (t.frame l).lo ≤ vr / 8 && vr / 8 < (t.frame l).lo + t.rg.qf then some (vrCell t.rg vr l) else none

/-- The cells that an operation in flight still writes. -/
def destsNow (t : Strand) (f : Flight) : List Nat := f.dests.filterMap (homeCell t f)

/-- What a cell finally holds. -/
def Regs.final (r : Regs) (c : Nat) : Word := kgetD r.cells c 0

/-- What a cell reads as at a cycle, from its final value and the results that have not landed, newest first (R38 to R41). -/
def landed : List Pend → Nat → Nat → Word → Word
  | [], _, _, v => v
  | e :: es, clk, c, v => if e.cell = c then (if e.ready ≤ clk then v else landed es clk c e.old) else landed es clk c v

/-- What a cell reads as at a cycle. -/
def Regs.read (r : Regs) (clk c : Nat) : Word := landed r.pend clk c (r.final c)

/-- Whether the newest result of a cell has not landed (R41). -/
def Regs.early (r : Regs) (clk c : Nat) : Bool :=
  match r.pend.find? (·.cell == c) with
  | some e => clk < e.ready
  | none => false

/-- Writes results that land at a cycle (R38, R40); the file holds each cell's final value. -/
def Regs.put (r : Regs) (ready : Nat) (ws : List (Nat × Word)) : Regs :=
  ws.foldl (fun r w => { r with pend := { cell := w.1, old := r.final w.1, ready := ready } :: r.pend,
                                cells := kset r.cells w.1 w.2 }) r

/-- Writes cells at once: a result that the path counters track, or a write of the hardware's own. -/
def Regs.poke (r : Regs) (ws : List (Nat × Word)) : Regs :=
  { r with cells := ws.foldl (fun m w => kset m w.1 w.2) r.cells }

/-- The cells that a test picks hold what they finally hold from now on: no result has still to land in them. -/
def Regs.settle (r : Regs) (p : Nat → Bool) : Regs := { r with pend := r.pend.filter (fun e => !p e.cell) }

/-- A write to a lane-ply clears its clean mark (R106). -/
def unclean (t : Strand) (spec : Nat) (lanes : List Nat) : Strand :=
  if isF spec && t.rg.clean != [] then
    { t with rg := { t.rg with clean := t.rg.clean.filter (fun e => !(lanes.contains e.2 && e.1 == (t.frame e.2).base + spec / 8)) } }
  else t

/-! ### Constants -/

/-- The exponent of a small integer's leading bit. -/
def lead (n : Nat) : Nat := if n < 2 then 0 else if n < 4 then 1 else if n < 8 then 2 else 3

/-- A small integer as a floating-point code with a bias and mantissa bits (Table 2-9). -/
def smallF (bias m n : Nat) : Nat := if n = 0 then 0 else (bias + lead n) * 2 ^ m + (n - 2 ^ lead n) * 2 ^ (m - lead n)

/-- The FP32 pattern of an FP32 constant specifier (Table 2-8). -/
def f32Const (s : Nat) : Nat :=
  [0x3F000000, 0x3F800000, 0x40000000, 0x40800000, 0xBF800000, 0xBF000000, 0x7F800000, 0x00200000].getD (s - 496) 0

/-- The FP16 pattern of an FP32 constant specifier; 2 to the −128 has none. -/
def f16Const (s : Nat) : Nat := [0x3800, 0x3C00, 0x4000, 0x4400, 0xBC00, 0xB800, 0x7C00, 0].getD (s - 496) 0

/-- Both 16-bit halves alike. -/
def both (h : Nat) : Nat := h + h * 2 ^ 16

/-- The value of a constant specifier for a type (Table 2-9). -/
def constVal (ty : OTy) (s : Nat) : Nat :=
  if s < 496 then
    match ty with
    | .f32 => smallF 127 23 (s - 480)
    | .f16 => both (smallF 15 10 (s - 480))
    | .bf16 => both (smallF 127 7 (s - 480))
    | _ => s - 480
  else
    match ty with
    | .f16 => both (f16Const s)
    | .bf16 => both (f32Const s / 2 ^ 16)
    | _ => f32Const s

/-- What the literal supplies for a type (R32). -/
def litVal (ty : OTy) (v : Word) : Nat := match ty with | .s64 => (v.signExtend 64).toNat | _ => v.toNat

/-! ### Checks at issue -/

/-- The lanes of a group at which the guard holds, at a cycle (R29). -/
def guardMask (t : Strand) (i : Iss) (clk : Nat) : Word :=
  let m := (t.grp i.k).mask
  if i.gk = 0 then m
  else maskOf ((lanesOf m).filter (fun l => (t.rg.read clk (kCell i.gk l) != 0) != i.gneg))

/-- The rows that a source reads from the banks (R153): a bank and a name for the row. -/
def bankRows (t : Strand) (o : Opnd) : List (Nat × Nat) :=
  if isFG o.spec then (List.range o.regs).map (fun j => ((Nat.xor (if isF o.spec then o.spec + j else o.spec + j - 320) t.pl.slot) % 4, o.spec + j))
  else if isLq o.spec then [((Nat.xor ((kgetD t.rg.lqs (o.spec - 448) { depth := 1 }).head) t.pl.slot) % 4, o.spec)]
  else []

/-- The further issue cycles of bank conflicts (R105, R153). -/
def bankCost (t : Strand) (srcs : List Opnd) : Nat :=
  let rows := (srcs.flatMap (bankRows t)).eraseDups
  ((List.range 4).map (fun b => (rows.filter (·.1 == b)).length)).foldl Nat.max 1 - 1

/-- The cells that a source reads in some lanes. -/
def srcCells (t : Strand) (lanes : List Nat) (o : Opnd) : List Nat :=
  if isS o.spec then (List.range o.regs).map (fun j => sCell (o.spec - 384 + j))
  else if isFGS o.spec then lanes.flatMap (fun l => (List.range o.regs).flatMap (fun j => (regCell t (o.spec + j) l).toList))
  else if isLq o.spec then
    let q := kgetD t.rg.lqs (o.spec - 448) { depth := 1 }
    lanes.map (fun l => lqCell (o.spec - 448) q.head l)
  else if 512 < o.spec then lanes.map (fun l => kCell (o.spec - 512) l)
  else []

/-- Whether reading a source in some lanes is too early (R41): a result that has not landed, or a register that an operation
in flight still writes. -/
def earlySrc (s : State) (t : Strand) (i : Iss) (clk : Nat) (lanes : List Nat) (o : Opnd) : Bool :=
  (srcCells t lanes o).any (fun c => t.rg.early clk c || s.fl.any (fun f => f.th == i.th && f.paths != [] && (destsNow t f).contains c)) ||
  (isByp o.spec && (match (t.slot i.k).byp[o.spec - 472]? with | some b => clk < b.ready | none => false))

/-- Whether the guard is read too early in some lane of the group (R41). -/
def earlyGuard (s : State) (t : Strand) (i : Iss) (clk : Nat) : Bool :=
  i.gk != 0 && earlySrc s t i clk (lanesOf (t.grp i.k).mask) { spec := 512 + i.gk }

/-- The cycle at which an instruction reads (R154). A control core interlocks every register read, so that a queue thread's
results have always landed (R377). -/
def issueClk (t : Strand) (srcs : List Opnd) : Nat :=
  match t.pl.kind with
  | .queue => t.ps.clk + 64
  | _ => t.ps.clk + bankCost t srcs

/-- The operation in flight that a queue thread's instruction waits for, because it reads a register that the operation still
writes (R377). -/
def interlock (s : State) (t : Strand) (i : Iss) (srcs : List Opnd) : Option Nat :=
  if t.pl.kind != .queue then none
  else
    let cells := srcs.flatMap (srcCells t [0]) ++ (if i.gk = 0 then [] else [kCell i.gk 0])
    (s.fl.find? (fun f => f.th == i.th && !f.done && (destsNow t f).any cells.contains)).map (·.id)

/-- The lanes of some in which a source or destination is out of frame (R103). -/
def outOfFrame (t : Strand) (lanes : List Nat) (specs : List Nat) : Word :=
  maskOf (lanes.filter (fun l => specs.any (fun p => isF p && (fCell t p l).isNone)))

/-- Whether a loop queue that an instruction names cannot serve it (R159). -/
def lqBad (t : Strand) (srcs : List Nat) (dst : Nat) (n : Nat) : Bool :=
  let pops := if srcs.contains (448 + n) then 1 else 0
  let pushes := if dst = 448 + n then 1 else 0
  match kget? t.rg.lqs n with
  | none => true
  | some q => q.occ < pops || q.depth < q.occ - pops + pushes

/-- Whether a feed queue's pop can never be served (R170): it is empty and no access thread is live that could fill it. -/
def fqDead (s : State) (t : Strand) (i : Iss) (n : Nat) : Bool :=
  (t.fqs.getD n []) == [] && t.access.elim true (·.ended) &&
  !s.fl.any (fun f => f.th == i.th && !f.done && (match f.work with | .feed q _ _ _ _ => q == n | _ => false))

/-- The registers that an operand names one by one. -/
def Opnd.specs (o : Opnd) : List Nat := (List.range o.regs).map (· + o.spec)

/-- What the checks at issue answer, in the order of R338 and R41, R103, R159, R170: the state where the instruction stops
or waits, or none where its operands can be read. `rd` names the lanes that are read; the frame is checked in every active lane (R103). A guard that is read early selects the active
lanes that CHECK names by what it reads as (DEDUCED, log 9). -/
def operandStop (s : State) (i : Iss) (srcs : List Opnd) (dsts : List Nat) (rd : Word → List Nat) : Option State :=
  let t := s.th i.th
  let clk := issueClk t srcs
  let grp := (t.grp i.k).mask
  let act := guardMask t i clk
  let lanes := rd act
  let names := srcs.map (·.spec)
  let lqs := (List.range 16).filter (fun n => names.contains (448 + n) || dsts.contains (448 + n))
  let fqs := (List.range 8).filter (fun n => names.contains (464 + n))
  let checked (o : Opnd) : List Nat := o.only.getD ((List.range 32).filter (fun l => act.getLsbD l || lanes.contains l))
  let oofS := srcs.foldl (fun m o => m ||| outOfFrame t (checked o) o.specs) 0
  let oofD := outOfFrame t (lanesOf act) dsts
  if (interlock s t i srcs).isSome then
    some (holdGroup s i.th i.k (.flight ((interlock s t i srcs).getD 0)) false true i.size)
  else if t.ct.chk && (earlyGuard s t i clk || srcs.any (earlySrc s t i clk lanes)) then some (faultAt s i.th i.k .check act 0 0)
  else if oofS ||| oofD != 0 then some (faultAt s i.th i.k .frame (oofS ||| oofD) 0 0)
  else if lqs.any (lqBad t names (dsts.headD 0)) then some (faultAt s i.th i.k .queue grp 0 0)
  else if fqs.any (fun n => splicePops s i.th n s.run.nextId) then
    some (holdGroup s i.th i.k (.feed ((fqs.find? (fun n => splicePops s i.th n s.run.nextId)).getD 0)) false true i.size)
  else if fqs.any (fqDead s t i) then some (faultAt s i.th i.k .queue grp 0 0)
  else match fqs.find? (fun n => (t.fqs.getD n []) == []) with
    | some n => some (holdGroup s i.th i.k (.feed n) false true i.size)
    | none => none

/-! ### Reading -/

/-- One 32-bit source in a lane, at a cycle (Table 2-8). -/
def srcWord (t : Strand) (k clk : Nat) (lit : Word) (ty : OTy) (spec l : Nat) : Nat :=
  if isFGS spec then match regCell t spec l with | some c => (t.rg.read clk c).toNat | none => 0
  else if isLq spec then
    let q := kgetD t.rg.lqs (spec - 448) { depth := 1 }
    (t.rg.read clk (lqCell (spec - 448) q.head l)).toNat
  else if isFq spec then (match (t.fqs.getD (spec - 464) []) with | r :: _ => (r.words.getD l 0).toNat | [] => 0)
  else if isByp spec then
    (match (t.slot k).byp[spec - 472]? with | some b => if b.ready ≤ clk then (b.vals.getD l 0).toNat else 0 | none => 0)
  else if spec = 475 then l
  else if spec = 476 then t.pl.idx % 2 ^ 32
  else if spec = 477 then (t.frame l).depth % 2 ^ 32
  else if spec = 478 then (t.ln.items.getD l 0xFFFFFFFF#32).toNat
  else if spec = 479 then 0
  else if spec < 504 then constVal ty spec
  else if 512 ≤ spec then (if spec = 512 then 1 else (t.rg.read clk (kCell (spec - 512) l)).toNat)
  else litVal ty lit

/-- The value of a source in a lane: its registers with the lowest first. -/
def srcVal (t : Strand) (k clk : Nat) (lit : Word) (o : Opnd) (l : Nat) : Nat :=
  if isFGS o.spec then
    ((List.range o.regs).map (fun j => srcWord t k clk lit o.ty (o.spec + j) l * 2 ^ (32 * j))).foldl (· + ·) 0
  else srcWord t k clk lit o.ty o.spec l

/-- The pops of an instruction: each loop queue and feed queue named as a source gives up its head once (R154, R159). -/
def popQueues (t : Strand) (names : List Nat) : Strand :=
  let lqs := t.rg.lqs.map (fun e => if names.contains (448 + e.1) then
    (e.1, { e.2 with head := (e.2.head + 1) % e.2.depth, occ := e.2.occ - 1 }) else e)
  let fqs := ((List.range t.fqs.length).zip t.fqs).map (fun e => if names.contains (464 + e.1) then e.2.drop 1 else e.2)
  { t with rg := { t.rg with lqs := lqs }, fqs := fqs }

/-- The lanes that a source is read in: the active ones. -/
def readActive (act : Word) : List Nat := lanesOf act

/-- What a body is given: the active lanes, the issue cycles of bank conflicts, and the value of each source in a lane. -/
structure Given where
  act : Word
  cost : Nat
  v : Nat → Nat → Nat

/-- What an instruction reads at its issue (R154, R170). -/
def given (s : State) (i : Iss) (srcs : List Opnd) : Given :=
  let t := s.th i.th
  let cost := bankCost t srcs
  let clk := issueClk t srcs
  { act := guardMask t i clk, cost := cost,
    v := fun n l => match srcs[n]? with | some o => srcVal t i.k clk i.lit o l | none => 0 }

/-- Reads an instruction's operands at issue and runs its body, or stops or waits as the checks say (R338, R154). -/
def operate (s : State) (i : Iss) (srcs : List Opnd) (dsts : List Nat) (rd : Word → List Nat)
    (body : State → Given → State) : State :=
  match operandStop s i srcs dsts rd with
  | some s' => s'
  | none => body (s.modTh i.th (fun t => popQueues t (srcs.map (·.spec)))) (given s i srcs)

/-! ### Writing -/

/-- Ends an instruction: its issue cycle, stall count and bank conflicts (R38, R153). -/
def finish (s : State) (i : Iss) (cost : Nat) : State := finishInstr s i.th i.k i.size (i.st + cost)

/-- The bypass entries with a new one in front (R31). -/
def pushByp (p : PcSlot) (vals : List Word) (ready : Nat) : PcSlot := { p with byp := ({ vals := vals, ready := ready } :: p.byp).take 3 }

/-- What a lane that is not active shows in a bypass entry: its value of the destination (R30); an f register out of the lane's
frame has none there, and shows a free value (DESIGN CHOICE, log 6). It is no operand that CHECK guards, and shows the value from before
a producer whose result has not landed (DEDUCED, log 9). -/
def oldDst (t : Strand) (clk fresh spec l : Nat) : Word :=
  if spec = 479 then 0
  else match regCell t spec l with
    | some c => t.rg.read clk c
    | none => BitVec.ofNat 32 (Config.freeNat (fresh + l))

/-- Writes a vector result of 32 bits with its latency (R29 to R31, R38, R160); `tr` keeps the register (R30). `act` holds the lanes that the
instruction writes: in a loop queue's new row any other lane keeps the bits of the row before it (R160), an active one too that `compress`,
`expand` or `scan` leaves unwritten (DEDUCED, log 9). -/
def putVec (s : State) (i : Iss) (d : Nat) (tr : Bool) (act : Word) (lat cost : Nat) (f : Nat → Nat) : State :=
  let t := s.th i.th
  let clk := t.ps.clk + cost
  let ready := clk + lat
  let w (l : Nat) : Word := BitVec.ofNat 32 (f l)
  if isLq d then
    let n := d - 448
    let q := kgetD t.rg.lqs n { depth := 1 }
    let row := (q.head + q.occ) % q.depth
    let last := (q.head + q.occ + q.depth - 1) % q.depth
    let ws := (List.range 32).map (fun l => (lqCell n row l, if act.getLsbD l then w l else t.rg.final (lqCell n last l)))
    s.setTh i.th { t with rg := { t.rg.put ready ws with lqs := kset t.rg.lqs n { q with occ := q.occ + 1 } } }
  else
    let vals := (List.range 32).map (fun l => if act.getLsbD l then w l else oldDst t clk s.run.fresh d l)
    let s := if isF d && (List.range 32).any (fun l => !act.getLsbD l && (fCell t d l).isNone)
      then { s with run := { s.run with fresh := s.run.fresh + 32 } } else s
    let ws := if tr || d = 479 then [] else (lanesOf act).flatMap (fun l => (regCell t d l).toList.map (fun c => (c, w l)))
    let t := unclean { t with rg := t.rg.put ready ws } d (if tr then [] else lanesOf act)
    s.setTh i.th (t.setSlot i.k (pushByp (t.slot i.k) vals ready))

/-- Writes a register with a latency for a major whose results do not enter the bypass (R31). -/
def putQuiet (s : State) (i : Iss) (d : Nat) (act : Word) (lat cost : Nat) (f : Nat → Nat) : State :=
  let t := s.th i.th
  if isS d then s.setTh i.th { t with rg := t.rg.put (t.ps.clk + cost + lat) [(sCell (d - 384), BitVec.ofNat 32 (f 0))] }
  else
    let ws := (lanesOf act).flatMap (fun l => (regCell t d l).toList.map (fun c => (c, BitVec.ofNat 32 (f l))))
    s.setTh i.th (unclean { t with rg := t.rg.put (t.ps.clk + cost + lat) ws } d (lanesOf act))

/-- Writes the second register of a 64-bit vector result (R199); the bypass holds the even register's bits (DEDUCED, log 9). -/
def putHigh (s : State) (i : Iss) (d : Nat) (act : Word) (lat cost : Nat) (f : Nat → Nat) : State :=
  let t := s.th i.th
  let ws := (lanesOf act).flatMap (fun l => (regCell t (d + 1) l).toList.map (fun c => (c, BitVec.ofNat 32 (f l))))
  s.setTh i.th (unclean { t with rg := t.rg.put (t.ps.clk + cost + lat) ws } (d + 1) (lanesOf act))

/-- Writes a scalar register with a latency (R37, R38). -/
def putScalar (s : State) (i : Iss) (d lat cost v : Nat) : State :=
  let t := s.th i.th
  s.setTh i.th { t with rg := t.rg.put (t.ps.clk + cost + lat) [(sCell (d - 384), BitVec.ofNat 32 v)] }

/-- Writes a 32-bit result to its destination: a scalar register, a vector register, a loop queue, or nowhere. -/
def putDst (s : State) (i : Iss) (d : Nat) (tr : Bool) (act : Word) (lat cost : Nat) (f : Nat → Nat) : State :=
  if isS d then putScalar s i d lat cost (f 0) else putVec s i d tr act lat cost f

/-- Writes a 64-bit result to a pair (R199). -/
def putPair (s : State) (i : Iss) (d : Nat) (act : Word) (lat cost : Nat) (f : Nat → Nat) : State :=
  if isS d then putScalar (putScalar s i d lat cost (f 0)) i (d + 1) lat cost (f 0 / 2 ^ 32)
  else putHigh (putVec s i d false act lat cost f) i d act lat cost (fun l => f l / 2 ^ 32)

/-- Writes the active lanes' bits of a k register (R217). -/
def putK (s : State) (i : Iss) (kq : Nat) (act : Word) (lat cost : Nat) (f : Nat → Bool) : State :=
  let t := s.th i.th
  let ws := (lanesOf act).map (fun l => (kCell kq l, if f l then 1#32 else 0#32))
  s.setTh i.th { t with rg := t.rg.put (t.ps.clk + cost + lat) ws }

/-- Raises FP status flags (R203). -/
def raiseFp (s : State) (th fl : Nat) : State :=
  if fl = 0 then s else s.modTh th (fun t => { t with ct := { t.ct with fp := t.ct.fp ||| fl % 32 } })

/-- The flags that active lanes raise: those of the lanes that are no helpers, or those of a scalar instruction (R203). -/
def laneFlags (t : Strand) (d : Nat) (act : Word) (f : Nat → Nat) : Nat :=
  if isS d then f 0 else (lanesOf (act &&& ~~~t.ln.helper)).foldl (fun a l => a ||| f l) 0

/-- The lane that acts for an operation of the scalar unit: the lowest active lane that is no helper (R37; log 9). -/
def scalarLane (t : Strand) (act : Word) : Word :=
  match lanesOf (act &&& ~~~t.ln.helper) with
  | [] => 0
  | l :: _ => 1#32 <<< l

end Sys2Proof.Machine
end

