-- ==== Sys2Proof/Machine/Access.lean ====
section
/-!
DEFINITION. Accesses of threads: range locks (R299 to R302), the checks of an access and of an element (R272, R188 to R190),
what a core reads (R261, R318, R323), delivering loads (R273, R191), buffering stores (R315, R319, R320) and encoding elements
(R192).
The instants at which these effects happen are those of log 11 (DEDUCED).
-/

namespace Sys2Proof.Machine

/-! ### Range locks -/

/-- Whether an access of a thread meets a lock of its context on its die (Table 16-8). -/
def lockHit (s : State) (th a n : Nat) (writes : Bool) : Bool :=
  let t := s.th th
  let p := lockPlace s th a
  s.lk.entries.any (fun e => !e.quiet && e.ctx == t.pl.ctx && dieOfCore e.core == dieOfCore t.pl.core &&
    e.ranges.any (fun r => (writes || r.write) && r.space == p.1 && overlap p.2 n r.lo r.len))

/-- Whether a byte of a sector lies in a range that an operation issued before a commit has registered (R274, R300, R321). -/
def sectorLocked (s : State) (f : Flight) (x : SectorW) : Bool :=
  s.lk.entries.any (fun e => e.flight < f.id && e.ctx == f.ctx && dieOfCore e.core == dieOfCore f.core &&
    x.places.any (fun p => e.ranges.any (fun r => r.space == p.1 && overlap p.2 1 r.lo r.len)))

/-! ### What a core reads -/

/-- The L1 copy of the line of a flat address (R261); one is dropped at most 4,096 cycles after its fill (R323). -/
def l1Copy (s : State) (core pa : Nat) : Option L1Line :=
  s.ch.l1.find? (fun x => x.core == core && x.line == pa / 128 && s.now ≤ x.at_ + 8192)

/-- A byte over which the commit of a flight lies. -/
def underCommit (f : Flight) (pa v : Nat) : Nat :=
  match f.work with
  | .commit secs _ => secs.foldl (fun v x =>
      if !x.applied && x.pa == pa / 32 * 32 then
        let m := bitsOf x.mask (8 * (pa % 32)) 8
        (v &&& (255 ^^^ m)) ||| (bitsOf x.data (8 * (pa % 32)) 8 &&& m)
      else v) v
  | _ => v

/-- Whether a commit has still to write a byte. -/
def overByte (f : Flight) (pa : Nat) : Bool :=
  match f.work with
  | .commit secs _ => secs.any (fun x => !x.applied && x.pa == pa / 32 * 32 && bitsOf x.mask (8 * (pa % 32)) 8 != 0)
  | _ => false

/-- Whether a read of a thread sees a commit of its core that is not applied yet (R318, R324): of its own those before the read, of others
those before a bound. -/
def seesCommit (s : State) (core th id till : Nat) (g : Flight) : Bool :=
  g.core == core && (if g.th = th then g.id < id else g.id < till && !unreleased s g)

/-- The byte that a thread of a core reads at a flat address (R261, R318, R323): the core's commits that it sees and that are not yet
applied, over its L1 copy where one may serve, over the home. -/
def coreByte (s : State) (core th id till : Nat) (cached : Bool) (pa : Nat) : Nat :=
  let home := match (if cached then l1Copy s core pa else none) with
    | some x => (x.data.getD (pa % 128) 0).toNat
    | none => (memGet s.mem pa).toNat
  s.fl.foldl (fun v g => if seesCommit s core th id till g then underCommit g pa v else v) home

/-- The byte that an operation reads under its lock (R332): with its core's commits that were there before it or happen before it; later
ones wait (R274). -/
def engByte (s : State) (f : Flight) (pa : Nat) : Nat := coreByte s f.core f.th f.id f.till false pa

/-- The little-endian value of bytes that an operation reads under its lock. -/
def engNat (s : State) (f : Flight) (pas : List Nat) : Nat := (pas.map (engByte s f)).foldr (fun b acc => b + 256 * acc) 0

/-- The little-endian value of the bytes that a thread of a core reads. -/
def coreNat (s : State) (core th id till : Nat) (cached : Bool) (pas : List Nat) : Nat :=
  (pas.map (coreByte s core th id till cached)).foldr (fun b acc => b + 256 * acc) 0

/-- The bytes that an operation in flight reads plainly. -/
def flightNat (s : State) (f : Flight) (cached : Bool) (pas : List Nat) : Nat := coreNat s f.core f.th f.id f.till cached pas

/-- Bytes as the thread reads them plainly at issue. -/
def threadNat (s : State) (th : Nat) (pas : List Nat) : Nat :=
  coreNat s (s.th th).pl.core th s.run.nextId s.run.nextId false pas

/-- An acquire of a thread ends (R325): L1 copies are dropped where its scope asks for it, and its lanes' reads that come after it see
every commit of the core up to now. A commit to bytes that a later engine operation has locked waits for that operation, which does not see
it (R274, R311). -/
def acquired (s : State) (f : Flight) (scope : Nat) : State :=
  let s := acquireAt s f.th scope
  let later (g : Flight) : Bool :=
    g.th == f.th && f.id < g.id && g.lanes &&& f.lanes != 0 && !s.lk.entries.any (·.flight == g.id)
  { s with fl := s.fl.map (fun g => if later g then { g with till := s.run.nextId } else g) }

/-- The writes in flight that releases came after whose value a read of some bytes takes (R326, R330): of release stores of its core that
it sees and that are not applied yet, or of the release sequences that stand in memory. -/
def readSync (s : State) (f : Flight) (pas : List Nat) : List Nat :=
  pas.flatMap (fun pa =>
    match (s.fl.filter (fun g => seesCommit s f.core f.th f.id f.till g && overByte g pa)).getLast? with
    | some g => (match g.work with
      | .commit _ rel => if 2 ≤ rel then g.id :: (priorWrites s g.th g.id g.lanes g.hb).map (·.id) else []
      | _ => [])
    | none => (s.fl.filter (fun g => g.core == f.core && (kgetD s.ord.rel pa []).contains g.id)).map (·.id))

/-- Fills an L1 copy of a line for a context, if the core holds none (R261, R352). -/
def fillL1 (s : State) (core ctx pa : Nat) : State :=
  if 256 ≤ core || (l1Copy s core pa).isSome then s
  else
    let x : L1Line := { core := core, line := pa / 128, at_ := s.now, ctx := ctx,
                        data := (List.range 128).map (fun i => memGet s.mem (pa / 128 * 128 + i)) }
    { s with ch := { s.ch with l1 := x :: s.ch.l1 } }

/-- Drops a core's L1 copies of the lines of some flat addresses. -/
def dropLines (s : State) (core : Nat) (pas : List Nat) : State :=
  { s with ch := { s.ch with l1 := s.ch.l1.filter (fun x => !(x.core == core && pas.any (fun pa => pa / 128 == x.line))) } }

/-- The bits that a lane's own quanta hold of some bytes: a mask and the bits. Quanta closed at a barrier come before the open
one, and stay readable by their lane (R90, R318). -/
def ownBits (t : Strand) (l : Nat) (pas : List Nat) : Nat × Nat :=
  let es := (t.qn.closed.map (·.2)).filter (·.lane == l) ++ t.qn.buf.filter (·.lane == l) ++ t.qn.log.filter (·.lane == l)
  let one (pa : Nat) : Nat × Nat := es.foldl (fun acc e =>
    let o := if e.half0 = pa / 8 * 8 then some (8 * (pa % 8)) else if e.half1 = pa / 8 * 8 then some (64 + 8 * (pa % 8)) else none
    match o with
    | none => acc
    | some o =>
      let m := bitsOf e.mask o 8
      (acc.1 ||| m, (acc.2 &&& (255 ^^^ m)) ||| (bitsOf e.data o 8 &&& m))) (0, 0)
  (pas.map one).foldr (fun b acc => (b.1 + 256 * acc.1, b.2 + 256 * acc.2)) (0, 0)

/-- Puts the bits of a mask over a value. -/
def overBits (v : Nat) (m : Nat × Nat) (n : Nat) : Nat := (v &&& ((2 ^ n - 1) ^^^ m.1)) ||| (m.2 &&& m.1)

/-! ### The checks of an access -/

/-- Where a lane's access leads: flat address of each byte, path code, space, leaf of a translated address; for an element the
generic address of the first byte, first bit and width, format code, flat address of its scale byte, and codebook slot. -/
structure Reach where
  pas : List Nat
  path : Nat
  space : Nat
  leaf : Option Leaf
  exact : Bool := false
  start : Nat := 0
  shift : Nat := 0
  width : Nat := 0
  fmt : Nat := 0
  scale : Option Nat := none
  slot : Nat := 0
  deriving DecidableEq, Repr

/-- The cache policy of a reach lets an L1 copy serve it (R261). -/
def Reach.cached (r : Reach) : Bool := match r.leaf with | some l => l.policy == 0 | none => false

/-- The leaf entries whose D bit a write sets (R265). -/
def Reach.dirty (r : Reach) : List Nat := r.leaf.toList.map (·.at_)

/-- An access of z bytes at a generic address under the checks of R272; an exact common cell takes loads only (R284). -/
def accessAt (s : State) (th a z : Nat) (acc : Acc) : Except FClass Reach × State :=
  if a % z ≠ 0 then (.error .align, s)
  else match resolve s th a acc with
    | (.error e, s) => (.error e, s)
    | (.ok l, s) =>
      if l.exact && acc != .read then (.error .prot, s)
      else if lockHit s th a z (acc != .read) then (.error .locked, s)
      else
        let (hi, s) := if z = 16 then resolve s th (a + 8) acc else (.ok { l with pa := l.pa + 8 }, s)
        match hi with
        | .error e => (.error e, s)
        | .ok h => (.ok { pas := (List.range z).map (fun j => if j < 8 then l.pa + j else h.pa + (j - 8)),
                          path := l.path, space := l.space, leaf := l.leaf, exact := l.exact, start := a, width := 8 * z }, s)

/-- The bytes of an element of a common-memory range operation: of its y range, or of its x range (R288, R289). -/
def cmSize (minor ty : Nat) (y : Bool) : Nat :=
  if y then (if ty = 3 ∨ (ty = 4 ∧ minor ≠ 5) then 32 else 4) else (if ty = 3 ∨ ty = 4 then 32 else 4)

/-- The block size of a page geometry (Table 10-7): 0 for none. -/
def blockOf (geo : Nat) : Nat := [0, 16, 32, 64, 128].getD geo 0

/-- Whether a page's format code and geometry may be used by an element (R188). -/
def fmtBad (l : Leaf) : Bool :=
  (fmtOf l.fmt).isNone || 4 < l.geo || (l.geo != 0 && 1 ≤ l.fmt && l.fmt ≤ 3)

/-- The place of element k of a page: the offsets of its bytes in the page, and its first bit (R189). -/
def elemBytes (w k : Nat) : List Nat := rangeFrom (w * k / 8) ((w * (k + 1) + 7) / 8)

/-- The scale byte's value as the thread reads it at issue, with its own stores. -/
def scaleAt (s : State) (th lane pa : Nat) : Int := sextN (overBits (threadNat s th [pa]) (ownBits (s.th th) lane [pa]) 8) 8

/-- Where an element access at X with an index and an offset leads, under the checks of R272 and R188 up to that of its scale; `store` for
`ste`. -/
def elemAt (s : State) (th x : Nat) (idx : Nat) (off : Int) (store : Bool) : Except FClass Reach × State :=
  match resolve s th x (if store then .write else .read) with
  | (.error e, s) => (.error e, s)
  | (.ok l, s) =>
    match l.leaf with
    | none => (.error (if l.exact then .prot else .format), s)
    | some lf =>
      match fmtOf lf.fmt with
      | none => (.error .format, s)
      | some f =>
        let o := l.pa - lf.pa lf.va
        let k : Int := (o * 8 / f.w : Nat) + idx + off
        let n := 8 * lf.size / f.w
        if fmtBad lf then (.error .format, s)
        else if o * 8 % f.w ≠ 0 ∨ k < 0 ∨ (n : Int) ≤ k then (.error .align, s)
        else if (elemBytes f.w k.toNat).any (fun b => barred s (s.th th).pl.ctx (x - o + b)) then (.error .prot, s)
        else
          let k := k.toNat
          let bytes := elemBytes f.w k
          let sc := if lf.geo = 0 then none else some (lf.sidecar + k / blockOf lf.geo)
          (.ok { pas := bytes.map (lf.pa lf.va + ·), path := l.path, space := l.space, leaf := some lf,
                      start := x - o + bytes.headD 0, shift := f.w * k % 8, width := f.w, fmt := lf.fmt, scale := sc, slot := lf.slot }, s)

/-- The last checks of an element access (R272): the scale of its block and its codebook slot (R188, R190), then the range locks. -/
def elemOk (s : State) (th lane : Nat) (store : Bool) (r : Reach) : Except FClass Reach :=
  let v := match r.scale with | some pa => scaleAt s th lane pa | none => 0
  if v < -64 ∨ 63 < v ∨ (r.slot ≠ 0 ∧ r.fmt ≠ 11) ∨ (store ∧ r.fmt = 11) then .error .format
  else if lockHit s th r.start r.pas.length store then .error .locked
  else .ok r

/-- The generic address that a lane's element access would reach (R272), for the fault record: that of element k where
the page of X has one, else X (DEDUCED, log 11). -/
def elemAddr (s : State) (th : Nat) (x idx : Nat → Nat) (off : Int) (l : Nat) : Nat :=
  match (resolve s th (x l) .read).1 with
  | .ok { leaf := some lf, pa := pa, .. } =>
    match fmtOf lf.fmt with
    | some f =>
      let o := pa - lf.pa lf.va
      let k : Int := (o * 8 / f.w : Nat) + idx l + off
      if o * 8 % f.w ≠ 0 ∨ k < 0 ∨ ((8 * lf.size / f.w : Nat) : Int) ≤ k then x l else wrapN ((x l : Int) - o + k * f.w / 8) 64
    | none => x l
  | _ => x l

/-- The flat addresses that a load, an atomic, a common-memory range operation or a seed in flight has still to read. -/
def readsOf (f : Flight) : List Nat :=
  match f.work with
  | .load ls _ _ => ls.flatMap (·.pas)
  | .atom _ z _ _ ls => ls.flatMap (fun l => (List.range z).map (l.pa + ·))
  | .cmRange minor ty _ ys xs _ =>
    (ys.flatMap (fun a => (List.range (cmSize minor ty true)).map (a + ·))) ++ xs.flatMap (fun a => (List.range (cmSize minor ty false)).map (a + ·))
  | .seed _ _ pas _ n => pas.drop (16 * n)
  | _ => []

/-- The first operation in flight of a thread that a read at issue of some bytes comes after: an acquire, or a read of one of them
(R323, R325). -/
def readWaits (s : State) (th : Nat) (pas : List Nat) : Option Nat :=
  (s.fl.find? (fun g => g.th == th && !g.done && !pas.isEmpty &&
    (acquires g && g.lanes &&& issuingLanes (s.th th) != 0 || (readsOf g).any pas.contains))).map (·.id)

/-- Runs a check for each lane of a list, ascending. -/
def checkLanes (f : State → Nat → Except FClass Reach × State) :
    State → List Nat → List (Nat × Except FClass Reach) × State
  | s, [] => ([], s)
  | s, l :: ls =>
    match f s l with
    | (r, s) => match checkLanes f s ls with
      | (rs, s) => ((l, r) :: rs, s)

/-- The lanes that passed, with where they lead. -/
def passed (rs : List (Nat × Except FClass Reach)) : List (Nat × Reach) :=
  rs.filterMap (fun e => match e.2 with | .ok r => some (e.1, r) | .error _ => none)

/-- The class of the lowest failing lane that is no helper, and the lanes that fail with it (R272). -/
def lanesFault (helper : Word) (rs : List (Nat × Except FClass Reach)) : Option (FClass × Word) :=
  let bad := rs.filterMap (fun e => match e.2 with
    | .ok _ => none
    | .error c => if helper.getLsbD e.1 then none else some (e.1, c))
  match bad with
  | [] => none
  | b :: _ => some (b.2, maskOf ((bad.filter (·.2 == b.2)).map (·.1)))

/-- The state before an instruction with what its walks changed: accessed bits and held translations. -/
def keepWalk (s s' : State) : State := { s with mem := s'.mem, ch := s'.ch, run := s'.run }

/-- The outcome of the checks of each lane's access, all or nothing (R272): the instruction stops with the class of the lowest failing lane,
or its body runs with the lanes that passed. -/
def reached (s0 s : State) (i : Iss) (addr : Nat → Nat) (rs : List (Nat × Except FClass Reach))
    (body : State → List (Nat × Reach) → State) : State :=
  match lanesFault (s.th i.th).ln.helper rs with
  | some (c, m) => faultAt (keepWalk s0 s) i.th i.k c m (addr ((lanesOf m).headD 0)) 0
  | none => body s (passed rs)

/-- Checks each lane's access (R272). -/
def reachLanes (s0 s : State) (i : Iss) (lanes : List Nat) (addr : Nat → Nat)
    (f : State → Nat → Except FClass Reach × State) (body : State → List (Nat × Reach) → State) : State :=
  match checkLanes f s lanes with
  | (rs, s) => reached s0 s i addr rs body

/-! ### Delivering a load -/

/-- A value times a power of two. -/
def scaleFV (x : FV) (s : Int) : FV := match x with | .fin n m e => .fin n m (e + s) | v => v

/-- The value of an element code of a page format with its block's scale and codebook (R191, R184). -/
def elemFV (fmt code : Nat) (scale : Int) (cb : List Nat) : FV :=
  if fmt = 11 then scaleFV (decodeF bf16 (cb.getD (code % 16) 0)) scale
  else match fmtOf fmt with
    | some f => scaleFV (decodeF f code) scale
    | none => .nan

/-- An element as `lde` and `fget` deliver it (R191): FP32, or s32 for an integer format on a page with no blocks. -/
def elemWord (fmt code : Nat) (scale : Option Int) (cb : List Nat) : Nat :=
  if (fmt = 9 ∨ fmt = 10) ∧ scale.isNone then wrapN (sextN code (if fmt = 9 then 8 else 4)) 32
  else (roundTo fp32 0 0 (elemFV fmt code (scale.getD 0) cb)).1

/-- The words of a number, lowest first. -/
def splitWords (v n : Nat) : List Word := (List.range n).map (fun j => BitVec.ofNat 32 (v / 2 ^ (32 * j)))

/-- A write to cells of the ring clears the clean marks of the lane-plies they lie in (R106). -/
def uncleanCells (r : Regs) (cs : List Nat) : Regs :=
  if r.clean == [] then r
  else { r with clean := r.clean.filter (fun e => !cs.any (fun c => c < 0x20000 && c % 32 == e.2 && c / 256 == e.1 % r.qf)) }

/-- Writes one result of an operation where its destination stands (R123): in its cell, or in the memory copy of a lane-ply that has
been paid out since the issue. -/
def landOne (s : State) (f : Flight) (w : Nat × Word) : State :=
  let t := s.th f.th
  match homeCell t f w.1, f.vregs.find? (·.1 == w.1) with
  | some c, _ => s.modTh f.th (fun t => { t with rg := uncleanCells (t.rg.poke [(c, w.2)]) [c] })
  | none, some (_, vr) =>
    let l := cellLane w.1
    if (t.frame l).lo ≤ vr / 8 then s
    else
      let s := s.modTh f.th (fun t => { t with rg := { t.rg with
        got := t.rg.got.filter (fun g => g.1.link || g.1.idx != vr / 8 || g.1.lane != l) } })
      devWrite s t.pl.ctx ((s.ctx t.pl.ctx).poolBase + t.pl.region + (vr / 8 * 32 + l) * 32 + 4 * (vr % 8)) (leBytes 4 w.2.toNat)
  | none, none => s

/-- Writes the results of an operation that the path counters track. -/
def landCells (s : State) (f : Flight) (ws : List (Nat × Word)) : State := ws.foldl (fun s w => landOne s f w) s

/-- The value of an element or a word from its bits (R191, R273). -/
def convValue (b : Nat) (c : Conv) : Nat :=
  match c with
  | .zext => b
  | .sext n => wrapN (sextN b n) 32
  | .elem fmt scale cb => elemWord fmt b scale cb

/-- What a load reads at some flat addresses at its return (R273): an acquire of cluster scope or wider reads the home (R325). -/
def loadRead (s : State) (f : Flight) (acq : Nat) (x : LoadLane) (pas : List Nat) : Nat :=
  if 3 ≤ acq then leNat (memGets s.mem pas) else flightNat s f x.cached pas

/-- The value that a lane's load delivers, read at its return (R273). -/
def loadValue (s : State) (f : Flight) (acq : Nat) (x : LoadLane) : Nat :=
  let v := overBits (loadRead s f acq x x.pas) (x.fmask, x.fdata) (8 * x.pas.length)
  convValue (bitsOf v x.shift x.width) x.conv

/-- Captures codebook slots for an operation (R186). -/
def captureIn (s : State) (id : Nat) (slots : List Nat) : State := s.modFlight id (fun f => { f with caps := slots })

/-- The entries of a context's codebook slot (R184). -/
def codebook (s : State) (ctx slot : Nat) : List Nat := kgetD (s.ctx ctx).cb slot (List.replicate 16 0)

/-! ### Buffering stores -/

/-- The flat addresses of the two halves of the 16-byte chunk of a generic address that an access reaches. -/
def chunkHalves (s : State) (th a : Nat) (r : Reach) : Nat × Nat :=
  let pa := r.pas.headD 0
  let at_ (w off : Nat) : Nat := (scratchAt (s.wg w) off).getD 0
  let t := s.th th
  if r.space = 2 then
    let o := (a - spaceBase 2) / 16 * 16
    (at_ t.pl.wg o, at_ t.pl.wg (o + 8))
  else if r.space = 3 then
    let o := (a - spaceBase 3) / 16 * 16
    let w := (s.wg t.pl.wg).partner.getD 0
    (at_ w o, at_ w (o + 8))
  else (pa - a % 16, pa - a % 16 + 8)

/-- The buffered store of some bits of a lane: one entry, or two where an element spans two chunks (R315). -/
def storeEntries (s : State) (th l a : Nat) (r : Reach) (v : Nat) : List BufEntry :=
  let h := chunkHalves s th a r
  let lo := 8 * (a % 16) + r.shift
  let bits := v % 2 ^ r.width
  let e (chunk : Nat) (h : Nat × Nat) (lo w b : Nat) : BufEntry :=
    { lane := l, chunk := chunk, half0 := h.1, half1 := h.2, mask := (2 ^ w - 1) * 2 ^ lo, data := b % 2 ^ w * 2 ^ lo, leaf := r.dirty }
  if lo + r.width ≤ 128 then [e (a / 16 * 16) h lo r.width bits]
  else
    let w := 128 - lo
    [e (a / 16 * 16) h lo w bits, e (a / 16 * 16 + 16) (h.1 + 16, h.2 + 16) 0 (r.width - w) (bits / 2 ^ w)]

/-- Puts one store into a quantum (R315): it merges into the lane's entry for its chunk, takes a new entry, or goes to the log
once the lane has no free entry. Answers whether it went to the log. -/
def bufPut (q : Quanta) (e : BufEntry) : Quanta × Bool :=
  let same (x : BufEntry) : Bool := x.lane == e.lane && x.half0 == e.half0 && x.half1 == e.half1
  if 16 ≤ (q.buf.filter (·.lane == e.lane)).length then
    ({ q with log := q.log ++ [{ e with logged := true }], used := q.used + 1 }, true)
  else if q.buf.any same then
    ({ q with buf := q.buf.map (fun x => if same x then
        { x with mask := x.mask ||| e.mask, data := (x.data &&& ((2 ^ 128 - 1) ^^^ e.mask)) ||| e.data } else x) }, false)
  else ({ q with buf := q.buf ++ [e] }, false)

/-- Puts stores into a quantum in order; answers the lanes that needed a log record. -/
def bufPutAll : Quanta → List BufEntry → Quanta × Word
  | q, [] => (q, 0)
  | q, e :: es =>
    match bufPut q e with
    | (q, b) => match bufPutAll q es with
      | (q, m) => (q, if b then m ||| (1#32 <<< e.lane) else m)

/-- The capacity of a thread's quantum log (R319): none for a handler or queue thread (R344, R376). -/
def logCap (s : State) (t : Strand) : Nat := match t.pl.kind with | .strand => ((s.transTh t).qlog - 64) / 48 | _ => 0

/-- A log record's bytes (Table 17-3). -/
def logRecord (e : BufEntry) : List Byte :=
  leBytes 8 e.chunk ++ leBytes 1 e.lane ++ List.replicate 7 0 ++ leBytes 16 e.mask ++ leBytes 16 e.data

/-- Writes the last n log records to the strand's log area, behind those written before (R319), under a range lock (R299). -/
def writeLog (s : State) (th n : Nat) : State :=
  let t := s.th th
  let va := (s.ctx t.pl.ctx).poolBase + t.pl.region + qlogArea (s.transTh t) + 64 + 48 * (t.qn.used - n)
  let s := (lockPass s t.pl.core t.pl.ctx [{ space := 0, lo := va, len := 48 * n, write := true }]).getD s
  logHeader (devWrite s t.pl.ctx va ((t.qn.log.drop (t.qn.log.length - n)).flatMap logRecord)) th

/-- What buffering stores answers: the state after it, the lanes for which the log lacks room (R320), or a wait for an entry of the
range-lock tables (R299). -/
inductive Buffered where
  | done (s : State)
  | full (m : Word)
  | wait
  deriving DecidableEq, Repr

/-- Buffers stores at issue (R315, R319, R320). -/
def bufferStores (s : State) (th : Nat) (es : List BufEntry) : Buffered :=
  let t := s.th th
  match bufPutAll t.qn es with
  | (q, m) =>
    if m = 0 then .done (s.modTh th (fun t => { t with qn := q }))
    else if logCap s t < q.used then .full m
    else if !lockRoom s t.pl.core then .wait
    else .done (writeLog (s.modTh th (fun t => { t with qn := q })) th (q.used - t.qn.used))

/-! ### Encoding an element -/

/-- A value rounded to a page format as `ste` stores it (R192): FP32, or s32 for an integer format with no blocks. -/
def encodeElem (fmt : Nat) (scale : Option Int) (rm rnd v : Nat) : Nat :=
  match fmtOf fmt with
  | none => 0
  | some f =>
    if f.isInt && scale.isNone then (roundTo f rm rnd (.fin (sextN v 32 < 0) (sextN v 32).natAbs 0)).1
    else (roundTo f rm rnd (scaleFV (decodeF fp32 v) (-(scale.getD 0)))).1

/-- The bits that `ste` discards in a lane (R179). -/
def discardElem (fmt : Nat) (scale : Option Int) (v : Nat) : Nat :=
  match fmtOf fmt with
  | none => 0
  | some f => if f.isInt && scale.isNone then 0 else discard f (scaleFV (decodeF fp32 v) (-(scale.getD 0)))

end Sys2Proof.Machine
end

