-- ==== Sys2Proof/Machine/IntAlu.lean ====
section
/-!
DEFINITION. The short forms UN and LDI (R24, R25), the integer operations INT (R204, R205) and the 64-bit address operations
ADR (R206, R207, R259).
-/

namespace Sys2Proof.Machine

/-! ### Shapes of instructions with one result -/

/-- An instruction whose result is 32 bits in each active lane, or one scalar (R29, R37): latency, sources, result. -/
def aluL (s : State) (x : LForm) (lat : Nat) (srcs : List Opnd) (f : (Nat → Nat) → Nat) : Host.Outcome State Fault Refusal :=
  withIssuer s fun th k =>
    let i := issL x th k
    operate s i srcs [x.d.toNat] readActive fun s g =>
      finish (putDst s i x.d.toNat x.tr g.act lat g.cost (fun l => f (fun n => g.v n l))) i g.cost

/-- An instruction whose result is a pair of 64 bits (R199). -/
def aluPair (s : State) (x : LForm) (lat : Nat) (srcs : List Opnd) (f : (Nat → Nat) → Nat) : Host.Outcome State Fault Refusal :=
  withIssuer s fun th k =>
    let i := issL x th k
    operate s i srcs [x.d.toNat, x.d.toNat + 1] readActive fun s g =>
      finish (putPair s i x.d.toNat g.act lat g.cost (fun l => f (fun n => g.v n l))) i g.cost

/-- A short UN instruction (R24): every lane of the group is active. -/
def unOp (s : State) (x : SForm) (ty : OTy) (f : Nat → Nat) : Host.Outcome State Fault Refusal :=
  withIssuer s fun th k =>
    let i : Iss := { th := th, k := k, st := x.st.toNat }
    operate s i [{ spec := x.a.toNat, ty := ty }] [x.d.toNat] readActive fun s g =>
      finish (putDst s i x.d.toNat false g.act 4 g.cost (fun l => f (g.v 0 l))) i g.cost

/-- Source fields a, b and c of an L form as 32-bit operands. -/
def srcA (x : LForm) : Opnd := { spec := x.a.toNat }
/-- Field b as a 32-bit operand. -/
def srcB (x : LForm) : Opnd := { spec := x.b.toNat }
/-- Field c as a 32-bit operand. -/
def srcC (x : LForm) : Opnd := { spec := x.c.toNat }
/-- Field d read as the old destination (R199). -/
def srcD (x : LForm) : Opnd := { spec := x.d.toNat }
/-- A field as a 64-bit operand of a type. -/
def wide (spec : Spec) (ty : OTy) : Opnd := { spec := spec.toNat, ty := ty, regs := 2 }

/-- Whether an INT instruction has a 64-bit type (R28). -/
def is64 (x : LForm) : Bool := x.ty == 5 || x.ty == 6
/-- The width of an INT instruction (R204). -/
def intW (x : LForm) : Nat := if is64 x then 64 else 32
/-- The operand type of a 64-bit INT instruction. -/
def intTy (x : LForm) : OTy := if x.ty == 5 then .s64 else .b64

/-- An INT operation of one source. -/
def int1 (s : State) (x : LForm) (f : Nat → Nat → Nat) : Host.Outcome State Fault Refusal :=
  if is64 x then aluPair s x 4 [wide x.a (intTy x)] (fun v => f 64 (v 0))
  else aluL s x 4 [srcA x] (fun v => f 32 (v 0))

/-- An INT operation of two sources of its width. -/
def int2 (s : State) (x : LForm) (f : Nat → Nat → Nat → Nat) : Host.Outcome State Fault Refusal :=
  if is64 x then aluPair s x 4 [wide x.a (intTy x), wide x.b (intTy x)] (fun v => f 64 (v 0) (v 1))
  else aluL s x 4 [srcA x, srcB x] (fun v => f 32 (v 0) (v 1))

/-- An INT shift: the amount is a 32-bit operand (R199). -/
def intShift (s : State) (x : LForm) (f : Nat → Nat → Nat → Nat) : Host.Outcome State Fault Refusal :=
  if is64 x then aluPair s x 4 [wide x.a (intTy x), srcB x] (fun v => f 64 (v 0) (v 1))
  else aluL s x 4 [srcA x, srcB x] (fun v => f 32 (v 0) (v 1))

/-! ### Results -/

/-- Clamps an integer to the signed 32-bit range. -/
def clamp32 (v : Int) : Int := max (-(2 : Int) ^ 31) (min v (2 ^ 31 - 1))

/-- Sum of two words of n bits, wrapping, or clamped for `.sat` (R204). -/
def addV (n : Nat) (sat : Bool) (a b : Nat) : Nat :=
  if sat then wrapN (clamp32 (sextN a n + sextN b n)) n else (a + b) % 2 ^ n
/-- Difference, wrapping, or clamped for `.sat` (R204). -/
def subV (n : Nat) (sat : Bool) (a b : Nat) : Nat :=
  if sat then wrapN (clamp32 (sextN a n - sextN b n)) n else (a + 2 ^ n - b % 2 ^ n) % 2 ^ n
/-- Low half of a product (R204). -/
def mulV (n a b : Nat) : Nat := a * b % 2 ^ n
/-- High word of a signed product (R204). -/
def mulhV (a b : Nat) : Nat := wrapN ((sextN a 32 * sextN b 32).fdiv (2 ^ 32)) 32
/-- Smaller or larger as signed words of n bits. -/
def minV (n a b : Nat) : Nat := if sextN a n ≤ sextN b n then a else b
/-- Larger as signed words. -/
def maxV (n a b : Nat) : Nat := if sextN a n ≤ sextN b n then b else a
/-- Absolute value of a signed word (R204): the most negative word gives itself. -/
def absV (n a : Nat) : Nat := if sextN a n < 0 then (2 ^ n - a % 2 ^ n) % 2 ^ n else a
/-- Negation (R204). -/
def negV (n a : Nat) : Nat := (2 ^ n - a % 2 ^ n) % 2 ^ n
/-- Bitwise inversion. -/
def notV (n a : Nat) : Nat := 2 ^ n - 1 - a % 2 ^ n
/-- Shift left by an amount modulo the width. -/
def shlV (n a b : Nat) : Nat := a * 2 ^ (b % n) % 2 ^ n
/-- Logical shift right. -/
def shrV (n a b : Nat) : Nat := a / 2 ^ (b % n)
/-- Arithmetic shift right. -/
def sarV (n a b : Nat) : Nat := wrapN ((sextN a n).fdiv (2 ^ (b % n))) n
/-- Rotation left of a 32-bit word. -/
def rotlV (a b : Nat) : Nat := (a * 2 ^ (b % 32) % 2 ^ 32) + a / 2 ^ (32 - b % 32)
/-- Leading zero bits of a 32-bit word. -/
def clzV (a : Nat) : Nat := ((List.range 32).find? (fun i => bitOf a (31 - i))).getD 32
/-- Set bits of a 32-bit word. -/
def popcV (a : Nat) : Nat := popcN a 32
/-- Bit i moved to bit 31 − i. -/
def brevV (a : Nat) : Nat := ((List.range 32).map (fun i => if bitOf a (31 - i) then 2 ^ i else 0)).foldl (· + ·) 0
/-- The truth-table logic of `tbl3` (R205). -/
def tbl3V (tt d a b : Nat) : Nat :=
  ((List.range 32).map (fun i =>
    if bitOf tt (4 * bitsOf d i 1 + 2 * bitsOf a i 1 + bitsOf b i 1) then 2 ^ i else 0)).foldl (· + ·) 0
/-- The length of a bit field (R205). -/
def fieldLen (b c : Nat) : Nat := if 32 - b % 32 < c % 64 then 32 - b % 32 else c % 64
/-- Unsigned bit-field extract (R205). -/
def bfeuV (a b c : Nat) : Nat := bitsOf a (b % 32) (fieldLen b c)
/-- Signed bit-field extract (R205). -/
def bfeV (a b c : Nat) : Nat :=
  if fieldLen b c = 0 then 0 else wrapN (sextN (bitsOf a (b % 32) (fieldLen b c)) (fieldLen b c)) 32
/-- Bit-field insert (R205). -/
def bfiV (d a b c : Nat) : Nat := setBits d (b % 32) (fieldLen b c) a
/-- Four signed byte products and c (R205). -/
def dot4V (a b c : Nat) : Nat :=
  wrapN (sextN c 32 + ((List.range 4).map (fun i => sextN (bitsOf a (8 * i) 8) 8 * sextN (bitsOf b (8 * i) 8) 8)).foldl (· + ·) 0) 32

/-! ### UN and LDI -/

/-- `mov.b32`, S form (R24). -/
def execUnMov (x : SForm) (s : State) := unOp s x .w32 id
/-- `not.b32`, S form (R24). -/
def execUnNot (x : SForm) (s : State) := unOp s x .w32 (notV 32)
/-- `neg.s32`, S form (R24). -/
def execUnNeg (x : SForm) (s : State) := unOp s x .w32 (negV 32)
/-- `abs.s32`, S form (R24). -/
def execUnAbs (x : SForm) (s : State) := unOp s x .w32 (absV 32)
/-- `popc.b32`, S form (R24). -/
def execUnPopc (x : SForm) (s : State) := unOp s x .w32 popcV
/-- `clz.b32`, S form (R24). -/
def execUnClz (x : SForm) (s : State) := unOp s x .w32 clzV
/-- `brev.b32`, S form (R24). -/
def execUnBrev (x : SForm) (s : State) := unOp s x .w32 brevV
/-- `fabs.f32`: clears the sign bit, NaN codes included, and raises no flag (R205). -/
def execFabs (x : SForm) (s : State) := unOp s x .f32 (fun a => a % 2 ^ 31)

/-- `ldi`: a sign-extended 12-bit constant in every lane of the group, or in a scalar register (R25). -/
def execLdi (x : LdiForm) (s : State) : Host.Outcome State Fault Refusal :=
  withIssuer s fun th k =>
    let i : Iss := { th := th, k := k, st := x.st.toNat }
    operate s i [] [x.d.toNat] readActive fun s g =>
      finish (putDst s i x.d.toNat false g.act 4 g.cost (fun _ => (x.imm.signExtend 32).toNat)) i g.cost

/-! ### INT -/

/-- `add` (R204). -/
def execAdd (x : LForm) (s : State) := int2 s x (fun n => addV n (x.c == 1))
/-- `sub` (R204). -/
def execSub (x : LForm) (s : State) := int2 s x (fun n => subV n (x.c == 1))
/-- `mul` (R204). -/
def execMul (x : LForm) (s : State) := int2 s x mulV
/-- `mulh` (R204). -/
def execMulh (x : LForm) (s : State) := aluL s x 4 [srcA x, srcB x] (fun v => mulhV (v 0) (v 1))
/-- `mulhu` (R204). -/
def execMulhu (x : LForm) (s : State) := aluL s x 4 [srcA x, srcB x] (fun v => v 0 * v 1 / 2 ^ 32)
/-- `mad` (R204). -/
def execMad (x : LForm) (s : State) := aluL s x 4 [srcA x, srcB x, srcC x] (fun v => (v 0 * v 1 + v 2) % 2 ^ 32)
/-- `min` (R204). -/
def execMin (x : LForm) (s : State) := int2 s x minV
/-- `max` (R204). -/
def execMax (x : LForm) (s : State) := int2 s x maxV
/-- `minu` (R204). -/
def execMinu (x : LForm) (s : State) := int2 s x (fun _ => Nat.min)
/-- `maxu` (R204). -/
def execMaxu (x : LForm) (s : State) := int2 s x (fun _ => Nat.max)
/-- `abs` (R204). -/
def execAbs (x : LForm) (s : State) := aluL s x 4 [srcA x] (fun v => absV 32 (v 0))
/-- `neg` (R204). -/
def execNeg (x : LForm) (s : State) := int1 s x negV
/-- `and` (R204). -/
def execAnd (x : LForm) (s : State) := int2 s x (fun _ => Nat.land)
/-- `or` (R204). -/
def execOr (x : LForm) (s : State) := int2 s x (fun _ => Nat.lor)
/-- `xor` (R204). -/
def execXor (x : LForm) (s : State) := int2 s x (fun _ => Nat.xor)
/-- `not` (R204). -/
def execNot (x : LForm) (s : State) := int1 s x notV
/-- `tbl3` (R205). -/
def execTbl3 (x : LForm) (s : State) := aluL s x 4 [srcA x, srcB x, srcD x] (fun v => tbl3V x.c.toNat (v 2) (v 0) (v 1))
/-- `shl` (R204). -/
def execShl (x : LForm) (s : State) := intShift s x shlV
/-- `shr` (R204). -/
def execShr (x : LForm) (s : State) := intShift s x shrV
/-- `sar` (R204). -/
def execSar (x : LForm) (s : State) := intShift s x sarV
/-- `rotl` (R204). -/
def execRotl (x : LForm) (s : State) := aluL s x 4 [srcA x, srcB x] (fun v => rotlV (v 0) (v 1))
/-- `bfe` (R205). -/
def execBfe (x : LForm) (s : State) := aluL s x 4 [srcA x, srcB x, srcC x] (fun v => bfeV (v 0) (v 1) (v 2))
/-- `bfeu` (R205). -/
def execBfeu (x : LForm) (s : State) := aluL s x 4 [srcA x, srcB x, srcC x] (fun v => bfeuV (v 0) (v 1) (v 2))
/-- `bfi` (R205). -/
def execBfi (x : LForm) (s : State) := aluL s x 4 [srcA x, srcB x, srcC x, srcD x] (fun v => bfiV (v 3) (v 0) (v 1) (v 2))
/-- `clz` (R204). -/
def execClz (x : LForm) (s : State) := aluL s x 4 [srcA x] (fun v => clzV (v 0))
/-- `popc` (R204). -/
def execPopc (x : LForm) (s : State) := aluL s x 4 [srcA x] (fun v => popcV (v 0))
/-- `brev` (R204). -/
def execBrev (x : LForm) (s : State) := aluL s x 4 [srcA x] (fun v => brevV (v 0))
/-- `mov` (R204). -/
def execMov (x : LForm) (s : State) := int1 s x (fun _ a => a)
/-- `dot4` (R205). -/
def execDot4 (x : LForm) (s : State) := aluL s x 4 [srcA x, srcB x, srcC x] (fun v => dot4V (v 0) (v 1) (v 2))

/-! ### ADR -/

/-- The SX bit of the ADR modifier (Table 11-3). -/
def adrSx (x : LForm) : Bool := x.md.toNat % 2 == 1
/-- The ZX bit of the ADR modifier. -/
def adrZx (x : LForm) : Bool := x.md.toNat / 2 % 2 == 1
/-- The type of a 64-bit position: a literal is extended by sign, or by zero with ZX (R206). -/
def adrTy (x : LForm) : OTy := if adrZx x then .b64 else .s64
/-- A 32-bit operand extended to 64 bits by sign, or by zero with ZX (R206). -/
def adrExt (x : LForm) (v : Nat) : Nat := if adrZx x then v % 2 ^ 32 else wrapN (sextN v 32) 64
/-- Operand b of `add64` and `sub64`: a pair, or a 32-bit operand to be extended (R206). -/
def adrB (x : LForm) : Opnd := if adrSx x || adrZx x then srcB x else wide x.b (adrTy x)
/-- The value b′ of `add64` and `sub64` (R206). -/
def adrBv (x : LForm) (v : Nat) : Nat := if adrSx x || adrZx x then adrExt x v else v

/-- `add64` (R206). -/
def execAdd64 (x : LForm) (s : State) :=
  aluPair s x 4 [wide x.a (adrTy x), adrB x] (fun v => (v 0 + adrBv x (v 1)) % 2 ^ 64)
/-- `sub64` (R206). -/
def execSub64 (x : LForm) (s : State) :=
  aluPair s x 4 [wide x.a (adrTy x), adrB x] (fun v => (v 0 + 2 ^ 64 - adrBv x (v 1)) % 2 ^ 64)
/-- `lea` (R206). -/
def execLea (x : LForm) (s : State) :=
  aluPair s x 4 [wide x.a (adrTy x), srcB x] (fun v => (v 0 + adrExt x (v 1) * 2 ^ x.c.toNat) % 2 ^ 64)
/-- `mov64`: a register pair, or a 32-bit register, constant or literal extended to 64 bits (R206). -/
def execMov64 (x : LForm) (s : State) :=
  if !adrSx x && !adrZx x && isPair x.a.toNat then aluPair s x 4 [wide x.a .b64] (fun v => v 0)
  else aluPair s x 4 [srcA x] (fun v => adrExt x (v 0))
/-- `shl64` (R206). -/
def execShl64 (x : LForm) (s : State) := aluPair s x 4 [wide x.a .s64, srcB x] (fun v => shlV 64 (v 0) (v 1))
/-- `shr64` (R206). -/
def execShr64 (x : LForm) (s : State) := aluPair s x 4 [wide x.a .s64, srcB x] (fun v => shrV 64 (v 0) (v 1))

/-- `lea.code`: the address of its first parcel plus a signed byte offset (R207). -/
def execLeaCode (x : LForm) (s : State) : Host.Outcome State Fault Refusal :=
  withIssuer s fun th k =>
    let i := issL x th k
    let t := s.th th
    let a := codeVa s t.pl.code (curPc t k)
    operate s i [] [x.d.toNat, x.d.toNat + 1] readActive fun s g =>
      finish (putPair s i x.d.toNat g.act 4 g.cost (fun _ => wrapN ((a : Int) + sextN (x.lit.getD 0).toNat 32) 64)) i g.cost

/-- `apoff`: removes the window base of the address's space (R259). -/
def execApoff (x : LForm) (s : State) :=
  aluPair s x 4 [wide x.a .b64] (fun v => if spaceOf (v 0) = 7 then 2 ^ 64 - 1 else v 0 - spaceBase (spaceOf (v 0)))
/-- `apgen`: adds the window base of a named space (R259). -/
def execApgen (x : LForm) (s : State) :=
  aluPair s x 4 [wide x.a .b64] (fun v => (spaceBase (x.md.toNat % 16 / 2) + v 0) % 2 ^ 64)
/-- `apclass`: the space code of an address (R259). -/
def execApclass (x : LForm) (s : State) := aluL s x 4 [wide x.a .b64] (fun v => spaceOf (v 0))

end Sys2Proof.Machine
end

