-- ==== Sys2Proof/Machine/SfuMath.lean ====
section
/-!
DEFINITION. The special functions of R210: exact cases, and for the rest an enclosure in fixed point whose two ends are
rounded. Where the ends round apart, the constant Config.sfuTie decides (DESIGN CHOICE, log 7).
-/

namespace Sys2Proof.Machine

/-- Bits of the fixed-point fractions. -/
def fixP : Nat := 700
/-- One in fixed point. -/
def fixOne : Nat := 2 ^ fixP
/-- The half-width of every enclosure, far above the sum of all truncations. -/
def fixErr : Nat := 2 ^ 40

/-- Sums a series: at step n the term `t` is added over `n`'s divisor, and the next term is t × r / one. -/
def oddSeries (r : Nat) (alt : Bool) : Nat → Nat → Nat → Int → Int
  | 0, _, _, acc => acc
  | k + 1, t, n, acc =>
    let q : Int := (t / (2 * n + 1) : Nat)
    oddSeries r alt k (t * r / fixOne) (n + 1) (if alt && n % 2 == 1 then acc - q else acc + q)

/-- Inverse hyperbolic tangent of a fraction at most 1/3. -/
def atanhFix (t : Nat) : Nat := (oddSeries (t * t / fixOne) false 240 t 0 0).toNat

/-- Inverse tangent of 1/n. -/
def atanInv (n : Nat) : Nat := (oddSeries (fixOne / (n * n)) true 240 (fixOne / n) 0 0).toNat

/-- The natural logarithm of 2. -/
def ln2Fix : Nat := 2 * atanhFix (fixOne / 3)

/-- π by Machin's formula. -/
def piFix : Nat := 16 * atanInv 5 - 4 * atanInv 239

/-- Sums x^n / n! from a term on. -/
def expSeries (x : Nat) : Nat → Nat → Nat → Nat → Nat
  | 0, _, _, acc => acc
  | k + 1, t, n, acc => expSeries x k (t * x / fixOne / (n + 1)) (n + 1) (acc + t)

/-- 2 to a fraction in [0, 1), both in fixed point. -/
def exp2Fix (f : Nat) : Nat := let x := f * ln2Fix / fixOne; expSeries x 200 fixOne 0 0

/-- Sums (−1)^n x^(2n+1) / (2n+1)!. -/
def sinSeries (x2 : Nat) : Nat → Nat → Nat → Int → Int
  | 0, _, _, acc => acc
  | k + 1, t, n, acc =>
    sinSeries x2 k (t * x2 / fixOne / ((2 * n + 2) * (2 * n + 3))) (n + 1) (if n % 2 = 0 then acc + t else acc - t)

/-- sin(π r) of a fraction r in (0, 1/2]. -/
def sinpiFix (r : Nat) : Nat := let x := r * piFix / fixOne; (sinSeries (x * x / fixOne) 110 x 0 0).toNat

/-- The base-2 logarithm of z in [1, 2). -/
def log2Fix (z : Nat) : Nat := 2 * atanhFix ((z - fixOne) * fixOne / (z + fixOne)) * fixOne / ln2Fix

/-- Rounds a value known only within an enclosure v ± the error, times 2^e, in fixed point; `key` names the function and the
input for the deciding constant. -/
def roundEnclosed (key : Nat × Nat) (rm : Nat) (neg : Bool) (v : Nat) (e : Int) : Nat × Nat :=
  let lo := roundTo fp32 rm 0 (.fin neg (v - fixErr) (e - fixP))
  let hi := roundTo fp32 rm 0 (.fin neg (v + fixErr) (e - fixP))
  if lo = hi then lo else if Config.sfuTie key.1 key.2 rm then hi else lo

/-- Rounds a quotient or root k × 2^e that is exact, or else exceeds k by less than one unit. -/
def roundSticky (rm : Nat) (neg : Bool) (k : Nat) (exact : Bool) (e : Int) : Nat × Nat :=
  roundTo fp32 rm 0 (.fin neg (2 * k + if exact then 0 else 1) (e - 1))

/-- The greatest number whose square is no more than n: Newton's steps from above. -/
def sqrtGo (n : Nat) : Nat → Nat → Nat
  | 0, x => x
  | f + 1, x => let y := (x + n / x) / 2; if y < x then sqrtGo n f y else x

/-- The integer square root. -/
def isqrt (n : Nat) : Nat := if n = 0 then 0 else sqrtGo n (Nat.log2 n + 10) (2 ^ (Nat.log2 n / 2 + 1))

/-- Reciprocal of m × 2^e. -/
def rcpV (rm : Nat) (neg : Bool) (m : Nat) (e : Int) : Nat × Nat :=
  roundSticky rm neg (2 ^ 200 / m) (2 ^ 200 % m == 0) (-200 - e)

/-- Square root of m × 2^e. -/
def sqrtV (rm m : Nat) (e : Int) : Nat × Nat :=
  let (m, e) := if e % 2 = 0 then (m, e) else (2 * m, e - 1)
  let n := m * 2 ^ 200
  let k := isqrt n
  roundSticky rm false k (k * k == n) (e / 2 - 100)

/-- Reciprocal square root of m × 2^e. -/
def rsqV (rm m : Nat) (e : Int) : Nat × Nat :=
  let (m, e) := if e % 2 = 0 then (m, e) else (2 * m, e - 1)
  let k := isqrt (2 ^ 400 / m)
  roundSticky rm false k (k * k * m == 2 ^ 400) (-200 - e / 2)

/-- 2 to the power ±m × 2^e, not zero. -/
def exp2V (key rm : Nat) (neg : Bool) (m : Nat) (e : Int) : Nat × Nat :=
  let big := (Nat.log2 m : Int) + e
  if 12 ≤ big then roundTo fp32 rm 0 (.fin false 3 (if neg then -5000 else 5000))
  else if 0 ≤ e then
    let n : Int := m * 2 ^ e.toNat
    roundTo fp32 rm 0 (.fin false 1 (if neg then -n else n))
  else
    let d : Nat := 2 ^ (-e).toNat
    let v : Int := if neg then -(m : Int) else m
    let ip := v.fdiv d
    let fr := (v.fmod d).toNat
    if fr = 0 then roundTo fp32 rm 0 (.fin false 1 ip)
    else roundEnclosed (3, key) rm false (exp2Fix (fr * fixOne / d)) ip

/-- Base-2 logarithm of m × 2^e. -/
def log2V (key rm m : Nat) (e : Int) : Nat × Nat :=
  let l := Nat.log2 m
  let ip : Int := l + e
  if m = 2 ^ l then roundTo fp32 rm 0 (.fin (ip < 0) ip.natAbs 0)
  else
    let f := log2Fix (m * fixOne / 2 ^ l)
    let v : Int := ip * fixOne + f
    roundEnclosed (4, key) rm (v < 0) v.natAbs 0

/-- sin(π x) of x = ±n / d, or of x plus a half for the cosine; `d` is a power of two at least 2. -/
def sinpiV (fn key rm : Nat) (neg : Bool) (n d : Nat) : Nat × Nat :=
  let v : Int := if neg then -(n : Int) else n
  let v := if fn = 6 then v + d / 2 else v
  let r := (v.fmod (2 * d)).toNat
  let s := d ≤ r
  let r := r % d
  let r := if d < 2 * r then d - r else r
  if r = 0 then roundTo fp32 rm 0 (.fin (fn == 5 && neg) 0 0)
  else if 2 * r = d then roundTo fp32 rm 0 (.fin s 1 0)
  else roundEnclosed (fn, key) rm s (sinpiFix (r * fixOne / d)) 0

/-- Hyperbolic tangent of ±m × 2^e, not zero. From 16 on it lies within 2⁻²⁵ of 1, and rounds as any number there does. -/
def tanhV (key rm : Nat) (neg : Bool) (m : Nat) (e : Int) : Nat × Nat :=
  if 4 ≤ (Nat.log2 m : Int) + e then roundTo fp32 rm 0 (.fin neg (2 ^ 300 - 1) (-300))
  else
    let a := if 0 ≤ e then m * 2 ^ e.toNat * fixOne else m * fixOne / 2 ^ (-e).toNat
    let z := 2 * a * fixOne / ln2Fix
    let ip := z / fixOne
    let u := exp2Fix (fixOne - z % fixOne) / 2 ^ (ip + 1)
    roundEnclosed (7, key) rm neg ((fixOne - u) * fixOne / (fixOne + u)) 0

/-- A special function of an FP32 code in a rounding mode: its code and flags (R210, Table 11-8). Functions are numbered by
their minors: 0 frcp, 1 frsq, 2 fsqrt, 3 fexp2, 4 flog2, 5 fsin, 6 fcos, 7 ftanh. -/
def sfuV (fn rm a : Nat) : Nat × Nat :=
  let inf (n : Bool) : Nat := (roundTo fp32 rm 0 (.inf n)).1
  let zero (n : Bool) : Nat := (roundTo fp32 rm 0 (.fin n 0 0)).1
  let one (n : Bool) : Nat := (roundTo fp32 rm 0 (.fin n 1 0)).1
  match decodeF fp32 a with
  | .nan => (canonNaN fp32, 0)
  | .inf n =>
    match fn with
    | 0 => (zero n, 0)
    | 1 => if n then (canonNaN fp32, flNV) else (zero false, 0)
    | 2 | 4 => if n then (canonNaN fp32, flNV) else (inf false, 0)
    | 3 => if n then (zero false, 0) else (inf false, 0)
    | 7 => (one n, 0)
    | _ => (canonNaN fp32, flNV)
  | .fin n m e =>
    if m = 0 then
      match fn with
      | 0 | 1 => (inf n, flDZ)
      | 4 => (inf true, flDZ)
      | 3 | 6 => (one false, 0)
      | _ => (zero n, 0)
    else if n && (fn == 1 || fn == 2 || fn == 4) then (canonNaN fp32, flNV)
    else
      match fn with
      | 0 => rcpV rm n m e
      | 1 => rsqV rm m e
      | 2 => sqrtV rm m e
      | 3 => exp2V a rm n m e
      | 4 => log2V a rm m e
      | 5 | 6 =>
        if 0 ≤ e then sinpiV fn a rm n (m * 2 ^ (e.toNat + 1) % 4) 2
        else sinpiV fn a rm n (2 * m) (2 ^ ((-e).toNat + 1))
      | _ => tanhV a rm n m e

end Sys2Proof.Machine
end

