-- ==== Sys2Proof/Machine/Fpu.lean ====
section
/-!
DEFINITION. Floating-point operations FPU (R208, R209), special functions SFU (R210), conversions CVT (R211, R212) and narrow
formats NRW (R213, R214).
-/

namespace Sys2Proof.Machine

/-- An instruction whose result is 32 bits with FP status flags (R203). -/
def aluF (s : State) (x : LForm) (lat : Nat) (srcs : List Opnd) (f : (Nat → Nat) → Nat × Nat) :
    Host.Outcome State Fault Refusal :=
  withIssuer s fun th k =>
    let i := issL x th k
    operate s i srcs [x.d.toNat] readActive fun s g =>
      let r (l : Nat) := f (fun n => g.v n l)
      let fl := laneFlags (s.th th) x.d.toNat g.act (fun l => (r l).2)
      finish (raiseFp (putDst s i x.d.toNat x.tr g.act lat g.cost (fun l => (r l).1)) th fl) i g.cost

/-- The operand type of a floating-point type field (R28). -/
def fTy (x : LForm) : OTy := if x.ty = 3 then .f16 else if x.ty = 4 then .bf16 else .f32
/-- The format of a floating-point type field. -/
def fFmt (x : LForm) : Fmt := if x.ty = 3 then fp16 else if x.ty = 4 then bf16 else fp32
/-- A field as a floating-point operand. -/
def fop (x : LForm) (sp : Spec) : Opnd := { spec := sp.toNat, ty := fTy x }

/-- Element j of an operand of an instruction's type. -/
def elemOf (x : LForm) (v j : Nat) : Nat := if fFmt x = fp32 then v else bitsOf v (16 * j) 16

/-- An FPU operation of an exact result rounded once in the mode of the rounding field (R208). -/
def fpuOp (s : State) (x : LForm) (n : Nat) (f : List FV → FV × Nat) : Host.Outcome State Fault Refusal :=
  let srcs := ([x.a, x.b, x.c].take n).map (fop x)
  aluF s x 6 srcs fun v =>
    let one (j : Nat) : Nat × Nat :=
      let r := f ((List.range n).map (fun q => decodeF (fFmt x) (elemOf x (v q) j)))
      let c := roundTo (fFmt x) x.rn 0 r.1
      (c.1, c.2 ||| r.2)
    if x.ty = 2 then one 0
    else let lo := one 0; let hi := one 1; (lo.1 + hi.1 * 2 ^ 16, lo.2 ||| hi.2)

/-- An FPU operation on codes without rounding or flags (R209). -/
def fpuCode (s : State) (x : LForm) (n : Nat) (f : List Nat → Nat) : Host.Outcome State Fault Refusal :=
  let srcs := ([x.a, x.b, x.c].take n).map (fop x)
  aluL s x 6 srcs fun v =>
    let one (j : Nat) : Nat := f ((List.range n).map (fun q => elemOf x (v q) j))
    if x.ty = 2 then one 0 else one 0 + one 1 * 2 ^ 16

/-- The n-th value of a list of operands. -/
def nthFV (l : List FV) (n : Nat) : FV := l.getD n .nan

/-- `fadd` (R208). -/
def execFadd (x : LForm) (s : State) := fpuOp s x 2 (fun l => sumFV x.rn [nthFV l 0, nthFV l 1])
/-- `fsub` (R208). -/
def execFsub (x : LForm) (s : State) := fpuOp s x 2 (fun l => sumFV x.rn [nthFV l 0, (nthFV l 1).neg])
/-- `fmul` (R208). -/
def execFmul (x : LForm) (s : State) := fpuOp s x 2 (fun l => mulFV (nthFV l 0) (nthFV l 1))
/-- `fma` (R208). -/
def execFma (x : LForm) (s : State) := fpuOp s x 3 (fun l => fmaFV x.rn (nthFV l 0) (nthFV l 1) (nthFV l 2))
/-- `fnma` (R208). -/
def execFnma (x : LForm) (s : State) := fpuOp s x 3 (fun l => fmaFV x.rn (nthFV l 0).neg (nthFV l 1) (nthFV l 2))
/-- `fmin` (R209). -/
def execFmin (x : LForm) (s : State) := fpuCode s x 2 (fun l => minmaxF (fFmt x) false (l.getD 0 0) (l.getD 1 0))
/-- `fmax` (R209). -/
def execFmax (x : LForm) (s : State) := fpuCode s x 2 (fun l => minmaxF (fFmt x) true (l.getD 0 0) (l.getD 1 0))
/-- `fround` (R208). -/
def execFround (x : LForm) (s : State) := fpuCode s x 1 (fun l => froundV x.rn (l.getD 0 0))
/-- `fclamp` (R208, R209). -/
def execFclamp (x : LForm) (s : State) :=
  fpuCode s x 3 (fun l => minmaxF (fFmt x) false (minmaxF (fFmt x) true (l.getD 0 0) (l.getD 1 0)) (l.getD 2 0))
/-- `fdot2`: two packed products and an FP32 sum with one rounding (R208). -/
def execFdot2 (x : LForm) (s : State) :=
  aluF s x 6 [fop x x.a, fop x x.b, { spec := x.c.toNat, ty := .f32 }] fun v =>
    let p (j : Nat) := mulFV (decodeF (fFmt x) (bitsOf (v 0) (16 * j) 16)) (decodeF (fFmt x) (bitsOf (v 1) (16 * j) 16))
    let r := sumFV x.rn [(p 0).1, (p 1).1, decodeF fp32 (v 2)]
    if (p 0).2 ||| (p 1).2 ≠ 0 then (canonNaN fp32, flNV)
    else let c := roundTo fp32 x.rn 0 r.1; (c.1, c.2 ||| r.2)

/-! ### SFU -/

/-- A special function of a minor (R210). -/
def sfuOp (s : State) (x : LForm) (fn : Nat) : Host.Outcome State Fault Refusal :=
  aluF s x 14 [fop x x.a] (fun v => sfuV fn x.rn (v 0))

/-- `frcp` (R210). -/
def execFrcp (x : LForm) (s : State) := sfuOp s x 0
/-- `frsq` (R210). -/
def execFrsq (x : LForm) (s : State) := sfuOp s x 1
/-- `fsqrt` (R210). -/
def execFsqrt (x : LForm) (s : State) := sfuOp s x 2
/-- `fexp2` (R210). -/
def execFexp2 (x : LForm) (s : State) := sfuOp s x 3
/-- `flog2` (R210). -/
def execFlog2 (x : LForm) (s : State) := sfuOp s x 4
/-- `fsin` (R210). -/
def execFsin (x : LForm) (s : State) := sfuOp s x 5
/-- `fcos` (R210). -/
def execFcos (x : LForm) (s : State) := sfuOp s x 6
/-- `ftanh` (R210). -/
def execFtanh (x : LForm) (s : State) := sfuOp s x 7

/-! ### Stochastic groups -/

/-- The tile size of a strand (R139). -/
def tileSize (t : Strand) : Nat := 2 ^ t.ct.part

/-- The random bits with which lane l rounds stochastically among the discarded bits of its tile (R179): a lane that does not
contribute (R140) has none. -/
def laneRnd (t : Strand) (act : Word) (d : Nat → Nat) (l : Nat) : Nat :=
  let g := tileSize t
  let base := l / g * g
  let con := act &&& ~~~t.ln.helper
  let dd (e : Nat) : Nat := if con.getLsbD (base + e) then d (base + e) else 0
  if con.getLsbD l then stochM g dd (l - base) else 0

/-! ### CVT -/

/-- `fcvt`: two FP32 values to a packed pair, with stochastic rounding under SR (R211). -/
def execFcvt (x : LForm) (s : State) : Host.Outcome State Fault Refusal :=
  withIssuer s fun th k =>
    let i := issL x th k
    let fm := fFmt x
    operate s i [{ spec := x.a.toNat, ty := .f32 }, { spec := x.b.toNat, ty := .f32 }] [x.d.toNat] readActive fun s g =>
      let t := s.th th
      let one (j l : Nat) : Nat × Nat :=
        if x.c = 1 then
          roundTo fm 4 (laneRnd t g.act (fun l => discard fm (decodeF fp32 (g.v j l))) l) (decodeF fp32 (g.v j l))
        else roundTo fm x.rn 0 (decodeF fp32 (g.v j l))
      let fl := laneFlags t x.d.toNat g.act (fun l => (one 0 l).2 ||| (one 1 l).2)
      finish (raiseFp (putDst s i x.d.toNat x.tr g.act 6 g.cost (fun l => (one 0 l).1 + (one 1 l).1 * 2 ^ 16)) th fl) i g.cost

/-- An instruction whose result is a pair with FP status flags. -/
def aluPairF (s : State) (x : LForm) (srcs : List Opnd) (f : (Nat → Nat) → Nat × Nat) : Host.Outcome State Fault Refusal :=
  withIssuer s fun th k =>
    let i := issL x th k
    operate s i srcs [x.d.toNat, x.d.toNat + 1] readActive fun s g =>
      let r (l : Nat) := f (fun n => g.v n l)
      let fl := laneFlags (s.th th) x.d.toNat g.act (fun l => (r l).2)
      finish (raiseFp (putPair s i x.d.toNat g.act 6 g.cost (fun l => (r l).1)) th fl) i g.cost

/-- `f2i` (R212). -/
def execF2i (x : LForm) (s : State) :=
  let a : Opnd := { spec := x.a.toNat, ty := .f32 }
  if x.ty = 5 then aluPairF s x [a] (fun v => f2iV 64 (x.c == 1) x.rn (v 0))
  else aluF s x 6 [a] (fun v => f2iV 32 (x.c == 1) x.rn (v 0))

/-- `i2f` (R211). -/
def execI2f (x : LForm) (s : State) :=
  let n := if x.ty = 5 then 64 else 32
  let a := if x.ty = 5 then wide x.a .s64 else srcA x
  aluF s x 6 [a] (fun v => i2fV x.rn (if x.c = 1 then (v 0 : Int) else sextN (v 0) n))

/-- Clamps a signed word to 16 bits. -/
def clamp16 (v : Nat) : Nat := wrapN (max (-32768) (min (sextN v 32) 32767)) 16

/-- `pack2` (R211). -/
def execPack2 (x : LForm) (s : State) :=
  let h (v : Nat) : Nat := if x.ty = 0 then clamp16 v else v % 2 ^ 16
  aluL s x 6 [srcA x, srcB x] (fun v => h (v 0) + h (v 1) * 2 ^ 16)

/-- `unpack2` (R211). -/
def execUnpack2 (x : LForm) (s : State) :=
  aluL s x 6 [{ spec := x.a.toNat, ty := if x.ty = 3 then .f16 else if x.ty = 4 then .bf16 else .w32 }] fun v =>
    let e := bitsOf (v 0) (16 * x.c.toNat) 16
    if x.ty = 3 then toFp32 fp16 e else if x.ty = 4 then toFp32 bf16 e
    else if x.ty = 0 then wrapN (sextN e 16) 32 else e

/-! ### NRW -/

/-- Elements in a 32-bit value of a format (R213). -/
def nElems (f : Fmt) : Nat := 32 / f.w

/-- Element i of a packed value (R213). -/
def nElem (f : Fmt) (v i : Nat) : Nat := bitsOf v (f.w * i) f.w

/-- Packs elements (R213): unused bits are zero. -/
def nPackAll (f : Fmt) (e : Nat → Nat) : Nat := ((List.range (nElems f)).map (fun i => e i * 2 ^ (f.w * i))).foldl (· + ·) 0

/-- The number-format word that an NRW instruction names (R213). -/
def nfOf (s : State) (th j : Nat) : Nat := ((s.th th).ct.nf.getD j 0).toNat

/-- An NRW operation on every element: sources, the check of its formats, and for a lane and element a value to be rounded
with the flags of computing it (R213, R214); `inv` says whether a result that overflows raises NV too. -/
def nrwOp (s : State) (x : LForm) (srcs : List Opnd) (rm : Nat) (bad : State → Nat → Bool)
    (f : State → Nat → Nat → (Nat → Nat) → FV × Nat) (inv : State → Nat → Bool := fun _ _ => false) :
    Host.Outcome State Fault Refusal :=
  withIssuer s fun th k =>
    let i := issL x th k
    let fm := nfFmt (nfOf s th x.rn)
    operate s i srcs [x.d.toNat] readActive fun s' g =>
      if bad s th then faultAt s th k .format g.act 0 0
      else
        let t := s.th th
        let val (j l : Nat) : FV × Nat := f s th j (fun n => g.v n l)
        let one (j l : Nat) : Nat × Nat :=
          let rnd := if rm = 4 then laneRnd t g.act (fun l => discard fm (val j l).1) l else 0
          let c := roundTo fm rm rnd (val j l).1
          (c.1, c.2 ||| (val j l).2 ||| if inv s th && bitOf c.2 2 then flNV else 0)
        let fl := laneFlags t x.d.toNat g.act (fun l => (List.range (nElems fm)).foldl (fun a j => a ||| (one j l).2) 0)
        finish (raiseFp (putVec s' i x.d.toNat x.tr g.act 6 g.cost (fun l => nPackAll fm (fun j => (one j l).1))) th fl) i g.cost

/-- Whether the format nfK is a codebook format (R214). -/
def nfCodebook (x : LForm) (s : State) (th : Nat) : Bool := (nfFmt (nfOf s th x.rn)).rule == 3

/-- Element j of source n, decoded in nfK. -/
def nVal (x : LForm) (s : State) (th j n : Nat) (v : Nat → Nat) : FV :=
  let fm := nfFmt (nfOf s th x.rn)
  decodeF fm (nElem fm (v n) j)

/-- `nadd` (R213). -/
def execNadd (x : LForm) (s : State) := nrwOp s x [srcA x, srcB x] x.c.toNat (nfCodebook x)
  (fun s th j v => sumFV x.c.toNat [nVal x s th j 0 v, nVal x s th j 1 v])
/-- `nmul` (R213). -/
def execNmul (x : LForm) (s : State) := nrwOp s x [srcA x, srcB x] x.c.toNat (nfCodebook x)
  (fun s th j v => mulFV (nVal x s th j 0 v) (nVal x s th j 1 v))
/-- `nfma` (R213). -/
def execNfma (x : LForm) (s : State) := nrwOp s x [srcA x, srcB x, srcC x] 0 (nfCodebook x)
  (fun s th j v => fmaFV 0 (nVal x s th j 0 v) (nVal x s th j 1 v) (nVal x s th j 2 v))

/-- `nmin` or `nmax`, code for code (R213). -/
def nrwMinMax (s : State) (x : LForm) (mx : Bool) : Host.Outcome State Fault Refusal :=
  withIssuer s fun th k =>
    let i := issL x th k
    let fm := nfFmt (nfOf s th x.rn)
    operate s i [srcA x, srcB x] [x.d.toNat] readActive fun s' g =>
      if nfCodebook x s th then faultAt s th k .format g.act 0 0
      else finish (putVec s' i x.d.toNat x.tr g.act 6 g.cost (fun l =>
        nPackAll fm (fun j => minmaxF fm mx (nElem fm (g.v 0 l) j) (nElem fm (g.v 1 l) j)))) i g.cost

/-- `nmin` (R213). -/
def execNmin (x : LForm) (s : State) := nrwMinMax s x false
/-- `nmax` (R213). -/
def execNmax (x : LForm) (s : State) := nrwMinMax s x true

/-- `npack`: rounds an FP32 or s32 value into element e of the destination (R213, R214). An s32 value outside an integer format's range raises
OF and NX as any value does, and no NV (DEDUCED, log 9). -/
def execNpack (x : LForm) (s : State) : Host.Outcome State Fault Refusal :=
  withIssuer s fun th k =>
    let i := issL x th k
    let fm := nfFmt (nfOf s th x.rn)
    let a : Opnd := { spec := x.a.toNat, ty := if fm.isInt then .w32 else .f32 }
    operate s i [a, srcB x, srcD x] [x.d.toNat] readActive fun s' g =>
      let e := g.v 1 0
      if nfCodebook x s th then faultAt s th k .format g.act 0 0
      else if nElems fm ≤ e then faultAt s th k .illegal g.act 0 0
      else
        let t := s.th th
        let val (l : Nat) : FV :=
          if fm.isInt then let v := sextN (g.v 0 l) 32; .fin (v < 0) v.natAbs 0 else decodeF fp32 (g.v 0 l)
        let one (l : Nat) : Nat × Nat :=
          roundTo fm x.c.toNat (if x.c = 4 then laneRnd t g.act (fun l => discard fm (val l)) l else 0) (val l)
        let fl := laneFlags t x.d.toNat g.act (fun l => (one l).2)
        finish (raiseFp (putVec s' i x.d.toNat x.tr g.act 6 g.cost (fun l =>
          let v := nPackAll fm (fun j => if j = e then (one l).1 else nElem fm (g.v 2 l) j)
          v % 2 ^ (fm.w * nElems fm))) th fl) i g.cost

/-- `nunpack`: element e as FP32 or s32; a codebook format decodes through its slot (R213, R214). -/
def execNunpack (x : LForm) (s : State) : Host.Outcome State Fault Refusal :=
  withIssuer s fun th k =>
    let i := issL x th k
    let w := nfOf s th x.rn
    let fm := nfFmt w
    let cb := kgetD (s.ctx (s.th th).pl.ctx).cb (nfSlot w) []
    operate s i [srcA x, srcB x] [x.d.toNat] readActive fun s' g =>
      let e := g.v 1 0
      if nElems fm ≤ e then faultAt s th k .illegal g.act 0 0
      else finish (putVec s' i x.d.toNat x.tr g.act 6 g.cost (fun l =>
        let c := nElem fm (g.v 0 l) e
        if fm.rule = 3 then cb.getD c 0 * 2 ^ 16
        else if fm.isInt then wrapN (sextN c fm.w) 32 else toFp32 fm c)) i g.cost

/-- `ncvt`: every element from nfj to nfK (R213, R214). A finite element outside an integer format's range is a conversion with no value in
range, and raises NV beside the OF and NX of Table 10-2 (DEDUCED, log 9). -/
def execNcvt (x : LForm) (s : State) := nrwOp s x [srcA x] x.b.toNat
  (fun s th =>
    let fj := nfFmt (nfOf s th x.c.toNat)
    nfCodebook x s th || fj.rule == 3 || fj.w != (nfFmt (nfOf s th x.rn)).w)
  (fun s th j v => let fj := nfFmt (nfOf s th x.c.toNat); (decodeF fj (nElem fj (v 0) j), 0))
  (fun s th => (nfFmt (nfOf s th x.rn)).isInt && !(nfFmt (nfOf s th x.c.toNat)).isInt)

end Sys2Proof.Machine
end

