-- ==== Sys2Proof/Machine/LoadStore.lean ====
section
/-!
DEFINITION. The MEM instructions (R270 to R277), the return of loads (R273, R325, R327, R331), and the application of commits
at their homes (R317, R321, R324).
The instants at which these effects happen are those of log 11 (DEDUCED).
-/

namespace Sys2Proof.Machine

/-- The bytes of a sized access (Table 14-10). -/
def sizeZ (x : LForm) : Nat := [1, 1, 2, 2, 4, 8, 16, 1].getD x.ty 1

/-- The registers of a sized access. -/
def sizeRegs (x : LForm) : Nat := (sizeZ x + 3) / 4

/-- The base of a memory operand: a register pair (R270). -/
def baseA (x : LForm) : Opnd := { spec := x.a.toNat, ty := .b64, regs := 2 }

/-- The offset field as a signed number. -/
def offC (x : LForm) : Int := sextN x.c.toNat 6

/-- The scope field. -/
def scopeC (x : LForm) : Nat := x.c.toNat / 64

/-- A lane's address from base and index (R272). -/
def laneAddr (x : LForm) (z : Nat) (base idx : Nat) : Nat := wrapN ((base : Int) + sextN idx 32 + offC x * z) 64

/-- Whether every operand of an instruction is invariant, so that it acts once on the scalar unit (R37). -/
def allInv (specs : List Spec) : Bool := specs.all (fun a => isInv a.toNat)

/-- The lanes that store: the active ones that are no helpers, or one for an instruction of the scalar unit (R274, R37). -/
def storeLanes (t : Strand) (act : Word) (specs : List Spec) : List Nat :=
  if allInv specs then lanesOf (scalarLane t act) else lanesOf (act &&& ~~~t.ln.helper)

/-- Runs an instruction that raises paths, one for each mention, or makes it wait at issue while a counter would pass 255 (R267). -/
def raising (s0 s : State) (i : Iss) (ps : List Nat) (f : State → State) : State :=
  match fullPath s i.th ps with
  | some p => holdGroup (keepWalk s0 s) i.th i.k (.path p (pathRoom s i.th ps p)) false false i.size
  | none => f s

/-- Makes an instruction wait at issue for an entry of the range-lock tables (R299): until the oldest operation that holds one ends. -/
def lockStall (s0 s : State) (i : Iss) : State :=
  holdGroup (keepWalk s0 s) i.th i.k (.flight ((s.lk.entries.map (·.flight)).headD 0)) false false i.size

/-- Makes an instruction that reads some bytes at its issue wait there for what the read comes after (R323, R325). -/
def readAfter (s0 s : State) (i : Iss) (pas : List Nat) (f : State → State) : State :=
  match readWaits s i.th pas with
  | some n => holdGroup (keepWalk s0 s) i.th i.k (.flight n) false false i.size
  | none => f s

/-- Makes a release of core scope wait at issue for what its core does not see yet of what it comes after (R324). -/
def releasing (s0 s : State) (i : Iss) (lanes : Word) (scope : Nat) (f : State → State) : State :=
  if scope = 2 ∧ relWaits s i.th s.run.nextId lanes 2 then
    holdGroup (keepWalk s0 s) i.th i.k (.drained s.run.nextId 2) false false i.size
  else f s

/-- Checks each lane's element access (R272), with the scales of the blocks read at issue (R190; DEDUCED, log 11): after what such a read
comes after, and leaving no older copy of them for a later load of the core (R323). -/
def reachElems (s0 s : State) (i : Iss) (lanes : List Nat) (x idx : Nat → Nat) (off : Int) (store : Bool)
    (body : State → List (Nat × Reach) → State) : State :=
  match checkLanes (fun s l => elemAt s i.th (x l) (idx l) off store) s lanes with
  | (rs, s) =>
    let scales := (passed rs).filterMap (·.2.scale)
    readAfter s0 s i scales fun s =>
      reached s0 (dropLines s (s.th i.th).pl.core scales) i (elemAddr s i.th x idx off)
        (rs.map (fun e => (e.1, e.2.bind (elemOk s i.th e.1 store)))) body

/-! ### Loads -/

/-- The cells that a destination of n registers names in a lane. -/
def destCells (t : Strand) (d n l : Nat) : List Nat := (List.range n).flatMap (fun j => (regCell t (d + j) l).toList)

/-- Issues a load: one operation on every path that its lanes reach (R267, R273). A scalar destination takes one lane's value. -/
def issueLoad (s0 s : State) (i : Iss) (cost : Nat) (d n : Nat) (rs : List (Nat × Reach)) (conv : Reach → Nat → Conv)
    (acq : Nat) (rp : Bool) : State :=
  let t := s.th i.th
  let rs := if isS d then (match rs.find? (fun r => !t.ln.helper.getLsbD r.1) with | some r => [r] | none => rs.take 1) else rs
  if rs.isEmpty then finish s i cost
  else
    let ps := (rs.map (·.2.path)).eraseDups
    let lane (r : Nat × Reach) : LoadLane :=
      let own := ownBits t r.1 r.2.pas
      { lane := r.1, cells := destCells t d n r.1, pas := r.2.pas, fmask := own.1, fdata := own.2, shift := r.2.shift,
        width := r.2.width, cached := r.2.cached && acq < 3, conv := conv r.2 r.1 }
    raising s0 s i ps fun s =>
      let ls := rs.map lane
      let (id, s) := newFlight s i.th ps (ls.flatMap (·.cells)) (.load ls acq rp)
      finish (captureIn s id ((rs.filter (·.2.fmt == 11)).map (·.2.slot)).eraseDups) i cost

/-- `ld` (R273). -/
def execLd (x : LForm) (s : State) : Host.Outcome State Fault Refusal :=
  withIssuer s fun th k =>
    let i := issL x th k
    let z := sizeZ x
    let dsts := (List.range (sizeRegs x)).map (· + x.d.toNat)
    operate s i [baseA x, srcB x] dsts readActive fun s1 g =>
      let addr (l : Nat) : Nat := laneAddr x z (g.v 0 l) (g.v 1 l)
      reachLanes s s1 i (lanesOf g.act) addr (fun s l => accessAt s th (addr l) z .read) fun s2 rs =>
        let acq := if x.rn = 0 then 0 else strong s (s.th th).pl.ctx (scopeC x)
        issueLoad s s2 i g.cost x.d.toNat (sizeRegs x) rs
          (fun _ _ => if x.ty = 1 then .sext 8 else if x.ty = 3 then .sext 16 else .zext) acq (x.rn == 2)

/-- `lde` (R273, R191). -/
def execLde (x : LForm) (s : State) : Host.Outcome State Fault Refusal :=
  withIssuer s fun th k =>
    let i := issL x th k
    operate s i [baseA x, srcB x] [x.d.toNat] readActive fun s1 g =>
      reachElems s s1 i (lanesOf g.act) (g.v 0) (g.v 1) (offC x) false fun s2 rs =>
        issueLoad s s2 i g.cost x.d.toNat 1 rs
          (fun r l => .elem r.fmt (r.scale.map (scaleAt s2 th l))
            (if r.fmt = 11 then codebook s (s.th th).pl.ctx r.slot else [])) 0 false

/-- `prefetch`: neither faults nor counts, and moves lines only (R277). -/
def execPrefetch (x : LForm) (s : State) : Host.Outcome State Fault Refusal :=
  withIssuer s fun th k =>
    let i := issL x th k
    operate s i [baseA x, srcB x] [] readActive fun s g => finish s i g.cost

/-! ### Stores -/

/-- The data of a store in each lane that passed, as buffered stores. -/
def entriesOf (s : State) (th : Nat) (rs : List (Nat × Reach)) (data : Nat → Nat) : List BufEntry :=
  rs.flatMap (fun r => storeEntries s th r.1 r.2.start r.2 (data r.1))

/-- Buffers plain stores and ends the instruction, or stops it with QLOG (R315, R320). -/
def plainStore (s0 s : State) (i : Iss) (cost : Nat) (es : List BufEntry) : State :=
  match bufferStores s i.th es with
  | .full m => faultAt (keepWalk s0 s) i.th i.k .qlog m 0 0
  | .wait => lockStall s0 s i
  | .done s => finish s i cost

/-- The data operand of a store. -/
def dataD (x : LForm) (n : Nat) : Opnd := { spec := x.d.toNat, regs := n }

/-- `st` (R274); a release store first commits its group's quanta, then its own write is one more commit (R316, R324). -/
def execSt (x : LForm) (s : State) : Host.Outcome State Fault Refusal :=
  withIssuer s fun th k =>
    let i := issL x th k
    let z := sizeZ x
    operate s i [baseA x, srcB x, dataD x (sizeRegs x)] [] (fun act => storeLanes (s.th th) act [x.a, x.b, x.d]) fun s1 g =>
      let addr (l : Nat) : Nat := laneAddr x z (g.v 0 l) (g.v 1 l)
      let ls := storeLanes (s.th th) g.act [x.a, x.b, x.d]
      reachLanes s s1 i ls addr (fun s l => accessAt s th (addr l) z .write) fun s2 rs =>
        let es := entriesOf s2 th rs (g.v 2)
        if x.rn = 0 then plainStore s s2 i g.cost es
        else
          let lanes := ((s.th th).grp k).mask
          let sc := strong s (s.th th).pl.ctx (scopeC x)
          raising s s2 i (1 :: commitPath (s.th th) lanes) fun s2 => releasing s s2 i lanes sc fun s2 =>
            finish (commitEntries (commitLanes s2 th lanes) th es sc) i g.cost

/-- `ste` (R274, R192). -/
def execSte (x : LForm) (s : State) : Host.Outcome State Fault Refusal :=
  withIssuer s fun th k =>
    let i := issL x th k
    operate s i [baseA x, srcB x, dataD x 1] [] (fun act => storeLanes (s.th th) act [x.a, x.b, x.d]) fun s1 g =>
      let ls := storeLanes (s.th th) g.act [x.a, x.b, x.d]
      reachElems s s1 i ls (g.v 0) (g.v 1) (offC x) true fun s2 rs =>
        let sc (r : Nat × Reach) : Option Int := r.2.scale.map (scaleAt s2 th r.1)
        let disc (l : Nat) : Nat := match rs.find? (·.1 == l) with
          | some r => discardElem r.2.fmt (sc r) (g.v 2 l)
          | none => 0
        let rm := if 16 ≤ x.md.toNat then 4 else x.rn
        plainStore s s2 i g.cost (rs.flatMap (fun r => storeEntries s2 th r.1 r.2.start r.2
          (encodeElem r.2.fmt (sc r) rm (laneRnd (s.th th) g.act disc r.1) (g.v 2 r.1))))

/-- Clears the done mask of a `cst` (R276). -/
def cstFresh (t : Strand) : Strand := { t with qn := { t.qn with cstMask := 0, cstPc := 0 } }

/-- `cst` (R275, R276): active lanes to consecutive slots; the lanes that pass store, and the record names the done mask where
one fails. -/
def execCst (x : LForm) (s : State) : Host.Outcome State Fault Refusal :=
  withIssuer s fun th k =>
    let i := issL x th k
    let z := sizeZ x
    operate s i [baseA x, srcB x, dataD x (sizeRegs x)] [] (fun act => lanesOf (act &&& ~~~(s.th th).ln.helper)) fun s1 g =>
      let t := s.th th
      let pl := lanesOf (g.act &&& ~~~t.ln.helper)
      let b := laneAddr x z (g.v 0 0) (g.v 1 0)
      let pc := curPc t k
      let done := if t.qn.cstPc = pc then t.qn.cstMask else 0
      let addr (l : Nat) : Nat := (b + pl.idxOf l * z) % 2 ^ 64
      match checkLanes (fun s l => accessAt s th (addr l) z .write) s1 (pl.filter (fun l => !done.getLsbD l)) with
      | (rs, s2) =>
        match bufferStores s2 th (entriesOf s2 th (passed rs) (g.v 2)) with
        | .full m => stopThread (if t.qn.cstPc = pc then keepWalk s s2 else (keepWalk s s2).modTh th cstFresh) th { pc := pc, mask := m, cls := .qlog }
        | .wait => lockStall s s2 i
        | .done s3 =>
          match lanesFault 0 rs with
          | none => finish (s3.modTh th cstFresh) i g.cost
          | some (c, m) =>
            let s4 : State := { s3 with ths := s.ths }
            let s4 := s4.modTh th (fun t => { t with qn := { (s3.th th).qn with
              cstMask := done ||| maskOf ((passed rs).map (·.1)), cstPc := pc } })
            stopThread s4 th { pc := pc, addr := addr ((lanesOf m).headD 0), mask := m, cls := c, cstValid := true }

/-! ### The return of a load -/

/-- Whether an earlier load or atomic of the same thread that reads one of some bytes has not finished (R323, R327). -/
def readPending (s : State) (f : Flight) (pas : List Nat) : Bool :=
  s.fl.any (fun g => g.th == f.th && g.id < f.id && !g.done && (readsOf g).any pas.contains)

/-- Whether an earlier acquire of the lanes of an operation has not finished (R325). -/
def acquirePending (s : State) (f : Flight) : Bool := priorAcquire s f.th f.id f.lanes

/-- Whether a commit of the same core that an operation sees still has to write one of some bytes. -/
def commitPending (s : State) (f : Flight) (pas : List Nat) : Bool :=
  s.fl.any (fun g => seesCommit s f.core f.th f.id f.till g && (match g.work with
    | .commit secs _ => secs.any (fun x => !x.applied && pas.any (fun pa =>
        pa / 32 * 32 == x.pa && bitsOf x.mask (8 * (pa % 32)) 8 != 0))
    | _ => false))

/-- Whether a commit of the same core that came before an engine operation still has to write one of some bytes that it writes (R274). -/
def writePending (s : State) (f : Flight) (pas : List Nat) : Bool := commitPending s { f with till := f.id } pas

/-- The narrow releases that a remote-promote load reads through: line, core and release (R331). -/
def narrowOf (s : State) (pas : List Nat) : List (Nat × Nat × Nat) :=
  (pas.map (· / 128)).eraseDups.filterMap (fun n => (kget? s.ch.narrow n).map (fun e => (n, e.1, e.2)))

/-- A load's data returns (R273), an `abtest` writes its result (R304), or an acquire fence ends (R328). -/
def execLoadDataReturn (f : Nat) (s : State) : Host.Outcome State Fault Refusal :=
  match s.flight? f with
  | none => .next s
  | some f =>
    if f.done then .next s
    else match f.work with
      | .load ls acq rp =>
        let pas := readsOf f
        if acquirePending s f || readPending s f pas || (3 ≤ acq && commitPending s f pas) || (rp && !(narrowOf s pas).isEmpty) then .next s
        else
          let ws := ls.flatMap (fun l => l.cells.zip (splitWords (loadValue s f acq l) l.cells.length))
          let from_ := readSync s f pas
          let s := if acq = 0 then hbRead s f.th f.lanes from_ else acquired (if acq = 1 then s else hbAcquire s f.th f.lanes from_) f acq
          let s := (ls.filter (·.cached)).foldl (fun s l => l.pas.foldl (fun s pa => fillL1 s f.core f.ctx pa) s) s
          .next (finishFlight (landCells s f ws) f.id)
      | .abtest off target cell lanes =>
        if acquirePending s f then .next s
        else
          let ok := abReached s (s.th f.th).pl.wg off target
          let s := if ok then hbHold (acquired s f 2) f.th { mask := lanes, hold := .arrival off target } else s
          let ws := (lanesOf lanes).map (fun l => (cell + l, if ok then 1#32 else 0#32))
          .next (finishFlight (s.modTh f.th (fun t => { t with rg := t.rg.poke ws })) f.id)
      | .fence =>
        if s.fl.any (fun g => g.th == f.th && g.id < f.id && !g.done && g.lanes &&& f.lanes != 0 && (!(readsOf g).isEmpty || acquires g)) then
          .next s
        else .next (finishFlight (hbFence (acquired s f 3) f.th f.lanes) f.id)
      | _ => .next s

/-! ### Commits at their homes -/

/-- Applies one sector of a commit at its home at one instant (R317): the leaf entry's D bit first (R265), the committing core's
own L1 copy with it (R261), and the line's narrow release (R331). -/
def applySector (s : State) (f : Flight) (secs : List SectorW) (rel n : Nat) : State :=
  match secs[n]? with
  | none => s
  | some x =>
    let s := setDirty s x.leaf
    let line := x.pa / 128
    let data (y : L1Line) : List Byte := (List.range 128).map (fun j =>
      let b := (y.data.getD j 0).toNat
      let a := line * 128 + j
      if x.pa ≤ a ∧ a < x.pa + 32 then
        let m := bitsOf x.mask (8 * (a - x.pa)) 8
        BitVec.ofNat 8 ((b &&& (255 ^^^ m)) ||| (bitsOf x.data (8 * (a - x.pa)) 8 &&& m))
      else y.data.getD j 0)
    let l1 := s.ch.l1.map (fun y => if y.core == f.core && y.line == line then { y with data := data y } else y)
    let narrow := if 1 ≤ rel ∧ rel ≤ 3 then kset s.ch.narrow line (f.core, f.id) else kdel s.ch.narrow line
    let secs := secs.set n { x with applied := true }
    let after := if rel = 2 then (priorWrites s f.th f.id f.lanes f.hb).map (·.id) else []
    let bytes := ((List.range 32).filter (fun j => bitsOf x.mask (8 * j) 8 != 0)).map (x.pa + ·)
    let heads := bytes.foldl (fun m a => if after == [] then kdel m a else kset m a after) s.ord.rel
    let s := { s with mem := memMask s.mem x.pa 32 x.mask x.data, ch := { s.ch with l1 := l1, narrow := narrow },
                      ord := { s.ord with rel := heads } }
    let s := (wroteRows s bytes).modFlight f.id (fun f => { f with work := .commit secs rel })
    if secs.all (·.applied) then finishFlight s f.id else s

/-- Whether a sector of a commit may be applied (R317, R321, R323, R324): nothing of its core comes before it in the sector, the
thread's earlier reads of its bytes are done, no engine lock holds it, and a release of cluster scope or wider comes after what it
releases. -/
def canApply (s : State) (f : Flight) (rel : Nat) (x : SectorW) : Bool :=
  !x.applied &&
  !s.fl.any (fun g => g.core == f.core && g.id < f.id && (match g.work with
    | .commit ys _ => ys.any (fun y => !y.applied && y.pa == x.pa) | _ => false)) &&
  !readPending s f (((List.range 32).filter (fun j => bitsOf x.mask (8 * j) 8 != 0)).map (x.pa + ·)) && !sectorLocked s f x &&
  !(3 ≤ rel && homeWaits s f.th f.id f.lanes f.hb)

/-- A committed store is applied at its home (R317), once the other compute die holds no copy of its line (R400). -/
def execStoreApply (f n : Nat) (s : State) : Host.Outcome State Fault Refusal :=
  match s.flight? f with
  | none => .next s
  | some f =>
    match f.work with
    | .commit secs rel =>
      match secs[n]? with
      | some x => if canApply s f rel x then .next (atHome s [x.pa] (applySector s f secs rel n)) else .next s
      | none => .next s
    | _ => .next s

/-- Applies what may be applied of one commit; the homes test every value on the way (R381). -/
def drainFlight (s : State) (id : Nat) : State :=
  match s.flight? id with
  | none => s
  | some f => match f.work with
    | .commit secs _ => (List.range secs.length).foldl (fun s n =>
        match s.flight? id with
        | some f => (match f.work with
          | .commit secs rel => (match secs[n]? with
            | some x => if canApply s f rel x then watchTest (atHome s [x.pa] (applySector s f secs rel n)) else s
            | none => s)
          | _ => s)
        | none => s) s
    | _ => s

/-- The home asks the releasing core to apply what it committed up to the release, for a remote-promote load (R331); once all of
it is applied the line's number clears. -/
def execRemotePromotion (f : Nat) (s : State) : Host.Outcome State Fault Refusal :=
  match s.flight? f with
  | none => .next s
  | some f =>
    match f.work with
    | .load ls _ rp =>
      if f.done || !rp then .next s
      else .next ((narrowOf s (ls.flatMap (·.pas))).foldl (fun s e =>
        let ids := (s.fl.filter (fun g => g.core == e.2.1 && g.id ≤ e.2.2)).map (·.id)
        let s := ids.foldl drainFlight s
        if undrained s e.2.1 (e.2.2 + 1) then s else { s with ch := { s.ch with narrow := kdel s.ch.narrow e.1 } }) s)
    | _ => .next s

end Sys2Proof.Machine
end

