-- ==== Sys2Proof/Machine/Atomic.lean ====
section
/-!
DEFINITION. Atomics (R278, R279, R322) and common memory (R283 to R292): `atom`, `red`, the CMM lane and range operations, and
their performance at the homes.
The instants at which these effects happen are those of log 11 (DEDUCED).
-/

namespace Sys2Proof.Machine

/-! ### Values -/

/-- FP32 addition to nearest even (R202). -/
def faddV (a b : Nat) : Nat := (roundTo fp32 0 0 (sumFV 0 [decodeF fp32 a, decodeF fp32 b]).1).1

/-- An FP32 operand of an exact cell: trunc(x × 2^128) as an integer, or none for FORMAT (R287). -/
def exactOperand (v : Nat) : Option Int :=
  match decodeF fp32 v with
  | .fin n m e =>
    let sh := e + 128
    let k : Nat := if 0 ≤ sh then m * 2 ^ sh.toNat else m / 2 ^ (-sh).toNat
    if 2 ^ 255 ≤ k then none else some (if n then -(k : Int) else k)
  | _ => none

/-- The new value of a location (Table 14-13, R288). Operations 0 to 15 are those of `atom`; 16 and 17 add to and take the
maximum with an exact cell; 32 more marks an operation of common memory. -/
def atomV (op m v cmp : Nat) : Nat :=
  match op % 32 with
  | 0 => (m + v) % 2 ^ 32
  | 1 => (m + v) % 2 ^ 64
  | 2 => minV 32 m v
  | 3 => maxV 32 m v
  | 4 => Nat.min m v
  | 5 => Nat.max m v
  | 6 => Nat.land m v
  | 7 => Nat.lor m v
  | 8 => Nat.xor m v
  | 9 => v
  | 10 => v
  | 11 => if m = cmp then v else m
  | 12 => if m = cmp then v else m
  | 13 => faddV m v
  | 14 => minmaxF fp32 false m v
  | 15 => minmaxF fp32 true m v
  | 16 => (m + v) % 2 ^ 256
  | _ => maxV 256 m v

/-! ### Issue -/

/-- Whether some bytes overlap what any lane of a strand holds buffered (R322). -/
def overlapsQuanta (t : Strand) (pas : List Nat) : Bool :=
  (t.qn.buf ++ t.qn.log).any (fun e => pas.any (fun pa =>
    (e.half0 == pa / 8 * 8 && bitsOf e.mask (8 * (pa % 8)) 8 != 0) ||
    (e.half1 == pa / 8 * 8 && bitsOf e.mask (64 + 8 * (pa % 8)) 8 != 0)))

/-- The lanes whose quanta an atomic commits before it (Table 17-2, R322): every lane of the strand where its bytes overlap a buffered
store, else the group's lanes for a release. -/
def lanesBefore (t : Strand) (k : Nat) (rs : List (Nat × Reach)) (rel : Bool) : Word :=
  if overlapsQuanta t (rs.flatMap (·.2.pas)) then 0xFFFFFFFF else if rel then (t.grp k).mask else 0

/-- Issues an atomic operation on path C (R279). -/
def issueAtom (s0 s : State) (i : Iss) (cost op z scope order : Nat) (rs : List (Nat × Reach))
    (cells : Nat → List Nat) (v cmp : Nat → Nat) : State :=
  if rs.isEmpty then finish s i cost
  else
    let lanes := lanesBefore (s.th i.th) i.k rs (2 ≤ order)
    raising s0 s i (6 :: commitPath (s.th i.th) lanes) fun s =>
    releasing s0 s i ((s.th i.th).grp i.k).mask (if 2 ≤ order then scope else 0) fun s =>
    let s := commitLanes s i.th lanes
    let ls : List AtomLane := rs.map (fun r =>
      { lane := r.1, pa := r.2.pas.headD 0, cells := cells r.1, v := v r.1, cmp := cmp r.1, leaf := r.2.dirty })
    finish (newFlight s i.th [6] (ls.flatMap (·.cells)) (.atom op z scope order ls)).2 i cost

/-- The operand of an atomic: a pair for `cas.b32`, four registers for `cas.b64`, else a source of the operation's width. -/
def atomB (op : Nat) (b : Spec) : Opnd :=
  if op = 11 then { spec := b.toNat, regs := 2 }
  else if op = 12 then { spec := b.toNat, regs := 4 }
  else if op = 1 then wide b .s64
  else if op = 10 then wide b .b64
  else { spec := b.toNat, ty := if 13 ≤ op then .f32 else .w32 }

/-- An `atom` or `red` (R278, R279). -/
def atomOp (s : State) (x : LForm) (dst : Bool) : Host.Outcome State Fault Refusal :=
  withIssuer s fun th k =>
    let i := issL x th k
    let op := x.md.toNat / 2
    let z := atomZ op
    let n := z / 4
    let pick (act : Word) : List Nat :=
      let t := s.th th
      if dst then (if isS x.d.toNat then lanesOf (scalarLane t act) else lanesOf (act &&& ~~~t.ln.helper))
      else storeLanes t act [x.a, x.b]
    let dsts := if dst then (List.range n).map (· + x.d.toNat) else []
    operate s i [baseA x, atomB op x.b] dsts pick fun s1 g =>
      let addr (l : Nat) : Nat := wrapN ((g.v 0 l : Int) + sextN x.c.toNat 4 * z) 64
      reachLanes s s1 i (pick g.act) addr (fun s l => accessAt s th (addr l) z .atomic) fun s2 rs =>
        let cas := op == 11 || op == 12
        let v (l : Nat) : Nat := if cas then g.v 1 l / 2 ^ (8 * z) % 2 ^ (8 * z) else g.v 1 l % 2 ^ (8 * z)
        issueAtom s s2 i g.cost op z (strong s (s.th th).pl.ctx (scopeC x)) (bitsOf x.c.toNat 4 2) rs
          (fun l => if dst then destCells (s.th th) x.d.toNat n l else []) v (fun l => g.v 1 l % 2 ^ (8 * z))

/-- `atom` (R279). -/
def execAtom (x : LForm) (s : State) : Host.Outcome State Fault Refusal := atomOp s x true
/-- `red` (R279). -/
def execRed (x : LForm) (s : State) : Host.Outcome State Fault Refusal := atomOp s x false

/-! ### Performing -/

/-- Performs an atomic's lanes at their homes, ascending (R279); answers the words written to cells. -/
def atomLanes (op z : Nat) : List AtomLane → State → State × List (Nat × Word)
  | [], s => (s, [])
  | l :: ls, s =>
    let m := memNat s.mem l.pa z
    let s := setDirty s l.leaf
    let s := watchTest { s with mem := memPut s.mem l.pa z (atomV op m l.v l.cmp) }
    match atomLanes op z ls s with
    | (s, ws) => (s, l.cells.zip (splitWords m l.cells.length) ++ ws)

/-- A release atomic continues the release sequences of its bytes with its own (R330). -/
def hbContinue (s : State) (pas ids : List Nat) : State :=
  if ids == [] then s
  else { s with ord := { s.ord with rel := pas.foldl (fun m a => kset m a (stillOut s (kgetD m a []) ++ ids)) s.ord.rel } }

/-- An atomic is performed at its home (R279), and a signal's vector raised with it (R382): after its thread's earlier reads and acquires and its core's earlier commits to
its bytes, and for a release of cluster scope or wider after what it releases (R324), once the other compute die holds no copy of its lines (R400). -/
def execAtomicPerform (f : Nat) (s : State) : Host.Outcome State Fault Refusal :=
  match s.flight? f with
  | none => .next s
  | some f =>
    match f.work with
    | .atom op z scope order ls =>
      let pas := readsOf f
      if f.done || acquirePending s f || readPending s f pas || commitPending s f pas ||
        (2 ≤ order && 3 ≤ scope && homeWaits s f.th f.id f.lanes f.hb) then .next s
      else if !(copiesOf s pas).isEmpty then .next (atHome s pas s)
      else
        let from_ := readSync s f pas
        let after := (priorWrites s f.th f.id f.lanes f.hb).map (·.id)
        match atomLanes op z ls s with
        | (s, ws) =>
          let s := dropLines (wroteRows s pas) f.core pas
          let mark (m : KMap (Nat × Nat)) (n : Nat) := if scope ≤ 3 then kset m n (f.core, f.id) else kdel m n
          let lines := (pas.map (· / 128)).eraseDups
          let s := if order < 2 then s else { s with ch := { s.ch with narrow := lines.foldl mark s.ch.narrow } }
          let s := if order = 1 ∨ order = 3 then acquired (if scope = 1 then s else hbAcquire s f.th f.lanes from_) f scope
            else hbRead s f.th f.lanes from_
          let s := if 2 ≤ order ∧ scope = 2 then hbContinue s pas after else s
          let s := match f.vec with | some v => raiseVector s (s.ctx f.ctx).fn v | none => s
          .next (finishFlight (landCells s f ws) f.id)
    | _ => .next s

/-! ### Common memory: lane operations -/

/-- Whether a CMM type is one of exact cells. -/
def cmExact (ty : Nat) : Bool := ty == 3 || ty == 4

/-- A CMM lane operation's access (R288): PROT outside the common window or on a cell of the other kind. -/
def cmAt (s : State) (th a ty : Nat) : Except FClass Reach × State :=
  let z := if cmExact ty then 32 else 4
  if a % z ≠ 0 then (.error .align, s)
  else if spaceOf a ≠ 4 then (.error .prot, s)
  else match resolve s th a .atomic with
    | (.error e, s) => (.error e, s)
    | (.ok l, s) =>
      if l.exact != cmExact ty then (.error .prot, s)
      else if lockHit s th a z true then (.error .locked, s)
      else (.ok { pas := (List.range z).map (l.pa + ·), path := 6, space := 4, leaf := none, start := a, width := 8 * z }, s)

/-- The operation of a CMM lane operation as one of `atomV`. -/
def cmCode (mx : Bool) (ty : Nat) : Nat :=
  32 + match ty with
  | 0 => if mx then 3 else 0
  | 1 => 5
  | 2 => if mx then 15 else 13
  | _ => if mx then 17 else 16

/-- What a lane's operand contributes, or none for FORMAT (Table 15-4, R287). -/
def cmOperand (ty v : Nat) : Option Nat :=
  match ty with
  | 3 => some (wrapN (sextN v 32 * 2 ^ 128) 256)
  | 4 => (exactOperand v).map (fun w => wrapN w 256)
  | _ => some v

/-- `cm.add` or `cm.max` (R288). -/
def cmLane (s : State) (x : LForm) (mx : Bool) : Host.Outcome State Fault Refusal :=
  withIssuer s fun th k =>
    let i := issL x th k
    let z : Nat := if cmExact x.ty then 32 else 4
    operate s i [baseA x, { spec := x.b.toNat, ty := if x.ty = 2 ∨ x.ty = 4 then .f32 else .w32 }] []
      (fun act => storeLanes (s.th th) act [x.a, x.b]) fun s1 g =>
      let ls := storeLanes (s.th th) g.act [x.a, x.b]
      let addr (l : Nat) : Nat := wrapN ((g.v 0 l : Int) + offC x * z) 64
      reachLanes s s1 i ls addr (fun s l => cmAt s th (addr l) x.ty) fun s2 rs =>
        let bad := (rs.map (·.1)).filter (fun l => (cmOperand x.ty (g.v 1 l)).isNone)
        if !bad.isEmpty then faultAt (keepWalk s s2) th k .format (maskOf bad) 0 0
        else issueAtom s s2 i g.cost (cmCode mx x.ty) z 4 0 rs (fun _ => []) (fun l => (cmOperand x.ty (g.v 1 l)).getD 0) (fun _ => 0)

/-- `cm.add` (R288). -/
def execCmAdd (x : LForm) (s : State) : Host.Outcome State Fault Refusal := cmLane s x false
/-- `cm.max` (R288). -/
def execCmMax (x : LForm) (s : State) : Host.Outcome State Fault Refusal := cmLane s x true

/-! ### Common memory: range operations -/

/-- The flat addresses of a range of n elements at a common offset, where it lies in the extent of its kind (R289). -/
def cmRangeAt (c : Context) (o n z : Nat) (exact : Bool) : Option (List Nat) :=
  ((List.range n).map (fun j => match commonAt c (o + j * z) with
    | some (pa, ex) => if ex == exact then some pa else none
    | none => none)).mapM id

/-- Whether two ranges of common offsets overlap. -/
def cmOverlap (o p n z : Nat) : Bool := n != 0 && o < p + n * z && p < o + n * z

/-- A CMM range operation (R289): minor 2 to 5. Its scalars are read at issue. -/
def cmRange (s : State) (x : LForm) (minor : Nat) : Host.Outcome State Fault Refusal :=
  withIssuer s fun th k =>
    let i := issL x th k
    let f32 := x.ty == 2
    let srcs : List Opnd := [srcA x, if minor = 2 ∨ minor = 5 then srcB x else { spec := 479 }, srcC x,
      if minor = 5 then { spec := 479 } else { spec := x.d.toNat, ty := if f32 && minor == 4 then .f32 else .w32 }]
    operate s i srcs [] (fun act => lanesOf (scalarLane (s.th th) act)) fun s1 g =>
      let c := s.ctx (s.th th).pl.ctx
      let grp := ((s.th th).grp k).mask
      let y := g.v 0 0
      let xo := g.v 1 0
      let n := g.v 2 0
      let ex := cmExact x.ty
      let zs := if ex then 32 else 4
      let yEx := minor == 5 && x.ty == 3 || minor == 4 && ex
      let zy := if yEx then 32 else 4
      let two := minor == 2 || minor == 5
      let stop (cl : FClass) (o : Nat) : State := faultAt s th k cl grp (spaceBase 4 + o) 0
      if 2 ^ 24 < n then illegalAt s th k grp
      else if y % zy ≠ 0 then stop .align y
      else if two && xo % zs != 0 then stop .align xo
      else
        let yn := if minor = 5 then 1 else n
        match cmRangeAt c y yn zy yEx, cmRangeAt c xo (if two then n else 0) zs ex with
        | none, _ => stop .prot y
        | _, none => stop .prot xo
        | some ys, some xs =>
          if minor == 2 && y != xo && cmOverlap y xo n 4 then illegalAt s th k grp
          else raising s s1 i [6] fun s1 =>
            finish (newFlight s1 th [6] [] (.cmRange minor x.ty (g.v 3 0) ys xs [])).2 i g.cost

/-- `cm.axpy` (R289). -/
def execCmAxpy (x : LForm) (s : State) : Host.Outcome State Fault Refusal := cmRange s x 2
/-- `cm.scale` (R289). -/
def execCmScale (x : LForm) (s : State) : Host.Outcome State Fault Refusal := cmRange s x 3
/-- `cm.fill` (R289). -/
def execCmFill (x : LForm) (s : State) : Host.Outcome State Fault Refusal := cmRange s x 4
/-- `cm.sum` (R289). -/
def execCmSum (x : LForm) (s : State) : Host.Outcome State Fault Refusal := cmRange s x 5

/-- One element of `cm.axpy` or `cm.scale` (R289): one rounding, to nearest even. -/
def cmStep (minor ty al x y : Nat) : Nat :=
  if ty = 2 then
    if minor = 2 then (roundTo fp32 0 0 (fmaFV 0 (decodeF fp32 al) (decodeF fp32 x) (decodeF fp32 y)).1).1
    else (roundTo fp32 0 0 (mulFV (decodeF fp32 al) (decodeF fp32 y)).1).1
  else if minor = 2 then (al * x + y) % 2 ^ 32 else al * y % 2 ^ 32

/-- A rounded accumulator value (R197): V × 2^−128 × scale in a format. -/
def accRound (fm : Fmt) (rm rnd : Nat) (v : Int) (scale : FV) : Nat :=
  match mulFV (.fin (v < 0) v.natAbs (-128)) scale with
  | (.fin n m e, _) => if m = 0 then 0 else (roundTo fm rm rnd (.fin n m e)).1
  | (r, _) => (roundTo fm rm rnd r).1

/-- The result of a `cm.sum` of the values of its elements, ascending (R289). -/
def cmSumV (ty : Nat) (vs : List Nat) : Nat :=
  match ty with
  | 0 => vs.foldl (· + ·) 0 % 2 ^ 32
  | 2 => vs.foldl faddV 0x80000000
  | 3 => vs.foldl (· + ·) 0 % 2 ^ 256
  | _ => accRound fp32 0 0 (sextN (vs.foldl (· + ·) 0) 256) (.fin false 1 0)

/-- The common-memory bank of a flat address (R283). -/
def bankOf (pa : Nat) : Nat := (pa - 2 ^ 53) / 2 ^ 18

/-- The elements of a range, by flat address, whose step may come next (R289): each bank's lowest one that has not been performed. -/
def cmNext (es : List Nat) (got : List (Nat × Nat)) : List Nat :=
  (((List.range es.length).zip es).foldl (fun acc e =>
    if got.any (·.1 == e.1) || acc.any (fun a => bankOf a.2 == bankOf e.2) then acc else acc ++ [e]) []).map (·.1)

/-- Ends the narrow release of a line that is written, and the release sequences of its bytes, by no read-modify-write (R330, R331). -/
def endNarrow (s : State) (pas : List Nat) : State :=
  { s with ch := { s.ch with narrow := (pas.map (· / 128)).eraseDups.foldl kdel s.ch.narrow },
           ord := { s.ord with rel := pas.foldl kdel s.ord.rel } }

/-- Performs element n of a range operation at its bank as one step (R289, R330); answers the value that a sum reads of it. -/
def cmElem (s : State) (minor ty v : Nat) (ys xs : List Nat) (n : Nat) : Nat × State :=
  let y := ys.getD n 0
  let x := xs.getD n 0
  match minor with
  | 5 => (memNat s.mem x (cmSize 5 ty false), s)
  | 4 =>
    let val := if ty = 3 then wrapN (sextN v 32 * 2 ^ 128) 256 else v
    (0, endNarrow { s with mem := memPut s.mem y (cmSize 4 ty true) val } [y])
  | _ =>
    let xv := if minor = 2 then memNat s.mem x 4 else 0
    (0, { s with mem := memPut s.mem y 4 (cmStep minor ty v xv (memNat s.mem y 4)) })

/-- Writes the result of a `cm.sum` (R289). -/
def cmSumPut (s : State) (ty : Nat) (ys : List Nat) (n : Nat) (got : List (Nat × Nat)) : State :=
  let r := cmSumV ty ((List.range n).map (fun j => ((got.find? (·.1 == j)).map (·.2)).getD 0))
  ys.foldl (fun s y => endNarrow { s with mem := memPut s.mem y (cmSize 5 ty true) r } [y]) s

/-- The banks perform a range operation (R289, R292), element by element, each bank in ascending order, the bank by a free choice; once
every element has been performed, a sum is written and path C falls. -/
def execCmRangeCompletion (f : Nat) (s : State) : Host.Outcome State Fault Refusal :=
  match s.flight? f with
  | none => .next s
  | some f =>
    match f.work with
    | .cmRange minor ty v ys xs got =>
      if f.done || acquirePending s f || readPending s f (readsOf f) || commitPending s f (readsOf f) then .next s
      else
        let es := if minor = 5 then xs else ys
        let next := cmNext es got
        match next with
        | [] => .next (finishFlight (if minor = 5 && xs != [] then cmSumPut s ty ys xs.length got else s) f.id)
        | _ =>
          let (c, s) := s.freeNat
          let n := next.getD (c % next.length) 0
          let (r, s) := cmElem s minor ty v ys xs n
          let got := got ++ [(n, r)]
          let s := s.modFlight f.id (fun f => { f with work := .cmRange minor ty v ys xs got })
          if got.length < es.length || minor = 5 then .next s else .next (finishFlight s f.id)
    | _ => .next s

end Sys2Proof.Machine
end

