-- ==== Sys2Proof/Machine/Cfg.lean ====
section
/-!
DEFINITION. The CFG instructions: number-format registers (R180 to R183) and codebooks (R184 to R187).
Corners that these rules leave to be inferred are read as log 9 says (DEDUCED).
-/

namespace Sys2Proof.Machine

/-- `nfset` (R183). -/
def execNfset (x : LForm) (s : State) : Host.Outcome State Fault Refusal :=
  withIssuer s fun th k =>
    let i := issL x th k
    operate s i [srcA x] [] readActive fun s1 g =>
      let v := g.v 0 0
      if nfValid v then
        finish (s1.modTh th (fun t => { t with ct := { t.ct with nf := t.ct.nf.set x.rn (BitVec.ofNat 32 v) } })) i g.cost
      else faultAt s th k .format ((s.th th).grp k).mask 0 0

/-- `nfget` (R183). -/
def execNfget (x : LForm) (s : State) : Host.Outcome State Fault Refusal :=
  withIssuer s fun th k =>
    let i := issL x th k
    operate s i [] [x.d.toNat] readActive fun s1 g =>
      let v := ((s.th th).ct.nf.getD x.rn 0).toNat
      finish (putQuiet s1 i x.d.toNat g.act 4 g.cost (fun _ => v)) i g.cost

/-- Whether a BF16 code may stand in a codebook: ±0, or a magnitude of at least 2^−16 and below 2^16 (R184). -/
def cbEntryOk (c : Nat) : Bool := c % 2 ^ 15 == 0 || (111 ≤ bitsOf c 7 8 && bitsOf c 7 8 ≤ 142)

/-- `cbld` (R186): checks the entries; the thread's next instruction is held until the slot is replaced. -/
def execCbld (x : LForm) (s : State) : Host.Outcome State Fault Refusal :=
  withIssuer s fun th k =>
    let i := issL x th k
    operate s i [{ spec := x.a.toNat, regs := 8 }] [] readActive fun s1 g =>
      let e := (List.range 16).map (fun j => bitsOf (g.v 0 0) (16 * j) 16)
      if e.all cbEntryOk then
        let (id, s2) := newFlight s1 th [] [] (.cbld (s.th th).pl.ctx (x.b.toNat % 64) e)
        holdFlight s2 i id g.cost
      else faultAt s th k .format ((s.th th).grp k).mask 0 0

/-- The instant at which a codebook slot is replaced: no operation of the context holds a capture of it (R186). -/
def execCbldInstant (f : Nat) (s : State) : Host.Outcome State Fault Refusal :=
  match s.flight? f with
  | none => .next s
  | some f =>
    match f.work with
    | .cbld ctx slot e =>
      if f.done || s.fl.any (fun g => g.ctx == ctx && !g.done && g.caps.contains slot) then .next s
      else .next (finishFlight (s.modCtx ctx (fun c => { c with cb := kset c.cb slot e })) f.id)
    | _ => .next s

/-- `cbrd` (R187). -/
def execCbrd (x : LForm) (s : State) : Host.Outcome State Fault Refusal :=
  withIssuer s fun th k =>
    let i := issL x th k
    operate s i [] [] readActive fun s1 g =>
      let e := codebook s (s.th th).pl.ctx (x.b.toNat % 64)
      finish ((List.range 8).foldl (fun s j =>
        putScalar s i (x.d.toNat + j) 4 g.cost (e.getD (2 * j) 0 + e.getD (2 * j + 1) 0 * 2 ^ 16)) s1) i g.cost

end Sys2Proof.Machine
end

