-- ==== Sys2Proof/Machine/Cmp.lean ====
section
/-!
DEFINITION. Compares and k registers CMP (R215 to R217).
-/

namespace Sys2Proof.Machine

/-- A k register as a source: a plain number 0..7 (R215). -/
def srcK (n : Spec) : Opnd := { spec := 512 + n.toNat % 8 }

/-- A CMP instruction whose result is one bit of k register d in each active lane (R217). -/
def kOp (s : State) (x : LForm) (srcs : List Opnd) (f : Nat → (Nat → Nat) → Bool) : Host.Outcome State Fault Refusal :=
  withIssuer s fun th k =>
    let i := issL x th k
    operate s i srcs [] readActive fun s g =>
      finish (putK s i x.d.toNat g.act 4 g.cost (fun l => f l (fun n => g.v n l))) i g.cost

/-- A compare: a k register, or with VAL a value of 1 or 0 (R216, R217). -/
def cmpOp (s : State) (x : LForm) (srcs : List Opnd) (f : Nat → Nat → Nat → Bool) : Host.Outcome State Fault Refusal :=
  let cond := x.c.toNat % 8
  if x.c.toNat / 8 % 2 = 1 then aluL s x 4 srcs (fun v => if f cond (v 0) (v 1) then 1 else 0)
  else kOp s x srcs (fun _ v => f cond (v 0) (v 1))

/-- The condition of an integer compare on integers (R216). -/
def icond (cond : Nat) (a b : Int) : Bool :=
  match cond with
  | 0 => a == b
  | 1 => a != b
  | 2 => a < b
  | 3 => a ≤ b
  | 4 => b < a
  | _ => b ≤ a

/-- Sources of an integer compare: 32-bit, or pairs of a type. -/
def cmpSrcs (x : LForm) : List Opnd := if is64 x then [wide x.a (intTy x), wide x.b (intTy x)] else [srcA x, srcB x]

/-- `icmp` (R217). -/
def execIcmp (x : LForm) (s : State) :=
  cmpOp s x (cmpSrcs x) (fun c a b => icond c (sextN a (intW x)) (sextN b (intW x)))
/-- `icmpu` (R217). -/
def execIcmpu (x : LForm) (s : State) := cmpOp s x (cmpSrcs x) (fun c a b => icond c a b)
/-- `fcmp` (R217). -/
def execFcmp (x : LForm) (s : State) :=
  cmpOp s x [{ spec := x.a.toNat, ty := .f32 }, { spec := x.b.toNat, ty := .f32 }] fcond
/-- `fclass` (R217). -/
def execFclass (x : LForm) (s : State) :=
  kOp s x [{ spec := x.a.toNat, ty := .f32 }] (fun _ v => bitOf x.c.toNat (fclassOf (v 0)))
/-- `kand` (R217). -/
def execKand (x : LForm) (s : State) := kOp s x [srcK x.a, srcK x.b] (fun _ v => v 0 != 0 && v 1 != 0)
/-- `kor` (R217). -/
def execKor (x : LForm) (s : State) := kOp s x [srcK x.a, srcK x.b] (fun _ v => v 0 != 0 || v 1 != 0)
/-- `kxor` (R217). -/
def execKxor (x : LForm) (s : State) := kOp s x [srcK x.a, srcK x.b] (fun _ v => (v 0 != 0) != (v 1 != 0))
/-- `kinv` (R217). -/
def execKinv (x : LForm) (s : State) := kOp s x [srcK x.a] (fun _ v => v 0 == 0)

/-- The lanes of the group whose bit of a k source is set. Helper lanes are among them: R217 names every lane of the group, while R96 takes
helpers out of what ballots count, and says of `kpop` alone that it leaves them out (DEDUCED, log 9). -/
def kBallot (s : State) (th k : Nat) (g : Given) : Word :=
  maskOf ((lanesOf ((s.th th).grp k).mask).filter (fun l => g.v 0 l != 0))

/-- `kmov`, by its mode: a value, a mask, a value out of a k register, or a ballot (R217). -/
def execKmov (x : LForm) (s : State) : Host.Outcome State Fault Refusal :=
  match x.c.toNat with
  | 0 => kOp s x [srcA x] (fun _ v => v 0 != 0)
  | 1 => kOp s x [srcA x] (fun l v => bitOf (v 0) l)
  | 2 => aluL s x 4 [srcK x.a] (fun v => v 0)
  | _ =>
    withIssuer s fun th k =>
      let i := issL x th k
      operate s i [srcK x.a] [] readActive fun s g =>
        finish (putDst s i x.d.toNat x.tr g.act 4 g.cost (fun _ => (kBallot s th k g).toNat)) i g.cost

/-- `kpop`: counts the group's lanes, helpers left out, whose bit is set (R217). -/
def execKpop (x : LForm) (s : State) : Host.Outcome State Fault Refusal :=
  withIssuer s fun th k =>
    let i := issL x th k
    operate s i [srcK x.a] [x.d.toNat] (fun _ => lanesOf ((s.th th).grp k).mask) fun s g =>
      let n := (lanesOf (kBallot s th k g &&& ~~~(s.th th).ln.helper)).length
      finish (putDst s i x.d.toNat x.tr g.act 4 g.cost (fun _ => n)) i g.cost

end Sys2Proof.Machine
end

