-- ==== Sys2Proof/Machine/Frm.lean ====
section
/-!
DEFINITION. Register frames and the reel: the transfers that frame operations need (R106 to R112), the frame instructions
(R115 to R119), and loop queues (R156 to R158).
Corners that these rules leave to be inferred are read as log 9 says (DEDUCED).
-/

namespace Sys2Proof.Machine

/-! ### Transfers -/

/-- A strand's address of a lane-ply or link record: as an offset of its lane-private region (R113). -/
def Need.off (n : Need) (t : Trans) : Nat :=
  if n.link then linkArea t + (n.idx * 32 + n.lane) * 8 else (n.idx * 32 + n.lane) * 32

/-- The generic lane-private address of a transfer (R110, R113). -/
def Need.addr (n : Need) (s : State) (th : Nat) : Nat :=
  let t := s.th th
  spaceBase 1 + t.pl.region + n.off (s.transTh t)

/-- The bytes of a link record (Table 6-4). -/
def linkBytes (r : LinkRec) : List Byte :=
  leBytes 8 (r.ret % 2 ^ 24 + r.ob8 % 64 * 2 ^ 24 + r.size % 64 * 2 ^ 30 + r.depth % 4096 * 2 ^ 48)

/-- A link record from its bytes. -/
def linkOf (v : Nat) : LinkRec :=
  { depth := bitsOf v 48 12, size := bitsOf v 30 6, ob8 := bitsOf v 24 6, ret := bitsOf v 0 24 }

/-- The cells of a lane-ply. -/
def plyCells (t : Strand) (v l : Nat) : List Nat := (List.range 8).map (fun i => vrCell t.rg (8 * v + i) l)

/-- The bytes that a payout writes: the lane-ply's registers or the link record. -/
def payBytes (t : Strand) (n : Need) : List Byte :=
  if n.link then linkBytes (kgetD t.rg.links (n.idx * 32 + n.lane) { depth := 0, size := 0, ob8 := 0, ret := 0 })
  else (plyCells t n.idx n.lane).flatMap (fun c => leBytes 4 (t.rg.final c).toNat)

/-- The flat address of a transfer, or the class with which it fails (R110). -/
def Need.loc (n : Need) (s : State) (th : Nat) : Except FClass Nat × State :=
  let t := s.th th
  deviceLoc s t.pl.ctx ((s.ctx t.pl.ctx).poolBase + t.pl.region + n.off (s.transTh t)) (if n.pay then .write else .read)

/-- Marks a transfer stuck with a class (R110). -/
def markStuck (s : State) (th : Nat) (n : Need) (c : FClass) : State :=
  let k : Stuck := { link := n.link, idx := n.idx, lane := n.lane, cls := c, addr := n.addr s th }
  s.modTh th (fun t => { t with rg := { t.rg with
    stuck := k :: t.rg.stuck.filter (fun x => !(x.link == n.link && x.idx == n.idx && x.lane == n.lane)) } })

/-- Whether two names are those of one lane-ply or link record. -/
def Stuck.of (x : Stuck) (n : Need) : Bool := x.link == n.link && x.idx == n.idx && x.lane == n.lane

/-- Puts a lane-ply, or a link record, that was read from memory back into the lane's column (R107); memory still holds it too. -/
def haulPut (t : Strand) (n : Need) (v : Nat) : Strand :=
  if n.link then
    { t with rg := { t.rg with links := kset t.rg.links (n.idx * 32 + n.lane) (linkOf v),
                               kept := (n.idx, n.lane) :: t.rg.kept.filter (· ≠ (n.idx, n.lane)) } }
  else
    { t with rg := { t.rg.poke ((plyCells t n.idx n.lane).zip ((List.range 8).map (fun i => BitVec.ofNat 32 (v / 2 ^ (32 * i))))) with
      clean := (n.idx, n.lane) :: t.rg.clean.filter (· ≠ (n.idx, n.lane)) } }

/-- Bytes of a lane-ply or a link record. -/
def Need.len (n : Need) : Nat := if n.link then 8 else 32

/-- The lines for whose snoops a transfer of the reel waits (R400): a payout while the other compute die holds a copy, a haul-in while
bytes of the device's own wait for that die's answer. -/
def reelWaits (s : State) (th : Nat) (n : Need) : List Nat :=
  match (n.loc s th).1 with
  | .ok pa => (copiesOf s (rangeFrom pa (pa + n.len))).filter (fun k => n.pay || s.io.parked.any (fun e => e.1 / 128 == k))
  | .error _ => []

/-- Carries out a transfer of the reel, or marks it stuck (R107, R110): a payout leaves its lane-ply or record resident and clean; a
haul-in for a frame operation reads memory and keeps what it read until the operation moves the window. Answers what was read. -/
def reelMove (s : State) (th : Nat) (n : Need) : Option Nat × State :=
  match n.loc s th with
  | (.error c, s) => (none, markStuck s th n c)
  | (.ok pa, s) =>
    let s := s.modTh th (fun t => { t with rg := { t.rg with stuck := t.rg.stuck.filter (fun x => !x.of n) } })
    if n.pay then
      let t := s.th th
      let va := (s.ctx t.pl.ctx).poolBase + t.pl.region + n.off (s.transTh t)
      let s := match walk s t.pl.ctx va with | some l => setDirty s [l.at_] | none => s
      let s := (((List.range n.len).zip (payBytes t n)).map (fun (p : Nat × Byte) => (pa + p.1, p.2))).foldl (fun s e => physByte s e.1 e.2) s
      (some 0, s.modTh th (fun t => { t with rg :=
        if n.link then { t.rg with kept := (n.idx, n.lane) :: t.rg.kept.filter (· ≠ (n.idx, n.lane)) }
        else { t.rg with clean := (n.idx, n.lane) :: t.rg.clean.filter (· ≠ (n.idx, n.lane)) } }))
    else (some (memNat s.mem pa n.len), s)

/-- The first transfer of a kind that a strand's frame operation still needs (R107). -/
def nextNeed (t : Strand) (pay : Bool) : Option Need := t.rg.need.find? (fun n => n.pay == pay)

/-- A transfer begins: its range enters the core's range-lock table, and it waits while the table is full (R111, R299). -/
def startXfer (s : State) (th : Nat) (n : Need) (ahead : Bool) : State :=
  let t := s.th th
  if !lockRoom s t.pl.core then s
  else
    let (id, s) := s.newId
    let r : LockRange := { space := 0, lo := (s.ctx t.pl.ctx).poolBase + t.pl.region + n.off (s.transTh t), len := n.len, write := n.pay }
    (addLock s t.pl.core t.pl.ctx id [r]).modTh th (fun t => { t with rg := { t.rg with xfer := some { need := n, id := id, ahead := ahead } } })

/-- The transfer under way of a strand ends, done or abandoned: its lock is released (R111, R112). -/
def endXfer (s : State) (th : Nat) : State :=
  match (s.th th).rg.xfer with
  | none => s
  | some x => (dropLock s x.id).modTh th (fun t => { t with rg := { t.rg with xfer := none } })

/-- A transfer that a frame operation needs is made (R107): it is no longer asked for. -/
def makeNeed (s : State) (th : Nat) (n : Need) : State :=
  match reelMove s th n with
  | (r, s) => s.modTh th (fun t =>
    let rg := { t.rg with need := t.rg.need.filter (· ≠ n) }
    { t with rg := match r with
      | none => { rg with failed := n :: rg.failed }
      | some v => if n.pay then rg else { rg with got := (n, v) :: rg.got } })

/-- A step of a transfer that a frame operation needs: one that is under way is made, once no snoop holds it, or else the first one needed
begins (R107, R111, R400).
A halted strand's reel starts none (R112). -/
def reelStep (s : State) (th : Nat) (pay : Bool) : State :=
  let t := s.th th
  match t.rg.xfer with
  | some x =>
    if x.ahead || x.need.pay != pay || lockWaits s x.id then s
    else if !t.rg.need.contains x.need then refresh (endXfer s th) th
    else match reelWaits s th x.need with
      | [] => refresh (makeNeed (endXfer s th) th x.need) th
      | ls => ls.foldl snoop s
  | none => if t.ps.halted then s else match nextNeed t pay with
    | some n => startXfer s th n false
    | none => s

/-- A payout that a frame operation needs begins, or is made or marked stuck (R107, R110, R111). -/
def execReelPayout (th : Nat) (s : State) : Host.Outcome State Fault Refusal := .next (reelStep s th true)

/-- A haul-in that a frame operation needs begins, or is made or marked stuck (R107, R110, R111). -/
def execReelHaulIn (th : Nat) (s : State) : Host.Outcome State Fault Refusal := .next (reelStep s th false)

/-- The ply above every frame that a lane's calls hold (R102, R114): the greatest top of its current frame and of those of its callers.
A frame whose link record is not resident has at most the header's limit of plies. -/
def chainTop (t : Strand) (m l : Nat) : Nat :=
  let f := t.frame l
  let r := (rangeFrom f.linkLow f.depth).reverse.foldl (fun (acc : Nat × Nat) d =>
    let k := kgetD t.rg.links (d * 32 + l) { depth := 0, size := 1, ob8 := 0, ret := 0 }
    (acc.1 - k.ob8, Nat.max acc.2 (acc.1 - k.ob8 + k.size))) (f.base, f.base + f.size)
  if f.linkLow = 0 then r.2 else Nat.max r.2 (r.1 + m)

/-- The transfer with which the reel works ahead of need in a lane, where R108 has one. A ply above a lane's current frame that belongs to
a caller's frame is not dead, as haul-in ahead changes no value that a program reads (R109; DEDUCED, log 9). -/
def aheadNeed (t : Strand) (m lane : Nat) (x : ReelAhead) : Option Need :=
  let f := t.frame lane
  if t.pl.kind != .strand || !t.live.getLsbD lane || t.ps.halted then none
  else match x with
    | .payPly => if f.lo + t.rg.qf ≤ f.base + f.size + 1 ∧ !t.rg.clean.contains (f.lo, lane) then
        some { pay := true, link := false, idx := f.lo, lane := lane } else none
    | .payLink => if f.depth = f.linkLow + 16 ∧ !t.rg.kept.contains (f.linkLow, lane) then
        some { pay := true, link := true, idx := f.linkLow, lane := lane } else none
    | .haulPly => if 0 < f.lo ∧ chainTop t m lane ≤ f.lo + t.rg.qf - 1 then
        some { pay := false, link := false, idx := f.lo - 1, lane := lane } else none
    | .haulLink => if 0 < f.linkLow ∧ f.depth < f.linkLow + 16 then
        some { pay := false, link := true, idx := f.linkLow - 1, lane := lane } else none

/-- A haul-in ahead puts what it read into the lane's column and lowers lo or link low by one (R108). -/
def haulAhead (t : Strand) (n : Need) (v : Nat) : Strand :=
  let t := haulPut t n v
  let f := t.frame n.lane
  t.setFrame n.lane (if n.link then { f with linkLow := f.linkLow - 1 } else { f with lo := f.lo - 1 })

/-- The reel works one ply or link record ahead of need in a live lane (R108): a transfer begins, or is made where it is still ahead of
need; it changes no value that a program reads. -/
def execReelWorkAhead (th lane : Nat) (x : ReelAhead) (s : State) : Host.Outcome State Fault Refusal :=
  let t := s.th th
  let due := aheadNeed t (s.transTh t).frame lane x
  match t.rg.xfer, due with
  | none, some n => .next (startXfer s th n true)
  | none, none => .next s
  | some y, _ =>
    if !y.ahead || y.need.lane != lane || lockWaits s y.id then .next s
    else if due ≠ some y.need then .next (if (aheadNeed t (s.transTh t).frame lane (aheadOf y.need)).isNone then endXfer s th else s)
    else match reelWaits s th y.need with
      | [] => (match reelMove (endXfer s th) th y.need with
        | (none, s) => .next s
        | (some v, s) => .next (if y.need.pay then s else s.modTh th (fun t => haulAhead t y.need v)))
      | ls => .next (ls.foldl snoop s)
where
  /-- The kind of work ahead that a transfer belongs to. -/
  aheadOf (n : Need) : ReelAhead :=
    if n.pay then (if n.link then .payLink else .payPly) else (if n.link then .haulLink else .haulPly)

/-- Whether a transfer that a frame operation needs is made: memory holds the lane-ply or record as it stands, or it has been read. -/
def needMet (rg : Regs) (n : Need) : Bool :=
  if n.pay then (if n.link then rg.kept.contains (n.idx, n.lane) else rg.clean.contains (n.idx, n.lane))
  else rg.got.any (·.1 == n)

/-- Carries out a frame operation that needs transfers (R107, R110): they are asked of the reel, the operation is issued again
when they are done, and one that has failed stops it with the class of the lowest such lane. The handler's ring is never paid
out (R344). `body` runs once nothing is missing, from the state in which the operands have been popped; it is given what was hauled in. -/
def withReel (s s1 : State) (i : Iss) (needs : List Need) (frees : Bool) (body : State → (Need → Nat) → State) : State :=
  let t := s.th i.th
  let clear (s : State) : State := s.modTh i.th (fun t => { t with rg := { t.rg with got := [], failed := [] } })
  let missing := needs.filter (fun n => !needMet t.rg n)
  if missing.isEmpty then body (clear s1) (fun n => ((t.rg.got.find? (·.1 == n)).getD (n, 0)).2)
  else if t.pl.kind == .handler then
    faultAt s i.th i.k .frame (maskOf (missing.map (·.lane))) 0 0
  else
    let bad := (missing.filter t.rg.failed.contains).filterMap (fun n => t.rg.stuck.find? (fun x => x.of n))
    match sortBy (fun x : Stuck => x.lane) bad with
    | [] => holdGroup (s.modTh i.th (fun t => { t with rg := { t.rg with need := missing } })) i.th i.k .reel false frees i.size
    | b :: _ =>
      stopThread (clear s) i.th { pc := curPc t i.k, addr := b.addr, cls := b.cls, stuck := true,
                                  mask := maskOf ((bad.filter (·.cls == b.cls)).map (·.lane)) }

/-! ### Windows -/

/-- The payouts that raise a lane's frame top to a ply (R107). -/
def payFor (t : Strand) (l top : Nat) : List Need :=
  let f := t.frame l
  (rangeFrom f.lo (top - t.rg.qf)).map (fun v => { pay := true, link := false, idx := v, lane := l })

/-- The haul-ins that lower a lane's frame base to a ply (R107). -/
def haulFor (t : Strand) (l base : Nat) : List Need :=
  (rangeFrom base (t.frame l).lo).map (fun v => { pay := false, link := false, idx := v, lane := l })

/-- Makes plies of a lane read as zero (R109). -/
def zeroPlies (t : Strand) (l : Nat) (vs : List Nat) : Strand :=
  let cs := vs.flatMap (fun v => plyCells t v l)
  { t with rg := { (t.rg.poke (cs.map (fun c => (c, 0)))).settle cs.contains with
    clean := t.rg.clean.filter (fun e => !(e.2 == l && vs.contains e.1)) } }

/-- Sets a lane's frame size: plies above the old top read as zero (R109, R116), and the window moves (R107). -/
def resize (t : Strand) (l size : Nat) : Strand :=
  let f := t.frame l
  let lo := max f.lo (f.base + size - t.rg.qf)
  let t := zeroPlies t l (rangeFrom (f.base + f.size) (f.base + size))
  let t := { t with rg := { t.rg with clean := t.rg.clean.filter (fun e => !(e.2 == l && e.1 < lo)) } }
  t.setFrame l { f with size := size, lo := lo }

/-! ### frame, grow, trim, flush -/

/-- The operand of a frame instruction in a lane. -/
def frmVal (g : Given) (l : Nat) : Nat := g.v 0 l

/-- `frame`, `grow` and `trim` (R116): new size, limit of the operand, whether the wait frees the issue slot. -/
def sizeOp (s : State) (x : LForm) (hi : Nat) (frees : Bool) (ok : Nat → Nat → Nat → Bool) (new : Nat → Nat → Nat) :
    Host.Outcome State Fault Refusal :=
  withIssuer s fun th k =>
    let i := issL x th k
    operate s i [srcAt x] [] readActive fun s1 g =>
      let t := s.th th
      let m := (s.transTh t).frame
      let ls := lanesOf g.act
      let odd := ls.filter (fun l => g.v 0 l < 1 || hi < g.v 0 l)
      let bad := ls.filter (fun l => !ok m (t.frame l).size (g.v 0 l))
      if !odd.isEmpty then faultAt s th k .illegal (maskOf odd) 0 0
      else if !bad.isEmpty then faultAt s th k .frame (maskOf bad) 0 0
      else
        let needs := ls.flatMap (fun l => payFor t l ((t.frame l).base + new (t.frame l).size (g.v 0 l)))
        withReel s s1 i needs frees fun s _ =>
          finish (s.modTh th (fun t => ls.foldl (fun t l => resize t l (new (t.frame l).size (g.v 0 l))) t)) i g.cost
where
  /-- Field a as the size operand. -/
  srcAt (x : LForm) : Opnd := { spec := x.a.toNat }

/-- `frame` (R116). -/
def execFrame (x : LForm) (s : State) := sizeOp s x 40 false (fun m _ v => v ≤ m) (fun _ v => v)
/-- `grow` (R116). -/
def execGrow (x : LForm) (s : State) := sizeOp s x 39 true (fun m sz v => sz + v ≤ m) (fun sz v => sz + v)
/-- `trim` (R116). -/
def execTrim (x : LForm) (s : State) := sizeOp s x 39 false (fun _ sz v => v + 1 ≤ sz) (fun sz v => sz - v)

/-- `grow.try`: lanes whose payouts are already clean grow, the others are reported in kq (R117), which the next instruction
reads, as Table 2-10 gives FRM no latency (R38). -/
def execGrowTry (x : LForm) (s : State) : Host.Outcome State Fault Refusal :=
  withIssuer s fun th k =>
    let i := issL x th k
    operate s i [{ spec := x.a.toNat }] [] readActive fun s1 g =>
      let t := s.th th
      let m := (s.transTh t).frame
      let ls := lanesOf g.act
      let odd := ls.filter (fun l => g.v 0 l < 1 || 39 < g.v 0 l)
      let bad := ls.filter (fun l => m < (t.frame l).size + g.v 0 l)
      let able (l : Nat) : Bool :=
        (payFor t l ((t.frame l).base + (t.frame l).size + g.v 0 l)).all (fun n =>
          t.rg.clean.contains (n.idx, l) && !t.rg.stuck.any (fun x => !x.link && x.idx == n.idx && x.lane == l))
      if !odd.isEmpty then faultAt s th k .illegal (maskOf odd) 0 0
      else if !bad.isEmpty then faultAt s th k .frame (maskOf bad) 0 0
      else
        let s := putK s1 i (x.md.toNat % 8) g.act 0 g.cost (fun l => !able l)
        finish (s.modTh th (fun t => (ls.filter able).foldl (fun t l => resize t l ((t.frame l).size + g.v 0 l)) t)) i g.cost

/-- The payouts of every resident ply below base in some lanes (R118, R119, R158). -/
def payBelow (t : Strand) (ls : List Nat) : List Need :=
  ls.flatMap (fun l => (rangeFrom (t.frame l).lo (t.frame l).base).map (fun v => { pay := true, link := false, idx := v, lane := l }))

/-- The plies of every lane's window from its base on move to where another ring size puts them, with the results that have still to land in
them; lo becomes base in the live lanes
(R118, R158). -/
def reRing (t : Strand) (rg : Regs) : Strand :=
  let low (l : Nat) : Nat := if t.live.getLsbD l then (t.frame l).base else (t.frame l).lo
  let vals := (List.range 32).flatMap (fun l => (List.range (8 * min t.rg.qf rg.qf)).filterMap (fun j =>
    let v := t.rg.final (vrCell t.rg (8 * low l + j) l)
    if v = 0 then none else some (vrCell rg (8 * low l + j) l, v)))
  let clean := t.rg.clean.filter (fun e => low e.2 ≤ e.1 && e.1 < low e.2 + rg.qf)
  let pend := t.rg.pend.filterMap (fun p =>
    if 0x20000 ≤ p.cell then some p
    else
      let l := cellLane p.cell
      let vr := cellVr t.rg (t.frame l).lo p.cell
      if 8 * low l ≤ vr && vr < 8 * (low l + rg.qf) then some { p with cell := vrCell rg vr l } else none)
  let t' := { t with rg := { rg with cells := kclear rg.cells 0 0x20000 } }
  let t' := { t' with rg := { t'.rg.poke vals with clean := clean, pend := pend } }
  (lanesOf t.live).foldl (fun t l => t.setFrame l { t.frame l with lo := low l }) t'

/-- The live lanes of a strand as a list. -/
def liveLanes (t : Strand) : List Nat := lanesOf t.live

/-- `grow.ring`: grows the strand's ring from the quadrant's free plies (R118). -/
def execGrowRing (x : LForm) (s : State) : Host.Outcome State Fault Refusal :=
  withIssuer s fun th k =>
    let i := issL x th k
    operate s i [{ spec := x.a.toNat }] [] readActive fun s g =>
      let t := s.th th
      let q := g.v 0 0
      let free := if t.pl.kind == .strand then freePlies s t.pl.ctx t.pl.core t.pl.quad t.pl.half else []
      if q < 8 ∨ 256 < q then faultAt s th k .illegal g.act 0 0
      else if q ≤ t.rg.q ∨ free.length < q - t.rg.q then finish (putScalar s i x.d.toNat 0 g.cost t.rg.q) i g.cost
      else
        withReel s s i (payBelow t (liveLanes t)) false fun s _ =>
          let s := s.modTh th (fun t => reRing t
            { t.rg with q := q, plymap := t.rg.plymap ++ free.take (q - t.rg.q) })
          finish (putScalar s i x.d.toNat 0 g.cost q) i g.cost

/-- `flush`: pays out every resident ply below base and every link record of the active lanes (R119). -/
def execFlush (x : LForm) (s : State) : Host.Outcome State Fault Refusal :=
  withIssuer s fun th k =>
    let i := issL x th k
    operate s i [] [] readActive fun s g =>
      let t := s.th th
      let ls := lanesOf g.act
      let recs : List Need := ls.flatMap (fun l => (rangeFrom (t.frame l).linkLow (t.frame l).depth).map (fun d =>
        { pay := true, link := true, idx := d, lane := l }))
      withReel s s i (payBelow t ls ++ recs) false fun s _ =>
        finish (s.modTh th (fun t => ls.foldl (fun t l =>
          let f := t.frame l
          let t := { t with rg := { t.rg with
            clean := t.rg.clean.filter (fun e => !(e.2 == l && e.1 < f.base)),
            links := t.rg.links.filter (fun e => e.1 % 32 != l),
            kept := t.rg.kept.filter (fun e => e.2 != l) } }
          t.setFrame l { f with lo := f.base, linkLow := f.depth }) t)) i g.cost

/-! ### Loop queues -/

/-- Clears the rows of a loop queue, with the results that have still to land in them. -/
def Regs.clearLq (r : Regs) (n : Nat) : Regs :=
  { r.settle (fun c => lqCell n 0 0 ≤ c && c < lqCell n 8 0) with cells := kclear r.cells (lqCell n 0 0) (lqCell n 8 0) }

/-- `lqset`: sets a loop queue's depth, taking a ply from the ring if it was unset (R158). -/
def execLqset (x : LForm) (s : State) : Host.Outcome State Fault Refusal :=
  withIssuer s fun th k =>
    let i := issL x th k
    operate s i [{ spec := x.a.toNat }] [] readActive fun s g =>
      let t := s.th th
      let n := x.d.toNat - 448
      let dep := g.v 0 0
      let zero (r : Regs) : Regs := r.clearLq n
      let set (r : Regs) : Regs := { zero r with lqs := kset r.lqs n { depth := dep } }
      if dep < 1 ∨ 8 < dep then faultAt s th k .illegal g.act 0 0
      else if (kget? t.rg.lqs n).isSome then finish (s.modTh th (fun t => { t with rg := set t.rg })) i g.cost
      else if t.rg.q - t.rg.lqs.length < max 8 (s.transTh t).frame + 1 then faultAt s th k .queue (t.grp k).mask 0 0
      else
        withReel s s i (payBelow t (liveLanes t)) false fun s _ =>
          finish (s.modTh th (fun t => reRing t (set t.rg))) i g.cost

/-- `lqclr`: unsets a loop queue and returns its ply to the frame ring (R158). -/
def execLqclr (x : LForm) (s : State) : Host.Outcome State Fault Refusal :=
  withIssuer s fun th k =>
    let i := issL x th k
    operate s i [] [] readActive fun s g =>
      let t := s.th th
      let n := x.d.toNat - 448
      if (kget? t.rg.lqs n).isNone then finish s i g.cost
      else
        withReel s s i (payBelow t (liveLanes t)) false fun s _ =>
          finish (s.modTh th (fun t => reRing t
            { t.rg.clearLq n with lqs := kdel t.rg.lqs n })) i g.cost

end Sys2Proof.Machine
end

