-- ==== Sys2Proof/Machine/Ctl.lean ====
section
/-!
DEFINITION. Control instructions: branches and their target checks (R22, R134 to R136), calls and returns (R121, R122), knots
(R131), `exit`, `done`, `take`, `yield`, `nop` (R92 to R99), `trap` and `brk` (R350), and group rotation (R128).
Corners that these rules leave to be inferred are read as log 9 says (DEDUCED).
-/

namespace Sys2Proof.Machine

/-! ### Ends of threads -/

/-- Leaves the operations in flight of a thread that has ended to themselves: their results go nowhere. -/
def orphan (s : State) (th : Nat) : State :=
  { s with fl := s.fl.map (fun f => if f.th = th then { f with th := 2 ^ 20 + th, dests := [] } else f) }

/-- The pending stops of a context on a core, in stop order (R346, HPEND). -/
def pendingStops (s : State) (core ctx : Nat) : List Nat := (s.core core).pending.filter (fun n => (s.th n).pl.ctx == ctx)

/-- Ends a handler run or a queue thread whose last live lane has exited (R344, R379). A handler's slot goes on serving its context
while that has stops pending on the core. -/
def threadEnd (s : State) (th : Nat) : State :=
  let t := s.th th
  match t.pl.kind with
  | .strand => s
  | .handler =>
    let s := orphan (freeIssue s th) th
    let left := !(pendingStops s t.pl.core t.pl.ctx).isEmpty
    { s.modCore t.pl.core (fun c => { c with serves := if left then some t.pl.ctx else none }) with ths := kdel s.ths th }
  | .queue =>
    let s := orphan (freeIssue (queueState s (queueOf th) 4) th) th
    { s with ths := kdel s.ths th }

/-! ### Offsets and targets -/

/-- The 27-bit offset of `bra` and `call` (R120, R134). -/
def ctlOff (x : LForm) : Int :=
  sextN (x.a.toNat + x.b.toNat % 8 * 2 ^ 9 + x.b.toNat / 8 * 2 ^ 12 + x.c.toNat * 2 ^ 18) 27

/-- A parcel offset reached from another by a signed number of parcels. A direct branch or call to a place below the window's start counts
as one to parcel 2 to the 24, past its end: it stops with TARGET, as R135 says of `jmp`, and names that parcel's address (DESIGN CHOICE,
log 17). -/
def reachPc (pc : Nat) (off : Int) : Nat := if (pc : Int) + off < 0 then 2 ^ 24 else ((pc : Int) + off).toNat

/-- A target or the class and address with which a lane fails. -/
abbrev Target := Except (FClass × Nat) Nat

/-- Checks that a parcel offset is a clause header (R22). -/
def headerAt (s : State) (th off : Nat) : Target × State :=
  match checkTarget s th off with
  | (none, s) => (.ok off, s)
  | (some c, s) => (.error (c, codeVa s (s.th th).pl.code off), s)

/-- The parcel offset of entry e of table t of a translation, where the table has it (R60, R62). -/
def entryAt (tr : Trans) (tb e : Nat) : Option Nat :=
  match tr.tabs[tb]? with
  | none => none
  | some l =>
    if l.length ≤ e then none
    else some ((tr.off + tr.tabOff) / 4 + ((tr.tabs.take tb).map (fun l => l.length + 1)).foldl (· + ·) 0 + 1 + e)

/-- The translation that holds a parcel of a thread's code object, or the one that the thread was started on (R68). -/
def transAt (s : State) (t : Strand) (pc : Nat) : Trans :=
  match (kgetD s.codes t.pl.code {}).trans.find? (fun e => e.2.off ≤ 4 * pc && 4 * pc < e.2.off + e.2.len) with
  | some e => e.2
  | none => s.transTh t

/-- The translation in force of a thread's code object (R68). -/
def transNew (s : State) (t : Strand) : Trans :=
  let c := kgetD s.codes t.pl.code {}
  kgetD c.trans c.cur {}

/-- The entry that an index selects in a target table of a translation, checked to be a clause header (R136, R121, R22). -/
def tableTarget (s : State) (th : Nat) (tr : Trans) (tb idx : Nat) : Target × State :=
  let t := s.th th
  if idx = 0 then (.error (.target, 0), s)
  else match entryAt tr tb idx with
    | none => (.error (.target, 0), s)
    | some o => match codeRead s t.pl.ctx t.pl.code o false with
      | (.error c, s) => (.error (c, codeVa s t.pl.code o), s)
      | (.ok w, s) => headerAt s th w.toNat

/-- Finds the target of each lane of a list. -/
def targetsOf (f : State → Nat → Target × State) : State → List Nat → List (Nat × Target) × State
  | s, [] => ([], s)
  | s, l :: ls =>
    match f s l with
    | (r, s) => match targetsOf f s ls with
      | (rs, s) => ((l, r) :: rs, s)

/-- The class and address of the lowest failing lane, and the lanes that fail with its class (R22). -/
def targetFault (rs : List (Nat × Target)) : Option (FClass × Nat × Word) :=
  let bad := rs.filterMap (fun e => match e.2 with | .ok _ => none | .error c => some (e.1, c))
  match bad with
  | [] => none
  | b :: _ => some (b.2.1, b.2.2, maskOf ((bad.filter (fun x => x.2.1 == b.2.1)).map (·.1)))

/-- The destination of each lane of a group: its target where it acts, else the next clause (R126). -/
def destsOf (t : Strand) (k : Nat) (rs : List (Nat × Target)) : List (Nat × Nat) :=
  (lanesOf (t.grp k).mask).map (fun l => match rs.find? (·.1 == l) with
    | some (_, .ok d) => (l, d)
    | _ => (l, nextClause t k))

/-- A branch of the acting lanes to their targets (R22, R126). With no acting lane no target is checked (DEDUCED, log 9). -/
def branchTo (s0 s : State) (i : Iss) (act : Word) (f : State → Nat → Target × State) : State :=
  match targetsOf f s (lanesOf act) with
  | (rs, s1) =>
    match targetFault rs with
    | some (c, a, m) => faultAt (keepWalk s0 s1) i.th i.k c m a 0
    | none => transfer s1 i.th i.k act (destsOf (s1.th i.th) i.k rs)

/-- Continues the group at the next clause. -/
def contNext (s : State) (th k : Nat) (yld : Bool) : State :=
  let t := s.th th
  let g := { t.grp k with pc := nextClause t k, st := .runnable, w := false, hold := .free }
  endClause (s.modTh th (fun t => t.setGrp k (some g))) th k yld

/-! ### Branches -/

/-- The short branch (R134). -/
def execBrs (x : BrsForm) (s : State) : Host.Outcome State Fault Refusal :=
  withIssuer s fun th k =>
    let i : Iss := { th := th, k := k, size := 1, st := x.st.toNat, gk := x.k.toNat, gneg := x.neg }
    operate s i [] [] readActive fun s1 g =>
      branchTo s s1 i g.act (fun s _ => headerAt s th (reachPc (curPc (s.th th) k) (sextN x.off.toNat 17)))

/-- `bra` (R134). -/
def execBra (x : LForm) (s : State) : Host.Outcome State Fault Refusal :=
  withIssuer s fun th k =>
    let i := issL x th k
    operate s i [] [] readActive fun s1 g =>
      branchTo s s1 i g.act (fun s _ => headerAt s th (reachPc (curPc (s.th th) k) (ctlOff x)))

/-- `jmp` (R135). -/
def execJmp (x : LForm) (s : State) : Host.Outcome State Fault Refusal :=
  withIssuer s fun th k =>
    let i := issL x th k
    operate s i [{ spec := x.a.toNat }] [] readActive fun s1 g =>
      branchTo s s1 i g.act (fun s _ => headerAt s th (g.v 0 0))

/-- The table number of `brx` and `callx`. -/
def tableNo (x : LForm) : Nat := x.b.toNat + x.md.toNat % 2 * 512

/-- `brx` (R136). -/
def execBrx (x : LForm) (s : State) : Host.Outcome State Fault Refusal :=
  withIssuer s fun th k =>
    let i := issL x th k
    operate s i [{ spec := x.a.toNat }] [] readActive fun s1 g =>
      if (transAt s (s.th th) (curPc (s.th th) k)).tabs.length ≤ tableNo x then faultAt s th k .target g.act 0 0
      else branchTo s s1 i g.act (fun s l => tableTarget s th (transAt s (s.th th) (curPc (s.th th) k)) (tableNo x) (g.v 0 l))

/-! ### Calls and returns -/

/-- The lanes that a call would take past a limit (R121). -/
def callFrame (s : State) (t : Strand) (ob8 : Nat) (ls : List Nat) : Word :=
  let tr := s.transTh t
  maskOf (ls.filter (fun l =>
    let f := t.frame l
    f.size < ob8 + 1 || tr.depth < f.depth + 1 || tr.fplies < f.base + ob8 + tr.frame))

/-- Writes the link record of a calling lane and moves its frame (R121). -/
def callLane (ob8 : Nat) (ret : Nat → Nat) (t : Strand) (l : Nat) : Strand :=
  let f := t.frame l
  let low := if f.depth = f.linkLow + 16 then f.linkLow + 1 else f.linkLow
  let links := if f.depth = f.linkLow + 16 then kdel t.rg.links (f.linkLow * 32 + l) else t.rg.links
  let r : LinkRec := { depth := f.depth, size := f.size, ob8 := ob8, ret := ret l }
  let kept := t.rg.kept.filter (fun e => e ≠ (f.depth, l) && !(f.depth == f.linkLow + 16 && e == (f.linkLow, l)))
  let t := { t with rg := { t.rg with links := kset links (f.depth * 32 + l) r, kept := kept } }
  t.setFrame l { f with base := f.base + ob8, size := 1, depth := f.depth + 1, linkLow := low }

/-- A call of the acting lanes to their targets, each with its own return point (R121). -/
def callTo (s0 s : State) (i : Iss) (act : Word) (ob8 : Nat) (ret : Nat → Nat) (f : State → Nat → Target × State) : State :=
  match targetsOf f s (lanesOf act) with
  | (rs, s1) =>
    let t := s1.th i.th
    let ds := destsOf t i.k rs
    let bad := callFrame s1 t ob8 (lanesOf act)
    match targetFault rs with
    | some (c, a, m) => faultAt (keepWalk s0 s1) i.th i.k c m a 0
    | none =>
      if bad ≠ 0 then faultAt (keepWalk s0 s1) i.th i.k .frame bad 0 0
      else if (divide t (s1.transTh t).forks i.k (gather ds)).isNone then faultAt (keepWalk s0 s1) i.th i.k .frame act 0 0
      else
        let needs : List Need := ((lanesOf act).filter (fun l => (t.frame l).depth == (t.frame l).linkLow + 16)).map
          (fun l => { pay := true, link := true, idx := (t.frame l).linkLow, lane := l })
        withReel s1 s1 i needs false fun s2 _ =>
          transfer (s2.modTh i.th (fun t => (lanesOf act).foldl (callLane ob8 ret) t)) i.th i.k act ds

/-- `call` (R121). -/
def execCall (x : LForm) (s : State) : Host.Outcome State Fault Refusal :=
  withIssuer s fun th k =>
    let i := issL x th k
    operate s i [] [] readActive fun s1 g =>
      callTo s s1 i g.act x.d.toNat (fun _ => nextClause (s.th th) k)
        (fun s _ => headerAt s th (reachPc (curPc (s.th th) k) (ctlOff x)))

/-- The return point of a `callx`: entry 0 of its table in the translation that calls (R68, R121, R22; DEDUCED, log 9). -/
def entryZero (s : State) (th k tb : Nat) : Target × State :=
  let t := s.th th
  match entryAt (transAt s t (curPc t k)) tb 0 with
  | none => (.error (.target, 0), s)
  | some o => match codeRead s t.pl.ctx t.pl.code o false with
    | (.ok w, s) => (.ok (w.toNat % 2 ^ 24), s)
    | (.error c, s) => (.error (c, codeVa s t.pl.code o), s)

/-- The target of a lane of a `callx`, of the table set in force; a lane fails too where the return point cannot be read (R121, R22). -/
def callxTarget (s : State) (th k tb idx : Nat) : Target × State :=
  match tableTarget s th (transNew s (s.th th)) tb idx with
  | (.error e, s) => (.error e, s)
  | (.ok d, s) => match entryZero s th k tb with
    | (.error e, s) => (.error e, s)
    | (.ok _, s) => (.ok d, s)

/-- `callx` (R121). -/
def execCallx (x : LForm) (s : State) : Host.Outcome State Fault Refusal :=
  withIssuer s fun th k =>
    let i := issL x th k
    operate s i [{ spec := x.a.toNat }] [] readActive fun s1 g =>
      let ret := match (entryZero s1 th k (tableNo x)).1 with | .ok r => r | .error _ => 0
      callTo s s1 i g.act x.d.toNat (fun _ => ret) (fun s l => callxTarget s th k (tableNo x) (g.v 0 l))

/-- The link record that a returning lane uses. -/
def retRec (t : Strand) (l : Nat) : LinkRec :=
  kgetD t.rg.links (((t.frame l).depth - 1) * 32 + l) { depth := 0, size := 1, ob8 := 0, ret := 2 ^ 24 }

/-- The lowest ply of a returning lane's window: its caller's base where that lies lower, and at least what the caller's top asks for
(R107, R122). -/
def retLow (t : Strand) (l : Nat) : Nat :=
  let f := t.frame l
  let r := retRec t l
  let base := f.base - r.ob8
  if base < f.lo then base else max f.lo (base + r.size - t.rg.qf)

/-- The transfers of plies that a returning lane needs (R107, R122). -/
def retNeeds (t : Strand) (l : Nat) : List Need :=
  haulFor t l ((t.frame l).base - (retRec t l).ob8) ++
    (rangeFrom (t.frame l).lo (retLow t l)).map (fun v => { pay := true, link := false, idx := v, lane := l })

/-- Restores a returning lane's frame (R122, R109): what lies above its window is dead. -/
def retLane (t : Strand) (l : Nat) : Strand :=
  let f := t.frame l
  let r := retRec t l
  let lo := retLow t l
  let rg := { t.rg with links := kdel t.rg.links ((f.depth - 1) * 32 + l), kept := t.rg.kept.filter (· ≠ (f.depth - 1, l)),
                        clean := t.rg.clean.filter (fun e => !(e.2 == l && (e.1 < lo || lo + t.rg.qf ≤ e.1))) }
  let t := { t with rg := rg }
  t.setFrame l { base := f.base - r.ob8, lo := lo, depth := f.depth - 1, size := r.size, linkLow := min f.linkLow (f.depth - 1) }

/-- The caller plies of returning lanes are hauled in, and the lanes return (R122). TARGET is reported ahead of a stuck ply (R110). -/
def returnPlies (s : State) (i : Iss) (act : Word) : State :=
  let ls := lanesOf act
  let t := s.th i.th
  match targetsOf (fun s l => headerAt s i.th (retRec t l).ret) s ls with
  | (rs, s1) =>
    let ds := destsOf (s1.th i.th) i.k rs
    match targetFault rs with
    | some (c, a, m) => faultAt s1 i.th i.k c m a 0
    | none =>
      if (divide t (s1.transTh t).forks i.k (gather ds)).isNone then faultAt s1 i.th i.k .frame act 0 0
      else
        let needs := ls.flatMap (retNeeds t)
        withReel s1 s1 i needs false fun s got =>
          let put (t : Strand) : Strand := (needs.filter (!·.pay)).foldl (fun t n => haulPut t n (got n)) t
          transfer (s.modTh i.th (fun t => (lanesOf act).foldl retLane (put t))) i.th i.k act ds

/-- A return of the acting lanes (R122): link records are hauled in first, then caller plies. A record that is stuck is reported before
any lane's TARGET, which its return point decides (DEDUCED, log 9). -/
def returnTo (s0 s : State) (i : Iss) (act : Word) : State :=
  let ls := lanesOf act
  let t := s.th i.th
  let shallow := maskOf (ls.filter (fun l => (t.frame l).depth == 0))
  if shallow ≠ 0 then faultAt s0 i.th i.k .frame shallow 0 0
  else
    let recs : List Need := (ls.filter (fun l => (t.frame l).depth ≤ (t.frame l).linkLow)).map
      (fun l => { pay := false, link := true, idx := (t.frame l).depth - 1, lane := l })
    if recs.isEmpty then returnPlies s i act
    else withReel s s i recs false fun s got =>
      returnPlies (s.modTh i.th (fun t => recs.foldl (fun t n =>
        let t := haulPut t n (got n)
        t.setFrame n.lane { t.frame n.lane with linkLow := min (t.frame n.lane).linkLow n.idx }) t)) i act

/-- `ret` under a guard (R122). -/
def execRet (x : LForm) (s : State) : Host.Outcome State Fault Refusal :=
  withIssuer s fun th k =>
    let i := issL x th k
    operate s i [] [] readActive fun s1 g => returnTo s s1 i g.act

/-- S-form `ret` (R122). -/
def execCtlsRet (st : BitVec 3) (s : State) : Host.Outcome State Fault Refusal :=
  withIssuer s fun th k =>
    let i : Iss := { th := th, k := k, size := 1, st := st.toNat }
    operate s i [] [] readActive fun s1 g => returnTo s s1 i g.act

/-! ### Lanes that end or idle -/

/-- Ends lanes of the issuing group (R98): their quanta commit. -/
def exitLanes (s : State) (th k size : Nat) (act : Word) : State :=
  withPaths s th k (commitPath (s.th th) act) size fun s =>
  let s := commitLanes s th act
  let s := s.modTh th (fun t => { t with ln := { t.ln with exited := t.ln.exited ||| act } })
  let s := leaveGroup s th k act
  if (s.th th).live = 0 then threadEnd s th else s

/-- Makes lanes of the issuing group idle (R92), or FRAME for those at a depth. -/
def idleLanes (s : State) (th k size : Nat) (act : Word) : State :=
  let t := s.th th
  let bad := maskOf ((lanesOf act).filter (fun l => (t.frame l).depth != 0))
  if bad ≠ 0 then faultAt s th k .frame bad 0 0
  else withPaths s th k (commitPath t act) size fun s =>
    let s := commitLanes s th act
    let s := s.modTh th (fun t => { t with ln := { t.ln with idle := t.ln.idle ||| act } })
    leaveGroup s th k act

/-- Hands items of the workgroup's queue to lanes, ascending, and answers the lanes served (R93). -/
def drawItems : List Nat → Nat → Nat → List (Nat × Nat)
  | [], _, _ => []
  | l :: ls, next, last => if next < last then (l, next) :: drawItems ls (next + 1) last else []

/-- `take` (R93). -/
def takeItems (s : State) (th k size : Nat) (act : Word) : State :=
  withPaths s th k (commitPath (s.th th) act) size fun s =>
  let s := commitLanes s th act
  let t := s.th th
  let hdr := match (t.slot k).clause with | some c => c.hdr | none => (t.grp k).pc
  let w := s.wg t.pl.wg
  let drawn := drawItems (lanesOf (t.ln.idle &&& ~~~t.ln.helper)) w.itemNext w.itemEnd
  let quads := drawn.map (·.1 / 4)
  let helpers := (lanesOf (t.ln.idle &&& t.ln.helper)).filter (fun l => quads.contains (l / 4))
  let items := helpers.foldl (fun it l => it.set l 0xFFFFFFFF#32)
    (drawn.foldl (fun it d => it.set d.1 (BitVec.ofNat 32 d.2)) t.ln.items)
  let added := maskOf (drawn.map (·.1) ++ helpers)
  let s := s.modWg t.pl.wg (fun w => { w with itemNext := w.itemNext + drawn.length })
  let t := { t with ln := { t.ln with idle := t.ln.idle &&& ~~~added, items := items, lh := some hdr } }
  let m := (t.grp k).mask ||| added
  let t := if m = 0 then t.setGrp k none
    else t.setGrp k (some { t.grp k with mask := m, pc := nextClause t k, st := .runnable })
  endClause (s.modTh th (fun _ => t)) th k false

/-- Parks the issuing group at its knot and merges it with a group parked there (R131). -/
def parkGroup (s : State) (th k : Nat) : State :=
  let t := s.th th
  let hdr := match (t.slot k).clause with | some c => c.hdr | none => (t.grp k).pc
  let at_ (g : Group) : Bool := g.st == .parked && g.pc == hdr
  let other := (t.slot (1 - k)).grp.filter at_
  let found := other.toList ++ t.ps.fork.filter at_
  let mask := found.foldl (fun m g => m ||| g.mask) (t.grp k).mask
  let g := { t.grp k with mask := mask, pc := hdr, st := .parked, w := false, hold := .free }
  let t := if other.isSome then t.setSlot (1 - k) {} else t
  let t := { t with ps := { t.ps with fork := t.ps.fork.filter (fun g => !at_ g) } }
  endClause (s.modTh th (fun _ => t.setGrp k (some g))) th k false

/-- Stops the acting lanes' group with TRAP or BRK; with no acting lane the group continues (R350). -/
def trapLanes (s : State) (i : Iss) (act : Word) (c : FClass) (code : Nat) : State :=
  if act = 0 then contNext s i.th i.k false else faultAt s i.th i.k c act 0 code

/-- Runs a body of an S-form control instruction with its issue and acting lanes. -/
def ctls (s : State) (st : BitVec 3) (f : State → Iss → Word → State) : Host.Outcome State Fault Refusal :=
  withIssuer s fun th k =>
    let i : Iss := { th := th, k := k, size := 1, st := st.toNat }
    operate s i [] [] readActive fun s g => f s i g.act

/-- Runs a body of an L-form control instruction. -/
def ctlL (s : State) (x : LForm) (f : State → Iss → Word → State) : Host.Outcome State Fault Refusal :=
  withIssuer s fun th k =>
    let i := issL x th k
    operate s i [] [] readActive fun s g => f s i g.act

/-- S-form `nop` (R99). -/
def execCtlsNop (st : BitVec 3) (s : State) := ctls s st (fun s i _ => finish s i 0)
/-- S-form `yield` (R99). -/
def execCtlsYield (st : BitVec 3) (s : State) := ctls s st (fun s i _ => contNext s i.th i.k true)
/-- S-form `knot` (R131). -/
def execCtlsKnot (st : BitVec 3) (s : State) := ctls s st (fun s i _ => parkGroup s i.th i.k)
/-- S-form `exit` (R98). -/
def execCtlsExit (st : BitVec 3) (s : State) := ctls s st (fun s i act => exitLanes s i.th i.k i.size act)
/-- S-form `done` (R92). -/
def execCtlsDone (st : BitVec 3) (s : State) := ctls s st (fun s i act => idleLanes s i.th i.k i.size act)
/-- S-form `brk` (R350). -/
def execCtlsBrk (st : BitVec 3) (s : State) := ctls s st (fun s i act => trapLanes s i act .brk 0)
/-- S-form `take` (R93). -/
def execCtlsTake (st : BitVec 3) (s : State) := ctls s st (fun s i act => takeItems s i.th i.k i.size act)

/-- L-form `nop` (R99). -/
def execNop (x : LForm) (s : State) := ctlL s x (fun s i _ => finish s i 0)
/-- L-form `yield` (R99). -/
def execYield (x : LForm) (s : State) := ctlL s x (fun s i _ => contNext s i.th i.k true)
/-- L-form `knot` (R131). -/
def execKnot (x : LForm) (s : State) := ctlL s x (fun s i _ => parkGroup s i.th i.k)
/-- L-form `exit` (R98). -/
def execExit (x : LForm) (s : State) := ctlL s x (fun s i act => exitLanes s i.th i.k i.size act)
/-- L-form `done` (R92). -/
def execDone (x : LForm) (s : State) := ctlL s x (fun s i act => idleLanes s i.th i.k i.size act)
/-- L-form `brk` (R350). -/
def execBrk (x : LForm) (s : State) := ctlL s x (fun s i act => trapLanes s i act .brk 0)
/-- L-form `take` (R93). -/
def execTake (x : LForm) (s : State) := ctlL s x (fun s i act => takeItems s i.th i.k i.size act)

/-- `trap` (R350). -/
def execTrap (x : LForm) (s : State) : Host.Outcome State Fault Refusal :=
  withIssuer s fun th k =>
    let i := issL x th k
    operate s i [{ spec := x.a.toNat }] [] readActive fun s g => trapLanes s i g.act .trap (g.v 0 0)

/-! ### Rotation -/

/-- Rotates the group of a slot to the bottom of the fork stack, where it has issued 1,024 clauses and a fork-stack entry is
runnable (R128). -/
def rotateSlot (t : Strand) (k : Nat) : Strand :=
  let p := t.slot k
  match p.grp, topRunnable t.ps.fork with
  | some g, some (x, rest) =>
    if p.clause.isNone && 1024 ≤ p.issued && g.st == .runnable then
      ({ t with ps := { t.ps with fork := rest ++ [g] } }).setSlot k { grp := some { x with clause := none }, clause := x.clause }
    else t
  | _, _ => t

/-- Group rotation (R128): slot 0 first. A strand that is stopped or halted holds every group as it stands (R137, R127). -/
def execGroupRotation (th : Nat) (s : State) : Host.Outcome State Fault Refusal :=
  .next (if (s.th th).ct.stopped || (s.th th).ps.halted then s else s.modTh th (fun t => rotateSlot (rotateSlot t 0) 1))

end Sys2Proof.Machine
end

