-- ==== Sys2Proof/Machine/Aes.lean ====
section
/-!
DEFINITION. AES-256 in GCM mode with a 96-bit IV and a 128-bit tag (R296): the published algorithm, which the spec names and does
not restate (PRESUMED, log 10).
-/

namespace Sys2Proof.Machine

/-- The substitution box of AES. -/
def sbox : List Nat :=
  [0x63, 0x7C, 0x77, 0x7B, 0xF2, 0x6B, 0x6F, 0xC5, 0x30, 0x01, 0x67, 0x2B, 0xFE, 0xD7, 0xAB, 0x76] ++
  [0xCA, 0x82, 0xC9, 0x7D, 0xFA, 0x59, 0x47, 0xF0, 0xAD, 0xD4, 0xA2, 0xAF, 0x9C, 0xA4, 0x72, 0xC0] ++
  [0xB7, 0xFD, 0x93, 0x26, 0x36, 0x3F, 0xF7, 0xCC, 0x34, 0xA5, 0xE5, 0xF1, 0x71, 0xD8, 0x31, 0x15] ++
  [0x04, 0xC7, 0x23, 0xC3, 0x18, 0x96, 0x05, 0x9A, 0x07, 0x12, 0x80, 0xE2, 0xEB, 0x27, 0xB2, 0x75] ++
  [0x09, 0x83, 0x2C, 0x1A, 0x1B, 0x6E, 0x5A, 0xA0, 0x52, 0x3B, 0xD6, 0xB3, 0x29, 0xE3, 0x2F, 0x84] ++
  [0x53, 0xD1, 0x00, 0xED, 0x20, 0xFC, 0xB1, 0x5B, 0x6A, 0xCB, 0xBE, 0x39, 0x4A, 0x4C, 0x58, 0xCF] ++
  [0xD0, 0xEF, 0xAA, 0xFB, 0x43, 0x4D, 0x33, 0x85, 0x45, 0xF9, 0x02, 0x7F, 0x50, 0x3C, 0x9F, 0xA8] ++
  [0x51, 0xA3, 0x40, 0x8F, 0x92, 0x9D, 0x38, 0xF5, 0xBC, 0xB6, 0xDA, 0x21, 0x10, 0xFF, 0xF3, 0xD2] ++
  [0xCD, 0x0C, 0x13, 0xEC, 0x5F, 0x97, 0x44, 0x17, 0xC4, 0xA7, 0x7E, 0x3D, 0x64, 0x5D, 0x19, 0x73] ++
  [0x60, 0x81, 0x4F, 0xDC, 0x22, 0x2A, 0x90, 0x88, 0x46, 0xEE, 0xB8, 0x14, 0xDE, 0x5E, 0x0B, 0xDB] ++
  [0xE0, 0x32, 0x3A, 0x0A, 0x49, 0x06, 0x24, 0x5C, 0xC2, 0xD3, 0xAC, 0x62, 0x91, 0x95, 0xE4, 0x79] ++
  [0xE7, 0xC8, 0x37, 0x6D, 0x8D, 0xD5, 0x4E, 0xA9, 0x6C, 0x56, 0xF4, 0xEA, 0x65, 0x7A, 0xAE, 0x08] ++
  [0xBA, 0x78, 0x25, 0x2E, 0x1C, 0xA6, 0xB4, 0xC6, 0xE8, 0xDD, 0x74, 0x1F, 0x4B, 0xBD, 0x8B, 0x8A] ++
  [0x70, 0x3E, 0xB5, 0x66, 0x48, 0x03, 0xF6, 0x0E, 0x61, 0x35, 0x57, 0xB9, 0x86, 0xC1, 0x1D, 0x9E] ++
  [0xE1, 0xF8, 0x98, 0x11, 0x69, 0xD9, 0x8E, 0x94, 0x9B, 0x1E, 0x87, 0xE9, 0xCE, 0x55, 0x28, 0xDF] ++
  [0x8C, 0xA1, 0x89, 0x0D, 0xBF, 0xE6, 0x42, 0x68, 0x41, 0x99, 0x2D, 0x0F, 0xB0, 0x54, 0xBB, 0x16]

/-- Substitutes a byte. -/
def subByte (b : Nat) : Nat := sbox.getD b 0

/-- Doubles an element of the byte field. -/
def xtime (b : Nat) : Nat := if b < 128 then 2 * b else Nat.xor (2 * b % 256) 0x1B

/-- Exclusive-or of two byte lists. -/
def xorBytes (a b : List Nat) : List Nat := (a.zip b).map (fun p => Nat.xor p.1 p.2)

/-- One further word of the key schedule from the words so far, the latest first. -/
def nextKeyWord (i : Nat) (ws : List (List Nat)) : List Nat :=
  let t := ws.headD []
  let t := if i % 8 = 0 then
      xorBytes ((t.drop 1 ++ t.take 1).map subByte) [2 ^ (i / 8 - 1) % 256, 0, 0, 0]
    else if i % 8 = 4 then t.map subByte else t
  xorBytes (ws.getD 7 []) t

/-- Extends the key schedule by n words from word i on, the latest first. -/
def expandKey : Nat → Nat → List (List Nat) → List (List Nat)
  | 0, _, ws => ws
  | n + 1, i, ws => expandKey n (i + 1) (nextKeyWord i ws :: ws)

/-- The sixty words of the AES-256 key schedule as bytes. -/
def keyBytes (key : List Nat) : List Nat :=
  let ws := (List.range 8).map (fun j => (key.drop (4 * j)).take 4)
  (expandKey 52 8 ws.reverse).reverse.flatMap id

/-- The round key of a round. -/
def roundKey (ks : List Nat) (r : Nat) : List Nat := (ks.drop (16 * r)).take 16

/-- The row shift of AES on a block whose byte 4c + r is row r of column c. -/
def shiftRows (b : List Nat) : List Nat := (List.range 16).map (fun i => b.getD ((i + 4 * (i % 4)) % 16) 0)

/-- One column mixed. -/
def mixColumn (c : List Nat) : List Nat :=
  (List.range 4).map (fun i =>
    let a (j : Nat) : Nat := c.getD ((i + j) % 4) 0
    Nat.xor (Nat.xor (xtime (a 0)) (Nat.xor (xtime (a 1)) (a 1))) (Nat.xor (a 2) (a 3)))

/-- The column mix of AES. -/
def mixColumns (b : List Nat) : List Nat := (List.range 4).flatMap (fun c => mixColumn ((b.drop (4 * c)).take 4))

/-- The rounds of AES from round r on, n of them before the last. -/
def aesRounds (ks : List Nat) : Nat → Nat → List Nat → List Nat
  | 0, r, b => xorBytes (shiftRows (b.map subByte)) (roundKey ks r)
  | n + 1, r, b => aesRounds ks n (r + 1) (xorBytes (mixColumns (shiftRows (b.map subByte))) (roundKey ks r))

/-- AES-256 of one block. -/
def aesBlock (ks b : List Nat) : List Nat := aesRounds ks 13 1 (xorBytes b (roundKey ks 0))

/-- A block as a number, first byte highest. -/
def beNat (b : List Nat) : Nat := b.foldl (fun a x => a * 256 + x) 0

/-- The n bytes of a number, highest first. -/
def beBytes (n x : Nat) : List Nat := (List.range n).map (fun i => x / 256 ^ (n - 1 - i) % 256)

/-- The product of two elements of GCM's field, over the bits of the first from the highest on. -/
def gfMul (x : Nat) : Nat → Nat → Nat → Nat
  | 0, _, z => z
  | n + 1, v, z =>
    gfMul x n (if v % 2 = 1 then Nat.xor (v / 2) (0xE1 * 2 ^ 120) else v / 2) (if bitOf x n then Nat.xor z v else z)

/-- The blocks of some bytes, the last one padded with zeros: n is at least their number. -/
def padBlocks : Nat → List Nat → List (List Nat)
  | 0, _ => []
  | _ + 1, [] => []
  | n + 1, x :: xs => (((x :: xs) ++ List.replicate 16 0).take 16) :: padBlocks n ((x :: xs).drop 16)

/-- GHASH over additional data and ciphertext. -/
def ghash (h : Nat) (aad ct : List Nat) : Nat :=
  let bs := padBlocks aad.length aad ++ padBlocks ct.length ct ++ [beBytes 8 (8 * aad.length) ++ beBytes 8 (8 * ct.length)]
  bs.foldl (fun y b => gfMul (Nat.xor y (beNat b)) 128 h 0) 0

/-- The key stream of counter mode for some blocks, from counter value c on. -/
def ctrBlocks (ks iv : List Nat) : Nat → Nat → List Nat
  | 0, _ => []
  | n + 1, c => aesBlock ks (iv ++ beBytes 4 (c % 2 ^ 32)) ++ ctrBlocks ks iv n (c + 1)

/-- GCM in counter mode: plaintext to ciphertext or back. -/
def gcmStream (ks iv data : List Nat) : List Nat := xorBytes data (ctrBlocks ks iv ((data.length + 15) / 16) 2)

/-- The 16-byte tag over additional data and ciphertext. -/
def gcmTag (ks iv aad ct : List Nat) : List Nat :=
  let h := beNat (aesBlock ks (List.replicate 16 0))
  xorBytes (beBytes 16 (ghash h aad ct)) (aesBlock ks (iv ++ [0, 0, 0, 1]))

end Sys2Proof.Machine
end

