-- ==== Sys2Proof/Machine/Engine.lean ====
section
/-!
DEFINITION. The copy engine (R293 to R298), range-lock registration (R299, R301), and arrival barriers (R303 to R305).
The instants at which these effects happen are those of log 11 (DEDUCED).
-/

namespace Sys2Proof.Machine

/-! ### Parameters -/

/-- A parameter parcel as an operand: a marker reads its scalar register (R34). -/
def parOpnd (p : Word) : Opnd := { spec := if isMarker p then p.toNat % 512 else 479 }

/-- The operands of four parameter parcels. -/
def parOpnds (x : PForm) : List Opnd := [parOpnd x.p0, parOpnd x.p1, parOpnd x.p2, parOpnd x.p3]

/-- The value of a parameter parcel, given what its operand read (R34). -/
def parVal (p : Word) (v : Nat) : Nat := if isMarker p then v else p.toNat

/-! ### Range locks -/

/-- Makes an instruction wait at issue while no lock entry is free (R299). -/
def withLock (s0 s : State) (i : Iss) (rs : List LockRange) (f : State → State) : State :=
  if (rs.filter (·.len != 0)).isEmpty || lockRoom s (s.th i.th).pl.core then f s else lockStall s0 s i

/-! ### Checks of ranges -/

/-- A byte range of a copy: first generic address, bytes, and whether it is written. -/
structure Span where
  a : Nat
  n : Nat
  w : Bool
  deriving DecidableEq, Repr

/-- Checks every byte of a range under R272 steps 2 to 4, a write to an exact cell being PROT (R295); the places of its bytes, or
a class and an address. -/
def spanAt (s : State) (th : Nat) (r : Span) : Except (FClass × Nat) (List Loc) × State :=
  match resolveRun s th (if r.w then .write else .read) r.a r.n with
  | (.error e, s) => (.error e, s)
  | (.ok ls, s) => if r.w && ls.any (·.exact) then (.error (.prot, r.a), s) else (.ok ls, s)

/-- Checks ranges in order. -/
def spansAt (th : Nat) : State → List Span → Except (FClass × Nat) (List (List Loc)) × State
  | s, [] => (.ok [], s)
  | s, r :: rs =>
    match spanAt s th r with
    | (.error e, s) => (.error e, s)
    | (.ok ls, s) =>
      match spansAt th s rs with
      | (.error e, s) => (.error e, s)
      | (.ok lls, s) => (.ok (ls :: lls), s)

/-- The leaf entries of some places. -/
def leavesOf (ls : List Loc) : List Nat := (ls.flatMap (fun l => l.leaf.toList.map (·.at_))).eraseDups

/-! ### Arrival barriers -/

/-- The 16 bytes of an arrival barrier as a number. -/
def abRead (s : State) (wg off : Nat) : Nat :=
  match abFlats (s.wg wg) off with | some as => leNat (memGets s.mem as) | none => 0

/-- The bits of an arrival barrier that are no reserved field (Table 16-9). -/
def abKept : Nat := (2 ^ 31 - 1) * 2 ^ 96 + (2 ^ 16 - 1) * 2 ^ 64 + (2 ^ 48 - 1)

/-- Writes an arrival barrier, its reserved fields as zero (R6). -/
def abWrite (s : State) (wg off v : Nat) : State :=
  match abFlats (s.wg wg) off with
  | some as => wroteRows { s with mem := memSets s.mem (as.zip (leBytes 16 (v &&& abKept))) } as
  | none => s

/-- Settles an arrival barrier (R304): the phase completes when nothing is due. -/
def abSettle (v : Nat) : Nat :=
  if bitsOf v 32 16 = 0 ∧ bitsOf v 0 32 = 0 then
    setBits (setBits v 96 31 (bitsOf v 96 31 + 1)) 32 16 (bitsOf v 64 16)
  else v

/-- Counts bytes down on a barrier (R304). -/
def abCount (s : State) (wg off n : Nat) : State :=
  let v := abRead s wg off
  abWrite s wg off (abSettle (setBits v 0 32 (wrapN ((bitsOf v 0 32 : Int) - n) 32)))

/-- The class with which a barrier offset fails (R304): ALIGN, or PROT outside the shared extent. -/
def abCheck (s : State) (t : Strand) (off : Nat) : Option FClass :=
  if off % 16 ≠ 0 then some .align
  else if t.pl.kind != .strand || (abFlats (s.wg t.pl.wg) off).isNone then some .prot else none

/-- Whether an engine instruction is suppressed: its group holds only helper lanes (R293). -/
def suppressed (t : Strand) (k : Nat) : Bool := (t.grp k).mask &&& ~~~t.ln.helper == 0

/-- Runs an engine instruction of the scalar unit, unless it is suppressed (R293). -/
def engOp (s : State) (i : Iss) (srcs : List Opnd) (dsts : List Nat) (body : State → (Nat → Nat) → Nat → State) :
    State :=
  operate s i srcs dsts readActive fun s1 g =>
    if suppressed (s.th i.th) i.k then finish s1 i g.cost else body s1 (fun n => g.v n 0) g.cost

/-- Stops an engine instruction with the group's lanes. -/
def engFault (s0 s : State) (i : Iss) (c : FClass) (a : Nat) : State :=
  faultAt (keepWalk s0 s) i.th i.k c (((s0.th i.th).grp i.k).mask) a 0

/-- Runs a barrier operation after the checks of its limits and of its offset (R304). -/
def abOp (s : State) (x : LForm) (srcs : List Opnd) (ok : (Nat → Nat) → Bool) (body : State → Iss → (Nat → Nat) → Nat → State) :
    Host.Outcome State Fault Refusal :=
  withIssuer s fun th k =>
    let i := issL x th k
    engOp s i srcs [] fun s1 v cost =>
      if !ok v then engFault s s1 i .illegal 0
      else match abCheck s1 (s.th th) (v 0) with
        | some c => engFault s s1 i c (spaceBase 2 + v 0)
        | none => body s1 i v cost

/-- `abset` (R304). -/
def execAbset (x : LForm) (s : State) : Host.Outcome State Fault Refusal :=
  abOp s x [srcA x, srcB x] (fun v => 1 ≤ v 1 && v 1 ≤ 65535) fun s i v cost =>
    let w := (s.th i.th).pl.wg
    finish (abWrite s w (v 0) (v 1 * 2 ^ 32 + v 1 * 2 ^ 64)) i cost

/-- `abdecl` (R304). -/
def execAbdecl (x : LForm) (s : State) : Host.Outcome State Fault Refusal :=
  abOp s x [srcA x, srcB x] (fun v => v 1 < 2 ^ 31) fun s i v cost =>
    let w := (s.th i.th).pl.wg
    let b := abRead s w (v 0)
    finish (abWrite s w (v 0) (setBits b 0 32 (bitsOf b 0 32 + v 1))) i cost

/-- `abarr` (R304): commits the group's quanta and holds the thread until the arrival has been performed. -/
def execAbarr (x : LForm) (s : State) : Host.Outcome State Fault Refusal :=
  abOp s x [srcA x, srcB x, srcC x] (fun _ => true) fun s1 i v cost => raising s s1 i (commitPath (s1.th i.th) ((s1.th i.th).grp i.k).mask) fun s =>
    let s := commitLanes s i.th ((s.th i.th).grp i.k).mask
    let (id, s) := newFlight s i.th [] [] (.arrive (v 0) 2 (v 1) (v 2) s.run.nextId)
    holdFlight s i id cost

/-- The slot whose group an operation in flight holds. -/
def heldSlot (t : Strand) (id : Nat) : Nat := if (t.grp 0).hold = .flight id then 0 else 1

/-- Puts a held group back at its instruction as runnable. -/
def unhold (s : State) (th k : Nat) : State :=
  s.modTh th (fun t => t.setGrp k (some { t.grp k with st := .runnable, w := false, hold := .free }))

/-- An arrival is checked and applied at the bank once its release is complete (R304, R335): ILLEGAL at the `abarr` where more
arrive than are due. -/
def execArrivalPerform (f : Nat) (s : State) : Host.Outcome State Fault Refusal :=
  match s.flight? f with
  | none => .next s
  | some f =>
    match f.work with
    | .arrive off _ count x bound =>
      let t := s.th f.th
      if f.done || relWaits s f.th bound f.lanes (strong s f.ctx 2) then .next s
      else if (t.grp 0).hold != .flight f.id && (t.grp 1).hold != .flight f.id then .next (finishFlight s f.id)
      else
        let b := abRead s t.pl.wg off
        if bitsOf b 32 16 < count then
          let k := heldSlot t f.id
          .next (faultAt (unhold (finishFlight s f.id) f.th k) f.th k .illegal (t.grp k).mask 0 0)
        else
          let b := setBits (setBits b 0 32 (bitsOf b 0 32 + x)) 32 16 (bitsOf b 32 16 - count)
          let s := hbContinue s [(scratchAt (s.wg t.pl.wg) off).getD 0] ((priorWrites s f.th bound f.lanes f.hb).map (·.id))
          .next (finishFlight (abWrite s t.pl.wg off (abSettle b)) f.id)
    | _ => .next s

/-- `abwait` (R304). -/
def execAbwait (x : LForm) (s : State) : Host.Outcome State Fault Refusal :=
  abOp s x [srcA x, srcB x] (fun _ => true) fun s i v cost =>
    waitFor s i.th i.k (.arrival (v 0) (v 1)) i.size (i.st + cost)

/-- `abtest` (R304): raises H; its k result is written when H falls past it. -/
def execAbtest (x : LForm) (s : State) : Host.Outcome State Fault Refusal :=
  abOp s x [srcA x, srcB x] (fun _ => true) fun s i v cost =>
    let lanes := ((s.th i.th).grp i.k).mask
    let kd := x.d.toNat % 8
    raising s s i [2] fun s =>
      finish (newFlight s i.th [2] ((lanesOf lanes).map (kCell kd)) (.abtest (v 0) (v 1) (kCell kd 0) lanes)).2 i cost

/-! ### Copies -/

/-- The barrier operand of a copy: none for 479. -/
def barrierOf (x : LForm) (v : Nat) : Option Nat := if x.d = 479 then none else some v

/-- Checks a copy's barrier (R295 steps 2 and 3). -/
def barrierBad (s : State) (t : Strand) (b : Option Nat) : Option FClass := b.bind (abCheck s t)

/-- Issues a copy whose ranges have passed: registers its locks, pins, and raises E (R295, R299). -/
def issueCopy (s0 s : State) (i : Iss) (cost : Nat) (rs : List LockRange) (pins : List Nat) (w : Work)
    (last : State → State) : State :=
  withLock s0 s i rs fun s => raising s0 s i [4] fun s =>
    let t := s.th i.th
    let (id, s) := newFlight (last s) i.th [4] [] w
    finish (addLock (s.modFlight id (fun f => { f with pins := pins })) t.pl.core t.pl.ctx id rs) i cost

/-- `cpy` (R294, R295). -/
def execCpy (x : LForm) (s : State) : Host.Outcome State Fault Refusal :=
  withIssuer s fun th k =>
    let i := issL x th k
    engOp s i [baseA x, wide x.b .b64, srcC x, srcD x] [] fun s1 v cost =>
      let b := barrierOf x (v 3)
      match barrierBad s1 (s.th th) b with
      | some c => engFault s s1 i c (spaceBase 2 + v 3)
      | none =>
        match spansAt th s1 [⟨v 1, v 2, false⟩, ⟨v 0, v 2, true⟩] with
        | (.error e, s2) => engFault s s2 i e.1 e.2
        | (.ok ls, s2) =>
          let src := ls.headD []
          let dst := ls.getD 1 []
          issueCopy s s2 i cost [lockRange s2 th (v 1) (v 2) false, lockRange s2 th (v 0) (v 2) true]
            (leavesOf (src ++ dst))
            (.copy 0 (src.map (·.pa)) (dst.map (·.pa)) b (v 2) (strong s2 (s.th th).pl.ctx x.ty) [] [] [] [] [] 0 1 0 0 (leavesOf dst)) id

/-- The bytes that a row-wise copy reads or writes: n bytes at each of some rows a pitch apart. -/
def rowSpans (a rows pitch n : Nat) (w : Bool) : List Span := (List.range rows).map (fun r => ⟨a + r * pitch, n, w⟩)

/-- `cpyt` (R294, R295, Table 16-4). -/
def execCpyt (x : PForm) (s : State) : Host.Outcome State Fault Refusal :=
  withIssuer s fun th k =>
    let i := issP x th k
    engOp s i ([baseA x.l, wide x.l.b .b64, { spec := 479 }, srcD x.l] ++ parOpnds x) [] fun s1 v cost =>
      let p0 := parVal x.p0 (v 4)
      let sp := parVal x.p1 (v 5)
      let dp := parVal x.p2 (v 6)
      let p3 := parVal x.p3 (v 7)
      let rows := p0 / 2 ^ 16
      let sn := p0 % 2 ^ 16
      let dn := if p3 % 2 ^ 16 = 0 then sn else p3 % 2 ^ 16
      let b := barrierOf x.l (v 3)
      if rows = 0 ∨ sn = 0 ∨ 2 ^ 16 ≤ p3 ∨ dn < sn ∨ dp < dn then engFault s s1 i .illegal 0
      else match barrierBad s1 (s.th th) b with
        | some c => engFault s s1 i c (spaceBase 2 + v 3)
        | none =>
          match spansAt th s1 (rowSpans (v 1) rows sp sn false ++ rowSpans (v 0) rows dp dn true) with
          | (.error e, s2) => engFault s s2 i e.1 e.2
          | (.ok ls, s2) =>
            let src := (ls.take rows).flatMap id
            let dst := (ls.drop rows).flatMap id
            issueCopy s s2 i cost
              [lockRange s2 th (v 1) ((rows - 1) * sp + sn) false, lockRange s2 th (v 0) ((rows - 1) * dp + dn) true]
              (leavesOf (src ++ dst))
              (.copy 1 (src.map (·.pa)) (dst.map (·.pa)) b (rows * dn) (strong s2 (s.th th).pl.ctx x.l.ty) [] [] [] [] [] 0 rows sn dn
                (leavesOf dst)) id

/-- A crypto descriptor (Table 16-5). -/
structure Crypto where
  n : Nat
  stream : Nat
  ctr : Nat
  aad : Nat
  aadLen : Nat
  slot : Nat
  tag : Nat
  record : Nat
  ok : Bool
  deriving DecidableEq, Repr

/-- A crypto descriptor from its bytes; `ok` says whether its values keep their limits. Reserved fields are ignored (R6). -/
def cryptoOf (v : Nat) : Crypto :=
  let rec_ := bitsOf v 320 64
  { n := bitsOf v 0 32, stream := bitsOf v 32 32, ctr := bitsOf v 64 64, aad := bitsOf v 128 64, aadLen := bitsOf v 192 32,
    slot := bitsOf v 224 8, tag := bitsOf v 256 64, record := rec_,
    ok := bitsOf v 64 64 != 0 && bitsOf v 192 32 ≤ 65536 && bitsOf v 224 8 < 16 && rec_ % 16 == 0 }

/-- Whether a place is owned by a context for `dcpy` (R297). -/
def ownedBy (s : State) (ctx : Nat) (l : Loc) : Bool :=
  l.space != 0 || (!inHost l.pa && (windowOf l.pa).isNone && pageOwnerOf s l.pa == ctx)

/-- `dcpy` or `ecpy` (R295 to R298). -/
def cryptoCopy (s : State) (x : LForm) (enc : Bool) : Host.Outcome State Fault Refusal :=
  withIssuer s fun th k =>
    let i := issL x th k
    engOp s i [baseA x, wide x.b .b64, wide x.c .b64, srcD x] [] fun s1 v cost =>
      let t := s.th th
      let ctx := s.ctx t.pl.ctx
      if v 2 % 16 ≠ 0 then engFault s s1 i .align (v 2)
      else match spanAt s1 th ⟨v 2, 64, false⟩ with
        | (.error e, s2) => engFault s s2 i e.1 e.2
        | (.ok dl, s2) => readAfter s s2 i (dl.map (·.pa)) fun s2 =>
          let d := cryptoOf (threadNat s2 th (dl.map (·.pa)))
          let b := barrierOf x (v 3)
          let recN := if d.record = 0 then 0 else 16
          let srcs : List Span := [⟨v 1, d.n, false⟩, ⟨d.aad, d.aadLen, false⟩]
          let dsts : List Span := [⟨v 0, d.n, true⟩]
          let spans := if enc then srcs ++ dsts ++ [⟨d.tag, 16, true⟩, ⟨d.record, recN, true⟩]
            else srcs ++ [⟨d.tag, 16, false⟩] ++ dsts ++ [⟨d.record, recN, true⟩]
          if lockHit s2 th (v 2) 64 false then engFault s s2 i .locked (v 2)
          else if !d.ok then engFault s s2 i .illegal 0
          else match barrierBad s2 t b with
            | some c => engFault s s2 i c (spaceBase 2 + v 3)
            | none =>
              match spansAt th s2 spans with
              | (.error e, s3) => engFault s s3 i e.1 e.2
              | (.ok ls, s3) =>
                let key := kget? ctx.keys d.slot
                let lastC := match key with | some q => (if enc then q.lastEnc else q.lastDec) | none => 0
                let nD := if enc then 2 else 3
                let nT := if enc then 3 else 2
                let dst := ls.getD nD []
                let rec_ := ls.getD 4 []
                if !ctx.conf || key.isNone || d.ctr ≤ lastC || (!enc && !(dst ++ rec_).all (ownedBy s3 t.pl.ctx)) then
                  engFault s s3 i .crypto 0
                else
                  let pa (n : Nat) : List Nat := (ls.getD n []).map (·.pa)
                  let be (n x : Nat) : List Byte := (beBytes n x).map (BitVec.ofNat 8)
                  let used (q : KeySlot) : KeySlot := if enc then { q with lastEnc := d.ctr } else { q with lastDec := d.ctr }
                  issueCopy s s3 i cost (if d.n = 0 then [] else spans.map (fun r => lockRange s3 th r.a r.n r.w)) (leavesOf (ls.flatMap id))
                    (.copy (if enc then 3 else 2) (pa 0) (pa nD) b d.n (strong s3 t.pl.ctx x.ty) ((key.map (·.key)).getD [])
                      (be 4 d.stream ++ be 8 d.ctr) (pa 1) (pa nT) (pa 4) d.ctr 1 0 0
                      (leavesOf (dst ++ rec_ ++ (if enc then ls.getD nT [] else []))))
                    (fun s => s.modCtx t.pl.ctx (fun c => { c with keys := kmodify c.keys d.slot used }))

/-- `dcpy` (R298). -/
def execDcpy (x : LForm) (s : State) : Host.Outcome State Fault Refusal := cryptoCopy s x false
/-- `ecpy` (R298). -/
def execEcpy (x : LForm) (s : State) : Host.Outcome State Fault Refusal := cryptoCopy s x true

/-- The bytes that a copy writes with their flat addresses (R294, R298). -/
def copyWrites (s : State) (f : Flight) : List Host.Cell :=
  let read (pas : List Nat) : List Nat := pas.map (engByte s f)
  let at_ (pas : List Nat) (bs : List Nat) : List Host.Cell := pas.zip (bs.map (BitVec.ofNat 8))
  match f.work with
  | .copy minor src dst _ _ _ key iv aad tag rec ctr rows sn dn _ =>
    let data := read src
    let ks := keyBytes (key.map (·.toNat))
    let ivn := iv.map (·.toNat)
    let record (st : Nat) : List Host.Cell := at_ rec ((leBytes 8 st ++ leBytes 8 ctr).map (·.toNat))
    match minor with
    | 0 => at_ dst data
    | 1 => at_ dst ((List.range rows).flatMap (fun r => (data.drop (r * sn)).take sn ++ List.replicate (dn - sn) 0))
    | 2 =>
      let good := gcmTag ks ivn (read aad) data == read tag
      at_ dst (if good then gcmStream ks ivn data else data.map (fun _ => 0)) ++ record (if good then 0 else 1)
    | _ =>
      let ct := gcmStream ks ivn data
      at_ dst ct ++ at_ tag (gcmTag ks ivn (read aad) ct) ++ record 0
  | _ => []

/-- A copy completes (R295): after the entries registered before it in its overlap (R301) and its core's earlier commits to
its bytes, with no copy of its lines left on the other compute die (R400), its writes become visible, its lock is released, its bytes are counted down, and E falls. -/
def execCopyCompletion (f : Nat) (s : State) : Host.Outcome State Fault Refusal :=
  match s.flight? f with
  | none => .next s
  | some f =>
    match f.work with
    | .copy _ _ _ barrier n _ _ _ _ _ _ _ _ _ _ dirty =>
      let ws := copyWrites s f
      let pas := ws.map (·.1)
      if f.done || lockWaits s f.id || acquirePending s f || writePending s f pas then .next s
      else if !(copiesOf s pas).isEmpty then .next (atHome s pas s)
      else
        let s := setDirty s dirty
        let s := endNarrow (dropLines (wroteRows { s with mem := memSets s.mem ws } pas) f.core pas) pas
        let s := dropLock s f.id
        let s := match barrier with | some o => abCount s (s.th f.th).pl.wg o n | none => s
        .next (finishFlight s f.id)
    | _ => .next s

end Sys2Proof.Machine
end

