-- ==== Sys2Proof/Machine/Fetch.lean ====
section
/-!
DEFINITION. The fetch unit and handles (R306 to R309).
The instants at which these effects happen are those of log 11 (DEDUCED).
-/

namespace Sys2Proof.Machine

/-- A slot of a context's handles. -/
def handleOf (s : State) (ctx slot : Nat) : HSlot := kgetD (s.ctx ctx).handles slot {}

/-- A handle's value (R306). -/
def handleVal (gen slot : Nat) : Nat := gen % 2 ^ 20 * 2 ^ 12 + slot % 2 ^ 12

/-! ### fget -/

/-- The places of some generic bytes for a read (R272 steps 2 to 4). -/
def bytesAt (s : State) (th : Nat) : List Nat → Except (FClass × Nat) (List (Nat × Loc)) × State
  | [] => (.ok [], s)
  | a :: as =>
    match resolve s th a .read with
    | (.error e, s) => (.error (e, a), s)
    | (.ok l, s) =>
      match bytesAt s th as with
      | (.error e, s) => (.error e, s)
      | (.ok ls, s) => (.ok ((a, l) :: ls), s)

/-- What an element's bytes lead to: the place of each byte read, with none for a byte that a zero mask leaves out, the places in all that
the element touches, and the first and last address that the lock covers. -/
structure Gather where
  bytes : List (Option Loc)
  touched : List Loc
  first : Nat
  last : Nat
  deriving DecidableEq, Repr

/-- The uncompressed bytes of an element at some offsets from base (R308). -/
def plainBytes (s : State) (th base : Nat) (os : List Nat) : Except (FClass × Nat) Gather × State :=
  match bytesAt s th (os.map (base + ·)) with
  | (.error e, s) => (.error e, s)
  | (.ok ls, s) => (.ok { bytes := ls.map (fun l => some l.2), touched := ls.map (·.2), first := base + os.headD 0, last := base + os.getLastD 0 }, s)

/-- The bytes of an element of a compressed slot (R308): each byte by its granule's mask; with the places that are touched. -/
def zmBytes (s : State) (th base : Nat) : List Nat → Except (FClass × Nat) (List (Option Loc) × List Loc) × State
  | [] => (.ok ([], []), s)
  | o :: os =>
    let record := base + 144 * (o / 128)
    let j := o % 128
    match bytesAt s th ((List.range 16).map (record + ·)) with
    | (.error e, s) => (.error e, s)
    | (.ok ms, s) =>
      let mask := threadNat s th (ms.map (·.2.pa))
      let one : Except (FClass × Nat) (Option Loc) × State :=
        if bitOf mask j then
          match resolve s th (record + 16 + popcN mask j) .read with
          | (.ok l, s) => (.ok (some l), s)
          | (.error e, s) => (.error (e, record + 16 + popcN mask j), s)
        else (.ok none, s)
      match one with
      | (.error e, s) => (.error e, s)
      | (.ok b, s) =>
        match zmBytes s th base os with
        | (.error e, s) => (.error e, s)
        | (.ok bs, s) => (.ok (b :: bs.1, ms.map (·.2) ++ b.toList ++ bs.2), s)

/-- The bytes of an element under its slot's compression, with the range that its lock covers. -/
def gatherBytes (s : State) (th : Nat) (h : HSlot) (os : List Nat) : Except (FClass × Nat) Gather × State :=
  if h.zm then
    match zmBytes s th h.base os with
    | (.error e, s) => (.error e, s)
    | (.ok bs, s) => (.ok { bytes := bs.1, touched := bs.2, first := h.base + 144 * (os.headD 0 / 128), last := h.base + 144 * (os.getLastD 0 / 128) + 143 }, s)
  else plainBytes s th h.base os

/-- The range that reading some bytes of an element touches: the bytes, or the records of their granules (R308). -/
def offSpan (h : HSlot) (os : List Nat) : Nat × Nat :=
  match os with
  | [] => (0, 0)
  | o :: _ =>
    if h.zm then (h.base + 144 * (o / 128), 144 * (os.getLastD 0 / 128 - o / 128 + 1)) else (h.base + o, os.getLastD 0 - o + 1)

/-- One element of an `fget` under its checks (R307, R308): what it reads, and the range that its lock covers. A CB4 code decodes through the
slot of the page that holds it (R184), or of the page of base where its byte is one that a zero mask leaves out (DEDUCED, log 9). The
scale is read at the issue, and a failure of format names the first address of what the element touches, or base where its page gives no
element width (DEDUCED, log 11). -/
def elemGather (s : State) (th : Nat) (h : HSlot) (k : Nat) : Except (FClass × Nat) (FetchElem × Nat × Nat × Option Nat) × State :=
  let elem (g : Gather) (sh w : Nat) (conv : Conv) (slot : Option Nat) : FetchElem × Nat × Nat × Option Nat :=
    ({ lane := 0, cell := 0, inr := true, pas := g.bytes.map (fun b => b.map (·.pa)), shift := sh, width := w, conv := conv },
      g.first, g.last, slot)
  if h.raw then
    match gatherBytes s th h ((List.range 4).map (4 * k + ·)) with
    | (.error e, s) => (.error e, s)
    | (.ok g, s) => (.ok (elem g 0 32 .zext none), s)
  else
    match resolve s th h.base .read with
    | (.error e, s) => (.error (e, h.base), s)
    | (.ok b, s) =>
      match b.leaf with
      | none => (.error (.format, h.base), s)
      | some lf =>
        match fmtOf lf.fmt with
        | none => (.error (.format, h.base), s)
        | some f =>
          match gatherBytes s th h (elemBytes f.w k) with
          | (.error e, s) => (.error e, s)
          | (.ok g, s) =>
            let same (l : Loc) : Bool := match l.leaf with
              | some x => x.fmt == lf.fmt && x.geo == lf.geo && (x.slot == 0 || x.fmt == 11)
              | none => false
            let home := (((g.bytes.filterMap id).head?).bind (·.leaf)).getD lf
            let sc : Option Int := match (g.bytes.filterMap id).head? with
              | some l => if home.geo = 0 then none else
                  let idx := ((l.pa - home.pa home.va) * 8 + f.w * k % 8) / f.w
                  some (sextN (threadNat s th [home.sidecar + idx / blockOf home.geo]) 8)
              | none => none
            let scBad := match sc with | some v => v < -64 || 63 < v | none => false
            if fmtBad lf || !(b :: g.touched).all same || (h.zm && lf.geo != 0) || scBad then (.error (.format, (offSpan h (elemBytes f.w k)).1), s)
            else
              let cb := if lf.fmt = 11 then codebook s (s.th th).pl.ctx home.slot else []
              (.ok (elem g (f.w * k % 8) f.w (.elem lf.fmt sc cb)
                (if lf.fmt = 11 then some home.slot else none)), s)

/-- The elements of one lane, checked in order; an element out of range reads nothing. -/
def laneGather (s : State) (th : Nat) (h : HSlot) (l : Nat) (y : Int) : List (Nat × Int) →
    Except (FClass × Nat) (List (FetchElem × Nat × Nat × Option Nat)) × State
  | [] => (.ok [], s)
  | (cell, x) :: xs =>
    let inr := 0 ≤ x && x < h.x && 0 ≤ y && y < h.y
    let one : Except (FClass × Nat) (FetchElem × Nat × Nat × Option Nat) × State :=
      if inr then elemGather s th h (y * h.p + x).toNat
      else (.ok ({ lane := l, cell := cell, inr := false }, 0, 0, none), s)
    match one with
    | (.error e, s) => (.error e, s)
    | (.ok e, s) =>
      match laneGather s th h l y xs with
      | (.error e, s) => (.error e, s)
      | (.ok es, s) => (.ok (({ e.1 with lane := l, cell := cell }, e.2) :: es), s)

/-- The lanes of an `fget`, each checked on its own (R272). -/
def lanesGather (f : State → Nat → Except (FClass × Nat) (List (FetchElem × Nat × Nat × Option Nat)) × State) :
    State → List Nat → List (Nat × Except (FClass × Nat) (List (FetchElem × Nat × Nat × Option Nat))) × State
  | s, [] => ([], s)
  | s, l :: ls =>
    match f s l with
    | (r, s) => match lanesGather f s ls with
      | (rs, s) => ((l, r) :: rs, s)

/-- The offsets from base of the uncompressed bytes of element k (R308); none where the page of base has no element width. -/
def elemOffsets (s : State) (th : Nat) (h : HSlot) (k : Nat) : List Nat :=
  if h.raw then (List.range 4).map (4 * k + ·)
  else match (resolve s th h.base .read).1 with
    | .ok { leaf := some lf, .. } => (match fmtOf lf.fmt with | some f => elemBytes f.w k | none => [])
    | _ => []

/-- What an `fget` of some elements waits for before it reads anything: an operation that holds a write lock on bytes it would read (R301,
R307), and for a zero mask and a scale, which are read at issue, an acquire of its lanes (R325). -/
def fgetWaits (s : State) (th : Nat) (h : HSlot) (ks : List Nat) : Option Nat :=
  let spans := ks.map (fun k => offSpan h (elemOffsets s th h k))
  let t := s.th th
  match s.lk.entries.find? (fun e => e.ctx == t.pl.ctx && dieOfCore e.core == dieOfCore t.pl.core &&
      spans.any (fun r => let p := lockPlace s th r.1
        e.ranges.any (fun q => q.write && q.space == p.1 && overlap p.2 r.2 q.lo q.len))) with
  | some e => some e.flight
  | none =>
    if h.zm || !h.raw then
      (s.fl.find? (fun g => g.th == th && !g.done && acquires g && g.lanes &&& issuingLanes t != 0)).map (·.id)
    else none

/-- `fget` (R307). -/
def execFget (x : PForm) (s : State) : Host.Outcome State Fault Refusal :=
  withIssuer s fun th k =>
    let i := issP x th k
    let t := s.th th
    let now (p : Word) : Nat := if isMarker p then srcWord t k (issueClk t []) 0 .w32 (p.toNat % 512) 0 else p.toNat
    let n := now x.p0 % 4 + 1
    let d := x.l.d.toNat
    let kq := x.l.md.toNat % 8
    operate s i ([srcA x.l, srcB x.l, srcC x.l] ++ parOpnds x) ((List.range n).map (· + d)) readActive fun s1 g =>
      let slot := g.v 0 0 % 2 ^ 12
      let h := handleOf s t.pl.ctx slot
      let fill := parVal x.p3 (g.v 6 0)
      let top := if isF d then 320 else 384
      if 4 ≤ now x.p0 ∨ top < d + n then illegalAt s th k g.act
      else if g.v 0 0 / 2 ^ 12 ≠ h.gen then faultAt s th k .handle g.act 0 0
      else if h.rewriting then holdGroup s th k (.handle slot) false false i.size
      else if !h.valid then faultAt s th k .handle g.act 0 0
      else
        let xs (l : Nat) : List (Nat × Int) := (List.range n).map (fun e =>
          ((destCells t (d + e) 1 l).headD 0, sextN (g.v 1 l) 32 + sextN (parVal x.p1 (g.v 4 0)) 32 + e))
        let y (l : Nat) : Int := sextN (g.v 2 l) 32 + sextN (parVal x.p2 (g.v 5 0)) 32
        let ks := (lanesOf g.act).flatMap (fun l => (xs l).filterMap (fun e =>
          if 0 ≤ e.2 ∧ e.2 < (h.x : Int) ∧ 0 ≤ y l ∧ y l < (h.y : Int) then some (y l * h.p + e.2).toNat else none))
        match fgetWaits s1 th h ks with
        | some f => holdGroup s th k (.flight f) false false i.size
        | none =>
        match lanesGather (fun s l => laneGather s th h l (y l) (xs l)) s1 (lanesOf g.act) with
        | (rs, s2) =>
          let bad := rs.filterMap (fun r => match r.2 with
            | .error c => if t.ln.helper.getLsbD r.1 then none else some (r.1, c)
            | .ok _ => none)
          match bad with
          | b :: _ => faultAt (keepWalk s s2) th k b.2.1 (maskOf ((bad.filter (fun r => r.2.1 == b.2.1)).map (·.1))) b.2.2 0
          | [] =>
            let es := rs.flatMap (fun r => match r.2 with | .ok l => l | .error _ => [])
            if es.isEmpty then finish s2 i g.cost
            else
              let got := es.filter (·.1.inr)
              let lo := (got.map (·.2.1)).foldl Nat.min (2 ^ 64)
              let hi := (got.map (·.2.2.1)).foldl Nat.max 0
              let locks := if got.isEmpty then [] else [lockRange s2 th lo (hi + 1 - lo) false]
              let lanes := maskOf (es.map (·.1.lane))
              withLock s s2 i locks fun s3 => raising s s3 i [3] fun s3 =>
                let kcells := (lanesOf lanes).map (kCell kq)
                let (id, s3) := newFlight s3 th [3] (es.map (·.1.cell) ++ kcells)
                  (.fetch slot h.gen (es.map (·.1)) (kCell kq 0) lanes (BitVec.ofNat 32 fill))
                let s3 := captureIn s3 id (es.filterMap (·.2.2.2)).eraseDups
                finish (addLock s3 t.pl.core t.pl.ctx id locks) i g.cost

/-- The word of a fetched element (R307, R308). -/
def fetchWord (s : State) (f : Flight) (fill : Word) (e : FetchElem) : Word :=
  if !e.inr then fill
  else if e.dropped then 0
  else
    let v := (e.pas.map (fun p => match p with | some pa => engByte s f pa | none => 0)).foldr
      (fun b acc => b + 256 * acc) 0
    BitVec.ofNat 32 (convValue (bitsOf v e.shift e.width) e.conv)

/-- Gathered elements land; the lock is released and F falls (R307). -/
def execFgetCompletion (f : Nat) (s : State) : Host.Outcome State Fault Refusal :=
  match s.flight? f with
  | none => .next s
  | some f =>
    match f.work with
    | .fetch _ _ es kc lanes fill =>
      if f.done || lockWaits s f.id || acquirePending s f then .next s
      else
        let ws := es.map (fun e => (e.cell, fetchWord s f fill e))
        let ks := (lanesOf lanes).map (fun l =>
          (kc + l, if es.all (fun e => e.lane != l || (e.inr && !e.dropped)) then 1#32 else 0#32))
        let s := landCells s f ws
        let s := s.modTh f.th (fun t => { t with rg := t.rg.poke ks })
        .next (finishFlight (dropLock s f.id) f.id)
    | _ => .next s

/-! ### Handles -/

/-- Whether a descriptor that passes the checks of HANDLE holds a value above its limit in Table 16-11: ILLEGAL at the instruction (R293). -/
def descOver (d : HSlot) : Bool := 2 ^ 31 ≤ d.x || 2 ^ 31 ≤ d.y || 2 ^ 40 < d.p

/-- Whether a descriptor is refused with HANDLE (R309, Table 16-11). -/
def descBad (d : HSlot) : Bool :=
  d.x == 0 || d.y == 0 || d.p < d.x || !(spaceOf d.base == 0 || spaceOf d.base == 1) || (d.raw && d.base % 4 != 0)

/-- A slot descriptor from its 32 bytes (Table 16-11). -/
def descOf (v : Nat) : HSlot :=
  { base := bitsOf v 0 64, x := bitsOf v 64 32, y := bitsOf v 96 32, p := bitsOf v 128 64, zm := bitOf v 192, raw := bitOf v 193 }

/-- Changes a handle slot of a context. -/
def modHandle (s : State) (ctx slot : Nat) (f : HSlot → HSlot) : State :=
  s.modCtx ctx (fun c => { c with handles := kset c.handles slot (f (kgetD c.handles slot {})) })

/-- Runs a body of `hset`, `hinv` or `hget` with its slot number; above 4,095 is ILLEGAL (R309). -/
def handOp (s : State) (x : LForm) (srcs : List Opnd) (body : State → Iss → (Nat → Nat) → Nat → State) :
    Host.Outcome State Fault Refusal :=
  withIssuer s fun th k =>
    let i := issL x th k
    engOp s i srcs [] fun s1 v cost =>
      if 4095 < v 0 then engFault s s1 i .illegal 0 else body s1 i v cost

/-- `hset` (R309): the generation rises at the instant; the descriptor is rewritten once the wait has ended. A value above its limit is
tested after what R309 refuses with HANDLE (DEDUCED, log 9). -/
def execHset (x : LForm) (s : State) : Host.Outcome State Fault Refusal :=
  handOp s x [srcA x, wide x.b .b64] fun s1 i v cost =>
    let th := i.th
    let t := s.th th
    if v 1 % 16 ≠ 0 then engFault s s1 i .align (v 1)
    else match spanAt s1 th ⟨v 1, 32, false⟩ with
      | (.error e, s2) => engFault s s2 i e.1 e.2
      | (.ok ls, s2) => readAfter s s2 i (ls.map (·.pa)) fun s2 =>
        let d := descOf (threadNat s2 th (ls.map (·.pa)))
        if descBad d then engFault s s2 i .handle 0
        else if descOver d then engFault s s2 i .illegal 0
        else raising s s2 i [3] fun s2 =>
          let gen := ((handleOf s2 t.pl.ctx (v 0)).gen + 1) % 2 ^ 20
          let s2 := modHandle s2 t.pl.ctx (v 0) (fun h => { h with gen := gen, rewriting := true })
          let cells := [sCell (x.d.toNat - 384)]
          finish (newFlight s2 th [3] cells (.hand 1 (v 0) (16 ≤ x.md.toNat) { d with gen := gen, valid := true } cells gen)).2 i cost

/-- `hinv` (R309). -/
def execHinv (x : LForm) (s : State) : Host.Outcome State Fault Refusal :=
  handOp s x [srcA x] fun s1 i v cost =>
    raising s s1 i [3] fun s1 =>
      let ctx := (s.th i.th).pl.ctx
      let gen := ((handleOf s1 ctx (v 0)).gen + 1) % 2 ^ 20
      let s1 := modHandle s1 ctx (v 0) (fun h => { h with gen := gen, valid := false, rewriting := false })
      finish (newFlight s1 i.th [3] [] (.hand 2 (v 0) false {} [] gen)).2 i cost

/-- `hget` (R309). -/
def execHget (x : LForm) (s : State) : Host.Outcome State Fault Refusal :=
  handOp s x [srcA x] fun s1 i v cost =>
    raising s s1 i [3] fun s1 =>
      let cells := [sCell (x.d.toNat - 384), sCell (x.d.toNat - 383)]
      finish (newFlight s1 i.th [3] cells (.hand 3 (v 0) false {} cells 0)).2 i cost

/-- Whether a flight is a fetch through a slot of a context. -/
def fetchesSlot (ctx slot : Nat) (g : Flight) : Bool :=
  g.ctx == ctx && !g.done && (match g.work with | .fetch x _ _ _ _ _ => x == slot | _ => false)

/-- Drops, by a free choice for each element, what a fetch through a rewritten slot has not read (R309); an element that has been
read delivers what it reads now. -/
def dropUnread (s : State) (ctx slot : Nat) : State :=
  { s with fl := s.fl.map (fun g => if fetchesSlot ctx slot g then
        (match g.work with
          | .fetch x gen es kc lanes fill => { g with work := .fetch x gen (es.map (fun e =>
              if e.inr && Config.freeChoice (s.run.fresh + e.cell) then { e with dropped := true } else e)) kc lanes fill }
          | _ => g) else g),
           run := { s.run with fresh := s.run.fresh + 2 ^ 20 } }

/-- An `hset`, `hinv` or `hget` ends (R309): the wait for older fetches has ended, or a forced rewrite drops what they have not
read; the scalar results are written and F falls. -/
def execHandleResultWritten (f : Nat) (s : State) : Host.Outcome State Fault Refusal :=
  match s.flight? f with
  | none => .next s
  | some f =>
    match f.work with
    | .hand minor slot force d cells gen =>
      let earlier := s.fl.any (fun g => g.id < f.id && g.ctx == f.ctx && !g.done && (match g.work with
        | .hand _ x _ _ _ _ => x == slot | _ => false))
      let older := s.fl.any (fun g => fetchesSlot f.ctx slot g && (match g.work with | .fetch _ x _ _ _ _ => x != gen | _ => false))
      let write (s : State) (vs : List Nat) : State := finishFlight (landCells s f (cells.zip (vs.map (BitVec.ofNat 32)))) f.id
      let h := handleOf s f.ctx slot
      if f.done || earlier then .next s
      else match minor with
        | 1 =>
          if older && !force then .next s
          else
            let s := if force then dropUnread s f.ctx slot else s
            let s := if h.gen = gen then modHandle s f.ctx slot (fun _ => d) else s
            .next (write s [handleVal gen slot])
        | 2 => if older then .next s else .next (write s [])
        | _ => .next (write s [handleVal h.gen slot, if h.valid then 1 else 0])
    | _ => .next s

end Sys2Proof.Machine
end

