-- ==== Sys2Proof/Machine/Clause.lean ====
section
/-!
DEFINITION. Fetching a clause whole and deciding what its parcels alone make ILLEGAL (R16 to R23, R30, R31, R51, R56).
-/

namespace Sys2Proof.Machine

/-- The 32-bit source specifiers of an operation that may name a lane's operand: registers, queues, the bypass (R31, R35, R170). The
class mask of `fclass` is a plain number (R216), and d is a source of the stores (R270) and of no other operation here. -/
def laneSrcs : Parts → List Nat
  | .un _ x => [x.a.toNat]
  | .l 7 3 x => [x.a.toNat]
  | .l 12 m x => [x.a.toNat, x.b.toNat] ++ (if m == 1 || m == 3 || m == 4 then [x.d.toNat] else [])
  | .l 13 _ x => [x.a.toNat, x.b.toNat]
  | .l 15 _ x => [x.a.toNat, x.b.toNat]
  | .l 19 _ x => [x.a.toNat]
  | .l 21 4 x => [x.a.toNat, x.b.toNat]
  | .l maj _ x => if 1 ≤ maj && maj ≤ 9 then [x.a.toNat, x.b.toNat, x.c.toNat] else []
  | .p 17 _ ⟨x, _, _, _, _⟩ => [x.b.toNat, x.c.toNat]
  | _ => []

/-- Bypass entries that an operation reads, by number (R31). -/
def bypReads (p : Parts) : List Nat := ((laneSrcs p).filter isByp).map (· - 471)

/-- Whether an operation's result enters the bypass (R30, R31, R35): its destination is an f or g register, or %zero. -/
def produces : Parts → Bool
  | .un _ x => isFG x.d.toNat || x.d == 479
  | .ldi x => isFG x.d.toNat
  | .l maj m x =>
    1 ≤ maj && maj ≤ 9 && (isFG x.d.toNat || x.d == 479) &&
    !(maj == 7 && ((m ≤ 2 && x.c.toNat / 8 == 0) || (3 ≤ m && m ≤ 7) || (m == 8 && x.c.toNat != 2))) && !(maj == 8 && (m == 7 || m == 8))
  | _ => false

/-- Whether a result is transient (R30). -/
def transient : Parts → Bool
  | .l _ _ x => x.tr
  | _ => false

/-- Whether an instruction is a `knot`, in either form (R130). -/
def isKnot : Parts → Bool
  | .ctls m _ => m == 2
  | .l 20 m _ => m == 7
  | _ => false

/-- Which parcel of an instruction that does not decode fails (R56), counted from its first: the second where it holds an unassigned
minor, also where the first parcel's major is not listed for the clause or the kind of code, and a parameter parcel that breaks a limit where
the operation would stand with markers in its place and after it. Of any other condition, which the fields of two parcels decide together,
the first parcel is named (DESIGN CHOICE, log 16). -/
def badParcel (kd : CodeKind) : List Word → Nat
  | p :: q :: rest =>
    let maj := p.toNat / 32 % 64
    let m := q.toNat / 2 ^ 21 % 64
    let x := unpackL p.toNat q.toNat none
    if p.toNat % 4 == 0 || p.toNat % 4 == 3 || maj == 0 || maj == 11 || 24 ≤ maj then 0
    else if (mkL maj m x).isNone && !takesPar maj m then 1
    else if takesPar maj m && p.toNat % 4 == 1 && 4 ≤ rest.length then
      let stands (n : Nat) : Bool := (decode kd (p :: q :: (rest.take n ++ List.replicate (4 - n) 0xFE000180#32))).isSome
      if stands 0 then (((List.range 4).find? (fun n => !stands (n + 1))).map (· + 2)).getD 0 else 0
    else 0
  | _ => 0

/-- The lowest of two parcels that fail, where there are any. -/
def lowest : Option Nat → Option Nat → Option Nat
  | some a, some b => some (Nat.min a b)
  | a, none => a
  | none, b => b

/-- The lowest parcel of a body from which a static rule fails (R20, R21, R31, R51, R56, R130), numbered from the header. `prods` counts
results so far; `open_` holds transient results not yet read, with their age. A transient result that is never read fails at the first
parcel of the instruction that made it, and a control transfer that is not last at its own (DESIGN CHOICE, log 16). An instruction whose
size is known and whose fields fail is read on for what it and later ones read; after one of no known size nothing is read, and no
transient result counts as unread for that (DESIGN CHOICE, log 16). -/
def scanBody (kd : CodeKind) (cl : Nat) : Nat → Nat → List Word → Nat → List (Nat × Nat) → Option Nat
  | 0, pos, _, _, _ => some pos
  | _ + 1, _, [], _, open_ => (open_.map (·.1)).min?
  | fuel + 1, pos, ps, prods, open_ =>
    match decodeRaw ps with
    | none => some (pos + badParcel kd ps)
    | some (i, rest) =>
      let p := i.parts
      let reads := bypReads p
      let bad := !classOk cl p || (isKnot p && pos != 2) || (endsClause p && !(rest == [] || rest == [0x40#32])) || reads.any (prods < ·)
      let fails := lowest (if bad then some pos else none) (if i.wfIn kd then none else some (pos + badParcel kd ps))
      let open_ := open_.filter (fun e => !reads.contains e.2)
      let made := produces p
      let open_ := if made then open_.map (fun e => (e.1, e.2 + 1)) else open_
      let unread := ((open_.filter (fun e => 3 < e.2)).map (·.1)).min?
      lowest (lowest unread fails)
        (scanBody kd cl fuel (pos + (ps.length - rest.length)) rest (if made then prods + 1 else prods)
          (if made && transient p then open_ ++ [(pos, 1)] else open_))

/-- Whether an enable bit and its fields break R18. -/
def waitBad (w lo : Nat) : Bool := !bitOf w lo && bitsOf w (lo + 1) 9 != 0

/-- The lowest parcel of a clause that breaks a static rule, numbered from the header (R17, R18, R56); an access slice holds class M
clauses that enable no wait (R163). -/
def clauseBad (kd : CodeKind) (w0 w1 : Word) (body : List Word) : Option Nat :=
  let w := w0.toNat
  if bitsOf w 29 3 ≠ 0 || waitBad w 8 || waitBad w 18 then some 0
  else if kd == .access && (bitOf w 8 || bitOf w 18 || bitsOf w 2 2 != 1) then some 0
  else if w1 != 0 then some 1
  else scanBody kd (bitsOf w 2 2) (body.length + 1) 2 body 0 []

/-- What stops a clause before it issues: class, position and address. -/
structure ClauseFault where
  cls : FClass
  pos : Nat
  addr : Nat
  deriving DecidableEq, Repr

/-- Fetches parcels (R22, R23). -/
def fetchParcels (ctx code : Nat) : State → Nat → Nat → Except ClauseFault (List Word) × State
  | s, _, 0 => (.ok [], s)
  | s, off, n + 1 =>
    match codeRead s ctx code off true with
    | (.error c, s) => (.error ⟨c, off, codeVa s code off⟩, s)
    | (.ok w, s) =>
      match fetchParcels ctx code s (off + 1) n with
      | (.ok ws, s) => (.ok (w :: ws), s)
      | (.error e, s) => (.error e, s)

/-- Fetches the clause at a parcel offset whole, before anything of it is decoded (R16, R23): a fetch fault comes first, then a
parcel that is no header, then what is ILLEGAL in the clause. -/
def fetchClause (s : State) (ctx code : Nat) (kd : CodeKind) (off : Nat) : Except ClauseFault Clause × State :=
  match fetchParcels ctx code s off 1 with
  | (.error e, s) => (.error e, s)
  | (.ok ws, s) =>
    let w0 := ws.headD 0
    if w0.toNat % 4 ≠ 3 then (.error ⟨.illegal, off, 0⟩, s)
    else
      let n := 2 * (bitsOf w0.toNat 4 4 + 1)
      match fetchParcels ctx code s (off + 1) (n + 1) with
      | (.error e, s) => (.error e, s)
      | (.ok ws, s) =>
        match clauseBad kd w0 (ws.headD 0) (ws.drop 1) with
        | some p => (.error ⟨.illegal, off + p, 0⟩, s)
        | none => (.ok { hdr := off, word := w0, body := ws.drop 1 }, s)

end Sys2Proof.Machine
end

