-- ==== Sys2Proof/Machine/Tables.lean ====
section
/-!
DEFINITION. Accumulator tables (R219 to R236): where their slots lie, entering sums, and the table instructions.
The instants at which these effects happen are those of log 12 (DEDUCED).
-/

namespace Sys2Proof.Machine

/-! ### Tables -/

/-- The table that an operation in flight acts on: its workgroup and name. -/
def opOn (f : Flight) : Option (Nat × Nat) :=
  match f.work with
  | .splice x => some (x.wg, x.table)
  | .seed w t _ _ _ => some (w, t)
  | .drain w t _ _ => some (w, t)
  | .tabop w t _ _ _ => some (w, t)
  | _ => none

/-- The first unfinished operation on a table with a property. -/
def tabBusy (s : State) (w t : Nat) (p : Flight → Bool) : Option Nat :=
  (s.fl.find? (fun f => !f.done && p f && opOn f == some (w, t))).map (·.id)

/-- From this number on stand the strands of saved workgroups: workgroup × 32 + strand index (R364). -/
def savedBase : Nat := 2 ^ 22

/-- Whether an operation in flight comes after an unfinished one of its strand on the same table (R236), or its strand is saved
(R364). -/
def opWaits (s : State) (f : Flight) : Bool :=
  match opOn f with
  | none => false
  | some (w, t) => savedBase ≤ f.th || (tabBusy s w t (fun g => g.th == f.th && g.id < f.id)).isSome

/-- A workgroup's open table, by name. -/
def tableOf (s : State) (w t : Nat) : Option Table := kget? (s.wg w).tables t

/-- Changes an open table. -/
def modTable (s : State) (w t : Nat) (f : Table → Table) : State := s.modWg w (fun g => { g with tables := kmodify g.tables t f })

/-- The slots of a table. -/
def Table.size (d : Table) : Nat := 2 ^ d.logS

/-- The quadrant slots of a table of a workgroup (R219, R220): quadrant, first offset and length of each piece. -/
def tabSpan (g : Workgroup) (d : Table) : List (Nat × Nat × Nat) :=
  if d.scope = 0 then [(g.tabQuads.getD (d.b / 16384) 0, g.tabOff + d.b % 16384, d.size)]
  else g.tabQuads.map (fun q => (q, d.b / g.tabQuads.length, d.size / g.tabQuads.length))

/-- The home arrays of a table, by quadrant (R220, R237). -/
def homeArrays (g : Workgroup) (d : Table) : List Nat := (tabSpan g d).map (·.1)

/-- Whether two tables use a quadrant slot together (R220). -/
def tabsMeet (a b : List (Nat × Nat × Nat)) : Bool :=
  a.any (fun x => b.any (fun y => x.1 == y.1 && overlap x.2.1 x.2.2 y.2.1 y.2.2))

/-- The tables that share a workgroup's allotment: its own but one, and those of its partner (R219, R220). -/
def otherTables (s : State) (w t : Nat) : List (List (Nat × Nat × Nat)) :=
  let g := s.wg w
  (g.tables.filter (·.1 != t)).map (fun e => tabSpan g e.2) ++
  (match g.partner with
    | some p => if 65536 < g.tabA then (s.wg p).tables.map (fun e => tabSpan (s.wg p) e.2) else []
    | none => [])

/-! ### Entering a sum -/

/-- Direct mode's slot of a key, if it lies in the tile (R222). -/
def directSlot (d : Table) (key : Nat) : Option Nat :=
  let r := (key / 2 ^ 32 + 2 ^ 32 - d.row0) % 2 ^ 32
  let c := (key % 2 ^ 32 + 2 ^ 32 - d.col0) % 2 ^ 32
  if r ≤ d.m1 ∧ c ≤ d.n1 then some (r * (d.n1 + 1) + c) else none

/-- Home bucket hash of a key (R223). -/
def keyHash (key : Nat) : Nat :=
  let x := Nat.xor (key / 2 ^ 32 * 0x9E3779B1) (key % 2 ^ 32 * 0x85EBCA77) % 2 ^ 32
  let x := Nat.xor x (x / 2 ^ 15)
  let x := x * 0x2C1B3C6D % 2 ^ 32
  Nat.xor x (x / 2 ^ 12)

/-- The slots that a probe visits, in order (R223). -/
def probeSlots (d : Table) (key : Nat) : List Nat :=
  let b := d.size / 8
  let home := keyHash key % b
  (List.range d.probe).flatMap (fun t => (List.range 8).map (fun j => (home + t * (t + 1) / 2) % b * 8 + j))

/-- The slot of a probe that holds a key. -/
def probeHit (d : Table) (key : Nat) : Option Nat :=
  (probeSlots d key).find? (fun n => match kget? d.slots n with | some e => e.key == key | none => false)

/-- The first empty slot of a probe. -/
def probeEmpty (d : Table) (key : Nat) : Option Nat := (probeSlots d key).find? (fun n => (kget? d.slots n).isNone)

/-- A table with one slot set. -/
def Table.put (d : Table) (n : Nat) (e : TSlot) : Table := { d with slots := kset d.slots n { e with dirty := true } }

/-- A saturating 32-bit count. -/
def satAdd (a n : Nat) : Nat := min (a + n) (2 ^ 32 - 1)

/-- Where a sum goes (R222, R223): into the table, to nothing, or to the spill region. -/
inductive Goes where
  | into (d : Table)
  | discard
  | spill
  deriving DecidableEq, Repr

/-- Enters a sum under its key (R222, R223). -/
def enterSum (d : Table) (key v : Nat) : Goes :=
  if d.hash then
    match probeHit d key with
    | some n =>
      let e := (kget? d.slots n).getD { seeded := false, key := key, pos := 0, v := 0 }
      .into (d.put n { e with v := (e.v + v) % 2 ^ 256 })
    | none =>
      if d.seeded then .discard
      else match probeEmpty d key with
        | some n => .into (d.put n { seeded := false, key := key, pos := 0, v := v % 2 ^ 256 })
        | none => .spill
  else
    match directSlot d key with
    | none => .discard
    | some n =>
      match kget? d.slots n with
      | some e => if d.seeded && !e.seeded then .discard else .into (d.put n { e with v := (e.v + v) % 2 ^ 256 })
      | none => if d.seeded then .discard else .into (d.put n { seeded := false, key := key, pos := 0, v := v % 2 ^ 256 })

/-- A raw or spill record (Table 12-3). -/
def recordBytes (key v tag : Nat) (spilled seeded : Bool) : List Byte :=
  leBytes 8 key ++ leBytes 32 v ++ leBytes 4 tag ++ leBytes 4 ((if spilled then 1 else 0) + (if seeded then 2 else 0))

/-- One sum of a unit: key, value and the number of products that formed it; a null sum has none (R246). -/
abbrev Sum := Nat × Nat × Nat

/-- Enters a unit's sums in their order (R224, R225): the table after them with the spill records, or none where the spill
region has no room, so that nothing of the unit applies. -/
def enterUnit : Table → List Sum → Option (Table × List (Nat × List Byte))
  | d, [] => some (d, [])
  | d, (key, v, n) :: ss =>
    if n = 0 then enterUnit d ss
    else match enterSum d key v with
      | .into d => enterUnit d ss
      | .discard => enterUnit { d with discard := satAdd d.discard n } ss
      | .spill =>
        if d.spillCap ≤ d.spillCount then none
        else
          let r := (d.spillBase + 48 * d.spillCount, recordBytes key (v % 2 ^ 256) d.tag true false)
          (enterUnit { d with spillCount := d.spillCount + 1 } ss).map (fun e => (e.1, r :: e.2))

/-- Places a seed record (R229). -/
def seedOne (d : Table) (key pos : Nat) : Table :=
  let mark (n : Nat) (e : TSlot) : Table :=
    if e.seeded then d
    else { d.put n { e with seeded := true, key := key, pos := pos } with posEnd := max d.posEnd (pos + 1) }
  let fresh : TSlot := { seeded := false, key := key, pos := 0, v := 0 }
  let none_ : Table := { d with unplaced := satAdd d.unplaced 1 }
  if d.hash then
    match probeHit d key with
    | some n => mark n ((kget? d.slots n).getD fresh)
    | none => match probeEmpty d key with
      | some n => mark n fresh
      | none => none_
  else match directSlot d key with
    | none => none_
    | some n => mark n ((kget? d.slots n).getD fresh)

/-! ### Page checks -/

/-- Checks the pages of a range under R272 steps 2 to 4 and a further condition, page by page: the leaf entries, or a class and an
address. -/
def pagesFrom (th : Nat) (acc : Acc) (ok : State → Loc → Bool) : State → Nat → Nat → Except (FClass × Nat) (List Nat) × State
  | s, _, 0 => (.ok [], s)
  | s, a, n + 1 =>
    match resolve s th a acc with
    | (.error e, s) => (.error (e, a), s)
    | (.ok l, s) =>
      if !ok s l then (.error (.prot, a), s)
      else match pagesFrom th acc ok s (a / 4096 * 4096 + 4096) n with
        | (.ok ls, s) => (.ok ((l.leaf.toList.map (·.at_) ++ ls).eraseDups), s)
        | (.error e, s) => (.error e, s)

/-- Checks the pages that n bytes from an address on lie in; no bytes pass. -/
def pagesAt (s : State) (th : Nat) (acc : Acc) (ok : State → Loc → Bool) (a n : Nat) : Except (FClass × Nat) (List Nat) × State :=
  if n = 0 then (.ok [], s)
  else match resolve s th (a + n - 1) acc with
    | (.error e, s) =>
      match pagesFrom th acc ok s a ((a + n - 1) / 4096 - a / 4096 + 1) with
      | (.error e, s) => (.error e, s)
      | (.ok _, s) => (.error (e, a + n - 1), s)
    | (.ok _, s) => pagesFrom th acc ok s a ((a + n - 1) / 4096 - a / 4096 + 1)

/-- Checks a spill region (R228): alignment, then mapped writable in global space, then owned by the context. -/
def spillCheck (s : State) (th base cap : Nat) : Except (FClass × Nat) (List Nat) × State :=
  if cap = 0 then (.ok [], s)
  else if base % 16 ≠ 0 then (.error (.align, base), s)
  else match pagesAt s th .write (fun _ l => l.space == 0) base (48 * cap) with
    | (.error e, s) => (.error e, s)
    | (.ok _, s) => pagesAt s th .write (fun s l => ownedBy s (s.th th).pl.ctx l) base (48 * cap)

/-- Checks the spill regions of a workgroup's tables that the window has rewritten, as `sp.open` checks one (R225): each that passes is
pinned. -/
def regionsCheck (s : State) (th w : Nat) : Except (FClass × Nat) Unit × State :=
  (s.wg w).tables.foldl (fun acc e =>
    match acc with
    | (.error x, s) => (.error x, s)
    | (.ok _, s) =>
      if !e.2.unchecked then (.ok (), s)
      else match spillCheck s th e.2.spillBase e.2.spillCap with
        | (.error x, s) => (.error x, s)
        | (.ok pins, s) => (.ok (), modTable s w e.1 (fun d => { d with pins := pins, unchecked := false }))) (.ok (), s)

/-! ### The table instructions -/

/-- The table that an SPL instruction names (R227). -/
def tabName (x : LForm) : Nat := x.md.toNat % 4

/-- Runs a table instruction of the scalar unit on an open table; one that is not open is ILLEGAL (R227). -/
def tabOp (s : State) (x : LForm) (srcs : List Opnd) (dsts : List Nat)
    (body : State → Iss → Table → (Nat → Nat) → Nat → State) : Host.Outcome State Fault Refusal :=
  withIssuer s fun th k =>
    let i := issL x th k
    operate s i srcs dsts readActive fun s1 g =>
      match (if (s.th th).pl.kind == .strand then tableOf s (s.th th).pl.wg (tabName x) else none) with
      | none => engFault s s1 i .illegal 0
      | some d => body s1 i d (fun n => g.v n 0) g.cost

/-- Issues an operation on path X (R227, R267). -/
def issueX (s0 s : State) (i : Iss) (cost : Nat) (dests : List Nat) (w : Work) (f : State → Nat → State) : State :=
  raising s0 s i [5] fun s =>
    let (id, s) := newFlight s i.th [5] dests w
    finish (f s id) i cost

/-- Whether the run-time values of an `sp.open` break a limit of Table 12-7 or Table 12-1. -/
def openBad (s : State) (t : Strand) (p0 p1 p2 p3 : Nat) (pair : Bool) (d : Table) (name : Nat) : Bool :=
  let g := s.wg t.pl.wg
  let hash := bitOf p0 22
  !(openPar 0 p0 && openPar 1 p1 && openPar 2 p2 && openPar 3 p3) || (hash && p2 != 0) || pair == hash ||
  d.logS > (if d.scope = 0 then 14 else if d.scope = 1 then 16 else 17) ||
  d.b % d.size != 0 || g.tabA < d.b + d.size || (d.scope == 1 && g.tabA != 65536) ||
  (d.scope == 2 && (g.tabA != 131072 || !(s.launch g.launch).clu)) ||
  (!hash && d.size < (d.m1 + 1) * (d.n1 + 1)) || (otherTables s t.pl.wg name).any (tabsMeet (tabSpan g d))

/-- `sp.open` (R228): an open table is closed first, after every operation on it. -/
def execSpOpen (x : PForm) (s : State) : Host.Outcome State Fault Refusal :=
  withIssuer s fun th k =>
    let i := issP x th k
    let pair := isS x.l.c.toNat
    let org : Opnd := if pair then wide x.l.c .b64 else { spec := 479 }
    operate s i ([baseA x.l, srcB x.l, org] ++ parOpnds x) [] readActive fun s1 g =>
      let t := s.th th
      let v (n : Nat) : Nat := g.v n 0
      let p0 := parVal x.p0 (v 3)
      let p1 := parVal x.p1 (v 4)
      let p2 := parVal x.p2 (v 5)
      let p3 := parVal x.p3 (v 6)
      let hash := bitOf p0 22
      let name := tabName x.l
      let d : Table := { spillBase := v 0, spillCap := v 1, tag := p3, scope := bitsOf p0 23 2, hash := hash,
                         probe := bitsOf p0 18 4 + 1, logS := bitsOf p0 13 5, b := p1, m1 := bitsOf p2 12 12, n1 := bitsOf p2 0 12,
                         row0 := if hash then 0 else v 2 % 2 ^ 32, col0 := if hash then 0 else v 2 / 2 ^ 32 }
      if t.pl.kind != .strand || openBad s1 t p0 p1 p2 p3 pair d name then engFault s s1 i .illegal 0
      else match spillCheck s1 th (v 0) (v 1) with
        | (.error e, s2) => engFault s s2 i e.1 e.2
        | (.ok pins, s2) =>
          match tabBusy s2 t.pl.wg name (fun _ => true) with
          | some f => holdGroup (keepWalk s s2) th k (.flight f) false false i.size
          | none => issueX s s2 i g.cost [] (.tabop t.pl.wg name 0 [] {})
              fun s _ => s.modWg t.pl.wg (fun g => { g with tables := kset g.tables name { d with pins := pins } })

/-- `sp.seed` (R229): the list is checked at issue; its records are placed one by one. -/
def execSpSeed (x : LForm) (s : State) : Host.Outcome State Fault Refusal :=
  tabOp s x [baseA x, srcB x] [] fun s1 i _ v cost =>
    if v 0 % 16 ≠ 0 then engFault s s1 i .align (v 0)
    else match spanAt s1 i.th ⟨v 0, 16 * v 1, false⟩ with
      | (.error e, s2) => engFault s s2 i e.1 e.2
      | (.ok ls, s2) =>
        issueX s s2 i cost [] (.seed (s.th i.th).pl.wg (tabName x) (ls.map (·.pa)) (v 1) 0) fun s _ => s

/-- One seed record is placed (R229), after the strand's earlier operations on the table and the acquires and reads before it; the core keeps no
older copy of its bytes for a later load (R323). The first unit sets the seeded bit. -/
def execSeedRecordUnit (f : Nat) (s : State) : Host.Outcome State Fault Refusal :=
  match s.flight? f with
  | none => .next s
  | some f =>
    match f.work with
    | .seed w t pas count n =>
      if f.done || opWaits s f || acquirePending s f || readPending s f ((pas.drop (16 * n)).take 16) then .next s
      else
        let s := if n = 0 then modTable s w t (fun d => { d with seeded := true }) else s
        let here := (pas.drop (16 * n)).take 16
        let r := flightNat s f false here
        let s := dropLines s f.core here
        let s := if n < count then modTable s w t (fun d => seedOne d (r % 2 ^ 64) (bitsOf r 64 32)) else s
        if n + 1 < count then .next (s.modFlight f.id (fun f => { f with work := .seed w t pas count (n + 1) }))
        else .next (finishFlight s f.id)
    | _ => .next s

/-! ### Draining -/

/-- What a drain emits: table, format, form, stochastic rounding, scale, output address, and pitch or capacity (R230). -/
structure Drain where
  d : Table
  fmt : Nat
  form : Nat
  sr : Bool
  scale : FV
  out : Nat
  pc : Nat
  deriving Repr

/-- Bytes of an element (Table 12-9). -/
def Drain.z (o : Drain) : Nat := [4, 2, 2, 1, 1, 32].getD o.fmt 4

/-- The format of an element. -/
def Drain.fm (o : Drain) : Fmt := [fp32, bf16, fp16, e4m3, e5m2].getD o.fmt fp32

/-- The discarded bits of an entry (R179). -/
def Drain.disc (o : Drain) (v : Nat) : Nat :=
  let a := sextN v 256
  match (mulFV (.fin (a < 0) a.natAbs (-128)) o.scale).1 with
  | .fin n m e => if m = 0 then 0 else discard o.fm (.fin n m e)
  | _ => 0

/-- An entry's element (R197), given the entries of its group of 32 and its place among them. -/
def Drain.element (o : Drain) (v e : Nat) (grp : Nat → Option Nat) : Nat :=
  if o.fmt = 5 then v
  else
    let rnd := if o.sr then stochM 32 (fun j => match grp j with | some w => o.disc w | none => 0) e else 0
    accRound o.fm (if o.sr then 4 else 0) rnd (sextN v 256) o.scale

/-- The occupied slots in ascending key. -/
def Table.entries (d : Table) : List TSlot := sortBy (·.key) (d.slots.map (·.2))

/-- The bytes that a drain writes, each with its generic address, in emission order (R230, R231). -/
def Drain.writes (o : Drain) : List (Nat × Byte) :=
  let at_ (a : Nat) (bs : List Byte) : List (Nat × Byte) := (rangeFrom a (a + bs.length)).zip bs
  if o.form = 0 then
    let n := o.d.n1 + 1
    let val (r c : Nat) : Nat := match kget? o.d.slots (r * n + c) with | some e => e.v | none => 0
    (List.range (o.d.m1 + 1)).flatMap (fun r => (List.range n).flatMap (fun c =>
      at_ (o.out + r * o.pc + c * o.z) (leBytes o.z (o.element (val r c) (c % 32)
        (fun j => if c / 32 * 32 + j < n then some (val r (c / 32 * 32 + j)) else none)))))
  else
    let es := if o.form = 1 then o.d.entries else o.d.entries.filter (·.seeded)
    (List.range es.length).flatMap (fun n =>
      match es[n]? with
      | none => []
      | some e =>
        let el := o.element e.v (n % 32) (fun j => (es[n / 32 * 32 + j]?).map (·.v))
        if o.form = 2 then at_ (o.out + e.pos * o.z) (leBytes o.z el)
        else if o.fmt = 5 then at_ (o.out + 48 * n) (recordBytes e.key e.v o.d.tag false e.seeded)
        else at_ (o.out + 16 * n) (leBytes 8 e.key ++ leBytes 4 el ++ leBytes 4 0))

/-- The length of a drain's output range (R231). -/
def Drain.len (o : Drain) : Nat :=
  match o.form with
  | 0 => o.d.m1 * o.pc + (o.d.n1 + 1) * o.z
  | 1 => o.d.slots.length * (if o.fmt = 5 then 48 else 16)
  | _ => o.d.posEnd * o.z

/-- Writes by flat address. -/
def flatWrites (s : State) (th : Nat) (ws : List (Nat × Byte)) : List Host.Cell :=
  ws.filterMap (fun w => match (resolve s th w.1 .write).1 with | .ok l => some (l.pa, w.2) | .error _ => none)

/-- The leaf entries of the pages that some writes touch. -/
def writeLeaves (s : State) (th : Nat) (ws : List (Nat × Byte)) : List Nat :=
  (ws.flatMap (fun w => match (resolve s th w.1 .write).1 with | .ok l => l.leaf.toList.map (·.at_) | .error _ => [])).eraseDups

/-- `sp.drain` (R231): held until the strand's earlier operations on the table are done; the snapshot is taken, and cleared with
CLR, at its instant; its writes become visible at completion. -/
def execSpDrain (x : LForm) (s : State) : Host.Outcome State Fault Refusal :=
  let scat := bitsOf x.d.toNat 3 2 == 2
  tabOp s x [baseA x, { spec := x.b.toNat, ty := .f32 }, if scat then { spec := 479 } else srcC x] [] fun s1 i d v cost =>
    let t := s.th i.th
    let o : Drain := { d := d, fmt := bitsOf x.d.toNat 0 3, form := bitsOf x.d.toNat 3 2, sr := bitOf x.d.toNat 5,
                       scale := decodeF fp32 (v 1), out := v 0, pc := v 2 }
    let finite := match o.scale with | .fin _ _ _ => true | _ => false
    if (tabBusy s t.pl.wg (tabName x) (fun f => f.th == i.th)).isSome then
      holdGroup s i.th i.k (.table (tabName x)) false false i.size
    else if o.form = 0 && d.hash then engFault s s1 i .illegal 0
    else if !finite && o.fmt != 5 then engFault s s1 i .format 0
    else if o.out % o.z ≠ 0 ∨ (o.form = 0 ∧ (o.pc % o.z ≠ 0 ∨ o.pc < (d.n1 + 1) * o.z)) then engFault s s1 i .align o.out
    else if o.form = 1 && o.pc < d.slots.length then engFault s s1 i .spill 0
    else match pagesAt s1 i.th .write (fun _ l => !l.exact) o.out o.len with
      | (.error e, s2) => engFault s s2 i e.1 e.2
      | (.ok pins, s2) =>
        let rs := [lockRange s2 i.th o.out o.len true]
        withLock s s2 i rs fun s2 =>
          issueX s s2 i cost [] (.drain t.pl.wg (tabName x) (flatWrites s2 i.th o.writes) (writeLeaves s2 i.th o.writes)) fun s id =>
            let s := s.modFlight id (fun f => { f with pins := pins })
            let s := addLock s t.pl.core t.pl.ctx id rs
            if bitOf x.d.toNat 6 then
              modTable s t.pl.wg (tabName x) (fun d => { d with slots := [], seeded := false, posEnd := 0 })
            else s

/-- A drain's writes become visible, with no copy of their lines left on the other compute die (R400), and its lock and pins go (R231); an `sp.stat` reads its counts once the strand's earlier
operations on the table are done (R233); `sp.open`, `sp.clear` and `sp.close` complete. X falls. -/
def execDrainCompletion (f : Nat) (s : State) : Host.Outcome State Fault Refusal :=
  match s.flight? f with
  | none => .next s
  | some f =>
    match f.work with
    | .drain _ _ ws leaf =>
      let pas := ws.map (·.1)
      if f.done || lockWaits s f.id || writePending s f pas then .next s
      else if !(copiesOf s pas).isEmpty then .next (atHome s pas s)
      else
        let s := setDirty s leaf
        let s := endNarrow (dropLines { s with mem := memSets s.mem ws } f.core pas) pas
        .next (finishFlight (dropLock s f.id) f.id)
    | .tabop w t kind cells _ =>
      if f.done || opWaits s f then .next s
      else if kind = 3 then
        let d := (tableOf s w t).getD {}
        let vs := [d.slots.length, d.spillCount, d.discard, d.unplaced].map (BitVec.ofNat 32)
        .next (finishFlight (landCells s f (cells.zip vs)) f.id)
      else .next (finishFlight s f.id)
    | _ => .next s

/-- A table emptied with its counts zeroed (Table 12-11). -/
def Table.cleared (d : Table) (keep : Bool) : Table :=
  if keep then
    { d with slots := (d.slots.filter (·.2.seeded)).map (fun e => (e.1, { e.2 with v := 0, dirty := true })), spillCount := 0, discard := 0 }
  else { d with slots := [], seeded := false, posEnd := 0, spillCount := 0, discard := 0, unplaced := 0 }

/-- Runs `sp.clear` or `sp.close`: held until every operation on the table is done (R232). -/
def tabEnd (s : State) (x : LForm) (kind : Nat) (f : State → Nat → State) : Host.Outcome State Fault Refusal :=
  tabOp s x [] [] fun s1 i _ _ cost =>
    let w := (s.th i.th).pl.wg
    match tabBusy s w (tabName x) (fun _ => true) with
    | some f => holdGroup s i.th i.k (.flight f) false false i.size
    | none => issueX s s1 i cost [] (.tabop w (tabName x) kind [] {}) fun s _ => f s w

/-- `sp.clear` (R232). -/
def execSpClear (x : LForm) (s : State) : Host.Outcome State Fault Refusal :=
  tabEnd s x 1 (fun s w => modTable s w (tabName x) (fun d => d.cleared (bitOf x.md.toNat 2)))

/-- `sp.close` (R232). -/
def execSpClose (x : LForm) (s : State) : Host.Outcome State Fault Refusal :=
  tabEnd s x 2 (fun s w => s.modWg w (fun g => { g with tables := kdel g.tables (tabName x) }))

/-- `sp.stat` (R233). -/
def execSpStat (x : LForm) (s : State) : Host.Outcome State Fault Refusal :=
  tabOp s x [] [] fun s1 i _ _ cost =>
    let cells := (List.range 4).map (fun j => sCell (x.d.toNat - 384 + j))
    issueX s s1 i cost cells (.tabop (s.th i.th).pl.wg (tabName x) 3 cells {}) fun s _ => s

end Sys2Proof.Machine
end

