-- ==== Sys2Proof/Machine/Splice.lean ====
section
/-!
DEFINITION. The splice unit (R237 to R255): operands, units, suspension, and the power of the arrays (R251, R252).
The instants at which these effects happen are those of log 12 (DEDUCED).
-/

namespace Sys2Proof.Machine

/-! ### Multiplicands -/

/-- Whether the splice unit accepts a format (R193). -/
def splicable (f : Fmt) : Bool :=
  if f.isInt then f.w == 4 || f.w == 8 else f.e ≤ 5 && f.m ≤ 3 && f.bias ≤ 15

/-- Elements of a K-step by width (Table 13-1). -/
def kElems (w : Nat) : Nat := if w = 8 then 64 else if w = 6 then 80 else 128

/-- The value of a multiplicand's code, through a codebook where the format is one (R184). -/
def multV (f : Fmt) (cb : List Nat) (c : Nat) : FV := if f.rule = 3 then decodeF bf16 (cb.getD c 0) else decodeF f c

/-- The element codes of a 64-byte operand row (R240). -/
def rowCodes (f : Fmt) (bs : List Byte) : List Nat :=
  let x := leNat bs
  (List.range (kElems f.w)).map (fun k => bitsOf x (f.w * k) f.w)

/-- A row or column of a K-step: values with their scales. -/
abbrev Vec := List (FV × Int)

/-- An exact product with its combined scale in units of 2^−128, or none where it faults with FORMAT (R193, R243). -/
def product (a b : FV × Int) : Option Int :=
  match a.1, b.1 with
  | .fin x m e, .fin y n g =>
    if a.2 + b.2 < -64 ∨ 31 < a.2 + b.2 then none
    else some (FV.units (-128) (.fin (x != y) (m * n) (if m * n = 0 then -128 else e + g + a.2 + b.2)))
  | _, _ => none

/-- A sum of products modulo 2^256, with whether every product is zero; none where one faults (R196, R246). -/
def sumProducts (ps : List (Option Int)) : Option (Nat × Bool) :=
  (ps.mapM id).map (fun vs => (wrapN (vs.foldl (· + ·) 0) 256, vs.all (· == 0)))

/-- The sum of a row against a column: a null sum carries no product (R246). -/
def dotSum (key : Nat) (a b : Vec) : Option Sum :=
  (sumProducts (List.zipWith product a b)).map (fun r => (key, r.1, if r.2 then 0 else a.length))

/-- A result key (R246). -/
def resultKey (i j : Nat) : Nat := i % 2 ^ 32 * 2 ^ 32 + j % 2 ^ 32

/-! ### Units -/

/-- What a unit answers (R250): it waits with what it has popped, faults, has nothing left, or gives its sums, its discards without
a sum, and the progress after it. -/
inductive UnitAns where
  | waits (x : Splice) (q : Option (List FeedRow))
  | fault (c : FClass) (x : Splice) (q : Option (List FeedRow))
  | over
  | sums (l : List Sum) (extra : Nat) (x : Splice) (q : Option (List FeedRow))
  deriving DecidableEq, Repr

/-- The format of A. -/
def Splice.fa (x : Splice) : Fmt := nfFmt x.fmtA
/-- The format of B where a register names it. -/
def Splice.fb (x : Splice) : Fmt := nfFmt x.fmtB

/-- Row r of A with its scale (R241, R243). -/
def Splice.rowA (x : Splice) (r : Nat) : Vec :=
  (rowCodes x.fa (x.rows.getD r [])).map (fun c => (multV x.fa x.cbA c, x.sclA.getD r 0))

/-- Column half h of a feed row, decoded by its tag (R242, R243, R188, R190): none is FORMAT. -/
def feedColumn (x : Splice) (row : FeedRow) (h : Nat) : Option Vec :=
  match fmtOf row.tag.fmt with
  | none => none
  | some f =>
    if !splicable f || f.w != x.fa.w || 4 < row.tag.geo || (row.tag.slot != 0 && row.tag.fmt != 11) then none
    else
      let bs := ((row.words.drop (16 * h)).take 16).flatMap (fun w => leBytes 4 w.toNat)
      let cb := kgetD x.cbF row.tag.slot []
      let k := kElems f.w
      ((rowCodes f bs).zip (List.range k)).mapM (fun c =>
        let sc := if row.tag.geo = 0 then 0 else sextN (row.tag.scales.getD (k * h + c.2) 0) 8
        if sc < -64 ∨ 63 < sc then none else some (multV f cb c.1, sc))

/-- The columns of B for group g from scratchpad, read by the engine (R242, R255). -/
def scratchColumns (s : State) (f : Flight) (x : Splice) (g : Nat) : List (Option Vec) :=
  (List.range x.n).map (fun j =>
    let bs := (((x.bPas.drop (64 * (x.n * g + j))).take 64).map (fun pa => BitVec.ofNat 8 (engByte s f pa)))
    some ((rowCodes x.fb bs).map (fun c => (multV x.fb x.cbB c, x.sB))))

/-- Takes landed rows for a unit: the progress and the rest of the queue. -/
def takeRows (x : Splice) (q : List FeedRow) : Splice × List FeedRow :=
  let n := (x.n + 1) / 2 - x.heldRows.length
  ({ x with heldRows := x.heldRows ++ q.take n, popped := x.popped + min n q.length }, q.drop n)

/-- Captures the codebook slots that feed rows name, as they stand (R243, R186). -/
def captureRows (s : State) (ctx : Nat) (cbF : KMap (List Nat)) (rows : List FeedRow) : KMap (List Nat) :=
  rows.foldl (fun m r => if r.tag.fmt = 11 && (kget? m r.tag.slot).isNone then kset m r.tag.slot (codebook s ctx r.tag.slot) else m) cbF

/-- The columns of a unit from rows that it holds; one that no product uses may be none (R190). -/
def heldColumns (x : Splice) : List (Option Vec) :=
  (List.range x.n).map (fun j => (x.heldRows[j / 2]?).bind (fun r => feedColumn x r (j % 2)))

/-- Gives a unit the columns of B: from scratchpad at once, or from the feed queue once its rows have landed (R242). `keep` says
that rows popped stay for later units. -/
def withColumns (s : State) (f : Flight) (x : Splice) (g : Nat) (need keep : Bool)
    (body : List (Option Vec) → Splice → Option (List FeedRow) → UnitAns) : UnitAns :=
  match x.fq with
  | none => body (if need then scratchColumns s f x g else []) x none
  | some q =>
    if splicePops s f.th q f.id then .waits x none
    else
      let t := s.th f.th
      let r := takeRows x (t.fqs.getD q [])
      let y := { r.1 with cbF := captureRows s f.ctx r.1.cbF r.1.heldRows }
      if y.heldRows.length < (x.n + 1) / 2 then
        if t.access.elim true (·.ended) && !s.fl.any (fun g => g.th == f.th && !g.done &&
            (match g.work with | .feed p _ _ _ _ => p == q | _ => false)) then .fault .queue y (some r.2)
        else .waits y (some r.2)
      else
        let z := if keep then y else { y with heldRows := [] }
        if !need then body [] z (some r.2)
        else match body (heldColumns y) z (some r.2) with
          | .fault c _ q => .fault c y q
          | a => a

/-- The rows lo to lo + n − 1 of A against columns (R246). -/
def blockSums (x : Splice) (lo n : Nat) (cs : List (Option Vec)) : Option (List Sum) :=
  ((rangeFrom lo (lo + n)).mapM (fun r =>
    let a := x.rowA r
    (cs.zip (List.range cs.length)).mapM (fun (c : Option Vec × Nat) => c.1.bind (dotSum (resultKey (x.oi + r) (x.oj + c.2)) a)))).map (fun l => l.flatMap id)

/-- A dense unit: the K-step of `sp.mma`, or a group of `sp.grp` (R246, R249). -/
def denseUnit (s : State) (f : Flight) (x : Splice) : UnitAns :=
  let total := if x.minor = 4 then x.sizes.length else 1
  if total ≤ x.unitsDone then .over
  else
    let lo := if x.minor = 4 then (x.sizes.take x.unitsDone).foldl (· + ·) 0 else 0
    let n := if x.minor = 4 then x.sizes.getD x.unitsDone 0 else x.m
    withColumns s f x x.unitsDone (n != 0) false fun cs y q =>
      match blockSums x lo n cs with
      | none => .fault .format y q
      | some l => .sums l 0 { y with unitsDone := x.unitsDone + 1, p := if x.minor = 4 then x.p + 1 else x.p } q

/-- A PAIR unit of up to 128 entries (R248). -/
def pairUnit (s : State) (f : Flight) (x : Splice) : UnitAns :=
  if x.count ≤ x.p then .over
  else withColumns s f x 0 true true fun cs y q =>
    let es := (rangeFrom x.p (min (x.p + 128) x.count)).map (fun e =>
      engNat s f ((x.aPas.drop (4 * e)).take 4))
    let inside := es.filter (fun w => w % 2 ^ 16 < x.m && w / 2 ^ 16 < x.n)
    let sum (w : Nat) : Option Sum :=
      (cs.getD (w / 2 ^ 16) none).bind (dotSum (resultKey (x.oi + w % 2 ^ 16) (x.oj + w / 2 ^ 16)) (x.rowA (w % 2 ^ 16)))
    match inside.mapM sum with
    | none => .fault .format y q
    | some l => .sums l ((es.length - inside.length) * kElems x.fa.w)
        { y with unitsDone := x.unitsDone + 1, p := min (x.p + 128) x.count } q

/-- A REC unit of up to 64 records (R247): each counts as one product, never null. -/
def recUnit (s : State) (f : Flight) (x : Splice) : UnitAns :=
  if x.count ≤ x.p then .over
  else
    let n := min (x.p + 64) x.count
    let one (r : Nat) : Sum :=
      let v := engNat s f ((x.aPas.drop (48 * r)).take 40)
      (v % 2 ^ 64, v / 2 ^ 64, 1)
    .sums ((rangeFrom x.p n).map one) 0 { x with unitsDone := x.unitsDone + 1, p := n } none

/-- A join tuple (Table 13-6). -/
def tupleAt (s : State) (f : Flight) (pas : List Nat) (n : Nat) : Nat := engNat s f ((pas.drop (8 * n)).take 8)

/-- The matching index of a tuple. -/
def tupleK (v : Nat) : Nat := bitsOf v 8 24

/-- Goes on through two streams for at most `need` products in A-major order (R247): the products as pairs of tuples, with the
positions and the run index after them. -/
def kjGo : Nat → Nat → List Nat → List Nat → Nat → Nat → Nat → List (Nat × Nat) × Nat × Nat × Nat
  | 0, _, _, _, p, q, run => ([], p, q, run)
  | _ + 1, _, [], _, p, q, run => ([], p, q, run)
  | _ + 1, _, _, [], p, q, run => ([], p, q, run)
  | fuel + 1, need, a :: as, b :: bs, p, q, run =>
    if need = 0 then ([], p, q, run)
    else if tupleK a < tupleK b then kjGo fuel need as (b :: bs) (p + 1) q 0
    else if tupleK b < tupleK a then kjGo fuel need (a :: as) bs p (q + 1) 0
    else
      let ra := (a :: as).takeWhile (fun v => tupleK v == tupleK a)
      let rb := (b :: bs).takeWhile (fun v => tupleK v == tupleK b)
      let total := ra.length * rb.length
      let n := min need (total - run)
      let out := (rangeFrom run (run + n)).map (fun e => (ra.getD (e / rb.length) 0, rb.getD (e % rb.length) 0))
      if run + n < total then (out, p, q, run + n)
      else
        let r := kjGo fuel (need - n) ((a :: as).drop ra.length) ((b :: bs).drop rb.length) (p + ra.length) (q + rb.length) 0
        (out ++ r.1, r.2)

/-- Adds a product to the sum of its key. -/
def addProduct (l : List (Nat × List (Option Int))) (key : Nat) (v : Option Int) : List (Nat × List (Option Int)) :=
  if l.any (·.1 == key) then l.map (fun e => if e.1 = key then (e.1, v :: e.2) else e) else l ++ [(key, [v])]

/-- A KJ unit of up to 128 products (R247). -/
def kjUnit (s : State) (f : Flight) (x : Splice) : UnitAns :=
  let as := (rangeFrom x.p x.na).map (tupleAt s f x.aPas)
  let bs := (rangeFrom x.q x.nb).map (tupleAt s f x.bPas)
  let r := kjGo (x.na + x.nb + 1) 128 as bs x.p x.q x.run
  if r.1.isEmpty then .over
  else
    let val (m : Fmt) (cb : List Nat) (sc : Int) (v : Nat) : FV × Int := (multV m cb (v % 2 ^ m.w), sc)
    let ps := r.1.foldl (fun l e => addProduct l (resultKey (e.1 / 2 ^ 32) (e.2 / 2 ^ 32))
      (product (val x.fa x.cbA (x.sclA.getD 0 0) e.1) (val x.fb x.cbB x.sB e.2))) []
    match ps.mapM (fun e => (sumProducts e.2).map (fun r => (e.1, r.1, if r.2 then 0 else e.2.length))) with
    | none => .fault .format x none
    | some l => .sums l 0 { x with unitsDone := x.unitsDone + 1, p := r.2.1, q := r.2.2.1, run := r.2.2.2 } none

/-- The next unit of an operation (R250). -/
def unitOf (s : State) (f : Flight) (x : Splice) : UnitAns :=
  if x.minor = 3 then (if x.recMode then recUnit s f x else if x.pair then pairUnit s f x else kjUnit s f x)
  else denseUnit s f x

/-! ### Serving units -/

/-- Whether an array does not serve an operation (R239): another operation has slaved it; or, for a spanning operation, one
ordered before it on the array has not retired. -/
def arrayBusy (s : State) (f : Flight) (spans : Bool) (q : Nat) : Bool :=
  ((s.quad q).slaved.elim false (· != f.id)) ||
  (spans && s.fl.any (fun g => g.id < f.id && !g.done && (match g.work with
    | .splice y => (match tableOf s y.wg y.table with
      | some d => d.scope != 0 && (homeArrays (s.wg y.wg) d).contains q
      | none => false)
    | _ => false)))

/-- A spanning operation takes each of its arrays that it may take, which then serve it alone and stay idle until it has them all
(R239). -/
def takeArrays (s : State) (f : Flight) (qs : List Nat) : State :=
  qs.foldl (fun s q => if arrayBusy s f true q then s else s.modQuad q (fun a => { a with slaved := some f.id })) s

/-- Frees the arrays that an operation has taken (R239). -/
def freeArrays (s : State) (id : Nat) : State :=
  { s with quads := s.quads.map (fun e => if e.2.slaved = some id then (e.1, { e.2 with slaved := none }) else e) }

/-- Ends a splice operation (R225, R239, R265, R330): its spill records become visible, the D bits of their pages first, its arrays and
locks are free, X falls. -/
def endSplice (s : State) (f : Flight) (x : Splice) : State :=
  let s := setDirty s x.leaves
  let s := endNarrow (dropLines { s with mem := memSets s.mem x.spilled } f.core (x.spilled.map (·.1))) (x.spilled.map (·.1))
  finishFlight (dropLock (freeArrays s f.id) f.id) f.id

/-- The spill records of a unit as lock ranges (Table 16-7). -/
def spillRanges (rs : List (Nat × List Byte)) : List LockRange := rs.map (fun r => { space := 0, lo := r.1, len := r.2.length, write := true })

/-- Whether a write of some bytes meets another entry's lock (R301). -/
def spillLocked (s : State) (f : Flight) (rs : List LockRange) : Bool :=
  s.lk.entries.any (fun e => e.flight != f.id && e.ctx == f.ctx && dieOfCore e.core == dieOfCore f.core &&
    rs.any (fun r => e.ranges.any (fun q => q.space == r.space && overlap r.lo r.len q.lo q.len)))

/-- Puts the queue that a unit popped from back. -/
def putQueue (s : State) (th : Nat) (x : Splice) (q : Option (List FeedRow)) : State :=
  match x.fq, q with
  | some n, some rows => s.modTh th (fun t => { t with fqs := t.fqs.set n rows })
  | _, _ => s

/-- Sets the work of a splice operation, with the codebook slots it has captured. -/
def setSplice (s : State) (id : Nat) (x : Splice) : State :=
  s.modFlight id (fun f => { f with work := .splice x, caps := (f.caps ++ x.cbF.map (·.1)).eraseDups })

/-- Suspends an operation at its next unit (R250). -/
def suspend (s : State) (f : Flight) (x : Splice) (c : FClass) : State :=
  asyncFault (setSplice s f.id { x with suspended := true }) f.th
    { pc := x.pc, cls := c, source := 2, detail := x.unitsDone }

/-- Ends an operation that has no unit left, once its core's earlier commits to what it spilled are applied (R274, R336) and the other compute
die holds no copy of it (R400). -/
def closeSplice (s : State) (f : Flight) (x : Splice) : State :=
  let pas := x.spilled.map (·.1)
  if writePending s f pas then s else atHome s pas (endSplice s f x)

/-- Finishes an operation that has no unit left. -/
def settleSplice (s : State) (id : Nat) : State :=
  match s.flight? id with
  | none => s
  | some f => match f.work with
    | .splice x => (match unitOf s f x with | .over => closeSplice s f x | _ => s)
    | _ => s

/-- Keeps what a unit has spilled in order with later operations and commits until the operation completes, with a quiet entry (R225, R301;
DEDUCED, log 11). -/
def quietLock (s : State) (f : Flight) (rs : List LockRange) : State :=
  if rs.isEmpty then s
  else
    let e : LockEntry := { reg := s.lk.next, ctx := f.ctx, core := f.core, overflow := false, flight := f.id, ranges := rs, quiet := true }
    { s with lk := { entries := s.lk.entries ++ [e], next := s.lk.next + 1 } }

/-- Applies a unit to its table whole, or suspends the operation at it (R224, R225, R250, R406). The records that it spills register for the
unit, which waits for other locks on their bytes and for a free entry (R299, R301). The region is the one that the table names now, also where a
handler has rewritten it and no resume has checked it yet; bytes of a record that no table maps are not written (DEDUCED, log 12). -/
def applyUnit (s : State) (f : Flight) (x y : Splice) (d : Table) (l : List Sum) (extra : Nat) (q : Option (List FeedRow)) : State :=
  match enterUnit { d with discard := satAdd d.discard extra } (sortBy (·.1) l) with
  | none => suspend s f { x with cbF := y.cbF } .spill
  | some (d', rs) =>
    match (if spillLocked s f (spillRanges rs) then none
      else if rs.isEmpty then some s else lockPass s f.core f.ctx (spillRanges rs)) with
    | none => s
    | some s =>
      let cells := rs.flatMap (fun r => (List.range r.2.length).zip r.2 |>.filterMap (fun b =>
        (walk s f.ctx (r.1 + b.1)).map (fun l => (l.at_, l.pa (r.1 + b.1), b.2))))
      let s := { putQueue s f.th x q with mem := (rs.flatMap (fun r => (walk s f.ctx r.1).toList ++ (walk s f.ctx (r.1 + 47)).toList)).foldl setAccessed s.mem }
      let s := quietLock (modTable s x.wg x.table (fun _ => d')) f (spillRanges rs)
      let s := (homeArrays (s.wg x.wg) d).foldl (fun s n => s.modQuad n (fun a => { a with credit := a.credit - 1, idleAt := s.now })) s
      settleSplice (setSplice s f.id { y with spilled := y.spilled ++ cells.map (·.2), leaves := (y.leaves ++ cells.map (·.1)).eraseDups }) f.id

/-- An array applies one unit (R250), unless the strand is halted (R253): after the strand's earlier operations on the table and its acquires
before it (R332), on arrays that are ramped up and serve the operation, once its operands are there. -/
def execSpliceUnit (f : Nat) (s : State) : Host.Outcome State Fault Refusal :=
  match s.flight? f with
  | none => .next s
  | some f =>
    match f.work with
    | .splice x =>
      match tableOf s x.wg x.table with
      | none => .next s
      | some d =>
        let arrays := homeArrays (s.wg x.wg) d
        let spans := d.scope != 0
        if f.done || x.suspended || savedBase ≤ f.th || (s.th f.th).ps.halted then .next s
        else
          let s := if spans then takeArrays s f arrays else s
          if opWaits s f || lockWaits s f.id || acquirePending s f || arrays.any (arrayBusy s f spans) ||
            !arrays.all (fun q => (s.quad q).ramped) then .next s
          else
          match unitOf s f x with
          | .over => .next (closeSplice s f x)
          | .waits y q => .next (setSplice (putQueue s f.th x q) f.id y)
          | .fault c y q => .next (suspend (putQueue s f.th x q) f y c)
          | .sums l extra y q => .next (applyUnit s f x y d l extra q)
    | _ => .next s

/-! ### Issue -/

/-- Stops a splice instruction: the record names the lowest active lane of the group (R238). -/
def spliceFault (s0 s : State) (i : Iss) (c : FClass) (a : Nat) : State :=
  faultAt (keepWalk s0 s) i.th i.k c (1#32 <<< ((lanesOf ((s0.th i.th).grp i.k).mask).headD 0)) a 0

/-- The mode of a splice instruction: 0 mma, 1 PAIR, 2 KJ, 3 REC, 4 grp. -/
def spliceMode (x : LForm) (minor : Nat) : Nat :=
  if minor = 2 then 0 else if minor = 4 then 4
  else if bitOf x.md.toNat 3 then 3 else if bitOf x.md.toNat 2 then 1 else 2

/-- The greatest shape that a table's scope allows (R245). -/
def shapeLimit (scope : Nat) : Nat × Nat := if scope = 0 then (128, 128) else if scope = 1 then (256, 256) else (256, 512)

/-- Whether a strand may issue on a table (R238): from a core of its span, and for a pair from the even core. -/
def coreServes (g : Workgroup) (t : Strand) (d : Table) : Bool :=
  if d.scope = 2 then t.pl.core % 2 == 0 else (homeArrays g d).all (fun q => q / 4 == t.pl.core)

/-- A format word that the splice unit accepts (R193). -/
def nfOk (v : Nat) : Bool := splicable (nfFmt v)

/-- The codebook that a format word names, captured at issue (R186, R243). -/
def nfBook (s : State) (ctx v : Nat) : List Nat := if (nfFmt v).rule = 3 then codebook s ctx (nfSlot v) else []

/-- The slots captured through format words. -/
def nfCaps (vs : List Nat) : List Nat := (vs.filter (fun v => (nfFmt v).rule == 3)).map nfSlot

/-- A signed byte of a parameter (Table 13-3). -/
def sByte (v lo : Nat) : Int := sextN (bitsOf v lo 8) 8

/-- A scale within −64..+63 (R190). -/
def scaleOk (v : Int) : Bool := -64 ≤ v && v ≤ 63

/-- Issues a splice operation: lock room, path X, its entry and pins (R255, R299). -/
def issueSplice (s0 s : State) (i : Iss) (cost : Nat) (x : Splice) (rs : List LockRange) (pins caps : List Nat)
    (last : State → State) : State :=
  withLock s0 s i rs fun s => raising s0 s i [5] fun s =>
    let t := s.th i.th
    let (id, s) := newFlight (last s) i.th [5] [] (.splice x)
    let s := s.modFlight id (fun f => { f with pins := pins, caps := (caps ++ x.cbF.map (·.1)).eraseDups })
    finish (addLock s t.pl.core t.pl.ctx id rs) i cost

/-- The 64 bytes of row r of A from captured register words (R241). -/
def rowBytes (rows : List (List Word)) (r : Nat) : List Byte :=
  (((rows.getD (r / 2) []).drop (16 * (r % 2))).take 16).flatMap (fun w => leBytes 4 w.toNat)

/-- A dense splice: `sp.mma`, PAIR or `sp.grp` (R240 to R246, R248, R249). -/
def spliceDense (s : State) (x : PForm) (mode : Nat) : Host.Outcome State Fault Refusal :=
  withIssuer s fun th k =>
    let i := issP x th k
    let t := s.th th
    let g := s.wg t.pl.wg
    let pv := given s i (parOpnds x)
    let p0 := parVal x.p0 (pv.v 0 0)
    let p1 := parVal x.p1 (pv.v 1 0)
    let p2 := parVal x.p2 (pv.v 2 0)
    let p3 := parVal x.p3 (pv.v 3 0)
    let groups := p1 / 2 ^ 16
    let sizes := if mode = 4 then (grpSizes p2 p3).take groups else []
    let m := if mode = 4 then sizes.foldl (· + ·) 0 else bitsOf p0 17 8 + 1
    let n := bitsOf p0 0 9 + 1
    let a := x.l.a.toNat
    let fq := isFq x.l.b.toNat
    let shape := m * 1024 + n
    let held := if x.l.ru then t.ct.latch.bind (fun l => if l.spec = a && l.shape = shape then some l.rows else none) else none
    let okA := aBlock a m
    let regs := (m + 1) / 2
    let scl := mode != 1 && isFG x.l.c.toNat
    let sregs := (m + 127) / 128
    let okC := !scl || aBlock x.l.c.toNat (2 * sregs)
    let none_ : Opnd := { spec := 479 }
    let srcs := [if held.isSome || !okA then none_ else { spec := a, regs := regs },
                 if scl && okC then { spec := x.l.c.toNat, regs := sregs } else if mode = 1 then srcC x.l else none_,
                 if fq then none_ else srcB x.l, if mode = 4 then wide x.l.d .b64 else none_] ++ parOpnds x
    operate s i srcs [] readActive fun s1 gv =>
      let fail := spliceFault s s1 i
      match (if t.pl.kind == .strand then tableOf s t.pl.wg (tabName x.l) else none) with
      | none => fail .illegal 0
      | some d =>
        let lim := shapeLimit d.scope
        let wa := nfOf s th (bitsOf p0 15 2)
        let wb := nfOf s th (bitsOf p0 13 2)
        let sA := sByte p1 0
        let sB := sByte p1 8
        if !(spPar mode 0 p0 && spPar mode 1 p1) || !okA || !okC || lim.1 < m || lim.2 < n || (fq && bitsOf p0 13 2 != 0) ||
            (mode == 4 && ((grpSizes p2 p3).drop groups).any (· != 0)) || !coreServes g t d then fail .illegal 0
        else
          let rows := match held with
            | some r => r
            | none => (List.range regs).map (fun j => (List.range 32).map (fun l =>
                if gv.act.getLsbD l then BitVec.ofNat 32 (bitsOf (gv.v 0 l) (32 * j) 32) else 0))
          let byte (r : Nat) : Int :=
            let l := r % 128 / 4
            if gv.act.getLsbD l then sextN (bitsOf (gv.v 1 l) (32 * (r / 128) + 8 * (r % 4)) 8) 8 else 0
          let scls := (List.range m).map (fun r => if scl then byte r else sA)
          if !nfOk wa || (!fq && (!nfOk wb || (nfFmt wa).w != (nfFmt wb).w)) || !scls.all scaleOk ||
              (!scl && !scaleOk sA) || (!fq && !scaleOk sB) ||
              (!fq && scls.any (fun v => v + sB < -64 || 31 < v + sB)) then fail .format 0
          else
            let off := gv.v 2 0
            let list := gv.v 1 0
            let nB := if fq then 0 else 64 * n * (if mode = 4 then groups else 1)
            let nL := if mode = 1 then 4 * (p1 / 2 ^ 16) else 0
            if !fq && off % 8 != 0 then fail .align (spaceBase 2 + off)
            else if mode = 1 && list % 4 != 0 then fail .align (spaceBase 2 + list)
            else match spansAt th s1 [⟨spaceBase 2 + off, nB, false⟩, ⟨spaceBase 2 + list, nL, false⟩] with
              | (.error e, s2) => spliceFault s s2 i e.1 e.2
              | (.ok ls, s2) =>
                let y : Splice := {
                  minor := if mode = 0 then 2 else if mode = 1 then 3 else 4, wg := t.pl.wg, table := tabName x.l, pair := mode == 1,
                  pc := curPc t k, lane := (lanesOf (t.grp k).mask).headD 0, fmtA := wa, fmtB := wb,
                  cbA := nfBook s t.pl.ctx wa, cbB := if fq then [] else nfBook s t.pl.ctx wb,
                  rows := (List.range m).map (rowBytes rows), sclA := scls, sB := sB, m := m, n := n,
                  oi := if mode = 4 then gv.v 3 0 % 2 ^ 32 else p2, oj := if mode = 4 then gv.v 3 0 / 2 ^ 32 else p3,
                  fq := if fq then some (x.l.b.toNat - 464) else none, off := off, count := p1 / 2 ^ 16, sizes := sizes,
                  aPas := (ls.getD 1 []).map (·.pa), bPas := (ls.getD 0 []).map (·.pa),
                  cbF := if fq then captureRows s t.pl.ctx [] (t.fqs.getD (x.l.b.toNat - 464) []) else [] }
                issueSplice s s2 i gv.cost y
                  [lockRange s2 th (spaceBase 2 + off) nB false, lockRange s2 th (spaceBase 2 + list) nL false] []
                  (nfCaps (wa :: (if fq then [] else [wb])))
                  (fun s => s.modTh th (fun t => { t with ct := { t.ct with
                    latch := if x.l.ru then some { spec := a, shape := shape, rows := rows } else none } }))

/-- `sp.mma` (R246). -/
def execSpMma (x : PForm) (s : State) : Host.Outcome State Fault Refusal := spliceDense s x 0
/-- `sp.join` in PAIR mode (R248). -/
def execSpJoinPair (x : PForm) (s : State) : Host.Outcome State Fault Refusal := spliceDense s x 1
/-- `sp.grp` (R249). -/
def execSpGrp (x : PForm) (s : State) : Host.Outcome State Fault Refusal := spliceDense s x 4

/-- `sp.join` over streams in memory: KJ and REC (R247). -/
def spliceJoin (s : State) (x : PForm) (recMode : Bool) : Host.Outcome State Fault Refusal :=
  withIssuer s fun th k =>
    let i := issP x th k
    let t := s.th th
    operate s i ([baseA x.l, if recMode then { spec := 479 } else wide x.l.b .b64] ++ parOpnds x) [] readActive fun s1 gv =>
      let p0 := parVal x.p0 (gv.v 2 0)
      let p1 := parVal x.p1 (gv.v 3 0)
      let p2 := parVal x.p2 (gv.v 4 0)
      let p3 := parVal x.p3 (gv.v 5 0)
      let fail := spliceFault s s1 i
      let a := gv.v 0 0
      let b := gv.v 1 0
      let mode := if recMode then 3 else 2
      match (if t.pl.kind == .strand then tableOf s t.pl.wg (tabName x.l) else none) with
      | none => fail .illegal 0
      | some d =>
        let wa := nfOf s th (bitsOf p0 15 2)
        let wb := nfOf s th (bitsOf p0 13 2)
        let sA := sByte p3 0
        let sB := sByte p3 8
        if !(spPar mode 0 p0 && spPar mode 1 p1 && spPar mode 2 p2 && spPar mode 3 p3) || !coreServes (s.wg t.pl.wg) t d then
          fail .illegal 0
        else if !recMode && (!nfOk wa || !nfOk wb || !scaleOk sA || !scaleOk sB || sA + sB < -64 || 31 < sA + sB) then fail .format 0
        else if a % (if recMode then 16 else 8) ≠ 0 then fail .align a
        else if !recMode && b % 8 ≠ 0 then fail .align b
        else
          let nA := if recMode then 48 * p1 else 8 * p1
          let nB := if recMode then 0 else 8 * p2
          match spansAt th s1 [⟨a, nA, false⟩, ⟨b, nB, false⟩] with
          | (.error e, s2) => spliceFault s s2 i e.1 e.2
          | (.ok ls, s2) =>
            let y : Splice := {
              minor := 3, wg := t.pl.wg, table := tabName x.l, recMode := recMode, pc := curPc t k,
              lane := (lanesOf (t.grp k).mask).headD 0, fmtA := wa, fmtB := wb,
              cbA := if recMode then [] else nfBook s t.pl.ctx wa, cbB := if recMode then [] else nfBook s t.pl.ctx wb,
              sclA := [sA], sB := sB, count := p1, na := p1, nb := p2,
              aPas := (ls.getD 0 []).map (·.pa), bPas := (ls.getD 1 []).map (·.pa) }
            issueSplice s s2 i gv.cost y [lockRange s2 th a nA false, lockRange s2 th b nB false] (leavesOf (ls.flatMap id))
              (if recMode then [] else nfCaps [wa, wb]) id

/-- `sp.join` in KJ mode (R247). -/
def execSpJoinKj (x : PForm) (s : State) : Host.Outcome State Fault Refusal := spliceJoin s x false
/-- `sp.join` in REC mode (R247). -/
def execSpJoinRec (x : PForm) (s : State) : Host.Outcome State Fault Refusal := spliceJoin s x true

/-! ### Power -/

/-- `burst` (R252): sets the credit of the table's arrays, and starts the ramp-up of those that are down. It raises no fault, so that a
scalar above 65,535 sets the credit to what it holds (DEDUCED, log 9). -/
def execBurst (x : LForm) (s : State) : Host.Outcome State Fault Refusal :=
  withIssuer s fun th k =>
    let i := issL x th k
    operate s i [srcA x] [] readActive fun s1 g =>
      match (if (s.th th).pl.kind == .strand then tableOf s (s.th th).pl.wg (tabName x) else none) with
        | none => finish s1 i g.cost
        | some d =>
          finish ((homeArrays (s.wg (s.th th).pl.wg) d).foldl (fun s q =>
            s.modQuad q (fun a => { a with credit := g.v 0 0, idleAt := s.now, rising := !a.ramped })) s1) i g.cost

/-- Whether an array has a unit to serve. -/
def arrayQueued (s : State) (q : Nat) : Bool :=
  s.fl.any (fun f => !f.done && (match f.work with
    | .splice x => !x.suspended && (match tableOf s x.wg x.table with
      | some d => (homeArrays (s.wg x.wg) d).contains q
      | none => false)
    | _ => false))

/-- An array with no queued unit and no credit for 256 cycles ramps down (R251). -/
def execArrayRampDown (q : Nat) (s : State) : Host.Outcome State Fault Refusal :=
  let a := s.quad q
  if a.ramped && !arrayQueued s q && a.credit == 0 && a.idleAt + 512 ≤ s.now then
    .next (s.modQuad q (fun a => { a with ramped := false }))
  else .next s

/-- An array that is down ramps up before its next unit, or for a `burst` (R251, R252). -/
def execArrayRampUp (q : Nat) (s : State) : Host.Outcome State Fault Refusal :=
  let a := s.quad q
  if !a.ramped && (arrayQueued s q || a.rising) then
    .next (s.modQuad q (fun a => { a with ramped := true, rising := false, idleAt := s.now }))
  else .next s

/-- Burst credit expires after 4,096 idle cycles (R252). -/
def execBurstCreditExpiry (q : Nat) (s : State) : Host.Outcome State Fault Refusal :=
  let a := s.quad q
  if a.credit != 0 && !arrayQueued s q && a.idleAt + 8192 ≤ s.now then
    .next (s.modQuad q (fun a => { a with credit := 0 }))
  else .next s

end Sys2Proof.Machine
end

