-- ==== Sys2Proof/Machine/Fld.lean ====
section
/-!
DEFINITION. The fairlead (R162 to R173): access threads, their clauses and faults, the FLD instructions, and rows that land.
The instants at which these effects happen are those of log 12 (DEDUCED).
-/

namespace Sys2Proof.Machine

/-! ### Access threads -/

/-- Changes a thread's access thread. -/
def modAccess (s : State) (th : Nat) (f : Access → Access) : State := s.modTh th (fun t => { t with access := t.access.map f })

/-- First parcel and end of the access slice in the code window (R62, R168). -/
def accessSlice (tr : Trans) : Nat × Nat := ((tr.off + tr.acOff) / 4, (tr.off + tr.acOff + tr.acLen) / 4)

/-- The parcel offset of an access thread's instruction. -/
def accessPc (a : Access) : Nat := match a.clause with | some c => c.hdr + 2 + c.pos | none => a.pc

/-- Stops an access thread at its instruction; its strand stops before its next clause pick (R171). The record's pc counts from the
access slice's first parcel (Table 18-2). -/
def accessFault (s : State) (th : Nat) (c : FClass) (addr pos : Nat) : State :=
  let pc := match (s.th th).access with
    | some a => accessPc a - (accessSlice (s.transTh (s.th th))).1
    | none => 0
  asyncFault (modAccess s th (fun a => { a with faulted := true })) th { pc := pc, pos := pos, addr := addr, cls := c, source := 1 }

/-- Moves an access thread past an instruction of some parcels. -/
def accessNext (a : Access) (size : Nat) : Access :=
  match a.clause with
  | none => a
  | some c =>
    if c.body.length ≤ c.pos + size then { a with clause := none, pc := c.hdr + 2 + c.body.length }
    else { a with clause := some { c with pos := c.pos + size } }

/-- An access thread that is to run on with no clause: it fetches its next one (R16, R168). -/
def accessFetch (s : State) (th : Nat) : State :=
  let t := s.th th
  match t.access with
  | none => s
  | some a =>
    if a.ended || a.faulted || a.clause.isSome || t.ps.halted then s
    else
      let sl := accessSlice (s.transTh t)
      if a.pc < sl.1 ∨ sl.2 ≤ a.pc then accessFault s th .illegal 0 a.pc
      else match fetchClause s t.pl.ctx t.pl.code .access a.pc with
        | (.ok c, s) => modAccess s th (fun a => { a with clause := some c })
        | (.error e, s) => accessFault s th e.cls e.addr e.pos

/-- The size of an instruction that is a `nop`. -/
def nopSize : Instr → Option Nat
  | .ctlsNop _ => some 1
  | .nop _ => some 2
  | _ => none

/-- Runs the meaning of an FLD instruction for the access thread of the thread that the step names. -/
def withAccess (s : State) (f : Nat → Access → State) : Host.Outcome State Fault Refusal :=
  match s.run.cur with
  | none => .fault .noIssuer
  | some th =>
    match (s.th th).access with
    | none => .fault .noIssuer
    | some a => if a.clause.isNone || a.ended || a.faulted then .fault .noIssuer else .next (f th a)

/-- Ends an FLD instruction with registers changed. -/
def accessDone (s : State) (th : Nat) (f : List Nat → List Nat) : State :=
  modAccess s th (fun a => accessNext { a with a := f a.a } 2)

/-- Register n of an access thread. -/
def aReg (a : Access) (n : Nat) : Nat := a.a.getD n 0

/-! ### Reads -/

/-- What a plain read of the fairlead answers: a value, a wait for a range lock (R173), or a class and an address. -/
inductive FeedRead where
  | val (v : Nat)
  | wait
  | bad (c : FClass) (a : Nat)
  deriving DecidableEq, Repr

/-- Reads n bytes at a generic address as a plain read (R173). -/
def feedWord (s : State) (th a n : Nat) : FeedRead × State :=
  if lockHit s th a n false then (.wait, s)
  else match resolveRun s th .read a n with
    | (.error e, s) => (.bad e.1 e.2, s)
    | (.ok ls, s) => (.val (coreNat s (s.th th).pl.core th 0 s.run.nextId false (ls.map (·.pa))), s)

/-- The rows of a feed queue, landed or in flight. -/
def feedRows (s : State) (th q : Nat) : Nat :=
  ((s.th th).fqs.getD q []).length +
  (s.fl.filter (fun f => f.th == th && !f.done && (match f.work with | .feed p _ _ _ _ => p == q | _ => false))).length

/-! ### The FLD instructions -/

/-- The 32-bit immediate of `a.set` (Table 9-4). -/
def setImm (x : LForm) : Nat := x.a.toNat + x.b.toNat * 2 ^ 9 + x.c.toNat * 2 ^ 18 + x.md.toNat * 2 ^ 27

/-- The offset of `a.loop` (Table 9-4). -/
def loopOff (x : LForm) : Int := sextN (x.c.toNat % 2 ^ 9 + x.fldG * 2 ^ 9 + x.md.toNat * 2 ^ 13) 18

/-- `a.set` (R164). -/
def execASet (x : LForm) (s : State) : Host.Outcome State Fault Refusal :=
  withAccess s fun th a =>
    let d := x.d.toNat
    let put (v : Nat) : State := accessDone s th (fun l => l.set d (v % 2 ^ 64))
    let ra := aReg a x.a.toNat
    match x.fldG with
    | 0 => put (setImm x)
    | 1 => put (aReg a d % 2 ^ 32 + setImm x * 2 ^ 32)
    | 2 => put (wrapN ((aReg a d : Int) + sextN (setImm x) 32) 64)
    | 3 => put (ra + aReg a x.b.toNat)
    | 4 => put (ra * aReg a x.b.toNat)
    | 5 =>
      let at_ := (ra + 8 * x.b.toNat) % 2 ^ 64
      if at_ % 8 ≠ 0 then accessFault s th .align at_ 0
      else match feedWord s th at_ 8 with
        | (.val v, s) => accessDone s th (fun l => l.set d v)
        | (.wait, s) => s
        | (.bad c a, s) => accessFault s th c a 0
    | _ => put (ra * 2 ^ x.b.toNat)

/-- `a.loop` (R165): its target, checked where it goes there, is a clause header of the access slice. -/
def execALoop (x : LForm) (s : State) : Host.Outcome State Fault Refusal :=
  withAccess s fun th a =>
    let ac := aReg a x.d.toNat
    let ap := x.a.toNat
    let step (l : List Nat) : List Nat :=
      let l := l.set x.d.toNat (ac - 1)
      if ap = 479 then l else l.set ap ((l.getD ap 0 + l.getD x.b.toNat 0) % 2 ^ 64)
    if ac = 0 then accessDone s th id
    else if (step a.a).getD x.d.toNat 0 = 0 then accessDone s th step
    else
      let t := s.th th
      let sl := accessSlice (s.transTh t)
      let go := (accessPc a : Int) + loopOff x
      if go < sl.1 ∨ (sl.2 : Int) ≤ go then accessFault s th .target 0 0
      else match codeRead s t.pl.ctx t.pl.code go.toNat true with
        | (.error c, s) => accessFault s th c (codeVa s t.pl.code go.toNat) 0
        | (.ok w, s) =>
          if w.toNat % 4 ≠ 3 then accessFault s th .target 0 0
          else modAccess s th (fun a => { a with a := step a.a, clause := none, pc := go.toNat })

/-- The flat address of the scale byte of each element of a row, one after another in both column halves (R166). -/
def rowScales (ls : List Loc) (w geo : Nat) : List (Option Nat) :=
  if geo = 0 ∨ 4 < geo then []
  else (List.range 2).flatMap (fun h => (List.range (kElems w)).map (fun k =>
    match ls[64 * h + w * k / 8]? with
    | some l => l.leaf.map (fun lf => lf.sidecar + 8 * (l.pa - lf.pa lf.va) / w / blockOf geo)
    | none => none))

/-- `a.ld` (R166, R169): waits for a free row, for path A below 255 and for range locks. -/
def execALd (x : LForm) (s : State) : Host.Outcome State Fault Refusal :=
  withAccess s fun th a =>
    let q := x.d.toNat - 464
    let at_ := aReg a x.a.toNat
    if at_ % 4 ≠ 0 then accessFault s th .align at_ 0
    else if 16 ≤ feedRows s th q || 255 ≤ counter s th 7 || lockHit s th at_ 128 false then s
    else match resolveRun s th .read at_ 128 with
      | (.error e, s) => accessFault s th e.1 e.2 0
      | (.ok ls, s) =>
        let tagOf (l : Loc) : Nat × Nat := match l.leaf with | some lf => (lf.fmt, lf.geo) | none => (0, 0)
        let fst := tagOf (ls.headD { pa := 0, path := 0, space := 0, leaf := none })
        if ls.any (fun l => tagOf l != fst) then accessFault s th .format at_ 0
        else
          let slot := match (ls.head?).bind (·.leaf) with | some lf => lf.slot | none => 0
          let tag : RowTag := { fmt := fst.1, geo := fst.2, slot := slot }
          let sc := match fmtOf fst.1 with | some f => rowScales ls f.w fst.2 | none => []
          accessDone (newFlight s th [7] [] (.feed q (ls.map (·.pa)) tag [] sc)).2 th id

/-- What a walk gathers: tuples, current row or entry, what is left, and the cursor; or a wait; or a fault (R167). -/
inductive Walked where
  | got (ts : List (Nat × Nat × Nat)) (r left cur : Nat)
  | wait
  | bad (c : FClass) (a : Nat)
  deriving DecidableEq, Repr

/-- Puts a tuple in front of what a walk gathers. -/
def Walked.cons (t : Nat × Nat × Nat) : Walked → Walked
  | .got ts r left cur => .got (t :: ts) r left cur
  | w => w

/-- Gathers up to `need` tuples of a CSR list (R167). -/
def csrGo (th rp col : Nat) : Nat → State → Nat → Nat → Nat → Nat → Walked × State
  | 0, s, _, r, left, cur => (.got [] r left cur, s)
  | fuel + 1, s, need, r, left, cur =>
    if left = 0 ∨ need = 0 then (.got [] r left cur, s)
    else match feedWord s th ((rp + 4 * r) % 2 ^ 64) 4 with
      | (.wait, s) => (.wait, s)
      | (.bad c a, s) => (.bad c a, s)
      | (.val lo, s) =>
        match feedWord s th ((rp + 4 * (r + 1)) % 2 ^ 64) 4 with
        | (.wait, s) => (.wait, s)
        | (.bad c a, s) => (.bad c a, s)
        | (.val hi, s) =>
          if hi ≤ lo + cur then csrGo th rp col fuel s need ((r + 1) % 2 ^ 64) (left - 1) 0
          else match feedWord s th ((col + 4 * (lo + cur)) % 2 ^ 64) 4 with
            | (.wait, s) => (.wait, s)
            | (.bad c a, s) => (.bad c a, s)
            | (.val j, s) =>
              match csrGo th rp col fuel s (need - 1) r left (cur + 1) with
              | (w, s) => (w.cons (r % 2 ^ 32, j, lo + cur), s)

/-- Gathers up to `need` tuples of a COO list (R167). -/
def cooGo (th row col : Nat) : Nat → State → Nat → Nat → Walked × State
  | 0, s, e, left => (.got [] e left 0, s)
  | need + 1, s, e, left =>
    if left = 0 then (.got [] e left 0, s)
    else match feedWord s th ((row + 4 * e) % 2 ^ 64) 4 with
      | (.wait, s) => (.wait, s)
      | (.bad c a, s) => (.bad c a, s)
      | (.val i, s) =>
        match feedWord s th ((col + 4 * e) % 2 ^ 64) 4 with
        | (.wait, s) => (.wait, s)
        | (.bad c a, s) => (.bad c a, s)
        | (.val j, s) =>
          match cooGo th row col need s ((e + 1) % 2 ^ 64) (left - 1) with
          | (w, s) => (w.cons (i, j, e % 2 ^ 32), s)

/-- A row of 32 words padded with ones (R167). -/
def padRow (vs : List Nat) : List Word := (List.range 32).map (fun l => match vs[l]? with | some v => BitVec.ofNat 32 v | none => 0xFFFFFFFF)

/-- `a.walk` (R167): one row of each queue at a time, when every queue concerned has a free row; a walk with nothing left to emit waits
for none. -/
def execAWalk (x : LForm) (s : State) : Host.Outcome State Fault Refusal :=
  withAccess s fun th a =>
    let q := x.d.toNat - 464
    let coo := bitOf x.md.toNat 4
    let qs := (List.range (if bitOf x.md.toNat 3 then 3 else 2)).map (· + q)
    let ax := x.a.toNat
    let p0 := aReg a ax
    let p1 := aReg a (ax + 1)
    let r := aReg a (ax + 2)
    let left := aReg a (ax + 3)
    if p0 % 4 ≠ 0 then accessFault s th .align p0 0
    else if p1 % 4 ≠ 0 then accessFault s th .align p1 0
    else
      match (if coo then cooGo th p0 p1 32 s r left else csrGo th p0 p1 (left + 33) s 32 r left a.cursor) with
      | (.wait, s) => s
      | (.bad c a, s) => accessFault s th c a 0
      | (.got ts r left cur, s) =>
        if !ts.isEmpty && (qs.any (fun q => 16 ≤ feedRows s th q) || 255 < counter s th 7 + qs.length) then s
        else
        let put (a : Access) : Access :=
          let a := { a with a := (a.a.set (ax + 2) r).set (ax + 3) left, cursor := cur }
          if left = 0 then accessNext { a with cursor := 0 } 2 else a
        let rows := [padRow (ts.map (·.1)), padRow (ts.map (·.2.1)), padRow (ts.map (·.2.2))]
        let s := if ts.isEmpty then s
          else (qs.zip rows).foldl (fun s e => (newFlight s th [7] [] (.feed e.1 [] {} e.2 [])).2) s
        modAccess s th put

/-- `a.sync` (R168). -/
def execASync (x : LForm) (s : State) : Host.Outcome State Fault Refusal :=
  withAccess s fun th _ => if feedRows s th (x.d.toNat - 464) ≤ x.a.toNat then accessDone s th id else s

/-- `a.end` (R168). -/
def execAEnd (_ : LForm) (s : State) : Host.Outcome State Fault Refusal :=
  withAccess s fun th _ => modAccess s th (fun a => { a with ended := true, clause := none })

/-- A row lands in its queue (R166, R169), in issue order; a splice operation that pops the queue captures the codebook slot that
the row names (R243). -/
def execFeedRowLand (f : Nat) (s : State) : Host.Outcome State Fault Refusal :=
  match s.flight? f with
  | none => .next s
  | some f =>
    match f.work with
    | .feed q pas tag words sc =>
      if f.done || s.fl.any (fun g => g.th == f.th && g.id < f.id && !g.done && (match g.work with | .feed _ _ _ _ _ => true | _ => false))
      then .next s
      else
        let byte (pa : Nat) : Nat := flightNat s f false [pa]
        let ws := if pas.isEmpty then words
          else (List.range 32).map (fun l => BitVec.ofNat 32 (flightNat s f false ((pas.drop (4 * l)).take 4)))
        let row : FeedRow := { words := ws, tag := { tag with scales := sc.map (fun o => match o with | some pa => byte pa | none => 0) } }
        let s := s.modTh f.th (fun t => { t with fqs := t.fqs.set q ((t.fqs.getD q []) ++ [row]) })
        let s := s.fl.foldl (fun s g => match g.work with
          | .splice x => if g.th == f.th && !g.done && x.fq == some q && x.popped < x.rowsInAll then
              setSplice s g.id { x with cbF := captureRows s g.ctx x.cbF [row] } else s
          | _ => s) s
        .next (finishFlight s f.id)
    | _ => .next s

end Sys2Proof.Machine
end

