-- ==== Sys2Proof/Machine/Lch.lean ====
section
/-!
DEFINITION. The LCH instructions: `launch` (R71 to R75, R385), `watch` (R381), `signal` (R382), `evwait` (R383), `qprio` (R384), and
the events that end a wait of a queue thread.
Corners that these rules leave to be inferred are read as log 14 says (DEDUCED).
-/

namespace Sys2Proof.Machine

/-! ### launch -/

/-- Cores on which a context owns a quadrant, ascending (R76). -/
def ownCores (c : Context) : List Nat := (c.quads.map (· / 4)).eraseDups

/-- Core pairs in which a context owns a quadrant, ascending (R76; log 14). -/
def ownPairs (c : Context) : List Nat := (c.quads.map (· / 8)).eraseDups

/-- The queue that a thread's launches belong to (R368, R385). -/
def launchQueue (s : State) (th : Nat) : Option Nat :=
  match (s.th th).pl.kind with
  | .strand => (s.launch (s.th th).pl.launch).queue
  | .handler => (s.th th).ct.ownQ
  | .queue => some (queueOf th)

/-- Whether the parameters of a launch keep their limits, with those of the code object named (R72). -/
def launchOk (p0 p1 p2 p3 : Nat) (strands : Option Nat) : Bool :=
  launchPar 0 p0 && launchPar 1 p1 && launchPar 2 p2 && launchPar 3 p3 && itemsOk p0 p1 p3 &&
  (match strands with | none => true | some n => (p2 / 2 ^ 16 + 31) / 32 ≤ n)

/-- Appends a launch to its context's distributor list (R73, R75, R76); it is placed once the stores that come before it are
applied. The context has one start pointer, which counts cores or pairs as the launch does, modulo their number (DEDUCED, log 14). -/
def addLaunch (s : State) (th : Nat) (l : Launch) : State :=
  let t := s.th th
  let c := s.ctx l.ctx
  let (id, s) := s.newId
  let n := if l.clu then (ownPairs c).length else (ownCores c).length
  let l := { l with start := c.start % n, rel := comesAfter s th 0xFFFFFFFF, queue := launchQueue s th }
  let s := { s with launches := kset s.launches id l }
  let s := s.modCtx l.ctx (fun c => { c with
    order := c.order ++ [id],
    start := (c.start % n + 1) % n })
  if t.pl.kind == .queue then s.modQueue (queueOf th) (fun q => { q with launches := (q.launches + 1) % 2 ^ 64 }) else s

/-- `launch` (R73). -/
def execLaunch (x : PForm) (s : State) : Host.Outcome State Fault Refusal :=
  withIssuer s fun th k =>
    let i := issP x th k
    operate s i ([srcA x.l, wide x.l.b .b64, wide x.l.c .b64] ++ parOpnds x) [] readActive fun s1 g =>
      let t := s.th th
      let grp := (t.grp k).mask
      let p0 := parVal x.p0 (g.v 3 0)
      let p1 := parVal x.p1 (g.v 4 0)
      let p2 := parVal x.p2 (g.v 5 0)
      let p3 := parVal x.p3 (g.v 6 0)
      let h := g.v 0 0
      let cw := g.v 2 0
      let code := (kget? s.codes h).filter (fun c => c.ctx == t.pl.ctx)
      if !launchOk p0 p1 p2 p3 (code.map (fun c => (s.transOf h c.cur).strands)) then illegalAt s th k grp
      else match code with
        | none => faultAt s th k .prot grp 0 0
        | some c =>
          if cw % 8 ≠ 0 then faultAt s th k .align grp cw 0
          else if spaceOf cw ≠ 0 then faultAt s th k .prot grp cw 0
          else match resolve s1 th cw .write with
            | (.error e, s2) => faultAt (keepWalk s s2) th k e grp cw 0
            | (.ok _, s2) =>
              let l : Launch := { ctx := t.pl.ctx, code := h, trans := c.cur, args := g.v 1 0, cw := cw, gx := p0, gy := p1 % 2 ^ 16,
                                  gz := p1 / 2 ^ 16, lanes := p2 / 2 ^ 16, items := p3, chk := bitOf p2 0, clu := bitOf p2 1,
                                  rst := bitOf p2 2 }
              raising s s2 i (commitPath (s2.th th) 0xFFFFFFFF) fun s2 => releasing s s2 i 0xFFFFFFFF 2 fun s2 =>
                finish (addLaunch (commitLanes s2 th 0xFFFFFFFF) th l) i g.cost

/-! ### watch -/

/-- Bytes of a watched word. -/
def watchSize (x : LForm) : Nat := if bitOf x.md.toNat 1 then 8 else 4

/-- The watched value is delivered: the thread acquires at the scope and goes on (R381). -/
def watchEnd (s : State) (i : Iss) (x : LForm) (v : Nat) : State :=
  let s := if (s.queue (queueOf i.th)).state = 2 then queueState s (queueOf i.th) 1 else s
  let s := acquireAt s i.th x.ty
  let s := if watchSize x = 8 then putScalar (putScalar s i x.d.toNat 4 0 (v % 2 ^ 32)) i (x.d.toNat + 1) 4 0 (v / 2 ^ 32)
    else putScalar s i x.d.toNat 4 0 v
  finish s i 0

/-- `watch` (R381): a condition that holds at issue ends it at once, any other makes the thread wait. -/
def execWatch (x : LForm) (s : State) : Host.Outcome State Fault Refusal :=
  withIssuer s fun th k =>
    let i := issL x th k
    let z := watchSize x
    operate s i [baseA x, if z = 8 then wide x.b .b64 else srcB x] [] readActive fun s1 g =>
      let a := g.v 0 0
      match accessAt s1 th a z .read with
      | (.error e, s2) => faultAt (keepWalk s s2) th k e ((s.th th).grp k).mask a 0
      | (.ok r, s2) => readAfter s s2 i r.pas fun s2 =>
        let pa := r.pas.headD 0
        let cond := x.c.toNat % 8
        let v := memNat s2.mem pa z
        if watchCond cond (8 * z) v (g.v 1 0) then watchEnd s2 i x v
        else
          let poll := inHost pa || (windowOf pa).isSome
          holdGroup (queueState s2 (queueOf th) 2) th k (.word pa (g.v 1 0) cond z poll r.dirty none) false true i.size

/-- Ends the wait of a queue thread at a `watch` with a value, where it is at one. -/
def watchGo (s : State) (q v : Nat) : State :=
  match nextInstr (s.th (queueNo q)) 0 with
  | some (.watch x) => watchEnd s (issL x (queueNo q) 0) x v
  | _ => s

/-- What a queue thread waits for at a `watch`. -/
def watched (s : State) (q : Nat) : Option Hold :=
  match (s.th (queueNo q)).ps.s0.grp with
  | some g => if g.st == .waiting && !(s.th (queueNo q)).ct.stopped then some g.hold else none
  | none => none

/-- The home has found a value that meets a watch (R381). -/
def execWatchMet (q : Nat) (s : State) : Host.Outcome State Fault Refusal :=
  match watched s q with
  | some (.word _ _ _ _ _ _ (some v)) => .next (watchGo s q v)
  | _ => .next s

/-- A watched word in host memory or a device-link window is read (R381). -/
def execWatchPoll (q : Nat) (s : State) : Host.Outcome State Fault Refusal :=
  match watched s q with
  | some (.word a v cond z true _ _) =>
    if watchCond cond (8 * z) (memNat s.mem a z) v then .next (watchGo s q (memNat s.mem a z)) else .next s
  | _ => .next s

/-! ### signal -/

/-- The vector that a `signal` names: none, or a number (R382). -/
def signalVec (x : LForm) (v : Nat) : Option Nat := if x.c = 479 then none else some v

/-- The operation of a memory `signal` as one of `atomV` (Table 20-3). -/
def signalOp (x : LForm) : Nat := match x.rn with | 0 => 9 | 1 => 0 | 2 => 10 | _ => 1

/-- `signal` on a word of memory (R382): one atomic with release at scope that raises the vector as it is performed. -/
def execSignal (x : LForm) (s : State) : Host.Outcome State Fault Refusal :=
  withIssuer s fun th k =>
    let i := issL x th k
    let w := decide (2 ≤ x.rn)
    let z : Nat := if w then 8 else 4
    operate s i [baseA x, if w then wide x.b .b64 else srcB x, srcC x] [] readActive fun s1 g =>
      let a := g.v 0 0
      let vec := signalVec x (g.v 2 0)
      let grp := ((s.th th).grp k).mask
      if 2047 < vec.getD 0 then illegalAt s th k grp
      else match accessAt s1 th a z .atomic with
        | (.error e, s2) => faultAt (keepWalk s s2) th k e grp a 0
        | (.ok r, s2) =>
          raising s s2 i (6 :: commitPath (s2.th th) 0xFFFFFFFF) fun s2 => releasing s s2 i 0xFFFFFFFF x.ty fun s2 =>
            let s2 := commitLanes s2 th 0xFFFFFFFF
            let ln : AtomLane := { lane := 0, pa := r.pas.headD 0, cells := [], v := g.v 1 0, leaf := r.dirty }
            let (id, s2) := newFlight s2 th [6] [] (.atom (signalOp x) z x.ty 2 [ln])
            finish (s2.modFlight id (fun f => { f with vec := vec })) i g.cost

/-- Runs a body for a queue of the issuing thread's context (R382, R384): a number past the part's queues is ILLEGAL, a queue of
another context or of none PROT. -/
def withQueue (s : State) (th k q : Nat) (f : State) : State :=
  let grp := ((s.th th).grp k).mask
  if Config.queueThreads ≤ q then illegalAt s th k grp
  else if (s.queue q).ctx = some (s.th th).pl.ctx then f
  else faultAt s th k .prot grp 0 0

/-- `signal.q` (R382): a release at device scope, then the bits are set. -/
def execSignalQ (x : LForm) (s : State) : Host.Outcome State Fault Refusal :=
  withIssuer s fun th k =>
    let i := issL x th k
    operate s i [srcA x, srcB x] [] readActive fun s1 g =>
      let q := g.v 0 0
      let bits := g.v 1 0
      if 65535 < bits then illegalAt s th k ((s.th th).grp k).mask
      else withQueue s th k q
        (raising s s1 i (commitPath (s1.th th) 0xFFFFFFFF) fun s1 =>
         let s1 := commitLanes s1 th 0xFFFFFFFF
         if relWaits s1 th s1.run.nextId 0xFFFFFFFF 4 then holdGroup s1 th k (.drained s1.run.nextId 4) false true i.size
         else finish (s1.modQueue q (fun v => { v with events := v.events ||| bits })) i g.cost)

/-! ### evwait and qprio -/

/-- Control-core cycles in a microsecond (R5). -/
def usTicks : Nat := 2400

/-- Delivers an `evwait` (R383): software bits acquire at device scope. -/
def evEnd (s : State) (i : Iss) (x : LForm) (v : Nat) : State :=
  let s := if (s.queue (queueOf i.th)).state = 2 then queueState s (queueOf i.th) 1 else s
  let s := if v % 2 ^ 16 = 0 then s else acquireAt s i.th 4
  finish (putScalar s i x.d.toNat 4 0 v) i 0

/-- `evwait` (R383). -/
def execEvwait (x : LForm) (s : State) : Host.Outcome State Fault Refusal :=
  withIssuer s fun th k =>
    let i := issL x th k
    operate s i [srcA x, srcB x] [] readActive fun s1 g =>
      let mask := g.v 0 0
      let wait := g.v 1 0
      let q := queueOf th
      let ev := (s.queue q).events
      if 2 ^ 20 ≤ mask ∨ bitOf mask 17 then illegalAt s th k ((s.th th).grp k).mask
      else if ev &&& mask ≠ 0 then
        evEnd (s1.modQueue q (fun v => { v with events := v.events - (v.events &&& mask) })) i x (ev &&& mask)
      else if wait = 0 then evEnd s1 i x 0x20000
      else
        let till := if wait = 2 ^ 32 - 1 then none else some (s.now + wait * usTicks)
        holdGroup (queueState s1 q 2) th k (.events mask till) false true i.size

/-- The timeout of an `evwait` passes with none of its events pending (R383). -/
def execEvwaitTimeout (q : Nat) (s : State) : Host.Outcome State Fault Refusal :=
  match watched s q with
  | some (.events mask (some t)) =>
    if s.now < t ∨ (s.queue q).events &&& mask ≠ 0 then .next s
    else match nextInstr (s.th (queueNo q)) 0 with
      | some (.evwait x) => .next (evEnd s (issL x (queueNo q) 0) x 0x20000)
      | _ => .next s
  | _ => .next s

/-- `qprio` (R384). -/
def execQprio (x : LForm) (s : State) : Host.Outcome State Fault Refusal :=
  withIssuer s fun th k =>
    let i := issL x th k
    operate s i [srcA x, srcB x] [] readActive fun s1 g =>
      let q := if x.a = 479 then queueOf th else g.v 0 0
      if 7 < g.v 1 0 then illegalAt s th k ((s.th th).grp k).mask
      else withQueue s th k q (finish (s1.modQueue q (fun v => { v with prio := g.v 1 0 })) i g.cost)

end Sys2Proof.Machine
end

