-- ==== Sys2Proof/Machine/Pick.lean ====
section
/-!
DEFINITION. Scheduling: which strands are ready (R80, R18, R170, R239, R359), the pick of a strand and its group (R81 to R84, R19,
R125), and the pick of a control core (R377).
-/

namespace Sys2Proof.Machine

/-! ### What a clause waits for -/

/-- The instructions of a clause body, as far as they decode. -/
def clauseInstrs (kd : CodeKind) : Nat → List Word → List Instr
  | 0, _ => []
  | n + 1, ps => match decode kd ps with
    | none => []
    | some (i, rest) => i :: (if rest.isEmpty then [] else clauseInstrs kd n rest)

/-- The header waits of a clause: path and threshold (R17, R18). -/
def headerWaits (c : Clause) : List (Nat × Nat) :=
  let w := c.word.toNat
  (if bitOf w 8 then [(bitsOf w 9 3, bitsOf w 12 6)] else []) ++ (if bitOf w 18 then [(bitsOf w 19 3, bitsOf w 22 6)] else [])

/-- Feed queues that an instruction pops as a source (R170). -/
def fqReads (p : Parts) : List Nat := (((laneSrcs p).filter isFq).map (· - 464)).eraseDups

/-- Whether the feed queues hold the rows that a clause pops (R170). -/
def feedReady (t : Strand) (is : List Instr) : Bool :=
  let pops := is.flatMap (fun i => fqReads i.parts)
  t.access.elim true (·.ended) || (List.range 8).all (fun n => (pops.filter (· == n)).length ≤ (t.fqs.getD n []).length)

/-- The table of a splice operation that the slaving of its arrays holds back (R239). -/
def heldTable : Instr → Option Nat
  | .spMma x | .spGrp x | .spJoinPair x | .spJoinKj x | .spJoinRec x => some (tabName x.l)
  | _ => none

/-- Whether a home array of a table that a clause works on is slaved by an operation of another strand (R239). -/
def slavedOut (s : State) (th : Nat) (is : List Instr) : Bool :=
  let t := s.th th
  t.pl.kind == .strand && is.any (fun i => match heldTable i with
    | none => false
    | some n => match tableOf s t.pl.wg n with
      | none => false
      | some d => (homeArrays (s.wg t.pl.wg) d).any (fun q => match (s.quad q).slaved with
        | none => false
        | some f => (s.flight? f).elim false (fun f => f.th != th)))

/-! ### Readiness -/

/-- What a group would issue: a clause it is part-way through, its next one, or the fault that fetching that gives. -/
inductive Next where
  | onward
  | clause (c : Clause)
  | fault (e : ClauseFault)
  deriving DecidableEq, Repr

/-- What a ready group of a slot would issue, or none where it is not ready (R80, R18, R170, R239). Its next clause is fetched and
decoded ahead of the pick. -/
def readyGroup (s : State) (th k : Nat) : Option Next × State :=
  let t := s.th th
  match (t.slot k).grp with
  | none => (none, s)
  | some g =>
    if g.st != .runnable then (none, s)
    else if (t.slot k).clause.isSome then (some .onward, s)
    else match fetchClause s t.pl.ctx t.pl.code t.codeKind g.pc with
      | (.error e, s) => (some (.fault e), s)
      | (.ok c, s) =>
        let is := clauseInstrs t.codeKind c.body.length c.body
        if (headerWaits c).all (fun w => counter s th w.1 ≤ w.2) && feedReady t is && !slavedOut s th is then (some (.clause c), s)
        else (none, s)

/-- The slot and clause that a strand would issue: the group in the slot not picked last comes first (R125). -/
def readyStrand (s : State) (th : Nat) : Option (Nat × Next) × State :=
  let t := s.th th
  let k := 1 - t.ps.last
  if t.ct.stopped || t.ps.halted || t.ps.issuing.isSome then (none, s)
  else match readyGroup s th k with
    | (some c, s) => (some (k, c), s)
    | (none, s) => match readyGroup s th (1 - k) with
      | (some c, s) => (some (1 - k, c), s)
      | (none, s) => (none, s)

/-- The threads of a list that are ready, each with what it would issue. -/
def readyAll : List Nat → State → List (Nat × Nat × Next) × State
  | [], s => ([], s)
  | n :: ns, s =>
    match readyStrand s n with
    | (r, s) => match readyAll ns s with
      | (rs, s) => ((match r with | some p => [(n, p.1, p.2)] | none => []) ++ rs, s)

/-- Whether a thread's context issues in a quadrant (R359): it owns it whole, its half is active, or no context holds the other one. -/
def halfIssues (s : State) (q : Nat) (t : Strand) : Bool :=
  let c := s.ctx t.pl.ctx
  c.mode == 0 || (s.quad q).active == c.mode - 1 ||
  !s.ctxs.any (fun e => e.2.mode != 0 && e.2.mode != c.mode && e.2.quads.contains q)

/-- The threads that issue through a quadrant: ordinary strands and the handler of its core (R344), of the one owner that it issues for
(R359). -/
def quadThreads (s : State) (q : Nat) : List Nat :=
  (s.ths.filter (fun e => e.2.pl.kind != .queue && e.2.pl.core * 4 + e.2.pl.quad == q && halfIssues s q e.2)).map (·.1)

/-! ### Halting (R360) -/

/-- Whether a strand is at a clause boundary: no group of it is part-way through a clause. -/
def atBoundary (t : Strand) : Bool := t.ps.issuing.isNone && t.ps.s0.clause.isNone && t.ps.s1.clause.isNone

/-- Whether a group waits at a barrier, a `wait` or an `abwait`. -/
def waitsHeld (g : Group) : Bool :=
  g.st == .waiting && (match g.hold with | .path _ _ | .barrier _ | .phase _ _ true | .arrival _ _ => true | _ => false)

/-- Whether a strand of a workgroup that is to be switched out halts as it stands (R360): stopped; or with one group, at a clause
boundary or waiting; or, after the timeout, with each slot's group at a clause boundary or held. -/
def haltsNow (t : Strand) : Bool :=
  let gs := t.ps.s0.grp.toList ++ t.ps.s1.grp.toList
  t.ct.stopped ||
  (t.ps.issuing.isNone && gs.length ≤ 1 && t.ps.fork.isEmpty && (atBoundary t || gs.any waitsHeld)) ||
  (t.ps.forced && t.ps.issuing.isNone && [t.ps.s0, t.ps.s1].all (fun p => p.clause.isNone || p.grp.elim true (fun g => g.st == .waiting)))

/-- Halts a strand of a workgroup that is to be switched out, where it stands so (R360). -/
def haltCheck (s : State) (th : Nat) : State :=
  let t := s.th th
  if t.pl.kind == .strand && (s.wg t.pl.wg).haltAt.isSome && !t.ps.halted && haltsNow t then
    spillForks (s.modTh th (fun t => { t with ps := { t.ps with halted := true } })) th
  else s

/-! ### Picks -/

/-- Commits the issue to a group: it stops at a clause that cannot be fetched or decoded (R23), or its clause starts, or goes on
where it gave up its slot (R81). A header wait that has ended acquires as `wait` does (R18, R325). -/
def issueGroup (s : State) (th k : Nat) (n : Next) : State :=
  match n with
  | .fault e =>
    let g := (s.th th).grp k
    stopThread s th { pc := g.pc, pos := e.pos, addr := e.addr, mask := g.mask, cls := e.cls }
  | .onward => { s.modTh th (fun t => { t with ps := { t.ps with issuing := some k, last := k, clk := 0 } }) with
                 run := { s.run with cur := some th } }
  | .clause c =>
    let s := acquireAt s th (((headerWaits c).map (fun w => holdScope (.path w.1 w.2))).foldl Nat.max 0)
    let s := s.modTh th (fun t =>
      ({ t with ps := { t.ps with issuing := some k, last := k, clk := 0 } }).setSlot k { t.slot k with clause := some c, byp := [] })
    { s with run := { s.run with cur := some th } }

/-- The first of some strands in the order of slots from a rotation pointer on (R82). -/
def fromRho (s : State) (rho : Nat) (l : List (Nat × Nat × Next)) : Option (Nat × Nat × Next) :=
  let pos (e : Nat × Nat × Next) : Nat := ((s.th e.1).pl.slot + 16 - rho) % 16
  l.foldl (fun b e => match b with
    | none => some e
    | some x => if pos e < pos x then some e else some x) none

/-- Whether what a group would issue is a clause, and not the fault that fetching or decoding it gives. -/
def Next.sound : Next → Bool
  | .fault _ => false
  | _ => true

/-- Picks an ordinary strand of a quadrant among some that are ready (R81 to R83): the tie rule chooses among them. A strand whose clause
cannot be fetched or decoded is stopped there, and nothing is counted as a pick (R57, R80). One that is not ready starts its count of
passes again (R83). -/
def pickStrand (s : State) (q : Nat) (tied ready : List (Nat × Nat × Next)) : State :=
  let a := s.quad q
  match fromRho s a.rho tied with
  | none => s
  | some (th, k, n) =>
    if !n.sound then issueGroup s th k n else
    let slot := (s.th th).pl.slot
    let ns := quadThreads s q
    let s := { s with ths := s.ths.map (fun (e : Nat × Strand) =>
      if e.1 = th then (e.1, { e.2 with ps := { e.2.ps with passed := 0, progress := Nat.min 65535 (e.2.ps.progress + 1) } })
      else if e.2.pl.kind == Kind.strand && ns.contains e.1 then
        (e.1, { e.2 with ps := { e.2.ps with passed := if ready.any (·.1 == e.1) then e.2.ps.passed + 1 else 0 } })
      else e) }
    let s := s.modQuad q (fun a => { a with
      holder := some th, yielded := none, rho := if 2 ≤ tied.length then (slot + 1) % 16 else a.rho })
    issueGroup s th k n

/-- Whether a quadrant may pick: its issue slot is free and no swap is under way (R81, R362). -/
def canPick (s : State) (q : Nat) : Bool := (s.quad q).holder.isNone && (s.quad q).swapTill.isNone

/-- The threads of a quadrant that are ready, once their waits have settled. -/
def readyQuad (s : State) (q : Nat) : List (Nat × Nat × Next) × State :=
  let ns := quadThreads s q
  readyAll ns (ns.foldl haltCheck (ns.foldl refresh s))

/-- The strands that the starvation guard has passed over long enough (R83). -/
def starved (s : State) (l : List (Nat × Nat × Next)) : List (Nat × Nat × Next) := l.filter (fun e => 4096 ≤ (s.th e.1).ps.passed)

/-- The quadrant scheduler's pick (R81 to R83): a ready handler first, then a starved strand, then the strand with the lowest
progress counter. A strand that has yielded is passed over where another is ready (R19). -/
def execClausePick (q : Nat) (s : State) : Host.Outcome State Fault Refusal :=
  if !canPick s q then .next s
  else
    let (ready, s) := readyQuad s q
    match ready.find? (fun e => (s.th e.1).pl.kind == .handler) with
    | some (th, k, n) => .next (issueGroup (if n.sound then s.modQuad q (fun a => { a with holder := some th }) else s) th k n)
    | none =>
      let late := starved s ready
      let fresh := ready.filter (fun e => (s.quad q).yielded != some e.1)
      let from_ := if fresh.isEmpty then ready else fresh
      let low := (from_.map (fun e => (s.th e.1).ps.progress)).foldl Nat.min 65535
      .next (pickStrand s q (if late.isEmpty then from_.filter (fun e => (s.th e.1).ps.progress == low) else late) ready)

/-- The starvation guard's pick (R83). -/
def execStarvationGuard (q : Nat) (s : State) : Host.Outcome State Fault Refusal :=
  if !canPick s q then .next s
  else
    let (ready, s) := readyQuad s q
    let late := starved s ready
    if late.isEmpty || ready.any (fun e => (s.th e.1).pl.kind == .handler) then .next s
    else .next (pickStrand s q late ready)

/-! ### Control cores -/

/-- Halts a queue thread for a stop request (R379): its open quantum is discarded and its wait abandoned. -/
def haltQueue (s : State) (q : Nat) : State :=
  let th := queueNo q
  let s := queueState (s.modQueue q (fun v => { v with stopReq := false, frec := none })) q 0
  let s := orphan (freeIssue s th) th
  { s with ths := kdel s.ths th }

/-- Whether a queue thread is where a stop request takes effect: at a clause boundary, or waiting (R379). -/
def haltsHere (t : Strand) : Bool :=
  t.ps.issuing.isNone && (t.ps.s0.clause.isNone || t.ct.stopped || t.ps.s0.grp.elim true (fun g => g.st == .waiting))

/-- The queue threads of a control core. -/
def coreQueues (s : State) (n : Nat) : List Nat := (rangeFrom (8 * n) (8 * n + 8)).filter (fun q => (kget? s.ths (queueNo q)).isSome)

/-- A control core's pick (R377): stop requests that have reached their boundary take effect, then the ready thread of highest
priority is picked, in rotation among equals, after one passed over in 256 consecutive picks. -/
def execControlCorePick (n : Nat) (s : State) : Host.Outcome State Fault Refusal :=
  let s := (coreQueues s n).foldl (fun s q => if (s.queue q).stopReq && haltsHere (s.th (queueNo q)) then haltQueue s q else s) s
  if (kget? s.ccores n).isSome || Config.controlCores ≤ n || s.up.held.contains (n / 4) then .next s
  else
    let ns := (coreQueues s n).map queueNo
    let (ready, s) := readyAll ns (ns.foldl refresh s)
    let late := ready.filter (fun e => 256 ≤ (s.queue (queueOf e.1)).passed)
    let high := (ready.map (fun e => (s.queue (queueOf e.1)).prio)).foldl Nat.max 0
    let from_ := if late.isEmpty then ready.filter (fun e => (s.queue (queueOf e.1)).prio == high) else late
    let last := kgetD s.ccLast n 7
    let pos (e : Nat × Nat × Next) : Nat := (queueOf e.1 + 15 - last % 8) % 8
    match from_.foldl (fun b e => match b with | none => some e | some x => if pos e < pos x then some e else some x) none with
    | none => .next s
    | some (th, k, x) =>
      if !x.sound then .next (issueGroup s th k x) else
      let s := { s with queues := s.queues.map (fun (e : Nat × Queue) =>
        if queueNo e.1 = th then (e.1, { e.2 with passed := 0 })
        else if ns.contains (queueNo e.1) then
          (e.1, { e.2 with passed := if ready.any (fun r => r.1 == queueNo e.1) then e.2.passed + 1 else 0 })
        else e) }
      .next (issueGroup { s with ccores := kset s.ccores n th, ccLast := kset s.ccLast n (queueOf th % 8) } th k x)

end Sys2Proof.Machine
end

