-- ==== Sys2Proof/Machine/Xln.lean ====
section
/-!
DEFINITION. Lane exchanges within tiles XLN (R139 to R149) and within quads QUAD (R150).
-/

namespace Sys2Proof.Machine

/-- A lane instruction: sources read in some lanes, and a body of its own (R141). -/
def lanesOp (s : State) (x : LForm) (srcs : List Opnd) (dsts : List Nat) (rd : Word → List Nat)
    (body : State → Iss → Given → State) : Host.Outcome State Fault Refusal :=
  withIssuer s fun th k =>
    let i := issL x th k
    operate s i srcs dsts rd (fun s g => finish (body s i g) i g.cost)

/-- The contributing lanes of a strand: active and no helper (R140). -/
def contrib (t : Strand) (act : Word) : Word := act &&& ~~~t.ln.helper

/-- The base lane of a lane's tile of a size (R139). -/
def tileBase (g l : Nat) : Nat := l / g * g

/-- The contributing lanes of the tile at a base lane, ascending. -/
def tileLanes (con : Word) (g base : Nat) : List Nat := (lanesOf con).filter (fun l => base ≤ l && l < base + g)

/-- The lane that an exchange reads in a mode, or none where it lies outside the tile (R143). -/
def xchFrom (mode g l b : Nat) : Option Nat :=
  let i := l % g
  let base := tileBase g l
  match mode with
  | 0 => some (base + b % g)
  | 1 => let j := (i : Int) + sextN b 32; if j < 0 ∨ (g : Int) ≤ j then none else some (base + j.toNat)
  | 2 => some (base + (i + b) % g)
  | _ => some (base + Nat.xor i (b % g))

/-- The exchange of a mode: each active lane's value and whether it was found (R143). -/
def exchange (t : Strand) (g : Given) (mode l : Nat) : Nat × Bool :=
  match xchFrom mode (tileSize t) l (g.v 1 l) with
  | some j => if (contrib t g.act).getLsbD j then (g.v 0 j, true) else (g.v 0 l, false)
  | none => (g.v 0 l, false)

/-- `lxch` (R143). -/
def execLxch (x : LForm) (s : State) :=
  lanesOp s x [srcA x, srcB x] [x.d.toNat] readActive fun s i g =>
    let t := s.th i.th
    let mode := x.md.toNat / 8
    let kq := x.md.toNat % 8
    let s := putVec s i x.d.toNat x.tr g.act 8 g.cost (fun l => (exchange t g mode l).1)
    if kq = 0 then s else putK s i kq g.act 8 g.cost (fun l => (exchange t g mode l).2)

/-- `bcast` (R143). -/
def execBcast (x : LForm) (s : State) :=
  lanesOp s x [srcA x, srcB x] [x.d.toNat] readActive fun s i g =>
    putVec s i x.d.toNat x.tr g.act 8 g.cost (fun l => (exchange (s.th i.th) g 0 l).1)

/-- The result of a vote in a tile (R144): 0 any, 1 all, 2 uni, 3 ballot. -/
def voteV (mode : Nat) (ls : List Nat) (v : Nat → Nat) : Nat :=
  match mode with
  | 0 => if ls.any (fun l => v l != 0) then 1 else 0
  | 1 => if ls.all (fun l => v l != 0) then 1 else 0
  | 2 => if ls.all (fun l => v l == v (ls.headD 0)) then 1 else 0
  | _ => (maskOf (ls.filter (fun l => v l != 0))).toNat

/-- `vote` (R144). -/
def execVote (x : LForm) (s : State) :=
  lanesOp s x [srcA x] [x.d.toNat] readActive fun s i g =>
    let t := s.th i.th
    let sz := tileSize t
    let mode := x.md.toNat / 8
    let kq := x.md.toNat % 8
    let r (l : Nat) : Nat := voteV mode (tileLanes (contrib t g.act) sz (tileBase sz l)) (g.v 0)
    let s := putVec s i x.d.toNat x.tr g.act 8 g.cost r
    if kq = 0 then s else putK s i kq g.act 8 g.cost (fun l => r l != 0)

/-- The identity of a reduction (Table 8-4). -/
def redId (op : Nat) : Nat :=
  [0, 0x7FFFFFFF, 0x80000000, 0xFFFFFFFF, 0, 0xFFFFFFFF, 0, 0, 0x80000000, 0x7F800000, 0xFF800000].getD op 0

/-- One step of a reduction with its flags (R145, Table 8-4). -/
def redStep (op a b : Nat) : Nat × Nat :=
  match op with
  | 0 => (addV 32 false a b, 0)
  | 1 => (minV 32 a b, 0)
  | 2 => (maxV 32 a b, 0)
  | 3 => (Nat.min a b, 0)
  | 4 => (Nat.max a b, 0)
  | 5 => (Nat.land a b, 0)
  | 6 => (Nat.lor a b, 0)
  | 7 => (Nat.xor a b, 0)
  | 8 => let r := sumFV 0 [decodeF fp32 a, decodeF fp32 b]; let c := roundTo fp32 0 0 r.1; (c.1, c.2 ||| r.2)
  | 9 => (minmaxF fp32 false a b, 0)
  | _ => (minmaxF fp32 true a b, 0)

/-- A reduction over values in order, with its flags. -/
def redAll (op : Nat) (vs : List Nat) : Nat × Nat :=
  vs.foldl (fun r v => let c := redStep op r.1 v; (c.1, r.2 ||| c.2)) (redId op, 0)

/-- The source of a reduction: an FP32 value for the operations that are floating point, else a word (R36, Table 8-4). -/
def redSrc (x : LForm) : Opnd := { srcA x with ty := if 8 ≤ x.md.toNat % 16 then .f32 else .w32 }

/-- `redux` (R146). -/
def execRedux (x : LForm) (s : State) :=
  lanesOp s x [redSrc x] [x.d.toNat] readActive fun s i g =>
    let t := s.th i.th
    let sz := tileSize t
    let r (l : Nat) : Nat × Nat := redAll (x.md.toNat % 16) ((tileLanes (contrib t g.act) sz (tileBase sz l)).map (g.v 0))
    raiseFp (putVec s i x.d.toNat x.tr g.act 8 g.cost (fun l => (r l).1)) i.th
      ((lanesOf (contrib t g.act)).foldl (fun a l => a ||| (r l).2) 0)

/-- `scan`, inclusive or exclusive (R146). -/
def execScan (x : LForm) (s : State) :=
  lanesOp s x [redSrc x] [x.d.toNat] readActive fun s i g =>
    let t := s.th i.th
    let sz := tileSize t
    let con := contrib t g.act
    let ex := x.md.toNat / 16 = 1
    let upTo (l : Nat) (incl : Bool) : Nat × Nat :=
      redAll (x.md.toNat % 16) (((tileLanes con sz (tileBase sz l)).filter (fun j => j < l || (incl && j == l))).map (g.v 0))
    raiseFp (putVec s i x.d.toNat x.tr con 8 g.cost (fun l => (upTo l (!ex)).1)) i.th
      ((lanesOf con).foldl (fun a l => a ||| (upTo l true).2) 0)

/-- The selected lanes of the tile at a base lane (R147). -/
def selected (con : Word) (g base : Nat) (b : Nat → Nat) : List Nat := (tileLanes con g base).filter (fun l => b l != 0)

/-- `compress` (R147). -/
def execCompress (x : LForm) (s : State) :=
  lanesOp s x [srcA x, srcB x] [x.d.toNat] readActive fun s i g =>
    let t := s.th i.th
    let sz := tileSize t
    let sel (l : Nat) : Option Nat := (selected (contrib t g.act) sz (tileBase sz l) (g.v 1))[l % sz]?
    let written := maskOf ((lanesOf g.act).filter (fun l => (sel l).isSome))
    putVec s i x.d.toNat x.tr written 8 g.cost (fun l => g.v 0 ((sel l).getD 0))

/-- `expand` (R147). -/
def execExpand (x : LForm) (s : State) :=
  lanesOp s x [srcA x, srcB x] [x.d.toNat] readActive fun s i g =>
    let t := s.th i.th
    let sz := tileSize t
    let con := contrib t g.act
    let src (l : Nat) : Nat := tileBase sz l + ((selected con sz (tileBase sz l) (g.v 1)).filter (· < l)).length
    let written := maskOf ((lanesOf con).filter (fun l => g.v 1 l != 0 && con.getLsbD (src l)))
    putVec s i x.d.toNat x.tr written 8 g.cost (fun l => g.v 0 (src l))

/-- Counts the leading entries of a list that are no more than a bound. -/
def leadingLe (m : Nat) : List Nat → Nat
  | [] => 0
  | v :: vs => if v ≤ m then leadingLe m vs + 1 else 0

/-- The merge of `isect` (R148): matches by position and the counts consumed, with fuel for every step. -/
def isectGo (m : Nat) : Nat → List Nat → List Nat → Nat → Nat → List (Nat × Nat) → List (Nat × Nat) × Nat × Nat
  | 0, _, _, i, j, ms => (ms.reverse, i, j)
  | f + 1, a, b, i, j, ms =>
    match a, b with
    | x :: xs, y :: ys =>
      if x ≤ m ∧ y ≤ m then
        if x = y then isectGo m f xs ys (i + 1) (j + 1) ((i, j) :: ms)
        else if x < y then isectGo m f xs (y :: ys) (i + 1) j ms
        else isectGo m f (x :: xs) ys i (j + 1) ms
      else (ms.reverse, i + leadingLe m (x :: xs), j + leadingLe m (y :: ys))
    | a, b => (ms.reverse, i + leadingLe m a, j + leadingLe m b)

/-- One tile of `isect` (R148): matches and advances. -/
def isectTile (a b : List Nat) : List (Nat × Nat) × Nat × Nat :=
  let cutAt (l : List Nat) : List Nat := l.takeWhile (· != 0xFFFFFFFF)
  let a := cutAt a
  let b := cutAt b
  if a.isEmpty || b.isEmpty then ([], 0, 0)
  else isectGo (Nat.min (a.getLastD 0) (b.getLastD 0)) 80 a b 0 0 []

/-- `isect` (R148). Of its two vector results the first enters the bypass (DEDUCED, log 9). -/
def execIsect (x : LForm) (s : State) :=
  lanesOp s x [srcA x, srcB x] [x.d.toNat, x.d.toNat + 1] readActive fun s i g =>
    let t := s.th i.th
    let sz := tileSize t
    let con := contrib t g.act
    let tile (base : Nat) := isectTile ((tileLanes con sz base).map (g.v 0)) ((tileLanes con sz base).map (g.v 1))
    let hit (l : Nat) : Option (Nat × Nat) := (tile (tileBase sz l)).1[l % sz]?
    let w := t.ct.part + 1
    let packed (f : List (Nat × Nat) × Nat × Nat → Nat) : Nat :=
      ((List.range (32 / sz)).map (fun q => f (tile (q * sz)) * 2 ^ (q * w))).foldl (· + ·) 0
    let written := maskOf ((lanesOf g.act).filter (fun l => (hit l).isSome))
    let s := putVec s i x.d.toNat false written 8 g.cost (fun l => ((hit l).getD (0, 0)).1)
    let s := putHigh s i x.d.toNat written 8 g.cost (fun l => ((hit l).getD (0, 0)).2)
    let s := putK s i (x.md.toNat % 8) g.act 8 g.cost (fun l => (hit l).isSome)
    let s := putScalar s i x.c.toNat 8 g.cost (packed (·.2.1))
    putScalar s i (x.c.toNat + 1) 8 g.cost (packed (·.2.2))

/-- Sets a strand's tile code (R139). -/
def setPart (s : State) (th p : Nat) : State := s.modTh th (fun t => { t with ct := { t.ct with part := p } })

/-- `part` (R142). -/
def execPart (x : LForm) (s : State) : Host.Outcome State Fault Refusal :=
  withIssuer s fun th k =>
    let i := issL x th k
    operate s i [srcA x] [] readActive fun s g =>
      match ([2, 4, 8, 16, 32].zip [1, 2, 3, 4, 5]).find? (·.1 == g.v 0 0) with
      | some (_, p) => finish (setPart s th p) i g.cost
      | none => illegalAt s th k g.act

/-- `rdlane` (R149). A literal b outside 0 to 31 fails at the clause already, which its parcels decide (R23; DEDUCED, log 9). -/
def execRdlane (x : LForm) (s : State) : Host.Outcome State Fault Refusal :=
  withIssuer s fun th k =>
    let i := issL x th k
    let t := s.th th
    let b := srcVal t k (issueClk t [srcA x, srcB x]) i.lit (srcB x) 0
    let inGrp := (t.grp k).mask.getLsbD b
    let ls := if inGrp then [b] else []
    operate s i [{ srcA x with only := some ls }, srcB x] [] (fun _ => ls) fun s1 g =>
      if 31 < b then illegalAt s th k g.act
      else finish (putScalar s1 i x.d.toNat 8 g.cost (if inGrp then g.v 0 b else 0)) i g.cost

/-- The lanes of a group whose quad holds an active lane: the sources of a quad exchange (R150). -/
def quadSources (grp act : Word) : List Nat :=
  (lanesOf grp).filter (fun l => (List.range 4).any (fun j => act.getLsbD (l / 4 * 4 + j)))

/-- A quad exchange of a source: the value of each active lane (R150). -/
def quadOp (s : State) (x : LForm) (o : Opnd) (f : Word → (Nat → Nat) → Nat → Nat × Nat) : Host.Outcome State Fault Refusal :=
  withIssuer s fun th k =>
    let i := issL x th k
    let grp := ((s.th th).grp k).mask
    let t := s.th th
    let clk := issueClk t [o]
    let srcs := quadSources grp (guardMask t i clk)
    if t.ct.chk && (i.gk == 0 || !(lanesOf grp).any (fun l => t.rg.early clk (kCell i.gk l))) &&
        srcs.any (fun l => earlySrc s t i clk [l] o) then
      faultAt s th k .check (maskOf (srcs.filter (fun l => earlySrc s t i clk [l] o))) 0 0
    else
      operate s i [o] [x.d.toNat] (quadSources grp) fun s g =>
        let r (l : Nat) := f grp (g.v 0) l
        finish (raiseFp (putVec s i x.d.toNat x.tr g.act 4 g.cost (fun l => (r l).1)) th
          (laneFlags t x.d.toNat g.act (fun l => (r l).2))) i g.cost

/-- The value of a lane of the quad, or the lane's own where that lane is not in the group (R150). -/
def quadFrom (grp : Word) (v : Nat → Nat) (l j : Nat) : Nat := if grp.getLsbD (l / 4 * 4 + j) then v (l / 4 * 4 + j) else v l

/-- `qswap` (R150). -/
def execQswap (x : LForm) (s : State) :=
  quadOp s x (srcA x) (fun grp v l => (quadFrom grp v l (Nat.xor (l % 4) (x.b.toNat - 480)), 0))
/-- `qbcast` (R150). -/
def execQbcast (x : LForm) (s : State) := quadOp s x (srcA x) (fun grp v l => (quadFrom grp v l (x.b.toNat - 480), 0))
/-- `qred` (R150). -/
def execQred (x : LForm) (s : State) :=
  quadOp s x (redSrc x) (fun grp v l =>
    redAll (x.md.toNat % 16) (((List.range 4).filter (fun j => grp.getLsbD (l / 4 * 4 + j))).map (fun j => v (l / 4 * 4 + j))))

end Sys2Proof.Machine
end

