-- ==== Sys2Proof/Machine/Sys.lean ====
section
/-!
DEFINITION. Control registers (R341 to R343), the handler's window (R346 to R348), resolving a stop (R349), starting a handler
(R344), and writing the fault log (R351).
Corners that these rules leave to be inferred are read as log 9 says (DEDUCED).
-/

namespace Sys2Proof.Machine

/-! ### Control registers -/

/-- A thread's SCR (Table 18-4). -/
def scrOf (t : Strand) : Nat := t.ct.fp % 32 + t.ct.part * 2 ^ 8 + (if t.ct.chk then 2 ^ 16 else 0)

/-- Writes the FP status and, where it is a legal one, the partition of a thread (R341, R347). -/
def scrPut (s : State) (th v : Nat) : State :=
  let p := bitsOf v 8 3
  s.modTh th (fun t => { t with ct := { t.ct with fp := v % 32, part := if 1 ≤ p ∧ p ≤ 5 then p else t.ct.part } })

/-- What a kind of code reads in a control register, or none where Table 18-3 does not let it (R341). -/
def csrValue (s : State) (t : Strand) (n : Nat) : Option Nat :=
  if n = 0 then some (scrOf t)
  else if t.pl.kind == .strand then none
  else if n = 0x10 then some t.ct.tlba.toNat
  else if n = 0x11 then some 0
  else if n = 0x20 && t.pl.kind == .handler then some (pendingStops s t.pl.core t.pl.ctx).length
  else none

/-- `csrr` (R343). -/
def execCsrr (x : LForm) (s : State) : Host.Outcome State Fault Refusal :=
  withIssuer s fun th k =>
    let i := issL x th k
    operate s i [] [x.d.toNat] readActive fun s1 g =>
      match csrValue s (s.th th) x.a.toNat with
      | some v => finish (putQuiet s1 i x.d.toNat g.act 4 g.cost (fun _ => v)) i g.cost
      | none => faultAt s th k .prot ((s.th th).grp k).mask 0 0

/-- `csrw` (R341, R343); a TLBC command holds the thread's next instruction until it is done (R342). -/
def execCsrw (x : LForm) (s : State) : Host.Outcome State Fault Refusal :=
  withIssuer s fun th k =>
    let i := issL x th k
    operate s i [srcB x] [] readActive fun s1 g =>
      let v := g.v 0 0
      let n := x.a.toNat
      let mask := ((s.th th).grp k).mask
      if n = 0 then
        if bitsOf v 8 3 < 1 ∨ 5 < bitsOf v 8 3 then illegalAt s th k mask else finish (scrPut s1 th v) i g.cost
      else if (s.th th).pl.kind == .strand || n != 0x10 && n != 0x11 then faultAt s th k .prot mask 0 0
      else if n = 0x10 then
        finish (s1.modTh th (fun t => { t with ct := { t.ct with tlba := BitVec.ofNat 32 v } })) i g.cost
      else if 2 ≤ v % 4 then illegalAt s th k mask
      else
        let (id, s2) := newFlight s1 th [] [] (.tlbi (v % 4))
        holdFlight s2 i id g.cost

/-- A write of SCR takes effect (R341): the thread is at the `csrw` that writes this value. -/
def execScrWrite (th : Nat) (v : Word) (s : State) : Host.Outcome State Fault Refusal :=
  let s' := { s with run := { s.run with cur := some th } }
  match issuer s' with
  | none => .next s
  | some (n, k) =>
    match nextInstr (s.th n) k with
    | some (.csrw x) => if x.a = 0 && srcVal (s.th n) k (issueClk (s.th n) [srcB x]) (issL x n k).lit (srcB x) 0 == v.toNat then execCsrw x s' else .next s
    | _ => .next s

/-! ### TLB invalidation -/

/-- The leaf entries of the pages of a strand's stores not yet committed (R315). -/
def openLeaves (t : Strand) : List Nat := (t.qn.buf ++ t.qn.log ++ t.qn.closed.map (·.2)).flatMap (·.leaf)

/-- The leaf entries of pages of a context that are pinned (R228, R231, R266): by open tables, by operations in flight, by
stores not yet applied, those of saved strands too (R315), and by a watch (R381). -/
def pinnedLeaves (s : State) (ctx : Nat) : List Nat :=
  (s.wgs.filter (fun e => e.2.ctx == ctx)).flatMap (fun e => e.2.tables.flatMap (·.2.pins)) ++
  (s.fl.filter (fun f => f.ctx == ctx && !f.done)).flatMap (fun f => f.pins ++
    (match f.work with | .commit secs _ => (secs.filter (fun x => !x.applied)).flatMap (·.leaf) | _ => [])) ++
  (s.ths.filter (fun e => e.2.pl.ctx == ctx)).flatMap (fun e => openLeaves e.2 ++
      (match e.2.ps.s0.grp with | some { hold := .word _ _ _ _ _ leaf _, .. } => leaf | _ => [])) ++
  (s.wgs.filter (fun e => e.2.ctx == ctx)).flatMap (fun e => e.2.image.flatMap openLeaves ++ e.2.closed.flatMap (·.2.2.leaf))

/-- The ranges of a context's addresses whose pages are pinned: its save areas (R357, R365), and the quantum logs and fork areas of its strands,
which live while they are saved too (R319, R127). -/
def pinnedRanges (s : State) (ctx : Nat) : List (Nat × Nat) :=
  let areas (t : Strand) : List (Nat × Nat) :=
    let base := (s.ctx ctx).poolBase + t.pl.region
    let tr := s.transTh t
    [(base + qlogArea tr, tr.qlog), (base + forkArea tr, 16 * tr.forks)]
  saveAreas (s.ctx ctx) ++
  ((s.ths.filter (fun e => e.2.pl.ctx == ctx && e.2.pl.kind == .strand)).flatMap (fun e => areas e.2)) ++
  ((s.wgs.filter (fun e => e.2.ctx == ctx && e.2.saved)).flatMap (fun e => e.2.image.flatMap areas))

/-- Whether a held translation falls under a TLBC command (R342). -/
def tlbHit (ctx cmd page : Nat) (e : TlbEntry) : Bool :=
  e.ctx == ctx && (cmd == 1 || (e.va < page + 65536 && page < e.va + e.size))

/-- Whether a page that a TLBC command covers is pinned (R342, R266): any page of the context for command 1; for command 0 a page that
the tables, or a held translation, give for the 64 KiB at TLBA. -/
def tlbPinned (s : State) (ctx cmd page : Nat) : Bool :=
  let leaves := pinnedLeaves s ctx
  let ranges := pinnedRanges s ctx
  if cmd = 1 then !leaves.isEmpty || ranges.any (·.2 != 0)
  else
    let held := s.ch.tlb.filter (tlbHit ctx cmd page)
    let path := walkPath s.mem page (s.ctx ctx).root levels
    let spans := (page, 65536) :: held.map (fun e => (e.va, e.size)) ++ (walk s ctx page).toList.map (fun l => (l.va, l.size))
    leaves.any (fun a => path.contains a || held.any (·.leaf == a)) ||
    ranges.any (fun r => spans.any (fun p => overlap p.1 p.2 r.1 r.2))

/-- A TLBC command is done (R342): no pinned page lies in its range; its translations are dropped and the writer goes on. -/
def tlbDone (s : State) (th cmd : Nat) : State :=
  match s.fl.find? (fun f => f.th == th && !f.done && f.work == .tlbi cmd) with
  | none => s
  | some f =>
    let page := (s.th th).ct.tlba.toNat * 65536
    if tlbPinned s f.ctx cmd page then s
    else finishFlight { s with ch := { s.ch with tlb := s.ch.tlb.filter (fun e => !tlbHit f.ctx cmd page e) } } f.id

/-- TLBC command 0 (R342). -/
def execTlbInvalidatePage (th : Nat) (s : State) : Host.Outcome State Fault Refusal := .next (tlbDone s th 0)
/-- TLBC command 1 (R342). -/
def execTlbInvalidateAll (th : Nat) (s : State) : Host.Outcome State Fault Refusal := .next (tlbDone s th 1)

/-! ### Window items -/

/-- Whether an item word lies in Table 18-5 (R347). -/
def itemOk (v : Nat) : Bool :=
  let n := v % 2 ^ 28
  match v / 2 ^ 28 with
  | 0 => n < 320
  | 1 => n < 2 ^ 19
  | 2 | 3 => n < 64
  | 4 => 1 ≤ n && n ≤ 7
  | 5 => n < 8 && n % 4 < 3
  | 6 => n ≤ 4
  | 7 => n ≤ 12 || (16 ≤ n && n ≤ 19) || (32 ≤ n && n < 40 + 4 * 4096)
  | 8 => n < 64
  | 9 => n < 8
  | 10 => n < 8192
  | _ => false

/-- Whether an item is invariant (Table 18-5). -/
def itemInv (v : Nat) : Bool := let a := v / 2 ^ 28; a == 3 || (7 ≤ a && a ≤ 9)

/-- Word n of some bytes. -/
def wordAt (bs : List Byte) (n : Nat) : Nat := leNat ((bs.drop (4 * n)).take 4)

/-- A frame word (Table 6-1). -/
def frameWord (f : LaneFrame) : Nat :=
  f.base % 2 ^ 16 + f.lo % 2 ^ 16 * 2 ^ 16 + f.depth % 2 ^ 12 * 2 ^ 32 + f.size % 64 * 2 ^ 44 + f.linkLow % 2 ^ 12 * 2 ^ 50

/-- A table's 64-byte descriptor (Table 12-5). -/
def tableBytes (d : Table) : List Byte :=
  let config := d.b % 2 ^ 17 + d.logS * 2 ^ 18 + (if d.hash then d.probe - 1 else 0) * 2 ^ 23 + (if d.seeded then 2 ^ 27 else 0) +
    (if d.hash then 2 ^ 28 else 0) + d.scope * 2 ^ 29 + 2 ^ 31
  leBytes 8 d.spillBase ++ leBytes 4 d.spillCap ++ leBytes 4 d.spillCount ++ leBytes 4 d.discard ++ leBytes 4 d.unplaced ++
  leBytes 4 d.slots.length ++ leBytes 4 d.tag ++ leBytes 4 config ++
  leBytes 4 (if d.hash then 0 else d.m1 * 2 ^ 12 + d.n1) ++ leBytes 4 d.row0 ++ leBytes 4 d.col0 ++ leBytes 4 d.posEnd ++
  List.replicate 12 0

/-- A splice progress record (Table 13-7). -/
def progressBytes (x : Splice) : List Byte :=
  leBytes 4 x.pc ++ leBytes 1 x.minor ++
  leBytes 1 (x.table + (if x.recMode then 4 else 0) + (if x.pair then 8 else 0) + (if x.suspended then 16 else 0)) ++ [0, 0] ++
  leBytes 4 x.unitsDone ++ leBytes 4 x.p ++ leBytes 4 x.q ++ leBytes 4 x.run ++ leBytes 4 x.popped ++ List.replicate 4 0

/-- The splice operation that a strand's progress record shows: a suspended one, or its first one in flight. -/
def progressed (s : State) (th : Nat) : Option Splice :=
  let xs := s.fl.filterMap (fun f => if f.th == th && !f.done then (match f.work with | .splice x => some x | _ => none) else none)
  match xs.find? (·.suspended) with
  | some x => some x
  | none => xs.head?

/-- A strand's progress record (Table 13-7). -/
def progressOf (s : State) (th : Nat) : List Byte := (progressed s th).elim (List.replicate 32 0) progressBytes

/-- Where a virtual register of a lane stands: a cell, a place in memory, or nowhere (R347). -/
def ringWord (s : State) (n l vr : Nat) (acc : Acc) : Option (Nat ⊕ Nat) :=
  let t := s.th n
  let f := t.frame l
  if f.base + f.size ≤ vr / 8 then none
  else if f.lo ≤ vr / 8 then some (.inl (vrCell t.rg vr l))
  else
    let nd : Need := { pay := false, link := false, idx := vr / 8, lane := l }
    match (deviceLoc s t.pl.ctx ((s.ctx t.pl.ctx).poolBase + t.pl.region + nd.off (s.transTh t) + vr % 8 * 4) acc).1 with
    | .ok pa => some (.inr pa)
    | .error _ => none

/-- A lane's link record d as 64 bits, its reserved fields zero (R6), if it exists and can be read. -/
def linkWord (s : State) (n l d : Nat) : Option Nat :=
  let t := s.th n
  let f := t.frame l
  if f.depth ≤ d then none
  else if f.linkLow ≤ d then (kget? t.rg.links (d * 32 + l)).map (fun r => leNat (linkBytes r))
  else
    let nd : Need := { pay := false, link := true, idx := d, lane := l }
    match (deviceLoc s t.pl.ctx ((s.ctx t.pl.ctx).poolBase + t.pl.region + nd.off (s.transTh t)) .read).1 with
    | .ok pa => some (leNat (linkBytes (linkOf (memNat s.mem pa 8))))
    | .error _ => none

/-- Fork-stack entry p, from the bottom (R127). -/
def forkEntry (t : Strand) (p : Nat) : Option Group := t.ps.fork.reverse[p]?

/-- What lane l of the window reads of an item of thread n (Table 18-5, R347). -/
def readItem (s : State) (n v l : Nat) : Nat :=
  let t := s.th n
  let i := v % 2 ^ 28
  let gone := t.ln.exited.getLsbD l
  let rg (vr : Nat) : Nat := match ringWord s n l vr .read with
    | some (.inl c) => (t.rg.final c).toNat
    | some (.inr pa) => memNat s.mem pa 4
    | none => 0
  let grp (g : Option Group) (w : Nat) : Nat := match g with | some g => bitsOf (groupWord g) (32 * w) 32 | none => 0
  let area := v / 2 ^ 28
  if gone && !itemInv v && !(area == 6 && i == 4) then 0
  else match area with
    | 0 => if (fCell t i l).isSome then rg (8 * (t.frame l).base + i) else 0
    | 1 => rg i
    | 2 => (t.rg.final (gCell i l)).toNat
    | 3 => (t.rg.final (sCell i)).toNat
    | 4 => (t.rg.final (kCell i l)).toNat
    | 5 => match (t.slot (i / 4)).byp[i % 4]? with | some b => (b.vals.getD l 0).toNat | none => 0
    | 6 =>
      match i with
      | 0 => frameWord (t.frame l) % 2 ^ 32
      | 1 => frameWord (t.frame l) / 2 ^ 32
      | 2 => (t.ln.items.getD l 0).toNat
      | 3 => ((List.range 8).map (fun b => if (t.arrOf b).getLsbD l then 2 ^ b else 0)).foldl (· + ·) 0
      | _ => (if gone then 2 else if t.ln.idle.getLsbD l then 1 else 0) + (if t.ln.helper.getLsbD l then 256 else 0)
    | 7 =>
      if i ≤ 7 then wordAt (faultBytes (t.ct.fault.getD {})) i
      else if i = 8 then scrOf t
      else if i = 9 then t.rg.q
      else if i = 10 then t.qn.cstMask.toNat
      else if i = 11 then t.qn.cstPc
      else if i = 12 then t.ps.progress
      else if i ≤ 19 then (t.ct.nf.getD (i - 16) 0).toNat
      else if i < 36 then grp (slotGroup t.ps.s0) (i - 32)
      else if i < 40 then grp (slotGroup t.ps.s1) (i - 36)
      else grp (forkEntry t ((i - 40) / 4)) ((i - 40) % 4)
    | 8 => match tableOf s t.pl.wg (i / 16) with | some d => wordAt (tableBytes d) (i % 16) | none => 0
    | 9 => wordAt (progressOf s n) i
    | _ => match linkWord s n l (i % 4096) with | some w => if i < 4096 then w % 2 ^ 32 else w / 2 ^ 32 | none => 0

/-- The virtual address at which a read of an item of thread n finds it in memory, where that is no resident register or link record. -/
def itemVa (s : State) (n v l : Nat) : Option Nat :=
  let t := s.th n
  let f := t.frame l
  let i := v % 2 ^ 28
  let at_ (nd : Need) (x : Nat) : Option Nat := some ((s.ctx t.pl.ctx).poolBase + t.pl.region + nd.off (s.transTh t) + x)
  let ring (vr : Nat) : Option Nat := if vr / 8 < f.lo then at_ { pay := false, link := false, idx := vr / 8, lane := l } (vr % 8 * 4) else none
  if t.ln.exited.getLsbD l then none
  else match v / 2 ^ 28 with
    | 0 => ring (8 * f.base + i)
    | 1 => ring i
    | 10 => if i % 4096 < f.linkLow then at_ { pay := false, link := true, idx := i % 4096, lane := l } 0 else none
    | _ => none

/-- The walks of a window's read of an item in some lanes, which set accessed bits (R264). -/
def walkItems (s : State) (n v : Nat) (ls : List Nat) : State :=
  (ls.filterMap (itemVa s n v)).foldl (fun s va => (walkSet s (s.th n).pl.ctx va).2) s

/-- A group with a word of its record written (Table 7-1, R347): its mask, or its pc, which clears W. -/
def writeGroup (g : Group) (w v : Nat) : Group :=
  if w = 0 then { g with mask := BitVec.ofNat 32 v }
  else { g with pc := v % 2 ^ 24, w := false, hold := .free, clause := none, st := if g.st == .waiting then .runnable else g.st }

/-- A slot with a word of its group's record written. A pc written leaves the clause. -/
def writeSlot (p : PcSlot) (w v : Nat) : PcSlot :=
  match p.grp with
  | none => p
  | some g => { p with grp := some (writeGroup g w v), clause := if w = 1 then none else p.clause }

/-- Writes bytes of a thread's lane-private region for the window. -/
def windowWrite (s : State) (n off : Nat) (bs : List Byte) : State :=
  let t := s.th n
  devWrite s t.pl.ctx ((s.ctx t.pl.ctx).poolBase + t.pl.region + off) bs

/-- Bypass entries up to an index: those that no instruction of the clause has produced yet are zero. -/
def bypUpTo (l : List Byp) (n : Nat) : List Byp := l ++ List.replicate (n + 1 - l.length) { vals := List.replicate 32 0, ready := 0 }

/-- Writes an item of thread n in lane l (Table 18-5, R347); one that is not writable or does not exist is left as it is. -/
def writeItem (s : State) (n v l w : Nat) : State :=
  let t := s.th n
  let i := v % 2 ^ 28
  let word : Word := BitVec.ofNat 32 w
  let poke (c : Nat) : State := s.modTh n (fun t => { t with rg := uncleanCells (t.rg.poke [(c, word)]) [c] })
  let rg (vr : Nat) : State := match ringWord s n l vr .write with
    | some (.inl c) => poke c
    | some (.inr _) => windowWrite s n ((vr / 8 * 32 + l) * 32 + vr % 8 * 4) (leBytes 4 w)
    | none => s
  if t.ln.exited.getLsbD l && !itemInv v then s
  else match v / 2 ^ 28 with
    | 0 => if (fCell t i l).isSome then rg (8 * (t.frame l).base + i) else s
    | 1 => rg i
    | 2 => poke (gCell i l)
    | 3 => poke (sCell i)
    | 4 => s.modTh n (fun t => { t with rg := t.rg.poke [(kCell i l, BitVec.ofNat 32 (w % 2))] })
    | 5 => s.modTh n (fun t => t.setSlot (i / 4) { t.slot (i / 4) with
        byp := (bypUpTo (t.slot (i / 4)).byp (i % 4)).zipIdx.map (fun e =>
          if e.2 = i % 4 then { e.1 with vals := e.1.vals.set l word } else e.1) })
    | 6 => if i = 2 then s.modTh n (fun t => { t with ln := { t.ln with items := t.ln.items.set l word } }) else s
    | 7 =>
      if i = 8 then scrPut s n w
      else if i = 10 then s.modTh n (fun t => { t with qn := { t.qn with cstMask := word } })
      else if 16 ≤ i ∧ i ≤ 19 then
        if nfValid w then s.modTh n (fun t => { t with ct := { t.ct with nf := t.ct.nf.set (i - 16) word } }) else s
      else if 32 ≤ i ∧ (i - 32) % 4 ≤ 1 then
        let j := (i - 32) % 4
        let s := s.modTh n (fun t => { t with ps :=
          if i < 36 then { t.ps with s0 := writeSlot t.ps.s0 j w }
          else if i < 40 then { t.ps with s1 := writeSlot t.ps.s1 j w }
          else { t.ps with fork := t.ps.fork.reverse.zipIdx.map (fun e => if e.2 = (i - 40) / 4 then writeGroup e.1 j w else e.1) |>.reverse } })
        if i < 40 then s else spillForks s n
      else s
    | 8 =>
      modTable s t.pl.wg (i / 16) (fun d =>
        match i % 16 with
        | 0 => { d with spillBase := setBits d.spillBase 0 32 w, unchecked := true }
        | 1 => { d with spillBase := setBits d.spillBase 32 32 w, unchecked := true }
        | 2 => { d with spillCap := w, unchecked := true }
        | 3 => { d with spillCount := w, unchecked := true }
        | _ => d)
    | 10 =>
      let d := i % 4096
      match linkWord s n l d with
      | none => s
      | some o =>
        let o := leNat (linkBytes (linkOf (if i < 4096 then setBits o 0 32 w else setBits o 32 32 w)))
        if (t.frame l).linkLow ≤ d then
          s.modTh n (fun t => { t with rg := { t.rg with
            links := kset t.rg.links (d * 32 + l) (linkOf o)
            kept := t.rg.kept.filter (· ≠ (d, l)) } })
        else windowWrite s n (linkArea (s.transTh t) + (d * 32 + l) * 8) (leBytes 8 o)
    | _ => s

/-! ### The window's instructions -/

/-- The stopped strand that a handler has selected (R346). -/
def winSelected (s : State) (th : Nat) : Option Nat :=
  (s.th th).ct.sel.bind (fun n => match kget? s.ths n with
    | some t => if t.ct.stopped && t.pl.kind == .strand then some n else none
    | none => none)

/-- The core slot of a strand (R346). -/
def coreSlot (t : Strand) : Nat := 16 * t.pl.quad + t.pl.slot

/-- The stop of lowest number among some (R346). -/
def lowestStop (s : State) (l : List Nat) : Option Nat := (sortBy (fun n => ((s.th n).ct.fault.getD {}).seqNo) l).head?

/-- The strand that `winsel` selects (R346): none qualifies, or the value is illegal. -/
def winPick (s : State) (t : Strand) (v : Nat) : Option (Option Nat) :=
  if v = 2 ^ 32 - 1 then some (lowestStop s (pendingStops s t.pl.core t.pl.ctx))
  else if v < 64 then
    some ((s.ths.find? (fun e => e.2.pl.kind == .strand && e.2.pl.core == t.pl.core && e.2.pl.ctx == t.pl.ctx &&
      coreSlot e.2 == v && e.2.ct.stopped)).map (·.1))
  else none

/-- `winsel` (R346): the handler issues through the quadrant of the strand it selects (R344), and its launches belong to that
strand's queue (R368). -/
def execWinsel (x : LForm) (s : State) : Host.Outcome State Fault Refusal :=
  withIssuer s fun th k =>
    let i := issL x th k
    operate s i [srcA x] [x.d.toNat] readActive fun s1 g =>
      match (if (s.th th).pl.kind == .handler then winPick s (s.th th) (g.v 0 0) else none) with
      | none => illegalAt s th k ((s.th th).grp k).mask
      | some n =>
        let s2 := s1.modTh th (fun t => match n with
          | none => { t with ct := { t.ct with sel := none } }
          | some m => { t with pl := { t.pl with quad := (s.th m).pl.quad },
                               ct := { t.ct with sel := n, ownQ := (s.launch (s.th m).pl.launch).queue } })
        finish (putQuiet s2 i x.d.toNat g.act 4 g.cost (fun _ => match n with | some n => coreSlot (s.th n) | none => 2 ^ 32 - 1)) i g.cost

/-- `winrd` (R347). -/
def execWinrd (x : LForm) (s : State) : Host.Outcome State Fault Refusal :=
  withIssuer s fun th k =>
    let i := issL x th k
    operate s i [srcA x] [x.d.toNat] readActive fun s1 g =>
      let v := g.v 0 0
      match winSelected s th with
      | none => illegalAt s th k ((s.th th).grp k).mask
      | some n =>
        if !itemOk v || (isS x.d.toNat && !itemInv v) then illegalAt s th k ((s.th th).grp k).mask
        else finish (putQuiet (walkItems s1 n v (lanesOf g.act)) i x.d.toNat g.act 4 g.cost (readItem s n v)) i g.cost

/-- `winwr` (R347): in the active handler lanes; an invariant item takes the lowest active lane's value (DEDUCED, log 9). -/
def execWinwr (x : LForm) (s : State) : Host.Outcome State Fault Refusal :=
  withIssuer s fun th k =>
    let i := issL x th k
    operate s i [srcA x, srcB x] [] readActive fun s1 g =>
      let v := g.v 0 0
      match winSelected s th with
      | none => illegalAt s th k ((s.th th).grp k).mask
      | some n =>
        if !itemOk v then illegalAt s th k ((s.th th).grp k).mask
        else
          let ls := if itemInv v then (lanesOf g.act).take 1 else lanesOf g.act
          finish (ls.foldl (fun s l => writeItem s n v l (g.v 1 l)) s1) i g.cost

/-! ### Resolving a stop -/

/-- Takes a thread out of the pending stops of its core and of the fault log's records (R349). -/
def unlist (s : State) (n : Nat) : State :=
  let drop (r : LogRec) : LogRec := { r with threads := r.threads.filter (· != n) }
  let s := s.modCore (s.th n).pl.core (fun c => { c with pending := c.pending.filter (· != n) })
  { s with log := { s.log with recs := s.log.recs.map drop, waiting := (s.log.waiting.map drop).filter (fun r => r.threads != [] || r.source != 0) } }

/-- The groups of a strand. -/
def groupsOf (t : Strand) : List Group := t.ps.s0.grp.toList ++ t.ps.s1.grp.toList ++ t.ps.fork

/-- Whether group masks are disjoint and cover exactly the live lanes (R124, R348). -/
def masksOk (t : Strand) : Bool :=
  let r := (groupsOf t).foldl (fun (acc : Word × Bool) g => (acc.1 ||| g.mask, acc.2 && (acc.1 &&& g.mask) == 0)) (0, true)
  r.2 && r.1 == t.live

/-- The first group whose pc is to be a clause header and is none (R347). -/
def badPc (s : State) (n : Nat) : Option Group × State :=
  let t := s.th n
  let stands (g : Group) : Bool := g.clause.isNone && (g.st == .parked || g.st == .runnable && !g.w)
  let due (p : PcSlot) : List Group := if p.clause.isSome then [] else p.grp.toList.filter stands
  ((due t.ps.s0 ++ due t.ps.s1 ++ t.ps.fork.filter stands).foldl (fun acc g =>
    match acc with
    | (some b, s) => (some b, s)
    | (none, s) => match checkTarget s n g.pc with
      | (some .target, s) => (some g, s)
      | (_, s) => (none, s)) (none, s))

/-- A group stopped by `trap` or `brk` continues at the clause after its own, where no pc was written (R349). -/
def skipTrap (t : Strand) (r : FaultRec) : Strand :=
  if r.cls == .trap || r.cls == .brk then
    (List.range 2).foldl (fun t k =>
      if (t.slot k).clause.isSome && curPc t k == r.pc && (t.grp k).mask &&& r.mask != 0 then
        t.setSlot k { t.slot k with clause := none, byp := [], grp := some { t.grp k with pc := nextClause t k } }
      else t) t
  else t

/-- Whether the source of an asynchronous fault of a strand has its record still to come (R339). -/
def heldBack (t : Strand) (p : FaultRec → Bool) : Bool := (t.ct.pending.toList ++ t.ct.later).any p

/-- Lets go on what has faulted for a strand and has been reported: its access thread, and the splice operations suspended under a
number (R171, R250). -/
def releaseSplices (s : State) (n : Nat) (t : Strand) : State :=
  s.fl.foldl (fun s f => match f.work with
    | .splice x =>
      if f.th == n && !f.done && x.suspended && !heldBack t (fun r => r.source == 2 && r.pc == x.pc && r.detail == x.unitsDone) then
        setSplice s f.id { x with suspended := false }
      else s
    | _ => s) s

/-- An access thread that goes on once its fault has been reported (R171). -/
def releaseAccess (t : Strand) : Strand :=
  if heldBack t (fun r => r.source == 1) then t else { t with access := t.access.map (fun a => { a with faulted := false }) }

/-- Resumes a stopped strand (R349): with group masks that do not fit it stops again with ILLEGAL and nothing changes (R348); a rewritten
spill region that fails its check stops it with that fault (R225); a pending record stops it again before any clause (R339); a written pc
that is no header stops it with TARGET (R347). A queue thread executes again what it stopped at (R379). -/
def resumeThread (s : State) (n : Nat) : State :=
  let t := s.th n
  let r := t.ct.fault.getD {}
  if t.pl.kind == .strand && !masksOk t then
    stopThread (unlist s n) n { pc := r.pc, mask := t.live, cls := .illegal }
  else match regionsCheck (unlist s n) n t.pl.wg with
    | (.error e, s) => stopThread s n { pc := r.pc, cls := e.1, addr := e.2, mask := t.live }
    | (.ok _, s) =>
      let s := (releaseSplices s n t).modTh n (fun t =>
        let t := skipTrap (releaseAccess t) r
        { t with ct := { t.ct with stopped := false, acked := false, fault := none } })
      if t.pl.kind == .queue then refresh s n
      else match badPc s n with
        | (some g, s) => stopThread s n { pc := g.pc, mask := g.mask, cls := .target }
        | (none, s) => refresh s n

/-- Abandons the suspended splice operations of a strand (R250). -/
def abandonSuspended (s : State) (n : Nat) : State :=
  s.fl.foldl (fun s f => match f.work with
    | .splice x => if f.th == n && !f.done && x.suspended then endSplice s f x else s
    | _ => s) s

/-- Kills a strand (R349): its open quanta are discarded, every live and idle lane exits at its depth, suspended splice operations
are abandoned (R250), and barriers are evaluated again. -/
def killThread (s : State) (n : Nat) : State :=
  let t := s.th n
  let s := freeIssue (endXfer (unlist s n) n) n
  let s := s.modTh n (fun t => { t with
    qn := { t.qn with buf := [], log := [], cstMask := 0, cstPc := 0 },
    ln := { t.ln with exited := 0xFFFFFFFF, idle := 0, helper := 0 },
    rg := { t.rg with pend := [], need := [], got := [], failed := [] },
    ps := { t.ps with s0 := {}, s1 := {}, fork := [], issuing := none, clk := 0 },
    ct := { t.ct with stopped := false, acked := false, fault := none, pending := none, later := [] } })
  let s := abandonSuspended (logEmptied s n) n
  if t.pl.kind == .strand then barEvalAll s t.pl.wg else s

/-- Escalates the selected stop (R349); one acknowledged already is in the fault log. -/
def ackThread (s : State) (n : Nat) : State :=
  let t := s.th n
  if t.ct.acked then s
  else
    let s := s.modCore t.pl.core (fun c => { c with pending := c.pending.filter (· != n) })
    escalate (s.modTh n (fun t => { t with ct := { t.ct with acked := true } })) 0 n (t.ct.fault.getD {}) 0

/-- Runs `resume`, `kill` or `faultack` on the selected strand and clears the selection. -/
def onSelected (s : State) (x : LForm) (f : State → Nat → State) : Host.Outcome State Fault Refusal :=
  withIssuer s fun th k =>
    let i := issL x th k
    operate s i [] [] readActive fun s1 g =>
      match winSelected s th with
      | none => illegalAt s th k ((s.th th).grp k).mask
      | some n => finish (f (s1.modTh th (fun t => { t with ct := { t.ct with sel := none } })) n) i g.cost

/-- `resume` (R349, R355): the handler's open quanta commit and are applied first. -/
def execResume (x : LForm) (s : State) : Host.Outcome State Fault Refusal :=
  withIssuer s fun th k =>
    if (winSelected s th).isNone then illegalAt s th k ((s.th th).grp k).mask
    else
      withPaths s th k (commitPath (s.th th) 0xFFFFFFFF) 2 fun s =>
      let s := commitLanes s th 0xFFFFFFFF
      if relWaits s th s.run.nextId 0xFFFFFFFF 4 then holdGroup s th k (.drained s.run.nextId 4) false false 2
      else match onSelected s x resumeThread with
        | .next s => s
        | _ => s

/-- `kill` (R349). -/
def execKill (x : LForm) (s : State) : Host.Outcome State Fault Refusal := onSelected s x killThread
/-- `faultack` (R349). -/
def execFaultack (x : LForm) (s : State) : Host.Outcome State Fault Refusal := onSelected s x ackThread

/-! ### Starting a handler -/

/-- A handler as it starts (R344). -/
def freshHandler (s : State) (core ctx : Nat) : Strand :=
  let c := s.ctx ctx
  let code := kgetD s.codes c.handler {}
  let tr := s.transOf c.handler code.cur
  let first := lowestStop s (pendingStops s core ctx)
  let t := freshStrand { kind := .handler, ctx := ctx, code := c.handler, trans := code.cur, core := core,
                         quad := first.elim 0 (fun n => (s.th n).pl.quad) } tr.ring
  { t with rg := t.rg.poke [(sCell 14, BitVec.ofNat 32 core)],
           ct := { t.ct with nf := List.replicate 4 0, ownQ := first.bind (fun n => (s.launch (s.th n).pl.launch).queue) },
           ps := { t.ps with s0 := { grp := some { pc := tr.entry, mask := 0xFFFFFFFF } } } }

/-- The context that a core's handler slot starts next: the one it has just served where that has stops left, else that of the
oldest pending stop (R344). -/
def handlerFor (s : State) (core : Nat) : Option Nat :=
  let c := s.core core
  match c.serves.filter (fun x => !(pendingStops s core x).isEmpty) with
  | some x => some x
  | none => (c.pending.head?).map (fun n => (s.th n).pl.ctx)

/-- An idle handler slot starts a context's handler (R344). -/
def execHandlerStart (core : Nat) (s : State) : Host.Outcome State Fault Refusal :=
  match handlerFor s core with
  | none => .next s
  | some ctx =>
    if (kget? s.ths (handlerNo core)).isSome || (kget? s.codes (s.ctx ctx).handler).isNone then .next s
    else .next { s.modCore core (fun c => { c with serves := some ctx }) with ths := kset s.ths (handlerNo core) (freshHandler s core ctx) }

/-! ### The fault log -/

/-- A record's 64 bytes (Table 18-7). -/
def logBytes (r : LogRec) : List Byte :=
  leBytes 8 r.seqNo ++ leBytes 1 r.ctx ++ leBytes 1 r.cls ++ leBytes 1 r.source ++ leBytes 1 (if r.resolved then 1 else 0) ++
  leBytes 2 r.core ++ leBytes 2 r.count ++ leBytes 8 r.addr ++ leBytes 4 r.pc ++ leBytes 4 r.mask.toNat ++ leBytes 4 r.detail ++
  leBytes 4 r.slot ++ List.replicate 24 0

/-- Writes bytes for the device at a physical address. -/
def physWrite (s : State) (pa : Nat) (bs : List Byte) : State :=
  ((rangeFrom pa (pa + bs.length)).zip bs).foldl (fun s e => physByte s e.1 e.2) s

/-- Writes a record into its ring slot, where the ring set last holds it (R351). -/
def ringWrite (s : State) (r : LogRec) : State :=
  if r.ring < s.log.entries then physWrite s (s.log.base + 64 * r.ring) (logBytes r) else s

/-- The page of a faulting address of a context, as a base and a size: a global or lane-private address lies on the page that the tables
give for it; what no table maps, and an address of another space, lies on a page of 64 KiB (DEDUCED, log 11). -/
def faultPage (s : State) (ctx a : Nat) : Nat × Nat :=
  match (match spaceOf a with
    | 0 => (walk s ctx a).map (fun l => (l.va, l.size))
    | 1 => (walk s ctx ((s.ctx ctx).poolBase + (a - spaceBase 1))).map (fun l => (l.va, l.size))
    | _ => none) with
  | some p => p
  | none => match spaceOf a with
    | 1 => (((s.ctx ctx).poolBase + (a - spaceBase 1)) / 65536 * 65536, 65536)
    | _ => (a / 65536 * 65536, 65536)

/-- Whether a waiting escalation coalesces with an unresolved record (R351, R280): one context, class and page, and a strand stop. -/
def coalesces (s : State) (e r : LogRec) : Bool :=
  e.source == 0 && r.source == 0 && !r.resolved && e.addr != 0 && r.addr != 0 && e.ctx == r.ctx && e.cls == r.cls &&
  (faultPage s e.ctx e.addr).1 == (faultPage s r.ctx r.addr).1

/-- The oldest waiting escalation coalesces, or takes the next ring slot where it is free, is written, and gives notice (R351). -/
def execFaultLogWrite (s : State) : Host.Outcome State Fault Refusal :=
  match s.log.waiting with
  | [] => .next s
  | e :: rest =>
    match s.log.recs.find? (coalesces s e) with
    | some r =>
      let r' := { r with threads := r.threads ++ e.threads, count := r.count + 1 }
      let s := { s with log := { s.log with waiting := rest, recs := s.log.recs.map (fun x => if x = r then r' else x) } }
      .next (noteChange (ringWrite s r') 5 r.seqNo)
    | none =>
      let l := s.log
      if l.entries = 0 ∨ l.taken.contains l.next then .next s
      else
        let e := { e with seqNo := l.seqNo, ring := l.next }
        let s1 := { s with log := { l with waiting := rest, recs := l.recs ++ [e], seqNo := l.seqNo + 1, taken := l.next :: l.taken,
                                           next := (l.next + 1) % l.entries } }
        let at_ := l.base + 64 * e.ring
        .next (atHome s (rangeFrom at_ (at_ + 64))
          (contextEvents (raiseVector (noteChange (physWrite s1 at_ (logBytes e)) 5 e.seqNo) 0 l.vector) e.ctx evFault))

end Sys2Proof.Machine
end

