-- ==== Sys2Proof/Machine/Place.lean ====
section
/-!
DEFINITION. The distributor: what a core can hold (R76, R77, R359, R368), and placing a workgroup with the state its strands start
with (R59, R70, R78, R79, R85, R91, R96, R104, R162).
Corners that these rules leave to be inferred are read as log 14 says (DEDUCED).
-/

namespace Sys2Proof.Machine

/-! ### What a workgroup needs -/

/-- What one workgroup needs of a core (R77): strands, ring plies, banks, table slots, and bytes of each lane-private region. -/
structure Needs where
  n : Nat
  ring : Nat
  banks : Nat
  tabA : Nat
  region : Nat
  deriving DecidableEq, Repr

/-- The needs of a workgroup of some lanes under a translation. -/
def needsOf (tr : Trans) (lanes : Nat) : Needs :=
  { n := (lanes + 31) / 32, ring := tr.ring, banks := tr.banks, tabA := tr.tabA, region := regionSize tr }

/-- What a workgroup is allotted: its core, the quadrant of each strand, banks, the quadrants and offset of its tables, and
its regions. -/
structure Allot where
  core : Nat
  quads : List Nat
  banks : List Nat
  tabQuads : List Nat
  tabOff : Nat
  regions : List Nat
  deriving DecidableEq, Repr

/-- The half that a context lives in (R359). -/
def halfOf (c : Context) : Nat := c.mode - 1

/-- The quadrants of a core that a context may be placed on (R368, R405); with `empty`, those it could ever be. -/
def usableQuads (s : State) (ctx core : Nat) (empty : Bool) : List Nat :=
  ((s.ctx ctx).quads).filter (fun q => q / 4 == core && !(s.quad q).withdrawn && (empty || !(s.quad q).closed.contains ctx))

/-! ### Slots and plies -/

/-- Number of a strand of a half in a slot. -/
def halfStrandNo (half core quad slot : Nat) : Nat := half * 16384 + strandNo core quad slot

/-- The free strand slots of a quadrant for a half. -/
def freeSlots (s : State) (half q : Nat) (empty : Bool) : List Nat :=
  (List.range 16).filter (fun k => empty || (kget? s.ths (halfStrandNo half (q / 4) (q % 4) k)).isNone)

/-- The quadrant with most free plies among those with a free slot and room for a ring; ties go to the lowest (R77). -/
def bestQuad (ring : Nat) (l : List (Nat × Nat × Nat)) : Option (Nat × Nat × Nat) :=
  (l.filter (fun e => ring ≤ e.2.1 && e.2.2 != 0)).foldl (fun b e => match b with
    | none => some e
    | some x => if x.2.1 < e.2.1 then some e else some x) none

/-- Gives each of n strands a quadrant, in index order (R77); entries hold a quadrant, its free plies and its free slots. -/
def pickQuads (ring : Nat) : Nat → List (Nat × Nat × Nat) → Option (List Nat)
  | 0, _ => some []
  | n + 1, l =>
    match bestQuad ring l with
    | none => none
    | some (q, _, _) =>
      (pickQuads ring n (l.map (fun e => if e.1 = q then (q, e.2.1 - ring, e.2.2 - 1) else e))).map (q :: ·)

/-- The quadrants of a core for the strands of a workgroup. -/
def strandQuads (s : State) (ctx core : Nat) (nd : Needs) (empty : Bool) : Option (List Nat) :=
  let h := halfOf (s.ctx ctx)
  let r := plyRange s ctx h
  pickQuads nd.ring nd.n ((usableQuads s ctx core empty).map (fun q =>
    (q, if empty then r.2 - r.1 else (freePlies s ctx core (q % 4) h).length, (freeSlots s h q empty).length)))

/-! ### Banks, tables and regions -/

/-- The lowest free banks of a context on a core, where there are enough (R77). -/
def freeBanks (s : State) (ctx core n : Nat) (empty : Bool) : Option (List Nat) :=
  let used := s.wgs.flatMap (fun e => if e.2.core == core && !e.2.saved then e.2.banks else [])
  let free := (kgetD (s.ctx ctx).banks core []).filter (fun b => empty || !used.contains b)
  if free.length < n then none else some (free.take n)

/-- The slots of a quadrant's storage that allotments hold: first and count (R77). -/
def tabHeld (s : State) (q : Nat) : List (Nat × Nat) :=
  s.wgs.flatMap (fun e => if e.2.saved || e.2.tabA == 0 || !e.2.tabQuads.contains q then []
    else if e.2.tabA ≤ 16384 then [(e.2.tabOff, e.2.tabA)] else [(0, 16384)])

/-- The slots of a quadrant that a context may hold (Table 19-2). -/
def tabRange (c : Context) : Nat × Nat := if c.mode = 0 then (0, 16384) else (8192 * halfOf c, 8192 * halfOf c + 8192)

/-- Whether a block of a quadrant is free. -/
def blockFree (s : State) (q off n : Nat) (empty : Bool) : Bool :=
  empty || (tabHeld s q).all (fun h => h.1 + h.2 ≤ off || off + n ≤ h.1)

/-- The first aligned free block of n slots in a list of quadrants (R77). -/
def findBlock (s : State) (c : Context) (n : Nat) (empty : Bool) : List Nat → Option (List Nat × Nat)
  | [] => none
  | q :: qs =>
    let r := tabRange c
    match ((List.range ((r.2 - r.1) / n)).map (fun i => r.1 + i * n)).find? (fun off => blockFree s q off n empty) with
    | some off => some ([q], off)
    | none => findBlock s c n empty qs

/-- A table allotment (R77): its quadrants and the offset of its block. -/
def tabAllot (s : State) (ctx core : Nat) (n : Nat) (empty : Bool) : Option (List Nat × Nat) :=
  let c := s.ctx ctx
  let qs := usableQuads s ctx core empty
  let whole (l : List Nat) := l.filter (fun q => blockFree s q 0 16384 empty)
  if n = 0 then some ([], 0)
  else if n ≤ 16384 then findBlock s c n empty qs
  else if c.mode ≠ 0 then none
  else if n ≤ 65536 then
    let l := (whole qs).take (n / 16384)
    if l.length < n / 16384 then none else some (l, 0)
  else
    let l := whole (usableQuads s ctx (core / 2 * 2) empty) ++ whole (usableQuads s ctx (core / 2 * 2 + 1) empty)
    if l.length < 8 then none else some (l, 0)

/-- The regions of a context's pool that are held: first and length (R113, R365). -/
def regionsHeld (s : State) (ctx : Nat) : List (Nat × Nat) :=
  s.ths.flatMap (fun e => if e.2.pl.kind == .strand && e.2.pl.ctx == ctx then [(e.2.pl.region, regionSize (s.transTh e.2))] else []) ++
  s.wgs.flatMap (fun e => if e.2.saved && e.2.ctx == ctx then e.2.regions.map (fun r => (r, regionSize (s.transOf e.2.code e.2.trans))) else [])

/-- The lowest place from an offset on at which a region fits between held ones, which rise. -/
def regionFrom (size limit : Nat) : List (Nat × Nat) → Nat → Option Nat
  | [], off => if off + size ≤ limit then some off else none
  | h :: hs, off => if off + size ≤ h.1 then (if off + size ≤ limit then some off else none) else regionFrom size limit hs (Nat.max off (h.1 + h.2))

/-- A free region, searched from an offset on and then from the start of the pool. -/
def freeRegion (held : List (Nat × Nat)) (size limit start : Nat) : Option Nat :=
  let hs := sortBy (fun h : Nat × Nat => h.1) held
  match regionFrom size limit (hs.filter (fun h => start < h.1 + h.2)) start with
  | some r => some r
  | none => regionFrom size limit hs 0

/-- The regions of n strands at places that are drawn. -/
def drawnRegions (size limit : Nat) : Nat → Nat → List (Nat × Nat) → Option (List Nat)
  | 0, _, _ => some []
  | n + 1, fresh, held =>
    match freeRegion held size limit (Config.freeNat fresh % (limit / 65536) * 65536) with
    | none => none
    | some r => (drawnRegions size limit n (fresh + 1) ((r, size) :: held)).map (r :: ·)

/-- The lowest free places of the pool for the regions of n strands. -/
def lowestRegions (size limit : Nat) : Nat → List (Nat × Nat) → Option (List Nat)
  | 0, _ => some []
  | n + 1, held =>
    match freeRegion held size limit 0 with
    | none => none
    | some r => (lowestRegions size limit n ((r, size) :: held)).map (r :: ·)

/-- The regions of n strands. Which free places of the pool they take is the device's free choice (DESIGN CHOICE, log 6); where places
drawn leave no room for all of them, they take the lowest, so that a pool that can hold them always does (R77). -/
def freeRegions (size limit n fresh : Nat) (held : List (Nat × Nat)) : Option (List Nat) :=
  match drawnRegions size limit n fresh held with
  | some l => some l
  | none => lowestRegions size limit n held

/-! ### Whether a core can hold a workgroup -/

/-- What a core allots to a workgroup, where it can hold it (R77); `held` names regions taken besides, and `low` asks for the lowest free
places of the pool. -/
def allotCore (s : State) (ctx core : Nat) (nd : Needs) (held : List (Nat × Nat)) (low : Bool := false) : Option Allot :=
  let limit := (s.ctx ctx).poolSize
  let all := held ++ regionsHeld s ctx
  match strandQuads s ctx core nd false, freeBanks s ctx core nd.banks false, tabAllot s ctx core nd.tabA false,
      (if low then lowestRegions nd.region limit nd.n all else freeRegions nd.region limit nd.n s.run.fresh all) with
  | some qs, some bs, some t, some rs =>
    some { core := core, quads := qs, banks := bs, tabQuads := t.1, tabOff := t.2, regions := rs }
  | _, _, _, _ => none

/-- What the two cores of a pair allot to a cluster's two workgroups, with regions drawn or at the lowest free places. -/
def allotTwo (s : State) (ctx pair : Nat) (nd : Needs) (low : Bool) : Option (List Allot) :=
  match allotCore s ctx (2 * pair) nd [] low with
  | none => none
  | some a =>
    let used := a.regions.map (fun r => (r, nd.region))
    (allotCore { s with run := { s.run with fresh := s.run.fresh + nd.n } } ctx (2 * pair + 1) nd used low).map (fun b => [a, b])

/-- What a pair allots to a cluster of one or two workgroups (R76): both cores or neither; 131,072 table slots count once. Where regions drawn
leave no room for both workgroups, they take the lowest, so that a pool that can hold both always does (R77). -/
def allotPair (s : State) (ctx pair n : Nat) (nd : Needs) : Option (List Allot) :=
  if n < 2 then (allotCore s ctx (2 * pair) nd []).map (fun a => [a])
  else match allotTwo s ctx pair nd false with
    | some l => some l
    | none => allotTwo s ctx pair nd true

/-- The first core or pair that can hold the next workgroups, searched from a start and wrapping (R76). -/
def firstHold (f : Nat → Option (List Allot)) (l : List Nat) (start : Nat) : Option (List Allot) :=
  (l.drop (start % l.length) ++ l.take (start % l.length)).findSome? f

/-- Whether a core could hold a workgroup if it were empty (R74). -/
def everCore (s : State) (ctx core : Nat) (nd : Needs) : Bool :=
  (strandQuads s ctx core nd true).isSome && (freeBanks s ctx core nd.banks true).isSome && (tabAllot s ctx core nd.tabA true).isSome

/-- Whether a launch is rejected (R74, R359): no core, or pair, can ever hold a workgroup, or the pool cannot. -/
def rejected (s : State) (l : Launch) : Bool :=
  let c := s.ctx l.ctx
  let nd := needsOf (s.transOf l.code l.trans) l.lanes
  let two := l.clu && 1 < l.gx * l.gy * l.gz
  let ok := if l.clu then (ownPairs c).any (fun p => everCore s l.ctx (2 * p) nd && (!two || everCore s l.ctx (2 * p + 1) nd))
    else (ownCores c).any (fun k => everCore s l.ctx k nd)
  !ok || (65536 < nd.tabA && !l.clu) || c.poolSize < nd.n * nd.region

/-! ### Placing -/

/-- The mask of the n lowest lanes. -/
def lowLanes (n : Nat) : Word := BitVec.ofNat 32 (2 ^ Nat.min n 32 - 1)

/-- A strand as it is placed (R59, R78, R79, R85, R96, R104, R162). -/
def newStrand (s : State) (id : Nat) (g : Workgroup) (l : Launch) (idx slot q region : Nat) : Strand :=
  let tr := s.transOf g.code g.trans
  let half := halfOf (s.ctx g.ctx)
  let own := g.lanes - 32 * idx
  let held := Nat.min 32 ((own + 3) / 4 * 4)
  let priv := spaceBase 1 + region
  let w := g.lin
  let pre : List Nat := [w % l.gx, w / l.gx % l.gy, w / (l.gx * l.gy), l.gx, l.gy, l.gz, l.args, l.args / 2 ^ 32, idx, l.lanes, g.rank,
    w * l.items, priv, priv / 2 ^ 32, g.core]
  let sp (k : Nat) : Nat := if tr.lstack = 0 then 0 else priv + stackArea tr + (k + 1) * tr.lstack
  let words := (pre.zipIdx.map (fun e => (sCell e.2, BitVec.ofNat 32 e.1))) ++
    (List.range 32).flatMap (fun k => [(gCell 0 k, BitVec.ofNat 32 (sp k)), (gCell 1 k, BitVec.ofNat 32 (sp k / 2 ^ 32))])
  let t := freshStrand { kind := .strand, ctx := g.ctx, launch := g.launch, wg := id, code := g.code, trans := g.trans, idx := idx,
                         core := g.core, quad := q % 4, slot := slot, region := region, half := half } tr.ring
  { t with
    rg := { t.rg.poke words with plymap := (freePlies s g.ctx g.core (q % 4) half).take tr.ring }
    ln := { t.ln with exited := ~~~(lowLanes held), helper := lowLanes held &&& ~~~(lowLanes own) }
    ct := { t.ct with chk := l.chk }
    ps := { t.ps with s0 := { grp := some { pc := tr.entry, mask := lowLanes held } } }
    access := if tr.acLen = 0 then none
      else some { a := [l.args, w, idx, w * l.items % 2 ^ 32] ++ List.replicate 12 0, pc := (accessSlice tr).1 } }

/-- Places strand after strand; a strand takes a free slot of its quadrant by the device's free choice (DESIGN CHOICE, log 6), and its quantum
log has its header from then on (Table 17-3; DEDUCED, log 11). -/
def placeStrands (id : Nat) (g : Workgroup) (l : Launch) : Nat → List (Nat × Nat) → State → State
  | _, [], s => s
  | idx, (q, r) :: rest, s =>
    let half := halfOf (s.ctx g.ctx)
    let free := freeSlots s half q false
    let (n, s) := s.freeNat
    let slot := free.getD (n % free.length) 0
    let no := halfStrandNo half (q / 4) (q % 4) slot
    let s := { s with ths := kset s.ths no (newStrand s id g l idx slot q r) }
    let s := logHeader (s.modWg id (fun g => { g with threads := g.threads ++ [no] })) no
    placeStrands id g l (idx + 1) rest s

/-- Places the next workgroup of a launch under an allotment (R76 to R79, R85, R91). -/
def placeOne (s : State) (ln : Nat) (l : Launch) (w rank : Nat) (a : Allot) : Nat × State :=
  let (id, s) := s.newId
  let tr := s.transOf l.code l.trans
  let base := w * l.items % 2 ^ 32
  let g : Workgroup := { ctx := l.ctx, launch := ln, code := l.code, trans := l.trans, lin := w, core := a.core, rank := rank,
                         strands := (l.lanes + 31) / 32, lanes := l.lanes, quads := a.quads, half := halfOf (s.ctx l.ctx),
                         banks := a.banks, tabA := tr.tabA, tabQuads := a.tabQuads, tabOff := a.tabOff, itemNext := base,
                         itemEnd := base + l.items, bars := List.replicate 8 0, placedAt := s.now,
                         regions := a.regions }
  let s := noteChange { s with wgs := kset s.wgs id g } 2 l.ctx
  let s := placeStrands id g l 0 (a.quads.zip a.regions) s
  (id, s.modLaunch ln (fun l => { l with next := l.next + 1 }))

/-- Places the workgroups of one cluster, or a single one; the two of a cluster know each other (R70). -/
def placeAll (s : State) (ln : Nat) (l : Launch) (as : List Allot) : State :=
  match as with
  | [] => s
  | [a] => (placeOne s ln l l.next 0 a).2
  | a :: b :: _ =>
    let (i, s) := placeOne s ln l l.next 0 a
    let (j, s) := placeOne s ln l (l.next + 1) 1 b
    (s.modWg i (fun g => { g with partner := some j })).modWg j (fun g => { g with partner := some i })

/-- The distributor places the next workgroup or cluster of a context's list (R76), once the issuer's stores are visible (R75). A
launch that nothing can ever hold is rejected (R74). -/
def execWorkgroupPlacement (ctx : Nat) (s : State) : Host.Outcome State Fault Refusal :=
  let c := s.ctx ctx
  match c.order with
  | [] => .next s
  | ln :: rest =>
    let l := s.launch ln
    let total := l.gx * l.gy * l.gz
    let drop (s : State) : State := s.modCtx ctx (fun c => { c with order := rest })
    if l.outcome.isSome then .next (drop s)
    else if stillOut s l.rel != [] then .next s
    else if rejected s l then .next (drop (s.modLaunch ln (fun l => { l with outcome := some 2 })))
    else
      let nd := needsOf (s.transOf l.code l.trans) l.lanes
      let n := if l.clu then Nat.min 2 (total - l.next) else 1
      let got := if l.clu then firstHold (fun p => allotPair s ctx p n nd) (ownPairs c) l.start
        else firstHold (fun k => (allotCore s ctx k nd []).map (fun a => [a])) (ownCores c) l.start
      match got with
      | none => .next s
      | some as =>
        let drawn := (as.map (·.regions.length)).foldl (· + ·) 0
        let s := placeAll { s with run := { s.run with fresh := s.run.fresh + drawn } } ln l as
        .next (if total ≤ (s.launch ln).next then drop s else s)

end Sys2Proof.Machine
end

