-- ==== Sys2Proof/Machine/Life.lean ====
section
/-!
DEFINITION. The end of strands, workgroups, launches and contexts (R94, R100, R101, R74, R352, R371), errors and upkeep (R14, R323,
R353, R404, R405).
Corners that these rules leave to be inferred are read as log 14 says (DEDUCED).
-/

namespace Sys2Proof.Machine

/-! ### What a deadline affects -/

/-- Whether a workgroup itself falls under a deadline (R368): a strand of it, or a table block, stands on a named quadrant, or its context
is named. -/
def underDeadline (s : State) (d : Deadline) (w : Nat) : Bool :=
  let g := s.wg w
  if d.kind = 1 then d.ctxs.contains g.ctx
  else (wgThreads s w).any (fun n => d.quads.contains ((s.th n).pl.core * 4 + (s.th n).pl.quad)) ||
    (g.tabA != 0 && g.tabQuads.any d.quads.contains)

/-- Whether a resident workgroup, or its cluster partner, falls under a deadline (R368). -/
def affectedBy (s : State) (d : Deadline) (w : Nat) : Bool :=
  match kget? s.wgs w with
  | none => false
  | some g => !g.saved && (underDeadline s d w || (match g.partner with
      | some p => (match kget? s.wgs p with | some h => !h.saved && underDeadline s d p | none => false)
      | none => false))

/-- The resident workgroups that a deadline affects. -/
def affectedWgs (s : State) (d : Deadline) : List Nat := (s.wgs.map (·.1)).filter (affectedBy s d)

/-- Zero-fills flat addresses of a range. -/
def zeroRange (s : State) (lo n : Nat) : State := { s with mem := s.mem.filter (fun e => e.1 < lo || lo + n ≤ e.1) }

/-! ### Restart and retirement -/

/-- Whether a strand has no group and an empty fork stack (R94). -/
def noGroup (t : Strand) : Bool := t.ps.s0.grp.isNone && t.ps.s1.grp.isNone && t.ps.fork.isEmpty

/-- Whether a strand is to be restarted at its loop head (R94). -/
def restarts (s : State) (t : Strand) : Bool :=
  let w := s.wg t.pl.wg
  t.pl.kind == .strand && !t.ct.stopped && !t.ps.halted && noGroup t && t.ln.idle != 0 && t.ln.lh.isSome && w.itemNext < w.itemEnd

/-- A strand whose lanes are idle starts again at its loop head with an empty group (R94). -/
def execStrandRestart (th : Nat) (s : State) : Host.Outcome State Fault Refusal :=
  let t := s.th th
  if (kget? s.ths th).isSome && restarts s t then
    .next (s.modTh th (fun t => t.setSlot 0 { grp := some { pc := t.ln.lh.getD 0, mask := 0 } }))
  else .next s

/-- Whether a strand may retire (R94, R100, R111): no group, no live lane, nothing to restart for, every path counter zero, and its
reel at rest. -/
def retires (s : State) (th : Nat) : Bool :=
  let t := s.th th
  let w := s.wg t.pl.wg
  (kget? s.ths th).isSome && t.pl.kind == .strand && !t.ct.stopped && noGroup t && t.live == 0 &&
  (t.ln.idle == 0 || t.ln.lh.isNone || w.itemNext == w.itemEnd) &&
  !s.fl.any (fun f => f.th == th && f.paths != []) && t.rg.need.isEmpty && t.rg.xfer.isNone

/-- Completes a workgroup whose last strand has retired (R101): its tables, banks and item entry are free. Banks that it leaves for a deadline
are zero before any further use (R372). -/
def wgComplete (s : State) (w : Nat) : State :=
  let g := s.wg w
  let s := if s.dls.any (fun e => affectedBy s e.2 w) then
      (g.banks.foldl (fun s b => zeroRange s (scratchFlat g.core b) 32768) s) else s
  let s := noteChange { s with wgs := kdel s.wgs w, dirty := s.dirty.filter (fun r => !rowOf g r) } 2 g.ctx
  s.modLaunch g.launch (fun l => { l with doneWgs := l.doneWgs + 1, runSum := l.runSum + (s.now - g.placedAt) })

/-- A strand retires (R100): its slot, plies and region are free, its access thread ends with the rows left in its queues (R170), and
barriers are evaluated again (R87). Stores it has closed for a barrier phase stay with its workgroup until the release (R87); a workgroup
that completes before that drops them (DEDUCED, log 11). -/
def execStrandRetire (th : Nat) (s : State) : Host.Outcome State Fault Refusal :=
  if !retires s th then .next s
  else
    let t := s.th th
    let w := t.pl.wg
    let s := orphan (freeIssue s th) th
    let s := { s.modWg w (fun g => { g with closed := g.closed ++ t.qn.closed.map (fun e => (t.pl.idx, e)) }) with ths := kdel s.ths th }
    let s := barEvalAll s w
    .next (if (wgThreads s w).isEmpty then wgComplete s w else s)

/-! ### Completion of a launch -/

/-- The event bit LAUNCH (Table 20-6). -/
def evLaunch : Nat := 2 ^ 16

/-- A launch has ended: its queue receives the LAUNCH bit (R383), and nothing names it any more. -/
def launchGone (s : State) (l : Nat) : State :=
  let s := match (s.launch l).queue with
    | some q => s.modQueue q (fun v => { v with events := v.events ||| evLaunch })
    | none => s
  { s with launches := kdel s.launches l }

/-- What a launch's outcome adds to its completion word (Table 5-4). -/
def outcomeAdd (o : Nat) : Nat := match o with | 0 => 1 | 1 => 2 ^ 32 | _ => 2 ^ 48

/-- Writes a launch's completion word at system scope with release, or escalates the write that faults as source 1 (R74, R351). -/
def completeWord (s : State) (ln o : Nat) : State :=
  let l := s.launch ln
  match (if spaceOf l.cw = 0 then deviceLoc s l.ctx l.cw .write else (.error .prot, s)) with
  | (.error e, s) =>
    let r : LogRec := { ctx := l.ctx, cls := clsCode e, source := 1, addr := l.cw, launch := ln }
    { s with log := { s.log with waiting := s.log.waiting ++ [r] } }
  | (.ok pa, s) => atHome s [pa] <|
    let s := setDirty s ((walk s l.ctx l.cw).toList.map (·.at_))
    let s := watchTest { s with mem := memPut s.mem pa 8 ((memNat s.mem pa 8 + outcomeAdd o) % 2 ^ 64) }
    launchGone { s with ch := { s.ch with narrow := kdel s.ch.narrow (pa / 128) } } ln

/-- The outcome that a launch has come to: every workgroup completed, or gone after a discard, or rejected, with every operation of
its strands done (R74, R101, R371). -/
def launchOutcome (s : State) (ln : Nat) : Option Nat :=
  match kget? s.launches ln with
  | none => none
  | some l =>
    if s.wgs.any (fun e => e.2.launch == ln) || s.fl.any (fun f => f.launch == ln && !f.done) then none
    else match l.outcome with
      | some o => some o
      | none => if l.next == l.gx * l.gy * l.gz && l.doneWgs == l.next then some 0 else none

/-- The completion write of a launch (R74), unless an escalation of it waits for its reply (R351). -/
def execLaunchComplete (l : Nat) (s : State) : Host.Outcome State Fault Refusal :=
  match launchOutcome s l with
  | none => .next s
  | some o =>
    if (s.log.waiting ++ s.log.recs).any (fun r => r.launch == l && r.source == 1 && !r.resolved) then .next s
    else .next (completeWord s l o)

/-! ### Deadlines -/

/-- The queue of a workgroup's launch (R368). -/
def wgQueue (s : State) (w : Nat) : Option Nat := (s.launch (s.wg w).launch).queue

/-- Changes the posted deadlines; one whose decisions differ has changed for the RESYNC summary (R397). -/
def setDls (s : State) (ds : KMap Deadline) : State :=
  let made (m : KMap Deadline) (n : Nat) : Option (List (Nat × Nat)) := (kget? m n).map (fun d => d.choices.map (fun c => (c.1, c.2.choice)))
  ((ds.map (·.1)).filter (fun n => made ds n != made s.dls n)).foldl (fun s n => noteChange s 4 (kgetD ds n {}).place) { s with dls := ds }

/-- Marks the choices of a context that ends (R370, R373): a checkpoint whose record is not whole is lost, any other choice ended;
a queue with no affected workgroup left keeps its choice. -/
def noteEnd (s : State) (ctx : Nat) : State :=
  setDls s (s.dls.map (fun (e : Nat × Deadline) =>
      let live := affectedWgs s e.2
      (e.1, { e.2 with choices := e.2.choices.map (fun (c : Nat × DlChoice) =>
        if c.2.ctx = ctx ∧ live.any (fun w => wgQueue s w == some c.1) then (c.1, { c.2 with choice := if c.2.choice = 2 then 5 else 4 })
        else c) })))

/-! ### The end of a context -/

/-- Removes a thread that ends where it stands; no record of the fault log names it any more (R351). -/
def removeThread (s : State) (th : Nat) : State :=
  let s := orphan (freeIssue (endXfer s th) th) th
  let drop (r : LogRec) : LogRec := { r with threads := r.threads.filter (· != th) }
  { s with ths := kdel s.ths th, log := { s.log with recs := s.log.recs.map drop, waiting := s.log.waiting.map drop } }

/-- Drops a saved workgroup with the operations that its strands had in flight. -/
def dropSaved (s : State) (w : Nat) : State :=
  let own (th : Nat) : Bool := savedBase ≤ th && (th - savedBase) / 32 == w
  let ids := (s.fl.filter (fun f => own f.th)).map (·.id)
  let drop (r : LogRec) : LogRec := { r with threads := r.threads.filter (fun n => !own n) }
  let s := ids.foldl (fun s id => dropLock (freeArrays s id) id) s
  { s with wgs := kdel s.wgs w, fl := s.fl.filter (fun f => !own f.th), log := { s.log with recs := s.log.recs.map drop } }

/-- Drops the stores that the strands of some launches have closed for barrier phases: stores of discarded or ended work that have not
committed never apply (R371, R375). -/
def dropClosed (s : State) (p : Nat → Bool) : State :=
  { s with ths := s.ths.map (fun e => if e.2.pl.kind == .strand && p e.2.pl.launch then
             (e.1, { e.2 with qn := { e.2.qn with closed := [] } }) else e),
           wgs := s.wgs.map (fun e => if p e.2.launch then (e.1, { e.2 with closed := [] }) else e) }

/-- Ends a context (R352, R371): every strand is killed, its handlers and queue threads end, its saved workgroups are dropped, and its
launches end with nothing added. -/
def endContext (s : State) (ctx : Nat) : State :=
  if !s.hasCtx ctx || (s.ctx ctx).ended then s
  else
    let s := noteEnd s ctx
    let s := noteChange (s.modCtx ctx (fun c => { c with order := [], ended := true })) 2 ctx
    let own := s.ths.filter (fun e => e.2.pl.ctx == ctx)
    let ls := (s.launches.filter (fun e => e.2.ctx == ctx)).map (·.1)
    let s := dropClosed s ls.contains
    let s := ((s.launches.filter (fun e => e.2.ctx == ctx)).map (·.1)).foldl launchGone s
    let s := ((own.filter (fun e => e.2.pl.kind == .handler)).map (·.1)).foldl (fun s n =>
      removeThread (s.modCore (s.th n).pl.core (fun c => { c with serves := none })) n) s
    let s := ((own.filter (fun e => e.2.pl.kind == .strand)).map (·.1)).foldl killThread s
    let s := ((own.filter (fun e => e.2.pl.kind == .queue)).map (·.1)).foldl (fun s n => haltQueue s (queueOf n)) s
    let gone := (s.wgs.filter (fun e => e.2.saved && e.2.ctx == ctx)).map (·.1)
    gone.foldl dropSaved s

/-- The context error report of the fault log (R352, R367, R371): source 3. -/
def reportContext (s : State) (ctx cls addr : Nat) : State :=
  { s with log := { s.log with waiting := s.log.waiting ++ [{ ctx := ctx, cls := cls, source := 3, addr := addr }] } }

/-- Ends a context by an error of a class (R352). -/
def errorContext (s : State) (ctx cls addr : Nat) : State :=
  if !s.hasCtx ctx || (s.ctx ctx).ended then s else reportContext (endContext s ctx) ctx cls addr

/-! ### Errors -/

/-- Whether a context is resident. -/
def resident (s : State) (c : Nat) : Bool := s.hasCtx c && !(s.ctx c).ended

/-- The context that holds a place of a quadrant's storage (R359). -/
def quadOwner (s : State) (q slot : Nat) : Option Nat :=
  (s.ctxs.find? (fun e => !e.2.ended && e.2.quads.contains q && (e.2.mode == 0 || halfOf e.2 == slot / 8192))).map (·.1)

/-- The owner that the tag of damaged storage names, if resident (R352). -/
def errOwner (s : State) (loc : ErrLoc) : Option Nat :=
  match loc with
  | .dram pa => let c := pageOwnerOf s pa; if resident s c then some c else none
  | .l1 core line => ((s.ch.l1.find? (fun x => x.core == core && x.line == line)).map (·.ctx)).filter (resident s)
  | .l2 _ c => if resident s c then some c else none
  | .strand th => (kget? s.ths th).bind (fun t => if resident s t.pl.ctx then some t.pl.ctx else none)
  | .table q b => quadOwner s q b
  | .scratch core b => (s.ctxs.find? (fun e => !e.2.ended && (kgetD e.2.banks core []).contains b)).map (·.1)
  | .common b => (s.ctxs.find? (fun e => !e.2.ended && (e.2.plain.contains b || e.2.exact.contains b))).map (·.1)
  | .flight f => (s.flight? f).bind (fun f => if resident s f.ctx then some f.ctx else none)

/-- Storage whose tag names no resident context is zero-filled (R352): the line, or the bank. -/
def errClear (s : State) (loc : ErrLoc) : State :=
  match loc with
  | .dram pa | .l2 pa _ => zeroRange s (pa / 128 * 128) 128
  | .l1 core line => { s with ch := { s.ch with l1 := s.ch.l1.map (fun x =>
      if x.core == core && x.line == line then { x with data := List.replicate 128 0 } else x) } }
  | .scratch core b => zeroRange s (scratchFlat core b) 32768
  | .common b => zeroRange s (commonFlat b) (2 ^ 18)
  | _ => s

/-- Whether a flat address lies in damaged memory (R352). -/
def errHits (loc : ErrLoc) (a : Nat) : Bool :=
  match loc with
  | .dram pa | .l2 pa _ => a / 128 == pa / 128
  | .scratch core b => scratchFlat core b ≤ a && a < scratchFlat core b + 32768
  | .common b => commonFlat b ≤ a && a < commonFlat b + 2 ^ 18
  | _ => false

/-- The address that an error's records name: that of a line, else 0. -/
def errAddr (loc : ErrLoc) : Nat := match loc with | .dram pa | .l2 pa _ => pa | .l1 _ line => 128 * line | _ => 0

/-- The flat addresses that an operation in flight reads. -/
def flightPas (f : Flight) : List Nat :=
  match f.work with
  | .copy _ src _ _ _ _ _ _ aad tag _ _ _ _ _ _ => src ++ aad ++ tag
  | .fetch _ _ es _ _ _ => es.flatMap (fun e => e.pas.filterMap id)
  | .splice x => x.aPas ++ x.bPas
  | .feed _ pas _ _ sc => pas ++ sc.filterMap id
  | _ => readsOf f

/-- Whether a table uses a slot of a quadrant (R220). -/
def slotsHit (s : State) (w t q b : Nat) : Bool :=
  match tableOf s w t with
  | some d => (tabSpan (s.wg w) d).any (fun e => e.1 == q && e.2.1 ≤ b && b < e.2.1 + e.2.2)
  | none => false

/-- Whether an operation in flight reads damaged data: itself named, in memory, or in the accumulator slots that it works on (R352). -/
def errRead (s : State) (loc : ErrLoc) (f : Flight) : Bool :=
  !f.done && (match loc, f.work with
    | .flight n, _ => n == f.id
    | .table q b, .splice x => slotsHit s x.wg x.table q b
    | .table q b, .seed w t _ _ _ => slotsHit s w t q b
    | .table q b, .drain w t _ _ => slotsHit s w t q b
    | .l1 core line, .load ls _ _ => f.core == core && ls.any (fun l => l.cached && l.pas.any (· / 128 == line))
    | _, _ => (flightPas f).any (errHits loc))

/-- Stops a strand that reads damaged data with ECC (R352). -/
def errStop (s : State) (th a : Nat) : State :=
  match kget? s.ths th with
  | none => s
  | some t =>
    if t.ct.stopped || t.pl.kind != .strand then s
    else stopThread s th { pc := curPc t (t.ps.issuing.getD 0), addr := a, mask := t.live, cls := .ecc }

/-- Stops the reader whose operation in flight reads damaged data: its access thread (R171), the splice operation at its unit (R250), or the
strand. -/
def errFlight (a : Nat) (s : State) (f : Flight) : State :=
  match f.work with
  | .feed _ _ _ _ _ => if (kget? s.ths f.th).isSome then accessFault s f.th .ecc a 0 else s
  | .splice x => suspend s f x .ecc
  | _ => errStop s f.th a

/-- A haul-in that reads damaged data is stuck with ECC, and stops the strand that needs it (R110). -/
def errReel (loc : ErrLoc) (s : State) (th : Nat) : State :=
  match (s.th th).rg.xfer with
  | none => s
  | some x =>
    if x.need.pay then s
    else match (x.need.loc s th).1 with
      | .error _ => s
      | .ok pa =>
        if !errHits loc pa then s
        else
          let s := markStuck (endXfer s th) th x.need .ecc
          if x.ahead then s else errStop s th (x.need.addr s th)

/-- The readers of damaged data stop with ECC first, where their context is the owner (R352). -/
def errReader (s : State) (loc : ErrLoc) (owner : Nat) : State :=
  let s := match loc with | .strand th => errStop s th 0 | _ => s
  let s := (s.fl.filter (fun f => f.ctx == owner && errRead s loc f)).foldl (errFlight (errAddr loc)) s
  ((s.ths.filter (fun e => e.2.pl.ctx == owner)).map (·.1)).foldl (errReel loc) s

/-- The die of damaged storage, and the number of its array in the error counters (R352, R397, log 13). -/
def errArray (s : State) (loc : ErrLoc) : Nat × Nat :=
  match loc with
  | .dram pa => (homeDie pa, 0)
  | .l1 core _ => (dieOf core, 1)
  | .l2 pa _ => (homeDie pa, 2)
  | .strand th => (dieOfCore (s.th th).pl.core, 3)
  | .table q _ => (q / 256, 4)
  | .scratch core _ => (dieOf core, 5)
  | .common b => (b / 256, 6)
  | .flight f => (dieOfCore (((s.flight? f).map (·.core)).getD 0), 7)

/-- Counts an error of an array (R397). -/
def countError (m : KMap Nat) (p : Nat × Nat) : KMap Nat := kset m (16 * p.1 + p.2) (kgetD m (16 * p.1 + p.2) 0 + 1)

/-- A correctable error is corrected on read and counted (R352). -/
def correctError (s : State) (loc : ErrLoc) : State :=
  noteChange { s with up := { s.up with corr := countError s.up.corr (errArray s loc) } } 6 (2 * (errArray s loc).1)

/-- An undervoltage error ends every resident context and is reported to the owner (R14): in the record of each context that it ends, or in
one of its own that names no context, 255, where none is resident (DESIGN CHOICE, log 14). -/
def execUndervoltage (s : State) : Host.Outcome State Fault Refusal :=
  .next (if s.ctxs.any (fun e => resident s e.1) then (s.ctxs.map (·.1)).foldl (fun s c => errorContext s c 0 0) s
    else reportContext s 255 0 0)

/-! ### Upkeep -/

/-- The end of a 1 ms power window (R14): above 3,000 W issue cycles are withheld, which affects timing only. -/
def execPowerWindow (watts : Nat) (s : State) : Host.Outcome State Fault Refusal :=
  .next { s with up := { s.up with withhold := if 3000 < watts then 1 else 0 } }

/-- An L1 copy of a line is dropped (R323). -/
def execL1LineDrop (core line : Nat) (s : State) : Host.Outcome State Fault Refusal :=
  .next { s with ch := { s.ch with l1 := s.ch.l1.filter (fun x => !(x.core == core && x.line == line)) } }

/-- A pass of the scrubber (R353): it is counted, and changes nothing that a program reads. -/
def execScrubPass (s : State) : Host.Outcome State Fault Refusal :=
  .next (countersChange { s with up := { s.up with scrubs := s.up.scrubs + 1 } } 1)

/-- The least slack that a report names for a die. -/
def dieSlack (slack : List (Nat × Nat)) (die : Nat) : Nat :=
  ((slack.filter (fun e => e.1 / 256 == die)).map (·.2)).foldl Nat.min 1000

/-- Takes over a quadrant's slack; one newly below 15 ps is degraded, and its contexts' queues receive FAULT (R405). -/
def marginOne (s : State) (e : Nat × Nat) : State :=
  let a := s.quad e.1
  let b := { a with slack := e.2, degraded := a.degraded || e.2 < 15 }
  let s := if a = b then s else noteChange (s.modQuad e.1 (fun _ => b)) 7 e.1
  if e.2 < 15 && !a.degraded then
    ((s.ctxs.filter (fun c => c.2.quads.contains e.1)).map (·.1)).foldl (fun s c => contextEvents s c evFault) s
  else s

/-- Sets a die's rail offset (R404), which the margins of its quadrants name (R397). -/
def setRail (s : State) (die v : Nat) : State :=
  let t := { s with up := { s.up with rails := kset s.up.rails die v } }
  if kgetD s.up.rails die 0 = v then t else (rangeFrom (256 * die) (256 * die + 256)).foldl (fun s q => noteChange s 7 q) t

/-- The margin planner (R404): each die's rail offset in 2.5 mV steps within 0.38 to 0.44 V, and the quadrants that cannot keep 15 ps
at 0.44 V, with the slack that the monitors report for that voltage (DESIGN CHOICE, log 8). -/
def execMarginPlan (slack : List (Nat × Nat)) (s : State) : Host.Outcome State Fault Refusal :=
  let s := (slack.filter (fun e => e.1 < 4 * Config.cores)).foldl marginOne s
  .next ((List.range Config.dies).foldl (fun s d => setRail s d (Config.railOffset d (dieSlack slack d) % 25)) s)

/-- A quadrant whose slack is 0 ps ends its owning contexts and is withdrawn (R405). -/
def execQuadrantSlackZero (q : Nat) (s : State) : Host.Outcome State Fault Refusal :=
  if (s.quad q).slack ≠ 0 ∨ (s.quad q).withdrawn then .next s
  else
    let cs := (s.ctxs.filter (fun c => c.2.quads.contains q)).map (·.1)
    .next (withdraw (cs.foldl (fun s c => errorContext s c (clsCode .ecc) 0) s) q)

end Sys2Proof.Machine
end

