-- ==== Sys2Proof/Machine/Save.lean ====
section
/-!
DEFINITION. What a save writes (R365, R366, Tables 19-3 to 19-6): the area's header, workgroup records, bank and table images, and
strand records.
Corners that these rules leave to be inferred are read as log 14 says (DEDUCED).
-/

namespace Sys2Proof.Machine

/-! ### Blocks of bytes -/

/-- Bytes put at offsets of an area of n bytes whose other bytes are 0. Parts come in rising order and do not overlap. -/
def layout : Nat → List (Nat × List Byte) → Nat → List Byte
  | at_, [], n => List.replicate (n - at_) 0
  | at_, (o, bs) :: ps, n => List.replicate (o - at_) 0 ++ bs ++ layout (o + bs.length) ps n

/-- Writes a block of bytes at a flat address. -/
def memBlock (m : List Host.Cell) (pa : Nat) (bs : List Byte) : List Host.Cell :=
  let new := ((rangeFrom pa (pa + bs.length)).zip bs).filter (fun e => e.2 != emptyByte)
  m.filter (fun e => e.1 < pa) ++ new ++ m.filter (fun e => pa + bs.length ≤ e.1)

/-- Writes a block for the device at a flat address; bytes of a line of which the other compute die holds a copy wait for the answer to the
snoop (R400). -/
def physBlock (s : State) (pa : Nat) (bs : List Byte) : State :=
  match copiesOf s ((rangeFrom (pa / 128) ((pa + bs.length + 127) / 128)).map (128 * ·)) with
  | [] => { s with mem := memBlock s.mem pa bs }
  | ls =>
    let held (e : Host.Cell) : Bool := ls.contains (e.1 / 128)
    let new := (rangeFrom pa (pa + bs.length)).zip bs
    let s' := ls.foldl snoop s
    { s' with mem := memBlock s.mem pa (new.map (fun e => if held e then memGet s.mem e.1 else e.2))
              io := { s'.io with parked := s'.io.parked ++ new.filter held } }

/-- Writes a block for the device at a virtual address of a context, 4 KiB at a time, with the A and D bits of its pages (R264, R265); none
where a page is missing. -/
def devBlock (s : State) (ctx : Nat) : Nat → Nat → List Byte → Option State
  | 0, _, bs => if bs.isEmpty then some s else none
  | n + 1, va, bs =>
    if bs.isEmpty then some s
    else match walkSet s ctx va with
      | (none, _) => none
      | (some l, s) =>
        if l.w && populated s (l.pa va) then
          devBlock (physBlock (setDirty s [l.at_]) (l.pa va) (bs.take 4096)) ctx n (va + 4096) (bs.drop 4096)
        else none

/-! ### Strand records -/

/-- Little-endian words. -/
def words (l : List Nat) : List Byte := l.flatMap (leBytes 4)

/-- A ply of the register file, lane columns in lane order. -/
def plyBytes (cell : Nat → Nat → Nat) (t : Strand) : List Byte :=
  (List.range 32).flatMap (fun l => words ((List.range 8).map (fun r => (t.rg.final (cell r l)).toNat)))

/-- A row of one word for each lane. -/
def laneRow (f : Nat → Nat) : List Byte := words ((List.range 32).map f)

/-- A group record, or zero for an empty slot. -/
def slotBytes (p : PcSlot) : List Byte := leBytes 16 (match slotGroup p with | some g => groupWord g | none => 0)

/-- The bypass entries of a slot. -/
def bypBytes (p : PcSlot) : List Byte :=
  (List.range 3).flatMap (fun i => laneRow (fun l => match p.byp[i]? with | some b => (b.vals.getD l 0).toNat | none => 0))

/-- Lanes whose ply in a ring slot has a mark. -/
def plyMask (t : Strand) (slot : Nat) (p : Nat → Nat → Bool) : Nat :=
  (maskOf ((List.range 32).filter (fun l => (rangeFrom (t.frame l).lo ((t.frame l).lo + t.rg.qf)).any (fun v =>
    v % t.rg.qf == slot && p v l)))).toNat

/-- A quantum buffer entry (Table 19-5). -/
def entryBytes (e : Option BufEntry) : List Byte :=
  match e with
  | none => List.replicate 48 0
  | some e => leBytes 8 e.chunk ++ leBytes 16 e.mask ++ leBytes 16 e.data ++ [1] ++ List.replicate 7 0

/-- A feed row with its tag (Table 19-5); the tag's bytes are format, geometry, slot and the first scales (DEDUCED, log 14). -/
def feedBytes (r : Option FeedRow) : List Byte :=
  match r with
  | none => List.replicate 144 0
  | some r =>
    r.words.flatMap (fun w => leBytes 4 w.toNat) ++
      (leBytes 1 r.tag.fmt ++ leBytes 1 r.tag.geo ++ leBytes 1 r.tag.slot ++ r.tag.scales.flatMap (leBytes 1) ++ List.replicate 16 0).take 16

/-- The codebook slots that a strand's splice operations have captured. -/
def strandCaps (s : State) (th : Nat) : List Nat := (s.fl.filter (fun f => f.th == th && !f.done)).flatMap (·.caps)

/-- The format words that a strand's splice operation in flight has captured (R253), of the operation that its progress record shows. -/
def capturedNf (s : State) (th : Nat) : List Byte :=
  match progressed s th with | some x => leBytes 4 x.fmtA ++ leBytes 4 x.fmtB | none => List.replicate 8 0

/-- A loop queue's word (Table 19-5). -/
def lqWord (q : Option LoopQ) : Nat := match q with | some q => q.depth + q.head * 2 ^ 8 + q.occ * 2 ^ 16 + 2 ^ 24 | none => 0

/-- A strand's record (Table 19-5). The format words that its splice operation has captured, for which the table has no place, stand after
the captured codebook slots (DESIGN CHOICE, log 14). -/
def strandBytes (s : State) (th : Nat) : List Byte :=
  let t := s.th th
  let a := t.access.getD { a := List.replicate 16 0, pc := 0 }
  let head := t.pl.idx + t.pl.slot * 2 ^ 8 + t.rg.q * 2 ^ 16 + t.rg.lqs.length % 2 ^ 8 * 2 ^ 28 + t.ps.fork.length % 2 ^ 12 * 2 ^ 36 +
    (if t.ps.forced then 2 ^ 48 else 0) + (if t.ct.stopped then 2 ^ 49 else 0) + (if t.ct.pending.isSome then 2 ^ 50 else 0)
  let fixed : List (Nat × List Byte) := [
    (0x0000, leBytes 8 head ++ (List.range 8).flatMap (fun n => leBytes 1 (t.fqs.getD n []).length)),
    (0x0040, match t.ct.fault with | some r => faultBytes r | none => List.replicate 32 0),
    (0x0060, match t.ct.pending with | some r => faultBytes r | none => List.replicate 32 0),
    (0x0080, progressOf s th),
    (0x00A0, t.ct.nf.flatMap (fun w => leBytes 4 w.toNat)),
    (0x00B0, words [scrOf t, t.ps.progress, t.qn.cstMask.toNat, t.qn.cstPc]),
    (0x00C0, (rangeFrom 1 8).flatMap (fun k => leBytes 4 (maskOf ((List.range 32).filter (fun l => t.rg.final (kCell k l) != 0))).toNat)),
    (0x00E0, slotBytes t.ps.s0 ++ slotBytes t.ps.s1),
    (0x0100, words ((List.range 64).map (fun n => (t.rg.final (sCell n)).toNat))),
    (0x0200, (List.range 32).flatMap (fun l => leBytes 8 (frameWord (t.frame l)))),
    (0x0300, a.a.flatMap (leBytes 8)),
    (0x0380, (words [accessPc a, a.cursor, if a.ended then 1 else 0] ++ (strandCaps s th).flatMap (leBytes 1)).take 56),
    (0x03B8, capturedNf s th)]
  let queues : List (Nat × List Byte) := [
    (0x03C0, words ((List.range 16).map (fun n => lqWord (kget? t.rg.lqs n)))),
    (0x0400, bypBytes t.ps.s0 ++ bypBytes t.ps.s1),
    (0x0800, (List.range 256).flatMap (fun k => if t.rg.qf ≤ k then List.replicate 8 0 else
      words [plyMask t k (fun v l => t.rg.clean.contains (v, l)), plyMask t k (fun v l => t.rg.stuck.any (fun x => !x.link && x.idx == v && x.lane == l))])),
    (0x1000, (List.range 16).flatMap (fun k => (List.range 32).flatMap (fun l =>
      match t.rg.links.find? (fun e => e.1 % 32 == l && e.1 / 32 % 16 == k) with
      | some e => linkBytes e.2
      | none => List.replicate 8 0))),
    (0x2000, (List.range 64).flatMap (fun n => laneRow (fun l => (t.rg.final (gCell n l)).toNat))),
    (0x4000, (List.range 32).flatMap (fun l => (List.range 16).flatMap (fun e => entryBytes ((t.qn.buf.filter (·.lane == l))[e]?)))),
    (0xA000, (List.range 8).flatMap (fun n => (List.range 16).flatMap (fun r => feedBytes ((t.fqs.getD n [])[r]?)))),
    (0xE800, match t.ct.latch with | some x => words [1, x.spec, x.shape] | none => []),
    (0xE840, match t.ct.latch with | some x => (x.rows.flatMap (fun r => r.flatMap (fun w => leBytes 4 w.toNat))).take 16384 | none => []),
    (0x13000, (List.range 16).flatMap (fun n => plyBytes (fun r l => lqCell n r l) t)),
    (0x17000, (List.range t.rg.q).flatMap (fun k => plyBytes (fun r l => ringCell k r l) t))]
  layout 0 (fixed ++ queues) (0x17000 + 1024 * t.rg.q)

/-! ### Workgroup records -/

/-- The allotment slot of a table's slot (R219, R220). -/
def allotSlot (g : Workgroup) (d : Table) (n : Nat) : Nat :=
  if d.scope = 0 then d.b + n
  else
    let z := g.tabQuads.length
    n / 8 % z * 16384 + d.b / z + 8 * (n / 8 / z) + n % 8

/-- The slots of tables of a workgroup that its record holds: those of its own tables, and for rank 0 those of its partner's at
pair scope (R361). -/
def savedSlots (s : State) (w : Nat) : List (Nat × TSlot) :=
  let g := s.wg w
  let of (g : Workgroup) (p : Table → Bool) := (g.tables.filter (fun e => p e.2)).flatMap (fun e => e.2.slots.map (fun x => (allotSlot g e.2 x.1, x.2)))
  sortBy (fun e : Nat × TSlot => e.1) (of g (fun d => d.scope != 2 || g.rank == 0) ++
    (match g.partner with | some p => if g.rank = 0 then of (s.wg p) (fun d => d.scope == 2) else [] | none => []))

/-- A table-image record (Table 19-6). -/
def slotRecord (e : Nat × TSlot) : List Byte :=
  leBytes 4 e.1 ++ [if e.2.seeded then 2 else 1] ++ List.replicate 3 0 ++ leBytes 8 e.2.key ++ leBytes 4 e.2.pos ++
  List.replicate 12 0 ++ leBytes 32 e.2.v

/-- Bytes of the parts of a record: header and images, and each strand's (R366). -/
def imageLen (s : State) (w : Nat) : Nat := roundUp (4096 + 32768 * (s.wg w).banks.length + 64 * (savedSlots s w).length) 4096

/-- Bytes of a strand's record (R366). -/
def strandLen (t : Strand) : Nat := 94208 + 1024 * t.rg.q

/-- Bytes of a workgroup's record (R366): a strand's begins on the 4 KiB boundary after the one before it (R365; DESIGN CHOICE, log 14). -/
def recordLen (s : State) (w : Nat) : Nat := (wgThreads s w).foldl (fun n k => roundUp n 4096 + strandLen (s.th k)) (imageLen s w)

/-- A workgroup record's header (Table 19-4). -/
def recordHead (s : State) (w : Nat) : List Byte :=
  let g := s.wg w
  let l := s.launch g.launch
  let ts := wgThreads s w
  let cluster := g.rank + (if l.clu then 2 else 0) + (if l.rst then 4 else 0) + (if ts.any (fun n => (s.th n).ps.forced) then 8 else 0)
  let quads := (g.quads.zipIdx.map (fun e => e.1 % 4 * 4 ^ e.2)).foldl (· + ·) 0
  layout 0 [
    (0x000, leBytes 4 1 ++ leBytes 2 g.strands ++ leBytes 2 g.lanes ++ words [g.code, g.trans, g.lin, cluster, g.itemNext, g.itemEnd]),
    (0x020, words g.bars),
    (0x040, words [g.banks.length, g.tabA, (savedSlots s w).length, g.core] ++ leBytes 8 quads),
    (0x100, (List.range 4).flatMap (fun n => match kget? g.tables n with | some d => tableBytes d | none => List.replicate 64 0))] 4096

/-- The bytes of a scratchpad bank. -/
def bankBytes (s : State) (core b : Nat) : List Byte :=
  let lo := scratchFlat core b
  layout lo ((s.mem.filter (fun e => lo ≤ e.1 && e.1 < lo + 32768)).map (fun e => (e.1, [e.2]))) (lo + 32768)

/-- A workgroup's whole record (R365). -/
def wgBytes (s : State) (w : Nat) : List Byte :=
  let g := s.wg w
  let head := recordHead s w ++ g.banks.flatMap (bankBytes s g.core) ++ (savedSlots s w).flatMap slotRecord
  let image := head ++ List.replicate (imageLen s w - head.length) 0
  ((wgThreads s w).foldl (fun (acc : List Byte × Nat) k =>
    (acc.1 ++ List.replicate (roundUp acc.2 4096 - acc.2) 0 ++ strandBytes s k, roundUp acc.2 4096 + strandLen (s.th k)))
    (image, imageLen s w)).1

/-! ### The area -/

/-- The save area of a core's die: its base and size (Table 19-1). -/
def saveArea (c : Context) (core : Nat) : Nat × Nat := if dieOf core = 0 then (c.save0, c.save0Len) else (c.save1, c.save1Len)

/-- The records that stand in an area: offset and length. -/
def savedRecords (s : State) (ctx die : Nat) : List (Nat × Nat) :=
  (s.wgs.filter (fun e => e.2.saved && e.2.ctx == ctx && dieOf e.2.core == die)).map (fun e => (e.2.saveAt, e.2.saveLen))

/-- Writes the header of the area of a die (Table 19-3). -/
def saveHeader (s : State) (ctx die : Nat) : State :=
  let c := s.ctx ctx
  let rs := savedRecords s ctx die
  let used := (rs.map (fun r => r.1 + r.2)).foldl Nat.max 64
  let a := if die = 0 then c.save0 else c.save1
  devWrite s ctx a (leBytes 4 0x5A534156 ++ leBytes 4 rs.length ++ leBytes 8 used ++ leBytes 4 (c.saves.getD die 0) ++
    leBytes 4 (if c.lost.getD die false then 1 else 0) ++ List.replicate 40 0)

/-- A place in an area for a record, on a 4 KiB boundary: any free one, by the device's choice (R365, log 6). -/
def recordPlace (s : State) (ctx core len : Nat) : Option Nat :=
  let a := saveArea (s.ctx ctx) core
  if a.2 < 4096 then none
  else freeRegion ((0, 4096) :: (savedRecords s ctx (dieOf core)).map (fun r => (r.1, roundUp r.2 4096))) len a.2 (Config.freeNat s.run.fresh % (a.2 / 4096) * 4096)

end Sys2Proof.Machine
end

