-- ==== Sys2Proof/Machine/Switch.lean ====
section
/-!
DEFINITION. Switching workgroups out and back (R360 to R364, R367) and eviction deadlines (R368 to R373).
Corners that these rules leave to be inferred are read as log 14 says (DEDUCED).
-/

namespace Sys2Proof.Machine

/-! ### Halting -/

/-- The workgroups that switch as one with a workgroup, rank 0 first (R361): it and its resident cluster partner. -/
def switchSet (s : State) (w : Nat) : List Nat :=
  let g := s.wg w
  match g.partner with
  | some p => if (kget? s.wgs p).elim true (·.saved) then [w] else if g.rank = 0 then [w, p] else [p, w]
  | none => [w]

/-- Requests a switch-out of workgroups, and halts the strands that stand so (R360). -/
def requestHalt (s : State) (w : Nat) : State :=
  (switchSet s w).foldl (fun s w =>
    let s := s.modWg w (fun g => { g with haltAt := some (g.haltAt.getD s.now) })
    (wgThreads s w).foldl haltCheck s) s

/-- A switch-out request, or its progress (R360). -/
def execWorkgroupHalt (w : Nat) (s : State) : Host.Outcome State Fault Refusal :=
  match kget? s.wgs w with
  | none => .next s
  | some g => if g.saved then .next s else .next (requestHalt s w)

/-- The halt timeout in control-core cycles (Table 19-1): 0 means 20 µs. -/
def haltTicks (c : Context) : Nat := (if c.haltUs = 0 then 20 else c.haltUs) * usTicks

/-- The halt timeout has passed (R360): strands not yet halted halt at their next clause boundary. -/
def execHaltTimeout (w : Nat) (s : State) : Host.Outcome State Fault Refusal :=
  let g := s.wg w
  match g.haltAt with
  | none => .next s
  | some t =>
    if s.now < t + haltTicks (s.ctx g.ctx) then .next s
    else .next ((wgThreads s w).foldl (fun s n =>
      haltCheck (s.modTh n (fun t => { t with ps := { t.ps with forced := t.ps.forced || !t.ps.halted } })) n) s)

/-- Whether every strand of a workgroup is halted and the operations that a save waits for are done (R310, R360): all but splice
operations, and table operations that wait behind one. -/
def drained (s : State) (w : Nat) : Bool :=
  let ns := wgThreads s w
  ns.all (fun n => (s.th n).ps.halted) &&
  s.fl.all (fun f => !ns.contains f.th || f.done || (match f.work with | .splice _ => true | .seed _ _ _ _ _ | .tabop _ _ _ _ _ => opWaits s f | _ => false))

/-! ### Saving -/

/-- Moves what names a thread to another number: operations in flight, fault-log records and barrier counts. -/
def renameThread (s : State) (o n : Nat) : State :=
  let mv (x : Nat) : Nat := if x = o then n else x
  let rc (r : LogRec) : LogRec := { r with threads := r.threads.map mv }
  { s with fl := s.fl.map (fun (f : Flight) => { f with th := mv f.th }),
           log := { s.log with recs := s.log.recs.map rc, waiting := s.log.waiting.map rc },
           wgs := s.wgs.map (fun (e : Nat × Workgroup) => (e.1, { e.2 with counted := e.2.counted.map (fun c => (c.1, mv c.2)) })) }

/-- A strand as its record keeps it: a frame operation that stalls has not executed (R112). -/
def savedStrand (t : Strand) : Strand :=
  let go (p : PcSlot) : PcSlot := { p with issued := 0, grp := p.grp.map (fun g => if g.hold = .reel then { g with st := .runnable, hold := .free } else g) }
  { t with ps := { t.ps with s0 := go t.ps.s0, s1 := go t.ps.s1 }, rg := { t.rg with need := [], got := [], failed := [], xfer := none } }

/-- Number under which a strand of a saved workgroup is named. -/
def savedNo (w idx : Nat) : Nat := savedBase + w * 32 + idx

/-- Takes a strand out of its slot: its stop is no longer pending, and no window shows it. -/
def parkStrand (s : State) (w n : Nat) : State :=
  let t := s.th n
  let s := freeIssue (endXfer s n) n
  let s := s.modCore t.pl.core (fun c => { c with pending := c.pending.filter (· != n) })
  let s := { s with ths := kdel (s.ths.map (fun (e : Nat × Strand) =>
    if e.2.ct.sel = some n then (e.1, { e.2 with ct := { e.2.ct with sel := none } }) else e)) n }
  renameThread s n (savedNo w t.pl.idx)

/-- Frees what a workgroup holds once its record is written (R363), the arrays that its operations have slaved too (R239); its banks are zero before any further use (R372). -/
def parkWg (s : State) (w at_ len : Nat) : State :=
  let g := s.wg w
  let ns := wgThreads s w
  let image := ns.map (fun n => savedStrand (s.th n))
  let bank (b : Nat) : List Host.Cell :=
    (s.mem.filter (fun e => scratchFlat g.core b ≤ e.1 && e.1 < scratchFlat g.core b + 32768)).map (fun e => (e.1 - scratchFlat g.core b, e.2))
  let banks := g.banks.map bank
  let ops := (s.fl.filter (fun f => ns.contains f.th && !f.done)).map (·.id)
  let s := ops.foldl freeArrays s
  let s := ns.foldl (fun s n => parkStrand s w n) s
  let s := noteChange (g.banks.foldl (fun s b => zeroRange s (scratchFlat g.core b) 32768) s) 2 g.ctx
  let clean (d : Table) : Table := { d with slots := d.slots.map (fun (e : Nat × TSlot) => (e.1, { e.2 with dirty := false })) }
  { s with dirty := s.dirty.filter (fun r => !rowOf g r) }.modWg w (fun g => { g with
    saved := true, haltAt := none, threads := [], image := image, bankImage := banks, saveAt := at_, saveLen := len,
    tables := g.tables.map (fun (e : Nat × Table) => (e.1, clean e.2)) })

/-- Counts the bytes of a save for the checkpoints that it belongs to (Table 19-8). -/
def countSave (s : State) (w len : Nat) : State :=
  { s with dls := s.dls.map (fun (e : Nat × Deadline) =>
      if affectedBy s e.2 w then (e.1, { e.2 with choices := e.2.choices.map (fun (c : Nat × DlChoice) =>
        if c.2.choice = 2 ∧ wgQueue s w = some c.1 then (c.1, { c.2 with bytes := c.2.bytes + len }) else c) }) else e) }

/-- A save that fails (R367): its record, where it has a place in the area, is marked lost, the area's lost flag is set, and the context
ends with a record of source 3. -/
def saveFault (s : State) (ctx core : Nat) (place : Option Nat) (c : FClass) (addr : Nat) : State :=
  let die := dieOf core
  let s := s.modCtx ctx (fun x => { x with lost := x.lost.set die true })
  let s := saveHeader s ctx die
  let s := match place with
    | some p => devWrite s ctx ((saveArea (s.ctx ctx) core).1 + p) (leBytes 4 2)
    | none => s
  errorContext s ctx (clsCode c) addr

/-- The place of the record that a save of a workgroup writes. -/
def savePlace (s : State) (w : Nat) : Option Nat := recordPlace s (s.wg w).ctx (s.wg w).core (recordLen s w)

/-- Saves one workgroup (R363, R365) under a lock of its record's range (R299), or fails for lack of space. -/
def saveOne (s : State) (w : Nat) : State :=
  let g := s.wg w
  let die := dieOf g.core
  let len := recordLen s w
  let place := savePlace s w
  let s := { s with run := { s.run with fresh := s.run.fresh + 1 } }
  let lo (at_ : Nat) : Nat := (saveArea (s.ctx g.ctx) g.core).1 + at_
  match place.bind (fun at_ => (devBlock s g.ctx (len / 4096 + 1) (lo at_) (wgBytes s w)).map (fun s' => (at_, s'))) with
  | none => saveFault s g.ctx g.core place .prot 0
  | some (at_, s') =>
    let s := (lockPass s' g.core g.ctx [{ space := 0, lo := lo at_, len := len, write := true }]).getD s'
    let s := parkWg (countSave s w len) w at_ len
    let s := s.modCtx g.ctx (fun c => { c with saves := c.saves.set die ((c.saves.getD die 0 + 1) % 2 ^ 32) })
    saveHeader s g.ctx die

/-- Whether a save of some workgroups may be written: they are halted and drained, and their cores can register its range locks (R299,
R360). -/
def maySave (s : State) (ws : List Nat) : Bool := ws.all (fun w => drained s w && lockRoom s (s.wg w).core)

/-- Saves a workgroup with its cluster partner; a fault of one ends the context and with it the save. -/
def saveSet (s : State) (ws : List Nat) : State :=
  ws.foldl (fun s w => if (s.ctx (s.wg w).ctx).ended then s else saveOne s w) s

/-- The record of a workgroup that is halted and drained is written, and its resources are free (R363). -/
def execWorkgroupSave (w : Nat) (s : State) : Host.Outcome State Fault Refusal :=
  match kget? s.wgs w with
  | none => .next s
  | some g =>
    let ws := switchSet s w
    if g.saved || g.haltAt.isNone || !(s.ctx g.ctx).saveArea || (s.ctx g.ctx).ended || !maySave s ws then .next s
    else .next (saveSet s ws)

/-! ### Restoring -/

/-- A flat address of a scratchpad bank under another list of banks. -/
def remapFlat (core : Nat) (old new : List Nat) (a : Nat) : Nat :=
  let base := scratchFlat core 0
  if a < base ∨ base + 2 ^ 20 ≤ a then a
  else match findIdxD (· == (a - base) / 32768) old 0 with
    | some (i, _) => base + new.getD i 0 * 32768 + (a - base) % 32768
    | none => a

/-- A buffered store under moved banks. -/
def remapEntry (f : Nat → Nat) (e : BufEntry) : BufEntry := { e with half0 := f e.half0, half1 := f e.half1 }

/-- A strand under moved banks. -/
def remapStrand (f : Nat → Nat) (t : Strand) : Strand :=
  { t with qn := { t.qn with buf := t.qn.buf.map (remapEntry f), log := t.qn.log.map (remapEntry f),
                             closed := t.qn.closed.map (fun e => (e.1, remapEntry f e.2)) } }

/-- An operation in flight under moved banks. -/
def remapWork (f : Nat → Nat) (w : Work) : Work :=
  match w with
  | .splice x => .splice { x with aPas := x.aPas.map f, bPas := x.bPas.map f }
  | .seed w t pas c d => .seed w t (pas.map f) c d
  | w => w

/-- The quadrants of a workgroup's saved strands, with the ring plies of each (R364). -/
def savedNeeds (g : Workgroup) : List (Nat × Nat) := g.image.map (fun t => (g.core * 4 + t.pl.quad, t.rg.q))

/-- What a core allots to a saved workgroup: each strand in its own quadrant and half (R364, R77), banks and tables. -/
def restoreAllot (s : State) (g : Workgroup) : Option (List Nat × List Nat × Nat) :=
  let usable := usableQuads s g.ctx g.core false
  let fits (q : Nat) : Bool :=
    let own := (savedNeeds g).filter (·.1 == q)
    usable.contains q && (own.map (·.2)).foldl (· + ·) 0 ≤ (freePlies s g.ctx g.core (q % 4) g.half).length &&
    own.length ≤ (freeSlots s g.half q false).length
  if !((savedNeeds g).map (·.1)).all fits then none
  else match freeBanks s g.ctx g.core g.banks.length false, tabAllot s g.ctx g.core g.tabA false with
    | some bs, some t => some (bs, t.1, t.2)
    | _, _ => none

/-- Puts a strand back into a free slot of its quadrant with free plies (R364); a stop is pending again, unless acknowledged. -/
def returnStrand (f : Nat → Nat) (w : Nat) (s : State) (t : Strand) : State :=
  let q := t.pl.core * 4 + t.pl.quad
  let free := freeSlots s t.pl.half q false
  let (n, s) := s.freeNat
  let slot := free.getD (n % free.length) 0
  let no := halfStrandNo t.pl.half t.pl.core t.pl.quad slot
  let t := remapStrand f { t with
    pl := { t.pl with slot := slot }
    ps := { t.ps with halted := false, forced := false }
    rg := { t.rg with plymap := (freePlies s t.pl.ctx t.pl.core t.pl.quad t.pl.half).take t.rg.q } }
  let s := { s with ths := kset s.ths no t, fl := s.fl.map (fun (x : Flight) =>
    if x.th = savedNo w t.pl.idx then { x with work := remapWork f x.work } else x) }
  let s := renameThread s (savedNo w t.pl.idx) no
  let s := s.modWg w (fun g => { g with threads := g.threads ++ [no] })
  if t.ct.stopped && !t.ct.acked then s.modCore t.pl.core (fun c => { c with pending := c.pending ++ [no] }) else s

/-- A restored strand takes the fault-log reply that came while it was saved (R349, R351). -/
def takeReply (s : State) (n : Nat) : State :=
  match (s.th n).ct.due with
  | none => s
  | some kill =>
    let s := s.modTh n (fun t => { t with ct := { t.ct with due := none } })
    if kill then killThread s n else resumeThread s n

/-- Puts a workgroup back under an allotment (R364); its record is free. -/
def returnWg (f : Nat → Nat) (s : State) (w : Nat) (a : List Nat × List Nat × Nat) : State :=
  let g := s.wg w
  let s := s.modWg w (fun g => { g with saved := false, image := [], bankImage := [], banks := a.1, tabQuads := a.2.1, tabOff := a.2.2,
                                         closed := g.closed.map (fun e => (e.1, e.2.1, remapEntry f e.2.2)) })
  let s := noteChange s 2 g.ctx
  let s := (a.1.zip g.bankImage).foldl (fun s e =>
    { zeroRange s (scratchFlat g.core e.1) 32768 with
      mem := memSets (zeroRange s (scratchFlat g.core e.1) 32768).mem (e.2.map (fun c => (scratchFlat g.core e.1 + c.1, c.2))) }) s
  let s := g.image.foldl (returnStrand f w) s
  let s := devWrite s g.ctx ((saveArea (s.ctx g.ctx) g.core).1 + g.saveAt) (leBytes 4 0)
  let s := saveHeader s g.ctx (dieOf g.core)
  let s := (wgThreads s w).foldl takeReply s
  (wgThreads s w).foldl refresh (barEvalAll s w)

/-- The cluster partner of a workgroup, where it is saved too (R361). -/
def savedPartner (s : State) (g : Workgroup) : Option Nat := g.partner.filter (fun p => (kget? s.wgs p).elim false (·.saved))

/-- A saved workgroup returns with its cluster partner, where R77 can allot their needs (R364). -/
def execWorkgroupRestore (w : Nat) (s : State) : Host.Outcome State Fault Refusal :=
  match kget? s.wgs w with
  | none => .next s
  | some g =>
    if !g.saved || (s.ctx g.ctx).ended then .next s
    else
      match restoreAllot s g, savedPartner s g with
      | none, _ => .next s
      | some a, none => .next (returnWg (remapFlat g.core g.banks a.1) s w a)
      | some a, some p =>
        let h := s.wg p
        match restoreAllot s h with
        | none => .next s
        | some b =>
          let f (x : Nat) : Nat := remapFlat h.core h.banks b.1 (remapFlat g.core g.banks a.1 x)
          .next (returnWg f (returnWg f s w a) p b)

/-! ### Shadow swaps -/

/-- The shadow-ready context that owns a half of a quadrant (R359). -/
def halfOwner (s : State) (q h : Nat) : Option Nat := (s.ctxs.find? (fun e => e.2.mode == h + 1 && e.2.quads.contains q)).map (·.1)

/-- The strands of a half of a quadrant. -/
def halfStrands (s : State) (q h : Nat) : List Nat :=
  (s.ths.filter (fun e => e.2.pl.kind == .strand && e.2.pl.core * 4 + e.2.pl.quad == q && e.2.pl.half == h &&
    (s.ctx e.2.pl.ctx).mode == h + 1)).map (·.1)

/-- The other half of a quadrant becomes active (R362): its strands in place go on. -/
def swapHalves (s : State) (q : Nat) : State :=
  let old := (s.quad q).active
  let s := s.modQuad q (fun a => { a with active := 1 - old, swapTill := none, spilling := some old })
  let ns := halfStrands s q (1 - old)
  let ws := (ns.map (fun n => (s.th n).pl.wg)).eraseDups
  let s := ns.foldl (fun s n => s.modTh n (fun t => { t with ps := { t.ps with halted := false, forced := false } })) s
  ws.foldl (fun s w => s.modWg w (fun g => { g with haltAt := none })) s

/-- Whether a saved workgroup of a half of a quadrant can be restored, which it is before the half becomes active (R362, R364). -/
def halfAway (s : State) (q h : Nat) : Bool :=
  s.wgs.any (fun e => e.2.saved && e.2.half == h && (s.ctx e.2.ctx).mode == h + 1 && !(s.ctx e.2.ctx).ended &&
    e.2.image.any (fun t => t.pl.core * 4 + t.pl.quad == q) && (restoreAllot s e.2).isSome &&
    (match savedPartner s e.2 with | some p => (restoreAllot s (s.wg p)).isSome | none => true))

/-- A shadow swap (R362): with every strand of the active half halted and no spill under way, the quadrant issues nothing for 128
cycles, then the other half becomes active, with what was copied out of it back in place. -/
def execShadowSwap (q : Nat) (s : State) : Host.Outcome State Fault Refusal :=
  let a := s.quad q
  if halfAway s q (1 - a.active) then .next s else
  match a.swapTill with
  | some t => if s.now < t then .next s else .next (swapHalves s q)
  | none =>
    if (halfOwner s q 0).isNone || (halfOwner s q 1).isNone || a.spilling.isSome || a.holder.isSome ||
      !(halfStrands s q a.active).all (fun n => (s.th n).ps.halted) then .next s
    else .next (s.modQuad q (fun a => { a with swapTill := some (s.now + 256) }))

/-- The background copy of the old half ends (R362): its workgroups that lie wholly in inactive halves are saved, where the context
has a save area; without one they stay in place. -/
def execShadowSpillEnd (q : Nat) (s : State) : Host.Outcome State Fault Refusal :=
  match (s.quad q).spilling with
  | none => .next s
  | some h =>
    let ws := ((halfStrands s q h).map (fun n => (s.th n).pl.wg)).eraseDups
    let away (w : Nat) : Bool := (switchSet s w).all (fun w => (s.wg w).quads.all (fun p => (s.quad p).active != h))
    let go := ws.filter (fun w => away w && (s.ctx (s.wg w).ctx).saveArea)
    if go.any (fun w => !maySave s (switchSet s w)) then .next s
    else
      let s := go.foldl (fun s w => if (s.wg w).saved then s else saveSet s (switchSet s w)) s
      .next (s.modQuad q (fun a => { a with spilling := none }))

/-! ### Uncorrectable errors -/

/-- The workgroup of a context whose record is being written while an error strikes what the save reads or writes (R367). -/
def struckSave (s : State) (loc : ErrLoc) (ctx : Nat) : Option Nat :=
  let area (g : Workgroup) (pa : Nat) : Bool :=
    let a := saveArea (s.ctx ctx) g.core
    (rangeFrom (a.1 / 65536) ((a.1 + a.2 + 65535) / 65536)).any (fun n => (walk s ctx (n * 65536)).elim false (fun l =>
      pa / 65536 == l.pa (n * 65536) / 65536))
  let hit (w : Nat) (g : Workgroup) : Bool := match loc with
    | .dram pa => area g pa
    | .strand th => (wgThreads s w).contains th
    | .table q _ => g.tabQuads.contains q
    | .scratch core b => g.core == core && g.banks.contains b
    | _ => false
  (s.wgs.find? (fun e => e.2.ctx == ctx && !e.2.saved && e.2.haltAt.isSome && (s.ctx ctx).saveArea &&
    (switchSet s e.1).all (drained s) && hit e.1 e.2)).map (·.1)

/-- An uncorrectable error (R352): the owner's readers stop, the context ends and is escalated, as a failed save where the error strikes one
(R367); a DRAM page is retired from use. -/
def execUncorrectableError (loc : ErrLoc) (s : State) : Host.Outcome State Fault Refusal :=
  let s := noteChange { s with up := { s.up with uncorr := countError s.up.uncorr (errArray s loc) } } 6 (2 * (errArray s loc).1)
  match errOwner s loc with
  | none => .next (errClear s loc)
  | some c =>
    let w := struckSave s loc c
    let place := w.bind (savePlace s)
    let s := errReader s loc c
    let s := match w with
      | some w => saveFault s c (s.wg w).core place .ecc (errAddr loc)
      | none => errorContext s c (clsCode .ecc) (errAddr loc)
    .next (match loc with
      | .dram pa => { s with up := { s.up with retired := (pa / 65536) :: s.up.retired.filter (· != pa / 65536) } }
      | _ => s)

/-! ### Discarding a launch -/

/-- Abandons a copy at a multiple of 4 KiB of its destination (R371): the bytes written stay, how many is the device's free choice
(DESIGN CHOICE, log 6); an abandoned `dcpy` zero-fills its destination. -/
def abandonCopy (s : State) (f : Flight) : State :=
  match f.work with
  | .copy minor _ dst _ _ _ _ _ _ _ _ _ _ _ _ dirty =>
    let (k, s) := s.freeNat
    let ws := if minor = 2 then dst.map (fun a => (a, emptyByte))
      else ((copyWrites s f).take (k % (dst.length / 4096 + 1) * 4096)).filter (fun e => dst.contains e.1)
    let s := setDirty s dirty
    let pas := ws.map (·.1)
    endNarrow (dropLines (wroteRows { s with mem := memSets s.mem ws } pas) f.core pas) pas
  | _ => s

/-- Whether an operation in flight is one of an engine, which a discard abandons (R371). -/
def engineOp (f : Flight) : Bool :=
  match f.work with
  | .copy _ _ _ _ _ _ _ _ _ _ _ _ _ _ _ _ | .cmRange _ _ _ _ _ _ | .fetch _ _ _ _ _ _ | .seed _ _ _ _ _ | .splice _ | .drain _ _ _ _
  | .feed _ _ _ _ _ => true
  | _ => false

/-- Abandons the engine operations of a launch's strands (R371): their locks and the arrays that they have slaved are released. -/
def abandonOps (s : State) (ln : Nat) : State :=
  (s.fl.filter (fun f => f.launch == ln && !f.done && engineOp f)).foldl (fun s f => finishFlight (dropLock (freeArrays (abandonCopy s f) f.id) f.id) f.id) s

/-- Discards a launch (R371): what is not placed is dropped, every resident workgroup's strands are killed with their quanta, saved
ones are dropped, and the discard is added once all are gone. -/
def discardLaunch (s : State) (ln : Nat) : State :=
  if (s.launch ln).outcome.isSome || (kget? s.launches ln).isNone then s
  else
    let s := s.modLaunch ln (fun l => { l with outcome := some 1 })
    let s := s.modCtx (s.launch ln).ctx (fun c => { c with order := c.order.filter (· != ln) })
    let s := ((s.wgs.filter (fun e => e.2.launch == ln && e.2.saved)).map (·.1)).foldl dropSaved s
    let s := dropClosed s (· == ln)
    let s := ((s.ths.filter (fun e => e.2.pl.kind == .strand && e.2.pl.launch == ln)).map (·.1)).foldl killThread s
    abandonOps s ln

/-! ### Deadlines -/

/-- Whether a posted deadline has an earlier T than another, or the same one and was posted before (R373). -/
def comesFirst (e : Nat × Deadline) (n : Nat) (d : Deadline) : Bool := e.1 != n && (e.2.till < d.till || (e.2.till == d.till && e.1 < n))

/-- The workgroups that take a deadline's choices: those that no deadline with an earlier T affects (R373). -/
def decidedWgs (s : State) (n : Nat) (d : Deadline) : List Nat :=
  (affectedWgs s d).filter (fun w => !s.dls.any (fun e => comesFirst e n d && affectedBy s e.2 w))

/-- The choice of a queue under the deadline of earliest T before another one (R373). -/
def earlierChoice (s : State) (n : Nat) (d : Deadline) (q : Nat) : Option DlChoice :=
  ((sortBy (fun e : Nat × Deadline => e.2.till) (s.dls.filter (fun e => comesFirst e n d && (kget? e.2.choices q).isSome))).head?).bind
    (fun e => kget? e.2.choices q)

/-- The workgroups of a queue among some. -/
def ofQueue (s : State) (ws : List Nat) (q : Nat) : List Nat := ws.filter (fun w => wgQueue s w == some q)

/-- E_run of some workgroups in control-core cycles, or none where it is infinite (R369). -/
def eRun (s : State) : List Nat → Option Nat
  | [] => some 0
  | w :: ws =>
    let g := s.wg w
    let l := s.launch g.launch
    if l.doneWgs = 0 then none
    else (eRun s ws).map (fun r => Nat.max r (l.runSum / l.doneWgs - (s.now - g.placedAt)))

/-- The bytes that a splice operation has still to read: of its groups' or its list's and operand's B, or of its streams. -/
def Splice.left (x : Splice) : Nat :=
  if x.minor = 4 then x.bPas.length / x.sizes.length * (x.sizes.length - x.unitsDone)
  else if x.minor = 2 then x.bPas.length * (1 - x.unitsDone)
  else if x.pair then 4 * (x.count - 128 * x.unitsDone) + (if x.unitsDone = 0 then x.bPas.length else 0)
  else if x.recMode then 48 * (x.na - x.p)
  else 8 * (x.na - x.p) + 8 * (x.nb - x.q)

/-- The bytes that an engine operation has still to read or to write. -/
def workLeft (w : Work) : Nat :=
  match w with
  | .copy _ _ dst _ _ _ _ _ _ _ _ _ _ _ _ _ => dst.length
  | .fetch _ _ es _ _ _ => 4 * es.length
  | .drain _ _ ws _ => ws.length
  | .seed _ _ _ count n => 16 * (count - n)
  | .splice x => x.left
  | .cmRange minor ty _ ys xs got =>
    if minor = 5 then cmSize 5 ty false * (xs.length - got.length) else cmSize minor ty true * (ys.length - got.length)
  | .feed _ pas _ _ _ => pas.length
  | _ => 0

/-- The bytes that the engine operations of a workgroup's strands have left (R369; DEDUCED, log 14). -/
def leftBytes (s : State) (w : Nat) : Nat :=
  ((s.fl.filter (fun f => !f.done && (wgThreads s w).contains f.th)).map (fun f => workLeft f.work)).foldl (· + ·) 0

/-- Tracked dirty bytes of some workgroups on a die (R369): strand records in full, with their ring plies, bank rows and table slots written
since the last save, and the bytes left of engine operations. -/
def dirtyBytes (s : State) (die : Nat) (ws : List Nat) : Nat :=
  (ws.filter (fun w => dieOf (s.wg w).core == die)).foldl (fun n w =>
    let g := s.wg w
    let rec_ := ((wgThreads s w).map (fun k => 94208 + 1024 * (s.th k).rg.q)).foldl (· + ·) 0
    n + rec_ + 8 * (s.dirty.filter (rowOf g)).length + 64 * ((savedSlots s w).filter (·.2.dirty)).length + leftBytes s w) 0

/-- Control-core cycles that the save bandwidth of a die, 4 TB/s, takes for some bytes (R369). -/
def saveTicks (bytes : Nat) : Nat := bytes * 6 / 10000

/-- E_ckpt of a queue in control-core cycles, given its dirty bytes on each die and those already admitted (R369). -/
def eCkpt (h : Nat) (dq dd : List Nat) : Nat :=
  h + ((dq.zip dd).filter (fun e => e.1 != 0)).foldl (fun m e => Nat.max m (saveTicks (e.1 + e.2))) 0

/-- Dirty bytes admitted to checkpoint on each die. -/
def admitted (d : Deadline) : List Nat :=
  (List.range Config.dies).map (fun i => ((d.choices.filter (fun c => c.2.choice == 2)).map (fun c => c.2.dirty.getD i 0)).foldl (· + ·) 0)

/-- Changes a posted deadline. -/
def modDl (s : State) (n : Nat) (f : Deadline → Deadline) : State := setDls s (kmodify s.dls n f)

/-- Carries a choice out (R371): 2 switches the workgroups out, 3 discards their launches, 4 ends the context. -/
def carryOut (s : State) (ch ctx : Nat) (ws : List Nat) : State :=
  match ch with
  | 2 => ws.foldl requestHalt s
  | 3 => ((ws.map (fun w => (s.wg w).launch)).eraseDups).foldl discardLaunch s
  | 4 => errorContext s ctx 0 0
  | _ => s

/-- Decides for one affected queue (R370), over all of its affected workgroups. Those that fall under a deadline with an earlier T take that
one's choices; a queue of which no other is affected has them in this one's reply too (R373; DEDUCED, log 14). -/
def decideQueue (n : Nat) (s : State) (q : Nat) : State :=
  match kget? s.dls n with
  | none => s
  | some d =>
    let ws := ofQueue s (affectedWgs s d) q
    let mine := ofQueue s (decidedWgs s n d) q
    match ws, mine with
    | [], _ => s
    | _, [] => (match earlierChoice s n d q with
      | some c => modDl s n (fun d => { d with choices := kset d.choices q { c with dirty := [] } })
      | none => s)
    | w :: _, _ =>
      let ctx := (s.wg w).ctx
      let c := s.ctx ctx
      let old := kgetD d.choices q { ctx := ctx }
      if 2 ≤ old.choice then s
      else
        let fits (t : Nat) : Bool := s.now + 40 * usTicks + t ≤ d.till
        let dq := (List.range Config.dies).map (fun i => dirtyBytes s i ws)
        let ck := eCkpt (haltTicks c) dq (admitted d)
        let put (s : State) (ch est : Nat) (dirty : List Nat) : State :=
          modDl s n (fun d => { d with choices := kset d.choices q { old with choice := ch, est := est / usTicks, ctx := ctx, dirty := dirty } })
        match (eRun s ws).filter (fun e => fits e && (!c.saveArea || fits (ck + 10 * usTicks))) with
        | some e => put s 1 e []
        | none =>
          if c.saveArea && fits ck then carryOut (put s 2 ck dq) 2 ctx mine
          else if ws.all (fun w => (s.launch (s.wg w).launch).rst) then carryOut (put s 3 0 []) 3 ctx mine
          else carryOut (put s 4 0 []) 4 ctx mine

/-- A decision of a deadline (R370): at its acceptance and then every 10 µs, for each affected queue in ascending number. Every
affected queue has an entry of the reply from the first decision on, so that one whose context ends with an earlier queue's is ended
in it too. -/
def execDeadlineDecision (n : Nat) (s : State) : Host.Outcome State Fault Refusal :=
  match kget? s.dls n with
  | none => .next s
  | some d =>
    if match d.lastAt with | none => false | some t => decide (s.now < t + 10 * usTicks) then .next s
    else
      let qs := (List.range Config.queueThreads).filter (fun q => !(ofQueue s (affectedWgs s d) q).isEmpty)
      let open_ (m : KMap DlChoice) (q : Nat) : KMap DlChoice :=
        if (kget? m q).isSome then m else kset m q { ctx := (s.wg ((ofQueue s (affectedWgs s d) q).headD 0)).ctx }
      .next (qs.foldl (decideQueue n) (modDl s n (fun d => { d with lastAt := some s.now, choices := qs.foldl open_ d.choices })))

/-- The last resort for one workgroup still resident 40 µs before a deadline (R370): a restartable launch is discarded, unless its
record is being written for a checkpoint (R367); any other context ends. -/
def cutOne (n : Nat) (s : State) (w : Nat) : State :=
  match kget? s.dls n with
  | none => s
  | some d =>
    if !affectedBy s d w || (s.launch (s.wg w).launch).outcome.isSome then s
    else
      let g := s.wg w
      let chosen := (wgQueue s w).elim false (fun q => s.dls.any (fun e => affectedBy s e.2 w && (kgetD e.2.choices q {}).choice == 2))
      let writing := chosen && (s.ctx g.ctx).saveArea && g.haltAt.isSome && (wgThreads s w).all (fun k => (s.th k).ps.halted)
      let mark (ch : Nat) (s : State) : State := match wgQueue s w with
        | none => s
        | some q => modDl s n (fun d => { d with choices := kset d.choices q { kgetD d.choices q { ctx := g.ctx } with choice := ch, ctx := g.ctx } })
      if (s.launch g.launch).rst && !writing then discardLaunch (mark 3 s) g.launch
      else if (s.ctx g.ctx).ended then s
      else if writing then saveFault (mark 2 s) g.ctx g.core (savePlace s w) .prot 0
      else errorContext (mark 4 s) g.ctx 0 0

/-- The cut-off of a deadline (R370). -/
def execDeadlineCutoff (n : Nat) (s : State) : Host.Outcome State Fault Refusal :=
  match kget? s.dls n with
  | none => .next s
  | some d => if s.now + 40 * usTicks < d.till then .next s else .next ((affectedWgs s d).foldl (cutOne n) s)

/-- The event bit DEADLINE (Table 20-6). -/
def evDeadline : Nat := 2 ^ 18

/-- The bytes of a deadline's reply (Table 19-8): entries in ascending queue number. -/
def replyBytes (d : Deadline) (now : Nat) : List Byte :=
  [0, BitVec.ofNat 8 d.choices.length, 0, 0] ++ leBytes 4 ((now - d.t0) / usTicks) ++ List.replicate 8 0 ++
  d.choices.flatMap (fun c => [BitVec.ofNat 8 c.1, BitVec.ofNat 8 c.2.ctx, BitVec.ofNat 8 c.2.choice, 0] ++ leBytes 4 c.2.est ++ leBytes 8 c.2.bytes)

/-- Writes bytes at an address of a channel (R394): a physical address for a master, a global one of the bound context for a virtual
function, whose channels are numbered from 4 on. -/
def chanWrite (s : State) (chan a : Nat) (bs : List Byte) : State :=
  if chan < 4 then physWrite s a bs
  else match (kgetD s.io.funcs (chan - 4) {}).ctx with
    | some c => devWrite s c a bs
    | none => s

/-- The flat addresses that such a write reaches. -/
def chanPas (s : State) (chan a n : Nat) : List Nat :=
  if chan < 4 then rangeFrom a (a + n)
  else match (kgetD s.io.funcs (chan - 4) {}).ctx with
    | some c => (rangeFrom a (a + n)).filterMap (fun va => (walk s c va).map (fun l => l.pa va))
    | none => []

/-- The reply of a deadline (R373): once every affected workgroup has left and the completion words of its queues' launches that
ended are written. Its contexts' queues receive DEADLINE (R383). -/
def execDeadlineReply (n : Nat) (s : State) : Host.Outcome State Fault Refusal :=
  match kget? s.dls n with
  | none => .next s
  | some d =>
    let due := s.launches.any (fun e => (e.2.queue.elim false (fun q => d.choices.any (·.1 == q))) &&
      ((launchOutcome s e.1).isSome || e.2.outcome.isSome))
    if d.lastAt.isNone || !(affectedWgs s d).isEmpty || due then .next s
    else
      let bs := replyBytes d s.now
      let cs := (d.choices.map (·.2.ctx) ++ (if d.kind = 1 then d.ctxs else [])).eraseDups
      .next (atHome s (chanPas s d.chan d.reply bs.length)
        (let s := noteChange (watchTest (chanWrite s d.chan d.reply bs)) 4 d.place
         { cs.foldl (fun s c => contextEvents s c evDeadline) s with dls := kdel s.dls n }))

end Sys2Proof.Machine
end

