-- ==== Sys2Proof/Machine/Mbox.lean ====
section
/-!
DEFINITION. The management mailbox (R391 to R394): channels, slots, submission, the order of service and replies, and reading and
writing at addresses of a channel.
Layouts and numbers that the tables do not give are those of log 13 (DESIGN CHOICE).
-/

namespace Sys2Proof.Machine

/-! ### Slots -/

/-- Control-core cycles in a second (R5). -/
def secTicks : Nat := 2400000000

/-- A byte of a channel's slots. -/
def mboxByte (s : State) (chan off : Nat) : Byte := kgetD s.mg.mbox (chan * 65536 + off) 0

/-- Bytes of a channel's slots. -/
def mboxRead (s : State) (chan off n : Nat) : List Byte := (rangeFrom off (off + n)).map (mboxByte s chan)

/-- Whether an offset of a channel lies in a reserved field of a slot's request header (Table 21-1). -/
def hdrReserved (off : Nat) : Bool :=
  let o := off % 4096
  o == 1 || (8 ≤ o && o < 24) || (28 ≤ o && o < 32)

/-- Puts bytes into a channel's slots, each at its offset; what is written to a reserved field of a header is ignored, and the field reads as
zero (R6). -/
def mboxCells (s : State) (chan : Nat) (cs : List (Nat × Byte)) : State :=
  { s with mg := { s.mg with mbox := cs.foldl (fun m e =>
      kset m (chan * 65536 + e.1) (if hdrReserved e.1 then 0 else e.2)) s.mg.mbox } }

/-- Bytes of a run with their offsets. -/
def cellsFrom (off : Nat) (bs : List Byte) : List (Nat × Byte) := (rangeFrom off (off + bs.length)).zip bs

/-- Puts a run of bytes into a channel's slots. -/
def mboxPut (s : State) (chan off : Nat) (bs : List Byte) : State := mboxCells s chan (cellsFrom off bs)

/-- Whether a slot's request is in service (R393). -/
def inService (s : State) (chan slot : Nat) : Bool := s.mg.reqs.any (fun r => r.chan == chan && r.slot == slot)

/-- The owner, unless its lease has run out (R395). -/
def ownerNow (s : State) : Option Nat := if s.now < s.mg.leaseEnd then s.mg.owner else none

/-- Takes over the header and payload of a slot whose sequence word has been written (R392, R393). A request of the owner restarts
its lease (R395). The time of its arrival, and whether an owner held a lease then, are kept for a claim (R395, R396). -/
def submit (s : State) (chan slot : Nat) (ide : Bool) : State :=
  let h := mboxRead s chan (slot * 4096) 32
  let f (o n : Nat) : Nat := leNat ((h.drop o).take n)
  let own := decide (ownerNow s = some chan)
  let r : Request := {
    chan := chan, slot := slot, op := f 0 1, payload := mboxRead s chan (slot * 4096 + 32) (Nat.min (f 2 2) 2016), tag := f 4 4,
    seqNo := f 24 4, owner := own, ide := ide,
    good := f 2 2 ≤ 2016, at_ := s.now, held := (ownerNow s).isSome }
  let s := if own then noteChange s 1 0 else s
  { s with mg := { s.mg with reqs := s.mg.reqs ++ [r], leaseEnd := if own then s.now + secTicks else s.mg.leaseEnd } }

/-- Whether a write into a channel changes a byte: not one of the request part of a slot in service (R393). -/
def mboxOpen (s : State) (chan o : Nat) : Bool := !(inService s chan (o / 4096) && decide (o % 4096 < 2048))

/-- The slots that a write submits (R392): those not in service whose sequence word it writes whole with a new value, ascending. -/
def submits (s : State) (chan off : Nat) (bs : List Byte) : List Nat :=
  (rangeFrom (off / 4096) ((off + bs.length + 4095) / 4096)).filter (fun slot =>
    let seqAt := slot * 4096 + 24
    !inService s chan slot && decide (off ≤ seqAt ∧ seqAt + 4 ≤ off + bs.length) &&
      (bs.drop (seqAt - off)).take 4 != mboxRead s chan seqAt 4)

/-- A master's write into its channel (R392, R393). -/
def mboxWrite (s : State) (chan off : Nat) (bs : List Byte) (ide : Bool) : State :=
  if 65536 < off + bs.length then s
  else (submits s chan off bs).foldl (fun s slot => submit s chan slot ide)
    (mboxCells s chan ((cellsFrom off bs).filter (fun e => mboxOpen s chan e.1)))

/-- Replies to a request (R392): status, tag, sequence word and body; it is no longer in service. -/
def reply (s : State) (r : Request) (status : Nat) (body : List Byte) : State :=
  let s := mboxPut s r.chan (r.slot * 4096 + 2048)
    (leBytes 4 status ++ leBytes 4 r.tag ++ leBytes 4 r.seqNo ++ List.replicate 4 0 ++ body.take 2032)
  { s with mg := { s.mg with reqs := s.mg.reqs.filter (fun x => !(x.chan == r.chan && x.slot == r.slot)) } }

/-! ### Serving -/

/-- A field of a request's payload: its fields stand in the order of Table 21-2, each number on 8 bytes (DESIGN CHOICE, log 13). -/
def Request.fld (r : Request) (o n : Nat) : Nat := leNat ((r.payload.drop o).take n)

/-- The operation codes of Table 21-2. -/
def opcodes : List Nat :=
  [0x01, 0x02, 0x03, 0x04, 0x10, 0x11, 0x12, 0x13, 0x14, 0x18, 0x19, 0x20, 0x21, 0x22, 0x28, 0x29, 0x30, 0x31, 0x32, 0x38, 0x39, 0x3A]

/-- The request whose turn it is: the oldest whose service has not begun (R392). -/
def turn (s : State) : Option Request := s.mg.reqs.find? (fun r => !r.started)

/-- Replies with status 2 to requests of unlisted opcodes whose turn it is (R394). -/
def dropUnlisted : Nat → State → State
  | 0, s => s
  | n + 1, s =>
    match turn s with
    | none => s
    | some r => if opcodes.contains r.op then s else dropUnlisted n (reply s r 2 [])

/-- The context that a virtual function's channel stands for. -/
def Request.vf (r : Request) (s : State) : Option Nat := if r.chan < 4 then none else (kgetD s.io.funcs (r.chan - 4) {}).ctx

/-- The contexts that own one of some quadrants. -/
def quadCtxs (s : State) (qs : List Nat) : List Nat := (s.ctxs.filter (fun e => e.2.quads.any qs.contains)).map (·.1)

/-- The numbers of the bits that a number of n bits sets, ascending. -/
def bitList (v n : Nat) : List Nat := (List.range n).filter (bitOf v)

/-- What a request may act on (R393): contexts 0, queues 1, code objects 2. -/
def touches (s : State) (r : Request) : List (Nat × Nat) :=
  let byQueue (q : Nat) : List (Nat × Nat) := (1, q) :: ((s.queue q).ctx.toList.map (fun c => (0, c)))
  let byCode (h : Nat) : List (Nat × Nat) := (2, h) :: ((kget? s.codes h).toList.map (fun c => (0, c.ctx)))
  match r.op with
  | 0x10 => [(0, r.fld 0 1)]
  | 0x11 | 0x12 => [(0, r.fld 0 8)]
  | 0x13 => if r.fld 16 8 < 64 then [(0, r.fld 16 8)] else []
  | 0x14 => (r.vf s).toList.map (fun c => (0, c))
  | 0x18 => (if r.fld 0 1 = 1 then bitList (r.fld 16 8) 64 else quadCtxs s (bitList (r.fld 32 64) 512)).map (fun c => (0, c))
  | 0x19 => (quadCtxs s (bitList (r.fld 0 64) 512)).map (fun c => (0, c))
  | 0x29 => (s.log.recs.filter (fun x => x.seqNo == r.fld 0 8 && !x.resolved)).map (fun x => (0, x.ctx))
  | 0x20 => [(1, r.fld 0 1), (0, r.fld 1 1), (2, r.fld 4 4)]
  | 0x21 | 0x22 => byQueue (r.fld 0 8)
  | 0x30 => [(0, r.fld 0 8)]
  | 0x31 | 0x32 => byCode (r.fld 0 8)
  | _ => []

/-- Whether a request cannot start (R393): an earlier one in service may act on the same thing, or 64 are in service before it. -/
def busy (s : State) (r : Request) : Bool :=
  let before := s.mg.reqs.takeWhile (fun x => !(x.chan == r.chan && x.slot == r.slot))
  64 ≤ before.length || before.any (fun x => (touches s x).any (touches s r).contains)

/-- Serves the request whose turn it is, if it has an opcode (R392 to R394): a payload of another length is malformed, an issuer that
the table does not name is no owner, and a busy request is put off. -/
def serve (s : State) (op len : Nat) (who : State → Request → Bool) (f : State → Request → State) : Host.Outcome State Fault Refusal :=
  let s := dropUnlisted s.mg.reqs.length s
  match turn s with
  | none => .next s
  | some r =>
    if r.op ≠ op then .next s
    else if !r.good || r.payload.length != len then .next (reply s r 2 [])
    else if !who s r then .next (reply s r 1 [])
    else if busy s r then .next (reply s r 5 [])
    else .next (f s r)

/-- The issuer is the owner (R394, R395). -/
def byOwner (_ : State) (r : Request) : Bool := r.owner && r.chan < 4

/-- The issuer is a master. -/
def byMaster (_ : State) (r : Request) : Bool := r.chan < 4

/-- The issuer is the owner, or a virtual function for its context. -/
def byOwnerOr (c : State → Request → Option Nat) (s : State) (r : Request) : Bool :=
  byOwner s r || (r.vf s).isSome && r.vf s == c s r

/-- Begins the service of a request that waits. -/
def begin_ (s : State) (r : Request) : State :=
  { s with mg := { s.mg with reqs := s.mg.reqs.map (fun x => if x.chan = r.chan ∧ x.slot = r.slot then { x with started := true } else x) } }

/-! ### Addresses of a channel (R394) -/

/-- Whether a virtual address of a context may be read or written as a queue thread's (R376, R357, R113). -/
def queueLoc (s : State) (c va : Nat) (acc : Acc) : Except FClass Nat × State :=
  if barred s c va then (.error .prot, s)
  else deviceLoc s c va acc

/-- The flat addresses of bytes at an address of a channel, where all of them may be read or written. -/
def chanFlats (s : State) (chan : Nat) (acc : Acc) : Nat → Nat → Option (List Nat)
  | _, 0 => some []
  | a, n + 1 =>
    let one : Option Nat :=
      if chan < 4 then (if populated s a && decide (a < 2 ^ 52) then some a else none)
      else match (kgetD s.io.funcs (chan - 4) {}).ctx with
        | none => none
        | some c => match (queueLoc s c a acc).1 with | .ok pa => some pa | .error _ => none
    one.bind (fun pa => (chanFlats s chan acc (a + 1) n).map (pa :: ·))

/-- Reads bytes at an address of a channel. -/
def chanRead (s : State) (chan a n : Nat) : Option (List Byte) := (chanFlats s chan .read a n).map (memGets s.mem)

/-- An access of a party outside the cores to a range of a context's addresses sets the A bits of its pages, and a write their D bits
(R264, R265, R334). -/
def touchRange (s : State) (c va n : Nat) (write : Bool) : State :=
  let ls := if 2 ^ 26 < n then [] else (rangeFrom (va / 65536) ((va + n + 65535) / 65536)).filterMap (fun p => walk s c (p * 65536))
  let s := { s with mem := ls.foldl setAccessed s.mem }
  if write then setDirty s (ls.map (·.at_)) else s

/-- An access to a range at an address of a channel: a master's address is physical, and walks no table. -/
def chanTouch (s : State) (chan a n : Nat) (write : Bool) : State :=
  if chan < 4 then s
  else match (kgetD s.io.funcs (chan - 4) {}).ctx with
    | some c => touchRange s c a n write
    | none => s

/-- A read-modify-write of a party outside the cores reaches its home: watches see it, and a narrow release of its line stands (R330,
R331). -/
def homeRmw (s : State) (ws : List Host.Cell) : State := watchTest { s with mem := memSets s.mem ws }

/-- Bytes that a party outside the cores writes reach their homes: watches see them, and no narrow release of their lines stands (R331). -/
def homeWrite (s : State) (ws : List Host.Cell) : State := homeRmw (endNarrow s (ws.map (·.1))) ws

/-- Writes bytes at an address of a channel, all of them or none. -/
def chanStore (s : State) (chan a : Nat) (bs : List Byte) : Option State :=
  (chanFlats s chan .write a bs.length).map (fun as => homeWrite (chanTouch s chan a bs.length true) (as.zip bs))

end Sys2Proof.Machine
end

