-- ==== Sys2Proof/Machine/Mgmt.lean ====
section
/-!
DEFINITION. Management requests on ownership (R395, R396), contexts (R335, R356 to R358, R296), queues (R378, R379), deadlines
(R368, R371) and the fault log (R351).
Layouts and numbers that the tables do not give are those of log 13 (DESIGN CHOICE).
-/

namespace Sys2Proof.Machine

/-! ### Ownership -/

/-- What a refused claim tells: the owner's kind and identity. -/
def ownerBody (s : State) : List Byte := leBytes 8 (s.mg.owner.getD 0) ++ leBytes 8 s.mg.identity

/-- A channel becomes the owner with a lease of 1 s (R395); the reply names the lease in µs. -/
def takeOver (s : State) (r : Request) : State :=
  let s := noteChange { s with mg := { s.mg with owner := some r.chan, identity := r.fld 0 8, leaseEnd := s.now + secTicks, handover := none } } 1 0
  reply s r 0 (leBytes 8 1000000)

/-- CLAIM (R395, R396): where it arrives within a handover's second, only the handover's target with its nonce takes over; else the first valid
claim while there is no owner. A claim that meets an owner is told of it, and one that is not valid has status 1 (log 13). -/
def execClaim (s : State) : Host.Outcome State Fault Refusal :=
  serve s 0x01 8 byMaster fun s r =>
    let valid := s.up.masters.contains r.chan
    let no := reply s r 1 (if r.held || (ownerNow s).isSome then ownerBody s else [])
    match s.mg.handover.filter (fun h => decide (r.at_ < h.2.2)) with
    | some h => if valid && r.chan == h.1 && r.fld 0 8 == h.2.1 then takeOver s r else no
    | none => if valid && !r.held && (ownerNow s).isNone then takeOver s r else no

/-- Whether a claim that arrived within a handover's second waits for its service (R392, R396). -/
def claimWaits (s : State) (h : Nat × Nat × Nat) : Bool := s.mg.reqs.any (fun r => r.op == 1 && decide (r.at_ < h.2.2))

/-- RENEW (R395): its submission has restarted the lease. -/
def execRenew (s : State) : Host.Outcome State Fault Refusal := serve s 0x02 0 byOwner fun s r => reply s r 0 []

/-- HANDOVER (R396). -/
def execHandover (s : State) : Host.Outcome State Fault Refusal :=
  serve s 0x03 16 byOwner fun s r =>
    let k := r.fld 0 8
    if k < 1 ∨ 3 < k then reply s r 2 []
    else reply (noteChange { s with mg := { s.mg with handover := some (k, r.fld 8 8, s.now + secTicks) } } 1 0) r 0 []

/-- The lease runs out (R395): the device has no owner, and a handover ends with it unless a claim that arrived in time waits. -/
def execLeaseExpiry (s : State) : Host.Outcome State Fault Refusal :=
  if s.mg.owner.isSome ∧ s.mg.leaseEnd ≤ s.now then
    .next (noteChange { s with mg := { s.mg with owner := none, handover := s.mg.handover.filter (claimWaits s) } } 1 0)
  else .next s

/-- A handover that nobody has taken within 1 s lapses (R396). -/
def execHandoverLapse (s : State) : Host.Outcome State Fault Refusal :=
  match s.mg.handover with
  | some h => if h.2.2 ≤ s.now ∧ !claimWaits s h then .next (noteChange { s with mg := { s.mg with handover := none } } 1 0) else .next s
  | none => .next s

/-! ### Creating a context -/

/-- A context as its descriptor gives it, or none where a field lies outside Table 19-1; what stands in a reserved field is ignored (R6).
Common banks are chosen later. -/
def descriptor (b : List Byte) : Option (Nat × Nat × Nat × Context) :=
  let f (o n : Nat) : Nat := leNat ((b.drop o).take n)
  let area (o : Nat) : Bool := f o 8 % 4096 == 0 && f o 8 + f (o + 8) 8 ≤ 2 ^ 48
  let quads := bitList (f 128 64) 512
  let banks : KMap (List Nat) := (List.range 128).filterMap (fun c =>
    let v := f (192 + 4 * c) 4
    if v == 0 then none else some (c, bitList v 32))
  let ok := f 0 1 < 64 && f 1 1 < 3 && f 4 4 ≤ 1000 && f 8 8 % 8192 == 0 && f 8 8 < 2 ^ 52 &&
    f 16 8 % 65536 == 0 && f 24 8 % 65536 == 0 && f 24 8 ≤ 2 ^ 40 && f 16 8 + f 24 8 ≤ 2 ^ 48 && area 32 && area 48 &&
    (Config.twoDies || (f 48 8 == 0 && f 56 8 == 0)) && f 68 2 + f 70 2 ≤ 512 &&
    quads.all (· < 4 * Config.cores) && banks.all (·.1 < Config.cores)
  if ok then
    some (f 0 1, f 68 2, f 70 2, {
      mode := f 1 1, conf := bitOf (f 2 1) 0, strengthen := bitOf (f 2 1) 1, saveArea := bitOf (f 2 1) 2, haltUs := f 4 4, root := f 8 8,
      poolBase := f 16 8, poolSize := f 24 8, save0 := f 32 8, save0Len := f 40 8, save1 := f 48 8, save1Len := f 56 8,
      handler := f 64 4, quads := quads, banks := banks, descr := leBytes 2 (f 0 2) ++ leBytes 2 (f 2 1 % 8) ++ b.drop 4 })
  else none

/-- Whether two contexts' modes meet in a half (R359). -/
def modesMeet (a b : Nat) : Bool := a == 0 || b == 0 || a == b

/-- Whether the quadrants and banks of a new context are free, each bank on a core where it owns a quadrant and, for a shadow-ready
context, in its half (R357, Table 19-2). -/
def storageFree (s : State) (c : Context) : Bool :=
  s.ctxs.all (fun e => !modesMeet e.2.mode c.mode ||
    (!e.2.quads.any c.quads.contains && c.banks.all (fun b => !(kgetD e.2.banks b.1 []).any b.2.contains))) &&
  c.banks.all (fun b => c.quads.any (fun q => q / 4 == b.1) && (c.mode == 0 || b.2.all (fun k => k / 16 == halfOf c)))

/-- Whether the pages of a range of a new context, as its root table maps them, all keep a condition on their leaf. -/
def pagesAll (s : State) (root va len : Nat) (p : Option Leaf → Nat → Bool) : Bool :=
  (rangeFrom (va / 65536) ((va + len + 65535) / 65536)).all (fun n => p (walkFrom s.mem (n * 65536) root levels) (n * 65536))

/-- Whether a save area is mapped, writable, in the near DRAM of its die and the context's own (R357, R358). -/
def areaOk (s : State) (n root va len die : Nat) : Bool :=
  len == 0 || pagesAll s root va len (fun l a => match l with
    | some l => l.w && nearDram (l.pa a) == some die && pageOwnerOf s (l.pa a) == n
    | none => false)

/-- Whether the handler code that a context names keeps its limits (R344). -/
def handlerOk (s : State) (n h : Nat) : Bool :=
  h == 0 || (match kget? s.codes h with
    | none => false
    | some c =>
      let t := kgetD c.trans c.cur {}
      c.ctx == n && t.strands == 1 && t.ring == 8 && t.frame ≤ 8 && t.banks == 0 && t.tabA == 0 && t.acLen == 0)

/-- Whether a code window of 64 MiB lies in addresses that a context leaves unmapped (R62). -/
def windowFree (s : State) (root base : Nat) : Bool := pagesAll s root base (2 ^ 26) (fun l _ => l.isNone)

/-- The common banks that no context holds, ascending. -/
def freeCommon (s : State) : List Nat :=
  (List.range (256 * Config.dies)).filter (fun b => !s.ctxs.any (fun e => e.2.plain.contains b || e.2.exact.contains b))

/-- Whether a context may be created (R344, R357, R358), for a virtual function that the VF table has (R390). -/
def mayCreate (s : State) (n np ne fn : Nat) (c : Context) : Bool :=
  !s.hasCtx n && storageFree s c && np + ne ≤ (freeCommon s).length && handlerOk s n c.handler &&
  (fn == 0 || (s.up.vfs.contains fn && (kgetD s.io.funcs fn {}).ctx.isNone)) &&
  pageOwnerOf s c.root == n &&
  pagesAll s c.root c.poolBase c.poolSize (fun l a => match l with | some l => pageOwnerOf s (l.pa a) == n | none => true) &&
  (!c.saveArea || (areaOk s n c.root c.save0 c.save0Len 0 && areaOk s n c.root c.save1 c.save1Len 1)) &&
  s.codes.all (fun e => e.2.ctx != n || windowFree s c.root e.2.base)

/-- Zero-fills the scratchpad and common banks of a context (R357). -/
def zeroAllot (s : State) (c : Context) : State :=
  let s := c.banks.foldl (fun s e => e.2.foldl (fun s b => zeroRange s (scratchFlat e.1 b) 32768) s) s
  (c.plain ++ c.exact).foldl (fun s b => zeroRange s (commonFlat b) (2 ^ 18)) s

/-- Drops the translations held for a context. -/
def dropTlb (s : State) (n : Nat) : State := { s with ch := { s.ch with tlb := s.ch.tlb.filter (fun e => e.ctx != n) } }

/-- Creates a context (R357): its common banks are the lowest free ones, its storage is zero, its save areas have their headers. -/
def createCtx (s : State) (n np ne fn : Nat) (c : Context) : State :=
  let free := freeCommon s
  let c := { c with plain := free.take np, exact := (free.drop np).take ne, fn := fn }
  let s := dropTlb (zeroAllot s c) n
  let alone (q : Nat) : Bool := !s.ctxs.any (fun e => e.2.quads.contains q)
  let s := { s with ctxs := kset s.ctxs n c }
  let s := if fn = 0 then s else { s with io := { s.io with funcs := kset s.io.funcs fn { kgetD s.io.funcs fn {} with ctx := some n } } }
  let s := if c.mode = 0 then s else (c.quads.filter alone).foldl (fun s q => s.modQuad q (fun a => { a with active := halfOf c })) s
  let s := if c.saveArea ∧ c.save0Len ≠ 0 then saveHeader s n 0 else s
  let s := if c.saveArea ∧ c.save1Len ≠ 0 then saveHeader s n 1 else s
  noteChange s 2 n

/-- Whether a context waits for a half of a quadrant that is still being copied out (R362, Table 19-10). -/
def halfBusy (s : State) (c : Context) : Bool :=
  c.quads.any (fun q => (s.quad q).spilling.any (fun h => c.mode = 0 || h == halfOf c))

/-- Whether a creation that has begun may go on. -/
def createReady (s : State) (r : Request) : Bool :=
  (descriptor (r.payload.take 1024)).elim true (fun d => !halfBusy s d.2.2.2)

/-- The creation that a request asks for (R356, R357): it waits while a half that it names is copied out. -/
def createFor (s : State) (r : Request) : State :=
  let fn := r.fld 1024 8
  match descriptor (r.payload.take 1024) with
  | none => reply s r 2 []
  | some (n, np, ne, c) =>
    if 32 < fn then reply s r 2 []
    else if halfBusy s c then begin_ s r
    else if mayCreate s n np ne fn c then reply (createCtx s n np ne fn c) r 0 []
    else reply s r 3 []

/-- CTX_CREATE (R356, R357): a request that waits is served once it may; else the request whose turn it is. -/
def execCtxCreate (s : State) : Host.Outcome State Fault Refusal :=
  match s.mg.reqs.find? (fun r => r.started && r.op == 0x10 && createReady s r) with
  | some r => .next (createFor s r)
  | none => serve s 0x10 1032 byOwner createFor

/-! ### Destroying a context -/

/-- Whether nothing of a context that has ended is left: threads, workgroups and operations in flight. -/
def allGone (s : State) (n : Nat) : Bool :=
  !s.ths.any (fun e => e.2.pl.ctx == n) && !s.wgs.any (fun e => e.2.ctx == n) && !s.fl.any (fun f => f.ctx == n && !f.done)

/-- Removes a destroyed context with its code objects (R356, R382, R390): its storage is zero-filled, its queues belong to none, its
function is unbound. DRAM keeps its contents (R409). -/
def removeCtx (s : State) (n : Nat) : State :=
  let s := zeroAllot s (s.ctx n)
  let hs := (s.codes.filter (fun e => e.2.ctx == n)).map (·.1)
  let s := hs.foldl (fun s h => { zeroRange s (codeFlat h) (2 ^ 26) with codes := kdel s.codes h }) (dropTlb s n)
  let s := { s with
    ctxs := kdel s.ctxs n, fl := s.fl.filter (fun f => f.ctx != n),
    queues := s.queues.map (fun e => if e.2.ctx = some n then (e.1, { e.2 with ctx := none }) else e),
    quads := s.quads.map (fun e => (e.1, { e.2 with closed := e.2.closed.filter (· != n) })),
    io := { s.io with funcs := s.io.funcs.map (fun e => if e.2.ctx = some n then (e.1, { e.2 with ctx := none }) else e) } }
  let s := noteChange s 2 n
  match s.mg.reqs.find? (fun r => r.started && r.op == 0x11 && r.fld 0 8 == n) with
  | some r => reply s r 0 []
  | none => s

/-- Removes the contexts being destroyed of which nothing is left. -/
def reap (s : State) : State :=
  ((s.ctxs.filter (fun e => e.2.dying)).map (·.1)).foldl (fun s n => if allGone s n then removeCtx s n else s) s

/-- Ends a context that is to be destroyed (R356, R390). -/
def destroyCtx (s : State) (n : Nat) : State := reap ((endContext s n).modCtx n (fun c => { c with dying := true }))

/-- CTX_DESTROY (R356): contexts being destroyed go once nothing of them is left; then the request whose turn it is, is served. -/
def execCtxDestroy (s : State) : Host.Outcome State Fault Refusal :=
  serve (reap s) 0x11 8 byOwner fun s r =>
    let n := r.fld 0 8
    if 63 < n then reply s r 2 []
    else if !s.hasCtx n then reply s r 3 []
    else destroyCtx (begin_ s r) n

/-- CTX_FLAGS (R335): only while the context has no resident workgroup. -/
def execCtxFlags (s : State) : Host.Outcome State Fault Refusal :=
  serve s 0x12 16 byOwner fun s r =>
    let n := r.fld 0 8
    if 63 < n ∨ 1 < r.fld 8 8 then reply s r 2 []
    else if !resident s n || s.wgs.any (fun e => e.2.ctx == n && !e.2.saved) then reply s r 3 []
    else reply (noteChange (s.modCtx n (fun c => { c with strengthen := r.fld 8 8 == 1 })) 2 n) r 0 []

/-- Whether a 64 KiB page lies in near DRAM or the capacity tier. -/
def ownedPage (p : Nat) : Bool := (nearDram (p * 65536)).isSome || inCapacity (p * 65536)

/-- PAGE_OWNER (R358). -/
def execPageOwner (s : State) : Host.Outcome State Fault Refusal :=
  serve s 0x13 24 byOwner fun s r =>
    let lo := r.fld 0 8
    let n := r.fld 8 8
    let c := r.fld 16 8
    if (63 < c ∧ c ≠ 255) ∨ 2 ^ 36 < lo + n ∨ !(rangeFrom lo (lo + n)).all ownedPage then reply s r 2 []
    else
      let new : KMap Nat := if c = 255 then [] else (rangeFrom lo (lo + n)).map (fun p => (p, c))
      let pages := s.up.pages.filter (fun e => e.1 < lo) ++ new ++ s.up.pages.filter (fun e => lo + n ≤ e.1)
      reply { s with up := { s.up with pages := pages } } r 0 []

/-- KEY_LOAD (R296): from the TDI of a confidential context, in its RUN state and over its IDE stream; refused otherwise. -/
def execKeyLoad (s : State) : Host.Outcome State Fault Refusal :=
  serve s 0x14 40 (fun _ r => 4 ≤ r.chan) fun s r =>
    let slot := r.fld 0 8
    match r.vf s with
    | none => reply s r 3 []
    | some c =>
      if 15 < slot then reply s r 2 []
      else if !(s.ctx c).conf || !r.ide || !(kgetD s.io.funcs (r.chan - 4) {}).run then reply s r 3 []
      else reply (s.modCtx c (fun x => { x with keys := kset x.keys slot { key := (r.payload.drop 8).take 32 } })) r 0 []

/-! ### Deadlines -/

/-- Whether the bytes from a place on are all 0. -/
def zeroBytes (r : Request) (o n : Nat) : Bool := r.fld o n == 0

/-- The status of a deadline request (R368, Table 19-8): 0 accepted, 1 too early, 2 malformed. -/
def deadlineStatus (r : Request) : Nat :=
  if 1 < r.fld 0 1 ∨ !zeroBytes r 1 7 ∨ !zeroBytes r 96 32 ∨ 2 ^ 40 < r.fld 8 8 ∨ r.fld 24 8 % 16 ≠ 0 then 2
  else if r.fld 8 8 < 200000 then 1
  else 0

/-- Closes quadrants for contexts until they are reopened (R368). -/
def closeQuads (s : State) (qs cs : List Nat) : State :=
  qs.foldl (fun s q => s.modQuad q (fun a => { a with closed := (a.closed ++ cs.filter (fun c => !a.closed.contains c)) })) s

/-- Posts a deadline (R368): t0 is its acceptance. -/
def postDeadline (s : State) (r : Request) : State :=
  let (id, s) := s.newId
  let cs := bitList (r.fld 16 8) 64
  let qs := bitList (r.fld 32 64) 512
  let kind := r.fld 0 1
  let place := ((List.range (s.dls.length + 1)).find? (fun n => !s.dls.any (·.2.place == n))).getD 0
  let d : Deadline := { kind := kind, t0 := s.now, till := s.now + r.fld 8 8 * 12 / 5, ctxs := cs, quads := qs, reply := r.fld 24 8,
                        chan := r.chan, reqHead := r.payload.take 32, place := place }
  let s := noteChange { s with dls := kset s.dls id d } 4 place
  if kind = 1 then cs.foldl (fun s c => closeQuads s (s.ctx c).quads [c]) s else closeQuads s qs (List.range 64)

/-- DEADLINE (R368): a rejected request's reply is written at once and nothing else changes. -/
def execDeadline (s : State) : Host.Outcome State Fault Refusal :=
  serve s 0x18 128 (fun s r => byOwner s r || ((r.vf s).isSome && r.fld 0 1 == 1 && bitList (r.fld 16 8) 64 == (r.vf s).toList)) fun s r =>
    let st := deadlineStatus r
    match chanFlats s r.chan .write (r.fld 24 8) 16 with
    | none => reply s r 3 []
    | some as =>
      if st ≠ 0 then
        atHome s as (reply ((chanStore s r.chan (r.fld 24 8) (BitVec.ofNat 8 st :: List.replicate 15 0)).getD s) r 2 [])
      else reply (postDeadline s r) r 0 []

/-- REOPEN (R368, R371). -/
def execReopen (s : State) : Host.Outcome State Fault Refusal :=
  serve s 0x19 64 byOwner fun s r =>
    reply ((bitList (r.fld 0 64) 512).foldl (fun s q => s.modQuad q (fun a => { a with closed := [] })) s) r 0 []

/-! ### Queues -/

/-- A queue thread as it starts (R378). -/
def freshQueue (s : State) (q c h arg : Nat) : Strand :=
  let code := kgetD s.codes h {}
  let tr := kgetD code.trans code.cur {}
  let t := freshStrand { kind := .queue, ctx := c, code := h, trans := code.cur, core := 256 + q } tr.ring
  { t with
    rg := t.rg.poke [(sCell 0, BitVec.ofNat 32 q), (sCell 1, BitVec.ofNat 32 c), (sCell 2, BitVec.ofNat 32 arg),
      (sCell 3, BitVec.ofNat 32 (arg / 2 ^ 32))]
    ln := { t.ln with exited := 0xFFFFFFFE }
    ct := { t.ct with part := 0 }
    ps := { t.ps with s0 := { grp := some { pc := tr.entry, mask := 1 } } } }

/-- Whether a queue is idle (R378, R379). -/
def queueIdle (s : State) (q : Nat) : Bool := (s.queue q).state == 0 || (s.queue q).state == 4

/-- Whether a queue may start a program (R378); work is accepted only after discovery has ended, and
none by a control core of a die that is held in reset (R401, R8). -/
def mayStart (s : State) (q c h status : Nat) : Bool :=
  s.up.accepting && !s.up.held.contains (dieOfCore (256 + q)) && queueIdle s q && resident s c && status % 64 == 0 &&
  (match kget? s.codes h with
    | none => false
    | some x =>
      let t := kgetD x.trans x.cur {}
      x.ctx == c && t.strands == 1 && t.acLen == 0 && t.banks == 0 && t.tabA == 0) &&
  (match (queueLoc s c status .write).1 with | .ok _ => true | .error _ => false)

/-- QUEUE_START (R378, R379). -/
def execQueueStart (s : State) : Host.Outcome State Fault Refusal :=
  serve s 0x20 32 (byOwnerOr (fun _ r => some (r.fld 1 1))) fun s r =>
    let q := r.fld 0 1
    let c := r.fld 1 1
    let h := r.fld 4 4
    if Config.queueThreads ≤ q ∨ 63 < c ∨ 7 < r.fld 2 1 then reply s r 2 []
    else if !mayStart s q c h (r.fld 16 8) then reply s r 3 []
    else
      let s := s.modQueue q (fun v => { v with prio := r.fld 2 1, ctx := some c, status := r.fld 16 8, events := 0, launches := 0, passed := 0,
                                               frec := none, stopReq := false })
      let s := { s with ths := kset s.ths (queueNo q) (freshQueue s q c h (r.fld 8 8)) }
      reply (queueState s q 1) r 0 []

/-- The context that a queue belongs to, for a request that names the queue first. -/
def queueCtx (s : State) (r : Request) : Option Nat := (s.queue (r.fld 0 8)).ctx

/-- QUEUE_STOP (R379): at the thread's next clause boundary, or at once when it waits or is stopped. -/
def execQueueStop (s : State) : Host.Outcome State Fault Refusal :=
  serve s 0x21 8 (byOwnerOr queueCtx) fun s r =>
    let q := r.fld 0 8
    if Config.queueThreads ≤ q then reply s r 2 []
    else if queueIdle s q then reply s r 3 []
    else
      let s := s.modQueue q (fun v => { v with stopReq := true })
      reply (if haltsHere (s.th (queueNo q)) then haltQueue s q else s) r 0 []

/-- QUEUE_RESUME (R379): the stopped instruction is executed again, or the clause after a TRAP. -/
def execQueueResume (s : State) : Host.Outcome State Fault Refusal :=
  serve s 0x22 8 (byOwnerOr queueCtx) fun s r =>
    let q := r.fld 0 8
    if Config.queueThreads ≤ q then reply s r 2 []
    else if (s.queue q).state ≠ 3 then reply s r 3 []
    else reply (resumeThread (queueState (s.modQueue q (fun v => { v with frec := none })) q 1) (queueNo q)) r 0 []

/-! ### The fault log -/

/-- FAULTLOG_SET (R351): every slot is free; a record of an earlier ring stays open without a slot. -/
def execFaultlogSet (s : State) : Host.Outcome State Fault Refusal :=
  serve s 0x28 24 byOwner fun s r =>
    let n := r.fld 8 8
    if r.fld 0 8 % 64 ≠ 0 ∨ n < 16 ∨ 65536 < n ∨ 2 ^ Nat.log2 n ≠ n ∨ 2047 < r.fld 16 8 then reply s r 2 []
    else reply { s with log := { s.log with base := r.fld 0 8, entries := n, vector := r.fld 16 8, next := 0, taken := [],
                                            recs := s.log.recs.map (fun x => { x with ring := 65536 }) } } r 0 []

/-- Applies a reply to a thread that a record names: one that is stopped; a saved strand takes it once it is restored (R349, R364;
DEDUCED, log 14). -/
def replyThread (kill : Bool) (s : State) (n : Nat) : State :=
  if savedBase ≤ n then
    s.modWg ((n - savedBase) / 32) (fun g => { g with image := g.image.map (fun t =>
      if t.pl.idx = (n - savedBase) % 32 then { t with ct := { t.ct with due := some kill } } else t) })
  else if (s.th n).ct.stopped then (if kill then killThread s n else resumeThread s n)
  else s

/-- Resolves a record (R351): its flag is set, its slot is free. -/
def resolve_ (s : State) (x : LogRec) : State :=
  let s := { s with log := { s.log with
    recs := s.log.recs.filter (fun y => y.seqNo != x.seqNo), taken := s.log.taken.filter (· != x.ring) } }
  noteChange (ringWrite s { x with resolved := true }) 5 x.seqNo

/-- FAULT_REPLY (R351): resume, kill, or end the context, for the strands still named. -/
def execFaultReply (s : State) : Host.Outcome State Fault Refusal :=
  let rec_ (s : State) (r : Request) : Option LogRec := s.log.recs.find? (fun x => x.seqNo == r.fld 0 8 && !x.resolved)
  serve s 0x29 16 (byOwnerOr (fun s r => (rec_ s r).map (·.ctx))) fun s r =>
    let a := r.fld 8 8
    match rec_ s r with
    | none => reply s r (if 2 < a then 2 else 3) []
    | some x =>
      if 2 < a then reply s r 2 []
      else if a = 1 ∧ (x.source = 1 ∨ x.source = 2) then reply s r 3 []
      else
        let s := resolve_ s x
        let s := match a with
          | 2 => endContext s x.ctx
          | a => if x.source = 0 ∨ x.source = 2 then x.threads.foldl (replyThread (a == 1)) s else s
        reply s r 0 []

end Sys2Proof.Machine
end

