-- ==== Sys2Proof/Machine/Shake.lean ====
section
/-!
DEFINITION. SHAKE256, the digest that signed records name (R403), as FIPS 202 defines it (PRESUMED, log 8: the spec gives its name only).
A state of the permutation is 25 words of 64 bits, the word of column x and row y at 5 y + x.
-/

namespace Sys2Proof.Machine

/-- A word rotated left. -/
def rotl64 (x n : Nat) : Nat := x * 2 ^ n % 2 ^ 64 + x / 2 ^ (64 - n)

/-- The rotation of each word, in the order of the state. -/
def keccakRot : List Nat := [0, 1, 62, 28, 27, 36, 44, 6, 55, 20, 3, 10, 43, 25, 39, 41, 45, 15, 21, 8, 18, 2, 61, 56, 14]

/-- The round constants. -/
def keccakRc : List Nat :=
  [0x0000000000000001, 0x0000000000008082, 0x800000000000808A, 0x8000000080008000, 0x000000000000808B, 0x0000000080000001,
   0x8000000080008081, 0x8000000000008009, 0x000000000000008A, 0x0000000000000088, 0x0000000080008009, 0x000000008000000A] ++
  [0x000000008000808B, 0x800000000000008B, 0x8000000000008089, 0x8000000000008003, 0x8000000000008002, 0x8000000000000080,
   0x000000000000800A, 0x800000008000000A, 0x8000000080008081, 0x8000000000008080, 0x0000000080000001, 0x8000000080008008]

/-- One round: theta, rho and pi, chi, and iota. -/
def keccakRound (a : List Nat) (rc : Nat) : List Nat :=
  let at_ (l : List Nat) (x y : Nat) : Nat := l.getD (5 * (y % 5) + x % 5) 0
  let c (x : Nat) : Nat := (List.range 5).foldl (fun v y => v ^^^ at_ a x y) 0
  let cs := (List.range 5).map c
  let ds := (List.range 5).map (fun x => cs.getD ((x + 4) % 5) 0 ^^^ rotl64 (cs.getD ((x + 1) % 5) 0) 1)
  let b := (List.range 25).map (fun n =>
    let y := n % 5
    let x := (3 * (n / 5) + y) % 5
    rotl64 (at_ a x y ^^^ ds.getD x 0) (at_ keccakRot x y))
  let d := (List.range 25).map (fun n => at_ b n (n / 5) ^^^ ((2 ^ 64 - 1 - at_ b (n + 1) (n / 5)) &&& at_ b (n + 2) (n / 5)))
  d.set 0 (d.headD 0 ^^^ rc)

/-- The permutation. -/
def keccak (a : List Nat) : List Nat := keccakRc.foldl keccakRound a

/-- The block of 136 bytes that bytes begin with, as 17 words. -/
def blockWords (b : List Byte) : List Nat := (List.range 17).map (fun i => leNat ((b.drop (8 * i)).take 8))

/-- Takes blocks into a state. -/
def absorb : Nat → List Nat → List Byte → List Nat
  | 0, a, _ => a
  | n + 1, a, b => absorb n (keccak ((List.range 25).map (fun i => a.getD i 0 ^^^ (blockWords b).getD i 0))) (b.drop 136)

/-- Bytes with the suffix of SHAKE and the padding to whole blocks. -/
def shakePad (b : List Byte) : List Byte :=
  let n := 136 - b.length % 136
  b ++ (if n = 1 then [0x9F] else [0x1F] ++ List.replicate (n - 2) 0 ++ [0x80])

/-- The first n bytes of the SHAKE256 digest, n up to 136. -/
def shake256 (n : Nat) (b : List Byte) : List Byte :=
  ((absorb (b.length / 136 + 1) (List.replicate 25 0) (shakePad b)).flatMap (leBytes 8)).take n

end Sys2Proof.Machine
end

