-- ==== Sys2Proof/Machine/Twifel.lean ====
section
/-!
DEFINITION. What the loader asks of a Twifel kernel before it translates it (R64, R65), and of what it makes of it (R63, R66).
Corners that these rules leave to be inferred are read as log 8 says (DESIGN CHOICE).
-/

namespace Sys2Proof.Twifel

/-! ### Operations and their types (R64) -/

/-- The kind of register that a field of an operation takes: a k register's bit, 32 bits of a type, 64 bits, 32 bits of an integer or a float,
32 bits of any type, or what the operation does not tell by itself. -/
inductive Cls where
  | bit | word | pair | f32 | f16x2 | bf16x2 | num | any | free
  deriving DecidableEq, Repr

/-- Whether a value of a type suits a field. -/
def Ty.fits (t : Ty) : Cls → Bool
  | .bit => t == .i1
  | .word => t == .i32
  | .pair => t == .i64 || t == .ptr
  | .f32 => t == .f32
  | .f16x2 => t == .f16x2
  | .bf16x2 => t == .bf16x2
  | .num => t == .i32 || t == .f32
  | .any => t == .i32 || t == .f32 || t == .f16x2 || t == .bf16x2
  | .free => true

/-- The kind that a type code names (Table 2-9, R200). -/
def tyCls (t : Nat) : Cls :=
  match t with
  | 2 => .f32
  | 3 => .f16x2
  | 4 => .bf16x2
  | 5 | 6 => .pair
  | _ => .word

/-- The kind of a 32-bit or 64-bit field. -/
def wide (is64 : Bool) (c : Cls) : Cls := if is64 then .pair else c

/-- The kind of a reduction's operands, by its operation (Table 8-4). -/
def redCls (x : LForm) : Cls := if 8 ≤ x.md.toNat % 16 && x.md.toNat % 16 ≤ 10 then .f32 else .word

/-- The kind of an atomic's value, by its operation (Table 14-13). -/
def atomCls (op : Nat) : Cls :=
  if op = 1 ∨ op = 10 ∨ op = 12 then .pair else if 13 ≤ op then .f32 else if op = 9 ∨ op = 11 then .any else .word

/-- The kind of register that a field of an operation takes (Tables 8-1, 11-2 to 11-14, 14-9 and 14-13); a parameter is a word. -/
def fieldCls (major minor : Nat) (x : LForm) (f : Field) : Cls :=
  let w := x.ty == 5 || x.ty == 6
  let ex := x.md == 1 || x.md == 2
  match major, minor, f with
  | _, _, .p0 | _, _, .p1 | _, _, .p2 | _, _, .p3 => .word
  | 1, 17, .b | 1, 18, .b | 1, 19, .b => .word
  | 1, 12, _ | 1, 13, _ | 1, 14, _ | 1, 15, _ | 1, 16, _ | 1, 27, _ => wide w .any
  | 1, _, _ => wide w .word
  | 2, 7, .d => .word
  | 2, 0, .b | 2, 1, .b => wide (!ex) .word
  | 2, 3, .a => wide (!ex) .word
  | 2, _, .b => .word
  | 2, _, _ => .pair
  | 3, 9, .d | 3, 9, .c => .f32
  | 3, _, _ => tyCls x.ty
  | 4, _, _ => .f32
  | 5, 0, .d => tyCls x.ty
  | 5, 1, .d | 5, 2, .a => wide (x.ty == 5) .word
  | 5, 3, .d => .any
  | 5, 3, _ => .word
  | 5, 4, .a => if packedTy x.ty then tyCls x.ty else .any
  | 5, 4, .d => if packedTy x.ty then .f32 else .word
  | 5, _, _ => .f32
  | 6, 5, .a | 6, 6, .d => .num
  | 6, _, _ => .word
  | 7, 0, .d | 7, 1, .d | 7, 2, .d => if x.c.toNat / 8 = 1 then .word else .bit
  | 7, 0, _ | 7, 1, _ => wide w .word
  | 7, 2, _ => .f32
  | 7, 3, .a => .f32
  | 7, 8, .a => if x.c.toNat ≤ 1 then .any else .bit
  | 7, 8, .d => if x.c.toNat ≤ 1 then .bit else .any
  | 7, 9, .d => .any
  | 7, _, _ => .bit
  | 8, 2, _ | 8, 3, _ | 9, 2, _ => redCls x
  | 8, 1, _ | 8, 6, _ | 8, 7, _ | 8, _, .b => .word
  | 8, _, _ | 9, _, _ => .any
  | 13, _, .d => atomCls (x.md.toNat / 2)
  | 13, _, .b => if x.md.toNat / 2 = 11 then .pair else if x.md.toNat / 2 = 12 then .free else atomCls (x.md.toNat / 2)
  | 12, 0, .d | 12, 1, .d | 12, 4, .d => if x.ty = 6 then .free else wide (x.ty == 5) .any
  | 12, _, .a | 13, _, .a => .pair
  | 12, _, .b => .word
  | _, _, _ => .free

/-- Whether Twifel has an operation (R64): none that works on frames, loop queues or feed queues, and of the control instructions those
that no form of Table 4-5 stands for. -/
def opOk (major minor : Nat) : Bool :=
  major != 19 && major != 23 && !(major == 10 && (minor == 4 || minor == 5)) &&
  !(major == 20 && (minor ≤ 5 || minor == 7 || minor == 11))

/-- A field's place among the registers that can serve it. -/
def Field.num : Field → Nat
  | .a => 0
  | .b => 1
  | .c => 2
  | .d => 3
  | .p0 => 4
  | .p1 => 5
  | .p2 => 6
  | .p3 => 7

/-- Whether a field is a parameter. -/
def Field.isPar (f : Field) : Bool := decide (4 ≤ f.num)

/-- The registers that can serve a field: a k register for a bit, else f registers or, where the operation asks for them, scalar ones, four
each; a parameter is served by a scalar register through its marker (R34). -/
def regsFor (c : Cls) (f : Field) : List Spec :=
  let s : Spec := BitVec.ofNat 9 (400 + 4 * f.num)
  if f.isPar then [s] else if c = .bit then [BitVec.ofNat 9 (f.num + 1)] else [BitVec.ofNat 9 (4 * f.num), s]

/-- An instruction's form with a register in a field, or its marker in a parameter. -/
def setField (x : PForm) (f : Field) (r : Spec) : PForm :=
  let m : Word := 0xFE000000#32 ||| r.setWidth 32
  match f with
  | .d => { x with l := { x.l with d := r } }
  | .a => { x with l := { x.l with a := r } }
  | .b => { x with l := { x.l with b := r } }
  | .c => { x with l := { x.l with c := r } }
  | .p0 => { x with p0 := m }
  | .p1 => { x with p1 := m }
  | .p2 => { x with p2 := m }
  | .p3 => { x with p3 := m }

/-- An operation with registers in its fields, if the Z2 has it; a parameter that no argument gives is 0. -/
def opWith (major minor : Nat) (x : LForm) (rs : List (Field × Spec)) : Option Instr :=
  let p := rs.foldl (fun x e => setField x e.1 e.2) { l := x, p0 := 0, p1 := 0, p2 := 0, p3 := 0 }
  if takesPar major minor then mkP major minor p else if rs.any (·.1.isPar) then none else mkL major minor p.l

/-- The ways to serve some fields. -/
def choices (cls : Field → Cls) : List Field → List (List (Field × Spec))
  | [] => [[]]
  | f :: fs => (regsFor (cls f) f).flatMap (fun r => (choices cls fs).map ((f, r) :: ·))

/-- An operation with registers that suit its fields, with those registers: the first of the ways that keeps the operation's limits. -/
def serving (major minor : Nat) (x : LForm) (fs : List Field) : Option (Instr × List (Field × Spec)) :=
  (choices (fieldCls major minor x) fs).findSome? (fun rs => ((opWith major minor x rs).filter (·.wfIn .exec)).map (·, rs))

/-! ### Types of values (R65) -/

/-- The type of each value of a function. -/
def Func.types (f : Func) : List (Nat × Ty) := f.params ++ f.blocks.flatMap (fun b => b.lines.filterMap (·.dest))

/-- The type of a value, if it has one. -/
def typeOf (ts : List (Nat × Ty)) (n : Nat) : Option Ty := (ts.find? (·.1 == n)).map (·.2)

/-- Whether an argument suits a kind of register. -/
def argFits (ts : List (Nat × Ty)) (c : Cls) : Arg → Bool
  | .num _ => c != .bit
  | .val n => (typeOf ts n).elim false (·.fits c)

/-- Whether an argument has a type. -/
def argIs (ts : List (Nat × Ty)) (t : Ty) : Arg → Bool
  | .num _ => t != .i1
  | .val n => typeOf ts n == some t

/-- Whether the types of a line match what it does (R65). -/
def lineTyped (k : Kernel) (ts : List (Nat × Ty)) (l : Line) : Bool :=
  match l.rhs with
  | .op maj m x args =>
    let cls (f : Field) : Cls := fieldCls maj m x f
    opOk maj m && args.all (fun e => argFits ts (cls e.1) e.2) && l.dest.all (fun d => d.2.fits (cls .d)) &&
    (serving maj m x (args.map (·.1) ++ (if l.dest.isSome then [.d] else []))).isSome
  | .lane | .depth => l.dest.all (·.2 == .i32)
  | .sreg n => n < 16 && l.dest.all (·.2 == .i32)
  | .phi ins => l.dest.all (fun d => ins.all (fun e => argIs ts d.2 e.1))
  | .call n args =>
    match k.funcs[n]? with
    | none => false
    | some f => args.map (·.1) == f.params.map (·.2) && args.all (fun e => argIs ts e.1 e.2) &&
        (l.dest.map (·.2) == f.result || l.dest.isNone)

/-- Whether the types of a block's end match (R65). -/
def lastTyped (f : Func) (ts : List (Nat × Ty)) : Last → Bool
  | .br p _ _ _ => argIs ts .i1 p
  | .switch i _ _ => argIs ts .i32 i
  | .ret v => match v, f.result with
    | none, none => true
    | some a, some t => argIs ts t a
    | _, _ => false
  | .next => true

/-! ### Blocks, dominance and post-dominance (R65) -/

/-- The blocks that follow a block. -/
def Func.succ (f : Func) (b : Nat) : List Nat :=
  match f.blocks[b]? with
  | none => []
  | some k => match k.last with
    | .br _ y n _ => [y, n]
    | .switch _ _ ts => ts
    | .ret _ => []
    | .next => [b + 1]

/-- The blocks reached from some blocks over others than one. -/
def reach (succ : Nat → List Nat) (avoid : Nat) : Nat → List Nat → List Nat
  | 0, seen => seen
  | n + 1, seen =>
    let new := ((seen.flatMap succ).filter (fun b => b != avoid && !seen.contains b)).eraseDups
    if new.isEmpty then seen else reach succ avoid n (seen ++ new)

/-- The blocks reached from some, themselves with them, on ways that do not enter one. -/
def Func.reaches (f : Func) (avoid : Nat) (from_ : List Nat) : List Nat :=
  reach f.succ avoid f.blocks.length ((from_.filter (· != avoid)).eraseDups)

/-- Whether block d dominates block b: every way from the entry to b goes through d. -/
def Func.dominates (f : Func) (d b : Nat) : Bool := d == b || !(f.reaches d [0]).contains b

/-- Whether a block ends the function. -/
def Func.exits (f : Func) (b : Nat) : Bool := (f.succ b).isEmpty

/-- Whether block k post-dominates some blocks: no way from them to the function's end misses k. -/
def Func.postDominates (f : Func) (k : Nat) (bs : List Nat) : Bool := !(f.reaches k bs).any f.exits

/-- The values that an argument uses. -/
def Arg.uses : Arg → List Nat
  | .val n => [n]
  | .num _ => []

/-- The values that a line uses at its own place: those of a `phi` are used at the ends of the blocks it names. -/
def Rhs.uses : Rhs → List Nat
  | .op _ _ _ args => args.flatMap (·.2.uses)
  | .call _ args => args.flatMap (·.2.uses)
  | _ => []

/-- The values that a block's end uses. -/
def Last.uses : Last → List Nat
  | .br p _ _ _ => p.uses
  | .switch i _ _ => i.uses
  | .ret v => v.elim [] Arg.uses
  | .next => []

/-- The value that a line of a block assigns. -/
def Block.assigns (b : Block) (n : Nat) : Bool := b.lines.any (fun l => l.dest.any (·.1 == n))

/-- Whether a value is defined where place p of block b uses it (R65): a parameter, an earlier line of the block, or a line of another block
that dominates it. -/
def Func.defined (f : Func) (b p n : Nat) : Bool :=
  f.params.any (·.1 == n) ||
  (f.blocks.getD b ⟨false, [], .next⟩).lines.zipIdx.any (fun l => l.2 < p && l.1.dest.any (·.1 == n)) ||
  f.blocks.zipIdx.any (fun e => e.2 != b && e.1.assigns n && f.dominates e.2 b)

/-- Whether every use of a block's values is dominated by its definition (R65). -/
def Func.usesOk (f : Func) (b : Nat) (k : Block) : Bool :=
  k.lines.zipIdx.all (fun l => l.1.rhs.uses.all (f.defined b l.2) && (match l.1.rhs with
    | .phi ins => ins.all (fun e => e.1.uses.all (f.defined e.2 ((f.blocks.getD e.2 ⟨false, [], .next⟩).lines.length)))
    | _ => true)) &&
  k.last.uses.all (f.defined b k.lines.length)

/-- Whether a `phi` names the blocks that its block follows, and heads it (Table 4-5). -/
def Func.phisOk (f : Func) (b : Nat) (k : Block) : Bool :=
  let isPhi (l : Line) : Bool := match l.rhs with | .phi _ => true | _ => false
  let preds := (List.range f.blocks.length).filter (fun p => (f.succ p).contains b)
  (k.lines.dropWhile isPhi).all (fun l => !isPhi l) &&
  k.lines.all (fun l => match l.rhs with | .phi ins => ins.all (fun e => preds.contains e.2) && preds.all (ins.map (·.2)).contains | _ => true)

/-- Whether a block's branch or switch meets at a block that post-dominates as R65 asks; that of a branch begins with `knot`. -/
def Func.meetOk (f : Func) (k : Block) : Bool :=
  match k.last with
  | .br _ y n m => f.postDominates m [y, n] && (f.blocks[m]?).any (·.knot)
  | .switch _ m ts => f.postDominates m ts
  | _ => true

/-- Whether the blocks that a block's end names exist. -/
def Func.linked (f : Func) (b : Nat) (k : Block) : Bool :=
  (f.succ b ++ (match k.last with | .br _ _ _ m => [m] | .switch _ m _ => [m] | _ => [])).all (· < f.blocks.length)

/-- Whether no value of a function is assigned twice (R65). -/
def Func.once (f : Func) : Bool := (f.types.map (·.1)).eraseDups.length == f.types.length

/-- Whether a function keeps every condition of R65. -/
def Func.ok (k : Kernel) (f : Func) : Bool :=
  f.once && f.blocks != [] && f.blocks.zipIdx.all (fun e =>
    f.linked e.2 e.1 && f.usesOk e.2 e.1 && f.phisOk e.2 e.1 && f.meetOk e.1 &&
    e.1.lines.all (lineTyped k f.types) && lastTyped f f.types e.1.last)

/-- Whether the loader takes a kernel (R65). -/
def Kernel.ok (k : Kernel) : Bool := k.entry.ok k && k.entry.params == [] && k.entry.result.isNone && k.funcs.all (·.ok k)

/-! ### What a translation keeps (R63, R66) -/

/-- A Z2 operation whose result rounds, by its opcode, modifiers and, of packed ones, element type: an operation of the families FPU, SFU,
CVT and NRW. -/
def fpKey : Parts → Option (Nat × Nat × Nat)
  | .l maj m x => if 3 ≤ maj && maj ≤ 6 then some (maj, m, x.md.toNat) else none
  | _ => none

/-- The rounding operations of a kernel. -/
def Kernel.fpKeys (k : Kernel) : List (Nat × Nat × Nat) :=
  (k.entry :: k.funcs).flatMap (fun f => f.blocks.flatMap (fun b => b.lines.filterMap (fun l => match l.rhs with
    | .op maj m x _ => fpKey (.l maj m x)
    | _ => none)))

/-- Whether a translation's instructions contract no multiply and add, and put no rounding operation in the place of another (R66): each of
theirs is one of the kernel's. -/
def keepsOps (k : Kernel) (is : List Instr) : Bool := is.all (fun i => (fpKey i.parts).all k.fpKeys.contains)

/-- Whether the first instruction of a callee's entry clause is `frame m` with m at least 1 (R63). -/
def entersFrame : Instr → Bool
  | .frame x => x.a.toNat != 480
  | _ => false

end Sys2Proof.Twifel
end

