-- ==== Sys2Proof/Machine/TwText.lean ====
section
/-!
DEFINITION. Twifel's text (R64, Table 4-5): what the forms of the table, written line by line as its examples write them, stand for.
Labels, comments, numbers and mnemonics are written as in the assembly language (R43, R44), with values in the place of registers; the
operations read here are those of INT, FPU, SFU, CVT and the compares. Other text is left to `Config.twifelParse` (DESIGN CHOICE, log 8).
-/

namespace Sys2Proof.Twifel

/-! ### Words and lines -/

/-- A word, a punctuation mark or the end of a line. -/
abbrev Tok := List Char

/-- The braces of a function, which no literal may hold. -/
def opens : Tok := [Char.ofNat 123]
/-- The closing brace. -/
def closes : Tok := [Char.ofNat 125]

/-- Whether a character belongs to a word. -/
def wordChar (c : Char) : Bool := c.isAlphanum || "_.$->%".toList.contains c

/-- The tokens of text, from a word that has begun, outside or inside a comment. -/
def lex : List Char → Tok → Bool → List Tok
  | [], w, _ => if w.isEmpty then [] else [w.reverse]
  | c :: cs, w, note =>
    let done : List Tok := if w.isEmpty then [] else [w.reverse]
    if c == '\n' then done ++ [[c]] ++ lex cs [] false
    else if note then lex cs [] true
    else if wordChar c then lex cs (c :: w) false
    else if c == ';' then done ++ lex cs [] true
    else if c == ' ' || c == '\t' || c == '\r' then done ++ lex cs [] false
    else done ++ [[c]] ++ lex cs [] false

/-- The tokens of each line that has any. -/
def linesOf : List Tok → List Tok → List (List Tok)
  | [], l => if l.isEmpty then [] else [l.reverse]
  | t :: ts, l => if t = ['\n'] then (if l.isEmpty then [] else [l.reverse]) ++ linesOf ts [] else linesOf ts (t :: l)

/-- A word cut at its dots. -/
def dotted : List Char → List Char → List (List Char)
  | [], w => [w.reverse]
  | c :: cs, w => if c = '.' then w.reverse :: dotted cs [] else dotted cs (c :: w)

/-- Words written with spaces between them. -/
def words (s : String) : List Tok := lex s.toList [] false

/-- The place of a word in a list. -/
def place (l : List Tok) (t : Tok) : Option Nat := if l.contains t then some (l.idxOf t) else none

/-- Arguments separated by commas. -/
def commas : List Tok → List Tok → List (List Tok)
  | [], l => if l.isEmpty then [] else [l.reverse]
  | t :: ts, l => if t = [','] then l.reverse :: commas ts [] else commas ts (t :: l)

/-! ### Types, numbers and operations -/

/-- A type of Table 4-5. -/
def tyOf (t : Tok) : Option Ty := (place (words "i1 i32 i64 f32 f16x2 bf16x2 ptr") t).bind (fun n => [.i1, .i32, .i64, .f32, .f16x2, .bf16x2, .ptr][n]?)

/-- The value of a digit. -/
def digit (c : Char) : Nat := if c.isDigit then c.toNat - '0'.toNat else c.toNat - 'a'.toNat + 10

/-- Digits of a base as a number, with underscores between them (R43). -/
def digits (base : Nat) (cs : List Char) : Option Nat :=
  let ds := (cs.filter (· != '_')).map digit
  if ds.isEmpty || !ds.all (· < base) then none else some (ds.foldl (fun v d => base * v + d) 0)

/-- An integer (R43); a negative one is that of 64 bits. -/
def number : Tok → Option Nat
  | '0' :: 'x' :: cs => digits 16 cs
  | '0' :: 'b' :: cs => digits 2 cs
  | '-' :: cs => (digits 10 cs).map (fun v => (2 ^ 64 - v) % 2 ^ 64)
  | cs => digits 10 cs

/-- The mnemonics read here, by major, at the places of their minors (Table 3-3); `-` stands for one that is not. -/
def mnemonics : List (Nat × List Tok) :=
  [(1, words "add sub mul mulh mulhu mad min max minu maxu abs neg and or xor not - shl shr sar rotl bfe bfeu - clz popc brev mov"),
   (3, words "fadd fsub fmul fma fnma fmin fmax"), (4, words "frcp frsq fsqrt fexp2 flog2 fsin fcos ftanh"), (5, words "fcvt f2i i2f"),
   (7, words "icmp icmpu fcmp - kand kor kxor kinv")]

/-- Major and minor of a mnemonic. -/
def opcodeOf (t : Tok) : Option (Nat × Nat) :=
  if t = ['-'] then none else mnemonics.findSome? (fun e => (place e.2 t).map (fun n => (e.1, n)))

/-- An operation's major, minor and fields, from its name with its type, rounding and condition (R28, R216). -/
def opOf (t : Tok) : Option (Nat × Nat × LForm) :=
  match dotted t [] with
  | [] => none
  | name :: parts =>
    let ty := parts.findSome? (place (words "s32 b32 f32 f16x2 bf16x2 s64 b64"))
    let rnd := parts.findSome? (place (words "near zero down up"))
    let cond := parts.findSome? (place (words "eq ne lt le gt ge un ord"))
    let known := ty.toList.length + rnd.toList.length + cond.toList.length
    (opcodeOf name).bind (fun o =>
      if known != parts.length || (o.1 == 7 && decide (o.2 < 3)) != cond.isSome || (o.1 == 7 && decide (3 < o.2)) == ty.isSome then none
      else some (o.1, o.2, { st := 0, d := 0, a := 0, b := 0, c := BitVec.ofNat 9 (cond.getD 0), gk := 0, gneg := false, tr := false, ru := false,
                             md := BitVec.ofNat 5 (4 * ty.getD 0 + rnd.getD 0), lit := none }))

/-- The type of an operation's result: that of its field, or the type that it names where the field takes any. -/
def resultTy (maj m : Nat) (x : LForm) : Ty :=
  let of (c : Cls) : Option Ty := match c with
    | .bit => some .i1 | .word => some .i32 | .pair => some .i64 | .f32 => some .f32 | .f16x2 => some .f16x2 | .bf16x2 => some .bf16x2
    | _ => none
  ((of (fieldCls maj m x .d)).orElse (fun _ => of (tyCls x.ty))).getD .i32

/-! ### Lines -/

/-- What the names of a function stand for: values and blocks by their places, and the functions of the kernel. -/
structure Names where
  vals : List Tok
  blocks : List Tok
  funcs : List (Tok × List (Tok × Ty) × Option Ty)
  deriving DecidableEq, Repr

/-- An argument. -/
def argOf (c : Names) (t : Tok) : Option Arg := if t.head? = some '$' then (place c.vals t).map .val else (number t).map .num

/-- The pairs of a list. -/
def pairs : List Tok → Option (List (Tok × Tok))
  | [] => some []
  | [_] => none
  | a :: b :: l => (pairs l).map ((a, b) :: ·)

/-- Arguments that name their types. -/
def typedArgs (c : Names) (ts : List Tok) : Option (List (Ty × Arg)) :=
  (commas (ts.filter (fun t => t != ['('] && t != [')'])) []).mapM (fun l => match l with
    | [t, a] => (tyOf t).bind (fun t => (argOf c a).map (fun a => (t, a)))
    | _ => none)

/-- What a definition computes, and its type where it has one. -/
def rhsOf (c : Names) : List Tok → Option (Rhs × Option Ty)
  | [] => none
  | w :: ts =>
    if w = "lane".toList && ts.isEmpty then some (.lane, some .i32)
    else if w = "depth".toList && ts.isEmpty then some (.depth, some .i32)
    else if w = "sreg".toList then (match ts with | [n] => (number n).map (fun n => (.sreg n, some .i32)) | _ => none)
    else if w = "phi".toList then
      match ts with
      | [] => none
      | t :: ts => (tyOf t).bind (fun t => (pairs (ts.filter (fun x => x != ['['] && x != [']'] && x != [',']))).bind (fun ps =>
          (ps.mapM (fun p => (argOf c p.1).bind (fun a => (place c.blocks p.2).map (fun b => (a, b))))).map (fun ins => (.phi ins, some t))))
    else if w = "call".toList then
      match ts with
      | [] => none
      | f :: ts => (place (c.funcs.map (·.1)) f).bind (fun n => (typedArgs c ts).map (fun as => (.call n as, (c.funcs[n]?).bind (·.2.2))))
    else (opOf w).bind (fun o => ((commas ts []).mapM (fun l => match l with | [a] => argOf c a | _ => none)).bind (fun as =>
      if 3 < as.length then none else some (.op o.1 o.2.1 o.2.2 ([Field.a, .b, .c].zip as), some (resultTy o.1 o.2.1 o.2.2))))

/-- A line of a block. -/
def lineOf (c : Names) : List Tok → Option Line
  | d :: ['='] :: ts => (rhsOf c ts).bind (fun r => (place c.vals d).bind (fun n => r.2.map (fun t => { dest := some (n, t), rhs := r.1 })))
  | ts => (rhsOf c ts).map (fun r => { dest := none, rhs := r.1 })

/-- How a block ends, where a line says it. -/
def lastOf (c : Names) : List Tok → Option Last
  | [] => none
  | w :: ts =>
    let blk (t : Tok) : Option Nat := place c.blocks t
    if w = "ret".toList then
      match ts with
      | [] => some (.ret none)
      | [a] => (argOf c a).map (fun a => .ret (some a))
      | _ => none
    else if w = "br".toList then
      match commas ts [] with
      | [[p], [y], [n], [k, m]] => if k != "knot".toList then none
          else (argOf c p).bind (fun p => (blk y).bind (fun y => (blk n).bind (fun n => (blk m).map (fun m => .br p y n m))))
      | _ => none
    else if w = "switch".toList then
      match commas (ts.filter (fun t => t != ['('] && t != [')'])) [] with
      | [i] :: [m] :: ls => (argOf c i).bind (fun i => (blk m).bind (fun m =>
          (ls.mapM (fun l => match l with | [t] => blk t | _ => none)).map (fun ts => .switch i m ts)))
      | _ => none
    else none

/-! ### Blocks and functions -/

/-- The blocks of a function's lines, each after its label; lines before the first label are a block of their own. -/
def cutBlocks (ls : List (List Tok)) : List (Tok × List (List Tok)) :=
  let r := ls.foldr (fun l (acc : List (List Tok) × List (Tok × List (List Tok))) => match l with
    | n :: [':'] :: rest => ([], (n, if rest.isEmpty then acc.1 else rest :: acc.1) :: acc.2)
    | _ => (l :: acc.1, acc.2)) ([], [])
  if r.1.isEmpty then r.2 else ([], r.1) :: r.2

/-- A block's lines. -/
def blockOf (c : Names) (ls : List (List Tok)) : Option Block :=
  let knot := ls.head? == some ["knot".toList]
  let ls := if knot then ls.drop 1 else ls
  match ls.getLast?.bind (lastOf c) with
  | some e => (ls.dropLast.mapM (lineOf c)).map (fun l => { knot := knot, lines := l, last := e })
  | none => (ls.mapM (lineOf c)).map (fun l => { knot := knot, lines := l, last := .next })

/-- The head of a function: its name, parameters and result; a kernel's entry has neither parameter nor result. -/
def headOf : List Tok → Option (Tok × List (Tok × Ty) × Option Ty)
  | w :: n :: ts =>
    if w = "kernel".toList then (if ts = [opens] then some (n, [], none) else none)
    else if w = "func".toList then
      let ps := (commas ((ts.takeWhile (· != [')'])).drop 1) []).mapM (fun l => match l with | [t, v] => (tyOf t).map (fun t => (v, t)) | _ => none)
      ps.bind (fun ps => match (ts.dropWhile (· != [')'])).drop 1 with
        | [o] => if o = opens then some (n, ps, none) else none
        | [['-', '>'], t, o] => if o = opens then (tyOf t).map (fun t => (n, ps, some t)) else none
        | _ => none)
    else none
  | _ => none

/-- The functions of a text: the line that begins each, and its lines up to its closing brace. -/
def cutFuncs : Nat → List (List Tok) → Option (List (List Tok × List (List Tok)))
  | 0, _ => none
  | _ + 1, [] => some []
  | n + 1, h :: ls => (cutFuncs n ((ls.dropWhile (· != [closes])).drop 1)).map ((h, ls.takeWhile (· != [closes])) :: ·)

/-- A function of a text. -/
def funcOf (fs : List (Tok × List (Tok × Ty) × Option Ty)) (h : Tok × List (Tok × Ty) × Option Ty) (ls : List (List Tok)) : Option Func :=
  let bs := cutBlocks ls
  let c : Names := { vals := (h.2.1.map (·.1) ++ ls.flatten.filter (fun t => t.head? == some '$')).eraseDups, blocks := bs.map (·.1), funcs := fs }
  (bs.mapM (fun b => blockOf c b.2)).bind (fun bs =>
    (h.2.1.mapM (fun p => (place c.vals p.1).map (fun n => (n, p.2)))).map (fun ps => { params := ps, result := h.2.2, blocks := bs }))

/-- The kernel that a text of these forms is: one entry and the functions that it calls. -/
def textKernel (b : List Byte) : Option Kernel :=
  let ls := linesOf (lex (b.map (fun x => Char.ofNat x.toNat)) [] false) []
  (cutFuncs (ls.length + 1) ls).bind (fun fs => (fs.mapM (fun f => (headOf f.1).map (fun h => (f.1.head? == some "kernel".toList, h, f.2)))).bind (fun fs =>
    let subs := fs.filter (fun f => !f.1)
    match fs.filter (·.1) with
    | [e] =>
      let heads := subs.map (·.2.1)
      (funcOf heads e.2.1 e.2.2).bind (fun e => (subs.mapM (fun f => funcOf heads f.2.1 f.2.2)).map (fun fs => { entry := e, funcs := fs }))
    | _ => none))

/-- The kernel that a text is, if it is one (R64). -/
def parse (b : List Byte) : Option Kernel := (textKernel b).orElse (fun _ => Config.twifelParse b)

end Sys2Proof.Twifel
end

