-- ==== Sys2Proof/Machine/Loader.lean ====
section
/-!
DEFINITION. The loader: checking a code object (R58, R60, R61), mapping its translations (R62), portable objects (R65, R66), swaps
(R67, R68), unloading (R69), and signed records (R403).
Layouts and numbers that the tables do not give are those of log 13 (DESIGN CHOICE).
-/

namespace Sys2Proof.Machine

/-! ### Reading an object -/

/-- A little-endian field of an object. -/
def objF (b : List Byte) (o n : Nat) : Nat := leNat ((b.drop o).take n)

/-- The target tables from a place on (R60, Table 4-2): entries of each, entry 0 first. None where a count is out of its limits or
the image ends. -/
def objTables (b : List Byte) : Nat → Nat → Option (List (List Nat))
  | 0, _ => some []
  | n + 1, o =>
    let k := objF b o 4
    if k < 2 ∨ 4096 < k ∨ b.length < o + 4 + 4 * k then none
    else (objTables b n (o + 4 + 4 * k)).map ((List.range k).map (fun i => objF b (o + 4 + 4 * i) 4) :: ·)

/-- Bytes that tables take. -/
def tablesLen (ts : List (List Nat)) : Nat := (ts.map (fun t => 4 + 4 * t.length)).foldl (· + ·) 0

/-- The sections of an object: offset and size (Table 4-1). -/
def objSections (b : List Byte) (ts : List (List Nat)) : List (Nat × Nat) :=
  [(objF b 0x28 4, objF b 0x2C 4), (objF b 0x30 4, objF b 0x34 4), (objF b 0x38 4, tablesLen ts), (objF b 0x40 4, objF b 0x44 4),
   (objF b 0x48 4, objF b 0x4C 4), (objF b 0x50 4, objF b 0x54 4)]

/-- Whether some sections that are not empty lie apart. -/
def apart : List (Nat × Nat) → Bool
  | [] => true
  | x :: xs => xs.all (fun y => x.2 == 0 || y.2 == 0 || x.1 + x.2 ≤ y.1 || y.1 + y.2 ≤ x.1) && apart xs

/-- Whether the sections keep R58: inside the image, apart, absent ones at 0, slices, tables and pool on 8-byte boundaries. The header
counts as no section's place: a section that overlaps it is rejected too (DESIGN CHOICE, log 13). -/
def sectionsOk (b : List Byte) (ts : List (List Nat)) : Bool :=
  let l := objSections b ts
  l.all (fun x => if x.2 = 0 then x.1 == 0 else 96 ≤ x.1 && x.1 + x.2 ≤ b.length) && apart l && (l.take 4).all (fun x => x.1 % 8 == 0)

/-- Whether a number is 0 or a power of two in a range. -/
def pow2In (n lo hi : Nat) : Bool := n == 0 || (lo ≤ n && n ≤ hi && 2 ^ Nat.log2 n == n)

/-- Whether the header keeps the limits of Table 4-1; what stands in a reserved field is ignored (R6). -/
def headerOk (b : List Byte) : Bool :=
  let f := objF b
  96 ≤ b.length && f 0 4 == 0x5A4E0C0B && f 4 2 == 1 && 1 ≤ f 6 1 && f 6 1 ≤ 2 && f 7 1 < 4 && 1 ≤ f 8 1 && f 8 1 ≤ 32 && 1 ≤ f 9 1 &&
  f 9 1 ≤ 40 && 8 ≤ f 10 2 && f 10 2 ≤ 256 && f 9 1 ≤ f 10 2 && f 12 1 ≤ 64 && f 13 1 ≤ 32 && 1 ≤ f 14 2 && f 14 2 ≤ 4095 &&
  pow2In (f 0x10 4) 64 131072 && 8 ≤ f 0x14 4 && f 0x14 4 ≤ 65536 && f 10 2 ≤ f 0x14 4 && f 0x18 4 ≤ 16777216 && f 0x18 4 % 16 == 0 &&
  4 ≤ f 0x1C 2 && f 0x1C 2 ≤ 4096 && 4096 ≤ f 0x20 4 && f 0x20 4 ≤ 1048576 && f 0x20 4 % 4096 == 0 &&
  f 0x2C 4 % 8 == 0 && f 0x34 4 % 8 == 0 && f 0x3C 4 ≤ 1024 &&
  (bitOf (f 7 1) 0 == (f 0x34 4 != 0)) && (bitOf (f 7 1) 1 == (f 0x54 4 != 0))

/-- A parcel of the execute slice. -/
def slicePar (b : List Byte) (o : Nat) : Nat := objF b (objF b 0x28 4 + 4 * o) 4

/-- The offsets of the clause headers of the execute slice from one of them on: clauses follow each other with no gap, and a header's
units give the length of its clause's body (R16, R17). -/
def headersFrom (b : List Byte) : Nat → Nat → List Nat
  | 0, _ => []
  | n + 1, o =>
    if 4 * o + 8 ≤ objF b 0x2C 4 && slicePar b o % 4 == 3 then
      o :: headersFrom b n (o + 4 + 2 * bitsOf (slicePar b o) 4 4)
    else []

/-- Whether a parcel offset of the execute slice is the first parcel of a clause header (R16). -/
def isHeader (b : List Byte) (o : Nat) : Bool := (headersFrom b (objF b 0x2C 4 / 8) 0).contains o

/-- Whether the clause at an offset begins with a `knot` (R60, R61). -/
def beginsKnot (b : List Byte) (o : Nat) : Bool :=
  isHeader b o && (match decode .exec (((rangeFrom (o + 2) (o + 4)).filter (fun p => 4 * p + 4 ≤ objF b 0x2C 4)).map
      (fun p => BitVec.ofNat 32 (slicePar b p))) with
    | some (.ctlsKnot _, _) | some (.knot _, _) => true
    | _ => false)

/-- Whether an object holds its kernel in the portable form only: the entry is then that of the translation (DEDUCED, log 8). -/
def portableOnly (b : List Byte) : Bool := bitOf (objF b 7 1) 1 && objF b 0x2C 4 == 0

/-- Checks an object (R58, R60, R61); answers its target tables. -/
def checkObject (b : List Byte) : Option (List (List Nat)) :=
  if !headerOk b then none
  else match objTables b (objF b 0x3C 4) (objF b 0x38 4) with
    | none => none
    | some ts =>
      let text := (portableOnly b || isHeader b (objF b 0x24 4)) &&
        ts.all (fun t => t.all (fun e => 4 * e < objF b 0x2C 4) && beginsKnot b (t.headD 0))
      if sectionsOk b ts && text then some ts else none

/-! ### Portable objects -/

/-- The body of the clause at an offset of the execute slice (R16, R17). -/
def clauseAt (b : List Byte) (o : Nat) : List Word :=
  (rangeFrom (o + 2) (o + 4 + 2 * bitsOf (slicePar b o) 4 4)).map (fun p => BitVec.ofNat 32 (slicePar b p))

/-- The instructions of a body with their offsets, as far as they decode. -/
def placed : Nat → Nat → List Word → List (Nat × Instr)
  | 0, _, _ => []
  | n + 1, pc, ps => match decode .exec ps with
    | none => []
    | some (i, rest) => (pc, i) :: (if rest.isEmpty then [] else placed n (pc + (ps.length - rest.length)) rest)

/-- The instructions of an object's execute slice with their offsets. -/
def sliceInstrs (b : List Byte) : List (Nat × Instr) :=
  (headersFrom b (objF b 0x2C 4 / 8) 0).flatMap (fun o => placed (clauseAt b o).length (o + 2) (clauseAt b o))

/-- The offsets that an instruction of an object may call, from its own offset and the object's target tables. -/
def calls (ts : List (List Nat)) (e : Nat × Instr) : List Nat :=
  match e.2 with
  | .call x => [reachPc e.1 (ctlOff x)]
  | .callx x => (ts.getD (tableNo x) []).drop 1
  | _ => []

/-- Whether a call leaves its caller's last ply to the callee (R63): its offset is a multiple of 8. -/
def callOffsetOk (i : Instr) : Bool :=
  match i with
  | .call x | .callx x => x.d.toNat % 8 == 0
  | _ => true

/-- Whether an object's calls, and what they call, begin as the calling convention asks (R63). -/
def callsOk (b : List Byte) (ts : List (List Nat)) : Bool :=
  (sliceInstrs b).all (fun e => callOffsetOk e.2) &&
  ((sliceInstrs b).flatMap (calls ts)).all (fun o => isHeader b o &&
    (match decode .exec (clauseAt b o) with | some (i, _) => Twifel.entersFrame i | none => false))

/-- The object that the loader makes of a portable one (R64 to R66), where it has an execute slice, is one that the loader takes, keeps the
memory-model revision, the calling convention (R63) and the kernel's rounding operations (R66). -/
def translated (b : List Byte) (k : Twifel.Kernel) : Option (List Byte × List (List Nat)) :=
  let n := Config.twifel b k
  (checkObject n).bind (fun ts =>
    if objF n 0x2C 4 != 0 && objF n 6 1 == objF b 6 1 && callsOk n ts && Twifel.keepsOps k ((sliceInstrs n).map (·.2)) then some (n, ts)
    else none)

/-- The native form of an object that the loader takes, with its target tables (R61, R65): a portable section holds a kernel that keeps the
conditions of R65; the translation is mapped where the object has no execute slice, and beside one where the loader chooses it. -/
def nativeOf (b : List Byte) : Option (List Byte × List (List Nat)) :=
  (checkObject b).bind (fun ts =>
    if !bitOf (objF b 7 1) 1 then some (b, ts)
    else match (Twifel.parse ((b.drop (objF b 0x50 4)).take (objF b 0x54 4))).filter (·.ok) with
      | none => none
      | some k => if portableOnly b || Config.twifelFirst b then translated b k else some (b, ts))

/-! ### Mapping -/

/-- The translation that an object becomes at a place of its window (R62). -/
def transAtOff (b : List Byte) (ts : List (List Nat)) (off : Nat) : Trans :=
  let f := objF b
  { off := off, len := b.length, mmrev := f 6 1, strands := f 8 1, frame := f 9 1, ring := f 10 2, gcount := f 12 1, banks := f 13 1,
    depth := f 14 2, tabA := f 0x10 4, fplies := f 0x14 4, lstack := f 0x18 4, forks := f 0x1C 2, qlog := f 0x20 4,
    entry := (off + f 0x28 4) / 4 + f 0x24 4, exOff := f 0x28 4, acOff := f 0x30 4, acLen := f 0x34 4,
    tabOff := f 0x38 4, tabs := ts }

/-- Replaces bytes of a list from a place on. -/
def spliceBytes (b : List Byte) (o : Nat) (new : List Byte) : List Byte := b.take o ++ new ++ b.drop (o + new.length)

/-- The image as it is mapped (R62): the entry and the target-table entries count from the window. -/
def mappedImage (b : List Byte) (t : Trans) : List Byte :=
  let d := (t.off + t.exOff) / 4
  let b := spliceBytes b 0x24 (leBytes 4 t.entry)
  spliceBytes b t.tabOff (t.tabs.flatMap (fun l => leBytes 4 l.length ++ l.flatMap (fun e => leBytes 4 (e + d))))

/-- Maps a translation into the window of a code object and makes it the one in force (R62, R68). -/
def mapTrans (s : State) (h n : Nat) (b : List Byte) (t : Trans) : State :=
  let at_ := codeFlat h + t.off
  let s := zeroRange s at_ (roundUp b.length 65536)
  { s with mem := memBlock s.mem at_ (mappedImage b t)
           codes := kmodify s.codes h (fun c => { c with trans := kset c.trans n t, cur := n }) }

/-- Whether a window base suits a context (R62): no other window, pool or save area lies there, and nothing is mapped. -/
def baseFree (s : State) (c base : Nat) : Bool :=
  let x := s.ctx c
  let apart (a n : Nat) : Bool := n == 0 || a + n ≤ base || base + 2 ^ 26 ≤ a
  s.codes.all (fun e => e.2.ctx != c || e.2.base != base) && apart x.poolBase x.poolSize &&
  (!x.saveArea || (apart x.save0 x.save0Len && apart x.save1 x.save1Len)) && (!s.hasCtx c || windowFree s x.root base)

/-- The first suitable window from a number on, wrapping below 2 to the 48. -/
def findWindow (s : State) (c : Nat) : Nat → Nat → Option Nat
  | 0, _ => none
  | k + 1, i => if baseFree s c (i % 2 ^ 22 * 2 ^ 26) then some (i % 2 ^ 22 * 2 ^ 26) else findWindow s c k (i + 1)

/-- An object's bytes read for a request, checked, in native form. -/
def readObject (s : State) (r : Request) (a n : Nat) : Option (List Byte × List (List Nat)) :=
  if 2 ^ 26 < n then none
  else (chanRead s r.chan a n).bind nativeOf

/-- CODE_LOAD (R61, R62, R335). The window's place is the loader's free choice (DESIGN CHOICE, log 6); a context that is not resident yet may be
named, since its creation names its handler code (R344, log 13). -/
def execCodeLoad (s : State) : Host.Outcome State Fault Refusal :=
  serve s 0x30 24 (byOwnerOr (fun _ r => some (r.fld 0 8))) fun s r =>
    let c := r.fld 0 8
    if 63 < c then reply s r 2 []
    else if (s.ctx c).ended then reply s r 3 []
    else match readObject s r (r.fld 8 8) (r.fld 16 8) with
      | none => reply s r 3 []
      | some (b, ts) =>
        let (x, s) := (chanTouch s r.chan (r.fld 8 8) (r.fld 16 8) false).freeNat
        match (if objF b 6 1 = 1 ∧ !(s.ctx c).strengthen then none else if 2 ^ 26 < b.length then none else findWindow s c (2 ^ 22) x) with
        | none => reply s r 3 []
        | some base =>
          let h := s.mg.nextCode
          let s := { s with mg := { s.mg with nextCode := h + 1 }, codes := kset s.codes h { ctx := c, base := base } }
          reply (mapTrans s h 0 b (transAtOff b ts 0)) r 0 (leBytes 8 h ++ leBytes 8 base)

/-! ### Swaps and unloading -/

/-- The translations of a code object that its strands and launches were started on, resident or saved (R69). -/
def usersOf (s : State) (h : Nat) : List Nat :=
  (s.ths.filter (fun e => e.2.pl.code == h)).map (·.2.pl.trans) ++
  (s.wgs.filter (fun e => e.2.saved && e.2.code == h)).map (·.2.trans) ++
  (s.launches.filter (fun e => e.2.code == h)).map (·.2.trans)

/-- Whether a new translation may take the place of the one in force (R67). -/
def swapOk (o n : Trans) : Bool :=
  n.depth == o.depth && n.mmrev == o.mmrev && n.ring ≤ o.ring && n.frame ≤ o.frame && n.gcount ≤ o.gcount && n.banks ≤ o.banks &&
  n.tabA ≤ o.tabA && n.fplies ≤ o.fplies && n.lstack ≤ o.lstack && n.forks ≤ o.forks && n.qlog ≤ o.qlog &&
  n.tabs.map List.length == o.tabs.map List.length

/-- The end of the translations mapped in a window. -/
def windowEnd (c : Code) : Nat := (c.trans.map (fun t => t.2.off + t.2.len)).foldl Nat.max 0

/-- Releases the translations of a code object that no strand started before a later swap uses any more (R69). The loader may do so at any
time after that; this one does at the object's next swap (DESIGN CHOICE, log 13). -/
def releaseOld (s : State) (h : Nat) : State :=
  let us := usersOf s h
  { s with codes := kmodify s.codes h (fun c => { c with trans := c.trans.filter (fun t => t.1 == c.cur || us.any (· ≤ t.1)) }) }

/-- CODE_REPLACE (R67, R68): the swap is in force at the reply. An object of revision 1 is not mapped while its context's mode is off (R335). -/
def execCodeReplace (s : State) : Host.Outcome State Fault Refusal :=
  serve s 0x31 24 (byOwnerOr (fun s r => (kget? s.codes (r.fld 0 8)).map (·.ctx))) fun s r =>
    let h := r.fld 0 8
    match kget? s.codes h, readObject s r (r.fld 8 8) (r.fld 16 8) with
    | some c, some (b, ts) =>
      if objF b 6 1 = 1 ∧ !(s.ctx c.ctx).strengthen then reply s r 3 [] else
      let s := chanTouch s r.chan (r.fld 8 8) (r.fld 16 8) false
      let c := kgetD (releaseOld s h).codes h c
      let t := transAtOff b ts (roundUp (windowEnd c) 65536)
      if !swapOk (kgetD c.trans c.cur {}) t || 2 ^ 26 < t.off + t.len then reply s r 3 []
      else reply (mapTrans (releaseOld s h) h (c.cur + 1) b t) r 0 []
    | _, _ => reply s r 3 []

/-- Whether a code object is in use (R69): by a strand, a launch, or as a context's handler code. -/
def codeUsed (s : State) (h : Nat) : Bool := !(usersOf s h).isEmpty || s.ctxs.any (fun e => e.2.handler == h && !e.2.ended)

/-- Takes a code object away and replies. -/
def unloadCode (s : State) (r : Request) : State :=
  let h := r.fld 0 8
  let c := kgetD s.codes h {}
  let s := zeroRange s (codeFlat h) (2 ^ 26)
  let s := { s with
    codes := kdel s.codes h
    ch := { s.ch with tlb := s.ch.tlb.filter (fun e => !(e.ctx == c.ctx && c.base ≤ e.va && e.va < c.base + 2 ^ 26)) } }
  reply s r 0 []

/-- CODE_UNLOAD (R69): a request that waits is served once nothing uses its object; else the request whose turn it is, is served. -/
def execCodeUnload (s : State) : Host.Outcome State Fault Refusal :=
  match s.mg.reqs.find? (fun r => r.started && r.op == 0x32 && !codeUsed s (r.fld 0 8)) with
  | some r => .next (unloadCode s r)
  | none =>
    serve s 0x32 8 (byOwnerOr (fun s r => (kget? s.codes (r.fld 0 8)).map (·.ctx))) fun s r =>
      if (kget? s.codes (r.fld 0 8)).isNone then reply s r 3 []
      else if codeUsed s (r.fld 0 8) then begin_ s r
      else unloadCode s r

/-! ### Signed records (R403) -/

/-- Version, security version and body length of a record's header (DESIGN CHOICE, log 13). -/
def recordVersion (b : List Byte) : Nat × Nat × Nat := (objF b 8 8, objF b 16 8, objF b 24 8)

/-- Kind of a record (log 13): 0 firmware, 1 configuration, 2 VF table, 3 die-record keys. -/
def recordKind (b : List Byte) : Nat := objF b 4 4

/-- Whether a record of one of some kinds is authentic (R403): its header has the magic number, such a kind, the digest of the body and the
number of a key that may sign it, and its signature verifies. -/
def authentic (kinds : List Nat) (b : List Byte) : Bool :=
  objF b 0 4 == Config.recordMagic && kinds.contains (recordKind b) && shake256 32 ((b.drop 96).take (recordVersion b).2.2) == (b.drop 32).take 32 &&
  Config.recordKey (recordKind b) (objF b 64 8) && Config.signatureOk b

/-- A signed record at an address: header, body and signature. -/
def readRecord (s : State) (chan a : Nat) : Option (List Byte) :=
  (chanRead s chan a 96).bind (fun h => if 2 ^ 26 < (recordVersion h).2.2 then none else chanRead s chan a (96 + (recordVersion h).2.2 + 2500))

/-- The signed record of a kind. -/
def State.signed (s : State) (k : Nat) : SignedRec := kgetD s.up.recs k {}

/-- Stages a record of one of some kinds: status 4 where it is not authentic, 3 for a security version below the one in force. -/
def stage (kinds : List Nat) (s : State) (r : Request) : State :=
  match readRecord s r.chan (r.fld 0 8) with
  | none => reply s r 3 []
  | some b =>
    let k := recordKind b
    if !authentic kinds b then reply s r 4 []
    else if (recordVersion b).2.1 < (s.signed k).sec then reply s r 3 []
    else reply { s with up := { s.up with recs := kset s.up.recs k { s.signed k with staged := some b } } } r 0 []

/-- FW_STAGE (R403). -/
def execFwStage (s : State) : Host.Outcome State Fault Refusal := serve s 0x38 8 byOwner (stage [0])

/-- CFG_STAGE (R403): a configuration, VF-table or die-record-key record (log 13). -/
def execCfgStage (s : State) : Host.Outcome State Fault Refusal := serve s 0x39 8 byOwner (stage [1, 2, 3])

end Sys2Proof.Machine
end

