-- ==== Sys2Proof/Machine/Resync.lean ====
section
/-!
DEFINITION. The RESYNC summary and the margins section (R397, R394, Table 21-4). The places of fields that the table does not give are
those of log 13: every number on the bytes named here, and the change number in an entry's last four bytes.
-/

namespace Sys2Proof.Machine

/-- Bytes cut or filled with zeros to a length. -/
def fit (n : Nat) (b : List Byte) : List Byte := (b ++ List.replicate n 0).take n

/-- The change number of an entry. -/
def changeOf (s : State) (sect n : Nat) : Nat := kgetD s.mg.changes (sect * 2 ^ 32 + n) 0

/-- An entry of a size, with its change number last. -/
def entry (s : State) (size sect n : Nat) (b : List Byte) : List Byte := fit (size - 4) b ++ leBytes 4 (changeOf s sect n)

/-- A section: its header and its entries. -/
def section_ (s : State) (ty size : Nat) (es : List (List Byte)) : List Byte :=
  leBytes 4 ty ++ leBytes 4 es.length ++ leBytes 4 size ++ leBytes 4 s.mg.seqNo ++ es.flatMap id

/-- Section 1: the owner. -/
def ownerEntry (s : State) : List Byte :=
  let h := s.mg.handover.getD (0, 0, 0)
  entry s 64 1 0 (leBytes 8 ((ownerNow s).getD 0) ++ leBytes 8 s.mg.identity ++ leBytes 8 ((s.mg.leaseEnd - s.now) / usTicks) ++
    leBytes 8 h.1 ++ leBytes 8 h.2.1)

/-- Section 2: a context. -/
def ctxEntry (s : State) (n : Nat) : List Byte :=
  match kget? s.ctxs n with
  | none => entry s 64 2 n []
  | some c => entry s 64 2 n (leBytes 8 (Config.digest (c.descr.take 72)) ++ leBytes 1 c.mode ++
      leBytes 1 ((if c.conf then 1 else 0) + (if c.strengthen then 2 else 0) + (if c.saveArea then 4 else 0)) ++
      leBytes 2 (s.wgs.filter (fun e => e.2.ctx == n && !e.2.saved)).length ++ leBytes 4 c.fn ++ leBytes 4 1)

/-- Section 3: a queue's status block as it was written last (R379), or what the first write of it would give. -/
def queueEntry (s : State) (q : Nat) : List Byte :=
  let b := (s.queue q).block
  entry s 32 3 q (fit 28 (if b.isEmpty then statusBytes q (s.queue q) else b))

/-- Section 4: a deadline. -/
def deadlineEntry (s : State) (e : Nat × Deadline) : List Byte :=
  entry s 64 4 e.2.place (fit 32 e.2.reqHead ++ leBytes 8 e.2.till ++
    (List.range 6).flatMap (fun k => leBytes 1 ((e.2.choices.filter (fun c => c.2.choice == k)).length)))

/-- A place of section 4: the entry of the deadline that has it, or zeros before the change number. -/
def deadlinePlace (s : State) (n : Nat) : List Byte := (s.dls.find? (·.2.place == n)).elim (entry s 64 4 n []) (deadlineEntry s)

/-- Section 5: an open fault record. -/
def faultEntry (s : State) (r : LogRec) : List Byte :=
  entry s 32 5 r.seqNo (leBytes 8 r.seqNo ++ leBytes 1 r.ctx ++ leBytes 1 r.cls ++ leBytes 2 r.count)

/-- Section 6: error counters, two entries for each die: the first has the correctable and uncorrectable errors of its eight arrays in the
order of `ErrLoc`, the second the scrubber's passes and the drops, which are the part's (log 13). -/
def counterEntry (s : State) (n : Nat) : List Byte :=
  let at_ (m : KMap Nat) (k : Nat) : List Byte := leBytes 8 (kgetD m (16 * (n / 2) + k) 0)
  entry s 256 6 n (if n % 2 = 0 then (List.range 8).flatMap (fun k => at_ s.up.corr k ++ at_ s.up.uncorr k)
    else leBytes 8 s.up.scrubs ++ leBytes 8 s.io.irqDropped ++ leBytes 8 s.io.ideDropped ++ leBytes 8 (kgetD s.io.dies (n / 2) {}).bad ++
      leBytes 8 (kgetD s.io.dies dieLink {}).bad)

/-- Section 7: a quadrant's margins (R405). -/
def marginEntry (s : State) (q : Nat) : List Byte :=
  let a := s.quad q
  entry s 16 7 q (leBytes 4 a.slack ++ leBytes 4 (kgetD s.up.rails (q / 256) 0) ++ leBytes 4 ((if a.degraded then 1 else 0) + (if a.withdrawn then 2 else 0)))

/-- The fields of a die record (R401, Table 21-6), without its nonce and signature: reserved fields are zero (R6). -/
def dieFields (b : List Byte) : List Byte :=
  let b := fit 56 b
  b.take 7 ++ [0] ++ (b.drop 8).take 20 ++ leBytes 4 (leNat ((b.drop 28).take 4) % 16) ++ b.drop 32

/-- Section 8: the die record that has answered an end's challenge, without its signature, with the link's state in the nonce's place (log 13). -/
def topoEntry (s : State) (e : Nat × DieLink) (k : Nat) : List Byte :=
  let st := if e.2.verified then 1 else if e.2.disabled then 2 else 0
  entry s 64 8 (2 * e.1 + k) (dieFields (e.2.end_ k).record ++ leBytes 4 st)

/-- Section 9: versions. -/
def versionEntry (s : State) : List Byte :=
  let r (k : Nat) : SignedRec := kgetD s.up.recs k {}
  entry s 128 9 0 (leBytes 8 (r 0).ver ++ leBytes 8 (r 1).ver ++ leBytes 8 (r 0).sec ++ leBytes 8 (r 1).sec)

/-- The margins section. -/
def marginSection (s : State) : List Byte := section_ s 7 16 ((List.range (4 * Config.cores)).map (marginEntry s))

/-- The sections after the header, for a master or, with a context, for that context's virtual function. -/
def sections (s : State) (vf : Option Nat) : List Byte :=
  match vf with
  | some c => section_ s 2 64 [ctxEntry s c] ++
      section_ s 3 32 (((List.range Config.queueThreads).filter (fun q => (s.queue q).ctx == some c)).map (queueEntry s))
  | none =>
    section_ s 1 64 [ownerEntry s] ++ section_ s 2 64 ((List.range 64).map (ctxEntry s)) ++
    section_ s 3 32 ((List.range Config.queueThreads).map (queueEntry s)) ++ section_ s 4 64 ((List.range 16).map (deadlinePlace s)) ++
    section_ s 5 32 (((s.log.recs.filter (fun r => !r.resolved)).take 256).map (faultEntry s)) ++
    section_ s 6 256 ((List.range (2 * Config.dies)).map (counterEntry s)) ++ marginSection s ++
    section_ s 8 64 ((s.io.dies.flatMap (fun e => [topoEntry s e 0, topoEntry s e 1])).take 12) ++ section_ s 9 128 [versionEntry s]

/-- The whole summary: the header names its magic, its bytes, the number current at its start and its sections. -/
def summary (s : State) (vf : Option Nat) : List Byte :=
  let b := sections s vf
  section_ s 0 64 [entry s 64 0 0 (leBytes 4 0x5A525359 ++ leBytes 4 (80 + b.length) ++ leBytes 4 s.mg.seqNo ++
    leBytes 4 (if vf.isSome then 3 else 10))] ++ b

/-- RESYNC (R397). -/
def execResync (s : State) : Host.Outcome State Fault Refusal :=
  serve s 0x04 8 (fun s r => byMaster s r || (r.vf s).isSome) fun s r =>
    let b := summary s (r.vf s)
    match chanFlats s r.chan .write (r.fld 0 8) b.length, chanStore s r.chan (r.fld 0 8) b with
    | some as, some s' => atHome s as (reply s' r 0 [])
    | _, _ => reply s r 3 []

/-- MARGIN (R394): the margins section, as far as the reply area holds it (DESIGN CHOICE, log 13). -/
def execMargin (s : State) : Host.Outcome State Fault Refusal :=
  serve s 0x3A 0 byMaster fun s r => reply s r 0 (marginSection s)

end Sys2Proof.Machine
end

