-- ==== Sys2Proof/Machine/Ngalan.lean ====
section
/-!
DEFINITION. Messages of the Ngalan die protocol on the wire (R398, Table 21-5): headers, slots and flits, and which messages are good.
What the spec does not place is that of log 13 (DESIGN CHOICE).
-/

namespace Sys2Proof.Machine

/-! ### Headers and slots -/

/-- A message's header, a number of 128 bits (Table 21-5). -/
def msgHeader (m : NgMsg) : Nat :=
  m.operand + m.src * 2 ^ 32 + m.scope * 2 ^ 39 + m.ctx * 2 ^ 42 + m.more * 2 ^ 48 + m.cls * 2 ^ 52 + m.op * 2 ^ 56 + m.tag * 2 ^ 64 + m.addr * 2 ^ 76

/-- The message that a header names, with the bytes of its other slots. -/
def headerMsg (link h : Nat) (data : List Byte) : NgMsg :=
  { link := link, operand := bitsOf h 0 32, src := bitsOf h 32 7, scope := bitsOf h 39 3, ctx := bitsOf h 42 6, more := bitsOf h 48 4,
    cls := bitsOf h 52 4, op := bitsOf h 56 8, tag := bitsOf h 64 12, addr := bitsOf h 76 52, data := data }

/-- Whether a message's fields fit their places, and its bytes the slots that it says it takes. -/
def msgFits (m : NgMsg) : Bool :=
  decide (m.operand < 2 ^ 32) && decide (m.src < 2 ^ 7) && decide (m.scope < 2 ^ 3) && decide (m.ctx < 2 ^ 6) && decide (m.more ≤ 14) &&
  decide (m.cls < 2 ^ 4) && decide (m.op < 2 ^ 8) && decide (m.tag < 2 ^ 12) && decide (m.addr < 2 ^ 52) && decide (m.data.length = 16 * m.more)

/-- The slots of a message: its header, then its bytes, with zeros after them where they end in a slot (log 13). -/
def msgSlots (m : NgMsg) : List (List Byte) :=
  leBytes 16 (msgHeader m) :: (List.range m.more).map (fun k => ((m.data.drop (16 * k)).take 16 ++ List.replicate 16 0).take 16)

/-- The messages that slots hold, and the slots of one that goes on in the next flit. -/
def messagesIn (link : Nat) : Nat → List (List Byte) → List NgMsg × List (List Byte)
  | 0, ss => ([], ss)
  | _ + 1, [] => ([], [])
  | n + 1, h :: ss =>
    let k := bitsOf (leNat h) 48 4
    if ss.length < k then ([], h :: ss)
    else
      let r := messagesIn link n (ss.drop k)
      (headerMsg link (leNat h) (ss.take k).flatten :: r.1, r.2)

/-- A flit (R398): its control slot's credit returns and acknowledgement number, and its message slots, 14 at most; the adapter's 16 bytes are
UCIe's. -/
structure Flit where
  credits : List Nat
  ack : Nat
  slots : List (List Byte)
  deriving DecidableEq, Repr

/-- Slots in groups of 14, one group for each flit. -/
def flitSlots : Nat → List (List Byte) → List (List (List Byte))
  | 0, _ => []
  | _ + 1, [] => []
  | n + 1, ss => ss.take 14 :: flitSlots n (ss.drop 14)

/-- The flits in which this part has sent what it has sent on a link: its messages in order, and a control slot in each flit (DESIGN CHOICE,
log 13: which flit carries which control slot). -/
def linkFlits (s : State) (link : Nat) : List Flit :=
  let ss := (s.io.sent.filter (·.link == link)).flatMap msgSlots
  let cs := s.io.ctl.filter (·.1 == link)
  let gs := flitSlots ss.length ss
  (List.range (Nat.max gs.length cs.length)).map (fun n =>
    let c := cs.getD n (link, [], 0)
    { credits := c.2.1, ack := c.2.2, slots := gs.getD n [] })

/-! ### Classes and opcodes -/

/-- The opcodes of each class, numbered by the model (DESIGN CHOICE, log 13): requests read a line, read it to own it, write a sector under a byte mask
or raise an interrupt, or are atomics from 16 on; the other classes have one opcode. -/
def opKnown (cls op : Nat) : Bool := if cls = 0 then op < 4 || (16 ≤ op && op < 32) else cls < 6 && op == 0

/-- Whether a message is one of the protocol: of a class and opcode that are not reserved, an atomic with a scope of Table 21-5, and a management
message with address 0. One that is not counts as bad (log 13). -/
def msgKnown (m : NgMsg) : Bool :=
  opKnown m.cls m.op && (m.cls != 0 || decide (m.op < 16) || decide (1 ≤ m.scope ∧ m.scope ≤ 5)) && (m.cls != 4 || m.addr == 0)

end Sys2Proof.Machine
end

