-- ==== Sys2Proof/Machine/HostLink.lean ====
section
/-!
DEFINITION. The host link (R388 to R390), device reset (R409, R403), topology discovery (R401), the Ngalan die protocol (R398 to R400)
and device links (R402).
Layouts and numbers that the tables do not give are those of log 13 (DESIGN CHOICE).
-/

namespace Sys2Proof.Machine

/-! ### Host accesses -/

/-- The channel of a function's BAR0 mailbox (R391). -/
def barChan (fn : Nat) : Nat := if fn = 0 then 1 else 4 + fn

/-- Whether a function stands: function 0, or a virtual function that the VF table has (R390). -/
def functionUp (s : State) (fn : Nat) : Bool := fn == 0 || s.up.vfs.contains fn

/-- The flat addresses that an access through BAR2 reaches (R389), or none where it fails. -/
def barFlats (s : State) (a : BarAccess) : Option (List Nat) :=
  if a.fn = 0 then
    if ownerNow s = some 1 ∧ a.off + a.size ≤ 2 ^ 38 then chanFlats s 1 .read a.off a.size else none
  else if a.off + a.size ≤ 2 ^ 38 then chanFlats s (4 + a.fn) (if a.write then .write else .read) a.off a.size
  else none

/-- A host access that no snoop holds (R388, R389): without integrity where IDE is established it is dropped and counted; BAR0 is the
function's mailbox; an access through BAR2 that fails, or of a function that the VF table lacks, reads all ones and writes nothing. -/
def hostDo (a : BarAccess) (s : State) : State :=
  let got (s : State) (v : Nat) : State := { s with io := { s.io with hostData := some v } }
  let failed := if a.write then s else got s (2 ^ (8 * a.size) - 1)
  if 32 < a.fn ∨ a.size = 0 then s
  else if !functionUp s a.fn then failed
  else if (kgetD s.io.funcs a.fn {}).ide && !a.ide then countersChange { s with io := { s.io with ideDropped := s.io.ideDropped + 1 } } 1
  else if a.bar = 0 then
    if 65536 < a.off + a.size then s
    else if a.write then mboxWrite s (barChan a.fn) a.off (leBytes a.size a.value) a.ide
    else got s (leNat (mboxRead s (barChan a.fn) a.off a.size))
  else if a.bar ≠ 2 then s
  else match barFlats s a with
    | none => failed
    | some as =>
      let s' := chanTouch s (if a.fn = 0 then 1 else 4 + a.fn) a.off a.size a.write
      if a.write then homeWrite s' (as.zip (leBytes a.size a.value)) else got s' (leNat (memGets s.mem as))

/-- The flat addresses that a host access writes. -/
def hostFlats (s : State) (a : BarAccess) : List Nat :=
  if a.write && a.bar == 2 && functionUp s a.fn && (!(kgetD s.io.funcs a.fn {}).ide || a.ide) then (barFlats s a).getD [] else []

/-- The host sets a function's MSI-X table size, IDE and TDI state (R388). A TDI leaves RUN through its own event. -/
def setFunction (s : State) (fn vectors : Nat) (ide run : Bool) : State :=
  if 32 < fn ∨ 2048 < vectors then s
  else { s with io := { s.io with funcs := kset s.io.funcs fn { kgetD s.io.funcs fn {} with
    vectors := vectors
    ide := ide
    run := run || (kgetD s.io.funcs fn {}).run } } }

/-- A function-level reset of a virtual function destroys its bound context (R390). -/
def execFunctionLevelReset (vf : Nat) (s : State) : Host.Outcome State Fault Refusal :=
  if vf = 0 then .next s
  else match (kgetD s.io.funcs vf {}).ctx with
    | none => .next s
    | some c => .next (destroyCtx s c)

/-- A TDI leaves RUN: its bound confidential context ends as by an error (R390, R352). -/
def execTdiLeaveRun (vf : Nat) (s : State) : Host.Outcome State Fault Refusal :=
  let f := kgetD s.io.funcs vf {}
  if !f.run then .next s
  else
    let s := { s with io := { s.io with funcs := kset s.io.funcs vf { f with run := false } } }
    match f.ctx with
    | some c => .next (if (s.ctx c).conf then errorContext s c 0 0 else s)
    | none => .next s

/-! ### Reset -/

/-- A signed record once what is staged has taken force, or is dropped where it fails (R403). -/
def takeStaged (kind : Nat) (r : SignedRec) : SignedRec :=
  match r.staged with
  | some b => if authentic [kind] b then { ver := (recordVersion b).1, sec := (recordVersion b).2.1, bytes := b } else { r with staged := none }
  | none => r

/-- The signed records that take force at a reset. -/
def takenRecs (s : State) : KMap SignedRec := s.up.recs.map (fun e => (e.1, takeStaged e.1 e.2))

/-- Whether one of some kinds of record changes at a reset. -/
def takesForce (s : State) (kinds : List Nat) : Bool := kinds.any (fun k => (s.signed k).staged.any (authentic [k]))

/-- The links that send a challenge from each end at reset, each with the number of its nonce's free value (R401). -/
def challenges (s : State) : KMap DieLink :=
  let e (n : Nat) : DieEnd := { nonce := s.run.fresh + n, asked := s.now }
  (List.range (if Config.twoDies then 3 else 1)).map (fun n => (n, { end0 := e (2 * n), end1 := e (2 * n + 1) }))

/-- Reset (R395, R401, R403, R409): DRAM and the capacity tier are zero, there is no owner and no work, staged records take force, and
discovery starts. Host memory and link windows keep their contents; the model's own fields go on. -/
def execDeviceReset (s : State) : Host.Outcome State Fault Refusal :=
  let recs := takenRecs s
  let bytes (k : Nat) : List Byte := (kgetD recs k {}).bytes
  let masters := if takesForce s [1] then [1, 2, 3].filter (Config.cfgMaster (bytes 1)) else s.up.masters
  let vfs := if takesForce s [1, 2] then ((List.range 32).map (· + 1)).filter (Config.cfgFunction (bytes 1) (bytes 2)) else s.up.vfs
  .next { mem := s.mem.filter (fun e => 2 ^ 50 ≤ e.1 && e.1 < 2 ^ 52)
          io := { dies := challenges s, irqs := s.io.irqs, sent := s.io.sent, ctl := s.io.ctl }
          up := { recs := recs, masters := masters, vfs := vfs }
          now := s.now
          run := { s.run with cur := none, fresh := s.run.fresh + 16 } }

/-! ### Discovery -/

/-- Whether a die record keeps Table 21-6, carries a nonce, and verifies under a key that the configuration names (R399, R401); what stands in a
reserved field is ignored (R6). -/
def recordOk (s : State) (b : List Byte) (nonce : Nat) : Bool :=
  let f := objF b
  b.length == 2564 && f 0 4 == 0x5A444945 && f 4 1 ≤ 2 && f 5 1 ≤ 127 && 1 ≤ f 6 1 && f 6 1 ≤ 16 &&
  f 56 8 == Config.freeNat nonce % 2 ^ 64 && Config.dieKey (s.signed 1).bytes (s.signed 3).bytes (f 48 8) && Config.signatureOk b

/-- Whether a link is verified. -/
def linkUp (s : State) (n : Nat) : Bool := (kget? s.io.dies n).any (·.verified)

/-- Whether a compute die has a verified path to the host die: link 0 joins die 0 to it, link 1 die 1, link 2 the compute dies. -/
def pathUp (s : State) (die : Nat) : Bool := linkUp s die || (linkUp s 2 && linkUp s (1 - die))

/-- Once every link is verified or disabled discovery ends: work is accepted, and a die with no path is held in reset (R401). -/
def endDiscovery (s : State) : State :=
  if s.up.accepting || !s.io.dies.all (fun e => e.2.verified || e.2.disabled) then s
  else
    let held := (List.range Config.dies).filter (fun d => !pathUp s d)
    let s := (held.flatMap (fun d => rangeFrom (256 * d) (256 * d + 256))).foldl withdraw s
    { s with up := { s.up with accepting := held.length < Config.dies, held := held } }

/-- A peer answers the challenge of one end of a link with its die record (R401). Ends are numbered twice the link and the end (log 13). -/
def execTopologyDiscovery (n : Nat) (rec_ : List Byte) (s : State) : Host.Outcome State Fault Refusal :=
  match kget? s.io.dies (n / 2) with
  | none => .next s
  | some l =>
    let e := l.end_ n
    if e.verified || l.disabled then .next s
    else
      let ok := recordOk s rec_ e.nonce
      .next (endDiscovery (noteChange (modLink s (n / 2) (fun l =>
        { l.setEnd n { e with record := rec_, verified := ok } with disabled := !ok })) 8 n))

/-- A die record is missing after 100 ms (R401). -/
def execDieRecordTimeout (n : Nat) (s : State) : Host.Outcome State Fault Refusal :=
  match kget? s.io.dies (n / 2) with
  | none => .next s
  | some l =>
    if (l.end_ n).verified || l.disabled || s.now < (l.end_ n).asked + 240000000 then .next s
    else .next (endDiscovery (noteChange (modLink s (n / 2) (fun l => { l with disabled := true })) 8 n))

/-! ### Device links -/

/-- The owner binds or unbinds one of the 64 remote windows (R402). -/
def setWindow (s : State) (n : Nat) (w : Option Window) : State :=
  if 64 ≤ n then s
  else { s with io := { s.io with windows := match w with | some w => kset s.io.windows n w | none => kdel s.io.windows n } }

/-- The owner sets or drops an export entry (R402). -/
def setExport (s : State) (n : Nat) (e : Option Export) : State :=
  { s with io := { s.io with exports := match e with | some e => kset s.io.exports n e | none => kdel s.io.exports n } }

/-- The flat addresses of an inbound access, in its export and with its right (R402), and whether they are exact cells. -/
def exportFlats (s : State) (e : Export) (a : LinkAccess) : Option (List Nat × Bool) :=
  let right := match a.kind with | 0 => e.r | 1 => e.w | _ => e.atomic
  let acc : Acc := match a.kind with | 0 => .read | 1 => .write | _ => .atomic
  if !right || e.len < a.off + a.size || !resident s e.ctx then none
  else if e.common then
    let l := (rangeFrom (e.base + a.off) (e.base + a.off + a.size)).map (commonAt (s.ctx e.ctx))
    (l.mapM id).map (fun l => (l.map (·.1), l.any (·.2)))
  else
    ((rangeFrom (e.base + a.off) (e.base + a.off + a.size)).mapM (fun va =>
      match (queueLoc s e.ctx va acc).1 with | .ok pa => some pa | .error _ => none)).map (fun l => (l, false))

/-- What an atomic of a peer does (R402): operation and operand, or none where it is no operation of Table 14-13 or R288 or does not
suit its place. -/
def linkOp (a : LinkAccess) (exact : Bool) : Option (Nat × Nat) :=
  match a.kind with
  | 2 => if a.op < 16 && atomZ a.op == a.size && !exact then some (a.op, a.value) else none
  | 3 => if exact && a.size == 32 then some (16, wrapN (sextN a.value 32 * 2 ^ 128) 256) else none
  | 4 => if exact && a.size == 32 then (exactOperand (a.value % 2 ^ 32)).map (fun v => (16, wrapN v 256)) else none
  | _ => none

/-- An access of a device-link peer that no snoop holds (R402): answered with data, or with an error that its issuer takes as PROT. -/
def linkDo (a : LinkAccess) (s : State) : State :=
  let done (s : State) (st v : Nat) : State := { s with io := { s.io with linkData := some (st, v) } }
  match (kget? s.io.exports a.exp).bind (fun e => exportFlats s e a) with
  | none => done s 1 0
  | some (as, exact) =>
    let old := leNat (memGets s.mem as)
    let touch (write : Bool) : State := match (kget? s.io.exports a.exp).filter (fun e => !e.common) with
      | some e => touchRange s e.ctx (e.base + a.off) a.size write
      | none => s
    match a.kind with
    | 0 => done (touch false) 0 old
    | 1 => if exact then done s 1 0 else done (homeWrite (touch true) (as.zip (leBytes a.size a.value))) 0 0
    | _ => match linkOp a exact with
      | none => done s 1 0
      | some (op, v) =>
        if as.headD 0 % a.size ≠ 0 then done s 1 0
        else done (homeRmw (touch true) (as.zip (leBytes a.size (atomV op old v a.cmp)))) 0 old

/-- The flat addresses that such an access writes. -/
def linkFlats (s : State) (a : LinkAccess) : List Nat :=
  match (kget? s.io.exports a.exp).bind (fun e => exportFlats s e a) with
  | some (as, exact) =>
    if a.kind = 0 || (a.kind == 1 && exact) || (2 ≤ a.kind && ((linkOp a exact).isNone || as.headD 0 % a.size != 0)) then [] else as
  | none => []

/-! ### Accesses of the outside that meet another die's copy (R400) -/

/-- Whether two accesses come from one party. -/
def OutAccess.sameParty : OutAccess → OutAccess → Bool
  | .host _, .host _ | .link _, .link _ => true
  | _, _ => false

/-- The flat addresses that an access writes. -/
def outFlats (s : State) : OutAccess → List Nat
  | .host a => hostFlats s a
  | .link a => linkFlats s a

/-- Carries an access out, or keeps it behind an earlier one of its party, or until the other compute die holds no copy of what it writes;
the snoops go out (R400). -/
def outAccess (s : State) (x : OutAccess) : State :=
  let keep (s : State) : State := { s with io := { s.io with waits := s.io.waits ++ [x] } }
  if s.io.waits.any (·.sameParty x) then keep s
  else match copiesOf s (outFlats s x) with
    | [] => (match x with | .host a => hostDo a s | .link a => linkDo a s)
    | ls => keep (ls.foldl snoop s)

/-- Tries the accesses that wait again, oldest first. -/
def retryOuts (s : State) : State := s.io.waits.foldl outAccess { s with io := { s.io with waits := [] } }

/-- A host access through a BAR (R388, R389). -/
def execHostBarAccess (a : BarAccess) (s : State) : Host.Outcome State Fault Refusal := .next (outAccess s (.host a))

/-- An access of a device-link peer (R402). -/
def execInboundLinkAccess (a : LinkAccess) (s : State) : Host.Outcome State Fault Refusal := .next (outAccess s (.link a))

/-! ### Sending and receiving -/

/-- Sends what waits, in order. -/
def flush (s : State) : State := s.io.outbox.foldl send { s with io := { s.io with outbox := [] } }

/-- A control slot returns credits and carries an acknowledgement number (R398). -/
def execControlSlot (link : Nat) (credits : List Nat) (ack : Nat) (s : State) : Host.Outcome State Fault Refusal :=
  .next (flush (modLink s link (fun l => { l with credits := l.credits.zipIdx.map (fun e => e.1 + credits.getD e.2 0), ack := ack })))

/-- A message takes its slots of what its link has granted (R399). -/
def received (s : State) (m : NgMsg) : State :=
  modLink s m.link (fun l => { l with granted := lessCredits l.granted m, got := l.got + 1 })

/-- A message's slots are free again: a control slot returns its credits and acknowledges what has been received (R398, R399). -/
def returned (s : State) (m : NgMsg) : State :=
  let s := modLink s m.link (fun l => { l with granted := l.granted.set m.cls (l.granted.getD m.cls 0 + (m.more + 1)) })
  { s with io := { s.io with ctl := s.io.ctl ++ [(m.link, (List.replicate 6 0).set m.cls (m.more + 1), (kgetD s.io.dies m.link {}).got)] } }

/-- A message that is sunk at once. -/
def sunk (s : State) (m : NgMsg) : State := returned (received s m) m

/-- The answer to a message: class, opcode 0 and bytes. -/
def answer (s : State) (m : NgMsg) (cls : Nat) (data : List Byte) : State :=
  send s { m with cls := cls, op := 0, data := data, more := (data.length + 15) / 16 }

/-- Whether a message arrives: it fits Table 21-5 and is of the protocol, and its link is up. -/
def arrives (s : State) (m : NgMsg) (cls : Nat) : Bool :=
  msgFits m && msgKnown m && m.cls == cls && (kget? s.io.dies m.link).elim false (fun l => !l.disabled)

/-- A line's bytes. -/
def lineBytes (s : State) (pa : Nat) : List Byte := memGets s.mem (rangeFrom (pa / 128 * 128) (pa / 128 * 128 + 128))

/-- Applies a write or an atomic of the other die at the home, and answers it. -/
def applyReq (s : State) (m : NgMsg) : State :=
  if m.op = 2 then
    let base := m.addr / 32 * 32
    answer (homeWrite s ((lanesOf (BitVec.ofNat 32 m.operand)).map (fun i => (base + i, m.data.getD i 0)))) m 2 []
  else
    let op := m.op - 16
    let z := atomZ op
    let old := memNat s.mem m.addr z
    let v := if z = 8 then leNat (m.data.take 8) else m.operand
    let cmp := leNat ((m.data.drop 8).take z)
    answer (homeRmw s ((rangeFrom m.addr (m.addr + z)).zip (leBytes z (atomV op old v cmp)))) m 3 (leBytes z old)

/-- Whether a request waits: behind an earlier one of its link to its line (R399), or for the answer to a snoop of its line (R400). -/
def reqWaits (s : State) (m : NgMsg) : Bool :=
  (kgetD s.io.dies m.link {}).pend.any (fun x => x.cls == 0 && x.addr / 128 == m.addr / 128) ||
  (kgetD s.io.dies dieLink {}).pend.any (fun x => x.cls == 1 && x.addr / 128 == m.addr / 128)

/-- Keeps a request. -/
def keepReq (s : State) (m : NgMsg) : State := modLink s m.link (fun l => { l with pend := l.pend ++ [m] })

/-- Whether a request changes memory. -/
def msgWrites (m : NgMsg) : Bool := m.op == 2 || decide (16 ≤ m.op)

/-- A request that has arrived (R399, R400): a read is answered with the line, of which the other compute die then holds a copy; a write or
atomic on a line of which that die holds a copy waits for the answer to a snoop. -/
def request (s : State) (m : NgMsg) : State :=
  if reqWaits s m then keepReq s m
  else if m.op = 3 then returned (answer (raiseVector s (s.ctx m.ctx).fn m.operand) m 2 []) m
  else if !populated s m.addr || (16 ≤ m.op && m.addr % atomZ (m.op - 16) != 0) then returned (answer s m 5 []) m
  else if !msgWrites m then returned (answer (if m.link = dieLink then setDir s m.addr (m.op + 1) else s) m 3 (lineBytes s m.addr)) m
  else if dirOf s m.addr = 0 then returned (applyReq s m) m
  else keepReq (snoop s (m.addr / 128)) m

/-- A request (R399). -/
def execNgalanReq (m : NgMsg) (s : State) : Host.Outcome State Fault Refusal :=
  if !arrives s m 0 then .next s else .next (request (received s m) m)

/-- Tries the requests that wait again, link by link in their order. -/
def retryReqs (s : State) : State :=
  (s.io.dies.map (·.1)).foldl (fun s n =>
    let p := (kgetD s.io.dies n {}).pend
    (p.filter (·.cls == 0)).foldl request (modLink s n (fun l => { l with pend := p.filter (·.cls != 0) }))) s

/-- The other compute die holds no copy of a line any more (R400): the device's own bytes for it are written, and what waited goes on. -/
def settled (s : State) (pa : Nat) : State :=
  let s := setDir s pa 0
  let ws := s.io.parked.filter (fun e => e.1 / 128 == pa / 128)
  let s := if ws.isEmpty then s else homeWrite { s with io := { s.io with parked := s.io.parked.filter (fun e => e.1 / 128 != pa / 128) } } ws
  retryOuts (retryReqs s)

/-- A snoop (R400): this die's copy is invalid, and the snoop is acknowledged. Memory holds each line at its home, so that nothing else follows. -/
def execNgalanSnp (m : NgMsg) (s : State) : Host.Outcome State Fault Refusal :=
  if !arrives s m 1 then .next s else .next (answer (sunk s m) m 2 [])

/-- The snoop that an answer with a tag is to. -/
def waiting (s : State) (m : NgMsg) : Option NgMsg := (kgetD s.io.dies m.link {}).pend.find? (fun x => x.cls == 1 && x.tag == m.tag)

/-- Takes an answered snoop off a link. -/
def unwait (s : State) (m : NgMsg) : State :=
  modLink s m.link (fun l => { l with pend := l.pend.filter (fun x => !(x.cls == 1 && x.tag == m.tag)) })

/-- A response (R399, R400): the invalidation is acknowledged, and what waits for it goes on. One that nothing waits for
is sunk. -/
def execNgalanRsp (m : NgMsg) (s : State) : Host.Outcome State Fault Refusal :=
  if !arrives s m 2 then .next s
  else match waiting s m with
    | some x => .next (settled (unwait (sunk s m) m) x.addr)
    | none => .next (sunk s m)

/-- Data (R399): the other die gives an owned line back; what waits for it follows. -/
def execNgalanDat (m : NgMsg) (s : State) : Host.Outcome State Fault Refusal :=
  if !arrives s m 3 then .next s
  else match waiting s m with
    | some x =>
      let base := x.addr / 128 * 128
      let s := unwait (sunk s m) m
      .next (settled (if dirOf s x.addr = 2 then homeWrite s ((rangeFrom base (base + 128)).zip (m.data.take 128)) else s) x.addr)
    | none => .next (sunk s m)

/-- Whether a message comes by a port of the device links (R402): their numbers are 16 to 31 (log 13). -/
def fromPort (m : NgMsg) : Bool := decide (16 ≤ m.link ∧ m.link < 32)

/-- A management message (R391, R402): by a device link's port, a fabric manager's bytes for its channel at the offset that the operand names
(log 13); one of a die link is sunk. -/
def execNgalanMgt (m : NgMsg) (s : State) : Host.Outcome State Fault Refusal :=
  if fromPort m && msgFits m && msgKnown m && m.cls == 4 then .next (mboxWrite s 3 m.operand m.data false)
  else if arrives s m 4 then .next (sunk s m)
  else .next s

/-- An error answer to a snoop: the requests that wait for it fail, and their issuers are told (R398); what else waits snoops again. -/
def execNgalanErr (m : NgMsg) (s : State) : Host.Outcome State Fault Refusal :=
  if !arrives s m 5 then .next s
  else match waiting s m with
    | none => .next (sunk s m)
    | some x =>
      let s := unwait (sunk s m) m
      let hit (y : NgMsg) : Bool := y.cls == 0 && msgWrites y && y.addr / 128 == x.addr / 128
      let ys := s.io.dies.flatMap (fun e => e.2.pend.filter hit)
      let s := { s with io := { s.io with dies := s.io.dies.map (fun e => (e.1, { e.2 with pend := e.2.pend.filter (fun y => !hit y) })) } }
      .next (retryOuts (retryReqs (ys.foldl (fun s y => returned (answer s y 5 []) y) s)))

/-- A message of a reserved class or opcode is dropped and counted; after 16 within 1 ms the link is retrained (R398). -/
def execNgalanBadMessage (m : NgMsg) (s : State) : Host.Outcome State Fault Refusal :=
  if msgKnown m then .next s
  else .next (countersChange (modLink s m.link (fun l =>
    let ts := l.badTimes.filter (fun t => s.now < t + 2400000) ++ [s.now]
    if 16 ≤ ts.length then { l with bad := l.bad + 1, badTimes := [], retrains := l.retrains + 1 }
    else { l with bad := l.bad + 1, badTimes := ts })) 1)

end Sys2Proof.Machine
end

