-- ==== Sys2Proof/Machine/Sync.lean ====
section
/-!
DEFINITION. The SYN instructions: `fence` (R328), `wait` (R269), and the workgroup barriers (R85 to R90).
The instants at which these effects happen are those of log 11 (DEDUCED).
-/

namespace Sys2Proof.Machine

/-- `fence` (R328): commits the group's quanta; a release kind holds the group until what comes before it is visible at its scope; an acquire
kind orders the thread's later loads after its earlier ones. -/
def execFence (x : LForm) (s : State) : Host.Outcome State Fault Refusal :=
  withIssuer s fun th k =>
    let i := issL x th k
    operate s i [] [] readActive fun s1 _ => raising s s1 i (commitPath (s1.th th) ((s1.th th).grp k).mask) fun s =>
      let t := s.th th
      let sc := strong s t.pl.ctx x.ty
      let s := commitLanes s th (t.grp k).mask
      let bound := s.run.nextId
      let s := if x.rn = 2 then s else (newFlight s th [] [] .fence).2
      if x.rn ≠ 1 then waitFor s th k (.drained bound sc) i.size i.st else finish s i 0

/-- `wait` (R269). -/
def execWait (x : LForm) (s : State) : Host.Outcome State Fault Refusal :=
  withIssuer s fun th k =>
    let i := issL x th k
    operate s i [srcA x] [] readActive fun s1 g =>
      if 255 < g.v 0 0 then illegalAt s th k g.act
      else waitFor s1 th k (.path (x.b.toNat % 8) (g.v 0 0)) i.size (i.st + g.cost)

/-- A lane arrives at a barrier: its quantum is closed and its arrival bit set (R87). -/
def arriveLane (t : Strand) (id l : Nat) : Strand :=
  let es := openEntries t.qn (1#32 <<< l)
  { t with qn := { dropOpen t.qn (1#32 <<< l) with closed := t.qn.closed ++ es.map (fun e => (id, e)) },
           ln := { t.ln with arr := t.ln.arr.set id (t.arrOf id ||| (1#32 <<< l)) } }

/-- Lets lanes arrive one after another; answers those from the first one on whose arrival bit is set already (R87). -/
def arriveLanes (id : Nat) : List Nat → Strand → Strand × List Nat
  | [], t => (t, [])
  | l :: ls, t => if (t.arrOf id).getLsbD l then (t, l :: ls) else arriveLanes id ls (arriveLane t id l)

/-- The first arrival of a phase fixes its count (R87). -/
def fixCount (word count : Nat) : Nat :=
  if bitsOf word 8 6 = 0 ∧ ¬ bitOf word 14 then setBits (setBits word 8 6 count) 14 1 (if count = 0 then 1 else 0) else word

/-- The path that an arrival's closed quanta will raise at the phase's release, where no earlier arrival of the strand has room for them
already (R267, R316). -/
def arrivalPath (t : Strand) (id : Nat) (act : Word) : List Nat :=
  if t.qn.closed.any (·.1 == id) then [] else commitPath t act

/-- `bar` and `bar.arrive` (R87). An arrival that must wait for the next phase holds the group with its remaining lanes; a `bar` gives up the
issue slot for it, and a `bar.arrive` keeps it (R81). -/
def barOp (s : State) (x : LForm) (waits : Bool) : Host.Outcome State Fault Refusal :=
  withIssuer s fun th k =>
    let i := issL x th k
    operate s i [srcA x, srcB x] [] readActive fun s1 g =>
      let id := g.v 0 0
      let count := g.v 1 0
      if 7 < id ∨ 32 < count then illegalAt s th k g.act
      else
        let t := s1.th th
        let again := match (t.grp k).hold with | .phase _ _ _ => true | _ => false
        let act := match (t.grp k).hold with | .phase _ rest _ => rest | _ => g.act
        if again && ((fullPath s1 th (arrivalPath t id act)).isSome || relWaits s1 th s1.run.nextId act 2) then holdGroup s1 th k (.phase id act waits) false waits i.size
        else raising s s1 i (arrivalPath t id act) fun s1 => releasing s s1 i act 2 fun s1 =>
        let s1 := hbArrive s1 (barKey t.pl.wg id) (comesAfter s1 th act)
        match arriveLanes id (lanesOf act) t with
        | (t, l :: ls) => holdGroup (s1.setTh th t) th k (.phase id (maskOf (l :: ls)) waits) false waits i.size
        | (t, []) =>
          let s2 := (s1.setTh th t).modWg t.pl.wg (fun w => { w with bars := w.bars.set id (fixCount (w.bars.getD id 0) count) })
          let s2 := barEval s2 t.pl.wg id
          if waits then waitFor s2 th k (.barrier id) i.size (i.st + g.cost) else finish s2 i g.cost

/-- `bar` (R87). -/
def execBar (x : LForm) (s : State) : Host.Outcome State Fault Refusal := barOp s x true
/-- `bar.arrive` (R87). -/
def execBarArrive (x : LForm) (s : State) : Host.Outcome State Fault Refusal := barOp s x false

/-- `bar.wait` (R87). -/
def execBarWait (x : LForm) (s : State) : Host.Outcome State Fault Refusal :=
  withIssuer s fun th k =>
    let i := issL x th k
    operate s i [srcA x] [] readActive fun s1 g =>
      if 7 < g.v 0 0 then illegalAt s th k g.act
      else waitFor s1 th k (.barrier (g.v 0 0)) i.size (i.st + g.cost)

end Sys2Proof.Machine
end

