-- ==== Sys2Proof/Machine/Dispatch.lean ====
section
/-!
DEFINITION. One arm for each constructor of Instr: a direct call of its meaning.
-/

namespace Sys2Proof.Machine

/-- The meaning of one operation or event: an encoded instruction acts for the thread at issue, an event happens to what it
names. -/
def exec (i : Instr) (s : State) : Host.Outcome State Fault Refusal :=
  match i with
  | .clausePick q => Sys2Proof.Machine.execClausePick q s
  | .starvationGuard q => Sys2Proof.Machine.execStarvationGuard q s
  | .groupRotation th => Sys2Proof.Machine.execGroupRotation th s
  | .controlCorePick n => Sys2Proof.Machine.execControlCorePick n s
  | .unMov x => Sys2Proof.Machine.execUnMov x s
  | .unNot x => Sys2Proof.Machine.execUnNot x s
  | .unNeg x => Sys2Proof.Machine.execUnNeg x s
  | .unAbs x => Sys2Proof.Machine.execUnAbs x s
  | .unPopc x => Sys2Proof.Machine.execUnPopc x s
  | .unClz x => Sys2Proof.Machine.execUnClz x s
  | .unBrev x => Sys2Proof.Machine.execUnBrev x s
  | .fabs x => Sys2Proof.Machine.execFabs x s
  | .ctlsNop st => Sys2Proof.Machine.execCtlsNop st s
  | .ctlsYield st => Sys2Proof.Machine.execCtlsYield st s
  | .ctlsKnot st => Sys2Proof.Machine.execCtlsKnot st s
  | .ctlsRet st => Sys2Proof.Machine.execCtlsRet st s
  | .ctlsExit st => Sys2Proof.Machine.execCtlsExit st s
  | .ctlsDone st => Sys2Proof.Machine.execCtlsDone st s
  | .ctlsBrk st => Sys2Proof.Machine.execCtlsBrk st s
  | .ctlsTake st => Sys2Proof.Machine.execCtlsTake st s
  | .brs x => Sys2Proof.Machine.execBrs x s
  | .ldi x => Sys2Proof.Machine.execLdi x s
  | .add x => Sys2Proof.Machine.execAdd x s
  | .sub x => Sys2Proof.Machine.execSub x s
  | .mul x => Sys2Proof.Machine.execMul x s
  | .mulh x => Sys2Proof.Machine.execMulh x s
  | .mulhu x => Sys2Proof.Machine.execMulhu x s
  | .mad x => Sys2Proof.Machine.execMad x s
  | .min x => Sys2Proof.Machine.execMin x s
  | .max x => Sys2Proof.Machine.execMax x s
  | .minu x => Sys2Proof.Machine.execMinu x s
  | .maxu x => Sys2Proof.Machine.execMaxu x s
  | .abs x => Sys2Proof.Machine.execAbs x s
  | .neg x => Sys2Proof.Machine.execNeg x s
  | .and x => Sys2Proof.Machine.execAnd x s
  | .or x => Sys2Proof.Machine.execOr x s
  | .xor x => Sys2Proof.Machine.execXor x s
  | .not x => Sys2Proof.Machine.execNot x s
  | .tbl3 x => Sys2Proof.Machine.execTbl3 x s
  | .shl x => Sys2Proof.Machine.execShl x s
  | .shr x => Sys2Proof.Machine.execShr x s
  | .sar x => Sys2Proof.Machine.execSar x s
  | .rotl x => Sys2Proof.Machine.execRotl x s
  | .bfe x => Sys2Proof.Machine.execBfe x s
  | .bfeu x => Sys2Proof.Machine.execBfeu x s
  | .bfi x => Sys2Proof.Machine.execBfi x s
  | .clz x => Sys2Proof.Machine.execClz x s
  | .popc x => Sys2Proof.Machine.execPopc x s
  | .brev x => Sys2Proof.Machine.execBrev x s
  | .mov x => Sys2Proof.Machine.execMov x s
  | .dot4 x => Sys2Proof.Machine.execDot4 x s
  | .add64 x => Sys2Proof.Machine.execAdd64 x s
  | .sub64 x => Sys2Proof.Machine.execSub64 x s
  | .lea x => Sys2Proof.Machine.execLea x s
  | .leaCode x => Sys2Proof.Machine.execLeaCode x s
  | .mov64 x => Sys2Proof.Machine.execMov64 x s
  | .shl64 x => Sys2Proof.Machine.execShl64 x s
  | .shr64 x => Sys2Proof.Machine.execShr64 x s
  | .apoff x => Sys2Proof.Machine.execApoff x s
  | .apgen x => Sys2Proof.Machine.execApgen x s
  | .apclass x => Sys2Proof.Machine.execApclass x s
  | .fadd x => Sys2Proof.Machine.execFadd x s
  | .fsub x => Sys2Proof.Machine.execFsub x s
  | .fmul x => Sys2Proof.Machine.execFmul x s
  | .fma x => Sys2Proof.Machine.execFma x s
  | .fnma x => Sys2Proof.Machine.execFnma x s
  | .fmin x => Sys2Proof.Machine.execFmin x s
  | .fmax x => Sys2Proof.Machine.execFmax x s
  | .fround x => Sys2Proof.Machine.execFround x s
  | .fclamp x => Sys2Proof.Machine.execFclamp x s
  | .fdot2 x => Sys2Proof.Machine.execFdot2 x s
  | .frcp x => Sys2Proof.Machine.execFrcp x s
  | .frsq x => Sys2Proof.Machine.execFrsq x s
  | .fsqrt x => Sys2Proof.Machine.execFsqrt x s
  | .fexp2 x => Sys2Proof.Machine.execFexp2 x s
  | .flog2 x => Sys2Proof.Machine.execFlog2 x s
  | .fsin x => Sys2Proof.Machine.execFsin x s
  | .fcos x => Sys2Proof.Machine.execFcos x s
  | .ftanh x => Sys2Proof.Machine.execFtanh x s
  | .fcvt x => Sys2Proof.Machine.execFcvt x s
  | .f2i x => Sys2Proof.Machine.execF2i x s
  | .i2f x => Sys2Proof.Machine.execI2f x s
  | .pack2 x => Sys2Proof.Machine.execPack2 x s
  | .unpack2 x => Sys2Proof.Machine.execUnpack2 x s
  | .nadd x => Sys2Proof.Machine.execNadd x s
  | .nmul x => Sys2Proof.Machine.execNmul x s
  | .nfma x => Sys2Proof.Machine.execNfma x s
  | .nmin x => Sys2Proof.Machine.execNmin x s
  | .nmax x => Sys2Proof.Machine.execNmax x s
  | .npack x => Sys2Proof.Machine.execNpack x s
  | .nunpack x => Sys2Proof.Machine.execNunpack x s
  | .ncvt x => Sys2Proof.Machine.execNcvt x s
  | .icmp x => Sys2Proof.Machine.execIcmp x s
  | .icmpu x => Sys2Proof.Machine.execIcmpu x s
  | .fcmp x => Sys2Proof.Machine.execFcmp x s
  | .fclass x => Sys2Proof.Machine.execFclass x s
  | .kand x => Sys2Proof.Machine.execKand x s
  | .kor x => Sys2Proof.Machine.execKor x s
  | .kxor x => Sys2Proof.Machine.execKxor x s
  | .kinv x => Sys2Proof.Machine.execKinv x s
  | .kmov x => Sys2Proof.Machine.execKmov x s
  | .kpop x => Sys2Proof.Machine.execKpop x s
  | .lxch x => Sys2Proof.Machine.execLxch x s
  | .vote x => Sys2Proof.Machine.execVote x s
  | .redux x => Sys2Proof.Machine.execRedux x s
  | .scan x => Sys2Proof.Machine.execScan x s
  | .compress x => Sys2Proof.Machine.execCompress x s
  | .expand x => Sys2Proof.Machine.execExpand x s
  | .isect x => Sys2Proof.Machine.execIsect x s
  | .part x => Sys2Proof.Machine.execPart x s
  | .rdlane x => Sys2Proof.Machine.execRdlane x s
  | .bcast x => Sys2Proof.Machine.execBcast x s
  | .qswap x => Sys2Proof.Machine.execQswap x s
  | .qbcast x => Sys2Proof.Machine.execQbcast x s
  | .qred x => Sys2Proof.Machine.execQred x s
  | .nfset x => Sys2Proof.Machine.execNfset x s
  | .nfget x => Sys2Proof.Machine.execNfget x s
  | .cbld x => Sys2Proof.Machine.execCbld x s
  | .cbldInstant f => Sys2Proof.Machine.execCbldInstant f s
  | .cbrd x => Sys2Proof.Machine.execCbrd x s
  | .lqset x => Sys2Proof.Machine.execLqset x s
  | .lqclr x => Sys2Proof.Machine.execLqclr x s
  | .ld x => Sys2Proof.Machine.execLd x s
  | .loadDataReturn f => Sys2Proof.Machine.execLoadDataReturn f s
  | .remotePromotion f => Sys2Proof.Machine.execRemotePromotion f s
  | .st x => Sys2Proof.Machine.execSt x s
  | .lde x => Sys2Proof.Machine.execLde x s
  | .ste x => Sys2Proof.Machine.execSte x s
  | .cst x => Sys2Proof.Machine.execCst x s
  | .prefetch x => Sys2Proof.Machine.execPrefetch x s
  | .atom x => Sys2Proof.Machine.execAtom x s
  | .red x => Sys2Proof.Machine.execRed x s
  | .atomicPerform f => Sys2Proof.Machine.execAtomicPerform f s
  | .fence x => Sys2Proof.Machine.execFence x s
  | .storeApply f k => Sys2Proof.Machine.execStoreApply f k s
  | .wait x => Sys2Proof.Machine.execWait x s
  | .bar x => Sys2Proof.Machine.execBar x s
  | .barArrive x => Sys2Proof.Machine.execBarArrive x s
  | .barWait x => Sys2Proof.Machine.execBarWait x s
  | .cmAdd x => Sys2Proof.Machine.execCmAdd x s
  | .cmMax x => Sys2Proof.Machine.execCmMax x s
  | .cmAxpy x => Sys2Proof.Machine.execCmAxpy x s
  | .cmScale x => Sys2Proof.Machine.execCmScale x s
  | .cmFill x => Sys2Proof.Machine.execCmFill x s
  | .cmSum x => Sys2Proof.Machine.execCmSum x s
  | .cmRangeCompletion f => Sys2Proof.Machine.execCmRangeCompletion f s
  | .cpy x => Sys2Proof.Machine.execCpy x s
  | .cpyt x => Sys2Proof.Machine.execCpyt x s
  | .dcpy x => Sys2Proof.Machine.execDcpy x s
  | .ecpy x => Sys2Proof.Machine.execEcpy x s
  | .copyCompletion f => Sys2Proof.Machine.execCopyCompletion f s
  | .abset x => Sys2Proof.Machine.execAbset x s
  | .abdecl x => Sys2Proof.Machine.execAbdecl x s
  | .abarr x => Sys2Proof.Machine.execAbarr x s
  | .arrivalPerform f => Sys2Proof.Machine.execArrivalPerform f s
  | .abwait x => Sys2Proof.Machine.execAbwait x s
  | .abtest x => Sys2Proof.Machine.execAbtest x s
  | .fget x => Sys2Proof.Machine.execFget x s
  | .fgetCompletion f => Sys2Proof.Machine.execFgetCompletion f s
  | .hset x => Sys2Proof.Machine.execHset x s
  | .hinv x => Sys2Proof.Machine.execHinv x s
  | .hget x => Sys2Proof.Machine.execHget x s
  | .spOpen x => Sys2Proof.Machine.execSpOpen x s
  | .spSeed x => Sys2Proof.Machine.execSpSeed x s
  | .seedRecordUnit f => Sys2Proof.Machine.execSeedRecordUnit f s
  | .spMma x => Sys2Proof.Machine.execSpMma x s
  | .spJoinKj x => Sys2Proof.Machine.execSpJoinKj x s
  | .spJoinRec x => Sys2Proof.Machine.execSpJoinRec x s
  | .spJoinPair x => Sys2Proof.Machine.execSpJoinPair x s
  | .spGrp x => Sys2Proof.Machine.execSpGrp x s
  | .spliceUnit f => Sys2Proof.Machine.execSpliceUnit f s
  | .spDrain x => Sys2Proof.Machine.execSpDrain x s
  | .drainCompletion f => Sys2Proof.Machine.execDrainCompletion f s
  | .spClear x => Sys2Proof.Machine.execSpClear x s
  | .spClose x => Sys2Proof.Machine.execSpClose x s
  | .spStat x => Sys2Proof.Machine.execSpStat x s
  | .burst x => Sys2Proof.Machine.execBurst x s
  | .arrayRampDown q => Sys2Proof.Machine.execArrayRampDown q s
  | .arrayRampUp q => Sys2Proof.Machine.execArrayRampUp q s
  | .burstCreditExpiry q => Sys2Proof.Machine.execBurstCreditExpiry q s
  | .frame x => Sys2Proof.Machine.execFrame x s
  | .grow x => Sys2Proof.Machine.execGrow x s
  | .growTry x => Sys2Proof.Machine.execGrowTry x s
  | .growRing x => Sys2Proof.Machine.execGrowRing x s
  | .trim x => Sys2Proof.Machine.execTrim x s
  | .flush x => Sys2Proof.Machine.execFlush x s
  | .reelPayout th => Sys2Proof.Machine.execReelPayout th s
  | .reelHaulIn th => Sys2Proof.Machine.execReelHaulIn th s
  | .reelWorkAhead th lane x => Sys2Proof.Machine.execReelWorkAhead th lane x s
  | .bra x => Sys2Proof.Machine.execBra x s
  | .jmp x => Sys2Proof.Machine.execJmp x s
  | .brx x => Sys2Proof.Machine.execBrx x s
  | .call x => Sys2Proof.Machine.execCall x s
  | .callx x => Sys2Proof.Machine.execCallx x s
  | .ret x => Sys2Proof.Machine.execRet x s
  | .exit x => Sys2Proof.Machine.execExit x s
  | .knot x => Sys2Proof.Machine.execKnot x s
  | .done x => Sys2Proof.Machine.execDone x s
  | .take x => Sys2Proof.Machine.execTake x s
  | .yield x => Sys2Proof.Machine.execYield x s
  | .nop x => Sys2Proof.Machine.execNop x s
  | .trap x => Sys2Proof.Machine.execTrap x s
  | .brk x => Sys2Proof.Machine.execBrk x s
  | .strandRestart th => Sys2Proof.Machine.execStrandRestart th s
  | .strandRetire th => Sys2Proof.Machine.execStrandRetire th s
  | .launchComplete l => Sys2Proof.Machine.execLaunchComplete l s
  | .csrr x => Sys2Proof.Machine.execCsrr x s
  | .csrw x => Sys2Proof.Machine.execCsrw x s
  | .scrWrite th v => Sys2Proof.Machine.execScrWrite th v s
  | .tlbInvalidatePage th => Sys2Proof.Machine.execTlbInvalidatePage th s
  | .tlbInvalidateAll th => Sys2Proof.Machine.execTlbInvalidateAll th s
  | .winsel x => Sys2Proof.Machine.execWinsel x s
  | .winrd x => Sys2Proof.Machine.execWinrd x s
  | .winwr x => Sys2Proof.Machine.execWinwr x s
  | .resume x => Sys2Proof.Machine.execResume x s
  | .kill x => Sys2Proof.Machine.execKill x s
  | .faultack x => Sys2Proof.Machine.execFaultack x s
  | .handlerStart core => Sys2Proof.Machine.execHandlerStart core s
  | .faultLogWrite => Sys2Proof.Machine.execFaultLogWrite s
  | .launch x => Sys2Proof.Machine.execLaunch x s
  | .workgroupPlacement ctx => Sys2Proof.Machine.execWorkgroupPlacement ctx s
  | .watch x => Sys2Proof.Machine.execWatch x s
  | .watchMet q => Sys2Proof.Machine.execWatchMet q s
  | .watchPoll q => Sys2Proof.Machine.execWatchPoll q s
  | .signal x => Sys2Proof.Machine.execSignal x s
  | .signalQ x => Sys2Proof.Machine.execSignalQ x s
  | .evwait x => Sys2Proof.Machine.execEvwait x s
  | .evwaitTimeout q => Sys2Proof.Machine.execEvwaitTimeout q s
  | .qprio x => Sys2Proof.Machine.execQprio x s
  | .aLoop x => Sys2Proof.Machine.execALoop x s
  | .aLd x => Sys2Proof.Machine.execALd x s
  | .aWalk x => Sys2Proof.Machine.execAWalk x s
  | .aSync x => Sys2Proof.Machine.execASync x s
  | .aEnd x => Sys2Proof.Machine.execAEnd x s
  | .aSet x => Sys2Proof.Machine.execASet x s
  | .feedRowLand f => Sys2Proof.Machine.execFeedRowLand f s
  | .l1LineDrop core line => Sys2Proof.Machine.execL1LineDrop core line s
  | .powerWindow watts => Sys2Proof.Machine.execPowerWindow watts s
  | .undervoltage => Sys2Proof.Machine.execUndervoltage s
  | .uncorrectableError loc => Sys2Proof.Machine.execUncorrectableError loc s
  | .scrubPass => Sys2Proof.Machine.execScrubPass s
  | .marginPlan slack => Sys2Proof.Machine.execMarginPlan slack s
  | .quadrantSlackZero q => Sys2Proof.Machine.execQuadrantSlackZero q s
  | .workgroupHalt w => Sys2Proof.Machine.execWorkgroupHalt w s
  | .haltTimeout w => Sys2Proof.Machine.execHaltTimeout w s
  | .workgroupSave w => Sys2Proof.Machine.execWorkgroupSave w s
  | .shadowSwap q => Sys2Proof.Machine.execShadowSwap q s
  | .shadowSpillEnd q => Sys2Proof.Machine.execShadowSpillEnd q s
  | .workgroupRestore w => Sys2Proof.Machine.execWorkgroupRestore w s
  | .deadlineDecision d => Sys2Proof.Machine.execDeadlineDecision d s
  | .deadlineCutoff d => Sys2Proof.Machine.execDeadlineCutoff d s
  | .deadlineReply d => Sys2Proof.Machine.execDeadlineReply d s
  | .claim => Sys2Proof.Machine.execClaim s
  | .renew => Sys2Proof.Machine.execRenew s
  | .handover => Sys2Proof.Machine.execHandover s
  | .resync => Sys2Proof.Machine.execResync s
  | .ctxCreate => Sys2Proof.Machine.execCtxCreate s
  | .ctxDestroy => Sys2Proof.Machine.execCtxDestroy s
  | .ctxFlags => Sys2Proof.Machine.execCtxFlags s
  | .pageOwner => Sys2Proof.Machine.execPageOwner s
  | .keyLoad => Sys2Proof.Machine.execKeyLoad s
  | .deadline => Sys2Proof.Machine.execDeadline s
  | .reopen => Sys2Proof.Machine.execReopen s
  | .queueStart => Sys2Proof.Machine.execQueueStart s
  | .queueStop => Sys2Proof.Machine.execQueueStop s
  | .queueResume => Sys2Proof.Machine.execQueueResume s
  | .faultlogSet => Sys2Proof.Machine.execFaultlogSet s
  | .faultReply => Sys2Proof.Machine.execFaultReply s
  | .codeLoad => Sys2Proof.Machine.execCodeLoad s
  | .codeReplace => Sys2Proof.Machine.execCodeReplace s
  | .codeUnload => Sys2Proof.Machine.execCodeUnload s
  | .fwStage => Sys2Proof.Machine.execFwStage s
  | .cfgStage => Sys2Proof.Machine.execCfgStage s
  | .margin => Sys2Proof.Machine.execMargin s
  | .leaseExpiry => Sys2Proof.Machine.execLeaseExpiry s
  | .handoverLapse => Sys2Proof.Machine.execHandoverLapse s
  | .functionLevelReset vf => Sys2Proof.Machine.execFunctionLevelReset vf s
  | .tdiLeaveRun vf => Sys2Proof.Machine.execTdiLeaveRun vf s
  | .hostBarAccess a => Sys2Proof.Machine.execHostBarAccess a s
  | .deviceReset => Sys2Proof.Machine.execDeviceReset s
  | .topologyDiscovery link rec => Sys2Proof.Machine.execTopologyDiscovery link rec s
  | .dieRecordTimeout link => Sys2Proof.Machine.execDieRecordTimeout link s
  | .ngalanReq m => Sys2Proof.Machine.execNgalanReq m s
  | .ngalanSnp m => Sys2Proof.Machine.execNgalanSnp m s
  | .ngalanRsp m => Sys2Proof.Machine.execNgalanRsp m s
  | .ngalanDat m => Sys2Proof.Machine.execNgalanDat m s
  | .ngalanMgt m => Sys2Proof.Machine.execNgalanMgt m s
  | .ngalanErr m => Sys2Proof.Machine.execNgalanErr m s
  | .ngalanBadMessage m => Sys2Proof.Machine.execNgalanBadMessage m s
  | .inboundLinkAccess a => Sys2Proof.Machine.execInboundLinkAccess a s
  | .handleResultWritten f => Sys2Proof.Machine.execHandleResultWritten f s
  | .controlSlot link credits ack => Sys2Proof.Machine.execControlSlot link credits ack s

end Sys2Proof.Machine
end

