-- ==== Sys2Proof/Machine/Step.lean ====
section
/-!
DEFINITION. One step of the part, and placing an instruction to be the next (log 1, log 5).
Timing beyond the times that an effect names is left out (DESIGN CHOICE, log 15).
-/

namespace Sys2Proof.Machine

/-- A thread's next instruction: its waits settle, and where its group can go on, the instruction that its clause is at is
decoded and carried out (R81, R56). A parcel that does not decode stops the thread (R23). -/
def stepIssue (s : State) (th : Nat) : Host.Outcome State Fault Refusal :=
  let s := refresh { s with run := { s.run with cur := some th } } th
  match issuer s with
  | none => .next s
  | some (n, k) =>
    if ((s.th n).grp k).st != .runnable then .next s
    else if clauseOver (s.th n) k then .next (endClause s n k false)
    else match nextInstr (s.th n) k with
      | some i => exec i s
      | none => .next (stopClause s n k (curPc (s.th n) k))

/-- An access thread's next instruction (R169): it fetches its next clause where it is at none (R16); a `nop` only moves it on. -/
def stepAccess (s : State) (th : Nat) : Host.Outcome State Fault Refusal :=
  let s := accessFetch { s with run := { s.run with cur := some th } } th
  match nextAccess (s.th th) with
  | some i => match nopSize i with
    | some n => .next (modAccess s th (fun a => accessNext a n))
    | none => exec i s
  | none => .next s

/-- Carries out a move. -/
def moveOne (s : State) (m : Move) : Host.Outcome State Fault Refusal :=
  match m with
  | .issue th => stepIssue s th
  | .accessIssue th => stepAccess s th
  | .event i => exec i s
  | .bmcWrite off data => .next (mboxWrite s 2 off data false)
  | .function fn v ide run => .next (setFunction s fn v ide run)
  | .window n w => .next (setWindow s n w)
  | .exportEntry n e => .next (setExport s n e)
  | .corrected loc => .next (correctError s loc)

/-- The homes of memory test what watches wait for (R381) after a move. -/
def watched_ (o : Host.Outcome State Fault Refusal) : Host.Outcome State Fault Refusal :=
  match o with
  | .next s' => .next (watchTest s')
  | o => o

/-- Carries out a move. -/
def runMove (s : State) (m : Move) : Host.Outcome State Fault Refusal := watched_ (moveOne s m)

/-- What a move makes of a state. -/
abbrev Act := State → Host.Outcome State Fault Refusal

/-- The first of some moves that changes the state, with its outcome. -/
def firstMove (s : State) : List Act → Option (Host.Outcome State Fault Refusal)
  | [] => none
  | m :: ms =>
    match watched_ (m s) with
    | .next s' => if s' = s then firstMove s ms else some (.next s')
    | o => some o

/-- The moves that end or advance an operation in flight. -/
def flightMoves (s : State) (f : Flight) : List Act :=
  match f.work with
  | .load _ _ _ | .abtest _ _ _ _ => [execRemotePromotion f.id, execLoadDataReturn f.id]
  | .commit secs _ => (List.range secs.length).map (fun k => execStoreApply f.id k)
  | .atom _ _ _ _ _ => [execAtomicPerform f.id]
  | .cmRange _ _ _ _ _ _ => [execCmRangeCompletion f.id]
  | .copy _ _ _ _ _ _ _ _ _ _ _ _ _ _ _ _ => [execCopyCompletion f.id]
  | .arrive _ _ _ _ _ => [execArrivalPerform f.id]
  | .fetch _ _ _ _ _ _ => [execFgetCompletion f.id]
  | .hand _ _ _ _ _ _ => [execHandleResultWritten f.id]
  | .seed _ _ _ _ _ => [execSeedRecordUnit f.id]
  | .splice x => ((tableOf s x.wg x.table).toList.flatMap (fun d => homeArrays (s.wg x.wg) d)).map execArrayRampUp ++ [execSpliceUnit f.id]
  | .drain _ _ _ _ | .tabop _ _ _ _ _ => [execDrainCompletion f.id]
  | .cbld _ _ _ => [execCbldInstant f.id]
  | .feed _ _ _ _ _ => [execFeedRowLand f.id]
  | .tlbi cmd => [if cmd = 0 then execTlbInvalidatePage f.th else execTlbInvalidateAll f.th]
  | .fence => [execLoadDataReturn f.id]

/-- The moves of a thread beside its issue. -/
def threadMoves (n : Nat) (t : Strand) : List Act :=
  (if t.access.isSome then [fun s => stepAccess s n] else []) ++
  [execReelPayout n, execReelHaulIn n, execGroupRotation n, execStrandRestart n, execStrandRetire n]

/-- The moves of a workgroup that is being switched, or is saved. -/
def wgMoves (n : Nat) (g : Workgroup) : List Act :=
  if g.saved then [execWorkgroupRestore n]
  else if g.haltAt.isSome then [execHaltTimeout n, execWorkgroupHalt n, execWorkgroupSave n]
  else []

/-- The moves that requests, deadlines and the fault log make. -/
def systemMoves (s : State) : List Act :=
  s.dls.flatMap (fun e => [execDeadlineReply e.1, execDeadlineCutoff e.1, execDeadlineDecision e.1]) ++
  (if s.mg.reqs.isEmpty then [] else [execClaim, execRenew, execHandover, execResync, execCtxCreate,
    execCtxDestroy, execCtxFlags, execPageOwner, execKeyLoad, execDeadline, execReopen, execQueueStart,
    execQueueStop, execQueueResume, execFaultlogSet, execFaultReply, execCodeLoad, execCodeReplace,
    execCodeUnload, execFwStage, execCfgStage, execMargin]) ++
  (if s.ctxs.any (fun e => e.2.dying) then [execCtxDestroy] else []) ++
  [execFaultLogWrite, execLeaseExpiry, execHandoverLapse] ++
  s.io.dies.flatMap (fun e => [execDieRecordTimeout (2 * e.1), execDieRecordTimeout (2 * e.1 + 1)])

/-- The moves that the part can make when the agenda names none (DESIGN CHOICE, log 1): threads at issue, picks, access threads, operations in flight,
threads' other events, then the events of queues, handlers, workgroups, launches and the system. -/
def openMoves (s : State) : List Act :=
  s.ths.filterMap (fun e => if e.2.ps.issuing.isSome then some (fun s => stepIssue s e.1) else none) ++
  (List.range (4 * Config.cores)).filterMap (fun q =>
    if s.ths.any (fun e => e.2.pl.core * 4 + e.2.pl.quad == q) then some (execClausePick q) else none) ++
  (List.range Config.controlCores).map (fun n => execControlCorePick n) ++
  s.ths.flatMap (fun e => threadMoves e.1 e.2) ++
  s.fl.flatMap (flightMoves s) ++
  s.quads.flatMap (fun e => if e.2.swapTill.isSome || e.2.spilling.isSome then [execShadowSwap e.1, execShadowSpillEnd e.1] else []) ++
  s.queues.flatMap (fun e => [execWatchMet e.1, execWatchPoll e.1, execEvwaitTimeout e.1]) ++
  s.cores.map (fun e => execHandlerStart e.1) ++
  s.wgs.flatMap (fun e => wgMoves e.1 e.2) ++
  s.ctxs.map (fun e => execWorkgroupPlacement e.1) ++
  s.launches.map (fun e => execLaunchComplete e.1) ++
  systemMoves s

/-- One step (DESIGN CHOICE, log 1): the agenda's next move after the time it names, or with an empty agenda the first open move that
changes the state; with none, one control-core cycle passes. -/
def step (s : State) : Host.Outcome State Fault Refusal :=
  match s.run.agenda with
  | (dt, m) :: rest => runMove { s with now := s.now + dt, run := { s.run with agenda := rest } } m
  | [] =>
    match firstMove s (openMoves s) with
    | some o => o
    | none => .next { s with now := s.now + 1 }

/-- Places the parcels of an instruction in a thread of its own kind, as the next to issue. -/
def State.withNew (s : State) (kd : Kind) (n : Nat) (body : List Word) : State :=
  let t := match kget? s.ths n with | some t => t | none => freshStrand { kind := kd } 8
  let mask : Word := if kd = .queue then 1 else 0xFFFFFFFF
  let g := (t.slot 0).grp.getD { mask := mask }
  let t := t.setSlot 0 { t.slot 0 with grp := some { g with st := .runnable, w := false, hold := .free },
                                       clause := some { hdr := 0, word := 0, body := body } }
  { s with ths := kset s.ths n { t with ps := { t.ps with issuing := some 0 }, ct := { t.ct with stopped := false } },
           run := { s.run with cur := some n, agenda := (0, .issue n) :: s.run.agenda } }

/-- Places the parcels of an instruction in a thread of a kind: in the clause of the thread at issue, where it is of that kind,
else in that of the kind's first thread (DESIGN CHOICE, log 5). -/
def State.withClause (s : State) (kd : Kind) (n : Nat) (body : List Word) : State :=
  match issuer s with
  | some (m, k) =>
    if (s.th m).pl.kind = kd then
      let s := s.modTh m (fun t => t.setSlot k { t.slot k with clause := some { hdr := 0, word := 0, body := body } })
      { s with run := { s.run with agenda := (0, .issue m) :: s.run.agenda } }
    else s.withNew kd n body
  | none => s.withNew kd n body

/-- Places the parcels of an access-slice instruction in an access thread. -/
def State.withAccess (s : State) (n : Nat) (body : List Word) : State :=
  let t := match kget? s.ths n with | some t => t | none => freshStrand {} 8
  let a := t.access.getD { a := List.replicate 16 0, pc := 0 }
  let a := { a with clause := some { hdr := 0, word := 0, body := body }, ended := false, faulted := false }
  { s with ths := kset s.ths n { t with access := some a, ps := { t.ps with halted := false } },
           run := { s.run with cur := some n, agenda := (0, .accessIssue n) :: s.run.agenda } }

/-- Places an instruction so that the next step issues it (DESIGN CHOICE, log 5): in the kind of code that may hold it. -/
def State.withFetchWord (s : State) (nbits w : Nat) : State :=
  let body := wordParcels (w % 2 ^ nbits)
  if (decode .exec body).isSome then s.withClause .strand 0 body
  else if (decode .handler body).isSome then s.withClause .handler (handlerNo 0) body
  else if (decode .queue body).isSome then s.withClause .queue (queueNo 0) body
  else if (decode .access body).isSome then s.withAccess 0 body
  else s.withClause .strand 0 body

end Sys2Proof.Machine
end

