-- ==== Sys2Proof/Machine/TwRun.lean ====
section
/-!
DEFINITION. What a Twifel kernel does (R64): each of its operations has the effect of the Z2 operation on one lane, and its blocks and
calls go on as Table 4-5 says. It is what every translation's results are held against (R66).
Corners that these rules leave to be inferred are read as log 8 says (DESIGN CHOICE).
-/

namespace Sys2Proof.Machine

open Sys2Proof.Twifel

/-! ### One operation in one lane -/

/-- The cells of the registers that serve a field for a lane, low word first. -/
def fieldCells (t : Strand) (lane : Nat) (c : Cls) (r : Spec) : List Nat :=
  if c = .bit then [kCell r.toNat lane]
  else (List.range 4).map (fun j => if 384 ≤ r.toNat then sCell (r.toNat - 384 + j) else vrCell t.rg (r.toNat + j) lane)

/-- A strand of which one lane alone is live, in a frame of two plies, at an instruction. -/
def oneLane (t : Strand) (lane : Nat) (body : List Word) : Strand :=
  { t with
    rg := { (freshStrand t.pl 8).rg with frames := List.replicate 32 { size := 2 } }
    ln := { t.ln with exited := ~~~(1#32 <<< lane), idle := 0, helper := 0 }
    ps := { s0 := { grp := some { mask := 1#32 <<< lane }, clause := some { hdr := 0, word := 3, body := body } }, issuing := some 0 } }

/-- The operations that a thread has in flight end one after another. -/
def settleOps (th : Nat) : Nat → State → State
  | 0, s => s
  | n + 1, s =>
    match firstMove s ((s.fl.filter (fun f => f.th == th && !f.done)).flatMap (flightMoves s)) with
    | some (.next s') => settleOps th n s'
    | _ => s

/-- The effect of an operation on one lane of a strand (R64), with a value for each field that is a source: the state after it, and the
value of field d where it assigns one; none where it stops the strand with a fault. Which registers serve leaves no trace. -/
def opEffect (s : State) (th lane major minor : Nat) (x : LForm) (ins : List (Field × Nat)) (dest : Bool) : Option (State × Nat) :=
  let cls (f : Field) : Cls := fieldCls major minor x f
  let t := s.th th
  match serving major minor x (ins.map (·.1) ++ (if dest then [.d] else [])) with
  | none => none
  | some (i, rs) =>
    let reg (f : Field) : Spec := ((rs.find? (·.1 == f)).map (·.2)).getD 0
    let u := oneLane t lane (encode i ++ [0x40, 0x40])
    let cells := ins.flatMap (fun e => (fieldCells u lane (cls e.1) (reg e.1)).zipIdx.map (fun c =>
      (c.1, if cls e.1 = .bit then BitVec.ofNat 32 (e.2 % 2) else BitVec.ofNat 32 (e.2 / 2 ^ (32 * c.2)))))
    let s1 := { s with ths := kset s.ths th { u with rg := u.rg.poke cells }, run := { s.run with cur := some th } }
    match exec i s1 with
    | .next s2 =>
      let s3 := settleOps th (16 * (s2.fl.length + 1)) s2
      let v := s3.th th
      if v.ct.stopped then none
      else
        let out := if !dest then [] else (fieldCells u lane (cls .d) (reg .d)).zipIdx.map (fun c => (v.rg.final c.1).toNat * 2 ^ (32 * c.2))
        some (s3.modTh th (fun v => { v with rg := t.rg, ln := t.ln, ps := t.ps }), out.foldl (· + ·) 0)
    | _ => none

/-! ### Blocks and functions -/

/-- Bits of a type (Table 4-5). -/
def tyBits : Ty → Nat
  | .i1 => 1
  | .i64 | .ptr => 64
  | _ => 32

/-- The value of an argument under the values assigned so far. -/
def argVal (env : KMap Nat) : Arg → Nat
  | .num v => v
  | .val n => kgetD env n 0

/-- What a run of a lane goes on with: the state and the values assigned, or none where it stops. -/
abbrev Flow := Option (State × KMap Nat)

/-- Assigns a line's value. -/
def assign (l : Line) (v : Nat) (env : KMap Nat) : KMap Nat :=
  match l.dest with
  | some (n, t) => kset env n (v % 2 ^ tyBits t)
  | none => env

/-- The value that a `phi` takes on the way from a block. -/
def phiVal (env : KMap Nat) (ins : List (Arg × Nat)) (prev : Nat) : Nat :=
  (ins.find? (·.2 == prev)).elim 0 (fun e => argVal env e.1)

/-- A line of a block other than a call (R64). Every `phi` of a block takes the values that stood at the end of the block before it. -/
def lineRun (th lane depth prev : Nat) (old : KMap Nat) (l : Line) (s : State) (env : KMap Nat) : Flow :=
  match l.rhs with
  | .op maj m x args => (opEffect s th lane maj m x (args.map (fun e => (e.1, argVal env e.2))) l.dest.isSome).map (fun r => (r.1, assign l r.2 env))
  | .lane => some (s, assign l lane env)
  | .depth => some (s, assign l depth env)
  | .sreg n => some (s, assign l ((s.th th).rg.final (sCell n)).toNat env)
  | .phi ins => some (s, assign l (phiVal old ins prev) env)
  | .call _ _ => none

/-- Runs a lane of a strand through a function from a block on (R64, Table 4-5), for at most a number of blocks and calls: the state at its
return, and the value returned. -/
def runFrom (k : Kernel) (th lane : Nat) : Nat → Twifel.Func → Nat → Nat → Nat → State → KMap Nat → Option (State × Nat)
  | 0, _, _, _, _, _, _ => none
  | n + 1, f, depth, prev, b, s, env =>
    match f.blocks[b]? with
    | none => none
    | some blk =>
      let line (r : State × KMap Nat) (l : Line) : Flow :=
        match l.rhs with
        | .call g args => match k.funcs[g]? with
          | none => none
          | some g =>
            let given : KMap Nat := (g.params.zip args).foldl (fun m e => kset m e.1.1 (argVal r.2 e.2.2)) []
            (runFrom k th lane n g (depth + 1) 0 0 r.1 given).map (fun q => (q.1, assign l q.2 r.2))
        | _ => lineRun th lane depth prev env l r.1 r.2
      match blk.lines.foldlM line (s, env) with
      | none => none
      | some (s, env) =>
        match blk.last with
        | .br p y z _ => runFrom k th lane n f depth b (if argVal env p % 2 = 1 then y else z) s env
        | .switch i _ ts =>
          let v := argVal env i
          if v = 0 ∨ ts.length < v then none else runFrom k th lane n f depth b (ts.getD (v - 1) 0) s env
        | .ret v => some (s, v.elim 0 (argVal env))
        | .next => runFrom k th lane n f depth b (b + 1) s env

/-- Runs a lane of a strand through a kernel (R64), for at most a number of blocks and calls. -/
def runKernel (k : Kernel) (th lane fuel : Nat) (s : State) : Option State := (runFrom k th lane fuel k.entry 0 0 0 s []).map (·.1)

end Sys2Proof.Machine
end

