-- ==== Sys2Proof/Safety.lean ====
section
/-!
DEFINITION. What counts as a safe run of the part, and the terms that claims use. The part's own faults are no stops of the
model: a thread that faults is stopped in a next state (R137, R339). The model itself stops only where an instruction has no
thread to act for, so a safe run is one that never stops.
-/

namespace Sys2Proof.Machine

/-! ### Safe runs -/

/-- The step from a state answers a next state. -/
def StepNext (s : State) : Prop := ∃ t, step s = .next t

/-- A run of k steps from a state answers a state: no step of it ends in a fault or a refusal. -/
def SafeFor (k : Nat) (s : State) : Prop := ∃ t, core.run k s = .next t

/-- Every run from a state is safe, however long. -/
def SafeRun (s : State) : Prop := ∀ k, SafeFor k s

/-- Memory has its canonical form, so that equal memories are equal data (DESIGN CHOICE, log 3). -/
def MemOk (s : State) : Prop := Memory.wf s.mem = true

/-! ### Frames -/

/-- Every byte of memory reads alike in two states. -/
def SameMem (s t : State) : Prop := ∀ a, memGet t.mem a = memGet s.mem a

/-- Every byte of memory outside a set of flat addresses reads alike in two states. -/
def SameMemBut (p : Nat → Prop) (s t : State) : Prop := ∀ a, ¬ p a → memGet t.mem a = memGet s.mem a

/-- No thread but one differs between two states. -/
def SameOthers (th : Nat) (s t : State) : Prop := ∀ n, n ≠ th → kget? t.ths n = kget? s.ths n

/-- What the issue of an instruction that only writes registers may change in a state: its own thread, the issue slots, L1
copies that a wait that ends drops (R325), what its end synchronises with (R326), and the model's own fields. Memory, contexts, workgroups, launches, flights,
queues and everything else stay. -/
def SameButIssue (s t : State) : Prop :=
  t = { s with ths := t.ths, quads := t.quads, ccores := t.ccores, ch := { s.ch with l1 := t.ch.l1 }, ord := t.ord, run := t.run }

/-- What such an instruction may change in its own thread: its groups, its register cells, the rows it pops from feed queues,
and the FP status flags. Its place, frame words, plies, links, lanes, open quanta and other control registers stay. -/
def SameButRegs (t u : Strand) : Prop :=
  u = { t with
    ps := u.ps
    rg := { t.rg with cells := u.rg.cells, pend := u.rg.pend, clean := u.rg.clean, lqs := u.rg.lqs }
    fqs := u.fqs
    ct := { t.ct with fp := u.ct.fp } }

/-- The frame of an instruction that only writes registers, and changes its own thread to `u` beside: no other thread changes;
and unless an asynchronous fault of the thread is due, which stops it at the end of a clause (R171, R250), nothing else
changes but what SameButIssue and SameButRegs name. -/
def IssueFrameOf (s t : State) (th : Nat) (u : Strand) : Prop :=
  SameOthers th s t ∧ ((s.th th).ct.pending = none → SameButIssue s t ∧ SameButRegs u (t.th th))

/-- The frame of an instruction that only writes registers. -/
def IssueFrame (s t : State) (th : Nat) : Prop := IssueFrameOf s t th (s.th th)

/-! ### Instructions at issue -/

/-- An instruction is at issue, and no check at issue stops it or makes it wait (R338). -/
structure Ready (s : State) (i : Iss) (srcs : List Opnd) (dsts : List Nat) (rd : Word → List Nat) : Prop where
  issues : issuer s = some (i.th, i.k)
  reads : operandStop s i srcs dsts rd = none

/-- The issuing thread once the queues that an instruction names have given up their heads (R154, R159). -/
def popped (s : State) (i : Iss) (srcs : List Opnd) : Strand := popQueues (s.th i.th) (srcs.map (·.spec))

/-- The cells of a register in some lanes, each with its lane's value. -/
def laneWrites (u : Strand) (d : Nat) (act : Word) (f : Nat → Word) : List (Nat × Word) :=
  (lanesOf act).flatMap (fun l => (regCell u d l).toList.map (fun c => (c, f l)))

/-- The cells that a 32-bit result writes (R29, R30, R37, R160): one scalar register; a new row of a loop queue, in which a
lane that is not active repeats its last row; the active lanes of an f or g register; none for `%zero` and `.tr`. -/
def dstWrites (u : Strand) (d : Nat) (tr : Bool) (act : Word) (f : Nat → Word) : List (Nat × Word) :=
  if isS d then [(sCell (d - 384), f 0)]
  else if isLq d then
    let q := kgetD u.rg.lqs (d - 448) { depth := 1 }
    (List.range 32).map (fun l => (lqCell (d - 448) ((q.head + q.occ) % q.depth) l,
      if act.getLsbD l then f l else u.rg.final (lqCell (d - 448) ((q.head + q.occ + q.depth - 1) % q.depth) l)))
  else if tr || d == 479 then []
  else laneWrites u d act f

/-- The cells that a 64-bit result writes (R199): the low word in the even register, the high word in the next one. -/
def pairWrites (u : Strand) (d : Nat) (act : Word) (f : Nat → DWord) : List (Nat × Word) :=
  let lo (l : Nat) : Word := (f l).setWidth 32
  let hi (l : Nat) : Word := (f l >>> 32).setWidth 32
  if isS d then [(sCell (d - 384), lo 0), (sCell (d + 1 - 384), hi 0)]
  else dstWrites u d false act lo ++ laneWrites u (d + 1) act hi

/-- Every cell of the issuing thread's registers finally holds what some writes give it, or what it held. -/
def Wrote (s t : State) (th : Nat) (ws : List (Nat × Word)) : Prop :=
  ∀ c, (t.th th).rg.final c = (ws.lookup c).getD ((s.th th).rg.final c)

/-- The issuing group has moved past an instruction that is not the last of its clause: the clause's place, and the issue
cycles with the stall count (R38, R153). -/
def Advanced (s t : State) (i : Iss) (cost : Nat) : Prop :=
  ∀ c, ((s.th i.th).slot i.k).clause = some c → c.pos + i.size < c.body.length →
    ((t.th i.th).slot i.k).clause = some { c with pos := c.pos + i.size } ∧
    ((t.th i.th).grp i.k).mask = ((s.th i.th).grp i.k).mask ∧
    (t.th i.th).ps.clk = (s.th i.th).ps.clk + 1 + i.st + cost

/-- A result of a fixed latency inside a clause: a written cell reads as it did before until its latency has passed, and
then as the new value (R38 to R40). -/
def Lands (s t : State) (i : Iss) (lat cost : Nat) (ws : List (Nat × Word)) : Prop :=
  ∀ c, ((s.th i.th).slot i.k).clause = some c → c.pos + i.size < c.body.length →
    ∀ w, w ∈ ws → ∀ n, (t.th i.th).rg.read n w.1 =
      if (s.th i.th).ps.clk + cost + lat ≤ n then (t.th i.th).rg.final w.1 else (s.th i.th).rg.read n w.1

/-- What an instruction that writes some cells leaves: the cells, their latency, its flags, its place and its frame. -/
def ResultW (s t : State) (i : Iss) (lat cost : Nat) (ws : List (Nat × Word)) (fl : Nat) : Prop :=
  Wrote s t i.th ws ∧ Lands s t i lat cost ws ∧ (t.th i.th).ct.fp = (s.th i.th).ct.fp ||| fl ∧
  Advanced s t i cost ∧ IssueFrame s t i.th

/-- What an instruction with one 32-bit result leaves. -/
def Result (s t : State) (i : Iss) (srcs : List Opnd) (d : Nat) (tr : Bool) (lat : Nat) (f : Nat → Word) (fl : Nat) : Prop :=
  ResultW s t i lat (given s i srcs).cost (dstWrites (popped s i srcs) d tr (given s i srcs).act f) fl

/-- What an instruction with one 64-bit result leaves. -/
def Result64 (s t : State) (i : Iss) (srcs : List Opnd) (d : Nat) (lat : Nat) (f : Nat → DWord) (fl : Nat) : Prop :=
  ResultW s t i lat (given s i srcs).cost (pairWrites (popped s i srcs) d (given s i srcs).act f) fl

/-- A 32-bit source of an instruction in a lane. -/
def src32 (s : State) (i : Iss) (srcs : List Opnd) (l n : Nat) : Word := BitVec.ofNat 32 ((given s i srcs).v n l)

/-- A 64-bit source of an instruction in a lane. -/
def src64 (s : State) (i : Iss) (srcs : List Opnd) (l n : Nat) : DWord := BitVec.ofNat 64 ((given s i srcs).v n l)

/-- An L-form operation completes wherever it is well formed and ready and a condition on the state holds: exec answers a next
state of which a postcondition holds. -/
def Completes (ins : LForm → Instr) (srcs : LForm → List Opnd) (dsts : LForm → List Nat)
    (pre : State → Iss → LForm → Prop) (post : State → Iss → LForm → State → Prop) : Prop :=
  ∀ (s : State) (x : LForm) (th k : Nat), (ins x).wf = true → pre s (issL x th k) x →
    Ready s (issL x th k) (srcs x) (dsts x) readActive →
    ∃ t, exec (ins x) s = .next t ∧ post s (issL x th k) x t

/-- An L-form operation completes wherever it is well formed and ready, with a 32-bit result of its sources in each active
lane, after a latency, and raises no flag. -/
def Computes (ins : LForm → Instr) (p : LForm → Bool) (lat : Nat) (srcs : LForm → List Opnd)
    (f : LForm → (Nat → Word) → Word) : Prop :=
  Completes ins srcs (fun x => [x.d.toNat]) (fun _ _ x => p x = true) fun s i x t =>
    Result s t i (srcs x) x.d.toNat x.tr lat (fun l => f x (src32 s i (srcs x) l)) 0

/-- The same with a 64-bit result in a register pair (R199). -/
def Computes64 (ins : LForm → Instr) (p : LForm → Bool) (lat : Nat) (srcs : LForm → List Opnd)
    (f : LForm → (Nat → DWord) → DWord) : Prop :=
  Completes ins srcs (fun x => [x.d.toNat, x.d.toNat + 1]) (fun _ _ x => p x = true) fun s i x t =>
    Result64 s t i (srcs x) x.d.toNat lat (fun l => f x (src64 s i (srcs x) l)) 0

/-- The same with FP status flags: those of the active lanes that are no helpers, or of a scalar instruction, are set and
stay set (R203). -/
def ComputesF (ins : LForm → Instr) (p : LForm → Bool) (lat : Nat) (srcs : LForm → List Opnd)
    (f : LForm → (Nat → Word) → Word × Nat) : Prop :=
  Completes ins srcs (fun x => [x.d.toNat]) (fun _ _ x => p x = true) fun s i x t =>
    Result s t i (srcs x) x.d.toNat x.tr lat (fun l => (f x (src32 s i (srcs x) l)).1)
      (laneFlags (s.th i.th) x.d.toNat (given s i (srcs x)).act (fun l => (f x (src32 s i (srcs x) l)).2) % 32)

/-- An INT operation of two sources of its type's width (R204): 32-bit lanes, or pairs for `.s64` and `.b64`. -/
def IntTwo (ins : LForm → Instr) (f : LForm → Word → Word → Word) (g : LForm → DWord → DWord → DWord) : Prop :=
  Computes ins (fun x => !is64 x) 4 (fun x => [srcA x, srcB x]) (fun x v => f x (v 0) (v 1)) ∧
  Computes64 ins is64 4 (fun x => [wide x.a (intTy x), wide x.b (intTy x)]) (fun x v => g x (v 0) (v 1))

/-- An INT shift: the amount is a 32-bit operand at either width (R199, R204). -/
def IntShift (ins : LForm → Instr) (f : Word → Nat → Word) (g : DWord → Nat → DWord) : Prop :=
  Computes ins (fun x => !is64 x) 4 (fun x => [srcA x, srcB x]) (fun _ v => f (v 0) ((v 1).toNat % 32)) ∧
  Computes64 ins is64 4 (fun x => [wide x.a (intTy x), srcB x]) (fun _ v => g (v 0) ((v 1).toNat % 64))

/-- An INT operation of one source of its type's width (R204). -/
def IntOne (ins : LForm → Instr) (f : Word → Word) (g : DWord → DWord) : Prop :=
  Computes ins (fun x => !is64 x) 4 (fun x => [srcA x]) (fun _ v => f (v 0)) ∧
  Computes64 ins is64 4 (fun x => [wide x.a (intTy x)]) (fun _ v => g (v 0))

/-- A 32-bit INT operation of one, two or three sources. -/
def Int32 (ins : LForm → Instr) (srcs : LForm → List Opnd) (f : LForm → (Nat → Word) → Word) : Prop :=
  Computes ins (fun _ => true) 4 srcs f

/-- A 32-bit truth-table minterm: bits where three words are as the number says (R205). -/
def minterm (m : Nat) (d a b : Word) : Word :=
  (if m / 4 % 2 = 1 then d else ~~~d) &&& (if m / 2 % 2 = 1 then a else ~~~a) &&& (if m % 2 = 1 then b else ~~~b)

/-- The mask of a bit field of R205: its length is cut at bit 31. -/
def fieldMask (b c : Word) : Word :=
  let pos := b.toNat % 32
  let len := min (c.toNat % 64) (32 - pos)
  ((1#32 <<< len) - 1#32) <<< pos

/-- The sum of the products of the signed bytes of two words (R205). -/
def byteDot (a b : Word) : Word :=
  (List.range 4).foldl (fun acc i => acc + (a.extractLsb' (8 * i) 8).signExtend 32 * (b.extractLsb' (8 * i) 8).signExtend 32) 0#32

/-- A sum of two words clamped to the signed range (R204). -/
def clampAdd (a b : Word) : Word := BitVec.ofInt 32 (max (-(2 ^ 31)) (min (a.toInt + b.toInt) (2 ^ 31 - 1)))

/-- A difference of two words clamped to the signed range (R204). -/
def clampSub (a b : Word) : Word := BitVec.ofInt 32 (max (-(2 ^ 31)) (min (a.toInt - b.toInt) (2 ^ 31 - 1)))

/-- The issue of a short UN form (R24). -/
def issUn (x : SForm) (th k : Nat) : Iss := { th := th, k := k, st := x.st.toNat }

/-- The issue of `ldi` (R25). -/
def issLdi (x : LdiForm) (th k : Nat) : Iss := { th := th, k := k, st := x.st.toNat }

/-- A short UN operation completes wherever it is well formed and ready (R24). -/
def UnComputes (ins : SForm → Instr) (ty : OTy) (f : Word → Word) : Prop :=
  ∀ (s : State) (x : SForm) (th k : Nat), (ins x).wf = true →
    Ready s (issUn x th k) [{ spec := x.a.toNat, ty := ty }] [x.d.toNat] readActive →
    ∃ t, exec (ins x) s = .next t ∧
      Result s t (issUn x th k) [{ spec := x.a.toNat, ty := ty }] x.d.toNat false 4
        (fun l => f (src32 s (issUn x th k) [{ spec := x.a.toNat, ty := ty }] l 0)) 0

/-- A 32-bit value extended to 64 bits by sign, or by zero with ZX (R206). -/
def extended (x : LForm) (v : DWord) : DWord :=
  if adrZx x then (v.setWidth 32).setWidth 64 else (v.setWidth 32).signExtend 64

/-- The operand b′ of an ADR operation: extended with SX or ZX, else the pair (R206). -/
def adrOperand (x : LForm) (v : DWord) : DWord := if adrSx x || adrZx x then extended x v else v

/-! ### Floating point -/

/-- An FPU operation on each element of its type (R208): one FP32 value, or two halves. -/
def perElement (x : LForm) (v : Nat → Word) (f : (Nat → Nat) → Nat × Nat) : Word × Nat :=
  if x.ty = 2 then (BitVec.ofNat 32 (f (fun q => (v q).toNat)).1, (f (fun q => (v q).toNat)).2)
  else
    let r (j : Nat) : Nat × Nat := f (fun q => ((v q).extractLsb' (16 * j) 16).toNat)
    (BitVec.ofNat 16 (r 1).1 ++ BitVec.ofNat 16 (r 0).1, (r 0).2 ||| (r 1).2)

/-- An exact result with the flags of computing it, rounded once in the mode of the rounding field (R208). -/
def roundedOnce (x : LForm) (r : FV × Nat) : Nat × Nat :=
  ((roundTo (fFmt x) x.rn 0 r.1).1, (roundTo (fFmt x) x.rn 0 r.1).2 ||| r.2)

/-- An FPU operation of an exact result of n sources (R208). -/
def FpuRounds (ins : LForm → Instr) (n : Nat) (f : LForm → (Nat → FV) → FV × Nat) : Prop :=
  ComputesF ins (fun _ => true) 6 (fun x => ([x.a, x.b, x.c].take n).map (fop x))
    (fun x v => perElement x v (fun e => roundedOnce x (f x (fun q => decodeF (fFmt x) (e q)))))

/-- An FPU operation that selects or changes codes and raises no flag (R208, R209). -/
def FpuSelects (ins : LForm → Instr) (n : Nat) (f : LForm → (Nat → Nat) → Nat) : Prop :=
  ComputesF ins (fun _ => true) 6 (fun x => ([x.a, x.b, x.c].take n).map (fop x))
    (fun x v => perElement x v (fun e => (f x e, 0)))

/-- The magnitude of a finite value in units of 2 to the u, for a u no more than its exponent. -/
def magAt (m : Nat) (e u : Int) : Nat := m * 2 ^ (e - u).toNat

/-- A finite value cut at a format's spacing at its magnitude: its whole units, what is left, and one unit, the last two to one scale
(R178). -/
def cutAt (f : Fmt) (m : Nat) (e : Int) : Nat × Nat × Nat :=
  let one := magAt 1 (unitAt f m e) (min e (unitAt f m e))
  (magAt m e (min e (unitAt f m e)) / one, magAt m e (min e (unitAt f m e)) % one, one)

/-- The magnitude that R178 chooses for a finite value, in units of the format's spacing there: its whole units, and one more where the mode
asks for it: 0 nearest-even, 1 toward zero, 2 down, 3 up, 4 stochastic with the m of R179. -/
def chosen (f : Fmt) (rm rnd : Nat) (n : Bool) (m : Nat) (e : Int) : Nat :=
  match cutAt f m e with
  | (q, r, one) =>
    let up : Bool := match rm with
      | 0 => one < 2 * r || (2 * r == one && q % 2 == 1)
      | 2 => n && r != 0
      | 3 => !n && r != 0
      | 4 => 2 ^ 16 ≤ r * 2 ^ 16 / one + rnd
      | _ => false
    if up then q + 1 else q

/-- The m of R179 for element e of a group of g positions with discarded bits d. -/
def neighbourBits (g e : Nat) (d : Nat → Nat) : BitVec 16 :=
  let D (j : Nat) : BitVec 16 := BitVec.ofNat 16 (d (j % g))
  let m := D (e + g - 1) ^^^ (D (e + 1)).rotateLeft 5 ^^^ BitVec.ofNat 16 (e * 0x9E37)
  let m := m * 0xA5C3#16 + 0x3C6E#16
  m ^^^ (m >>> 7)

/-- The signed value of a finite value in units of 2 to the u. -/
def signedAt (n : Bool) (m : Nat) (e u : Int) : Int := if n then -(magAt m e u : Int) else magAt m e u

/-- A finite magnitude rounded to an integer in a mode, and whether it was inexact (R178, R212). -/
def intRounded (rm : Nat) (n : Bool) (m : Nat) (e : Int) : Nat × Bool :=
  if 0 ≤ e then (m * 2 ^ e.toNat, false)
  else
    let p := 2 ^ (-e).toNat
    let up : Bool := match rm with
      | 0 => p < 2 * (m % p) || (2 * (m % p) == p && m / p % 2 == 1)
      | 2 => n && m % p != 0
      | 3 => !n && m % p != 0
      | _ => false
    (m / p + (if up then 1 else 0), m % p != 0)

/-- An FP32 value as an integer of a range (R212): clamped, with NV, where it lies outside; NaN gives 0 with NV. -/
def floatToInt (lo hi : Int) (rm : Nat) (v : FV) : Int × Nat :=
  match v with
  | .nan => (0, flNV)
  | .inf n => (if n then lo else hi, flNV)
  | .fin n m e =>
    let q := intRounded rm n m e
    let w : Int := if n then -(q.1 : Int) else q.1
    if w < lo then (lo, flNV) else if hi < w then (hi, flNV) else (w, if q.2 then flNX else 0)

/-- A signed word clamped to a signed half (R211). -/
def half16 (v : Word) : BitVec 16 := BitVec.ofInt 16 (max (-(2 ^ 15)) (min v.toInt (2 ^ 15 - 1)))

/-- The format that an NRW instruction names (R213). -/
def nrwFmt (s : State) (i : Iss) (x : LForm) : Fmt := nfFmt (nfOf s i.th x.rn)

/-- The format that an NRW instruction names is valid, as every one that a thread holds is (R181), and is no codebook. -/
def nrwOk (s : State) (i : Iss) (x : LForm) : Prop := nfValid (nfOf s i.th x.rn) = true ∧ (nrwFmt s i x).rule ≠ 3

/-- Element j of a packed value (R213). -/
def packedElem (f : Fmt) (v : Word) (j : Nat) : Nat := v.toNat / 2 ^ (f.w * j) % 2 ^ f.w

/-- A value with one element in every place of a format, unused bits zero (R213). -/
def packedAll (f : Fmt) (e : Nat → Nat) : Word :=
  (List.range (32 / f.w)).foldl (fun r j => r ||| (BitVec.ofNat 32 (e j % 2 ^ f.w) <<< (f.w * j))) 0#32

/-- What an NRW operation of computed elements leaves (R213, R214): each element rounded once in a mode, where the random bits
of stochastic rounding are those of the lane's tile (R179); an element that overflows raises NV too where the operation makes integers of
values that are none (R203, log 9). -/
def NrwRounds (ins : LForm → Instr) (srcs : LForm → List Opnd) (rm : LForm → Nat) (pre : State → Iss → LForm → Prop)
    (toInt : State → Iss → LForm → Bool) (f : State → Iss → LForm → (Nat → Word) → Nat → FV × Nat) : Prop :=
  Completes ins srcs (fun x => [x.d.toNat]) (fun s i x => nrwOk s i x ∧ pre s i x) fun s i x t =>
    let fm := nrwFmt s i x
    let val (l j : Nat) : FV × Nat := f s i x (src32 s i (srcs x) l) j
    let act := (given s i (srcs x)).act
    let one (l j : Nat) : Nat × Nat :=
      roundTo fm (rm x) (if rm x = 4 then laneRnd (s.th i.th) act (fun l => discard fm (val l j).1) l else 0) (val l j).1
    let nv (l j : Nat) : Nat := if toInt s i x && (one l j).2 / 4 % 2 == 1 then flNV else 0
    Result s t i (srcs x) x.d.toNat x.tr 6 (fun l => packedAll fm (fun j => (one l j).1))
      (laneFlags (s.th i.th) x.d.toNat act
        (fun l => (List.range (32 / fm.w)).foldl (fun a j => a ||| ((one l j).2 ||| (val l j).2 ||| nv l j)) 0) % 32)

/-! ### Lanes -/

/-- Contributing lanes of a strand: active and no helper (R140). -/
def contributing (s : State) (i : Iss) (srcs : List Opnd) : Word := (given s i srcs).act &&& ~~~(s.th i.th).ln.helper

/-- The tile size of a strand (R139). -/
def tileOf (s : State) (i : Iss) : Nat := 2 ^ (s.th i.th).ct.part

/-- The contributing lanes of a lane's tile, ascending. -/
def tileMates (T : Nat) (con : Word) (l : Nat) : List Nat :=
  (List.range 32).filter (fun j => j / T == l / T && con.getLsbD j)

/-- The lane that an exchange reads, if it lies in the tile (R143). -/
def xchSource (mode T l : Nat) (b : Word) : Option Nat :=
  match mode with
  | 0 => some (l / T * T + b.toNat % T)
  | 1 => if 0 ≤ (l % T : Nat) + b.toInt ∧ (l % T : Nat) + b.toInt < T then some (l / T * T + ((l % T : Nat) + b.toInt).toNat) else none
  | 2 => some (l / T * T + (l % T + b.toNat) % T)
  | _ => some (l / T * T + (l % T ^^^ b.toNat % T))

/-- The lane whose value an exchange delivers, and whether the named lane contributes (R143). -/
def xchLane (mode T : Nat) (con : Word) (l : Nat) (b : Word) : Nat × Bool :=
  match xchSource mode T l b with
  | some j => if con.getLsbD j then (j, true) else (l, false)
  | none => (l, false)

/-- The bits of a k register in some lanes, each with its lane's bit (R215). -/
def kWrites (kq : Nat) (act : Word) (f : Nat → Bool) : List (Nat × Word) :=
  (lanesOf act).map (fun l => (kCell kq l, if f l then 1#32 else 0#32))

/-- A step of an integer reduction (Table 8-4). -/
def intStep (op : Nat) (a b : Word) : Word :=
  match op with
  | 0 => a + b
  | 1 => if a.sle b then a else b
  | 2 => if a.sle b then b else a
  | 3 => if a.ule b then a else b
  | 4 => if a.ule b then b else a
  | 5 => a &&& b
  | 6 => a ||| b
  | _ => a ^^^ b

/-- The identity of a reduction (Table 8-4). -/
def stepStart (op : Nat) : Word :=
  ([0, 0x7FFFFFFF, 0x80000000, 0xFFFFFFFF, 0, 0xFFFFFFFF, 0, 0, 0x80000000, 0x7F800000, 0xFF800000] : List Word).getD op 0

/-- A reduction of some values in order, from the identity on, with its flags (R145). -/
def reduced (op : Nat) (vs : List Word) : Word × Nat :=
  if op < 8 then (vs.foldl (intStep op) (stepStart op), 0)
  else if op = 8 then
    vs.foldl (fun r v =>
      let q := sumFV 0 [decodeF fp32 r.1.toNat, decodeF fp32 v.toNat]
      (BitVec.ofNat 32 (roundTo fp32 0 0 q.1).1, r.2 ||| (roundTo fp32 0 0 q.1).2 ||| q.2)) (stepStart op, 0)
  else (vs.foldl (fun r v => BitVec.ofNat 32 (minmaxF fp32 (op == 10) r.toNat v.toNat)) (stepStart op), 0)

/-- A CMP operation whose result is one bit of k register d in each active lane (R215, R217). -/
def KComputes (ins : LForm → Instr) (p : LForm → Bool) (srcs : LForm → List Opnd) (f : LForm → Nat → (Nat → DWord) → Bool) :
    Prop :=
  Completes ins srcs (fun _ => []) (fun _ _ x => p x = true) fun s i x t =>
    ResultW s t i 4 (given s i (srcs x)).cost
      (kWrites x.d.toNat (given s i (srcs x)).act (fun l => f x l (src64 s i (srcs x) l))) 0

/-- A compare with its result in a k register, or with VAL as 1 or 0 in a destination (R216). -/
def Compares (ins : LForm → Instr) (srcs : LForm → List Opnd) (f : LForm → Nat → DWord → DWord → Bool) : Prop :=
  KComputes ins (fun x => x.c.toNat / 8 % 2 == 0) srcs (fun x _ v => f x (x.c.toNat % 8) (v 0) (v 1)) ∧
  Completes ins srcs (fun x => [x.d.toNat]) (fun _ _ x => x.c.toNat / 8 % 2 = 1) fun s i x t =>
    Result s t i (srcs x) x.d.toNat x.tr 4
      (fun l => if f x (x.c.toNat % 8) (src64 s i (srcs x) l 0) (src64 s i (srcs x) l 1) then 1 else 0) 0

/-- The order condition of a compare code (R216). -/
def ordered (cond : Nat) (eq lt : Bool) : Bool :=
  match cond with
  | 0 => eq
  | 1 => !eq
  | 2 => lt
  | 3 => lt || eq
  | 4 => !(lt || eq)
  | _ => !lt

/-- The order of the FP32 codes that are not NaN, in which the zeros are equal (R217). -/
def codeOrder (c : Nat) : Int := if c < 2 ^ 31 then c else -((c - 2 ^ 31 : Nat) : Int)

/-- A lane operation completes wherever it is well formed and ready (R141). -/
def CompletesRd (ins : LForm → Instr) (srcs : LForm → List Opnd) (dsts : LForm → List Nat)
    (rd : State → Iss → LForm → Word → List Nat) (pre : State → Iss → LForm → Prop)
    (post : State → Iss → LForm → State → Prop) : Prop :=
  ∀ (s : State) (x : LForm) (th k : Nat), (ins x).wf = true → pre s (issL x th k) x →
    Ready s (issL x th k) (srcs x) (dsts x) (rd s (issL x th k) x) →
    ∃ t, exec (ins x) s = .next t ∧ post s (issL x th k) x t

/-- The lanes of the issuing group. -/
def groupOf (s : State) (i : Iss) : Word := ((s.th i.th).grp i.k).mask

/-- The source lanes of a quad exchange (R150): those of the group in a quad that holds an active lane. -/
def quadRd (s : State) (i : Iss) (_ : LForm) : Word → List Nat := quadSources (groupOf s i)

/-- The lane of the quad that a lane reads, or itself where that lane is not in the group (R150). -/
def quadLane (grp : Word) (l j : Nat) : Nat := if grp.getLsbD (l / 4 * 4 + j) then l / 4 * 4 + j else l

/-- The packed counts of each tile (R148). -/
def packedCounts (T w : Nat) (f : Nat → Nat) : Word :=
  BitVec.ofNat 32 (((List.range (32 / T)).map (fun q => f (q * T) * 2 ^ (q * w))).foldl (· + ·) 0)

/-! ### Stops, waits and events -/

/-- A thread is stopped with a fault record (R137, R339): the record carries the context's next stop number, the issue slot is
free, register cells stay, and no other thread changes; it says whether another stop is pending; a strand's stop is the handler's to take, or is escalated with
source 0 where its context has no handler code, a handler's is escalated with source 2, and a queue's goes into its status. -/
def StopsWith (s t : State) (th : Nat) (r : FaultRec) : Prop :=
  let u := s.th th
  let c := s.ctx u.pl.ctx
  let r' := { r with seqNo := c.stops % 2 ^ 32, pending := u.ct.pending.isSome }
  (t.th th).ct.stopped = true ∧ (t.th th).ct.fault = some r' ∧ (t.th th).ps.issuing = none ∧ (t.th th).pl = u.pl ∧
  Wrote s t th [] ∧ SameOthers th s t ∧
  (s.hasCtx u.pl.ctx = true → (t.ctx u.pl.ctx).stops = c.stops + 1) ∧
  (u.pl.kind = .strand → c.handler ≠ 0 → (t.th th).ct.acked = false ∧ (t.core u.pl.core).pending = (s.core u.pl.core).pending ++ [th]) ∧
  (u.pl.kind = .strand → c.handler = 0 → (t.th th).ct.acked = true ∧ Escalates s t 0 th r') ∧
  (u.pl.kind = .handler → (t.th th).ct.acked = true ∧ Escalates s t 2 th r') ∧
  (u.pl.kind = .queue → (t.queue (queueOf th)).state = 3)
where
  /-- An escalation of a stop with a source waits for the fault log (R345, R351). -/
  Escalates (s t : State) (source th : Nat) (r : FaultRec) : Prop :=
    ∃ e, t.log.waiting = s.log.waiting ++ [e] ∧ e.source = source ∧ e.threads = [th] ∧ e.cls = clsCode r.cls ∧
      e.ctx = (s.th th).pl.ctx ∧ e.addr = r.addr ∧ e.pc = r.pc ∧ e.mask = r.mask ∧ e.detail = r.detail

/-- An issuing instruction stops its thread: class, lanes named, address and detail, at its own place (R137). -/
def FaultsAt (s t : State) (i : Iss) (cls : FClass) (mask : Word) (addr detail : Nat) : Prop :=
  StopsWith s t i.th { pc := curPc (s.th i.th) i.k, addr := addr, mask := mask, cls := cls, detail := detail }

/-- The register cells of every thread finally hold what they held. -/
def SameRegs (s t : State) : Prop := ∀ n c, (t.th n).rg.final c = (s.th n).rg.final c

/-- The issuing group waits for an operation in flight, its own, and keeps the issue slot (R38). -/
def HeldBy (t : State) (i : Iss) (f : Nat) : Prop :=
  ((t.th i.th).grp i.k).st = .waiting ∧ ((t.th i.th).grp i.k).hold = .flight f ∧ ((t.th i.th).grp i.k).w = true

/-- An operation joins those in flight: it has the next number, belongs to this thread, is not finished, and has its path codes,
destination cells and work; every other operation stays (R267). -/
def Joins (s t : State) (th : Nat) (paths dests : List Nat) (w : Work) : Prop :=
  (∃ f ∈ t.fl, f.id = s.run.nextId ∧ f.th = th ∧ f.core = (s.th th).pl.core ∧ f.ctx = (s.th th).pl.ctx ∧
    f.launch = (s.th th).pl.launch ∧ f.paths = paths ∧ f.dests = dests ∧ f.done = false ∧ f.work = w) ∧
  ∀ g ∈ s.fl, g.id ≠ s.run.nextId → g ∈ t.fl

/-- An operation of a thread starts: among those in flight is a new one with its path codes, destination cells and work; every
earlier one stays (R267). -/
def Starts (s t : State) (th : Nat) (paths dests : List Nat) (w : Work) : Prop :=
  (∃ f ∈ t.fl, s.run.nextId ≤ f.id ∧ f.th = th ∧ f.core = (s.th th).pl.core ∧ f.ctx = (s.th th).pl.ctx ∧
    f.paths = paths ∧ f.dests = dests ∧ f.done = false ∧ f.work = w) ∧
  ∀ g ∈ s.fl, g.id < s.run.nextId → g ∈ t.fl

/-- Every operation in flight has a number that is given out already, and so have the operations that happen before its own and before
those of a thread (R327). -/
def FreshIds (s : State) : Prop :=
  (∀ f ∈ s.fl, f.id < s.run.nextId ∧ ∀ n ∈ f.hb, n < s.run.nextId) ∧ ∀ e ∈ s.ord.hb, ∀ p ∈ e.2, p.1 < s.run.nextId

/-- An operation in flight has finished: it is gone, or is kept only for paths that earlier ones of its thread still hold
(R268). -/
def Finished (t : State) (n : Nat) : Prop := ∀ g ∈ t.fl, g.id = n → g.done = true

/-- Nothing of a thread's asynchronous faults is due. -/
def NoneDue (s : State) (th : Nat) : Prop := (s.th th).ct.pending = none

/-! ### Register frames -/

/-- The shape of every thread: 32 frame words and items, eight arrival masks, four valid number-format registers (R79, R85,
R102, R180, R181); the four words of a handler may be zero, as they are when it starts (R344). -/
def Shaped (t : Strand) : Prop :=
  t.rg.frames.length = 32 ∧ t.ln.items.length = 32 ∧ t.ln.arr.length = 8 ∧ t.ct.nf.length = 4 ∧
  ∀ w ∈ t.ct.nf, nfValid w.toNat = true ∨ (t.pl.kind = .handler ∧ w = 0)

/-- Every thread, and every strand of a saved workgroup, has the shape. -/
def ThreadsShaped (s : State) : Prop :=
  (∀ e ∈ s.ths, Shaped e.2) ∧ ∀ e ∈ s.wgs, ∀ t ∈ e.2.image, Shaped t

/-- A thread with the frame words, transfers, ring and link records of another. -/
def withFrames (t u : Strand) : Strand :=
  { t with rg := { t.rg with
      frames := u.rg.frames
      links := u.rg.links
      need := u.rg.need
      got := u.rg.got
      failed := u.rg.failed
      kept := u.rg.kept
      q := u.rg.q
      plymap := u.rg.plymap } }

/-- The payouts that raising a lane's frame top to a ply needs are made: each lane-ply is clean (R107). -/
def PaidFor (t : Strand) (l top : Nat) : Prop :=
  ∀ p, (t.frame l).lo ≤ p → p < top - t.rg.qf → (p, l) ∈ t.rg.clean

/-- Every resident ply of a lane below its base is clean (R118, R158). -/
def PaidBelow (t : Strand) (l : Nat) : Prop := ∀ p, (t.frame l).lo ≤ p → p < (t.frame l).base → (p, l) ∈ t.rg.clean

/-- A byte of the leaf entry of a virtual address that holds its A and D bits (R264). -/
def LeafAt (s : State) (c va a : Nat) : Prop := ∃ l, walk s c va = some l ∧ a = l.at_

/-- The virtual address of a transfer of the reel (R110, R113). -/
def needVa (s : State) (th : Nat) (n : Need) : Nat :=
  (s.ctx (s.th th).pl.ctx).poolBase + (s.th th).pl.region + n.off (s.transTh (s.th th))

/-- A frame operation completes where its operand is in range and no payout is missing (R107, R109, R116): the frame of each
active lane has its new size, the plies that it gains read as zero, and every other register and frame word stays. -/
def Resizes (ins : LForm → Instr) (hi : Nat) (ok : Nat → Nat → Nat → Prop) (new : Nat → Nat → Nat) : Prop :=
  ∀ (s : State) (x : LForm) (th k : Nat), (ins x).wf = true →
    let i := issL x th k
    let srcs : List Opnd := [{ spec := x.a.toNat }]
    let g := given s i srcs
    let u := s.th th
    let size (l : Nat) : Nat := new (u.frame l).size (g.v 0 l)
    Shaped u →
    (∀ l ∈ lanesOf g.act, 1 ≤ g.v 0 l ∧ g.v 0 l ≤ hi ∧ ok (s.transTh u).frame (u.frame l).size (g.v 0 l)) →
    (∀ l ∈ lanesOf g.act, PaidFor u l ((u.frame l).base + size l)) →
    Ready s i srcs [] readActive →
    ∃ t, exec (ins x) s = .next t ∧
      (∀ l, l < 32 → (t.th th).frame l =
        if g.act.getLsbD l then { u.frame l with size := size l, lo := max (u.frame l).lo ((u.frame l).base + size l - u.rg.qf) }
        else u.frame l) ∧
      (∀ l ∈ lanesOf g.act, ∀ r, 8 * ((u.frame l).base + (u.frame l).size) ≤ r → r < 8 * ((u.frame l).base + size l) →
        (t.th th).rg.final (vrCell u.rg r l) = 0) ∧
      (∀ c, (∀ l ∈ lanesOf g.act, ∀ r, 8 * ((u.frame l).base + (u.frame l).size) ≤ r →
          r < 8 * ((u.frame l).base + size l) → c ≠ vrCell u.rg r l) → (t.th th).rg.final c = u.rg.final c) ∧
      Advanced s t i g.cost ∧ IssueFrameOf s t th (withFrames u (t.th th))

/-! ### Memory accesses -/

/-- The state at issue with the queues' heads taken. -/
def poppedState (s : State) (i : Iss) (srcs : List Opnd) : State :=
  s.modTh i.th (fun t => popQueues t (srcs.map (·.spec)))

/-- Every lane's access passes its checks, lanes in ascending order: where each leads, and the state that the walks leave
(R272). -/
def AllReach (s : State) (i : Iss) (srcs : List Opnd) (lanes : List Nat) (f : State → Nat → Except FClass Reach × State)
    (rs : List (Nat × Except FClass Reach)) (s' : State) : Prop :=
  checkLanes f (poppedState s i srcs) lanes = (rs, s') ∧ lanesFault (s.th i.th).ln.helper rs = none

/-- Every lane's element access has been checked up to its scale, no read of a scale waits for an earlier one, and scales, codebook slots and
locks have then been checked (R272, R190): what the checks answer, and the state that the walks leave. -/
def ElemReach (s : State) (i : Iss) (srcs : List Opnd) (lanes : List Nat) (x idx : Nat → Nat) (off : Int) (store : Bool)
    (rs : List (Nat × Except FClass Reach)) (s' : State) : Prop :=
  ∃ rs0, checkLanes (fun s l => elemAt s i.th (x l) (idx l) off store) (poppedState s i srcs) lanes = (rs0, s') ∧
    readWaits s' i.th ((passed rs0).filterMap (·.2.scale)) = none ∧
    rs = rs0.map (fun e => (e.1, e.2.bind (elemOk s' i.th e.1 store)))

/-- An instruction each of whose lanes makes one access: its operands, the lanes that act, and each lane's address and checks. -/
structure LaneAccess where
  ins : Instr
  srcs : List Opnd
  dsts : List Nat := []
  rd : Word → List Nat
  addr : Nat → Nat
  check : State → Nat → Except FClass Reach × State

/-- The instructions whose lanes each make one access that is no element's: loads, stores, atomics, and lane operations on common memory
(R273, R274, R279, R288). -/
def laneAccesses (s : State) (x : LForm) (th k : Nat) : List LaneAccess :=
  let v (srcs : List Opnd) (l n : Nat) : Nat := (given s (issL x th k) srcs).v n l
  let u := s.th th
  let sized (ins : Instr) (srcs : List Opnd) (dsts : List Nat) (rd : Word → List Nat) (acc : Acc) : LaneAccess :=
    let addr (l : Nat) : Nat := laneAddr x (sizeZ x) (v srcs l 0) (v srcs l 1)
    { ins := ins, srcs := srcs, dsts := dsts, rd := rd, addr := addr, check := fun s l => accessAt s th (addr l) (sizeZ x) acc }
  let atomic (ins : Instr) (dsts : List Nat) (rd : Word → List Nat) : LaneAccess :=
    let z := atomZ (x.md.toNat / 2)
    let srcs := [baseA x, atomB (x.md.toNat / 2) x.b]
    let addr (l : Nat) : Nat := wrapN ((v srcs l 0 : Int) + sextN x.c.toNat 4 * z) 64
    { ins := ins, srcs := srcs, dsts := dsts, rd := rd, addr := addr, check := fun s l => accessAt s th (addr l) z .atomic }
  let common (ins : Instr) : LaneAccess :=
    let srcs : List Opnd := [baseA x, { spec := x.b.toNat, ty := if x.ty = 2 ∨ x.ty = 4 then .f32 else .w32 }]
    let addr (l : Nat) : Nat := wrapN ((v srcs l 0 : Int) + offC x * ((if cmExact x.ty then 32 else 4 : Nat) : Int)) 64
    { ins := ins, srcs := srcs, rd := fun act => storeLanes u act [x.a, x.b], addr := addr, check := fun s l => cmAt s th (addr l) x.ty }
  [sized (.ld x) [baseA x, srcB x] ((List.range (sizeRegs x)).map (· + x.d.toNat)) readActive .read,
    sized (.st x) [baseA x, srcB x, dataD x (sizeRegs x)] [] (fun act => storeLanes u act [x.a, x.b, x.d]) .write,
    atomic (.atom x) ((List.range (atomZ (x.md.toNat / 2) / 4)).map (· + x.d.toNat))
      (fun act => if isS x.d.toNat then lanesOf (scalarLane u act) else lanesOf (act &&& ~~~u.ln.helper)),
    atomic (.red x) [] (fun act => storeLanes u act [x.a, x.b]), common (.cmAdd x), common (.cmMax x)]

/-- Every byte of memory reads as before, but that a leaf entry's byte may have gained its A bit (R264). -/
def Marked (s t : State) : Prop := ∀ a, memGet t.mem a = memGet s.mem a ∨ memGet t.mem a = memGet s.mem a ||| 0x20#8

/-- Every byte of memory outside some reads as before, but that a leaf entry's byte may have gained its A and D bits (R264, R265). -/
def TouchedBut (p : Nat → Prop) (s t : State) : Prop :=
  ∀ a, ¬p a → ∃ m : Byte, m ∈ [0x00#8, 0x20#8, 0x40#8, 0x60#8] ∧ memGet t.mem a = memGet s.mem a ||| m

/-- No path counter of a thread would pass 255 by an instruction that raises some paths, once for each mention, beside the commits that
closed quanta of the thread will be (R267). -/
def PathsOpen (s : State) (th : Nat) (ps : List Nat) : Prop :=
  ∀ p ∈ ps, counter s th p + ps.count p + pledged (s.th th) p ≤ 255

/-- The lanes of a load that take a value: all that passed, or one for a scalar destination (R37). -/
def takers (t : Strand) (d : Nat) (rs : List (Nat × Reach)) : List (Nat × Reach) :=
  if isS d then (match rs.find? (fun r => !t.ln.helper.getLsbD r.1) with | some r => [r] | none => rs.take 1) else rs

/-- A load's issue (R267, R273): one operation on the paths that its lanes reach, which holds the destination cells; no
register and no memory changes yet. -/
def LoadIssued (s t : State) (i : Iss) (cost : Nat) (rs : List (Nat × Reach)) (ls : List LoadLane) (acq : Nat) (rp : Bool) : Prop :=
  (rs ≠ [] → Joins s t i.th (rs.map (·.2.path)).eraseDups (ls.flatMap (·.cells)) (.load ls acq rp)) ∧
  (rs = [] → NoneDue s i.th → t.fl = s.fl) ∧
  Wrote s t i.th [] ∧ SameOthers i.th s t ∧ Advanced s t i cost ∧ (NoneDue s i.th → Marked s t)

/-- A plain store's issue (R274, R315): its bits join the lanes' open quanta, and no memory changes while the quanta need no
log. -/
def StoreBuffered (s t : State) (i : Iss) (cost : Nat) (es : List BufEntry) : Prop :=
  (t.th i.th).qn = (bufPutAll (s.th i.th).qn es).1 ∧
  Wrote s t i.th [] ∧ SameOthers i.th s t ∧ Advanced s t i cost ∧
  (NoneDue s i.th → t.fl = s.fl ∧ ((bufPutAll (s.th i.th).qn es).2 = 0 → Marked s t))

/-- Buffered stores fit: no lane needs a log record, or the log has room and the range-lock tables have it for the log's write (R299,
R319, R320). -/
def StoresFit (s : State) (th : Nat) (es : List BufEntry) : Prop :=
  (bufPutAll (s.th th).qn es).2 = 0 ∨
    ((bufPutAll (s.th th).qn es).1.used ≤ logCap s (s.th th) ∧ lockRoom s (s.th th).pl.core = true)

/-- The issuing group waits for something, in a slot or on the fork stack (R81, R128). -/
def WaitsFor (s t : State) (i : Iss) (h : Hold) : Prop :=
  ∃ g ∈ groupsOf (t.th i.th), g.st = .waiting ∧ g.hold = h ∧ g.mask = groupOf s i

/-! ### Atomics and barriers -/

/-- The lanes of an atomic, one after another: what memory holds then, and the words that their cells take (R279). -/
def atomSteps (op z : Nat) : List AtomLane → List Host.Cell → List Host.Cell × List (Nat × Word)
  | [], m => (m, [])
  | l :: ls, m =>
    let old := memNat m l.pa z
    let m1 := l.leaf.foldl (fun m a => memSet m a (memGet m a ||| 0x40#8)) m
    let r := atomSteps op z ls (memPut m1 l.pa z (atomV op old l.v l.cmp))
    (r.1, l.cells.zip (splitWords old l.cells.length) ++ r.2)

/-- What a strand's quanta are after a commit of some lanes (R316, R319): their stores are gone, and the log's used count is 0 once no
quantum has a record in it. -/
def afterCommit (q : Quanta) (lanes : Word) : Quanta :=
  { dropOpen q lanes with used := if (dropOpen q lanes).logs then q.used else 0 }

/-- The lanes whose quanta an atomic commits at its issue (R322): all of them where a buffered store of a lane lies under its bytes, and
the group's for a release. -/
def atomCommits (t : Strand) (k : Nat) (rs : List (Nat × Reach)) (rel : Bool) : Word :=
  if overlapsQuanta t (rs.flatMap (·.2.pas)) then 0xFFFFFFFF else if rel then (t.grp k).mask else 0

/-- Where an operation in flight writes some results (R123): the cells in which their lane-plies lie now; those whose lane-ply has been
paid out since the issue have none. -/
def homeWrites (s : State) (f : Flight) (ws : List (Nat × Word)) : List (Nat × Word) :=
  ws.filterMap (fun w => (homeCell (s.th f.th) f w.1).map (fun c => (c, w.2)))

/-- Every result of an operation has its place in the register file still. -/
def InFile (s : State) (f : Flight) (ws : List (Nat × Word)) : Prop := ∀ w ∈ ws, (homeCell (s.th f.th) f w.1).isSome = true

/-- The results of an operation land (R123, R267): each in the cell where its register lies now; other threads stay. -/
def ResultsLand (s t : State) (f : Flight) (ws : List (Nat × Word)) : Prop :=
  ((homeWrites s f ws).map (·.1)).Nodup → Wrote s t f.th (homeWrites s f ws)

/-- Ranges of z bytes from some addresses on do not meet. -/
def Apart (z : Nat) (as : List Nat) : Prop := as.Pairwise (fun a b => a + z ≤ b ∨ b + z ≤ a)

/-- The state in which the lanes of a group have arrived at a barrier and its phase's count is fixed (R87). -/
def arrivedState (s : State) (i : Iss) (srcs : List Opnd) (id count : Nat) : State :=
  let act := (given s i srcs).act
  let u := (arriveLanes id (lanesOf act) (popped s i srcs)).1
  ((hbArrive (poppedState s i srcs) (barKey u.pl.wg id) (comesAfter (poppedState s i srcs) i.th act)).setTh i.th u).modWg u.pl.wg (fun w => { w with bars := w.bars.set id (fixCount (w.bars.getD id 0) count) })

/-! ### Control -/

/-- Where a lane of the issuing group goes on: at its target where it acts, else at the next clause (R126). -/
def destOf (s : State) (i : Iss) (rs : List (Nat × Target)) (l : Nat) : Nat :=
  match rs.find? (fun e => e.1 == l) with
  | some (_, .ok d) => d
  | _ => nextClause (s.th i.th) i.k

/-- The fork stack has room for the groups that a transfer to some destinations makes (R126, R127). -/
def Room (s : State) (i : Iss) (dest : Nat → Nat) : Prop :=
  let n := ((lanesOf (groupOf s i)).map dest).eraseDups.length
  n ≤ 1 ∨ (s.th i.th).ps.fork.length + n ≤
    (s.transTh (s.th i.th)).forks + (if ((s.th i.th).slot (1 - i.k)).grp.isNone then 2 else 1)

/-- The group has divided by destination (R126): each of its lanes is in a runnable group at the lane's destination, with
exactly the lanes that share it. -/
def Divided (s t : State) (i : Iss) (dest : Nat → Nat) : Prop :=
  ∀ l ∈ lanesOf (groupOf s i), ∃ g ∈ groupsOf (t.th i.th), g.st = .runnable ∧ g.pc = dest l ∧
    ∀ m, m < 32 → g.mask.getLsbD m = ((groupOf s i).getLsbD m && dest m == dest l)

/-- A clause has ended (R21, R81): the slot is free; registers, other threads and, but for A bits, memory stay. -/
def ClauseOver (s t : State) (i : Iss) : Prop :=
  Wrote s t i.th [] ∧ SameOthers i.th s t ∧ (t.th i.th).ps.issuing = none ∧ (NoneDue s i.th → Marked s t)

/-- A branch (R22, R126, R127): the acting lanes' targets are checked; the group then divides, or stops with FRAME where the
fork stack has no room, or with the class of the lowest lane whose target fails. -/
def Branches (ins : Instr) (s : State) (i : Iss) (srcs : List Opnd) (f : State → Nat → Target × State) : Prop :=
  ∀ rs s1, Ready s i srcs [] readActive → targetsOf f (poppedState s i srcs) (lanesOf (given s i srcs).act) = (rs, s1) →
    (targetFault rs = none → Room s i (destOf s i rs) → ∃ t, exec ins s = .next t ∧ Divided s t i (destOf s i rs) ∧ ClauseOver s t i) ∧
    (targetFault rs = none → ¬Room s i (destOf s i rs) →
      ∃ t, exec ins s = .next t ∧ FaultsAt s t i .frame (given s i srcs).act 0 0) ∧
    ∀ c a m, targetFault rs = some (c, a, m) → ∃ t, exec ins s = .next t ∧ FaultsAt s t i c m a 0

/-- A call (R121): where each acting lane's frame, depth and plies have room, its link record is written, its frame moves past the
caller's outgoing part, and it goes to its target; else the group stops with FRAME and the lanes that fail. -/
def Calls (ins : Instr) (s : State) (i : Iss) (srcs : List Opnd) (ob8 : Nat) (ret : Nat) (f : State → Nat → Target × State) : Prop :=
  let u := s.th i.th
  let tr := s.transTh u
  let act := (given s i srcs).act
  let fits (l : Nat) : Bool := ob8 + 1 ≤ (u.frame l).size && (u.frame l).depth + 1 ≤ tr.depth &&
    (u.frame l).base + ob8 + tr.frame ≤ tr.fplies
  let full (l : Nat) : Bool := (u.frame l).depth == (u.frame l).linkLow + 16
  ∀ rs s1, Shaped u → Ready s i srcs [] readActive → targetsOf f (poppedState s i srcs) (lanesOf act) = (rs, s1) →
    (targetFault rs = none → (∀ l ∈ lanesOf act, fits l = true) → Room s i (destOf s i rs) →
      (∀ l ∈ lanesOf act, full l = true → ((u.frame l).linkLow, l) ∈ u.rg.kept) →
      ∃ t, exec ins s = .next t ∧ Divided s t i (destOf s i rs) ∧ ClauseOver s t i ∧
        (∀ l, l < 32 → (t.th i.th).frame l = if act.getLsbD l
          then { u.frame l with
            base := (u.frame l).base + ob8
            size := 1
            depth := (u.frame l).depth + 1
            linkLow := (u.frame l).linkLow + (if full l then 1 else 0) }
          else u.frame l) ∧
        ∀ l ∈ lanesOf act, kget? (t.th i.th).rg.links ((u.frame l).depth * 32 + l) =
          some { depth := (u.frame l).depth, size := (u.frame l).size, ob8 := ob8, ret := ret }) ∧
    (targetFault rs = none → (∃ l ∈ lanesOf act, fits l = false) →
      ∃ t, exec ins s = .next t ∧ FaultsAt s t i .frame (maskOf ((lanesOf act).filter (fun l => !fits l))) 0 0) ∧
    ∀ c a m, targetFault rs = some (c, a, m) → ∃ t, exec ins s = .next t ∧ FaultsAt s t i c m a 0

/-- A return (R107, R122): each acting lane, which is in a call, whose record and caller's plies are resident, and whose plies that its
caller's top asks for are paid out, takes its caller's frame and goes to its return point; a lane at depth 0 stops the group with
FRAME. -/
def Returns (ins : Instr) (s : State) (i : Iss) : Prop :=
  let u := s.th i.th
  let act := (given s i []).act
  let low := maskOf ((lanesOf act).filter (fun l => (u.frame l).depth == 0))
  Shaped u → Ready s i [] [] readActive →
  (low = 0 → (∀ l ∈ lanesOf act, (u.frame l).linkLow < (u.frame l).depth ∧ (u.frame l).lo ≤ (u.frame l).base - (retRec u l).ob8 ∧
      PaidFor u l ((u.frame l).base - (retRec u l).ob8 + (retRec u l).size)) →
    ∀ rs s1, targetsOf (fun s l => headerAt s i.th (retRec u l).ret) (poppedState s i []) (lanesOf act) = (rs, s1) →
      (targetFault rs = none → Room s i (destOf s i rs) →
        ∃ t, exec ins s = .next t ∧ Divided s t i (destOf s i rs) ∧ ClauseOver s t i ∧
          ∀ l, l < 32 → (t.th i.th).frame l = if act.getLsbD l
            then { u.frame l with
              base := (u.frame l).base - (retRec u l).ob8
              lo := max (u.frame l).lo ((u.frame l).base - (retRec u l).ob8 + (retRec u l).size - u.rg.qf)
              size := (retRec u l).size
              depth := (u.frame l).depth - 1 }
            else u.frame l) ∧
      ∀ c a m, targetFault rs = some (c, a, m) → ∃ t, exec ins s = .next t ∧ FaultsAt s t i c m a 0) ∧
  (low ≠ 0 → ∃ t, exec ins s = .next t ∧ FaultsAt s t i .frame low 0 0)

/-- The issue of an S-form control instruction (R24). -/
def issS (st : BitVec 3) (th k : Nat) : Iss := { th := th, k := k, size := 1, st := st.toNat }

/-- A control instruction without operands completes in both of its forms wherever it is ready and a condition on the state
holds. -/
def BothForms (short : BitVec 3 → Instr) (long : LForm → Instr) (pre : State → Iss → Prop) (post : State → Iss → State → Prop) :
    Prop :=
  (∀ (s : State) (st : BitVec 3) (th k : Nat), Ready s (issS st th k) [] [] readActive → pre s (issS st th k) →
    ∃ t, exec (short st) s = .next t ∧ post s (issS st th k) t) ∧
  ∀ (s : State) (x : LForm) (th k : Nat), (long x).wf = true → Ready s (issL x th k) [] [] readActive → pre s (issL x th k) →
    ∃ t, exec (long x) s = .next t ∧ post s (issL x th k) t

/-- The lanes that act in an instruction without operands. -/
def acting (s : State) (i : Iss) : Word := (given s i []).act

/-- A group of the issuing thread that is runnable at the next clause with some lanes, if there are any. -/
def GoesOn (s t : State) (i : Iss) (m : Word) : Prop :=
  m ≠ 0 → ∃ g ∈ groupsOf (t.th i.th), g.st = .runnable ∧ g.mask = m ∧ g.pc = nextClause (s.th i.th) i.k

/-- Every byte of memory reads as before, but that a leaf entry's byte may have gained its D bit (R265, R334). -/
def Dirtied (s t : State) : Prop := ∀ a, memGet t.mem a = memGet s.mem a ∨ memGet t.mem a = memGet s.mem a ||| 0x40#8

/-- Lanes leave the issuing group (R92, R98): their quanta commit, the rest of the group goes on, register cells stay, and memory stays
but for D bits where no strand's log is in use. -/
def Leaves (s t : State) (i : Iss) : Prop :=
  let u := s.th i.th
  let secs := sectorsTh s i.th (openEntries u.qn (acting s i))
  (t.th i.th).qn.buf = (dropOpen u.qn (acting s i)).buf ∧ (t.th i.th).qn.log = (dropOpen u.qn (acting s i)).log ∧
  (secs ≠ [] → Starts s t i.th [1] [] (.commit secs 0)) ∧
  GoesOn s t i (groupOf s i &&& ~~~acting s i) ∧ SameRegs s t ∧
  ((∀ n, NoneDue s n ∧ (s.th n).qn.used = 0) → Dirtied s t)

/-- The idle lanes, ascending and no helpers, to which `take` hands its first n items (R93). -/
def servedLanes (u : Strand) (n : Nat) : List Nat := (lanesOf (u.ln.idle &&& ~~~u.ln.helper)).take n

/-- The idle helper lanes of their quads. -/
def servedHelpers (u : Strand) (n : Nat) : List Nat :=
  (lanesOf (u.ln.idle &&& u.ln.helper)).filter (fun l => (servedLanes u n).any (fun m => m / 4 == l / 4))

/-! ### Scheduling -/

/-- A thread issues what its slot has next (R23, R81, R125): a fetched clause, the clause it is part-way through, or the stop that the
fetch gives. -/
def Issues (s t : State) (th k : Nat) (n : Next) : Prop :=
  match n with
  | .fault e => (t.th th).ct.stopped = true ∧ ∃ r, (t.th th).ct.fault = some r ∧ r.cls = e.cls ∧ r.pos = e.pos ∧
      r.addr = e.addr ∧ r.pc = ((s.th th).grp k).pc ∧ r.mask = ((s.th th).grp k).mask
  | .onward => (t.th th).ps.issuing = some k ∧ (t.th th).ps.last = k ∧ (t.th th).slot k = (s.th th).slot k ∧ t.run.cur = some th ∧
      t.mem = s.mem ∧ t.fl = s.fl
  | .clause c => (t.th th).ps.issuing = some k ∧ (t.th th).ps.last = k ∧ ((t.th th).slot k).clause = some c ∧
      ((t.th th).slot k).grp = ((s.th th).slot k).grp ∧ t.run.cur = some th ∧ t.mem = s.mem ∧ t.fl = s.fl

/-- A strand issues a clause and none of the checks at its pick stops it. -/
def Fetched (n : Next) : Prop := ∀ e, n ≠ .fault e

/-- A ready thread is a core's handler. -/
def someHandler (s : State) (l : List (Nat × Nat × Next)) : Prop := ∃ e ∈ l, (s.th e.1).pl.kind = .handler

/-- A strand of some that are ready takes its quadrant's issue slot (R81 to R83): its counters, those of the strands passed over,
and the slot. One that stops at its fetch changes no count (R57, R80). -/
def PickedOf (s t : State) (q th k : Nat) (n : Next) (ready : List (Nat × Nat × Next)) : Prop :=
  (th, k, n) ∈ ready ∧ Issues s t th k n ∧
  (¬Fetched n → ∀ x, (t.th x).ps.passed = (s.th x).ps.passed ∧ (t.th x).ps.progress = (s.th x).ps.progress) ∧
  (Fetched n → (t.th th).ps.passed = 0 ∧ (t.th th).ps.progress = min 65535 ((s.th th).ps.progress + 1) ∧
    (∀ e ∈ ready, e.1 ≠ th → (t.th e.1).ps.passed = (s.th e.1).ps.passed + 1) ∧
    (∀ x ∈ quadThreads s q, x ≠ th → (∀ e ∈ ready, e.1 ≠ x) → (t.th x).ps.passed = 0) ∧
    (t.quad q).holder = some th ∧ (t.quad q).yielded = none)

/-- The place of a strand's slot from a quadrant's rotation pointer on (R82). -/
def fromPointer (s : State) (q th : Nat) : Nat := ((s.th th).pl.slot + 16 - (s.quad q).rho) % 16

/-! ### Words of queues and of the handler -/

/-- A thread has no store to commit, and nothing in flight for which a release of some of its lanes at device scope waits (R324). -/
def Drained (s : State) (th : Nat) (lanes : Word) : Prop :=
  sectorsTh s th (openEntries (s.th th).qn lanes) = [] ∧ homeWaits s th s.run.nextId lanes (hbOf s th lanes) = false

/-- The result cells of a `watch` of z bytes. -/
def watchWrites (d z v : Nat) : List (Nat × Word) :=
  if z = 8 then [(sCell (d + 1 - 384), BitVec.ofNat 32 (v / 2 ^ 32)), (sCell (d - 384), BitVec.ofNat 32 v)]
  else [(sCell (d - 384), BitVec.ofNat 32 v)]

/-- A wait of a queue thread ends or does not begin (R381, R383): the result is in its registers and the thread moves on. -/
def Delivers (s t : State) (i : Iss) (ws : List (Nat × Word)) : Prop :=
  Wrote s t i.th ws ∧ SameOthers i.th s t ∧ Advanced s t i 0 ∧ (NoneDue s i.th → (s.queue (queueOf i.th)).state = 2 →
    (t.queue (queueOf i.th)).state = 1)

/-- A queue thread stands at an instruction in its wait. -/
def StandsAt (s : State) (q : Nat) (ins : Instr) (h : Hold) : Prop :=
  (kget? s.ths (queueNo q)).isSome = true ∧ (s.th (queueNo q)).ct.stopped = false ∧
  nextInstr (s.th (queueNo q)) 0 = some ins ∧
  ∃ g, (s.th (queueNo q)).ps.s0.grp = some g ∧ g.st = .waiting ∧ g.hold = h

/-- The cells that a SYS result writes: one scalar register, or the active lanes of a vector register. -/
def quietWrites (u : Strand) (d : Nat) (act : Word) (f : Nat → Word) : List (Nat × Word) :=
  if isS d then [(sCell (d - 384), f 0)] else laneWrites u d act f

/-- A stopped strand is selected in a handler's window (R346). -/
def Selected (s : State) (th n : Nat) : Prop := winSelected s th = some n ∧ n ≠ th ∧ (s.th th).pl.kind = .handler ∧ NoneDue s th

/-! ### Engines -/

/-- The fields of an arrival barrier (Table 16-9): bytes due, arrivals due, arrivals of a phase, generation. -/
def abFields (v : Nat) : Nat × Nat × Nat × Nat := (bitsOf v 0 32, bitsOf v 32 16, bitsOf v 64 16, bitsOf v 96 31)

/-- The fields once a phase with nothing due has completed (R304). -/
def abSettled (p d n g : Nat) : Nat × Nat × Nat × Nat := if p = 0 ∧ d = 0 then (p, n, n, (g + 1) % 2 ^ 31) else (p, d, n, g)

/-- An arrival barrier stands at an offset of a strand's shared extent, in some bytes (R303). -/
def BarrierAt (s : State) (th off : Nat) (as : List Nat) : Prop :=
  (s.th th).pl.kind = .strand ∧ off % 16 = 0 ∧ abFlats (s.wg (s.th th).pl.wg) off = some as ∧ as.Nodup

/-- A lock entry for some ranges is registered for an operation, unless all of them are empty (R299). -/
def LocksAdded (s t : State) (core ctx id : Nat) (rs : List LockRange) : Prop :=
  let rs := rs.filter (fun r => r.len != 0)
  (rs = [] → t.lk = s.lk) ∧
  (rs ≠ [] → ∃ e, t.lk.entries = s.lk.entries ++ [e] ∧ e.flight = id ∧ e.ranges = rs ∧ e.ctx = ctx ∧ e.core = core ∧
    e.reg = s.lk.next ∧ t.lk.next = s.lk.next + 1)

/-- An engine operation is issued (R295, R299, R307): it joins those in flight, with its pins and its lock entry; no register
changes, and no byte of memory but for A bits. -/
def EngineIssued (s t : State) (i : Iss) (cost : Nat) (paths dests pins : List Nat) (rs : List LockRange) (w : Work) : Prop :=
  (∃ f ∈ t.fl, f.id = s.run.nextId ∧ f.th = i.th ∧ f.core = (s.th i.th).pl.core ∧ f.ctx = (s.th i.th).pl.ctx ∧
    f.paths = paths ∧ f.dests = dests ∧ f.pins = pins ∧ f.done = false ∧ f.work = w) ∧
  (∀ g ∈ s.fl, g.id ≠ s.run.nextId → g ∈ t.fl) ∧
  LocksAdded s t (s.th i.th).pl.core (s.th i.th).pl.ctx s.run.nextId rs ∧
  Wrote s t i.th [] ∧ SameOthers i.th s t ∧ Advanced s t i cost ∧ (NoneDue s i.th → Marked s t)

/-- An engine instruction that its helper lanes do not suppress is ready, its path is open and its locks have room (R293, R295). -/
def EngineReady (s : State) (i : Iss) (path : Nat) (srcs : List Opnd) (dsts : List Nat) : Prop :=
  Ready s i srcs dsts readActive ∧ groupOf s i &&& ~~~(s.th i.th).ln.helper ≠ 0 ∧ PathsOpen s i.th [path] ∧
  lockRoom s (s.th i.th).pl.core = true

/-- The barrier operand of a copy names none, or one that stands in the shared extent (R295). -/
def BarrierFits (s : State) (th : Nat) (b : Option Nat) : Prop := ∀ o, b = some o → ∃ as, BarrierAt s th o as

/-- The elements of an `fget` that all lanes' checks pass (R307). -/
def gathered (rs : List (Nat × Except (FClass × Nat) (List (FetchElem × Nat × Nat × Option Nat)))) :
    List (FetchElem × Nat × Nat × Option Nat) :=
  rs.flatMap (fun r => match r.2 with | .ok l => l | .error _ => [])

/-! ### Tables, splices and feeds -/

/-- A strand's SPL instruction names an open table (R227). -/
def OpenTable (s : State) (th : Nat) (x : LForm) (d : Table) : Prop :=
  (s.th th).pl.kind = .strand ∧ tableOf s (s.th th).pl.wg (x.md.toNat % 4) = some d

/-- What a slot of a table holds, 0 where it is empty. -/
def slotValue (d : Table) (n : Nat) : Nat := (kget? d.slots n).elim 0 (fun e => e.v)

/-- What a table operation of a thread issued on path X does beside changing tables (R227, R267). -/
def TableIssued (s t : State) (i : Iss) (cost : Nat) (dests : List Nat) (w : Work) : Prop :=
  Joins s t i.th [5] dests w ∧ Wrote s t i.th [] ∧ SameOthers i.th s t ∧ Advanced s t i cost ∧ (NoneDue s i.th → Marked s t)

/-- An access thread is at the issue of an instruction of its clause (R162, R168). -/
def AccessAt (s : State) (th : Nat) (a : Access) (c : Clause) : Prop :=
  s.run.cur = some th ∧ (s.th th).access = some a ∧ a.clause = some c ∧ a.ended = false ∧ a.faulted = false

/-- An access thread has become another, and nothing else of its strand but feed queues has changed; no other thread has. -/
def AccessBecomes (s t : State) (th : Nat) (a : Access) : Prop :=
  t.th th = { s.th th with access := some a } ∧ SameOthers th s t ∧ (∀ c, (t.th th).rg.final c = (s.th th).rg.final c)

/-- An access thread past an FLD instruction, with registers changed (R168). -/
def pastFld (a : Access) (c : Clause) (regs : List Nat) : Access :=
  if c.body.length ≤ c.pos + 2 then { a with a := regs, clause := none, pc := c.hdr + 2 + c.body.length }
  else { a with a := regs, clause := some { c with pos := c.pos + 2 } }

/-- A lock, a full queue or a full counter holds no `a.ld` of 128 bytes back (R166). -/
def RowFree (s : State) (th q at_ : Nat) : Prop :=
  feedRows s th q < 16 ∧ PathsOpen s th [7] ∧ lockHit s th at_ 128 false = false

/-! ### Contexts and the outside -/

/-- The maps of the state rise strictly by key. -/
def TablesOrdered (s : State) : Prop :=
  kordered s.ths = true ∧ kordered s.wgs = true ∧ kordered s.launches = true ∧ kordered s.ctxs = true ∧ kordered s.codes = true ∧
  kordered s.quads = true ∧ kordered s.queues = true ∧ kordered s.dls = true ∧ kordered s.up.pages = true

/-- No two requests in service stand in one slot (R392). -/
def SlotsDistinct (s : State) : Prop := s.mg.reqs.Pairwise (fun x y => x.chan ≠ y.chan ∨ x.slot ≠ y.slot)

/-- A context ends (R352): nothing more of it is placed, its launches are gone, and every lane of its strands has exited. -/
def Ends (s t : State) (c : Nat) : Prop :=
  (t.ctx c).ended = true ∧ (t.ctx c).order = [] ∧ (∀ e ∈ t.launches, e.2.ctx ≠ c) ∧
  ∀ n u, kget? s.ths n = some u → u.pl.kind = .strand → u.pl.ctx = c → n % 16384 < 8192 →
    (t.th n).ln.exited = BitVec.allOnes 32 ∧ groupsOf (t.th n) = []

/-- A context error waits for the fault log (R352): source 3, class and address. -/
def Reports (t : State) (c cls addr : Nat) : Prop := ∃ r ∈ t.log.waiting, r.ctx = c ∧ r.cls = cls ∧ r.source = 3 ∧ r.addr = addr

/-- Flat addresses of a range read as zero. -/
def ReadsZero (t : State) (lo n : Nat) : Prop := ∀ a, lo ≤ a → a < lo + n → memGet t.mem a = 0

/-- Bytes stand at flat addresses from a place on. -/
def Stands (t : State) (lo : Nat) (bs : List Byte) : Prop := ∀ j, j < bs.length → memGet t.mem (lo + j) = bs.getD j 0

/-! ### The mailbox -/

/-- A request's turn has come (R392): no request before it waits to begin, none that has begun waits for its end, and no slot serves
two. -/
def Turn (s : State) (r : Request) : Prop :=
  turn s = some r ∧ SlotsDistinct s ∧ (∀ x ∈ s.mg.reqs, x.started = false) ∧ ∀ e ∈ s.ctxs, e.2.dying = false

/-- A request's turn has come while others are in service (R393): none that has begun can end yet. -/
def TurnAfter (s : State) (r : Request) : Prop :=
  turn s = some r ∧ SlotsDistinct s ∧ (∀ e ∈ s.ctxs, e.2.dying = false) ∧ ∀ x ∈ s.mg.reqs, x.started = true →
    (x.op = 0x10 → createReady s x = false) ∧ (x.op = 0x32 → codeUsed s (x.fld 0 8) = true)

/-- A request is served by its operation (R393): its header and payload are as Table 21-2 says, and nothing in service acts on the
same thing. -/
def Served (s : State) (r : Request) (op len : Nat) : Prop :=
  Turn s r ∧ r.op = op ∧ r.good = true ∧ r.payload.length = len ∧ busy s r = false

/-- The reply to a request stands in its slot, the slot is free, and the other requests are in service still (R392). -/
def Replied (s t : State) (r : Request) (status : Nat) (body : List Byte) : Prop :=
  (∀ j, j < 16 → mboxByte t r.chan (r.slot * 4096 + 2048 + j) =
    (leBytes 4 status ++ leBytes 4 r.tag ++ leBytes 4 r.seqNo ++ [0, 0, 0, 0]).getD j 0) ∧
  (∀ j, j < body.length → j < 2032 → mboxByte t r.chan (r.slot * 4096 + 2064 + j) = body.getD j 0) ∧
  inService t r.chan r.slot = false ∧ ∀ x ∈ s.mg.reqs, ¬(x.chan = r.chan ∧ x.slot = r.slot) → x ∈ t.mg.reqs

/-- A request changes nothing but the state of management. -/
def OnlyMgmt (s t : State) : Prop := t = { s with mg := t.mg }

/-- A request is refused with a status and changes nothing else. -/
def Refused (s t : State) (r : Request) (status : Nat) : Prop :=
  Replied s t r status [] ∧ t = { s with mg := { s.mg with mbox := t.mg.mbox, reqs := t.mg.reqs } }

/-- A request is what its slot's bytes say (Table 21-1), as it arrived. -/
def Taken (s t : State) (chan : Nat) (ide : Bool) (r : Request) : Prop :=
  let at_ := r.slot * 4096
  let len := leNat (mboxRead t chan (at_ + 2) 2)
  r.chan = chan ∧ r.op = (mboxByte t chan at_).toNat ∧ r.tag = leNat (mboxRead t chan (at_ + 4) 4) ∧
  r.seqNo = leNat (mboxRead t chan (at_ + 24) 4) ∧ r.payload = mboxRead t chan (at_ + 32) (min len 2016) ∧
  (r.good = true ↔ len ≤ 2016) ∧ r.ide = ide ∧ (r.owner = true ↔ ownerNow s = some chan) ∧ r.at_ = s.now ∧ r.started = false

/-- A master's bytes enter its channel (R392, R393, R395): those of the request part of a slot in service are dropped, those of a reserved field of a
header read as zero (R6), the others stand there; and a slot not in service whose sequence word is written whole with a new value is
submitted, which restarts the owner's lease. -/
def MailboxTakes (s t : State) (chan off : Nat) (bs : List Byte) (ide : Bool) : Prop :=
  let fixed (o : Nat) : Bool := inService s chan (o / 4096) && decide (o % 4096 < 2048)
  let subs := (List.range 16).filter (fun n => !inService s chan n && decide (off ≤ n * 4096 + 24 ∧ n * 4096 + 28 ≤ off + bs.length ∧
    mboxRead t chan (n * 4096 + 24) 4 ≠ mboxRead s chan (n * 4096 + 24) 4))
  (∀ j, j < bs.length → mboxByte t chan (off + j) =
    if fixed (off + j) then mboxByte s chan (off + j) else if hdrReserved (off + j) then 0 else bs.getD j 0) ∧
  (∀ o, o < 65536 → ¬(off ≤ o ∧ o < off + bs.length) → mboxByte t chan o = mboxByte s chan o) ∧
  (∃ rs, t.mg.reqs = s.mg.reqs ++ rs ∧ rs.map (·.slot) = subs ∧ ∀ r ∈ rs, Taken s t chan ide r) ∧
  t.mg.leaseEnd = if subs ≠ [] ∧ ownerNow s = some chan then s.now + 2400000000 else s.mg.leaseEnd

/-! ### Die links -/

/-- A message goes out on its link against credits of its class, or waits for them (R398, R399). -/
def Sends (s t : State) (m : NgMsg) : Prop :=
  if maySend s m then t.io.sent = s.io.sent ++ [m] ∧ t.io.outbox = s.io.outbox
  else t.io.sent = s.io.sent ∧ t.io.outbox = s.io.outbox ++ [m]

/-- The answer to a message of the die protocol. -/
def answerTo (m : NgMsg) (cls : Nat) (data : List Byte) : NgMsg :=
  { m with cls := cls, op := 0, data := data, more := (data.length + 15) / 16 }

/-- A message of a class arrives on a link that is enabled: its fields fit Table 21-5, and it is of the protocol. -/
def Arrives (s : State) (m : NgMsg) (cls : Nat) : Prop :=
  m.cls = cls ∧ msgFits m = true ∧ msgKnown m = true ∧ ∃ l, kget? s.io.dies m.link = some l ∧ l.disabled = false

/-- What memory holds after a write or an atomic of the other die (R400): a write puts the bytes of its mask into its sector, an
atomic its result. -/
def afterRequest (mem : Nat → Byte) (m : NgMsg) (a : Nat) : Byte :=
  if m.op = 2 then
    (if m.addr / 32 * 32 ≤ a ∧ a < m.addr / 32 * 32 + 32 ∧ m.operand.testBit (a - m.addr / 32 * 32) = true then m.data.getD (a - m.addr / 32 * 32) 0
     else mem a)
  else
    let z := atomZ (m.op - 16)
    let old := leNat ((List.range z).map (fun k => mem (m.addr + k)))
    let v := if z = 8 then leNat (m.data.take 8) else m.operand
    if m.addr ≤ a ∧ a < m.addr + z then (leBytes z (atomV (m.op - 16) old v (leNat ((m.data.drop 8).take z)))).getD (a - m.addr) 0
    else mem a

/-- The lines of some bytes of which the other compute die holds a copy are snooped there (R400): a snoop of each has gone out or waits for
credits, unless one waits for its answer already. -/
def Snoops (s t : State) (pas : List Nat) : Prop :=
  ∀ n ∈ copiesOf s pas, (∃ l, kget? s.io.dies 2 = some l ∧ ∃ x ∈ l.pend, x.cls = 1 ∧ x.addr = 128 * n) ∨
    ∃ x ∈ t.io.sent ++ t.io.outbox, x.link = 2 ∧ x.cls = 1 ∧ x.addr = 128 * n

/-- How a write or an atomic of the other die is answered: an acknowledgement, or the old value. -/
def requestAnswer (mem : Nat → Byte) (m : NgMsg) : NgMsg :=
  if m.op = 2 then answerTo m 2 []
  else answerTo m 3 ((List.range (atomZ (m.op - 16))).map (fun k => mem (m.addr + k)))

/-- A request of the die protocol that changes memory. -/
def Writes (m : NgMsg) : Prop := m.op = 2 ∨ (16 ≤ m.op ∧ m.op < 32)

/-- A message's slots are free again (R399): a control slot returns its credits, and acknowledges one message more (R398). -/
def CreditsBack (s t : State) (m : NgMsg) : Prop :=
  t.io.ctl = s.io.ctl ++ [(m.link, (List.replicate 6 0).set m.cls (m.more + 1), (kgetD s.io.dies m.link {}).got + 1)]

/-- A request has to wait: behind an earlier one of its link to its line (R399), or for the answer to a snoop of the line (R400). -/
def Behind (s : State) (m : NgMsg) : Prop :=
  (∃ x ∈ (kgetD s.io.dies m.link {}).pend, x.cls = 0 ∧ x.addr / 128 = m.addr / 128) ∨
    ∃ x ∈ (kgetD s.io.dies 2 {}).pend, x.cls = 1 ∧ x.addr / 128 = m.addr / 128

/-- The requests of the other dies that wait, link by link. -/
def waitingReqs (s : State) : List NgMsg := s.io.dies.flatMap (fun e => e.2.pend.filter (·.cls == 0))

/-- What the end of the snoop `x` that `m` answers leaves, where the bytes at the homes are then `mem` (R400): with nothing waiting, the device's
own bytes for the line are written; and a request or a host write that alone waits for the line is carried out (log 13). -/
def SnoopEnds (s t : State) (m x : NgMsg) (mem : Nat → Byte) : Prop :=
  let n := x.addr / 128
  let own := s.io.parked.filter (fun e => e.1 / 128 == n)
  (waitingReqs s = [] → s.io.waits = [] →
    (∀ a, memGet t.mem a = (own.reverse.lookup a).getD (mem a)) ∧ t.io.parked = s.io.parked.filter (fun e => e.1 / 128 != n) ∧
    t.io.sent = s.io.sent ∧ t.io.outbox = s.io.outbox ∧ kgetD t.ch.dir n 0 = 0 ∧ CreditsBack s t m ∧
    ∃ k, kget? t.io.dies m.link = some k ∧
      k.pend = (kgetD s.io.dies m.link {}).pend.filter (fun y => !(y.cls == 1 && y.tag == m.tag))) ∧
  (∀ y, waitingReqs s = [y] → s.io.waits = [] → own = [] → kordered s.io.dies = true → m.link = 2 → y.addr / 128 = n → Writes y →
    (∀ z ∈ (kgetD s.io.dies 2 {}).pend, z.cls = 1 → z.addr / 128 = n → z.tag = m.tag) → populated s y.addr = true →
    (16 ≤ y.op → y.addr % atomZ (y.op - 16) = 0) →
    Sends s t (requestAnswer mem y) ∧ (∀ a, memGet t.mem a = afterRequest mem y a) ∧ kgetD t.ch.dir n 0 = 0 ∧ waitingReqs t = []) ∧
  ∀ a as, waitingReqs s = [] → s.io.waits = [.host a] → own = [] → a.write = true → a.bar = 2 → a.fn = 0 → a.size ≠ 0 →
    (kgetD s.io.funcs 0 {}).ide = false ∨ a.ide = true → barFlats s a = some as → copiesOf s as = [n] → as.Nodup →
    memGets t.mem as = leBytes a.size a.value ∧ t.io.waits = []

/-- One end of a link has been decided (R401), and with the last one discovery ends: a die without a verified path to the host die is held in
reset, its quadrants withdrawn (log 14), and work is accepted where some die has one. -/
def Decided (s t : State) (link : Nat) (p : DieLink → Prop) : Prop :=
  (∃ l, kget? t.io.dies link = some l ∧ p l) ∧ (∀ n, n ≠ link → kget? t.io.dies n = kget? s.io.dies n) ∧
  ((∃ e ∈ t.io.dies, e.2.verified = false ∧ e.2.disabled = false) → t.up.accepting = s.up.accepting ∧ t.quads = s.quads) ∧
  ((∀ e ∈ t.io.dies, e.2.verified = true ∨ e.2.disabled = true) → s.up.accepting = false →
    (t.up.accepting = true ↔ ∃ d, d < Config.dies ∧ pathUp t d = true) ∧
    ∀ d q, d < Config.dies → q / 256 = d → (t.quad q).withdrawn = ((s.quad q).withdrawn || !pathUp t d) ∧
      (d ∈ t.up.held ↔ pathUp t d = false))

/-! ### The loader's duty on a portable kernel (R63, R65, R66; log 8) -/

/-- One state is reached from another in some steps, each from a state of which a condition holds. -/
inductive ReachesIn (p : State → Prop) : State → State → Prop where
  | here (s : State) : ReachesIn p s s
  | more {s t u : State} : p s → step s = .next t → ReachesIn p t u → ReachesIn p s u

/-- The translation that a strand runs is an object, mapped in its window (R62). -/
def RunsObject (s : State) (th : Nat) (n : List Byte) (ts : List (List Nat)) : Prop :=
  ∃ c t, kget? s.codes (s.th th).pl.code = some c ∧ kget? c.trans (s.th th).pl.trans = some t ∧ t = transAtOff n ts t.off ∧
    memGets s.mem (rangeFrom (codeFlat (s.th th).pl.code + t.off) (codeFlat (s.th th).pl.code + t.off + n.length)) = mappedImage n t

/-- A strand of one live lane stands alone where a launch starts it (R75): nothing is in flight, and nothing from outside comes. -/
def StandsAlone (s : State) (th lane : Nat) : Prop :=
  let u := s.th th
  lane < 32 ∧ u.pl.kind = .strand ∧ s.ths = [(th, u)] ∧ s.fl = [] ∧ s.lk.entries = [] ∧ s.launches = [] ∧ s.run.agenda = [] ∧
  u.ln.exited = ~~~(1#32 <<< lane) ∧ u.ln.helper = 0 ∧ u.ct.pending = none ∧
  u.ps = { s0 := { grp := some { pc := (s.transTh u).entry, mask := 1#32 <<< lane } } }

/-- A flat address that a page of a strand's lane-private pool maps, where a translation keeps what it likes (R66). -/
def PoolByte (s : State) (th a : Nat) : Prop :=
  let c := (s.th th).pl.ctx
  ∃ va l, (s.ctx c).poolBase ≤ va ∧ va < (s.ctx c).poolBase + (s.ctx c).poolSize ∧ walk s c va = some l ∧ a = l.pa va

/-- The register cells that a callee leaves as it found them in a lane (R63): g0, g1 and s0 to s15. -/
def calleeCells (l : Nat) : List Nat := gCell 0 l :: gCell 1 l :: (List.range 16).map sCell

/-- A lane of a strand stands at an instruction, at its place. -/
def LaneAt (s : State) (th l : Nat) (p : Nat → Instr → Prop) : Prop :=
  ∃ k ins, ((s.th th).grp k).mask.getLsbD l = true ∧ nextInstr (s.th th) k = some ins ∧ p (curPc (s.th th) k) ins

/-- A place is that of the first instruction of a clause that a translation of an object calls (R63). -/
def EntryPlace (s : State) (th : Nat) (n : List Byte) (ts : List (List Nat)) (pc : Nat) : Prop :=
  ∃ o ∈ (sliceInstrs n).flatMap (calls ts), pc = ((s.transTh (s.th th)).off + objF n 0x28 4) / 4 + o + 2

/-- An instruction that returns. -/
def IsRet : Instr → Prop
  | .ret _ | .ctlsRet _ => True
  | _ => False

/-- An instruction that calls at an offset. -/
def CallsAt (ob : Nat) : Instr → Prop
  | .call x | .callx x => x.d.toNat = ob
  | _ => False

/-- A translation keeps the calling convention wherever a lane comes from a state (R63): a caller of n plies calls at 8(n − 1), and a callee
returns with g0, g1 and s0 to s15 as they stood at its entry. -/
def KeepsConvention (s0 : State) (th l : Nat) (n : List Byte) (ts : List (List Nat)) : Prop :=
  (∀ s ob, ReachesIn (fun _ => True) s0 s → LaneAt s th l (fun _ => CallsAt ob) → ob = 8 * (((s.th th).frame l).size - 1)) ∧
  ∀ s t, ReachesIn (fun _ => True) s0 s → LaneAt s th l (fun pc _ => EntryPlace s th n ts pc) →
    ReachesIn (fun u => ((s.th th).frame l).depth ≤ ((u.th th).frame l).depth) s t → LaneAt t th l (fun _ => IsRet) →
    ((t.th th).frame l).depth = ((s.th th).frame l).depth →
    ∀ c ∈ calleeCells l, (t.th th).rg.final c = (s.th th).rg.final c

/-- The loader does its duty (log 8): every kernel that it takes translates (R65), and wherever the kernel itself, run on a lane, comes to its
end, a lane of the translation comes to its end with the same memory, but for the pool and for A and D bits (R64, R66), and keeps the
calling convention on its way (R63). -/
def LoaderRight : Prop :=
  ∀ (b : List Byte) (k : Twifel.Kernel), (checkObject b).isSome = true →
    Twifel.parse ((b.drop (objF b 0x50 4)).take (objF b 0x54 4)) = some k → k.ok = true →
    ∃ n ts, translated b k = some (n, ts) ∧
      ∀ s th lane fuel s', StandsAlone s th lane → RunsObject s th n ts → runKernel k th lane fuel s = some s' →
        (∃ t, ReachesIn (fun _ => True) s t ∧ t.fl = [] ∧ (kget? t.ths th = none ∨ (t.th th).ln.exited = BitVec.allOnes 32) ∧
          TouchedBut (PoolByte s th) s' t) ∧
        KeepsConvention s th lane n ts

end Sys2Proof.Machine
end

