-- ==== Sys2Proof/Certificates/Slice0/Obligations.lean ====
section
/-!
DEFINITION. The statements for the provers. Each says of the model what a numbered rule of spec/ says of the part, or what
holds of every step.
-/

open Sys2Proof Sys2Proof.Machine

/-! ### Arithmetic -/

/-- R24, R25: the short forms give each active lane of the group, or a scalar register, the result of their INT twins;
`fabs` clears bit 31; `ldi` gives its sign-extended constant. -/
def Obligations.ShortFormResults : Prop :=
  (∀ p ∈ ([(.unMov, id), (.unNot, fun a => ~~~a), (.unNeg, fun a => -a), (.unAbs, fun a => if a.slt 0 then -a else a),
      (.unPopc, fun a => BitVec.ofNat 32 ((List.range 32).filter (fun i => a.getLsbD i)).length),
      (.unClz, BitVec.clz), (.unBrev, BitVec.reverse)] : List ((SForm → Instr) × (Word → Word))), UnComputes p.1 .w32 p.2) ∧
  UnComputes .fabs .f32 (fun a => a &&& 0x7FFFFFFF) ∧
  ∀ (s : State) (x : LdiForm) (th k : Nat), (Instr.ldi x).wf = true → Ready s (issLdi x th k) [] [x.d.toNat] readActive →
    ∃ t, exec (.ldi x) s = .next t ∧ Result s t (issLdi x th k) [] x.d.toNat false 4 (fun _ => x.imm.signExtend 32) 0

/-- R204: sums, differences, products and their high words. R204: minima, maxima, magnitude and negation, signed or unsigned at
either width. -/
def Obligations.IntArithmetic : Prop :=
  (IntTwo .add (fun x a b => if x.c = 1 then clampAdd a b else a + b) (fun _ a b => a + b) ∧
  IntTwo .sub (fun x a b => if x.c = 1 then clampSub a b else a - b) (fun _ a b => a - b) ∧
  IntTwo .mul (fun _ a b => a * b) (fun _ a b => a * b) ∧
  Int32 .mulh (fun x => [srcA x, srcB x]) (fun _ v => ((v 0).signExtend 64 * (v 1).signExtend 64).extractLsb' 32 32) ∧
  Int32 .mulhu (fun x => [srcA x, srcB x]) (fun _ v => ((v 0).setWidth 64 * (v 1).setWidth 64).extractLsb' 32 32) ∧
  Int32 .mad (fun x => [srcA x, srcB x, srcC x]) (fun _ v => v 0 * v 1 + v 2)) ∧
  (IntTwo .min (fun _ a b => if a.sle b then a else b) (fun _ a b => if a.sle b then a else b) ∧
  IntTwo .max (fun _ a b => if a.sle b then b else a) (fun _ a b => if a.sle b then b else a) ∧
  IntTwo .minu (fun _ a b => if a.ule b then a else b) (fun _ a b => if a.ule b then a else b) ∧
  IntTwo .maxu (fun _ a b => if a.ule b then b else a) (fun _ a b => if a.ule b then b else a) ∧
  Int32 .abs (fun x => [srcA x]) (fun _ v => if (v 0).slt 0 then -(v 0) else v 0) ∧
  IntOne .neg (fun a => -a) (fun a => -a))

/-- R204: bitwise logic, shifts, moves, counts and bit reversal. R205: truth tables, bit fields and sums of byte products. -/
def Obligations.IntLogicAndFields : Prop :=
  (IntTwo .and (fun _ a b => a &&& b) (fun _ a b => a &&& b) ∧
  IntTwo .or (fun _ a b => a ||| b) (fun _ a b => a ||| b) ∧
  IntTwo .xor (fun _ a b => a ^^^ b) (fun _ a b => a ^^^ b) ∧
  IntOne .not (fun a => ~~~a) (fun a => ~~~a) ∧
  IntOne .mov id id ∧
  Int32 .tbl3 (fun x => [srcA x, srcB x, srcD x])
    (fun x v => (List.range 8).foldl (fun r m => r ||| if x.c.getLsbD m then minterm m (v 2) (v 0) (v 1) else 0) 0) ∧
  IntShift .shl (fun a n => a <<< n) (fun a n => a <<< n) ∧
  IntShift .shr (fun a n => a >>> n) (fun a n => a >>> n) ∧
  IntShift .sar (fun a n => a.sshiftRight n) (fun a n => a.sshiftRight n) ∧
  Int32 .rotl (fun x => [srcA x, srcB x]) (fun _ v => (v 0).rotateLeft ((v 1).toNat % 32))) ∧
  (Int32 .bfeu (fun x => [srcA x, srcB x, srcC x]) (fun _ v => (v 0 &&& fieldMask (v 1) (v 2)) >>> ((v 1).toNat % 32)) ∧
  Int32 .bfe (fun x => [srcA x, srcB x, srcC x]) (fun _ v =>
    ((v 0 &&& fieldMask (v 1) (v 2)) <<< (32 - min ((v 2).toNat % 64) (32 - (v 1).toNat % 32) - (v 1).toNat % 32)).sshiftRight
      (32 - min ((v 2).toNat % 64) (32 - (v 1).toNat % 32))) ∧
  Int32 .bfi (fun x => [srcA x, srcB x, srcC x, srcD x]) (fun _ v =>
    (v 3 &&& ~~~fieldMask (v 1) (v 2)) ||| ((v 0 <<< ((v 1).toNat % 32)) &&& fieldMask (v 1) (v 2))) ∧
  Int32 .dot4 (fun x => [srcA x, srcB x, srcC x]) (fun _ v => v 2 + byteDot (v 0) (v 1)) ∧
  Int32 .clz (fun x => [srcA x]) (fun _ v => (v 0).clz) ∧
  Int32 .popc (fun x => [srcA x]) (fun _ v => BitVec.ofNat 32 ((List.range 32).filter (fun i => (v 0).getLsbD i)).length) ∧
  Int32 .brev (fun x => [srcA x]) (fun _ v => (v 0).reverse))

/-- R206: 64-bit address arithmetic on register pairs, with a 32-bit operand extended by sign or by zero. R207, R259: the address of
a label of the code, and the parts of generic addresses. -/
def Obligations.AddressInstructions : Prop :=
  (Computes64 .add64 (fun _ => true) 4 (fun x => [wide x.a (adrTy x), adrB x]) (fun x v => v 0 + adrOperand x (v 1)) ∧
  Computes64 .sub64 (fun _ => true) 4 (fun x => [wide x.a (adrTy x), adrB x]) (fun x v => v 0 - adrOperand x (v 1)) ∧
  Computes64 .lea (fun _ => true) 4 (fun x => [wide x.a (adrTy x), srcB x])
    (fun x v => v 0 + (adrOperand x (v 1) <<< x.c.toNat)) ∧
  Computes64 .mov64 (fun x => !adrSx x && !adrZx x && isPair x.a.toNat) 4 (fun x => [wide x.a .b64]) (fun _ v => v 0) ∧
  Computes64 .mov64 (fun x => adrSx x || adrZx x || !isPair x.a.toNat) 4 (fun x => [srcA x]) (fun x v => extended x (v 0)) ∧
  Computes64 .shl64 (fun _ => true) 4 (fun x => [wide x.a .s64, srcB x]) (fun _ v => v 0 <<< ((v 1).toNat % 64)) ∧
  Computes64 .shr64 (fun _ => true) 4 (fun x => [wide x.a .s64, srcB x]) (fun _ v => v 0 >>> ((v 1).toNat % 64))) ∧
  ((∀ (s : State) (x : LForm) (th k : Nat), (Instr.leaCode x).wf = true →
    Ready s (issL x th k) [] [x.d.toNat, x.d.toNat + 1] readActive →
    ∃ t, exec (.leaCode x) s = .next t ∧
      Result64 s t (issL x th k) [] x.d.toNat 4
        (fun _ => BitVec.ofNat 64 (codeVa s (s.th th).pl.code (curPc (s.th th) k)) + (x.lit.getD 0).signExtend 64) 0) ∧
  Computes64 .apoff (fun _ => true) 4 (fun x => [wide x.a .b64])
    (fun _ v => if spaceOf (v 0).toNat = 7 then BitVec.allOnes 64 else v 0 - BitVec.ofNat 64 (spaceBase (spaceOf (v 0).toNat))) ∧
  Computes64 .apgen (fun _ => true) 4 (fun x => [wide x.a .b64])
    (fun x v => BitVec.ofNat 64 (spaceBase (x.md.toNat / 2 % 8)) + v 0) ∧
  ∀ (s : State) (x : LForm) (th k : Nat), (Instr.apclass x).wf = true →
    Ready s (issL x th k) [wide x.a .b64] [x.d.toNat] readActive →
    ∃ t, exec (.apclass x) s = .next t ∧
      Result s t (issL x th k) [wide x.a .b64] x.d.toNat x.tr 4
        (fun l => BitVec.ofNat 32 (spaceOf (src64 s (issL x th k) [wide x.a .b64] l 0).toNat)) 0)

/-! ### Floating point -/

/-- R208, R209, R203: each FPU operation gives each element its exact result rounded once, or the element it selects, and sets
the status flags of its elements. -/
def Obligations.FpuResults : Prop :=
  FpuRounds .fadd 2 (fun x e => sumFV x.rn [e 0, e 1]) ∧
  FpuRounds .fsub 2 (fun x e => sumFV x.rn [e 0, (e 1).neg]) ∧
  FpuRounds .fmul 2 (fun _ e => mulFV (e 0) (e 1)) ∧
  FpuRounds .fma 3 (fun x e => fmaFV x.rn (e 0) (e 1) (e 2)) ∧
  FpuRounds .fnma 3 (fun x e => fmaFV x.rn (e 0).neg (e 1) (e 2)) ∧
  FpuSelects .fmin 2 (fun x e => minmaxF (fFmt x) false (e 0) (e 1)) ∧
  FpuSelects .fmax 2 (fun x e => minmaxF (fFmt x) true (e 0) (e 1)) ∧
  FpuSelects .fclamp 3 (fun x e => minmaxF (fFmt x) false (minmaxF (fFmt x) true (e 0) (e 1)) (e 2)) ∧
  FpuSelects .fround 1 (fun x e => match decodeF fp32 (e 0) with
    | .nan => canonNaN fp32
    | .inf _ => e 0
    | .fin n m ex => (roundTo fp32 0 0 (.fin n (intRounded x.rn n m ex).1 0)).1) ∧
  ComputesF .fdot2 (fun _ => true) 6 (fun x => [fop x x.a, fop x x.b, { spec := x.c.toNat, ty := .f32 }]) (fun x v =>
    let p (j : Nat) := mulFV (decodeF (fFmt x) ((v 0).extractLsb' (16 * j) 16).toNat)
      (decodeF (fFmt x) ((v 1).extractLsb' (16 * j) 16).toNat)
    let q := sumFV x.rn [(p 0).1, (p 1).1, decodeF fp32 (v 2).toNat]
    if (p 0).2 ≠ 0 ∨ (p 1).2 ≠ 0 then (BitVec.ofNat 32 (canonNaN fp32), flNV)
    else (BitVec.ofNat 32 (roundTo fp32 x.rn 0 q.1).1, (roundTo fp32 x.rn 0 q.1).2 ||| q.2))

/-- R202: sums and products of finite values are exact, opposed infinities and a zero times an infinity are NaN with NV, and a
NaN gives NaN with no flag. -/
def Obligations.FpArithmeticIsExact : Prop :=
  (∀ (rm : Nat) (a b : Bool) (m n : Nat) (e g u : Int), u ≤ e → u ≤ g → u ≤ 0 →
    ∃ c p h, sumFV rm [.fin a m e, .fin b n g] = (.fin c p h, 0) ∧ u ≤ h ∧
      signedAt c p h u = signedAt a m e u + signedAt b n g u ∧
      (signedAt c p h u = 0 → c = if (m = 0 ∧ n = 0) ∧ a = b then a else rm == 2)) ∧
  (∀ (a b : Bool) (m n : Nat) (e g : Int), mulFV (.fin a m e) (.fin b n g) = (.fin (a != b) (m * n) (e + g), 0)) ∧
  (∀ (rm : Nat) (a : Bool), sumFV rm [.inf a, .inf !a] = (.nan, flNV) ∧ sumFV rm [.inf a, .inf a] = (.inf a, 0)) ∧
  (∀ (rm : Nat) (a b : Bool) (m : Nat) (e : Int), sumFV rm [.inf a, .fin b m e] = (.inf a, 0)) ∧
  (∀ (a b : Bool) (e : Int), mulFV (.inf a) (.fin b 0 e) = (.nan, flNV) ∧ mulFV (.fin b 0 e) (.inf a) = (.nan, flNV)) ∧
  (∀ (a b : Bool) (m : Nat) (e : Int), m ≠ 0 → mulFV (.inf a) (.fin b m e) = (.inf (a != b), 0)) ∧
  ∀ (rm : Nat) (v : FV), sumFV rm [.nan, v] = (.nan, 0) ∧ sumFV rm [v, .nan] = (.nan, 0) ∧ mulFV .nan v = (.nan, 0)

/-- R178, R203: a finite value of no format's overflow rounds to a code whose value is less than one unit away, on the side that the
mode names, to the even code at a tie of nearest-even, and NX says whether it differs. R177, R178: a code that is not NaN is the
rounding of its own value, in every mode and with no flag. R178, R179, Table 10-2: in every mode, stochastic too, the code is that of the
magnitude chosen, or on overflow, an infinity and a NaN what the table gives. R179: the random bits and the discarded bits of stochastic
rounding, with the example of Table 10-3. -/
def Obligations.RoundingIsCorrect : Prop :=
  (∀ f ∈ [fp32, fp16, bf16, e5m2, e4m3], ∀ (rm rnd : Nat) (n : Bool) (m : Nat) (e u : Int), rm < 4 → m ≠ 0 →
    (roundTo f rm rnd (.fin n m e)).2 / 4 % 2 = 0 → u ≤ e → u ≤ f.emin →
    ∃ p h, decodeF f (roundTo f rm rnd (.fin n m e)).1 = .fin n p h ∧ u ≤ h ∧
      let x := magAt m e u
      let r := magAt p h u
      let one := magAt 1 (unitAt f m e) u
      (r < x + one ∧ x < r + one) ∧
      (rm = 0 → (2 * r ≤ 2 * x + one ∧ 2 * x ≤ 2 * r + one) ∧
        (2 * r = 2 * x + one ∨ 2 * x = 2 * r + one → (roundTo f rm rnd (.fin n m e)).1 % 2 = 0)) ∧
      (rm = 1 → r ≤ x) ∧ (rm = 2 → if n then x ≤ r else r ≤ x) ∧ (rm = 3 → if n then r ≤ x else x ≤ r) ∧
      ((roundTo f rm rnd (.fin n m e)).2 % 2 = if r = x then 0 else 1)) ∧
  (∀ f ∈ [fp32, fp16, bf16, e5m2, e4m3], ∀ (rm rnd c : Nat), rm < 4 → c < 2 ^ f.w → decodeF f c ≠ .nan →
    roundTo f rm rnd (decodeF f c) = (c, 0)) ∧
  (∀ f ∈ ([fp32, fp16, bf16, e5m2, e4m3, ⟨6, 3, 2, 3, 0⟩, ⟨6, 2, 3, 1, 0⟩, ⟨4, 2, 1, 1, 0⟩] : List Fmt), ∀ (rm rnd : Nat) (n : Bool), rm < 5 →
    rnd < 2 ^ 16 → ∃ p h, decodeF f (maxCode f) = .fin false p h ∧
      (∀ (m : Nat) (e u : Int), m ≠ 0 → u ≤ e → u ≤ f.emin →
        let k := magAt (chosen f rm rnd n m e) (unitAt f m e) u
        let r := roundTo f rm rnd (.fin n m e)
        (magAt p h u < k → r.2 = flOF + flNX ∧ decodeF f r.1 =
          if f.rule = 2 ∧ (rm = 0 ∨ rm = 4 ∨ (rm = 2 ∧ n = true) ∨ (rm = 3 ∧ n = false)) then .inf n else .fin n p h) ∧
        (k ≤ magAt p h u → r.2 / 4 % 2 = 0 ∧ r.2 % 2 = (if (cutAt f m e).2.1 = 0 then 0 else 1) ∧
          ∃ q g, decodeF f r.1 = .fin n q g ∧ u ≤ g ∧ magAt q g u = k)) ∧
      decodeF f (roundTo f rm rnd (.inf n)).1 = (if f.rule = 2 then .inf n else .fin n p h) ∧
      (roundTo f rm rnd .nan).1 = if f.rule = 2 then (2 ^ f.e - 1) * 2 ^ f.m + 2 ^ (f.m - 1) else if f.rule = 1 then 0x7F else 0) ∧
  (∀ f ∈ ([⟨8, 0, 7, 0, 0⟩, ⟨4, 0, 3, 0, 0⟩] : List Fmt), ∀ (rm rnd : Nat) (n : Bool), rm < 5 → rnd < 2 ^ 16 →
    let lo : Int := -(2 ^ (f.w - 1))
    let hi : Int := 2 ^ (f.w - 1) - 1
    (∀ (m : Nat) (e : Int),
      let k : Int := if n then -(chosen f rm rnd n m e : Int) else chosen f rm rnd n m e
      sextN (roundTo f rm rnd (.fin n m e)).1 f.w = max lo (min k hi)) ∧
    sextN (roundTo f rm rnd (.inf n)).1 f.w = (if n then lo else hi) ∧ (roundTo f rm rnd .nan).1 = 0) ∧
  (∀ (g e : Nat) (d : Nat → Nat), 0 < g → g ≤ 32 → e < g → (∀ j, d j < 2 ^ 16) → stochM g d e = (neighbourBits g e d).toNat) ∧
  (∀ f ∈ [fp32, fp16, bf16, e5m2, e4m3], ∀ (n : Bool) (m : Nat) (e : Int),
    discard f (.fin n m e) = (cutAt f m e).2.1 * 2 ^ 16 / (cutAt f m e).2.2) ∧
  roundTo bf16 4 (stochM 32 (fun j => if j = 0 then 0xC000 else if j = 1 then 0x8000 else if j = 31 then 0x1234 else 0) 0)
    (.fin false 515 (-9)) = (0x3F81, flNX)

/-- R210: each special function gives the model's rounded value of its argument after 14 cycles; its special arguments give
the results and flags of Table 11-8. -/
def Obligations.SpecialFunctions : Prop :=
  (∀ p ∈ ([(.frcp, 0), (.frsq, 1), (.fsqrt, 2), (.fexp2, 3), (.flog2, 4), (.fsin, 5), (.fcos, 6), (.ftanh, 7)] :
      List ((LForm → Instr) × Nat)),
    ComputesF p.1 (fun _ => true) 14 (fun x => [fop x x.a])
      (fun x v => (BitVec.ofNat 32 (sfuV p.2 x.rn (v 0).toNat).1, (sfuV p.2 x.rn (v 0).toNat).2))) ∧
  ∀ rm, rm < 4 →
    (∀ fn ∈ List.range 8, sfuV fn rm 0x7FC00000 = (0x7FC00000, 0)) ∧
    sfuV 0 rm 0 = (0x7F800000, flDZ) ∧ sfuV 0 rm 0x80000000 = (0xFF800000, flDZ) ∧
    sfuV 0 rm 0x7F800000 = (0, 0) ∧ sfuV 0 rm 0xFF800000 = (0x80000000, 0) ∧
    sfuV 1 rm 0 = (0x7F800000, flDZ) ∧ sfuV 1 rm 0x80000000 = (0xFF800000, flDZ) ∧
    sfuV 1 rm 0x7F800000 = (0, 0) ∧ sfuV 1 rm 0xFF800000 = (0x7FC00000, flNV) ∧
    sfuV 2 rm 0x80000000 = (0x80000000, 0) ∧ sfuV 2 rm 0x7F800000 = (0x7F800000, 0) ∧
    sfuV 2 rm 0xFF800000 = (0x7FC00000, flNV) ∧
    sfuV 3 rm 0 = (0x3F800000, 0) ∧ sfuV 3 rm 0x7F800000 = (0x7F800000, 0) ∧ sfuV 3 rm 0xFF800000 = (0, 0) ∧
    sfuV 4 rm 0 = (0xFF800000, flDZ) ∧ sfuV 4 rm 0x7F800000 = (0x7F800000, 0) ∧
    sfuV 4 rm 0xFF800000 = (0x7FC00000, flNV) ∧
    sfuV 5 rm 0x80000000 = (0x80000000, 0) ∧ sfuV 5 rm 0x7F800000 = (0x7FC00000, flNV) ∧
    sfuV 6 rm 0 = (0x3F800000, 0) ∧ sfuV 6 rm 0xFF800000 = (0x7FC00000, flNV) ∧
    sfuV 7 rm 0x80000000 = (0x80000000, 0) ∧ sfuV 7 rm 0x7F800000 = (0x3F800000, 0) ∧
    sfuV 7 rm 0xFF800000 = (0xBF800000, 0) ∧
    sfuV 0 rm 0x40000000 = (0x3F000000, 0) ∧ sfuV 1 rm 0x40800000 = (0x3F000000, 0) ∧
    sfuV 2 rm 0x40800000 = (0x40000000, 0) ∧ sfuV 3 rm 0x40400000 = (0x41000000, 0) ∧
    sfuV 4 rm 0x3E800000 = (0xC0000000, 0) ∧ sfuV 5 rm 0x3F000000 = (0x3F800000, 0) ∧ sfuV 6 rm 0x3F800000 = (0xBF800000, 0) ∧
    ∀ fn ∈ [1, 2, 4], sfuV fn rm 0xBF800000 = (0x7FC00000, flNV)

/-- R211, R212: conversions between FP32, packed halves and integers. -/
def Obligations.Conversions : Prop :=
  Completes .fcvt (fun x => [{ spec := x.a.toNat, ty := .f32 }, { spec := x.b.toNat, ty := .f32 }])
    (fun x => [x.d.toNat]) (fun _ _ _ => True) (fun s i x t =>
      let srcs : List Opnd := [{ spec := x.a.toNat, ty := .f32 }, { spec := x.b.toNat, ty := .f32 }]
      let val (j l : Nat) : FV := decodeF fp32 (src32 s i srcs l j).toNat
      let act := (given s i srcs).act
      let one (j l : Nat) : Nat × Nat :=
        if x.c = 1 then roundTo (fFmt x) 4 (laneRnd (s.th i.th) act (fun l => discard (fFmt x) (val j l)) l) (val j l)
        else roundTo (fFmt x) x.rn 0 (val j l)
      Result s t i srcs x.d.toNat x.tr 6 (fun l => BitVec.ofNat 16 (one 1 l).1 ++ BitVec.ofNat 16 (one 0 l).1)
        (laneFlags (s.th i.th) x.d.toNat act (fun l => (one 0 l).2 ||| (one 1 l).2) % 32)) ∧
  ComputesF .f2i (fun x => x.ty != 5) 6 (fun x => [{ spec := x.a.toNat, ty := .f32 }]) (fun x v =>
    let r := if x.c = 1 then floatToInt 0 (2 ^ 32 - 1) x.rn (decodeF fp32 (v 0).toNat)
      else floatToInt (-(2 ^ 31)) (2 ^ 31 - 1) x.rn (decodeF fp32 (v 0).toNat)
    (BitVec.ofInt 32 r.1, r.2)) ∧
  Completes .f2i (fun x => [{ spec := x.a.toNat, ty := .f32 }]) (fun x => [x.d.toNat, x.d.toNat + 1])
    (fun _ _ x => x.ty = 5) (fun s i x t =>
      let srcs : List Opnd := [{ spec := x.a.toNat, ty := .f32 }]
      let r (l : Nat) : Int × Nat :=
        if x.c = 1 then floatToInt 0 (2 ^ 64 - 1) x.rn (decodeF fp32 (src32 s i srcs l 0).toNat)
        else floatToInt (-(2 ^ 63)) (2 ^ 63 - 1) x.rn (decodeF fp32 (src32 s i srcs l 0).toNat)
      Result64 s t i srcs x.d.toNat 6 (fun l => BitVec.ofInt 64 (r l).1)
        (laneFlags (s.th i.th) x.d.toNat (given s i srcs).act (fun l => (r l).2) % 32)) ∧
  ComputesF .i2f (fun x => x.ty != 5) 6 (fun x => [srcA x]) (fun x v =>
    let r := if x.c = 1 then roundTo fp32 x.rn 0 (.fin false (v 0).toNat 0)
      else roundTo fp32 x.rn 0 (.fin ((v 0).toInt < 0) (v 0).toInt.natAbs 0)
    (BitVec.ofNat 32 r.1, r.2)) ∧
  Completes .i2f (fun x => [wide x.a .s64]) (fun x => [x.d.toNat]) (fun _ _ x => x.ty = 5) (fun s i x t =>
    let v (l : Nat) : DWord := src64 s i [wide x.a .s64] l 0
    let r (l : Nat) : Nat × Nat := if x.c = 1 then roundTo fp32 x.rn 0 (.fin false (v l).toNat 0)
      else roundTo fp32 x.rn 0 (.fin ((v l).toInt < 0) (v l).toInt.natAbs 0)
    Result s t i [wide x.a .s64] x.d.toNat x.tr 6 (fun l => BitVec.ofNat 32 (r l).1)
      (laneFlags (s.th i.th) x.d.toNat (given s i [wide x.a .s64]).act (fun l => (r l).2) % 32)) ∧
  Computes .pack2 (fun _ => true) 6 (fun x => [srcA x, srcB x]) (fun x v =>
    if x.ty = 0 then half16 (v 1) ++ half16 (v 0) else (v 1).setWidth 16 ++ (v 0).setWidth 16) ∧
  Computes .unpack2 (fun _ => true) 6
    (fun x => [{ spec := x.a.toNat, ty := if x.ty = 3 then .f16 else if x.ty = 4 then .bf16 else .w32 }]) (fun x v =>
      let h := (v 0).extractLsb' (16 * x.c.toNat) 16
      if x.ty = 3 then BitVec.ofNat 32 (toFp32 fp16 h.toNat) else if x.ty = 4 then BitVec.ofNat 32 (toFp32 bf16 h.toNat)
      else if x.ty = 0 then h.signExtend 32 else h.setWidth 32)

/-- R213, R214: NRW operations act on every element of the format that a number-format register names; a codebook format, or
formats of different widths, stop the instruction with FORMAT, and an element that the format has not with ILLEGAL. -/
def Obligations.NarrowFormats : Prop :=
  NrwRounds .nadd (fun x => [srcA x, srcB x]) (fun x => x.c.toNat) (fun _ _ _ => True) (fun _ _ _ => false) (fun s i x v j =>
    sumFV x.c.toNat [decodeF (nrwFmt s i x) (packedElem (nrwFmt s i x) (v 0) j), decodeF (nrwFmt s i x) (packedElem (nrwFmt s i x) (v 1) j)]) ∧
  NrwRounds .nmul (fun x => [srcA x, srcB x]) (fun x => x.c.toNat) (fun _ _ _ => True) (fun _ _ _ => false) (fun s i x v j =>
    mulFV (decodeF (nrwFmt s i x) (packedElem (nrwFmt s i x) (v 0) j)) (decodeF (nrwFmt s i x) (packedElem (nrwFmt s i x) (v 1) j))) ∧
  NrwRounds .nfma (fun x => [srcA x, srcB x, srcC x]) (fun _ => 0) (fun _ _ _ => True) (fun _ _ _ => false) (fun s i x v j =>
    fmaFV 0 (decodeF (nrwFmt s i x) (packedElem (nrwFmt s i x) (v 0) j)) (decodeF (nrwFmt s i x) (packedElem (nrwFmt s i x) (v 1) j))
      (decodeF (nrwFmt s i x) (packedElem (nrwFmt s i x) (v 2) j))) ∧
  NrwRounds .ncvt (fun x => [srcA x]) (fun x => x.b.toNat)
    (fun s i x => (nfFmt (nfOf s i.th x.c.toNat)).rule ≠ 3 ∧ (nfFmt (nfOf s i.th x.c.toNat)).w = (nrwFmt s i x).w)
    (fun s i x => (nrwFmt s i x).isInt && !(nfFmt (nfOf s i.th x.c.toNat)).isInt)
    (fun s i x v j => (decodeF (nfFmt (nfOf s i.th x.c.toNat)) (packedElem (nfFmt (nfOf s i.th x.c.toNat)) (v 0) j), 0)) ∧
  (∀ p ∈ ([(.nmin, false), (.nmax, true)] : List ((LForm → Instr) × Bool)),
    Completes p.1 (fun x => [srcA x, srcB x]) (fun x => [x.d.toNat]) nrwOk (fun s i x t =>
      let fm := nrwFmt s i x
      let v := src32 s i [srcA x, srcB x]
      Result s t i [srcA x, srcB x] x.d.toNat x.tr 6
        (fun l => packedAll fm (fun j => minmaxF fm p.2 (packedElem fm (v l 0) j) (packedElem fm (v l 1) j))) 0)) ∧
  (∀ (s : State) (x : LForm) (th k : Nat), (Instr.npack x).wf = true →
    let i := issL x th k
    let fm := nrwFmt s i x
    let srcs : List Opnd := [{ spec := x.a.toNat, ty := if fm.isInt then .w32 else .f32 }, srcB x, srcD x]
    let v := src32 s i srcs
    let e := (v 0 1).toNat
    nrwOk s i x → e < 32 / fm.w → Ready s i srcs [x.d.toNat] readActive →
    let val (l : Nat) : FV := if fm.isInt then .fin ((v l 0).toInt < 0) (v l 0).toInt.natAbs 0 else decodeF fp32 (v l 0).toNat
    let one (l : Nat) : Nat × Nat := roundTo fm x.c.toNat
      (if x.c = 4 then laneRnd (s.th th) (given s i srcs).act (fun l => discard fm (val l)) l else 0) (val l)
    ∃ t, exec (.npack x) s = .next t ∧
      Result s t i srcs x.d.toNat x.tr 6
        (fun l => packedAll fm (fun j => if j = e then (one l).1 else packedElem fm (v l 2) j))
        (laneFlags (s.th th) x.d.toNat (given s i srcs).act (fun l => (one l).2) % 32)) ∧
  Completes .nunpack (fun x => [srcA x, srcB x]) (fun x => [x.d.toNat])
    (fun s i x => (src32 s i [srcA x, srcB x] 0 1).toNat < 32 / (nrwFmt s i x).w) (fun s i x t =>
      let fm := nrwFmt s i x
      let v := src32 s i [srcA x, srcB x]
      let c (l : Nat) : Nat := packedElem fm (v l 0) (v 0 1).toNat
      let book := kgetD (s.ctx (s.th i.th).pl.ctx).cb (nfSlot (nfOf s i.th x.rn)) []
      Result s t i [srcA x, srcB x] x.d.toNat x.tr 6 (fun l =>
        if fm.rule = 3 then BitVec.ofNat 16 (book.getD (c l) 0) ++ 0#16
        else if fm.isInt then BitVec.ofInt 32 (sextN (c l) fm.w) else BitVec.ofNat 32 (toFp32 fm (c l))) 0) ∧
  (∀ p ∈ ([(.nadd, fun x => [srcA x, srcB x]), (.nmul, fun x => [srcA x, srcB x]), (.nfma, fun x => [srcA x, srcB x, srcC x]),
      (.nmin, fun x => [srcA x, srcB x]), (.nmax, fun x => [srcA x, srcB x]), (.ncvt, fun x => [srcA x]),
      (.npack, fun x => [srcA x, srcB x, srcD x])] : List ((LForm → Instr) × (LForm → List Opnd))),
    Completes p.1 p.2 (fun x => [x.d.toNat]) (fun s i x => (nrwFmt s i x).rule = 3 ∧ (nrwFmt s i x).isInt = true) (fun s i x t =>
      FaultsAt s t i .format (given s i (p.2 x)).act 0 0)) ∧
  Completes .ncvt (fun x => [srcA x]) (fun x => [x.d.toNat])
    (fun s i x => (nfFmt (nfOf s i.th x.c.toNat)).rule = 3 ∨ (nfFmt (nfOf s i.th x.c.toNat)).w ≠ (nrwFmt s i x).w)
    (fun s i x t => FaultsAt s t i .format (given s i [srcA x]).act 0 0) ∧
  (∀ (s : State) (x : LForm) (th k : Nat), (Instr.npack x).wf = true →
    let i := issL x th k
    let fm := nrwFmt s i x
    let srcs : List Opnd := [{ spec := x.a.toNat, ty := if fm.isInt then .w32 else .f32 }, srcB x, srcD x]
    fm.rule ≠ 3 → 32 / fm.w ≤ (given s i srcs).v 1 0 → Ready s i srcs [x.d.toNat] readActive →
    ∃ t, exec (.npack x) s = .next t ∧ FaultsAt s t i .illegal (given s i srcs).act 0 0) ∧
  Completes .nunpack (fun x => [srcA x, srcB x]) (fun x => [x.d.toNat])
    (fun s i x => 32 / (nrwFmt s i x).w ≤ (given s i [srcA x, srcB x]).v 1 0) (fun s i x t =>
      FaultsAt s t i .illegal (given s i [srcA x, srcB x]).act 0 0)

/-! ### Compares and lanes -/

/-- R216, R217: compares and class tests give one bit for each active lane, or 1 or 0 in a destination. R215, R217: operations on k
registers, and moves between them and values. -/
def Obligations.ComparisonsAndBits : Prop :=
  (Compares .icmp cmpSrcs (fun x c a b =>
    if is64 x then ordered c (a == b) (a.slt b) else ordered c ((a.setWidth 32) == (b.setWidth 32)) ((a.setWidth 32).slt (b.setWidth 32))) ∧
  Compares .icmpu cmpSrcs (fun _ c a b => ordered c (a == b) (a.ult b)) ∧
  Compares .fcmp (fun x => [{ spec := x.a.toNat, ty := .f32 }, { spec := x.b.toNat, ty := .f32 }]) (fun _ c a b =>
    let nan := decodeF fp32 a.toNat = .nan ∨ decodeF fp32 b.toNat = .nan
    if c = 6 then decide nan else if c = 7 then !decide nan else if nan then c == 1
    else ordered c (codeOrder a.toNat == codeOrder b.toNat) (codeOrder a.toNat < codeOrder b.toNat)) ∧
  KComputes .fclass (fun _ => true) (fun x => [{ spec := x.a.toNat, ty := .f32 }])
    (fun x _ v => x.c.getLsbD (fclassOf (v 0).toNat)) ∧
  (∀ c, c < 2 ^ 32 → fclassOf c =
    if c / 2 ^ 23 % 256 = 255 then (if c % 2 ^ 23 ≠ 0 then 8 else if c < 2 ^ 31 then 7 else 0)
    else if c / 2 ^ 23 % 256 = 0 then (if c % 2 ^ 23 = 0 then (if c < 2 ^ 31 then 4 else 3) else if c < 2 ^ 31 then 5 else 2)
    else if c < 2 ^ 31 then 6 else 1)) ∧
  (KComputes .kand (fun _ => true) (fun x => [srcK x.a, srcK x.b]) (fun _ _ v => v 0 != 0 && v 1 != 0) ∧
  KComputes .kor (fun _ => true) (fun x => [srcK x.a, srcK x.b]) (fun _ _ v => v 0 != 0 || v 1 != 0) ∧
  KComputes .kxor (fun _ => true) (fun x => [srcK x.a, srcK x.b]) (fun _ _ v => (v 0 != 0) != (v 1 != 0)) ∧
  KComputes .kinv (fun _ => true) (fun x => [srcK x.a]) (fun _ _ v => v 0 == 0) ∧
  KComputes .kmov (fun x => x.c == 0) (fun x => [srcA x]) (fun _ _ v => v 0 != 0) ∧
  KComputes .kmov (fun x => x.c == 1) (fun x => [srcA x]) (fun _ l v => (v 0).getLsbD l) ∧
  Computes .kmov (fun x => x.c == 2) 4 (fun x => [srcK x.a]) (fun _ v => v 0) ∧
  CompletesRd .kmov (fun x => [srcK x.a]) (fun _ => []) (fun _ _ _ => readActive) (fun _ _ x => x.c = 3) (fun s i x t =>
    Result s t i [srcK x.a] x.d.toNat x.tr 4
      (fun _ => maskOf ((lanesOf (groupOf s i)).filter (fun l => src32 s i [srcK x.a] l 0 != 0))) 0) ∧
  CompletesRd .kpop (fun x => [srcK x.a]) (fun x => [x.d.toNat]) (fun s i _ _ => lanesOf (groupOf s i)) (fun _ _ _ => True)
    (fun s i x t => Result s t i [srcK x.a] x.d.toNat x.tr 4
      (fun _ => BitVec.ofNat 32 ((lanesOf (groupOf s i)).filter (fun l =>
        src32 s i [srcK x.a] l 0 != 0 && !(s.th i.th).ln.helper.getLsbD l)).length) 0))

/-- R143, R144: exchanges and votes among the contributing lanes of each tile. R150: exchanges and reductions within quads, among
the lanes of the issuing group. -/
def Obligations.LaneAndQuadExchanges : Prop :=
  (Completes .lxch (fun x => [srcA x, srcB x]) (fun x => [x.d.toNat]) (fun _ _ _ => True) (fun s i x t =>
    let srcs := [srcA x, srcB x]
    let from_ (l : Nat) := xchLane (x.md.toNat / 8) (tileOf s i) (contributing s i srcs) l (src32 s i srcs l 1)
    ResultW s t i 8 (given s i srcs).cost
      (dstWrites (popped s i srcs) x.d.toNat x.tr (given s i srcs).act (fun l => src32 s i srcs (from_ l).1 0) ++
        (if x.md.toNat % 8 = 0 then [] else kWrites (x.md.toNat % 8) (given s i srcs).act (fun l => (from_ l).2))) 0) ∧
  Completes .bcast (fun x => [srcA x, srcB x]) (fun x => [x.d.toNat]) (fun _ _ _ => True) (fun s i x t =>
    let srcs := [srcA x, srcB x]
    Result s t i srcs x.d.toNat x.tr 8
      (fun l => src32 s i srcs (xchLane 0 (tileOf s i) (contributing s i srcs) l (src32 s i srcs l 1)).1 0) 0) ∧
  Completes .vote (fun x => [srcA x]) (fun x => [x.d.toNat]) (fun _ _ _ => True) (fun s i x t =>
    let srcs := [srcA x]
    let v (l : Nat) : Word := src32 s i srcs l 0
    let mates := tileMates (tileOf s i) (contributing s i srcs)
    let r (l : Nat) : Word := match x.md.toNat / 8 with
      | 0 => if ∃ j ∈ mates l, v j ≠ 0 then 1 else 0
      | 1 => if ∀ j ∈ mates l, v j ≠ 0 then 1 else 0
      | 2 => if ∀ j ∈ mates l, ∀ j' ∈ mates l, v j = v j' then 1 else 0
      | _ => maskOf ((mates l).filter (fun j => v j != 0))
    ResultW s t i 8 (given s i srcs).cost
      (dstWrites (popped s i srcs) x.d.toNat x.tr (given s i srcs).act r ++
        (if x.md.toNat % 8 = 0 then [] else kWrites (x.md.toNat % 8) (given s i srcs).act (fun l => r l != 0))) 0)) ∧
  (CompletesRd .qswap (fun x => [srcA x]) (fun x => [x.d.toNat]) quadRd (fun _ _ _ => True) (fun s i x t =>
    Result s t i [srcA x] x.d.toNat x.tr 4
      (fun l => src32 s i [srcA x] (quadLane (groupOf s i) l (l % 4 ^^^ (x.b.toNat - 480))) 0) 0) ∧
  CompletesRd .qbcast (fun x => [srcA x]) (fun x => [x.d.toNat]) quadRd (fun _ _ _ => True) (fun s i x t =>
    Result s t i [srcA x] x.d.toNat x.tr 4
      (fun l => src32 s i [srcA x] (quadLane (groupOf s i) l (x.b.toNat - 480)) 0) 0) ∧
  CompletesRd .qred (fun x => [redSrc x]) (fun x => [x.d.toNat]) quadRd (fun _ _ _ => True) (fun s i x t =>
    let r (l : Nat) := reduced (x.md.toNat % 16)
      ((((List.range 4).map (fun j => l / 4 * 4 + j)).filter (fun j => (groupOf s i).getLsbD j)).map (fun j => src32 s i [redSrc x] j 0))
    Result s t i [redSrc x] x.d.toNat x.tr 4 (fun l => (r l).1)
      (laneFlags (s.th i.th) x.d.toNat (given s i [redSrc x]).act (fun l => (r l).2) % 32)))

/-- R145, R146: reductions and scans over the contributing lanes of each tile, in ascending position. -/
def Obligations.LaneReductions : Prop :=
  Completes .redux (fun x => [redSrc x]) (fun x => [x.d.toNat]) (fun _ _ _ => True) (fun s i x t =>
    let srcs := [redSrc x]
    let con := contributing s i srcs
    let r (l : Nat) := reduced (x.md.toNat % 16) ((tileMates (tileOf s i) con l).map (fun j => src32 s i srcs j 0))
    Result s t i srcs x.d.toNat x.tr 8 (fun l => (r l).1) ((lanesOf con).foldl (fun a l => a ||| (r l).2) 0 % 32)) ∧
  Completes .scan (fun x => [redSrc x]) (fun x => [x.d.toNat]) (fun _ _ _ => True) (fun s i x t =>
    let srcs := [redSrc x]
    let con := contributing s i srcs
    let upTo (l : Nat) (own : Bool) := reduced (x.md.toNat % 16)
      (((tileMates (tileOf s i) con l).filter (fun j => j < l || (own && j == l))).map (fun j => src32 s i srcs j 0))
    ResultW s t i 8 (given s i srcs).cost
      (dstWrites (popped s i srcs) x.d.toNat x.tr con (fun l => (upTo l (x.md.toNat / 16 != 1)).1))
      ((lanesOf con).foldl (fun a l => a ||| (upTo l true).2) 0 % 32))

/-- R147, R148, R149, R142: packing and spreading lanes, intersecting sorted lists, reading one lane, and the tile size. R148: for
two strictly ascending lists, the matches of a tile are exactly the equal pairs up to the smaller of the two last values, in
order, and each count is of the entries up to that value. -/
def Obligations.PackingAndIntersection : Prop :=
  (Completes .compress (fun x => [srcA x, srcB x]) (fun x => [x.d.toNat]) (fun _ _ _ => True) (fun s i x t =>
    let srcs := [srcA x, srcB x]
    let sel (l : Nat) : List Nat :=
      (tileMates (tileOf s i) (contributing s i srcs) l).filter (fun j => src32 s i srcs j 1 != 0)
    let written := maskOf ((lanesOf (given s i srcs).act).filter (fun l => l % tileOf s i < (sel l).length))
    ResultW s t i 8 (given s i srcs).cost
      (dstWrites (popped s i srcs) x.d.toNat x.tr written (fun l => src32 s i srcs ((sel l).getD (l % tileOf s i) 0) 0)) 0) ∧
  Completes .expand (fun x => [srcA x, srcB x]) (fun x => [x.d.toNat]) (fun _ _ _ => True) (fun s i x t =>
    let srcs := [srcA x, srcB x]
    let con := contributing s i srcs
    let T := tileOf s i
    let rank (l : Nat) : Nat := ((tileMates T con l).filter (fun j => src32 s i srcs j 1 != 0 && decide (j < l))).length
    let written := maskOf ((lanesOf con).filter (fun l => src32 s i srcs l 1 != 0 && con.getLsbD (l / T * T + rank l)))
    ResultW s t i 8 (given s i srcs).cost
      (dstWrites (popped s i srcs) x.d.toNat x.tr written (fun l => src32 s i srcs (l / T * T + rank l) 0)) 0) ∧
  Completes .isect (fun x => [srcA x, srcB x]) (fun x => [x.d.toNat, x.d.toNat + 1]) (fun _ _ _ => True) (fun s i x t =>
    let srcs := [srcA x, srcB x]
    let T := tileOf s i
    let tile (l : Nat) := isectTile ((tileMates T (contributing s i srcs) l).map (fun j => (src32 s i srcs j 0).toNat))
      ((tileMates T (contributing s i srcs) l).map (fun j => (src32 s i srcs j 1).toNat))
    let hit (l : Nat) : Option (Nat × Nat) := (tile l).1[l % T]?
    let written := maskOf ((lanesOf (given s i srcs).act).filter (fun l => (hit l).isSome))
    ResultW s t i 8 (given s i srcs).cost
      (laneWrites (popped s i srcs) x.d.toNat written (fun l => BitVec.ofNat 32 ((hit l).getD (0, 0)).1) ++
        laneWrites (popped s i srcs) (x.d.toNat + 1) written (fun l => BitVec.ofNat 32 ((hit l).getD (0, 0)).2) ++
        kWrites (x.md.toNat % 8) (given s i srcs).act (fun l => (hit l).isSome) ++
        [(sCell (x.c.toNat - 384), packedCounts T ((s.th i.th).ct.part + 1) (fun l => (tile l).2.1)),
         (sCell (x.c.toNat + 1 - 384), packedCounts T ((s.th i.th).ct.part + 1) (fun l => (tile l).2.2))]) 0) ∧
  (∀ (s : State) (x : LForm) (th k : Nat), (Instr.rdlane x).wf = true →
    let i := issL x th k
    let b := (given s i [srcA x, srcB x]).v 1 0
    let srcs := [{ srcA x with only := some (if (groupOf s i).getLsbD b then [b] else []) }, srcB x]
    b < 32 → Ready s i srcs [] (fun _ => if (groupOf s i).getLsbD b then [b] else []) →
    ∃ t, exec (.rdlane x) s = .next t ∧
      ResultW s t i 8 (given s i srcs).cost
        [(sCell (x.d.toNat - 384), if (groupOf s i).getLsbD b then src32 s i srcs b 0 else 0)] 0) ∧
  ∀ (s : State) (x : LForm) (th k p : Nat), (Instr.part x).wf = true → p ∈ [1, 2, 3, 4, 5] →
    let i := issL x th k
    (given s i [srcA x]).v 0 0 = 2 ^ p → Ready s i [srcA x] [] readActive →
    ∃ t, exec (.part x) s = .next t ∧ (t.th th).ct.part = p ∧ Advanced s t i (given s i [srcA x]).cost ∧
      Wrote s t th [] ∧ IssueFrameOf s t th { s.th th with ct := { (s.th th).ct with part := p } }) ∧
  (∀ a b : List Nat, a.length ≤ 32 → b.length ≤ 32 → a ≠ [] → b ≠ [] → a.Pairwise (· < ·) → b.Pairwise (· < ·) →
    (∀ x ∈ a ++ b, x < 0xFFFFFFFF) →
    let m := min (a.getLastD 0) (b.getLastD 0)
    let r := isectTile a b
    (∀ i j, (i, j) ∈ r.1 ↔ ∃ v, a[i]? = some v ∧ b[j]? = some v ∧ v ≤ m) ∧
    r.1.Pairwise (fun p q => p.1 < q.1 ∧ p.2 < q.2) ∧
    r.2.1 = (a.filter (· ≤ m)).length ∧ r.2.2 = (b.filter (· ≤ m)).length)

/-! ### Number formats, codebooks and loop queues -/

/-- R183, R181: `nfset` sets a number-format register to a valid word and stops with FORMAT on any other; `nfget` reads one. R184,
R186, R187: `cbld` checks its entries and holds the thread until the slot is replaced, which happens when no operation of the
context holds a capture of it; `cbrd` reads a slot. R156, R158: setting a loop queue that is set changes its depth and empties
it; setting one that is unset takes a ply from the ring, and clearing one gives it back, where every resident ply below base has
been paid out. -/
def Obligations.ConfigurationInstructions : Prop :=
  ((∀ (s : State) (x : LForm) (th k : Nat), (Instr.nfset x).wf = true →
    let i := issL x th k
    let v := (given s i [srcA x]).v 0 0
    Ready s i [srcA x] [] readActive →
    ∃ t, exec (.nfset x) s = .next t ∧
      (nfValid v = true → (t.th th).ct.nf = (s.th th).ct.nf.set x.rn (BitVec.ofNat 32 v) ∧ Wrote s t th [] ∧
        Advanced s t i (given s i [srcA x]).cost ∧
        IssueFrameOf s t th { s.th th with ct := { (s.th th).ct with nf := (s.th th).ct.nf.set x.rn (BitVec.ofNat 32 v) } }) ∧
      (nfValid v = false → FaultsAt s t i .format (groupOf s i) 0 0)) ∧
  ∀ (s : State) (x : LForm) (th k : Nat), (Instr.nfget x).wf = true →
    let i := issL x th k
    let v : Word := (s.th th).ct.nf.getD x.rn 0
    Ready s i [] [x.d.toNat] readActive →
    ∃ t, exec (.nfget x) s = .next t ∧
      ResultW s t i 4 (given s i []).cost
        (if isS x.d.toNat then [(sCell (x.d.toNat - 384), v)]
         else laneWrites (s.th th) x.d.toNat (given s i []).act (fun _ => v)) 0) ∧
  ((∀ (s : State) (x : LForm) (th k : Nat), (Instr.cbld x).wf = true →
    let i := issL x th k
    let srcs : List Opnd := [{ spec := x.a.toNat, regs := 8 }]
    let e := (List.range 16).map (fun j => bitsOf ((given s i srcs).v 0 0) (16 * j) 16)
    Ready s i srcs [] readActive →
    ∃ t, exec (.cbld x) s = .next t ∧ Wrote s t th [] ∧ SameOthers th s t ∧
      ((∀ c ∈ e, cbEntryOk c = true) → SameMem s t ∧ HeldBy t i s.run.nextId ∧
        Joins s t th [] [] (.cbld (s.th th).pl.ctx (x.b.toNat % 64) e)) ∧
      ((∃ c ∈ e, cbEntryOk c = false) → FaultsAt s t i .format (groupOf s i) 0 0)) ∧
  (∀ (s : State) (n ctx slot : Nat) (e : List Nat) (f : Flight), s.flight? n = some f → f.work = .cbld ctx slot e →
    f.done = false → s.hasCtx ctx = true → (∀ g ∈ s.fl, g.ctx = ctx → g.done = false → slot ∉ g.caps) →
    ∃ t, exec (.cbldInstant n) s = .next t ∧ kget? (t.ctx ctx).cb slot = some e ∧
      (∀ m, m ≠ slot → kget? (t.ctx ctx).cb m = kget? (s.ctx ctx).cb m) ∧
      (∀ c, c ≠ ctx → kget? t.ctxs c = kget? s.ctxs c) ∧ t.mem = s.mem ∧ t.ths = s.ths) ∧
  ∀ (s : State) (x : LForm) (th k : Nat), (Instr.cbrd x).wf = true →
    let i := issL x th k
    let e := codebook s (s.th th).pl.ctx (x.b.toNat % 64)
    Ready s i [] [] readActive →
    ∃ t, exec (.cbrd x) s = .next t ∧
      ResultW s t i 4 (given s i []).cost
        ((List.range 8).map (fun j => (sCell (x.d.toNat + j - 384),
          BitVec.ofNat 32 (e.getD (2 * j) 0 + e.getD (2 * j + 1) 0 * 2 ^ 16)))) 0) ∧
  ((∀ (s : State) (x : LForm) (th k : Nat), (Instr.lqset x).wf = true →
    let i := issL x th k
    let srcs : List Opnd := [{ spec := x.a.toNat }]
    let u := s.th th
    let n := x.d.toNat - 448
    let dep := (given s i srcs).v 0 0
    Ready s i srcs [] readActive → 1 ≤ dep → dep ≤ 8 → u.rg.q ≤ 256 →
    ((kget? u.rg.lqs n).isSome = true ∨
      (max 8 (s.transTh u).frame + 1 ≤ u.rg.q - u.rg.lqs.length ∧ ∀ l ∈ liveLanes u, PaidBelow u l)) →
    ∃ t, exec (.lqset x) s = .next t ∧
      kget? (t.th th).rg.lqs n = some { depth := dep } ∧
      (∀ m, m ≠ n → kget? (t.th th).rg.lqs m = kget? (popped s i srcs).rg.lqs m) ∧
      (∀ r l, r < 8 → l < 32 → (t.th th).rg.final (lqCell n r l) = 0) ∧
      SameOthers th s t ∧ (NoneDue s th → SameMem s t)) ∧
  ∀ (s : State) (x : LForm) (th k : Nat), (Instr.lqclr x).wf = true →
    let i := issL x th k
    let u := s.th th
    Ready s i [] [] readActive → kordered u.rg.lqs = true →
    (kget? u.rg.lqs (x.d.toNat - 448) = none ∨ ∀ l ∈ liveLanes u, PaidBelow u l) →
    ∃ t, exec (.lqclr x) s = .next t ∧
      kget? (t.th th).rg.lqs (x.d.toNat - 448) = none ∧
      (∀ m, m ≠ x.d.toNat - 448 → kget? (t.th th).rg.lqs m = kget? u.rg.lqs m) ∧
      SameOthers th s t ∧ (NoneDue s th → SameMem s t))

/-! ### Register frames -/

/-- R116, R107, R109: `frame`, `grow` and `trim` set the frame size of each active lane, and plies that a lane gains read as zero.
R116: a frame operation of an operand out of range is ILLEGAL, naming the lanes; one within range that asks for more than the
translation's frame, or to trim a whole frame, stops with FRAME. -/
def Obligations.FrameSizes : Prop :=
  (Resizes .frame 40 (fun m _ v => v ≤ m) (fun _ v => v) ∧
  Resizes .grow 39 (fun m sz v => sz + v ≤ m) (fun sz v => sz + v) ∧
  Resizes .trim 39 (fun _ sz v => v + 1 ≤ sz) (fun sz v => sz - v)) ∧
  (∀ p ∈ ([(.frame, 40, fun m _ v => decide (v ≤ m)), (.grow, 39, fun m sz v => decide (sz + v ≤ m)),
      (.trim, 39, fun _ sz v => decide (v + 1 ≤ sz))] : List ((LForm → Instr) × Nat × (Nat → Nat → Nat → Bool))),
    ∀ (s : State) (x : LForm) (th k : Nat), (p.1 x).wf = true →
      let i := issL x th k
      let srcs : List Opnd := [{ spec := x.a.toNat }]
      let g := given s i srcs
      let odd := (lanesOf g.act).filter (fun l => g.v 0 l < 1 || p.2.1 < g.v 0 l)
      let bad := (lanesOf g.act).filter (fun l => !p.2.2 (s.transTh (s.th th)).frame ((s.th th).frame l).size (g.v 0 l))
      Ready s i srcs [] readActive →
      (odd ≠ [] → ∃ t, exec (p.1 x) s = .next t ∧ FaultsAt s t i .illegal (maskOf odd) 0 0) ∧
      (odd = [] → bad ≠ [] → ∃ t, exec (p.1 x) s = .next t ∧ FaultsAt s t i .frame (maskOf bad) 0 0))

/-- R117, R118, R119: `grow.try` grows the lanes whose payouts are clean and reports the others in a k register; `grow.ring`
grows the ring from free plies or answers its size; `flush` leaves no ply below base and no link record resident. -/
def Obligations.RingAndFlush : Prop :=
  (∀ (s : State) (x : LForm) (th k : Nat), (Instr.growTry x).wf = true →
    let i := issL x th k
    let srcs : List Opnd := [{ spec := x.a.toNat }]
    let g := given s i srcs
    let u := s.th th
    let size (l : Nat) : Nat := (u.frame l).size + g.v 0 l
    let able (l : Nat) : Prop := ∀ p, (u.frame l).lo ≤ p → p < (u.frame l).base + size l - u.rg.qf →
      (p, l) ∈ u.rg.clean ∧ ∀ k ∈ u.rg.stuck, ¬(k.link = false ∧ k.idx = p ∧ k.lane = l)
    Shaped u → (∀ l ∈ lanesOf g.act, 1 ≤ g.v 0 l ∧ g.v 0 l ≤ 39 ∧ size l ≤ (s.transTh u).frame) →
    Ready s i srcs [] readActive →
    ∃ t, exec (.growTry x) s = .next t ∧
      (∀ l ∈ lanesOf g.act, (able l → (t.th th).frame l =
            { u.frame l with size := size l, lo := max (u.frame l).lo ((u.frame l).base + size l - u.rg.qf) } ∧
          (t.th th).rg.final (kCell (x.md.toNat % 8) l) = 0) ∧
        (¬able l → (t.th th).frame l = u.frame l ∧ (t.th th).rg.final (kCell (x.md.toNat % 8) l) = 1)) ∧
      (∀ l, l < 32 → g.act.getLsbD l = false → (t.th th).frame l = u.frame l) ∧
      Advanced s t i g.cost ∧ IssueFrameOf s t th (withFrames u (t.th th))) ∧
  (∀ (s : State) (x : LForm) (th k : Nat), (Instr.growRing x).wf = true →
    let i := issL x th k
    let srcs : List Opnd := [{ spec := x.a.toNat }]
    let u := s.th th
    let q := (given s i srcs).v 0 0
    let free := if u.pl.kind = .strand then freePlies s u.pl.ctx u.pl.core u.pl.quad u.pl.half else []
    Shaped u → 8 ≤ q → q ≤ 256 → Ready s i srcs [] readActive →
    (q ≤ u.rg.q ∨ free.length < q - u.rg.q → ∃ t, exec (.growRing x) s = .next t ∧
      ResultW s t i 0 (given s i srcs).cost [(sCell (x.d.toNat - 384), BitVec.ofNat 32 u.rg.q)] 0) ∧
    (u.rg.q < q → q - u.rg.q ≤ free.length → (∀ l ∈ liveLanes u, PaidBelow u l ∧ (u.frame l).size ≤ u.rg.qf) →
      ∃ t, exec (.growRing x) s = .next t ∧ (t.th th).rg.q = q ∧
        (t.th th).rg.plymap = u.rg.plymap ++ free.take (q - u.rg.q) ∧
        (t.th th).rg.final (sCell (x.d.toNat - 384)) = BitVec.ofNat 32 q ∧
        (∀ l ∈ liveLanes u, (t.th th).frame l = { u.frame l with lo := (u.frame l).base } ∧
          ∀ j, j < 8 * (u.frame l).size → (t.th th).rg.final (vrCell (t.th th).rg (8 * (u.frame l).base + j) l) =
            u.rg.final (vrCell u.rg (8 * (u.frame l).base + j) l)) ∧
        (∀ l, l < 32 → l ∉ liveLanes u → (t.th th).frame l = u.frame l ∧
          ∀ j, j < 8 * u.rg.qf → (t.th th).rg.final (vrCell (t.th th).rg (8 * (u.frame l).lo + j) l) =
            u.rg.final (vrCell u.rg (8 * (u.frame l).lo + j) l)) ∧
        SameOthers th s t ∧ (NoneDue s th → SameMem s t))) ∧
  ∀ (s : State) (x : LForm) (th k : Nat), (Instr.flush x).wf = true →
    let i := issL x th k
    let u := s.th th
    let act := (given s i []).act
    Shaped u → Ready s i [] [] readActive →
    (∀ l ∈ lanesOf act, PaidBelow u l ∧ ∀ d, (u.frame l).linkLow ≤ d → d < (u.frame l).depth →
      (d, l) ∈ u.rg.kept) →
    ∃ t, exec (.flush x) s = .next t ∧ Wrote s t th [] ∧
      (∀ l, l < 32 → (t.th th).frame l = if act.getLsbD l
        then { u.frame l with lo := (u.frame l).base, linkLow := (u.frame l).depth } else u.frame l) ∧
      SameOthers th s t ∧ (NoneDue s th → SameMem s t)

/-- R107, R110, R111: the reel makes the transfers that a frame operation waits for, one at a time, each under a range lock while it is
under way: a payout writes the lane-ply's registers, or the link record, to its place in the lane-private region and nothing else, and leaves it
resident and clean; a haul-in reads it; one that fails is stuck with its class. R400: a payout waits for the snoop of a line of which the other
compute die holds a copy. R108: work ahead moves one ply or link record and changes no value that a program reads: a ply or record paid out
has its bytes in its place in memory, which no other byte of memory follows, and stays resident and clean, and one hauled in is the ply
below the lowest resident one, with the words that its place in memory holds. -/
def Obligations.ReelTransfers : Prop :=
  (∀ p ∈ ([(.reelPayout, true), (.reelHaulIn, false)] : List ((Nat → Instr) × Bool)), ∀ (s : State) (th : Nat) (n : Need),
    (kget? s.ths th).isSome = true → (s.th th).ps.halted = false → (s.th th).rg.xfer = none →
    (s.th th).rg.need.find? (fun n => n.pay == p.2) = some n → lockRoom s (s.th th).pl.core = true →
    ∃ t, exec (p.1 th) s = .next t ∧ (t.th th).rg.xfer = some { need := n, id := s.run.nextId, ahead := false } ∧
      LocksAdded s t (s.th th).pl.core (s.th th).pl.ctx s.run.nextId
        [{ space := 0, lo := needVa s th n, len := n.len, write := n.pay }] ∧
      Wrote s t th [] ∧ SameOthers th s t ∧ t.mem = s.mem) ∧
  (∀ (s s' : State) (th pa : Nat) (x : Xfer), MemOk s → NoneDue s th → (kget? s.ths th).isSome = true →
    (s.th th).rg.xfer = some x → x.ahead = false → lockWaits s x.id = false → x.need ∈ (s.th th).rg.need →
    x.need.loc (endXfer s th) th = (.ok pa, s') →
    let n := x.need
    let bytes := rangeFrom pa (pa + n.len)
    (n.pay = true → copiesOf s bytes ≠ [] → ∃ t, exec (.reelPayout th) s = .next t ∧ t.mem = s.mem ∧ Snoops s t bytes ∧
      (t.th th).rg.xfer = some x ∧ Wrote s t th [] ∧ SameOthers th s t) ∧
    (n.pay = true → copiesOf s bytes = [] → ∃ t, exec (.reelPayout th) s = .next t ∧ n ∉ (t.th th).rg.need ∧ (t.th th).rg.xfer = none ∧
      (if n.link then (n.idx, n.lane) ∈ (t.th th).rg.kept else (n.idx, n.lane) ∈ (t.th th).rg.clean) ∧
      Wrote s t th [] ∧ SameOthers th s t ∧
      (∀ j b, (payBytes (s.th th) n)[j]? = some b → memGet t.mem (pa + j) = b) ∧
      SameMemBut (fun a => (pa ≤ a ∧ a < pa + n.len) ∨ LeafAt s (s.th th).pl.ctx (needVa s th n) a ∨
        LeafAt s' (s.th th).pl.ctx (needVa s th n) a) s t) ∧
    (n.pay = false → copiesOf s bytes = [] → ∃ t, exec (.reelHaulIn th) s = .next t ∧ n ∉ (t.th th).rg.need ∧ (t.th th).rg.xfer = none ∧
      (n, memNat s'.mem pa n.len) ∈ (t.th th).rg.got ∧ Wrote s t th [] ∧ SameOthers th s t ∧
      SameMemBut (LeafAt s (s.th th).pl.ctx (needVa s th n)) s t)) ∧
  (∀ (s s' : State) (th : Nat) (x : Xfer) (c : FClass), NoneDue s th → (kget? s.ths th).isSome = true →
    (s.th th).rg.xfer = some x → x.ahead = false → lockWaits s x.id = false → x.need ∈ (s.th th).rg.need →
    x.need.loc (endXfer s th) th = (.error c, s') →
    ∃ t, exec (if x.need.pay then .reelPayout th else .reelHaulIn th) s = .next t ∧ x.need ∉ (t.th th).rg.need ∧
      x.need ∈ (t.th th).rg.failed ∧
      ∃ k ∈ (t.th th).rg.stuck, k.link = x.need.link ∧ k.idx = x.need.idx ∧ k.lane = x.need.lane ∧ k.cls = c) ∧
  (∀ (s s' : State) (th lane pa id : Nat), MemOk s → (kget? s.ths th).isSome = true → Shaped (s.th th) →
    (s.th th).pl.kind = .strand → (s.th th).live.getLsbD lane = true → lane < 32 → (s.th th).ps.halted = false →
    let u := s.th th
    let f := u.frame lane
    let payPly := f.lo + u.rg.qf ≤ f.base + f.size + 1 ∧ (f.lo, lane) ∉ u.rg.clean
    let payLink := f.depth = f.linkLow + 16 ∧ (f.linkLow, lane) ∉ u.rg.kept
    let haulPly := 0 < f.lo ∧ chainTop u (s.transTh u).frame lane ≤ f.lo + u.rg.qf - 1
    let haulLink := 0 < f.linkLow ∧ f.depth < f.linkLow + 16
    ∀ w ∈ ([(.payPly, { pay := true, link := false, idx := f.lo, lane := lane }, decide payPly),
        (.payLink, { pay := true, link := true, idx := f.linkLow, lane := lane }, decide payLink),
        (.haulPly, { pay := false, link := false, idx := f.lo - 1, lane := lane }, decide haulPly),
        (.haulLink, { pay := false, link := true, idx := f.linkLow - 1, lane := lane }, decide haulLink)] :
        List (ReelAhead × Need × Bool)), w.2.2 = true →
      let n := w.2.1
      (u.rg.xfer = none → lockRoom s u.pl.core = true →
        ∃ t, exec (.reelWorkAhead th lane w.1) s = .next t ∧ (t.th th).rg.xfer = some { need := n, id := s.run.nextId, ahead := true } ∧
          Wrote s t th [] ∧ (t.th th).rg.frames = u.rg.frames ∧ SameOthers th s t ∧ t.mem = s.mem) ∧
      (u.rg.xfer = some { need := n, id := id, ahead := true } → lockWaits s id = false → n.loc (endXfer s th) th = (.ok pa, s') →
        copiesOf s (rangeFrom pa (pa + n.len)) = [] →
        ∃ t, exec (.reelWorkAhead th lane w.1) s = .next t ∧ (t.th th).rg.xfer = none ∧ SameOthers th s t ∧
          (n.pay = true → Wrote s t th [] ∧ (t.th th).rg.frames = u.rg.frames ∧
            (if n.link then (n.idx, n.lane) ∈ (t.th th).rg.kept else (n.idx, n.lane) ∈ (t.th th).rg.clean) ∧
            (∀ j b, (payBytes u n)[j]? = some b → memGet t.mem (pa + j) = b) ∧
            SameMemBut (fun a => (pa ≤ a ∧ a < pa + n.len) ∨ LeafAt s u.pl.ctx (needVa s th n) a ∨
              LeafAt s' u.pl.ctx (needVa s th n) a) s t) ∧
          (n.pay = false → SameMemBut (LeafAt s u.pl.ctx (needVa s th n)) s t ∧
            (n.link = false → (t.th th).frame lane = { f with lo := f.lo - 1 } ∧ ∀ r, r < 8 →
              (t.th th).rg.final (vrCell u.rg (8 * (f.lo - 1) + r) lane) = BitVec.ofNat 32 (memNat s'.mem (pa + 4 * r) 4)) ∧
            (n.link = true → (t.th th).frame lane = { f with linkLow := f.linkLow - 1 } ∧ Wrote s t th [] ∧
              kget? (t.th th).rg.links ((f.linkLow - 1) * 32 + lane) = some (linkOf (memNat s'.mem pa 8))))))

/-! ### Loads and stores -/

/-- R272, R273, R267: loads whose lanes all pass become one operation in flight on the paths that they reach, with the bytes each
lane reads, what its own quantum forwards, and how the bits are delivered; an element's block scale is read at issue (R190; the model's
reading, log 11, DEDUCED); a prefetch does nothing that a program sees. -/
def Obligations.LoadsIssue : Prop :=
  (∀ (s s' : State) (x : LForm) (th k : Nat) (rs : List (Nat × Except FClass Reach)), (Instr.ld x).wf = true →
    let i := issL x th k
    let srcs := [baseA x, srcB x]
    let g := given s i srcs
    let addr (l : Nat) : Nat := laneAddr x (sizeZ x) (g.v 0 l) (g.v 1 l)
    let u := s.th th
    let n := sizeRegs x
    Ready s i srcs ((List.range n).map (· + x.d.toNat)) readActive →
    AllReach s i srcs (lanesOf g.act) (fun s l => accessAt s th (addr l) (sizeZ x) .read) rs s' →
    let ts := takers u x.d.toNat (passed rs)
    PathsOpen s th (ts.map (·.2.path)).eraseDups →
    let acq := if x.rn = 0 then 0 else strong s u.pl.ctx (scopeC x)
    ∃ t, exec (.ld x) s = .next t ∧
      LoadIssued s t i g.cost ts (ts.map (fun r =>
        { lane := r.1, cells := destCells u x.d.toNat n r.1, pas := r.2.pas,
          fmask := (ownBits u r.1 r.2.pas).1, fdata := (ownBits u r.1 r.2.pas).2, shift := r.2.shift, width := r.2.width,
          cached := r.2.cached && acq < 3,
          conv := if x.ty = 1 then .sext 8 else if x.ty = 3 then .sext 16 else .zext })) acq (x.rn == 2)) ∧
  (∀ (s s' : State) (x : LForm) (th k : Nat) (rs : List (Nat × Except FClass Reach)), (Instr.lde x).wf = true →
    let i := issL x th k
    let srcs := [baseA x, srcB x]
    let g := given s i srcs
    let u := s.th th
    Ready s i srcs [x.d.toNat] readActive →
    ElemReach s i srcs (lanesOf g.act) (g.v 0) (g.v 1) (offC x) false rs s' → lanesFault u.ln.helper rs = none →
    let ts := takers u x.d.toNat (passed rs)
    PathsOpen s th (ts.map (·.2.path)).eraseDups →
    ∃ t, exec (.lde x) s = .next t ∧
      LoadIssued s t i g.cost ts (ts.map (fun r =>
        { lane := r.1, cells := destCells u x.d.toNat 1 r.1, pas := r.2.pas,
          fmask := (ownBits u r.1 r.2.pas).1, fdata := (ownBits u r.1 r.2.pas).2, shift := r.2.shift, width := r.2.width,
          cached := r.2.cached,
          conv := .elem r.2.fmt (r.2.scale.map (scaleAt s' th r.1)) (if r.2.fmt = 11 then codebook s u.pl.ctx r.2.slot else []) })) 0 false) ∧
  ∀ (s : State) (x : LForm) (th k : Nat), (Instr.prefetch x).wf = true →
    Ready s (issL x th k) [baseA x, srcB x] [] readActive →
    ∃ t, exec (.prefetch x) s = .next t ∧ ResultW s t (issL x th k) 0 (given s (issL x th k) [baseA x, srcB x]).cost [] 0

/-- R273, R318, R323, R325, R327, R304, R328, R123: a load's data return, where no earlier acquire and no earlier read of its bytes by
its thread is unfinished, finishes it: each lane's registers take what the core reads at the home, under the core's own earlier
commits; an `abtest` writes whether its target is reached; an acquire fence ends once the earlier loads and acquires of its lanes have
returned.
R331: a promotion for a remote-promote load of one line under a narrow release applies the releasing core's commits up to the release,
as far as nothing holds them, and once all of them are, the line is no longer under that release. -/
def Obligations.LoadsReturn : Prop :=
  ((∀ (s : State) (n acq : Nat) (f : Flight) (ls : List LoadLane) (rp : Bool), s.flight? n = some f →
    f.work = .load ls acq rp → f.done = false → (kget? s.ths f.th).isSome = true →
    acquirePending s f = false → readPending s f (readsOf f) = false → (3 ≤ acq → commitPending s f (readsOf f) = false) →
    (rp = true → narrowOf s (readsOf f) = []) →
    let ws := ls.flatMap (fun l => l.cells.zip (splitWords (loadValue s f acq l) l.cells.length))
    ∃ t, exec (.loadDataReturn n) s = .next t ∧ Finished t n ∧ SameOthers f.th s t ∧ ResultsLand s t f ws ∧
      (InFile s f ws → t.mem = s.mem)) ∧
  (∀ (s : State) (n off target cell : Nat) (lanes : Word) (f : Flight), s.flight? n = some f →
    f.work = .abtest off target cell lanes → f.done = false → (kget? s.ths f.th).isSome = true → acquirePending s f = false →
    ∃ t, exec (.loadDataReturn n) s = .next t ∧ Finished t n ∧ SameOthers f.th s t ∧ t.mem = s.mem ∧
      Wrote s t f.th ((lanesOf lanes).map (fun l =>
        (cell + l, if abReached s (s.th f.th).pl.wg off target then 1#32 else 0#32)))) ∧
  ∀ (s : State) (n : Nat) (f : Flight), s.flight? n = some f → f.work = .fence → f.done = false →
    (∀ g ∈ s.fl, g.th = f.th → g.id < f.id → g.done = false → g.lanes &&& f.lanes ≠ 0 → readsOf g = [] ∧ acquires g = false) →
    ∃ t, exec (.loadDataReturn n) s = .next t ∧ Finished t n ∧ t.mem = s.mem ∧ t.ths = s.ths ∧
      ∀ x ∈ t.ch.l1, x ∈ s.ch.l1 ∧ x.core ≠ (s.th f.th).pl.core) ∧
  ∀ (s : State) (n acq line core rel : Nat) (f : Flight) (ls : List LoadLane), s.flight? n = some f →
    f.work = .load ls acq true → f.done = false → kordered s.ch.narrow = true →
    narrowOf s (ls.flatMap (·.pas)) = [(line, core, rel)] →
    (∃ t, exec (.remotePromotion n) s = .next t ∧ (∀ m, (s.th m).pl.kind ≠ .queue → t.th m = s.th m) ∧
      (undrained t core (rel + 1) = false → kget? t.ch.narrow line = none)) ∧
    (undrained s core (rel + 1) = false →
      ∃ t, exec (.remotePromotion n) s = .next t ∧ t.ths = s.ths ∧ t.mem = s.mem ∧ kget? t.ch.narrow line = none) ∧
    (∀ (g : Flight) (x : SectorW) (r : Nat), MemOk s → s.fl.filter (fun g => g.core == core && g.id ≤ rel) = [g] →
      g.work = .commit [x] r → s.flight? g.id = some g → canApply s g r x = true → copiesOf s [x.pa] = [] →
      (∀ a ∈ x.leaf, a < x.pa ∨ x.pa + 32 ≤ a) →
      ∃ t, exec (.remotePromotion n) s = .next t ∧ (∀ m, (s.th m).pl.kind ≠ .queue → t.th m = s.th m) ∧ kget? t.ch.narrow line = none ∧ Finished t g.id ∧
        ∀ j, j < 32 → memGet t.mem (x.pa + j) =
          (memGet s.mem (x.pa + j) &&& ~~~BitVec.ofNat 8 (bitsOf x.mask (8 * j) 8)) |||
            (BitVec.ofNat 8 (bitsOf x.data (8 * j) 8) &&& BitVec.ofNat 8 (bitsOf x.mask (8 * j) 8)))

/-- R272, R274, R315, R324: stores whose lanes all pass join the open quanta of their lanes; a release store commits its group's
quanta and is a commit of its own, one of core scope once its core sees what it comes after. R317, R265: a sector of a commit is applied at its home once nothing holds it: the bits of
its mask take the data, the D bit of each leaf entry is set, and every other byte stays. -/
def Obligations.StoresIssueAndApply : Prop :=
  ((∀ (s s' : State) (x : LForm) (th k : Nat) (rs : List (Nat × Except FClass Reach)), (Instr.st x).wf = true →
    let i := issL x th k
    let srcs := [baseA x, srcB x, dataD x (sizeRegs x)]
    let rd (act : Word) := storeLanes (s.th th) act [x.a, x.b, x.d]
    let g := given s i srcs
    let addr (l : Nat) : Nat := laneAddr x (sizeZ x) (g.v 0 l) (g.v 1 l)
    Ready s i srcs [] rd →
    AllReach s i srcs (rd g.act) (fun s l => accessAt s th (addr l) (sizeZ x) .write) rs s' →
    let es := entriesOf s' th (passed rs) (g.v 2)
    (x.rn = 0 → StoresFit s th es → ∃ t, exec (.st x) s = .next t ∧ StoreBuffered s t i g.cost es) ∧
    let scope := strong s (s.th th).pl.ctx (scopeC x)
    (x.rn ≠ 0 → PathsOpen s th (1 :: commitPath (s.th th) (groupOf s i)) → scope = 2 → relWaits s th s.run.nextId (groupOf s i) 2 = true →
      ∃ t, exec (.st x) s = .next t ∧ WaitsFor s t i (.drained s.run.nextId 2) ∧ (t.th th).qn = (s.th th).qn ∧ t.fl = s.fl) ∧
    (x.rn ≠ 0 → PathsOpen s th (1 :: commitPath (s.th th) (groupOf s i)) →
      (scope = 2 → relWaits s th s.run.nextId (groupOf s i) 2 = false) → ∃ t, exec (.st x) s = .next t ∧
      (t.th th).qn = afterCommit (s.th th).qn (groupOf s i) ∧ Wrote s t th [] ∧ SameOthers th s t ∧ Advanced s t i g.cost ∧
      (sectorsTh s th es ≠ [] → Starts s t th [1] [] (.commit (sectorsTh s th es) scope)))) ∧
  (∀ (s s' : State) (x : LForm) (th k : Nat) (rs : List (Nat × Except FClass Reach)), (Instr.ste x).wf = true →
    let i := issL x th k
    let srcs := [baseA x, srcB x, dataD x 1]
    let rd (act : Word) := storeLanes (s.th th) act [x.a, x.b, x.d]
    let g := given s i srcs
    Ready s i srcs [] rd →
    ElemReach s i srcs (rd g.act) (g.v 0) (g.v 1) (offC x) true rs s' → lanesFault (s.th th).ln.helper rs = none →
    let sc (r : Nat × Reach) : Option Int := r.2.scale.map (scaleAt s' th r.1)
    let disc (l : Nat) : Nat := match (passed rs).find? (·.1 == l) with
      | some r => discardElem r.2.fmt (sc r) (g.v 2 l)
      | none => 0
    let es := (passed rs).flatMap (fun r => storeEntries s' th r.1 r.2.start r.2
      (encodeElem r.2.fmt (sc r) (if 16 ≤ x.md.toNat then 4 else x.rn) (laneRnd (s.th th) g.act disc r.1) (g.v 2 r.1)))
    StoresFit s th es → ∃ t, exec (.ste x) s = .next t ∧ StoreBuffered s t i g.cost es) ∧
  ∀ (s s' : State) (x : LForm) (th k : Nat) (rs : List (Nat × Except FClass Reach)), (Instr.cst x).wf = true →
    let i := issL x th k
    let srcs := [baseA x, srcB x, dataD x (sizeRegs x)]
    let rd (act : Word) := lanesOf (act &&& ~~~(s.th th).ln.helper)
    let g := given s i srcs
    let done := if (s.th th).qn.cstPc = curPc (s.th th) k then (s.th th).qn.cstMask else 0
    let addr (l : Nat) : Nat := (laneAddr x (sizeZ x) (g.v 0 0) (g.v 1 0) + (rd g.act).idxOf l * sizeZ x) % 2 ^ 64
    Ready s i srcs [] rd →
    checkLanes (fun s l => accessAt s th (addr l) (sizeZ x) .write) (poppedState s i srcs)
      ((rd g.act).filter (fun l => !done.getLsbD l)) = (rs, s') → lanesFault 0 rs = none →
    let es := entriesOf s' th (passed rs) (g.v 2)
    StoresFit s th es → ∃ t, exec (.cst x) s = .next t ∧
      (t.th th).qn = { (bufPutAll (s.th th).qn es).1 with cstMask := 0, cstPc := 0 } ∧
      Wrote s t th [] ∧ SameOthers th s t ∧ Advanced s t i g.cost ∧
      (NoneDue s th → (bufPutAll (s.th th).qn es).2 = 0 → Marked s t)) ∧
  (∀ (s : State) (n k rel : Nat) (f : Flight) (secs : List SectorW) (x : SectorW), MemOk s → s.flight? n = some f →
    f.work = .commit secs rel → secs[k]? = some x → canApply s f rel x = true →
    (copiesOf s [x.pa] ≠ [] → ∃ t, exec (.storeApply n k) s = .next t ∧ t.mem = s.mem ∧ Snoops s t [x.pa]) ∧
    (copiesOf s [x.pa] = [] → (∀ a ∈ x.leaf, a < x.pa ∨ x.pa + 32 ≤ a) →
    ∃ t, exec (.storeApply n k) s = .next t ∧ t.ths = s.ths ∧
      (∀ j, j < 32 → memGet t.mem (x.pa + j) =
        (memGet s.mem (x.pa + j) &&& ~~~BitVec.ofNat 8 (bitsOf x.mask (8 * j) 8)) |||
          (BitVec.ofNat 8 (bitsOf x.data (8 * j) 8) &&& BitVec.ofNat 8 (bitsOf x.mask (8 * j) 8))) ∧
      (∀ a ∈ x.leaf, memGet t.mem a = memGet s.mem a ||| 0x40#8) ∧
      SameMemBut (fun a => (x.pa ≤ a ∧ a < x.pa + 32) ∨ a ∈ x.leaf) s t ∧
      (∀ g ∈ t.fl, g.id = n → g.done = true ∨ ∃ ys, g.work = .commit ys rel ∧ ∃ y, ys[k]? = some y ∧ y.applied = true)))

/-- R272: an access that fails in some lane stops its instruction with the class of the lowest such lane that is no helper and
the lanes that fail with it, and the record holds that lane's address; its registers and open quanta stay, and no operation of it begins.
So it is for loads, stores, atomics and lane operations on common memory, and for `lde` and `ste`, whose checks take in the scale and
the codebook slot (an element outside its page is named by X: log 11, DEDUCED). R276: a `cst` that fails in some lanes stores those that
pass, and its record says that the done mask names them. -/
def Obligations.AccessFaults : Prop :=
  (∀ (s s' : State) (x : LForm) (th k : Nat) (rs : List (Nat × Except FClass Reach)) (c : FClass) (m : Word),
    let i := issL x th k
    ∀ a ∈ laneAccesses s x th k, a.ins.wf = true → Ready s i a.srcs a.dsts a.rd →
      checkLanes a.check (poppedState s i a.srcs) (a.rd (given s i a.srcs).act) = (rs, s') →
      lanesFault (s.th th).ln.helper rs = some (c, m) →
      ∃ t, exec a.ins s = .next t ∧ FaultsAt s t i c m (a.addr ((lanesOf m).headD 0)) 0 ∧ (t.th th).qn = (s.th th).qn ∧
        ((s.th th).pl.kind ≠ .queue → t.fl = s.fl)) ∧
  (∀ p ∈ ([(.lde, false), (.ste, true)] : List ((LForm → Instr) × Bool)),
    ∀ (s s' : State) (x : LForm) (th k : Nat) (rs : List (Nat × Except FClass Reach)) (c : FClass) (m : Word), (p.1 x).wf = true →
      let i := issL x th k
      let srcs := if p.2 then [baseA x, srcB x, dataD x 1] else [baseA x, srcB x]
      let rd (act : Word) := if p.2 then storeLanes (s.th th) act [x.a, x.b, x.d] else readActive act
      let g := given s i srcs
      Ready s i srcs (if p.2 then [] else [x.d.toNat]) rd →
      ElemReach s i srcs (rd g.act) (g.v 0) (g.v 1) (offC x) p.2 rs s' → lanesFault (s.th th).ln.helper rs = some (c, m) →
      ∃ t, exec (p.1 x) s = .next t ∧
        FaultsAt s t i c m (elemAddr s' th (g.v 0) (g.v 1) (offC x) ((lanesOf m).headD 0)) 0 ∧ (t.th th).qn = (s.th th).qn ∧
        ((s.th th).pl.kind ≠ .queue → t.fl = s.fl)) ∧
  ∀ (s s' : State) (x : LForm) (th k : Nat) (rs : List (Nat × Except FClass Reach)) (c : FClass) (m : Word), (Instr.cst x).wf = true →
    let i := issL x th k
    let srcs := [baseA x, srcB x, dataD x (sizeRegs x)]
    let rd (act : Word) := lanesOf (act &&& ~~~(s.th th).ln.helper)
    let g := given s i srcs
    let pc := curPc (s.th th) k
    let done := if (s.th th).qn.cstPc = pc then (s.th th).qn.cstMask else 0
    let addr (l : Nat) : Nat := (laneAddr x (sizeZ x) (g.v 0 0) (g.v 1 0) + (rd g.act).idxOf l * sizeZ x) % 2 ^ 64
    Ready s i srcs [] rd →
    checkLanes (fun s l => accessAt s th (addr l) (sizeZ x) .write) (poppedState s i srcs)
      ((rd g.act).filter (fun l => !done.getLsbD l)) = (rs, s') → lanesFault 0 rs = some (c, m) →
    let es := entriesOf s' th (passed rs) (g.v 2)
    StoresFit s th es → ∃ t, exec (.cst x) s = .next t ∧
      StopsWith s t th { pc := pc, addr := addr ((lanesOf m).headD 0), mask := m, cls := c, cstValid := true } ∧
      (t.th th).qn = { (bufPutAll (s.th th).qn es).1 with cstMask := done ||| maskOf ((passed rs).map (·.1)), cstPc := pc }

/-! ### Atomics, common memory and synchronization -/

/-- R278, R279, R322: an atomic whose lanes all pass commits what it must and becomes one operation on path C, with each lane's
operand; `red` has no destination. R279, R265, R324, R382: an atomic is performed lane by lane at the homes once nothing that
must come before it is left: memory takes each lane's new value, and its cells what memory held. Table 14-13: the new value of a
location under each operation: of the floating-point ones the sum rounded once to nearest even, and the lesser or greater value, where a
NaN gives way to a number and −0 lies below +0 (R202, R209). -/
def Obligations.AtomicInstructions : Prop :=
  (∀ p ∈ ([(.atom, true), (.red, false)] : List ((LForm → Instr) × Bool)),
    ∀ (s s' : State) (x : LForm) (th k : Nat) (rs : List (Nat × Except FClass Reach)), (p.1 x).wf = true →
      let i := issL x th k
      let u := s.th th
      let op := x.md.toNat / 2
      let z := atomZ op
      let srcs := [baseA x, atomB op x.b]
      let rd (act : Word) : List Nat :=
        if p.2 then (if isS x.d.toNat then lanesOf (scalarLane u act) else lanesOf (act &&& ~~~u.ln.helper))
        else storeLanes u act [x.a, x.b]
      let g := given s i srcs
      let addr (l : Nat) : Nat := wrapN ((g.v 0 l : Int) + sextN x.c.toNat 4 * z) 64
      let order := bitsOf x.c.toNat 4 2
      let cells (l : Nat) : List Nat := if p.2 then destCells u x.d.toNat (z / 4) l else []
      let cas := op == 11 || op == 12
      Ready s i srcs (if p.2 then (List.range (z / 4)).map (· + x.d.toNat) else []) rd →
      AllReach s i srcs (rd g.act) (fun s l => accessAt s th (addr l) z .atomic) rs s' →
      let lanes := atomCommits u k (passed rs) (2 ≤ order)
      let scope := strong s u.pl.ctx (scopeC x)
      PathsOpen s th (6 :: commitPath u lanes) → (2 ≤ order → scope = 2 → relWaits s th s.run.nextId (groupOf s i) 2 = false) →
      ∃ t, exec (p.1 x) s = .next t ∧ Wrote s t th [] ∧ SameOthers th s t ∧ Advanced s t i g.cost ∧
        (passed rs ≠ [] → (t.th th).qn = afterCommit u.qn lanes ∧
          Starts s t th [6] ((passed rs).flatMap (fun r => cells r.1))
            (.atom op z scope order ((passed rs).map (fun r =>
              { lane := r.1, pa := r.2.pas.headD 0, cells := cells r.1, leaf := r.2.dirty,
                v := if cas then g.v 1 r.1 / 2 ^ (8 * z) % 2 ^ (8 * z) else g.v 1 r.1 % 2 ^ (8 * z),
                cmp := g.v 1 r.1 % 2 ^ (8 * z) }))))) ∧
  (∀ (s : State) (n op z scope order : Nat) (f : Flight) (ls : List AtomLane), s.flight? n = some f →
    f.work = .atom op z scope order ls → f.done = false → (kget? s.ths f.th).isSome = true →
    acquirePending s f = false → readPending s f (readsOf f) = false → commitPending s f (readsOf f) = false →
    (2 ≤ order → 3 ≤ scope → homeWaits s f.th f.id f.lanes f.hb = false) →
    let r := atomSteps op z ls s.mem
    (copiesOf s (readsOf f) ≠ [] → ∃ t, exec (.atomicPerform n) s = .next t ∧ t.mem = s.mem ∧ Snoops s t (readsOf f)) ∧
    (copiesOf s (readsOf f) = [] → ∃ t, exec (.atomicPerform n) s = .next t ∧ Finished t n ∧ (InFile s f r.2 → t.mem = r.1) ∧ ResultsLand s t f r.2 ∧ (∀ m c, m ≠ f.th → (t.th m).rg.final c = (s.th m).rg.final c) ∧
      (∀ v, f.vec = some v → vectorOn s (s.ctx f.ctx).fn v = true → t.io.irqs = s.io.irqs ++ [((s.ctx f.ctx).fn, v)]))) ∧
  ((∀ m v : Word,
    atomV 0 m.toNat v.toNat 0 = (m + v).toNat ∧ atomV 2 m.toNat v.toNat 0 = (if m.sle v then m else v).toNat ∧
    atomV 3 m.toNat v.toNat 0 = (if m.sle v then v else m).toNat ∧ atomV 4 m.toNat v.toNat 0 = (if m.ule v then m else v).toNat ∧
    atomV 5 m.toNat v.toNat 0 = (if m.ule v then v else m).toNat ∧ atomV 6 m.toNat v.toNat 0 = (m &&& v).toNat ∧
    atomV 7 m.toNat v.toNat 0 = (m ||| v).toNat ∧ atomV 8 m.toNat v.toNat 0 = (m ^^^ v).toNat ∧
    atomV 9 m.toNat v.toNat 0 = v.toNat ∧ ∀ c : Word, atomV 11 m.toNat v.toNat c.toNat = (if m = c then v else m).toNat) ∧
  (∀ m v : Word,
    let nan (c : Word) : Prop := decodeF fp32 c.toNat = .nan
    let place (c : Word) : Int := if c.msb then 2 ^ 31 - 1 - (c.toNat : Int) else c.toNat
    atomV 13 m.toNat v.toNat 0 = (roundTo fp32 0 0 (sumFV 0 [decodeF fp32 m.toNat, decodeF fp32 v.toNat]).1).1 ∧
    ∀ p ∈ [(14, decide (place m ≤ place v)), (15, decide (place v ≤ place m))],
      (nan m → nan v → atomV p.1 m.toNat v.toNat 0 = 0x7FC00000) ∧ (nan m → ¬nan v → atomV p.1 m.toNat v.toNat 0 = v.toNat) ∧
      (¬nan m → nan v → atomV p.1 m.toNat v.toNat 0 = m.toNat) ∧
      (¬nan m → ¬nan v → atomV p.1 m.toNat v.toNat 0 = (if p.2 then m else v).toNat)) ∧
  ∀ m v c : DWord, atomV 1 m.toNat v.toNat 0 = (m + v).toNat ∧ atomV 10 m.toNat v.toNat 0 = v.toNat ∧
    atomV 12 m.toNat v.toNat c.toNat = (if m = c then v else m).toNat)

/-- R288, R287: `cm.add` and `cm.max` are atomic operations on common cells, exact ones in 256 bits; an operand that an exact cell
cannot take stops the instruction with FORMAT. R289: a range operation whose ranges lie in the extents becomes one operation on
path C, with its scalar operand read at issue. R289: the banks perform its elements one by one, each bank in ascending
order: an element takes its new value and no other byte changes; a sum is written once every element has been read. -/
def Obligations.CommonMemory : Prop :=
  (∀ p ∈ ([(.cmAdd, false), (.cmMax, true)] : List ((LForm → Instr) × Bool)),
    ∀ (s s' : State) (x : LForm) (th k : Nat) (rs : List (Nat × Except FClass Reach)), (p.1 x).wf = true →
      let i := issL x th k
      let z : Nat := if cmExact x.ty then 32 else 4
      let srcs := [baseA x, { spec := x.b.toNat, ty := if x.ty = 2 ∨ x.ty = 4 then .f32 else .w32 }]
      let rd (act : Word) := storeLanes (s.th th) act [x.a, x.b]
      let g := given s i srcs
      let addr (l : Nat) : Nat := wrapN ((g.v 0 l : Int) + offC x * z) 64
      let bad := (passed rs).filter (fun r => (cmOperand x.ty (g.v 1 r.1)).isNone)
      Ready s i srcs [] rd →
      AllReach s i srcs (rd g.act) (fun s l => cmAt s th (addr l) x.ty) rs s' →
      PathsOpen s th (6 :: commitPath (s.th th) (atomCommits (s.th th) k (passed rs) false)) →
      (bad = [] → ∃ t, exec (p.1 x) s = .next t ∧ Wrote s t th [] ∧ SameOthers th s t ∧ Advanced s t i g.cost ∧
        (passed rs ≠ [] → Starts s t th [6] [] (.atom (cmCode p.2 x.ty) z 4 0 ((passed rs).map (fun r =>
          { lane := r.1, pa := r.2.pas.headD 0, cells := [], v := (cmOperand x.ty (g.v 1 r.1)).getD 0, leaf := r.2.dirty }))))) ∧
      (bad ≠ [] → ∃ t, exec (p.1 x) s = .next t ∧ FaultsAt s t i .format (maskOf (bad.map (·.1))) 0 0)) ∧
  (∀ p ∈ ([(.cmAxpy, 2), (.cmScale, 3), (.cmFill, 4), (.cmSum, 5)] : List ((LForm → Instr) × Nat)),
    ∀ (s : State) (x : LForm) (th k : Nat) (ys xs : List Nat), (p.1 x).wf = true →
      let i := issL x th k
      let minor := p.2
      let two := minor == 2 || minor == 5
      let srcs : List Opnd := [srcA x, if two then srcB x else { spec := 479 }, srcC x,
        if minor = 5 then { spec := 479 } else { spec := x.d.toNat, ty := if x.ty = 2 ∧ minor = 4 then .f32 else .w32 }]
      let g := given s i srcs
      let c := s.ctx (s.th th).pl.ctx
      let y := g.v 0 0
      let xo := g.v 1 0
      let n := g.v 2 0
      let ex := cmExact x.ty
      let yEx := minor = 5 ∧ x.ty = 3 ∨ minor = 4 ∧ ex = true
      Ready s i srcs [] (fun act => lanesOf (scalarLane (s.th th) act)) → PathsOpen s th [6] → n ≤ 2 ^ 24 →
      y % (if yEx then 32 else 4) = 0 → (two = true → xo % (if ex then 32 else 4) = 0) →
      cmRangeAt c y (if minor = 5 then 1 else n) (if yEx then 32 else 4) (decide yEx) = some ys →
      cmRangeAt c xo (if two then n else 0) (if ex then 32 else 4) ex = some xs →
      (minor = 2 → y = xo ∨ cmOverlap y xo n 4 = false) →
      ∃ t, exec (p.1 x) s = .next t ∧ Wrote s t th [] ∧ SameOthers th s t ∧ Advanced s t i g.cost ∧
        (NoneDue s th → SameMem s t) ∧ Starts s t th [6] [] (.cmRange minor x.ty (g.v 3 0) ys xs [])) ∧
  ∀ (s : State) (n minor ty v : Nat) (ys xs : List Nat) (got : List (Nat × Nat)) (f : Flight), MemOk s → s.flight? n = some f →
    f.work = .cmRange minor ty v ys xs got → f.done = false → minor ∈ [2, 3, 4, 5] →
    acquirePending s f = false → readPending s f (readsOf f) = false → commitPending s f (readsOf f) = false →
    let es := if minor = 5 then xs else ys
    let seen (m : Nat) : Bool := got.any (fun e => e.1 == m)
    let z := if (minor = 4 ∧ cmExact ty = true) ∨ (minor = 5 ∧ ty = 3) then 32 else 4
    ((∃ m, m < es.length ∧ seen m = false) →
      ∃ t m, exec (.cmRangeCompletion n) s = .next t ∧ m < es.length ∧ seen m = false ∧
        (∀ j, j < m → seen j = false → bankOf (es.getD j 0) ≠ bankOf (es.getD m 0)) ∧ t.ths = s.ths ∧
        (minor = 5 → t.mem = s.mem) ∧
        (minor ≠ 5 → SameMemBut (fun a => ys.getD m 0 ≤ a ∧ a < ys.getD m 0 + z) s t ∧
          memNat t.mem (ys.getD m 0) z = match minor with
            | 2 => cmStep 2 ty v (memNat s.mem (xs.getD m 0) 4) (memNat s.mem (ys.getD m 0) 4) % 2 ^ 32
            | 3 => cmStep 3 ty v 0 (memNat s.mem (ys.getD m 0) 4) % 2 ^ 32
            | _ => (if ty = 3 then wrapN (sextN v 32 * 2 ^ 128) 256 else v) % 2 ^ (8 * z)) ∧
        ∀ g ∈ t.fl, g.id = n → g.done = true ∨ ∃ r, g.work = .cmRange minor ty v ys xs (got ++ [(m, r)]) ∧
          (minor = 5 → r = memNat s.mem (xs.getD m 0) (if cmExact ty then 32 else 4))) ∧
    ((∀ m, m < es.length → seen m = true) →
      ∃ t, exec (.cmRangeCompletion n) s = .next t ∧ Finished t n ∧ t.ths = s.ths ∧
        (minor ≠ 5 ∨ xs = [] → t.mem = s.mem) ∧
        ∀ y, minor = 5 → xs ≠ [] → ys = [y] → SameMemBut (fun a => y ≤ a ∧ a < y + z) s t ∧
          memNat t.mem y z = cmSumV ty ((List.range xs.length).map (fun j =>
            ((got.find? (fun e => e.1 == j)).map (·.2)).getD 0)) % 2 ^ (8 * z))

/-- R328, R324, R269: a fence commits its group's quanta, and a release then waits: of cluster scope or wider until the writes of its lanes,
and those that happen before them, are at their homes, and of core scope until its core sees them; `wait` passes once the path's counter is no more than its bound. -/
def Obligations.FenceAndWait : Prop :=
  (∀ (s : State) (x : LForm) (th k : Nat), (Instr.fence x).wf = true →
    let i := issL x th k
    let u := s.th th
    let scope := strong s u.pl.ctx x.ty
    let secs := sectorsTh s th (openEntries u.qn (groupOf s i))
    let hb := hbOf s th (groupOf s i)
    let waits := x.rn ≠ 1 ∧ ((3 ≤ scope ∧ (secs ≠ [] ∨ homeWaits s th s.run.nextId (groupOf s i) hb = true)) ∨
      (scope = 2 ∧ coreWaits s th s.run.nextId (groupOf s i) hb = true))
    FreshIds s → Ready s i [] [] readActive → PathsOpen s th (commitPath u (groupOf s i)) →
    ∃ t, exec (.fence x) s = .next t ∧ (t.th th).qn = afterCommit u.qn (groupOf s i) ∧ Wrote s t th [] ∧ SameOthers th s t ∧
      (x.rn ≠ 2 → Starts s t th [] [] .fence) ∧
      (secs ≠ [] → Starts s t th [1] [] (.commit secs 0)) ∧
      (¬waits → Advanced s t i 0) ∧ (waits → ∃ b, WaitsFor s t i (.drained b scope))) ∧
  ∀ (s : State) (x : LForm) (th k : Nat), (Instr.wait x).wf = true →
    let i := issL x th k
    let g := given s i [srcA x]
    let n := g.v 0 0
    let p := x.b.toNat % 8
    Ready s i [srcA x] [] readActive → n ≤ 255 →
    ∃ t, exec (.wait x) s = .next t ∧ Wrote s t th [] ∧ SameOthers th s t ∧ (NoneDue s th → SameMem s t) ∧
      (counter s th p ≤ n → Advanced s t i g.cost) ∧ (n < counter s th p → WaitsFor s t i (.path p n))

/-- R87: `bar` and `bar.arrive` close the quanta of the group's lanes, set their arrival bits, fix the phase's count and let the
barrier be counted; `bar.arrive` then moves on; `bar` moves on where the arrival has completed the phase, and else waits, as `bar.wait`
does, while an arrival bit of a lane of its group is set. R87, R316: when enough strands of a workgroup have arrived at a barrier, the
phase bit flips, every arrival bit of the barrier clears and the strands' quanta closed in the phase leave them to commit; before
that, only the count grows. -/
def Obligations.BarriersAndPhases : Prop :=
  ((∀ (s : State) (x : LForm) (th k : Nat),
    let i := issL x th k
    let srcs := [srcA x, srcB x]
    let g := given s i srcs
    let id := g.v 0 0
    let u := s.th th
    let e := barEval (arrivedState s i srcs id (g.v 1 0)) u.pl.wg id
    let open_ := holdDone e th { (e.th th).grp k with hold := .barrier id }
    Ready s i srcs [] readActive → id ≤ 7 → g.v 1 0 ≤ 32 →
    (u.grp k).st = .runnable → (u.grp k).w = false → (u.grp k).hold = .free →
    (∀ l ∈ lanesOf g.act, (u.arrOf id).getLsbD l = false) → PathsOpen s th (arrivalPath u id g.act) →
    relWaits s th s.run.nextId g.act 2 = false →
    ((Instr.barArrive x).wf = true → ∃ t, exec (.barArrive x) s = .next t ∧ SameRegs s t ∧ t.wgs = e.wgs ∧
      (t.th th).ln.arr = (e.th th).ln.arr ∧ (t.th th).qn = (e.th th).qn ∧ Advanced s t i g.cost) ∧
    ((Instr.bar x).wf = true → open_ = true → ∃ t, exec (.bar x) s = .next t ∧ SameRegs s t ∧ t.wgs = e.wgs ∧
      (t.th th).ln.arr = (e.th th).ln.arr ∧ (t.th th).qn = (e.th th).qn ∧ Advanced s t i g.cost) ∧
    ((Instr.bar x).wf = true → open_ = false → ∃ t, exec (.bar x) s = .next t ∧ SameRegs s t ∧ t.wgs = e.wgs ∧
      (t.th th).ln.arr = (e.th th).ln.arr ∧ (t.th th).qn = (e.th th).qn ∧ WaitsFor s t i (.barrier id))) ∧
  ∀ (s : State) (x : LForm) (th k : Nat), (Instr.barWait x).wf = true →
    let i := issL x th k
    let g := given s i [srcA x]
    let id := g.v 0 0
    let pass := holdDone s th { (s.th th).grp k with hold := .barrier id }
    Ready s i [srcA x] [] readActive → id ≤ 7 →
    (pass = true → ∃ t, exec (.barWait x) s = .next t ∧ Wrote s t th [] ∧ SameOthers th s t ∧ Advanced s t i g.cost) ∧
    (pass = false → ∃ t, exec (.barWait x) s = .next t ∧ Wrote s t th [] ∧ SameOthers th s t ∧ WaitsFor s t i (.barrier id)) ∧
    ((s.ctx (s.th th).pl.ctx).strengthen = false → (pass = true ↔ (s.th th).arrOf id &&& groupOf s i = 0))) ∧
  ((∀ (id : Nat) (ls : List Nat) (t : Strand), t.ln.arr.length = 8 → id < 8 → ls.Nodup → (∀ l ∈ ls, l < 32) →
    (∀ l ∈ ls, (t.arrOf id).getLsbD l = false) →
    let r := arriveLanes id ls t
    r.2 = [] ∧ r.1.arrOf id = t.arrOf id ||| maskOf ls ∧ (∀ m, m ≠ id → r.1.arrOf m = t.arrOf m) ∧
      r.1.qn.buf = t.qn.buf.filter (fun e => !(maskOf ls).getLsbD e.lane) ∧
      (∀ e, (id, e) ∈ r.1.qn.closed ↔ (id, e) ∈ t.qn.closed ∨ (e ∈ t.qn.buf ++ t.qn.log ∧ e.lane ∈ ls))) ∧
  ∀ (s : State) (w id : Nat), (kget? s.wgs w).isSome = true → id < 8 → (s.wg w).bars.length = 8 →
    let g := s.wg w
    let ns := wgThreads s w
    let new := ns.filter (fun n => !g.counted.contains (id, n) && arrivedAll (s.th n) id)
    let word := g.bars.getD id 0
    let all := bitOf word 14
    let need := if all then (ns.filter (fun n => (s.th n).live != 0)).length else bitsOf word 8 6
    let full := need ≤ word % 64 + new.length
    let e := barEval s w id
    (full → (e.wg w).bars.getD id 0 = (if bitOf word 15 then 0 else 2 ^ 15) ∧
      (∀ n ∈ ns, (s.th n).ln.arr.length = 8 → (e.th n).arrOf id = 0 ∧ ∀ c ∈ (e.th n).qn.closed, c.1 ≠ id) ∧
      ∀ c ∈ (e.wg w).counted, c.1 ≠ id) ∧
    (¬full → word % 64 + new.length < 64 → e.ths = s.ths ∧ (e.wg w).bars.getD id 0 = word - word % 64 + (word % 64 + new.length) ∧
      (e.wg w).counted = g.counted ++ new.map (fun n => (id, n))))

/-! ### Control -/

/-- R134, R135, R136, R22, R126, R127: branches take the acting lanes to their checked targets, and divide the group. R121, R122,
R68: calls write link records and move frames, with entry 0 of its table as the return point of a `callx`; returns undo them. -/
def Obligations.BranchesAndCalls : Prop :=
  ((∀ (s : State) (x : BrsForm) (th k : Nat), (Instr.brs x).wf = true →
    Branches (.brs x) s { th := th, k := k, size := 1, st := x.st.toNat, gk := x.k.toNat, gneg := x.neg } []
      (fun s _ => headerAt s th (reachPc (curPc (s.th th) k) (sextN x.off.toNat 17)))) ∧
  (∀ (s : State) (x : LForm) (th k : Nat), (Instr.bra x).wf = true → Branches (.bra x) s (issL x th k) []
      (fun s _ => headerAt s th (reachPc (curPc (s.th th) k) (ctlOff x)))) ∧
  (∀ (s : State) (x : LForm) (th k : Nat), (Instr.jmp x).wf = true →
    let srcs : List Opnd := [{ spec := x.a.toNat }]
    Branches (.jmp x) s (issL x th k) srcs (fun s' _ => headerAt s' th ((given s (issL x th k) srcs).v 0 0))) ∧
  ∀ (s : State) (x : LForm) (th k : Nat), (Instr.brx x).wf = true →
    let i := issL x th k
    let srcs : List Opnd := [{ spec := x.a.toNat }]
    let tb := x.b.toNat + x.md.toNat % 2 * 512
    let tables := (transAt (poppedState s i srcs) (s.th th) (curPc (s.th th) k)).tabs.length
    (tb < tables → Branches (.brx x) s i srcs (fun s' l =>
      tableTarget s' th (transAt s' (s'.th th) (curPc (s'.th th) k)) tb ((given s i srcs).v 0 l))) ∧
    (tables ≤ tb → Ready s i srcs [] readActive →
      ∃ t, exec (.brx x) s = .next t ∧ FaultsAt s t i .target (given s i srcs).act 0 0)) ∧
  ((∀ (s : State) (x : LForm) (th k : Nat), (Instr.call x).wf = true →
    Calls (.call x) s (issL x th k) [] x.d.toNat (nextClause (s.th th) k)
      (fun s _ => headerAt s th (reachPc (curPc (s.th th) k) (ctlOff x)))) ∧
  (∀ (s s2 : State) (x : LForm) (th k : Nat) (e : Target), (Instr.callx x).wf = true →
    let i := issL x th k
    let srcs : List Opnd := [{ spec := x.a.toNat }]
    let tb := x.b.toNat + x.md.toNat % 2 * 512
    entryZero (poppedState s i srcs) th k tb = (e, s2) →
    Calls (.callx x) s i srcs x.d.toNat (match e with | .ok r => r | .error _ => 0) (fun s' l =>
      callxTarget s' th k tb ((given s i srcs).v 0 l))) ∧
  (∀ (s : State) (th k tb o : Nat) (w : Word) (s2 : State),
    entryAt (transAt s (s.th th) (curPc (s.th th) k)) tb 0 = some o →
    codeRead s (s.th th).pl.ctx (s.th th).pl.code o false = (.ok w, s2) → entryZero s th k tb = (.ok (w.toNat % 2 ^ 24), s2)) ∧
  (∀ (s : State) (x : LForm) (th k : Nat), (Instr.ret x).wf = true → Returns (.ret x) s (issL x th k)) ∧
  ∀ (s : State) (st : BitVec 3) (th k : Nat), Returns (.ctlsRet st) s (issS st th k))

/-- R92, R98, R344, R379: `exit` and `done` take their lanes out of the group; the last live lane of a handler or queue thread ends
it. R93: `take` hands the next items of the workgroup's queue to idle lanes in ascending order, with the idle helpers of their
quads, and they join the group. -/
def Obligations.LanesIdleAndExit : Prop :=
  (BothForms .ctlsExit .exit (fun s i => (s.th i.th).pl.kind = .strand ∧ PathsOpen s i.th (commitPath (s.th i.th) (acting s i))) (fun s i t =>
    (t.th i.th).ln.exited = (s.th i.th).ln.exited ||| acting s i ∧ (t.th i.th).ln.idle = (s.th i.th).ln.idle ∧ Leaves s t i) ∧
  BothForms .ctlsExit .exit (fun s i => (s.th i.th).pl.kind ≠ .strand ∧ kordered s.ths = true ∧
      PathsOpen s i.th (commitPath (s.th i.th) (acting s i)) ∧
      (s.th i.th).ln.exited ||| (s.th i.th).ln.idle ||| acting s i = BitVec.allOnes 32) (fun s i t =>
    let u := s.th i.th
    kget? t.ths i.th = none ∧ SameOthers i.th s t ∧
    (u.pl.kind = .queue → (t.queue (queueOf i.th)).state = 4) ∧
    (u.pl.kind = .handler → (t.core u.pl.core).serves =
      if (s.core u.pl.core).pending.any (fun n => (s.th n).pl.ctx == u.pl.ctx) then some u.pl.ctx else none)) ∧
  BothForms .ctlsDone .done (fun s i => (∀ l ∈ lanesOf (acting s i), ((s.th i.th).frame l).depth = 0) ∧
      PathsOpen s i.th (commitPath (s.th i.th) (acting s i))) (fun s i t =>
    (t.th i.th).ln.idle = (s.th i.th).ln.idle ||| acting s i ∧ (t.th i.th).ln.exited = (s.th i.th).ln.exited ∧ Leaves s t i) ∧
  BothForms .ctlsDone .done (fun s i => ∃ l ∈ lanesOf (acting s i), ((s.th i.th).frame l).depth ≠ 0) (fun s i t =>
    FaultsAt s t i .frame (maskOf ((lanesOf (acting s i)).filter (fun l => ((s.th i.th).frame l).depth != 0))) 0 0)) ∧
  (BothForms .ctlsTake .take (fun s i => Shaped (s.th i.th) ∧ (kget? s.wgs (s.th i.th).pl.wg).isSome = true ∧
      PathsOpen s i.th (commitPath (s.th i.th) (acting s i))) (fun s i t =>
    let u := s.th i.th
    let w := s.wg u.pl.wg
    let n := min (lanesOf (u.ln.idle &&& ~~~u.ln.helper)).length (w.itemEnd - w.itemNext)
    let ls := servedLanes u n
    let hs := servedHelpers u n
    (t.wg u.pl.wg).itemNext = w.itemNext + n ∧
    (∀ j l, ls[j]? = some l → (t.th i.th).ln.items.getD l 0 = BitVec.ofNat 32 (w.itemNext + j)) ∧
    (∀ l ∈ hs, (t.th i.th).ln.items.getD l 0 = 0xFFFFFFFF) ∧
    (∀ l, l < 32 → l ∉ ls ++ hs → (t.th i.th).ln.items.getD l 0 = u.ln.items.getD l 0) ∧
    (t.th i.th).ln.idle = u.ln.idle &&& ~~~maskOf (ls ++ hs) ∧
    (∀ c, (u.slot i.k).clause = some c → (t.th i.th).ln.lh = some c.hdr) ∧
    GoesOn s t i (groupOf s i ||| maskOf (ls ++ hs)) ∧ Wrote s t i.th [] ∧ SameOthers i.th s t ∧
    (u.qn.used = 0 → NoneDue s i.th → Dirtied s t)))

/-- R99, R19, R131, R350: `nop` only moves on, `yield` ends its clause and lets other strands issue, `knot` parks its group with those
parked there until no group runs, and `trap` and `brk` stop the strand where a lane acts. -/
def Obligations.NopYieldKnotTrap : Prop :=
  BothForms .ctlsNop .nop (fun _ _ => True) (fun s i t => ResultW s t i 0 0 [] 0) ∧
  BothForms .ctlsYield .yield (fun _ _ => True) (fun s i t =>
    GoesOn s t i (groupOf s i) ∧ ClauseOver s t i ∧
    ∀ q, (s.quad q).holder = some i.th → (t.quad q).holder = none ∧ (t.quad q).yielded = some i.th) ∧
  BothForms .ctlsKnot .knot (fun s i => ((s.th i.th).slot i.k).clause.isSome = true) (fun s i t =>
    let u := s.th i.th
    let hdr := match (u.slot i.k).clause with | some c => c.hdr | none => 0
    let rest := (u.slot (1 - i.k)).grp.toList ++ u.ps.fork
    let joined := (rest.filter (fun g => g.st == .parked && g.pc == hdr)).foldl (fun m g => m ||| g.mask) (groupOf s i)
    (rest.any runningGrp = true → ∃ g ∈ groupsOf (t.th i.th), g.st = .parked ∧ g.pc = hdr ∧ g.mask = joined) ∧
    (rest.all (fun g => g.st == .parked && g.pc == hdr) = true →
      ∃ g ∈ groupsOf (t.th i.th), g.st = .runnable ∧ g.pc = hdr + 4 ∧ g.mask = joined) ∧ ClauseOver s t i) ∧
  BothForms .ctlsBrk .brk (fun _ _ => True) (fun s i t =>
    (acting s i ≠ 0 → FaultsAt s t i .brk (acting s i) 0 0) ∧
    (acting s i = 0 → GoesOn s t i (groupOf s i) ∧ ClauseOver s t i)) ∧
  ∀ (s : State) (x : LForm) (th k : Nat), (Instr.trap x).wf = true →
    let i := issL x th k
    let srcs : List Opnd := [{ spec := x.a.toNat }]
    let act := (given s i srcs).act
    Ready s i srcs [] readActive →
    ∃ t, exec (.trap x) s = .next t ∧ (act ≠ 0 → FaultsAt s t i .trap act 0 ((given s i srcs).v 0 0)) ∧
      (act = 0 → GoesOn s t i (groupOf s i) ∧ ClauseOver s t i)

/-! ### Scheduling and launches -/

/-- R81 to R83, R19, R344, R377, R128: the picks of a quadrant and of a control core, and the rotation of groups. -/
def Obligations.SchedulerPicks : Prop :=
  (∀ (s s' : State) (q : Nat) (ready : List (Nat × Nat × Next)), canPick s q = true → readyQuad s q = (ready, s') → ready ≠ [] →
    (∀ e ∈ ready, (s'.th e.1).ps.progress ≤ 65535) →
    let yielded (th : Nat) : Prop := (s'.quad q).yielded = some th
    let progress (th : Nat) : Nat := (s'.th th).ps.progress
    ∃ t th k n, exec (.clausePick q) s = .next t ∧ (th, k, n) ∈ ready ∧ Issues s' t th k n ∧
      (someHandler s' ready → (s'.th th).pl.kind = .handler) ∧
      (¬someHandler s' ready → PickedOf s' t q th k n ready ∧
        (starved s' ready ≠ [] → 4096 ≤ (s'.th th).ps.passed) ∧
        (starved s' ready = [] → (yielded th → ∀ e ∈ ready, e.1 = th) ∧
          ∀ e ∈ ready, ¬yielded e.1 → progress th < progress e.1 ∨
            (progress th = progress e.1 ∧ fromPointer s' q th ≤ fromPointer s' q e.1)))) ∧
  (∀ (s s' : State) (q : Nat) (ready : List (Nat × Nat × Next)), canPick s q = true → readyQuad s q = (ready, s') →
    ¬someHandler s' ready → starved s' ready ≠ [] →
    ∃ t th k n, exec (.starvationGuard q) s = .next t ∧ PickedOf s' t q th k n ready ∧ 4096 ≤ (s'.th th).ps.passed) ∧
  (∀ (s s' : State) (c : Nat) (ready : List (Nat × Nat × Next)), c < Config.controlCores → kget? s.ccores c = none →
    s.up.held.contains (c / 4) = false →
    (∀ q ∈ coreQueues s c, (s.queue q).stopReq = false) →
    readyAll ((coreQueues s c).map queueNo) (((coreQueues s c).map queueNo).foldl refresh s) = (ready, s') → ready ≠ [] →
    ∃ t th k n, exec (.controlCorePick c) s = .next t ∧ (th, k, n) ∈ ready ∧ Issues s' t th k n ∧
      (Fetched n → kget? t.ccores c = some th ∧ kget? t.ccLast c = some (queueOf th % 8)) ∧
      ((∀ e ∈ ready, (s'.queue (queueOf e.1)).passed < 256) →
        ∀ e ∈ ready, (s'.queue (queueOf e.1)).prio ≤ (s'.queue (queueOf th)).prio)) ∧
  ∀ (s : State) (th : Nat) (g x : Group) (pre post : List Group),
    let u := s.th th
    (u.ct.stopped = true ∨ u.ps.halted = true → exec (.groupRotation th) s = .next s) ∧
    (u.ct.stopped = false → u.ps.halted = false →
      u.ps.s0.grp = some g → u.ps.s0.clause = none → g.st = .runnable → 1024 ≤ u.ps.s0.issued → u.ps.s1.issued < 1024 →
      u.ps.fork = pre ++ x :: post → x.st = .runnable → (∀ y ∈ pre, y.st ≠ .runnable) →
      ∃ t, exec (.groupRotation th) s = .next t ∧
        (t.th th).ps = { u.ps with s0 := { grp := some { x with clause := none }, clause := x.clause }, fork := pre ++ post ++ [g] } ∧
        SameOthers th s t ∧ t = { s with ths := t.ths } ∧ (t.th th).rg = u.rg)

/-- R72, R73, R75, R76: `launch` appends a launch that keeps its limits to its context's list, after its thread's stores. R70, R74 to R79, R91,
R94, R100, R101: placing a workgroup, its strands' first state, restarts, retirement, and the completion word of a launch. The model's reading:
one pointer P counts in cores for launches of workgroups and in pairs of cores for launches of clusters, modulo their number (log 14, DEDUCED). -/
def Obligations.LaunchesRun : Prop :=
  (∀ (s s' : State) (x : PForm) (th k : Nat), (Instr.launch x).wf = true →
    let i := issP x th k
    let srcs := [srcA x.l, wide x.l.b .b64, wide x.l.c .b64] ++ parOpnds x
    let g := given s i srcs
    let u := s.th th
    let c := s.ctx u.pl.ctx
    let p0 := parVal x.p0 (g.v 3 0)
    let p1 := parVal x.p1 (g.v 4 0)
    let p2 := parVal x.p2 (g.v 5 0)
    let p3 := parVal x.p3 (g.v 6 0)
    let cw := g.v 2 0
    let code := (kget? s.codes (g.v 0 0)).filter (fun c => c.ctx == u.pl.ctx)
    let ok := launchOk p0 p1 p2 p3 (code.map (fun c => (s.transOf (g.v 0 0) c.cur).strands))
    let clu := bitOf p2 1
    let len := if clu then (ownPairs c).length else (ownCores c).length
    Ready s i srcs [] readActive →
    (ok = false → ∃ t, exec (.launch x) s = .next t ∧ FaultsAt s t i .illegal (groupOf s i) 0 0) ∧
    (ok = true → code = none → ∃ t, exec (.launch x) s = .next t ∧ FaultsAt s t i .prot (groupOf s i) 0 0) ∧
    ∀ o r, ok = true → code = some o → cw % 8 = 0 → spaceOf cw = 0 → s.hasCtx u.pl.ctx = true →
      resolve (poppedState s i srcs) th cw .write = (.ok r, s') → PathsOpen s th (commitPath u 0xFFFFFFFF) →
      (relWaits s' th s'.run.nextId 0xFFFFFFFF 2 = true →
        ∃ t, exec (.launch x) s = .next t ∧ WaitsFor s t i (.drained s'.run.nextId 2) ∧ t.launches = s.launches) ∧
      (relWaits s' th s'.run.nextId 0xFFFFFFFF 2 = false → FreshIds s → NoneDue s th →
      ∃ t id rel, exec (.launch x) s = .next t ∧ s.run.nextId ≤ id ∧
        kget? t.launches id = some {
          ctx := u.pl.ctx
          code := g.v 0 0
          trans := o.cur
          args := g.v 1 0
          cw := cw
          gx := p0
          gy := p1 % 2 ^ 16
          gz := p1 / 2 ^ 16
          lanes := p2 / 2 ^ 16
          items := p3
          chk := bitOf p2 0
          clu := clu
          rst := bitOf p2 2
          queue := launchQueue s th
          start := c.start % len
          rel := rel } ∧
        (∀ f ∈ t.fl, f.th = th → f.writesBy 0xFFFFFFFF = true → f.id ∈ rel) ∧
        (∀ n ∈ hbOf s th 0xFFFFFFFF, n ∈ rel) ∧
        (t.ctx u.pl.ctx).order = c.order ++ [id] ∧
        (t.ctx u.pl.ctx).start = (c.start % len + 1) % len ∧
        (t.th th).qn = afterCommit u.qn 0xFFFFFFFF ∧ Wrote s t th [] ∧ SameOthers th s t ∧ Advanced s t i g.cost)) ∧
  ((∀ (s : State) (ctx ln : Nat) (rest : List Nat) (l : Launch), (s.ctx ctx).order = ln :: rest → kget? s.launches ln = some l →
    s.hasCtx ctx = true → l.outcome = none → l.ctx = ctx →
    (stillOut s l.rel ≠ [] → exec (.workgroupPlacement ctx) s = .next s) ∧ (stillOut s l.rel = [] →
    let c := s.ctx ctx
    let tr := s.transOf l.code l.trans
    let total := l.gx * l.gy * l.gz
    let nd := needsOf tr l.lanes
    let got := if l.clu then firstHold (fun p => allotPair s ctx p (min 2 (total - l.next)) nd) (ownPairs c) l.start
      else firstHold (fun k => (allotCore s ctx k nd []).map (fun a => [a])) (ownCores c) l.start
    (rejected s l = true → ∃ t, exec (.workgroupPlacement ctx) s = .next t ∧ (t.launch ln).outcome = some 2 ∧
      (t.ctx ctx).order = rest ∧ t.ths = s.ths ∧ t.wgs = s.wgs ∧ t.mem = s.mem) ∧
    (rejected s l = false → got = none → exec (.workgroupPlacement ctx) s = .next s) ∧
    (∀ a as, rejected s l = false → got = some (a :: as) → as.length ≤ 1 →
      ∃ t id g, exec (.workgroupPlacement ctx) s = .next t ∧ s.run.nextId ≤ id ∧ kget? t.wgs id = some g ∧
        (t.launch ln).next = l.next + 1 + as.length ∧
        (t.ctx ctx).order = (if total ≤ l.next + 1 + as.length then rest else c.order) ∧ t.fl = s.fl ∧
        g.ctx = ctx ∧ g.launch = ln ∧ g.lin = l.next ∧ g.core = a.core ∧ g.rank = 0 ∧ g.partner.isSome = !as.isEmpty ∧
        g.banks = a.banks ∧ g.tabQuads = a.tabQuads ∧ g.tabOff = a.tabOff ∧ g.bars = List.replicate 8 0 ∧
        g.itemNext = l.next * l.items % 2 ^ 32 ∧ g.itemEnd = l.next * l.items % 2 ^ 32 + l.items ∧ g.placedAt = s.now ∧
        (as = [] → g.threads.length = (l.lanes + 31) / 32 ∧ ∀ n ∈ g.threads, ∃ u, kget? t.ths n = some u ∧ Shaped u ∧
          u.pl.kind = .strand ∧ u.pl.ctx = ctx ∧ u.pl.launch = ln ∧ u.pl.wg = id ∧ u.pl.core = a.core ∧ u.rg.q = tr.ring ∧
          u.ps.s0.grp = some { pc := tr.entry, mask := lowLanes (min 32 ((l.lanes - 32 * u.pl.idx + 3) / 4 * 4)) } ∧
          u.ln.helper = lowLanes (min 32 ((l.lanes - 32 * u.pl.idx + 3) / 4 * 4)) &&& ~~~lowLanes (l.lanes - 32 * u.pl.idx) ∧
          u.ln.exited = ~~~lowLanes (min 32 ((l.lanes - 32 * u.pl.idx + 3) / 4 * 4)) ∧ u.ln.idle = 0 ∧ u.ct.chk = l.chk ∧
          (∀ p ∈ ([(0, l.next % l.gx), (1, l.next / l.gx % l.gy), (2, l.next / (l.gx * l.gy)), (3, l.gx), (4, l.gy), (5, l.gz),
              (6, l.args), (7, l.args / 2 ^ 32), (8, u.pl.idx), (9, l.lanes), (10, 0), (11, l.next * l.items), (14, a.core)] :
              List (Nat × Nat)), u.rg.final (sCell p.1) = BitVec.ofNat 32 p.2))))) ∧
  (∀ (s : State) (th h : Nat), (kget? s.ths th).isSome = true →
    let u := s.th th
    u.pl.kind = .strand → u.ct.stopped = false → u.ps.halted = false → groupsOf u = [] → u.ln.idle ≠ 0 → u.ln.lh = some h →
    (s.wg u.pl.wg).itemNext < (s.wg u.pl.wg).itemEnd →
    ∃ t, exec (.strandRestart th) s = .next t ∧ (t.th th).ps.s0.grp = some { pc := h, mask := 0 } ∧ (t.th th).ln = u.ln ∧
      (t.th th).rg = u.rg ∧ SameOthers th s t ∧ t = { s with ths := t.ths }) ∧
  (∀ (s : State) (th : Nat), (kget? s.ths th).isSome = true → kordered s.ths = true → kordered s.wgs = true →
    let u := s.th th
    u.pl.kind = .strand → u.ct.stopped = false → groupsOf u = [] → u.live = 0 →
    (u.ln.idle = 0 ∨ u.ln.lh = none ∨ (s.wg u.pl.wg).itemNext = (s.wg u.pl.wg).itemEnd) → u.rg.need = [] → u.rg.xfer = none →
    s.fl.any (fun f => f.th == th && f.paths != []) = false →
    ∃ t, exec (.strandRetire th) s = .next t ∧ kget? t.ths th = none ∧ (∀ n, n ≠ th → ∀ c, (t.th n).rg.final c = (s.th n).rg.final c) ∧
      ((∀ n ∈ wgThreads s u.pl.wg, n = th) → kget? t.wgs u.pl.wg = none ∧
        ((kget? s.launches (s.wg u.pl.wg).launch).isSome = true →
          (t.launch (s.wg u.pl.wg).launch).doneWgs = (s.launch (s.wg u.pl.wg).launch).doneWgs + 1)) ∧
      ((∃ n ∈ wgThreads s u.pl.wg, n ≠ th) → t.launches = s.launches)) ∧
  ∀ (s s' : State) (ln o pa : Nat), MemOk s → kordered s.launches = true → launchOutcome s ln = some o →
    (s.log.waiting ++ s.log.recs).any (fun r => r.launch == ln && r.source == 1 && !r.resolved) = false →
    let l := s.launch ln
    spaceOf l.cw = 0 → deviceLoc s l.ctx l.cw .write = (.ok pa, s') →
    (∀ m, walk s' l.ctx l.cw = some m → m.at_ < pa ∨ pa + 8 ≤ m.at_) →
    (copiesOf s' [pa] ≠ [] → ∃ t, exec (.launchComplete ln) s = .next t ∧ t.mem = s'.mem ∧ t.launches = s.launches ∧ Snoops s t [pa]) ∧
    (copiesOf s' [pa] = [] → ∃ t, exec (.launchComplete ln) s = .next t ∧ kget? t.launches ln = none ∧
      memNat t.mem pa 8 = (memNat s'.mem pa 8 + (if o = 0 then 1 else if o = 1 then 2 ^ 32 else 2 ^ 48)) % 2 ^ 64 ∧
      (∀ q, l.queue = some q → (t.queue q).events = (s.queue q).events ||| 2 ^ 16)))

/-- R381 to R384: the waits, signals and priorities of queues, and the events that end the waits. -/
def Obligations.QueueInstructions : Prop :=
  (∀ (s s' : State) (x : LForm) (th k : Nat) (r : Reach), (Instr.watch x).wf = true →
    let i := issL x th k
    let z := watchSize x
    let srcs := [baseA x, if z = 8 then wide x.b .b64 else srcB x]
    let g := given s i srcs
    let pa := r.pas.headD 0
    let v := memNat s'.mem pa z
    let met := watchCond (x.c.toNat % 8) (8 * z) v (g.v 1 0)
    Ready s i srcs [] readActive → accessAt (poppedState s i srcs) th (g.v 0 0) z .read = (.ok r, s') →
    (∀ n, readWaits s' th r.pas = some n → ∃ t, exec (.watch x) s = .next t ∧ WaitsFor s t i (.flight n)) ∧
    (readWaits s' th r.pas = none → met = true → ∃ t, exec (.watch x) s = .next t ∧ Delivers s t i (watchWrites x.d.toNat z v)) ∧
    (readWaits s' th r.pas = none → met = false → NoneDue s th → ∃ t, exec (.watch x) s = .next t ∧
      WaitsFor s t i (.word pa (g.v 1 0) (x.c.toNat % 8) z (inHost pa || (windowOf pa).isSome) r.dirty none) ∧
      (t.queue (queueOf th)).state = 2 ∧ Wrote s t th [] ∧ SameOthers th s t)) ∧
  (∀ (s : State) (q a w cond z v : Nat) (poll : Bool) (leaf : List Nat) (x : LForm),
    let i := issL x (queueNo q) 0
    (StandsAt s q (.watch x) (.word a w cond z poll leaf (some v)) →
      ∃ t, exec (.watchMet q) s = .next t ∧ Delivers s t i (watchWrites x.d.toNat (watchSize x) v)) ∧
    (StandsAt s q (.watch x) (.word a w cond z true leaf none) → watchCond cond (8 * z) (memNat s.mem a z) w = true →
      ∃ t, exec (.watchPoll q) s = .next t ∧ Delivers s t i (watchWrites x.d.toNat (watchSize x) (memNat s.mem a z))) ∧
    (StandsAt s q (.watch x) (.word a w cond z poll leaf none) → exec (.watchMet q) s = .next s)) ∧
  (∀ (s s' : State) (x : LForm) (th k : Nat) (r : Reach), (Instr.signal x).wf = true →
    let i := issL x th k
    let z : Nat := if 2 ≤ x.rn then 8 else 4
    let srcs := [baseA x, if 2 ≤ x.rn then wide x.b .b64 else srcB x, srcC x]
    let g := given s i srcs
    let vec := if x.c = 479 then none else some (g.v 2 0)
    Ready s i srcs [] readActive → PathsOpen s th (6 :: commitPath (s.th th) 0xFFFFFFFF) → vec.getD 0 ≤ 2047 →
    accessAt (poppedState s i srcs) th (g.v 0 0) z .atomic = (.ok r, s') →
    (x.ty = 2 → relWaits s' th s'.run.nextId 0xFFFFFFFF 2 = true →
      ∃ t, exec (.signal x) s = .next t ∧ WaitsFor s t i (.drained s'.run.nextId 2)) ∧
    (¬(x.ty = 2 ∧ relWaits s' th s'.run.nextId 0xFFFFFFFF 2 = true) →
      ∃ t, exec (.signal x) s = .next t ∧ (t.th th).qn = afterCommit (s.th th).qn 0xFFFFFFFF ∧ Wrote s t th [] ∧ SameOthers th s t ∧
        Advanced s t i g.cost ∧ ∃ f ∈ t.fl, s.run.nextId ≤ f.id ∧ f.th = th ∧ f.paths = [6] ∧ f.done = false ∧ f.vec = vec ∧
          f.work = .atom (signalOp x) z x.ty 2 [{ lane := 0, pa := r.pas.headD 0, cells := [], v := g.v 1 0, leaf := r.dirty }])) ∧
  (∀ (s : State) (x : LForm) (th k : Nat), (Instr.signalQ x).wf = true →
    let i := issL x th k
    let srcs := [srcA x, srcB x]
    let g := given s i srcs
    let q := g.v 0 0
    Ready s i srcs [] readActive → g.v 1 0 ≤ 65535 → q < Config.queueThreads → PathsOpen s th (commitPath (s.th th) 0xFFFFFFFF) →
    ((s.queue q).ctx ≠ some (s.th th).pl.ctx → ∃ t, exec (.signalQ x) s = .next t ∧ FaultsAt s t i .prot (groupOf s i) 0 0) ∧
    ((s.queue q).ctx = some (s.th th).pl.ctx → Drained s th 0xFFFFFFFF → ∃ t, exec (.signalQ x) s = .next t ∧
      (t.queue q).events = (s.queue q).events ||| g.v 1 0 ∧ Wrote s t th [] ∧ SameOthers th s t ∧ Advanced s t i g.cost) ∧
    ((s.queue q).ctx = some (s.th th).pl.ctx → ¬Drained s th 0xFFFFFFFF → ∃ t b, exec (.signalQ x) s = .next t ∧
      WaitsFor s t i (.drained b 4) ∧ Wrote s t th [])) ∧
  (∀ (s : State) (x : LForm) (th k : Nat), (Instr.evwait x).wf = true →
    let i := issL x th k
    let srcs := [srcA x, srcB x]
    let g := given s i srcs
    let q := queueOf th
    let mask := g.v 0 0
    let ev := (s.queue q).events &&& mask
    Ready s i srcs [] readActive →
    (2 ^ 20 ≤ mask ∨ bitOf mask 17 = true → ∃ t, exec (.evwait x) s = .next t ∧ FaultsAt s t i .illegal (groupOf s i) 0 0) ∧
    (mask < 2 ^ 20 → bitOf mask 17 = false →
      (ev ≠ 0 → ∃ t, exec (.evwait x) s = .next t ∧ Delivers s t i [(sCell (x.d.toNat - 384), BitVec.ofNat 32 ev)] ∧
        (t.queue q).events = (s.queue q).events - ev) ∧
      (ev = 0 → g.v 1 0 = 0 → ∃ t, exec (.evwait x) s = .next t ∧ Delivers s t i [(sCell (x.d.toNat - 384), 0x20000)]) ∧
      (ev = 0 → g.v 1 0 ≠ 0 → NoneDue s th → ∃ t, exec (.evwait x) s = .next t ∧ (t.queue q).state = 2 ∧ Wrote s t th [] ∧
        WaitsFor s t i (.events mask (if g.v 1 0 = 2 ^ 32 - 1 then none else some (s.now + g.v 1 0 * 2400)))))) ∧
  (∀ (s : State) (q mask till : Nat) (x : LForm), StandsAt s q (.evwait x) (.events mask (some till)) →
    (till ≤ s.now → (s.queue q).events &&& mask = 0 → ∃ t, exec (.evwaitTimeout q) s = .next t ∧
      Delivers s t (issL x (queueNo q) 0) [(sCell (x.d.toNat - 384), 0x20000)]) ∧
    (s.now < till → exec (.evwaitTimeout q) s = .next s)) ∧
  ∀ (s : State) (x : LForm) (th k : Nat), (Instr.qprio x).wf = true →
    let i := issL x th k
    let srcs := [srcA x, srcB x]
    let g := given s i srcs
    let q := if x.a = 479 then queueOf th else g.v 0 0
    Ready s i srcs [] readActive → g.v 1 0 ≤ 7 → q < Config.queueThreads → (s.queue q).ctx = some (s.th th).pl.ctx →
    ∃ t, exec (.qprio x) s = .next t ∧ (t.queue q).prio = g.v 1 0 ∧ Wrote s t th [] ∧ SameOthers th s t ∧ Advanced s t i g.cost

/-! ### System -/

/-- R341 to R343: reads and writes of control registers, and TLB invalidation. -/
def Obligations.ControlRegisters : Prop :=
  (∀ (s : State) (x : LForm) (th k : Nat), (Instr.csrr x).wf = true →
    let i := issL x th k
    let u := s.th th
    let v : Option Nat :=
      if x.a = 0 then some (u.ct.fp % 32 + u.ct.part * 2 ^ 8 + (if u.ct.chk then 2 ^ 16 else 0))
      else if u.pl.kind = .strand then none
      else if x.a = 0x10 then some u.ct.tlba.toNat
      else if x.a = 0x11 then some 0
      else if x.a = 0x20 ∧ u.pl.kind = .handler then
        some ((s.core u.pl.core).pending.filter (fun n => (s.th n).pl.ctx == u.pl.ctx)).length
      else none
    Ready s i [] [x.d.toNat] readActive →
    (∀ w, v = some w → ∃ t, exec (.csrr x) s = .next t ∧
      ResultW s t i 4 (given s i []).cost (quietWrites (popped s i []) x.d.toNat (acting s i) (fun _ => BitVec.ofNat 32 w)) 0) ∧
    (v = none → ∃ t, exec (.csrr x) s = .next t ∧ FaultsAt s t i .prot (groupOf s i) 0 0)) ∧
  (∀ (s : State) (x : LForm) (th k : Nat), (Instr.csrw x).wf = true →
    let i := issL x th k
    let u := s.th th
    let g := given s i [srcB x]
    let v := g.v 0 0
    let p := v / 2 ^ 8 % 8
    Ready s i [srcB x] [] readActive →
    (x.a = 0 → 1 ≤ p → p ≤ 5 → ∃ t, exec (.csrw x) s = .next t ∧ (t.th th).ct.fp = v % 32 ∧ (t.th th).ct.part = p ∧
      (t.th th).ct.chk = u.ct.chk ∧ Wrote s t th [] ∧ SameOthers th s t ∧ Advanced s t i g.cost ∧ (NoneDue s th → SameMem s t)) ∧
    (x.a = 0 → p = 0 ∨ 5 < p → ∃ t, exec (.csrw x) s = .next t ∧ FaultsAt s t i .illegal (groupOf s i) 0 0) ∧
    (x.a ≠ 0 → u.pl.kind = .strand → ∃ t, exec (.csrw x) s = .next t ∧ FaultsAt s t i .prot (groupOf s i) 0 0) ∧
    (x.a = 0x10 → u.pl.kind ≠ .strand → ∃ t, exec (.csrw x) s = .next t ∧ (t.th th).ct.tlba = BitVec.ofNat 32 v ∧
      Wrote s t th [] ∧ SameOthers th s t ∧ Advanced s t i g.cost) ∧
    (x.a = 0x11 → u.pl.kind ≠ .strand → v % 4 < 2 → ∃ t, exec (.csrw x) s = .next t ∧ Joins s t th [] [] (.tlbi (v % 4)) ∧
      HeldBy t i s.run.nextId ∧ Wrote s t th [] ∧ SameOthers th s t ∧ SameMem s t) ∧
    (x.a = 0x11 → u.pl.kind ≠ .strand → 2 ≤ v % 4 → ∃ t, exec (.csrw x) s = .next t ∧ FaultsAt s t i .illegal (groupOf s i) 0 0) ∧
    (x.a = 0x20 → ∃ t, exec (.csrw x) s = .next t ∧ FaultsAt s t i .prot (groupOf s i) 0 0)) ∧
  (∀ (s : State) (x : LForm) (th k : Nat) (v : Word),
    let s1 := { s with run := { s.run with cur := some th } }
    let i := issL x th k
    x.a = 0 → (Instr.csrw x).wf = true → nextInstr (s.th th) k = some (.csrw x) → Ready s1 i [srcB x] [] readActive →
    (given s i [srcB x]).v 0 0 = v.toNat → 1 ≤ v.toNat / 2 ^ 8 % 8 → v.toNat / 2 ^ 8 % 8 ≤ 5 →
    ∃ t, exec (.scrWrite th v) s = .next t ∧ (t.th th).ct.fp = v.toNat % 32 ∧ (t.th th).ct.part = v.toNat / 2 ^ 8 % 8 ∧
      Wrote s t th [] ∧ SameOthers th s t) ∧
  ∀ p ∈ ([(.tlbInvalidatePage, 0), (.tlbInvalidateAll, 1)] : List ((Nat → Instr) × Nat)), ∀ (s : State) (th : Nat) (f : Flight),
    s.fl.find? (fun f => f.th == th && !f.done && f.work == .tlbi p.2) = some f → s.flight? f.id = some f →
    let page := (s.th th).ct.tlba.toNat * 65536
    let hit (e : TlbEntry) : Bool := e.ctx == f.ctx && (p.2 == 1 || (e.va < page + 65536 && page < e.va + e.size))
    let pinned := tlbPinned s f.ctx p.2 page
    (pinned = true → exec (p.1 th) s = .next s) ∧
    (pinned = false → ∃ t, exec (p.1 th) s = .next t ∧ t.ch.tlb = s.ch.tlb.filter (fun e => !hit e) ∧ Finished t f.id ∧
      t.mem = s.mem ∧ t.ths = s.ths)

/-- R346 to R348: a handler selects a stopped strand and reads and writes its items. The model's reading: `winwr` of an item of one value takes
that of the lowest active lane (log 9, DEDUCED). -/
def Obligations.HandlerWindow : Prop :=
  (∀ (s : State) (x : LForm) (th k : Nat), (Instr.winsel x).wf = true →
    let i := issL x th k
    let u := s.th th
    let g := given s i [srcA x]
    let v := g.v 0 0
    let hits (t : Strand) : Bool := t.pl.kind == .strand && t.pl.core == u.pl.core && t.pl.ctx == u.pl.ctx &&
      16 * t.pl.quad + t.pl.slot == v && t.ct.stopped
    let pend := (s.core u.pl.core).pending.filter (fun n => (s.th n).pl.ctx == u.pl.ctx)
    let stop (n : Nat) : Nat := ((s.th n).ct.fault.getD {}).seqNo
    let selects (t : State) (m : Option Nat) : Prop := (t.th th).ct.sel = m ∧
      Wrote s t th (quietWrites (popped s i [srcA x]) x.d.toNat g.act
        (fun _ => match m with | some n => BitVec.ofNat 32 (16 * (s.th n).pl.quad + (s.th n).pl.slot) | none => 0xFFFFFFFF)) ∧
      Advanced s t i g.cost ∧ SameOthers th s t ∧ (NoneDue s th → SameMem s t)
    Ready s i [srcA x] [x.d.toNat] readActive →
    (u.pl.kind = .handler → v = 2 ^ 32 - 1 → ∃ t m, exec (.winsel x) s = .next t ∧ selects t m ∧
      (m = none → pend = []) ∧ ∀ n, m = some n → n ∈ pend ∧ ∀ j ∈ pend, stop n ≤ stop j) ∧
    (u.pl.kind = .handler → v < 64 → (∃ e ∈ s.ths, hits e.2 = true) → ∃ t e, exec (.winsel x) s = .next t ∧ e ∈ s.ths ∧
      hits e.2 = true ∧ selects t (some e.1)) ∧
    (u.pl.kind = .handler → v < 64 → (∀ e ∈ s.ths, hits e.2 = false) → ∃ t, exec (.winsel x) s = .next t ∧ selects t none) ∧
    (u.pl.kind ≠ .handler ∨ (64 ≤ v ∧ v ≠ 2 ^ 32 - 1) → ∃ t, exec (.winsel x) s = .next t ∧ FaultsAt s t i .illegal (groupOf s i) 0 0)) ∧
  (∀ (s : State) (x : LForm) (th k : Nat), (Instr.winrd x).wf = true →
    let i := issL x th k
    let g := given s i [srcA x]
    let v := g.v 0 0
    let bad := itemOk v = false ∨ (isS x.d.toNat = true ∧ itemInv v = false)
    Ready s i [srcA x] [x.d.toNat] readActive →
    (∀ n, winSelected s th = some n → ¬bad → ∃ t, exec (.winrd x) s = .next t ∧
      ResultW (walkItems s n v (lanesOf g.act)) t i 4 g.cost
        (quietWrites (popped s i [srcA x]) x.d.toNat g.act (fun l => BitVec.ofNat 32 (readItem s n v l))) 0 ∧ (NoneDue s th → Marked s t)) ∧
    (winSelected s th = none ∨ bad → ∃ t, exec (.winrd x) s = .next t ∧ FaultsAt s t i .illegal (groupOf s i) 0 0)) ∧
  (∀ (s : State) (x : LForm) (th k : Nat), (Instr.winwr x).wf = true →
    let i := issL x th k
    let g := given s i [srcA x, srcB x]
    let v := g.v 0 0
    Ready s i [srcA x, srcB x] [] readActive →
    (∀ n, Selected s th n → itemOk v = true → ∃ t, exec (.winwr x) s = .next t ∧ Advanced s t i g.cost ∧
      (∀ m, m ≠ th → m ≠ n → kget? t.ths m = kget? s.ths m) ∧
      (∀ l ∈ lanesOf g.act, (s.th n).ln.exited.getLsbD l = false →
        (v / 2 ^ 28 = 2 → (t.th n).rg.final (gCell (v % 2 ^ 28) l) = BitVec.ofNat 32 (g.v 1 l)) ∧
        (v / 2 ^ 28 = 4 → (t.th n).rg.final (kCell (v % 2 ^ 28) l) = BitVec.ofNat 32 (g.v 1 l % 2))) ∧
      (∀ l, (lanesOf g.act).head? = some l → v / 2 ^ 28 = 3 → (t.th n).rg.final (sCell (v % 2 ^ 28)) = BitVec.ofNat 32 (g.v 1 l)) ∧
      (2 ≤ v / 2 ^ 28 → v / 2 ^ 28 ≤ 4 → ∀ l ∈ lanesOf g.act, readItem t n v l =
        if (s.th n).ln.exited.getLsbD l = true ∧ v / 2 ^ 28 ≠ 3 then 0
        else if v / 2 ^ 28 = 3 then (BitVec.ofNat 32 (g.v 1 ((lanesOf g.act).headD 0))).toNat
        else if v / 2 ^ 28 = 4 then g.v 1 l % 2 else (BitVec.ofNat 32 (g.v 1 l)).toNat)) ∧
    (winSelected s th = none ∨ itemOk v = false → ∃ t, exec (.winwr x) s = .next t ∧ FaultsAt s t i .illegal (groupOf s i) 0 0)) ∧
  ∀ (s : State) (t : Strand) (n l : Nat), kget? s.ths n = some t → t.ln.exited.getLsbD l = false →
    (∀ r, r < 64 → readItem s n (2 * 2 ^ 28 + r) l = (t.rg.final (gCell r l)).toNat ∧
      readItem s n (3 * 2 ^ 28 + r) l = (t.rg.final (sCell r)).toNat) ∧
    (∀ r, r < 40 → r < 8 * (t.frame l).size → (t.frame l).lo ≤ (t.frame l).base + r / 8 →
      readItem s n r l = (t.rg.final (vrCell t.rg (8 * (t.frame l).base + r) l)).toNat) ∧
    readItem s n (6 * 2 ^ 28 + 2) l = (t.ln.items.getD l 0).toNat ∧
    readItem s n (7 * 2 ^ 28) l = (t.ct.fault.getD {}).pc % 2 ^ 32 ∧
    readItem s n (7 * 2 ^ 28 + 9) l = t.rg.q ∧ readItem s n (7 * 2 ^ 28 + 12) l = t.ps.progress

/-- R344, R349 to R351: handlers start, stops are resolved or escalated, and the fault log is written. The model's reading: a `faultack` of a stop
that is acknowledged already leaves the log as it was (log 9, DEDUCED). -/
def Obligations.StopsAreResolved : Prop :=
  (∀ (s : State) (x : LForm) (th k n : Nat), (Instr.resume x).wf = true →
    let u := s.th n
    Ready s (issL x th k) [] [] readActive → Selected s th n → Drained s th 0xFFFFFFFF → (s.th th).qn.used = 0 →
    PathsOpen s th (commitPath (s.th th) 0xFFFFFFFF) → NoneDue s n → masksOk u = true →
    (∀ e ∈ (s.wg u.pl.wg).tables, e.2.unchecked = false) → (u.ct.fault.getD {}).cls ≠ .trap → (u.ct.fault.getD {}).cls ≠ .brk →
    (u.ps.s0.grp.isSome = u.ps.s0.clause.isSome) → (u.ps.s1.grp.isSome = u.ps.s1.clause.isSome) → u.ps.fork = [] →
    ∃ t, exec (.resume x) s = .next t ∧ (t.th n).ct.stopped = false ∧ (t.th n).ct.fault = none ∧
      (t.core u.pl.core).pending = (s.core u.pl.core).pending.filter (fun m => m != n) ∧ (t.th th).ct.sel = none ∧
      SameRegs s t ∧ SameMem s t ∧ (∀ m, m ≠ th → m ≠ n → kget? t.ths m = kget? s.ths m)) ∧
  (∀ (s : State) (x : LForm) (th k n : Nat), (Instr.kill x).wf = true →
    Ready s (issL x th k) [] [] readActive → Selected s th n →
    ∃ t, exec (.kill x) s = .next t ∧ (t.th n).ln.exited = BitVec.allOnes 32 ∧ (t.th n).ln.idle = 0 ∧ groupsOf (t.th n) = [] ∧
      (t.th n).qn.buf = [] ∧ (t.th n).qn.log = [] ∧ (t.th n).ct.stopped = false ∧ (t.th n).ct.fault = none ∧
      (t.th th).ct.sel = none ∧ SameRegs s t) ∧
  (∀ (s : State) (x : LForm) (th k n : Nat), (Instr.faultack x).wf = true →
    let u := s.th n
    Ready s (issL x th k) [] [] readActive → Selected s th n →
    ∃ t, exec (.faultack x) s = .next t ∧ (t.th n).ct.stopped = true ∧ (t.th n).ct.acked = true ∧ (t.th th).ct.sel = none ∧
      SameRegs s t ∧ SameMem s t ∧
      (u.ct.acked = false → StopsWith.Escalates s t 0 n (u.ct.fault.getD {}) ∧
        (t.core u.pl.core).pending = (s.core u.pl.core).pending.filter (fun m => m != n)) ∧
      (u.ct.acked = true → t.log = s.log)) ∧
  (∀ p ∈ ([.resume, .kill, .faultack] : List (LForm → Instr)), ∀ (s : State) (x : LForm) (th k : Nat), (p x).wf = true →
    Ready s (issL x th k) [] [] readActive → winSelected s th = none →
    ∃ t, exec (p x) s = .next t ∧ FaultsAt s t (issL x th k) .illegal (groupOf s (issL x th k)) 0 0) ∧
  (∀ (s : State) (core n : Nat) (rest : List Nat) (o : Code), (s.core core).pending = n :: rest → (s.core core).serves = none →
    let ctx := (s.th n).pl.ctx
    let c := s.ctx ctx
    kget? s.ths (handlerNo core) = none → kget? s.codes c.handler = some o →
    (∀ m ∈ rest, (s.th m).pl.ctx = ctx → ((s.th n).ct.fault.getD {}).seqNo < ((s.th m).ct.fault.getD {}).seqNo) →
    ∃ t u, exec (.handlerStart core) s = .next t ∧ kget? t.ths (handlerNo core) = some u ∧ (t.core core).serves = some ctx ∧
      u.pl.kind = .handler ∧ u.pl.ctx = ctx ∧ u.pl.core = core ∧ u.pl.quad = (s.th n).pl.quad ∧ Shaped u ∧
      u.ps.s0.grp = some { pc := (s.transOf c.handler o.cur).entry, mask := BitVec.allOnes 32 } ∧
      u.rg.final (sCell 14) = BitVec.ofNat 32 core ∧ (∀ c, c ≠ sCell 14 → u.rg.final c = 0) ∧ u.ct.nf = List.replicate 4 0 ∧
      SameOthers (handlerNo core) s t ∧ t.mem = s.mem) ∧
  ∀ (s : State) (e : LogRec) (rest : List LogRec), MemOk s → s.log.waiting = e :: rest →
    let l := s.log
    let r := { e with seqNo := l.seqNo, ring := l.next }
    let at_ := l.base + 64 * l.next
    (∀ r ∈ l.recs, coalesces s e r = false) → l.entries ≠ 0 → l.next ∉ l.taken →
    (copiesOf s (rangeFrom at_ (at_ + 64)) ≠ [] → ∃ t, exec .faultLogWrite s = .next t ∧ t.log = s.log ∧ t.mem = s.mem ∧
      Snoops s t (rangeFrom at_ (at_ + 64))) ∧
    (copiesOf s (rangeFrom at_ (at_ + 64)) = [] → ∃ t, exec .faultLogWrite s = .next t ∧ t.log.waiting = rest ∧ t.log.recs = l.recs ++ [r] ∧ t.log.seqNo = l.seqNo + 1 ∧
      t.log.next = (l.next + 1) % l.entries ∧
      (∀ j, j < 64 → memGet t.mem (at_ + j) = (logBytes r).getD j 0) ∧
      SameMemBut (fun a => at_ ≤ a ∧ a < at_ + 64) s t ∧
      (∀ q, (s.queue q).ctx = some e.ctx → (t.queue q).events = (s.queue q).events ||| 2 ^ 19) ∧
      (vectorOn s 0 l.vector = true → t.io.irqs = s.io.irqs ++ [(0, l.vector)]))

/-! ### Engines -/

/-- R293 to R299: copies whose ranges pass become one operation on path E with their locks; only helper lanes suppress one. R294,
R295, R298, R301, R304: a copy that completes has written what it copies, counts its bytes down on its barrier, and releases its
lock. -/
def Obligations.CopiesMoveBytes : Prop :=
  ((∀ (s s' : State) (x : LForm) (th k : Nat) (src dst : List Loc), (Instr.cpy x).wf = true →
    let i := issL x th k
    let srcs := [baseA x, wide x.b .b64, srcC x, srcD x]
    let g := given s i srcs
    let v (n : Nat) : Nat := g.v n 0
    let b := if x.d = 479 then none else some (v 3)
    EngineReady s i 4 srcs [] → BarrierFits s th b →
    spansAt th (poppedState s i srcs) [⟨v 1, v 2, false⟩, ⟨v 0, v 2, true⟩] = (.ok [src, dst], s') →
    ∃ t, exec (.cpy x) s = .next t ∧ EngineIssued s t i g.cost [4] [] (leavesOf (src ++ dst))
      [lockRange s' th (v 1) (v 2) false, lockRange s' th (v 0) (v 2) true]
      (.copy 0 (src.map (fun l => l.pa)) (dst.map (fun l => l.pa)) b (v 2) (strong s (s.th th).pl.ctx x.ty) [] [] [] [] [] 0 1 0 0
        (leavesOf dst))) ∧
  (∀ (s s' : State) (x : LForm) (th k : Nat) (c : FClass) (a : Nat), (Instr.cpy x).wf = true →
    let i := issL x th k
    let srcs := [baseA x, wide x.b .b64, srcC x, srcD x]
    let v (n : Nat) : Nat := (given s i srcs).v n 0
    EngineReady s i 4 srcs [] → BarrierFits s th (if x.d = 479 then none else some (v 3)) →
    spansAt th (poppedState s i srcs) [⟨v 1, v 2, false⟩, ⟨v 0, v 2, true⟩] = (.error (c, a), s') →
    ∃ t, exec (.cpy x) s = .next t ∧ FaultsAt s t i c (groupOf s i) a 0) ∧
  (∀ (s : State) (x : LForm) (th k : Nat), (Instr.cpy x).wf = true →
    let i := issL x th k
    let srcs := [baseA x, wide x.b .b64, srcC x, srcD x]
    Ready s i srcs [] readActive → groupOf s i &&& ~~~(s.th th).ln.helper = 0 →
    ∃ t, exec (.cpy x) s = .next t ∧ Wrote s t th [] ∧ SameOthers th s t ∧ Advanced s t i (given s i srcs).cost ∧ t.lk = s.lk ∧
      (NoneDue s th → t.fl = s.fl ∧ SameMem s t)) ∧
  (∀ (s s' : State) (x : PForm) (th k : Nat) (ls : List (List Loc)), (Instr.cpyt x).wf = true →
    let i := issP x th k
    let srcs := [baseA x.l, wide x.l.b .b64, { spec := 479 }, srcD x.l] ++ parOpnds x
    let g := given s i srcs
    let v (n : Nat) : Nat := g.v n 0
    let p0 := parVal x.p0 (v 4)
    let sp := parVal x.p1 (v 5)
    let dp := parVal x.p2 (v 6)
    let p3 := parVal x.p3 (v 7)
    let rows := p0 / 2 ^ 16
    let sn := p0 % 2 ^ 16
    let dn := if p3 = 0 then sn else p3
    let b := if x.l.d = 479 then none else some (v 3)
    let src := (ls.take rows).flatMap id
    let dst := (ls.drop rows).flatMap id
    let bad := rows = 0 ∨ sn = 0 ∨ 2 ^ 16 ≤ p3 ∨ dn < sn ∨ dp < dn
    EngineReady s i 4 srcs [] →
    (bad → ∃ t, exec (.cpyt x) s = .next t ∧ FaultsAt s t i .illegal (groupOf s i) 0 0) ∧
    (¬bad → BarrierFits s th b →
      spansAt th (poppedState s i srcs) (rowSpans (v 1) rows sp sn false ++ rowSpans (v 0) rows dp dn true) = (.ok ls, s') →
      ∃ t, exec (.cpyt x) s = .next t ∧ EngineIssued s t i g.cost [4] [] (leavesOf (src ++ dst))
        [lockRange s' th (v 1) ((rows - 1) * sp + sn) false, lockRange s' th (v 0) ((rows - 1) * dp + dn) true]
        (.copy 1 (src.map (fun l => l.pa)) (dst.map (fun l => l.pa)) b (rows * dn) (strong s (s.th th).pl.ctx x.l.ty) [] [] [] [] [] 0
          rows sn dn (leavesOf dst)))) ∧
  ∀ p ∈ ([(.dcpy, false), (.ecpy, true)] : List ((LForm → Instr) × Bool)),
    ∀ (s s' s'' : State) (x : LForm) (th k : Nat) (dl : List Loc) (ls : List (List Loc)), (p.1 x).wf = true →
    let i := issL x th k
    let srcs := [baseA x, wide x.b .b64, wide x.c .b64, srcD x]
    let g := given s i srcs
    let v (n : Nat) : Nat := g.v n 0
    let u := s.th th
    let ctx := s.ctx u.pl.ctx
    let d := cryptoOf (threadNat s' th (dl.map (fun l => l.pa)))
    let b := if x.d = 479 then none else some (v 3)
    let tag : Span := ⟨d.tag, 16, p.2⟩
    let dst : Span := ⟨v 0, d.n, true⟩
    let spans : List Span := [⟨v 1, d.n, false⟩, ⟨d.aad, d.aadLen, false⟩] ++ (if p.2 then [dst, tag] else [tag, dst]) ++
      [⟨d.record, if d.record = 0 then 0 else 16, true⟩]
    let nD := if p.2 then 2 else 3
    let nT := if p.2 then 3 else 2
    let pa (n : Nat) : List Nat := (ls.getD n []).map (fun l => l.pa)
    let written := ls.getD nD [] ++ ls.getD 4 []
    let owned := p.2 = true ∨ written.all (ownedBy s'' u.pl.ctx) = true
    let used (q : KeySlot) : Nat := if p.2 then q.lastEnc else q.lastDec
    EngineReady s i 4 srcs [] → v 2 % 16 = 0 → spanAt (poppedState s i srcs) th ⟨v 2, 64, false⟩ = (.ok dl, s') →
    readWaits s' th (dl.map (fun l => l.pa)) = none → lockHit s' th (v 2) 64 false = false → d.ok = true → BarrierFits s th b → spansAt th s' spans = (.ok ls, s'') →
    (∀ q, kget? ctx.keys d.slot = some q → ctx.conf = true → used q < d.ctr → owned →
      s.hasCtx u.pl.ctx = true →
      ∃ t, exec (p.1 x) s = .next t ∧ EngineIssued s t i g.cost [4] [] (leavesOf (ls.flatMap id))
          (if d.n = 0 then [] else spans.map (fun r => lockRange s'' th r.a r.n r.w))
          (.copy (if p.2 then 3 else 2) (pa 0) (pa nD) b d.n (strong s u.pl.ctx x.ty) q.key
            ((beBytes 4 d.stream ++ beBytes 8 d.ctr).map (BitVec.ofNat 8)) (pa 1) (pa nT) (pa 4) d.ctr 1 0 0
            (leavesOf (written ++ if p.2 then ls.getD nT [] else []))) ∧
        kget? (t.ctx u.pl.ctx).keys d.slot = some (if p.2 then { q with lastEnc := d.ctr } else { q with lastDec := d.ctr })) ∧
    (kget? ctx.keys d.slot = none ∨ ctx.conf = false ∨ ¬owned ∨ (∃ q, kget? ctx.keys d.slot = some q ∧ d.ctr ≤ used q) → ∃ t, exec (p.1 x) s = .next t ∧
      FaultsAt s t i .crypto (groupOf s i) 0 0)) ∧
  (∀ (s : State) (n minor cnt scope ctr rows sn dn : Nat) (f : Flight) (src dst aad tag rec dirty : List Nat) (b : Option Nat)
    (key iv : List Byte), MemOk s → s.flight? n = some f →
    f.work = .copy minor src dst b cnt scope key iv aad tag rec ctr rows sn dn dirty → f.done = false →
    let ws := copyWrites s f
    let read (as : List Nat) : List Nat := as.map (engByte s f)
    let ks := keyBytes (key.map (fun c => c.toNat))
    let ivn := iv.map (fun c => c.toNat)
    lockWaits s f.id = false → acquirePending s f = false → writePending s f (ws.map (fun e => e.1)) = false → (ws.map (fun e => e.1)).Nodup →
    (∀ a ∈ dirty, a ∉ ws.map (fun e => e.1)) →
    (copiesOf s (ws.map (fun e => e.1)) ≠ [] →
      ∃ t, exec (.copyCompletion n) s = .next t ∧ t.mem = s.mem ∧ Snoops s t (ws.map (fun e => e.1))) ∧
    (copiesOf s (ws.map (fun e => e.1)) = [] → ∃ t, exec (.copyCompletion n) s = .next t ∧ Finished t n ∧ t.ths = s.ths ∧
      t.lk.entries = s.lk.entries.filter (fun e => e.flight != n) ∧
      (b = none → (∀ e ∈ ws, memGet t.mem e.1 = e.2) ∧ SameMemBut (fun a => a ∈ ws.map (fun e => e.1) ∨ a ∈ dirty) s t) ∧
      (minor = 0 → ws = dst.zip (src.map (fun a => BitVec.ofNat 8 (engByte s f a)))) ∧
      (minor = 1 → b = none → src.length = rows * sn → sn ≤ dn → ∀ (r j a : Nat), r < rows → j < dn → dst[r * dn + j]? = some a →
        memGet t.mem a = if j < sn then BitVec.ofNat 8 ((read src).getD (r * sn + j) 0) else 0) ∧
      (minor = 2 → b = none →
        let good : Bool := gcmTag ks ivn (read aad) (read src) == read tag
        (∀ (j a c : Nat), good = true → dst[j]? = some a → (gcmStream ks ivn (read src))[j]? = some c → memGet t.mem a = BitVec.ofNat 8 c) ∧
        (∀ (j a : Nat), good = false → dst[j]? = some a → j < src.length → memGet t.mem a = 0) ∧
        ∀ (j a : Nat), rec[j]? = some a → j < 16 → memGet t.mem a = (leBytes 8 (if good then 0 else 1) ++ leBytes 8 ctr).getD j 0) ∧
      (minor = 3 → b = none →
        (∀ (j a c : Nat), dst[j]? = some a → (gcmStream ks ivn (read src))[j]? = some c → memGet t.mem a = BitVec.ofNat 8 c) ∧
        (∀ (j a c : Nat), tag[j]? = some a → (gcmTag ks ivn (read aad) (gcmStream ks ivn (read src)))[j]? = some c →
          memGet t.mem a = BitVec.ofNat 8 c) ∧
        ∀ (j a : Nat), rec[j]? = some a → j < 16 → memGet t.mem a = (leBytes 8 0 ++ leBytes 8 ctr).getD j 0) ∧
      ∀ o as, b = some o → abFlats (s.wg (s.th f.th).pl.wg) o = some as → as.Nodup →
        (∀ a ∈ as, a ∉ ws.map (fun e => e.1) ∧ a ∉ dirty) →
        let v := abRead s (s.th f.th).pl.wg o
        abFields (abRead t (s.th f.th).pl.wg o) =
          abSettled (wrapN ((bitsOf v 0 32 : Int) - cnt) 32) (bitsOf v 32 16) (bitsOf v 64 16) (bitsOf v 96 31)))

/-- R303, R304, R305: the instructions of arrival barriers, and the arrival itself. -/
def Obligations.ArrivalBarriers : Prop :=
  (∀ (s : State) (x : LForm) (th k : Nat) (as : List Nat), MemOk s → NoneDue s th →
    let i := issL x th k
    let srcs := [srcA x, srcB x]
    let g := given s i srcs
    let off := g.v 0 0
    let v := g.v 1 0
    let w := (s.th th).pl.wg
    let old := abRead s w off
    BarrierAt s th off as → Ready s i srcs [] readActive → groupOf s i &&& ~~~(s.th th).ln.helper ≠ 0 →
    ((Instr.abset x).wf = true → 1 ≤ v → v ≤ 65535 → ∃ t, exec (.abset x) s = .next t ∧ abFields (abRead t w off) = (0, v, v, 0) ∧
      SameMemBut (fun a => a ∈ as) s t ∧ Wrote s t th [] ∧ SameOthers th s t ∧ Advanced s t i g.cost) ∧
    ((Instr.abset x).wf = true → v = 0 ∨ 65535 < v → ∃ t, exec (.abset x) s = .next t ∧ FaultsAt s t i .illegal (groupOf s i) 0 0) ∧
    ((Instr.abdecl x).wf = true → v < 2 ^ 31 → ∃ t, exec (.abdecl x) s = .next t ∧
      abFields (abRead t w off) = ((bitsOf old 0 32 + v) % 2 ^ 32, bitsOf old 32 16, bitsOf old 64 16, bitsOf old 96 31) ∧
      SameMemBut (fun a => a ∈ as) s t ∧ Wrote s t th [] ∧ SameOthers th s t ∧ Advanced s t i g.cost) ∧
    ((Instr.abwait x).wf = true → ∃ t, exec (.abwait x) s = .next t ∧ Wrote s t th [] ∧ SameOthers th s t ∧ SameMem s t ∧
      (abReached s w off v = true → Advanced s t i g.cost) ∧ (abReached s w off v = false → WaitsFor s t i (.arrival off v))) ∧
    ((Instr.abtest x).wf = true → PathsOpen s th [2] → ∃ t, exec (.abtest x) s = .next t ∧ Wrote s t th [] ∧ SameOthers th s t ∧
      Advanced s t i g.cost ∧ SameMem s t ∧ Joins s t th [2] ((lanesOf (groupOf s i)).map (kCell (x.d.toNat % 8)))
        (.abtest off v (kCell (x.d.toNat % 8) 0) (groupOf s i)))) ∧
  (∀ (s : State) (x : LForm) (th k : Nat) (as : List Nat), (Instr.abarr x).wf = true →
    let i := issL x th k
    let srcs := [srcA x, srcB x, srcC x]
    let g := given s i srcs
    BarrierAt s th (g.v 0 0) as → Ready s i srcs [] readActive → groupOf s i &&& ~~~(s.th th).ln.helper ≠ 0 →
    PathsOpen s th (commitPath (s.th th) (groupOf s i)) →
    ∃ t f, exec (.abarr x) s = .next t ∧ f ∈ t.fl ∧ s.run.nextId ≤ f.id ∧ f.th = th ∧ f.paths = [] ∧
      f.work = .arrive (g.v 0 0) 2 (g.v 1 0) (g.v 2 0) f.id ∧ HeldBy t i f.id ∧ (t.th th).qn = afterCommit (s.th th).qn (groupOf s i) ∧
      Wrote s t th [] ∧ SameOthers th s t) ∧
  (∀ (s : State) (n off kind count x bound k : Nat) (f : Flight) (as : List Nat), MemOk s → s.flight? n = some f →
    f.work = .arrive off kind count x bound → f.done = false →
    (relWaits s f.th bound f.lanes (strong s f.ctx 2) = true → exec (.arrivalPerform n) s = .next s) ∧
    (relWaits s f.th bound f.lanes (strong s f.ctx 2) = false →
    k < 2 → ((s.th f.th).grp k).hold = .flight n → (k = 1 → ((s.th f.th).grp 0).hold ≠ .flight n) →
    let w := (s.th f.th).pl.wg
    let v := abRead s w off
    abFlats (s.wg w) off = some as → as.Nodup →
    (count ≤ bitsOf v 32 16 → ∃ t, exec (.arrivalPerform n) s = .next t ∧ Finished t n ∧ t.ths = s.ths ∧
      SameMemBut (fun a => a ∈ as) s t ∧
      abFields (abRead t w off) =
        abSettled ((bitsOf v 0 32 + x) % 2 ^ 32) (bitsOf v 32 16 - count) (bitsOf v 64 16) (bitsOf v 96 31)) ∧
    (bitsOf v 32 16 < count → ∃ t, exec (.arrivalPerform n) s = .next t ∧
      FaultsAt s t { th := f.th, k := k } .illegal ((s.th f.th).grp k).mask 0 0))) ∧
  ∀ (s : State) (w off target : Nat) (as : List Nat), abFlats (s.wg w) off = some as →
    (abReached s w off target = true ↔ (bitsOf (abRead s w off) 96 31 + (2 ^ 31 - target % 2 ^ 31)) % 2 ^ 31 < 2 ^ 30)

/-- R306 to R309: gathered fetches, and the settings of handles. The model's readings: `hset` stops with ILLEGAL, after its HANDLE check, for X or
Y from 2^31 on or P above 2^40 (log 9, DEDUCED), and a `fget` that fails its FORMAT check names the element of the lowest lane (log 11, DEDUCED). -/
def Obligations.FetchesAndHandles : Prop :=
  (∀ (s s' : State) (x : PForm) (th k : Nat) (rs : List (Nat × Except (FClass × Nat) (List (FetchElem × Nat × Nat × Option Nat)))),
    (Instr.fget x).wf = true →
    let i := issP x th k
    let u := s.th th
    let n := (if isMarker x.p0 then srcWord u k (issueClk u []) 0 .w32 (x.p0.toNat % 512) 0 else x.p0.toNat) + 1
    let d := x.l.d.toNat
    let srcs := [srcA x.l, srcB x.l, srcC x.l] ++ parOpnds x
    let g := given s i srcs
    let slot := g.v 0 0 % 2 ^ 12
    let h := handleOf s u.pl.ctx slot
    let xs (l : Nat) : List (Nat × Int) := (List.range n).map (fun e =>
      ((destCells u (d + e) 1 l).headD 0, sextN (g.v 1 l) 32 + sextN (parVal x.p1 (g.v 4 0)) 32 + e))
    let y (l : Nat) : Int := sextN (g.v 2 l) 32 + sextN (parVal x.p2 (g.v 5 0)) 32
    let es := gathered rs
    let got := es.filter (fun e => e.1.inr)
    let lo := (got.map (fun e => e.2.1)).foldl Nat.min (2 ^ 64)
    let hi := (got.map (fun e => e.2.2.1)).foldl Nat.max 0
    let locks := if got.isEmpty then [] else [lockRange s' th lo (hi + 1 - lo) false]
    let lanes := maskOf (es.map (fun e => e.1.lane))
    let ks := (lanesOf g.act).flatMap (fun l => (xs l).filterMap (fun e =>
      if 0 ≤ e.2 ∧ e.2 < (h.x : Int) ∧ 0 ≤ y l ∧ y l < (h.y : Int) then some (y l * h.p + e.2).toNat else none))
    Ready s i srcs ((List.range n).map (· + d)) readActive → n ≤ 4 → d + n ≤ (if isF d then 320 else 384) →
    (g.v 0 0 / 2 ^ 12 ≠ h.gen → ∃ t, exec (.fget x) s = .next t ∧ FaultsAt s t i .handle g.act 0 0) ∧
    (g.v 0 0 / 2 ^ 12 = h.gen → h.rewriting = true → ∃ t, exec (.fget x) s = .next t ∧ WaitsFor s t i (.handle slot) ∧
      Wrote s t th [] ∧ SameOthers th s t) ∧
    (g.v 0 0 / 2 ^ 12 = h.gen → h.rewriting = false → h.valid = false → ∃ t, exec (.fget x) s = .next t ∧
      FaultsAt s t i .handle g.act 0 0) ∧
    (g.v 0 0 / 2 ^ 12 = h.gen → h.rewriting = false → h.valid = true → PathsOpen s th [3] → lockRoom s u.pl.core = true →
      fgetWaits (poppedState s i srcs) th h ks = none →
      lanesGather (fun s l => laneGather s th h l (y l) (xs l)) (poppedState s i srcs) (lanesOf g.act) = (rs, s') →
      (∀ l c, (l, .error c) ∈ rs → u.ln.helper.getLsbD l = true) → es ≠ [] →
      ∃ t, exec (.fget x) s = .next t ∧ EngineIssued s t i g.cost [3]
        (es.map (fun e => e.1.cell) ++ (lanesOf lanes).map (kCell (x.l.md.toNat % 8))) [] locks
        (.fetch slot h.gen (es.map (fun e => e.1)) (kCell (x.l.md.toNat % 8) 0) lanes (BitVec.ofNat 32 (parVal x.p3 (g.v 6 0)))))) ∧
  (∀ (s : State) (n slot gen kc : Nat) (f : Flight) (es : List FetchElem) (lanes fill : Word), s.flight? n = some f →
    f.work = .fetch slot gen es kc lanes fill → f.done = false → (kget? s.ths f.th).isSome = true →
    lockWaits s n = false → acquirePending s f = false →
    let ks := (lanesOf lanes).map (fun l =>
      (kc + l, if es.all (fun e => e.lane != l || (e.inr && !e.dropped)) then 1#32 else 0#32))
    let ws := es.map (fun e => (e.cell, fetchWord s f fill e))
    ∃ t, exec (.fgetCompletion n) s = .next t ∧ Finished t n ∧ (InFile s f ws → t.mem = s.mem) ∧ SameOthers f.th s t ∧
      t.lk.entries = s.lk.entries.filter (fun e => e.flight != n) ∧
      (((homeWrites s f ws ++ ks).map (fun w => w.1)).Nodup → Wrote s t f.th (homeWrites s f ws ++ ks))) ∧
  (∀ (s s' : State) (x : LForm) (th k : Nat) (ls : List Loc), (Instr.hset x).wf = true →
    let i := issL x th k
    let srcs := [srcA x, wide x.b .b64]
    let g := given s i srcs
    let ctx := (s.th th).pl.ctx
    let slot := g.v 0 0
    let d := descOf (threadNat s' th (ls.map (fun l => l.pa)))
    let gen := ((handleOf s ctx slot).gen + 1) % 2 ^ 20
    let cells := [sCell (x.d.toNat - 384)]
    EngineReady s i 3 srcs [] → slot ≤ 4095 → g.v 1 0 % 16 = 0 → spanAt (poppedState s i srcs) th ⟨g.v 1 0, 32, false⟩ = (.ok ls, s') →
    readWaits s' th (ls.map (fun l => l.pa)) = none →
    (descBad d = false → 2 ^ 31 ≤ d.x ∨ 2 ^ 31 ≤ d.y ∨ 2 ^ 40 < d.p →
      ∃ t, exec (.hset x) s = .next t ∧ FaultsAt s t i .illegal (groupOf s i) 0 0) ∧
    (descBad d = true → ∃ t, exec (.hset x) s = .next t ∧ FaultsAt s t i .handle (groupOf s i) 0 0) ∧
    (descBad d = false → d.x < 2 ^ 31 → d.y < 2 ^ 31 → d.p ≤ 2 ^ 40 → s.hasCtx ctx = true → ∃ t, exec (.hset x) s = .next t ∧
      EngineIssued s t i g.cost [3] cells [] [] (.hand 1 slot (16 ≤ x.md.toNat) { d with gen := gen, valid := true } cells gen) ∧
      handleOf t ctx slot = { handleOf s ctx slot with gen := gen, rewriting := true } ∧
      ∀ n, n ≠ slot → handleOf t ctx n = handleOf s ctx n)) ∧
  (∀ (s : State) (x : LForm) (th k : Nat),
    let i := issL x th k
    let g := given s i [srcA x]
    let ctx := (s.th th).pl.ctx
    let slot := g.v 0 0
    let gen := ((handleOf s ctx slot).gen + 1) % 2 ^ 20
    let cells := [sCell (x.d.toNat - 384), sCell (x.d.toNat - 383)]
    EngineReady s i 3 [srcA x] [] → slot ≤ 4095 → s.hasCtx ctx = true →
    ((Instr.hinv x).wf = true → ∃ t, exec (.hinv x) s = .next t ∧ EngineIssued s t i g.cost [3] [] [] [] (.hand 2 slot false {} [] gen) ∧
      handleOf t ctx slot = { handleOf s ctx slot with gen := gen, valid := false, rewriting := false }) ∧
    ((Instr.hget x).wf = true → ∃ t, exec (.hget x) s = .next t ∧
      EngineIssued s t i g.cost [3] cells [] [] (.hand 3 slot false {} cells 0))) ∧
  ∀ (s : State) (n minor slot gen : Nat) (force : Bool) (d : HSlot) (cells : List Nat) (f : Flight), s.flight? n = some f →
    f.work = .hand minor slot force d cells gen → f.done = false → (kget? s.ths f.th).isSome = true → s.hasCtx f.ctx = true →
    (∀ g ∈ s.fl, g.id < n → g.ctx = f.ctx → g.done = false → ∀ m z b q e, g.work ≠ .hand m slot b z q e) →
    let h := handleOf s f.ctx slot
    let older := s.fl.any (fun g => fetchesSlot f.ctx slot g && (match g.work with | .fetch _ x _ _ _ _ => x != gen | _ => false))
    (minor = 1 → older = false ∨ force = true → cells.length = 1 → ∃ t, exec (.handleResultWritten n) s = .next t ∧ Finished t n ∧
      ResultsLand s t f (cells.map (fun c => (c, BitVec.ofNat 32 (gen % 2 ^ 20 * 2 ^ 12 + slot % 2 ^ 12)))) ∧
      (h.gen = gen → handleOf t f.ctx slot = d)) ∧
    (minor = 2 → older = false → ∃ t, exec (.handleResultWritten n) s = .next t ∧ Finished t n ∧ Wrote s t f.th []) ∧
    (minor = 1 ∨ minor = 2 → older = true → force = false → exec (.handleResultWritten n) s = .next s) ∧
    (minor = 3 → cells.length = 2 → ∃ t, exec (.handleResultWritten n) s = .next t ∧ Finished t n ∧
      ResultsLand s t f [(cells.getD 0 0, BitVec.ofNat 32 (h.gen % 2 ^ 20 * 2 ^ 12 + slot % 2 ^ 12)),
        (cells.getD 1 0, if h.valid then 1 else 0)])

/-! ### Tables, splices and feeds -/

/-- R227 to R233, R236: the table instructions, the placing of seed records, and their completions. -/
def Obligations.TableInstructions : Prop :=
  (∀ (s s' : State) (x : PForm) (th k : Nat) (pins : List Nat), (Instr.spOpen x).wf = true →
    let i := issP x th k
    let u := s.th th
    let pair := isS x.l.c.toNat
    let srcs := [baseA x.l, srcB x.l, if pair then wide x.l.c .b64 else { spec := 479 }] ++ parOpnds x
    let g := given s i srcs
    let v (n : Nat) : Nat := g.v n 0
    let p0 := parVal x.p0 (v 3)
    let p1 := parVal x.p1 (v 4)
    let p2 := parVal x.p2 (v 5)
    let p3 := parVal x.p3 (v 6)
    let hash := bitOf p0 22
    let name := x.l.md.toNat % 4
    let d : Table := {
      spillBase := v 0
      spillCap := v 1
      tag := p3
      scope := bitsOf p0 23 2
      hash := hash
      probe := bitsOf p0 18 4 + 1
      logS := bitsOf p0 13 5
      b := p1
      m1 := bitsOf p2 12 12
      n1 := bitsOf p2 0 12
      row0 := if hash then 0 else v 2 % 2 ^ 32
      col0 := if hash then 0 else v 2 / 2 ^ 32 }
    u.pl.kind = .strand → Ready s i srcs [] readActive →
    (openBad s u p0 p1 p2 p3 pair d name = true → ∃ t, exec (.spOpen x) s = .next t ∧ FaultsAt s t i .illegal (groupOf s i) 0 0) ∧
    (openBad s u p0 p1 p2 p3 pair d name = false → spillCheck (poppedState s i srcs) th (v 0) (v 1) = (.ok pins, s') →
      (kget? s.wgs u.pl.wg).isSome = true → PathsOpen s th [5] → tabBusy s u.pl.wg name (fun _ => true) = none →
      ∃ t, exec (.spOpen x) s = .next t ∧ tableOf t u.pl.wg name = some { d with pins := pins } ∧
        (∀ n, n ≠ name → tableOf t u.pl.wg n = tableOf s u.pl.wg n) ∧
        TableIssued s t i g.cost [] (.tabop u.pl.wg name 0 [] {}))) ∧
  (∀ (s s' : State) (x : LForm) (th k : Nat) (d : Table) (ls : List Loc), (Instr.spSeed x).wf = true →
    let i := issL x th k
    let srcs := [baseA x, srcB x]
    let g := given s i srcs
    OpenTable s th x d → Ready s i srcs [] readActive → PathsOpen s th [5] → g.v 0 0 % 16 = 0 →
    spanAt (poppedState s i srcs) th ⟨g.v 0 0, 16 * g.v 1 0, false⟩ = (.ok ls, s') →
    ∃ t, exec (.spSeed x) s = .next t ∧
      TableIssued s t i g.cost [] (.seed (s.th th).pl.wg (x.md.toNat % 4) (ls.map (fun l => l.pa)) (g.v 1 0) 0)) ∧
  (∀ (s : State) (n w tb count j : Nat) (pas : List Nat) (f : Flight) (d : Table), s.flight? n = some f →
    f.work = .seed w tb pas count j → f.done = false → opWaits s f = false → acquirePending s f = false →
    readPending s f ((pas.drop (16 * j)).take 16) = false → tableOf s w tb = some d →
    let r := flightNat s f false ((pas.drop (16 * j)).take 16)
    let d0 := if j = 0 then { d with seeded := true } else d
    ∃ t, exec (.seedRecordUnit n) s = .next t ∧ t.ths = s.ths ∧ t.mem = s.mem ∧
      tableOf t w tb = some (if j < count then seedOne d0 (r % 2 ^ 64) (bitsOf r 64 32) else d0) ∧
      (j + 1 < count → ∃ g ∈ t.fl, g.id = n ∧ g.work = .seed w tb pas count (j + 1)) ∧ (count ≤ j + 1 → Finished t n)) ∧
  (∀ (s : State) (x : LForm) (th k : Nat) (d : Table),
    let i := issL x th k
    let w := (s.th th).pl.wg
    let name := x.md.toNat % 4
    let cells := (List.range 4).map (fun j => sCell (x.d.toNat - 384 + j))
    let cost := (given s i []).cost
    OpenTable s th x d → Ready s i [] [] readActive → PathsOpen s th [5] →
    ((Instr.spStat x).wf = true → ∃ t, exec (.spStat x) s = .next t ∧ TableIssued s t i cost cells (.tabop w name 3 cells {})) ∧
    (tabBusy s w name (fun _ => true) = none → kordered (s.wg w).tables = true →
      ((Instr.spClear x).wf = true → ∃ t, exec (.spClear x) s = .next t ∧ TableIssued s t i cost [] (.tabop w name 1 [] {}) ∧
        tableOf t w name = some (if bitOf x.md.toNat 2
          then { d with slots := (d.slots.filter (fun e => e.2.seeded)).map (fun e => (e.1, { e.2 with v := 0, dirty := true })), spillCount := 0, discard := 0 }
          else { d with slots := [], seeded := false, posEnd := 0, spillCount := 0, discard := 0, unplaced := 0 })) ∧
      ((Instr.spClose x).wf = true → ∃ t, exec (.spClose x) s = .next t ∧ TableIssued s t i cost [] (.tabop w name 2 [] {}) ∧
        tableOf t w name = none)) ∧
    (∀ f, tabBusy s w name (fun _ => true) = some f → (Instr.spClose x).wf = true →
      ∃ t, exec (.spClose x) s = .next t ∧ t.wgs = s.wgs ∧ ((t.th th).grp k).st = .waiting ∧ ((t.th th).grp k).hold = .flight f)) ∧
  (∀ (s s' : State) (x : LForm) (th k : Nat) (d : Table) (pins : List Nat), (Instr.spDrain x).wf = true →
    let i := issL x th k
    let u := s.th th
    let srcs := [baseA x, { spec := x.b.toNat, ty := .f32 }, if bitsOf x.d.toNat 3 2 = 2 then { spec := 479 } else srcC x]
    let g := given s i srcs
    let o : Drain := {
      d := d
      fmt := bitsOf x.d.toNat 0 3
      form := bitsOf x.d.toNat 3 2
      sr := bitOf x.d.toNat 5
      scale := decodeF fp32 (g.v 1 0)
      out := g.v 0 0
      pc := g.v 2 0 }
    OpenTable s th x d → Ready s i srcs [] readActive → PathsOpen s th [5] → lockRoom s u.pl.core = true →
    tabBusy s u.pl.wg (x.md.toNat % 4) (fun f => f.th == th) = none → ¬(o.form = 0 ∧ d.hash = true) →
    ((∃ n m e, o.scale = .fin n m e) ∨ o.fmt = 5) → o.out % o.z = 0 → (o.form = 0 → o.pc % o.z = 0 ∧ (d.n1 + 1) * o.z ≤ o.pc) →
    (o.form = 1 → d.slots.length ≤ o.pc) →
    pagesAt (poppedState s i srcs) th .write (fun _ l => !l.exact) o.out o.len = (.ok pins, s') →
    (kget? s.wgs u.pl.wg).isSome = true →
    ∃ t, exec (.spDrain x) s = .next t ∧ EngineIssued s t i g.cost [5] [] pins [lockRange s' th o.out o.len true]
        (.drain u.pl.wg (x.md.toNat % 4) (flatWrites s' th o.writes) (writeLeaves s' th o.writes)) ∧
      tableOf t u.pl.wg (x.md.toNat % 4) =
        some (if bitOf x.d.toNat 6 then { d with slots := [], seeded := false, posEnd := 0 } else d)) ∧
  (∀ (s : State) (n w tb : Nat) (ws : List Host.Cell) (leaf : List Nat) (f : Flight), MemOk s → s.flight? n = some f →
    f.work = .drain w tb ws leaf → f.done = false → lockWaits s n = false →
    writePending s f (ws.map (fun e => e.1)) = false →
    (copiesOf s (ws.map (fun e => e.1)) ≠ [] →
      ∃ t, exec (.drainCompletion n) s = .next t ∧ t.mem = s.mem ∧ Snoops s t (ws.map (fun e => e.1))) ∧
    (copiesOf s (ws.map (fun e => e.1)) = [] →
    ∃ t, exec (.drainCompletion n) s = .next t ∧ Finished t n ∧ t.ths = s.ths ∧ t.wgs = s.wgs ∧
      (∀ a v, ws.reverse.find? (fun e => e.1 == a) = some (a, v) → memGet t.mem a = v) ∧
      SameMemBut (fun a => a ∈ ws.map (fun e => e.1) ∨ a ∈ leaf) s t ∧
      t.lk.entries = s.lk.entries.filter (fun e => e.flight != n))) ∧
  ∀ (s : State) (n w tb kind : Nat) (cells : List Nat) (d e : Table) (f : Flight), s.flight? n = some f →
    f.work = .tabop w tb kind cells e → f.done = false → opWaits s f = false →
    ∃ t, exec (.drainCompletion n) s = .next t ∧ Finished t n ∧ t.mem = s.mem ∧ t.wgs = s.wgs ∧
      (kind ≠ 3 → t.ths = s.ths) ∧
      (kind = 3 → tableOf s w tb = some d → cells.length = 4 → (kget? s.ths f.th).isSome = true →
        ResultsLand s t f (cells.zip ([d.slots.length, d.spillCount, d.discard, d.unplaced].map (BitVec.ofNat 32))))

/-- R238 to R249: splice instructions whose checks pass become one operation on path X, with its operands as they are read at issue. -/
def Obligations.SplicesIssue : Prop :=
  (∀ p ∈ ([(.spMma, 0), (.spJoinPair, 1), (.spGrp, 4)] : List ((PForm → Instr) × Nat)),
    ∀ (s s' : State) (x : PForm) (th k : Nat) (d : Table) (ls : List (List Loc)), (p.1 x).wf = true →
    let i := issP x th k
    let u := s.th th
    let mode := p.2
    let pv := given s i (parOpnds x)
    let p0 := parVal x.p0 (pv.v 0 0)
    let p1 := parVal x.p1 (pv.v 1 0)
    let p2 := parVal x.p2 (pv.v 2 0)
    let p3 := parVal x.p3 (pv.v 3 0)
    let groups := p1 / 2 ^ 16
    let sizes := if mode = 4 then (grpSizes p2 p3).take groups else []
    let m := if mode = 4 then sizes.foldl (· + ·) 0 else bitsOf p0 17 8 + 1
    let n := bitsOf p0 0 9 + 1
    let a := x.l.a.toNat
    let fq := isFq x.l.b.toNat
    let held := if x.l.ru then u.ct.latch.bind (fun l => if l.spec = a && l.shape = m * 1024 + n then some l.rows else none) else none
    let regs := (m + 1) / 2
    let scl := mode != 1 && isFG x.l.c.toNat
    let sregs := (m + 127) / 128
    let no : Opnd := { spec := 479 }
    let srcs := [if held.isSome then no else { spec := a, regs := regs },
      if scl then { spec := x.l.c.toNat, regs := sregs } else if mode = 1 then srcC x.l else no,
      if fq then no else srcB x.l, if mode = 4 then wide x.l.d .b64 else no] ++ parOpnds x
    let g := given s i srcs
    let wa := nfOf s th (bitsOf p0 15 2)
    let wb := nfOf s th (bitsOf p0 13 2)
    let sA := sByte p1 0
    let sB := sByte p1 8
    let rows := match held with
      | some r => r
      | none => (List.range regs).map (fun j => (List.range 32).map (fun l =>
          if g.act.getLsbD l then BitVec.ofNat 32 (bitsOf (g.v 0 l) (32 * j) 32) else 0))
    let scaleAt (r : Nat) : Int := if g.act.getLsbD (r % 128 / 4)
      then sextN (bitsOf (g.v 1 (r % 128 / 4)) (32 * (r / 128) + 8 * (r % 4)) 8) 8 else 0
    let scls := (List.range m).map (fun r => if scl then scaleAt r else sA)
    let off := g.v 2 0
    let list := g.v 1 0
    let nB := if fq then 0 else 64 * n * (if mode = 4 then groups else 1)
    let nL := if mode = 1 then 4 * (p1 / 2 ^ 16) else 0
    let y : Splice := {
      minor := if mode = 0 then 2 else if mode = 1 then 3 else 4
      wg := u.pl.wg
      table := x.l.md.toNat % 4
      pair := mode == 1
      pc := curPc u k
      lane := (lanesOf (groupOf s i)).headD 0
      fmtA := wa
      fmtB := wb
      cbA := nfBook s u.pl.ctx wa
      cbB := if fq then [] else nfBook s u.pl.ctx wb
      rows := (List.range m).map (rowBytes rows)
      sclA := scls
      sB := sB
      m := m
      n := n
      oi := if mode = 4 then g.v 3 0 % 2 ^ 32 else p2
      oj := if mode = 4 then g.v 3 0 / 2 ^ 32 else p3
      fq := if fq then some (x.l.b.toNat - 464) else none
      off := off
      count := p1 / 2 ^ 16
      sizes := sizes
      aPas := (ls.getD 1 []).map (fun l => l.pa)
      bPas := (ls.getD 0 []).map (fun l => l.pa)
      cbF := if fq then captureRows s u.pl.ctx [] (u.fqs.getD (x.l.b.toNat - 464) []) else [] }
    OpenTable s th x.l d → Ready s i srcs [] readActive → PathsOpen s th [5] → lockRoom s u.pl.core = true →
    aBlock a m = true → (scl = true → aBlock x.l.c.toNat (2 * sregs) = true) → spPar mode 0 p0 = true → spPar mode 1 p1 = true →
    m ≤ (shapeLimit d.scope).1 → n ≤ (shapeLimit d.scope).2 → coreServes (s.wg u.pl.wg) u d = true →
    (mode = 4 → ((grpSizes p2 p3).drop groups).any (· != 0) = false) →
    nfOk wa = true → scls.all scaleOk = true → (scl = false → scaleOk sA = true) → (mode = 1 → list % 4 = 0) →
    (fq = true → bitsOf p0 13 2 = 0) → (fq = false → nfOk wb = true ∧ (nfFmt wa).w = (nfFmt wb).w ∧ scaleOk sB = true ∧
      scls.any (fun v => v + sB < -64 || 31 < v + sB) = false ∧ off % 8 = 0) →
    spansAt th (poppedState s i srcs) [⟨spaceBase 2 + off, nB, false⟩, ⟨spaceBase 2 + list, nL, false⟩] = (.ok ls, s') →
    ∃ t, exec (p.1 x) s = .next t ∧
      EngineIssued s t i g.cost [5] [] [] [lockRange s' th (spaceBase 2 + off) nB false, lockRange s' th (spaceBase 2 + list) nL false]
        (.splice y) ∧
      (t.th th).ct.latch = if x.l.ru then some { spec := a, shape := m * 1024 + n, rows := rows } else none) ∧
  (∀ p ∈ ([(.spJoinKj, false), (.spJoinRec, true)] : List ((PForm → Instr) × Bool)),
    ∀ (s s' : State) (x : PForm) (th k : Nat) (d : Table) (ls : List (List Loc)), (p.1 x).wf = true →
    let i := issP x th k
    let u := s.th th
    let srcs := [baseA x.l, if p.2 then { spec := 479 } else wide x.l.b .b64] ++ parOpnds x
    let g := given s i srcs
    let p0 := parVal x.p0 (g.v 2 0)
    let p1 := parVal x.p1 (g.v 3 0)
    let p2 := parVal x.p2 (g.v 4 0)
    let p3 := parVal x.p3 (g.v 5 0)
    let mode := if p.2 then 3 else 2
    let a := g.v 0 0
    let b := g.v 1 0
    let wa := nfOf s th (bitsOf p0 15 2)
    let wb := nfOf s th (bitsOf p0 13 2)
    let sA := sByte p3 0
    let sB := sByte p3 8
    let nA := if p.2 then 48 * p1 else 8 * p1
    let nB := if p.2 then 0 else 8 * p2
    let y : Splice := {
      minor := 3
      wg := u.pl.wg
      table := x.l.md.toNat % 4
      recMode := p.2
      pc := curPc u k
      lane := (lanesOf (groupOf s i)).headD 0
      fmtA := wa
      fmtB := wb
      cbA := if p.2 then [] else nfBook s u.pl.ctx wa
      cbB := if p.2 then [] else nfBook s u.pl.ctx wb
      sclA := [sA]
      sB := sB
      count := p1
      na := p1
      nb := p2
      aPas := (ls.getD 0 []).map (fun l => l.pa)
      bPas := (ls.getD 1 []).map (fun l => l.pa) }
    OpenTable s th x.l d → Ready s i srcs [] readActive → PathsOpen s th [5] → lockRoom s u.pl.core = true →
    spPar mode 0 p0 = true → spPar mode 1 p1 = true → spPar mode 2 p2 = true → spPar mode 3 p3 = true →
    coreServes (s.wg u.pl.wg) u d = true →
    (p.2 = false → nfOk wa = true ∧ nfOk wb = true ∧ scaleOk sA = true ∧ scaleOk sB = true ∧ -64 ≤ sA + sB ∧ sA + sB ≤ 31 ∧ b % 8 = 0) →
    a % (if p.2 then 16 else 8) = 0 →
    spansAt th (poppedState s i srcs) [⟨a, nA, false⟩, ⟨b, nB, false⟩] = (.ok ls, s') →
    ∃ t, exec (p.1 x) s = .next t ∧ EngineIssued s t i g.cost [5] [] (leavesOf (ls.flatMap id))
      [lockRange s' th a nA false, lockRange s' th b nB false] (.splice y)) ∧
  ∀ p ∈ ([(.spJoinKj, false), (.spJoinRec, true)] : List ((PForm → Instr) × Bool)), ∀ (s : State) (x : PForm) (th k : Nat),
    (p.1 x).wf = true →
    let i := issP x th k
    Ready s i ([baseA x.l, if p.2 then { spec := 479 } else wide x.l.b .b64] ++ parOpnds x) [] readActive →
    tableOf s (s.th th).pl.wg (x.l.md.toNat % 4) = none →
    ∃ t, exec (p.1 x) s = .next t ∧ FaultsAt s t i .illegal (1#32 <<< ((lanesOf (groupOf s i)).headD 0)) 0 0

/-- R222, R224, R225, R239, R246, R250 to R252: a unit of a splice enters its sums in its table whole or suspends the operation, and
arrays ramp up and down. -/
def Obligations.SpliceUnitsAndArrays : Prop :=
  (∀ (s : State) (n : Nat) (f : Flight) (x : Splice) (d : Table), s.flight? n = some f → f.work = .splice x →
    tableOf s x.wg x.table = some d → f.done = false → x.suspended = false → f.th < savedBase → (s.th f.th).ps.halted = false →
    let arrays := homeArrays (s.wg x.wg) d
    let spans := d.scope != 0
    let s1 := if spans then takeArrays s f arrays else s
    (spans = true → (∃ q ∈ arrays, arrayBusy s f true q = true) → ∃ t, exec (.spliceUnit n) s = .next t ∧ t.wgs = s.wgs ∧ t.mem = s.mem ∧
      ∀ q ∈ arrays, arrayBusy s f true q = false → (t.quad q).slaved = some n) ∧ (
    opWaits s1 f = false → lockWaits s1 n = false → acquirePending s1 f = false →
    (∀ q ∈ arrays, arrayBusy s1 f spans q = false ∧ (s1.quad q).ramped = true) →
    (∀ l extra y q d' rs, unitOf s1 f x = .sums l extra y q →
      enterUnit { d with discard := satAdd d.discard extra } (sortBy (fun e => e.1) l) = some (d', rs) →
      spillLocked s1 f (spillRanges rs) = false → (rs = [] ∨ lockRoom s1 f.core = true) →
      ∃ t, exec (.spliceUnit n) s = .next t ∧ tableOf t x.wg x.table = some d' ∧ SameRegs s t ∧
        (∀ g ∈ t.fl, g.id = n → g.done = true ∨ ∃ z, g.work = .splice z ∧ z.unitsDone = y.unitsDone ∧ z.p = y.p ∧ z.q = y.q)) ∧
    (∀ l extra y q, unitOf s1 f x = .sums l extra y q →
      enterUnit { d with discard := satAdd d.discard extra } (sortBy (fun e => e.1) l) = none → NoneDue s f.th →
      (kget? s.ths f.th).isSome = true →
      ∃ t, exec (.spliceUnit n) s = .next t ∧ t.wgs = s.wgs ∧ t.mem = s.mem ∧
        (t.th f.th).ct.pending = some { pc := x.pc, cls := .spill, source := 2, detail := x.unitsDone } ∧
        ∃ g ∈ t.fl, g.id = n ∧ ∃ z, g.work = .splice z ∧ z.suspended = true ∧ z.unitsDone = x.unitsDone) ∧
    (unitOf s1 f x = .over → writePending s f (x.spilled.map (fun e => e.1)) = false → copiesOf s (x.spilled.map (fun e => e.1)) = [] →
      ∃ t, exec (.spliceUnit n) s = .next t ∧ Finished t n ∧ t.wgs = s.wgs ∧ t.ths = s.ths))) ∧
  (∀ (d : Table) (l : List Sum), d.hash = false → d.seeded = false → (∀ e ∈ d.slots, e.2.v < 2 ^ 256) →
    (∀ e ∈ l, (directSlot d e.1).isSome = true) →
    ∃ d', enterUnit d l = some (d', []) ∧ ∀ n, slotValue d' n = (slotValue d n +
      ((l.filter (fun e => e.2.2 != 0 && directSlot d e.1 == some n)).map (fun e => e.2.1)).foldl (· + ·) 0) % 2 ^ 256) ∧
  (∀ (s : State) (x : LForm) (th k : Nat) (d : Table), (Instr.burst x).wf = true →
    let i := issL x th k
    let g := given s i [srcA x]
    OpenTable s th x d → Ready s i [srcA x] [] readActive →
    (∃ t, exec (.burst x) s = .next t ∧
      (∀ q ∈ homeArrays (s.wg (s.th th).pl.wg) d, (t.quad q).credit = g.v 0 0 ∧ (t.quad q).idleAt = s.now ∧
        (t.quad q).rising = !(s.quad q).ramped) ∧
      (∀ q, q ∉ homeArrays (s.wg (s.th th).pl.wg) d → (t.quad q).credit = (s.quad q).credit) ∧
      Wrote s t th [] ∧ SameOthers th s t ∧ Advanced s t i g.cost)) ∧
  (∀ (s : State) (x : LForm) (th k : Nat), (Instr.burst x).wf = true → tableOf s (s.th th).pl.wg (x.md.toNat % 4) = none →
    Ready s (issL x th k) [srcA x] [] readActive →
    ∃ t, exec (.burst x) s = .next t ∧ ResultW s t (issL x th k) 0 (given s (issL x th k) [srcA x]).cost [] 0) ∧
  ∀ (s : State) (q : Nat),
    let a := s.quad q
    let queued := arrayQueued s q
    let only (t : State) (b : Quadrant) : Prop := t.quad q = b ∧ (∀ n, n ≠ q → t.quad n = s.quad n) ∧ t = { s with quads := t.quads }
    (a.ramped = true → queued = false → a.credit = 0 → a.idleAt + 512 ≤ s.now →
      ∃ t, exec (.arrayRampDown q) s = .next t ∧ only t { a with ramped := false }) ∧
    (a.ramped = false → queued = true ∨ a.rising = true →
      ∃ t, exec (.arrayRampUp q) s = .next t ∧ only t { a with ramped := true, rising := false, idleAt := s.now }) ∧
    (a.credit ≠ 0 → queued = false → a.idleAt + 8192 ≤ s.now →
      ∃ t, exec (.burstCreditExpiry q) s = .next t ∧ only t { a with credit := 0 }) ∧
    (queued = true → exec (.arrayRampDown q) s = .next s ∧ exec (.burstCreditExpiry q) s = .next s)

/-- R164 to R169: the instructions of access threads, and the rows that land in feed queues. The model's reading: `a.loop` checks its target only
where it goes there, and not where the count is or becomes 0 (log 9, DEDUCED). -/
def Obligations.FeedInstructions : Prop :=
  (∀ (s : State) (x : LForm) (th : Nat) (a : Access) (c : Clause), (Instr.aSet x).wf = true → AccessAt s th a c → a.a.length = 16 →
    let d := x.d.toNat
    let imm := setImm x
    let r (n : Nat) : Nat := a.a.getD n 0
    let v : Nat := match x.fldG with
      | 0 => imm
      | 1 => r d % 2 ^ 32 + imm * 2 ^ 32
      | 2 => wrapN ((r d : Int) + sextN imm 32) 64
      | 3 => r x.a.toNat + r x.b.toNat
      | 4 => r x.a.toNat * r x.b.toNat
      | _ => r x.a.toNat * 2 ^ x.b.toNat
    (x.fldG ≠ 5 → ∃ t, exec (.aSet x) s = .next t ∧ AccessBecomes s t th (pastFld a c (a.a.set d (v % 2 ^ 64))) ∧ t.mem = s.mem) ∧
    (∀ w s', x.fldG = 5 → (r x.a.toNat + 8 * x.b.toNat) % 8 = 0 →
      feedWord s th ((r x.a.toNat + 8 * x.b.toNat) % 2 ^ 64) 8 = (.val w, s') →
      ∃ t, exec (.aSet x) s = .next t ∧ AccessBecomes s t th (pastFld a c (a.a.set d w)) ∧ Marked s t)) ∧
  (∀ (s : State) (x : LForm) (th : Nat) (a : Access) (c : Clause), (Instr.aLoop x).wf = true → AccessAt s th a c →
    let n := a.a.getD x.d.toNat 0
    let l := a.a.set x.d.toNat (n - 1)
    let step := if x.a = 479 then l else l.set x.a.toNat ((l.getD x.a.toNat 0 + l.getD x.b.toNat 0) % 2 ^ 64)
    let sl := accessSlice (s.transTh (s.th th))
    let left := step.getD x.d.toNat 0
    let go := (c.hdr + 2 + c.pos : Int) + loopOff x
    (n = 0 → ∃ t, exec (.aLoop x) s = .next t ∧ AccessBecomes s t th (pastFld a c a.a)) ∧
    (n ≠ 0 → left = 0 → ∃ t, exec (.aLoop x) s = .next t ∧ AccessBecomes s t th (pastFld a c step)) ∧
    (∀ w s', n ≠ 0 → left ≠ 0 → (sl.1 : Int) ≤ go → go < sl.2 →
      codeRead s (s.th th).pl.ctx (s.th th).pl.code go.toNat true = (.ok w, s') → w.toNat % 4 = 3 →
      ∃ t, exec (.aLoop x) s = .next t ∧ AccessBecomes s t th { a with a := step, clause := none, pc := go.toNat })) ∧
  (∀ (s s' : State) (x : LForm) (th : Nat) (a : Access) (c : Clause) (ls : List Loc), (Instr.aLd x).wf = true → AccessAt s th a c →
    let q := x.d.toNat - 464
    let at_ := a.a.getD x.a.toNat 0
    let tagOf (l : Loc) : Nat × Nat := match l.leaf with | some lf => (lf.fmt, lf.geo) | none => (0, 0)
    let tag := tagOf (ls.headD { pa := 0, path := 0, space := 0, leaf := none })
    at_ % 4 = 0 → RowFree s th q at_ → resolveRun s th .read at_ 128 = (.ok ls, s') → (∀ l ∈ ls, tagOf l = tag) →
    ∃ t, exec (.aLd x) s = .next t ∧ AccessBecomes s t th (pastFld a c a.a) ∧ Marked s t ∧
      Joins s t th [7] [] (.feed q (ls.map (fun l => l.pa))
        { fmt := tag.1, geo := tag.2, slot := match (ls.head?).bind (fun l => l.leaf) with | some lf => lf.slot | none => 0 } []
        (match fmtOf tag.1 with | some f => rowScales ls f.w tag.2 | none => []))) ∧
  (∀ (s s' : State) (x : LForm) (th : Nat) (a : Access) (c : Clause) (ts : List (Nat × Nat × Nat)) (r left cur : Nat),
    (Instr.aWalk x).wf = true → AccessAt s th a c →
    let q := x.d.toNat - 464
    let qs := (List.range (if bitOf x.md.toNat 3 then 3 else 2)).map (· + q)
    let ax := x.a.toNat
    let g (n : Nat) : Nat := a.a.getD (ax + n) 0
    let regs := (a.a.set (ax + 2) r).set (ax + 3) left
    g 0 % 4 = 0 → g 1 % 4 = 0 → (ts ≠ [] → (∀ q ∈ qs, feedRows s th q < 16) ∧ counter s th 7 + qs.length ≤ 255) →
    (if bitOf x.md.toNat 4 then cooGo th (g 0) (g 1) 32 s (g 2) (g 3)
      else csrGo th (g 0) (g 1) (g 3 + 33) s 32 (g 2) (g 3) a.cursor) = (.got ts r left cur, s') →
    ∃ t, exec (.aWalk x) s = .next t ∧
      AccessBecomes s t th (if left = 0 then { pastFld a c regs with cursor := 0 } else { a with a := regs, cursor := cur }) ∧
      (ts = [] → t.fl = s.fl) ∧
      (ts ≠ [] → t.fl.length = s.fl.length + qs.length ∧ ∀ e ∈ qs.zip [padRow (ts.map (fun e => e.1)), padRow (ts.map (fun e => e.2.1)),
          padRow (ts.map (fun e => e.2.2))], ∃ f ∈ t.fl, s.run.nextId ≤ f.id ∧ f.th = th ∧ f.paths = [7] ∧ f.done = false ∧
        f.work = .feed e.1 [] {} e.2 [])) ∧
  (∀ (s : State) (x : LForm) (th : Nat) (a : Access) (c : Clause), AccessAt s th a c →
    ((Instr.aSync x).wf = true → feedRows s th (x.d.toNat - 464) ≤ x.a.toNat →
      ∃ t, exec (.aSync x) s = .next t ∧ AccessBecomes s t th (pastFld a c a.a)) ∧
    ((Instr.aSync x).wf = true → x.a.toNat < feedRows s th (x.d.toNat - 464) → exec (.aSync x) s = .next s) ∧
    ((Instr.aEnd x).wf = true → ∃ t, exec (.aEnd x) s = .next t ∧ AccessBecomes s t th { a with ended := true, clause := none })) ∧
  ∀ (s : State) (n q : Nat) (pas : List Nat) (tag : RowTag) (words : List Word) (sc : List (Option Nat)) (f : Flight),
    s.flight? n = some f → f.work = .feed q pas tag words sc → f.done = false → (kget? s.ths f.th).isSome = true →
    q < (s.th f.th).fqs.length →
    (∀ g ∈ s.fl, g.th = f.th → g.id < n → g.done = false → ∀ a b c d e, g.work ≠ .feed a b c d e) →
    ∃ t row, exec (.feedRowLand n) s = .next t ∧ Finished t n ∧ t.mem = s.mem ∧ SameOthers f.th s t ∧
      (t.th f.th).fqs = (s.th f.th).fqs.set q ((s.th f.th).fqs.getD q [] ++ [row]) ∧ (t.th f.th).rg = (s.th f.th).rg ∧
      row.tag.fmt = tag.fmt ∧ row.tag.geo = tag.geo ∧ row.tag.slot = tag.slot ∧ (pas = [] → row.words = words) ∧
      (pas.length = 128 → row.words.length = 32 ∧ ∀ l, l < 32 →
        (row.words.getD l 0).toNat = flightNat s f false ((pas.drop (4 * l)).take 4) % 2 ^ 32) ∧
      row.tag.scales = sc.map (fun o => o.elim 0 (fun pa => flightNat s f false [pa]))

/-! ### Upkeep and switching -/

/-- R14, R323, R352, R353, R404, R405: caches drop lines, power and margins are watched, and an error ends the contexts that it hits. The model's
readings: an undervoltage event is reported with class 0, and with context 255 where none is resident (log 14, DEDUCED). -/
def Obligations.PowerAndErrors : Prop :=
  (∀ (s : State) (core line : Nat), ∃ t, exec (.l1LineDrop core line) s = .next t ∧ t = { s with ch := { s.ch with l1 := t.ch.l1 } } ∧
    ∀ x, x ∈ t.ch.l1 ↔ x ∈ s.ch.l1 ∧ ¬(x.core = core ∧ x.line = line)) ∧
  (∀ (s : State) (w : Nat), ∃ t, exec (.powerWindow w) s = .next t ∧ t = { s with up := { s.up with withhold := t.up.withhold } } ∧
    (t.up.withhold ≠ 0 ↔ 3000 < w)) ∧
  (∀ s : State, exec .scrubPass s = .next (countersChange { s with up := { s.up with scrubs := s.up.scrubs + 1 } } 1)) ∧
  (∀ s : State, TablesOrdered s → ∃ t, exec .undervoltage s = .next t ∧
    (∀ c, resident s c = true → Ends s t c ∧ Reports t c 0 0) ∧
    ((∀ c, resident s c = false) → t = { s with log := t.log } ∧ Reports t 255 0 0)) ∧
  (∀ (m : KMap Nat) (p : Nat × Nat) (n : Nat), kgetD (countError m p) n 0 = kgetD m n 0 + if n = 16 * p.1 + p.2 then 1 else 0) ∧
  (∀ (s : State) (loc : ErrLoc), errOwner s loc = none → ∃ t, exec (.uncorrectableError loc) s = .next t ∧
    t.up.uncorr = countError s.up.uncorr (errArray s loc) ∧ t.ctxs = s.ctxs ∧ t.ths = s.ths ∧ t.log = s.log ∧
    (∀ pa, loc = .dram pa → ReadsZero t (pa / 128 * 128) 128) ∧
    (∀ pa c, loc = .l2 pa c → ReadsZero t (pa / 128 * 128) 128) ∧
    (∀ core line, loc = .l1 core line → ∀ x ∈ t.ch.l1, x.core = core → x.line = line → x.data = List.replicate 128 0) ∧
    (∀ core b, loc = .scratch core b → ReadsZero t (scratchFlat core b) 32768) ∧
    (∀ b, loc = .common b → ReadsZero t (commonFlat b) 262144)) ∧
  (∀ (s : State) (loc : ErrLoc) (c : Nat), TablesOrdered s → errOwner s loc = some c → resident s c = true →
    ∃ t, exec (.uncorrectableError loc) s = .next t ∧ t.up.uncorr = countError s.up.uncorr (errArray s loc) ∧ Ends s t c ∧
      Reports t c 14 (match loc with | .dram pa | .l2 pa _ => pa | .l1 _ line => 128 * line | _ => 0) ∧ (∀ pa, loc = .dram pa → pa / 65536 ∈ t.up.retired)) ∧
  (∀ (s : State) (pa : Nat), errOwner s (.dram pa) = if resident s (pageOwnerOf s pa) then some (pageOwnerOf s pa) else none) ∧
  (∀ (s : State) (slack : List (Nat × Nat)), ∃ t, exec (.marginPlan slack) s = .next t ∧ t.mem = s.mem ∧ t.ths = s.ths ∧ t.ctxs = s.ctxs ∧
    (∀ d, d < Config.dies → kgetD t.up.rails d 0 < 25) ∧
    ∀ q v, (q, v) ∈ slack → (∀ e ∈ slack, e.1 = q → e.2 = v) → q < 4 * Config.cores →
      (t.quad q).slack = v ∧ (t.quad q).degraded = ((s.quad q).degraded || decide (v < 15)) ∧
      (v < 15 → (s.quad q).degraded = false → ∀ e ∈ s.ctxs, q ∈ e.2.quads → ∀ n, (s.queue n).ctx = some e.1 →
        (t.queue n).events &&& 2 ^ 19 = 2 ^ 19)) ∧
  ∀ (s : State) (q : Nat),
    ((s.quad q).slack ≠ 0 ∨ (s.quad q).withdrawn = true → exec (.quadrantSlackZero q) s = .next s) ∧
    (TablesOrdered s → (s.quad q).slack = 0 → (s.quad q).withdrawn = false → ∃ t, exec (.quadrantSlackZero q) s = .next t ∧
      (t.quad q).withdrawn = true ∧ ∀ c x, kget? s.ctxs c = some x → x.ended = false → q ∈ x.quads → Ends s t c ∧ Reports t c 14 0)

/-- R360 to R364, R367: a workgroup halts at clause boundaries, is saved once it has drained, and returns to its core; the halves of a shared
quadrant swap. The model's readings: the record of a save is written at one instant, and the banks that it frees read zero right after it (log 14,
DEDUCED). -/
def Obligations.SwitchingOutAndBack : Prop :=
  (∀ (s : State) (w : Nat) (g : Workgroup), kget? s.wgs w = some g → g.saved = false →
    ∃ t, exec (.workgroupHalt w) s = .next t ∧ SameRegs s t ∧ ∀ v ∈ switchSet s w,
      (t.wg v).haltAt = some ((s.wg v).haltAt.getD s.now) ∧
      ∀ n ∈ wgThreads s v, ((t.th n).ps.halted = true ↔ (s.th n).ps.halted = true ∨ haltsNow (s.th n) = true)) ∧
  (∀ (s : State) (w : Nat) (g : Workgroup) (at_ : Nat), kget? s.wgs w = some g → g.haltAt = some at_ →
    (s.now < at_ + haltTicks (s.ctx g.ctx) → exec (.haltTimeout w) s = .next s) ∧
    (at_ + haltTicks (s.ctx g.ctx) ≤ s.now → ∃ t, exec (.haltTimeout w) s = .next t ∧ SameRegs s t ∧ ∀ n ∈ wgThreads s w,
      (s.th n).ps.halted = false → (t.th n).ps.forced = true ∧
      ((s.th n).ps.issuing = none → atBoundary (s.th n) = true → (t.th n).ps.halted = true))) ∧
  (∀ (s s' : State) (w at_ : Nat) (g : Workgroup), TablesOrdered s → kget? s.wgs w = some g → g.saved = false → g.haltAt.isSome = true →
    g.partner = none → (s.ctx g.ctx).saveArea = true → (s.ctx g.ctx).ended = false → (s.ctx g.ctx).root < 2 ^ 52 →
    (s.ctx g.ctx).root % 8192 = 0 → drained s w = true →
    lockRoom s g.core = true → g.core < Config.cores → (∀ b ∈ g.banks, b < 32) →
    let len := recordLen s w
    let s1 := { s with run := { s.run with fresh := s.run.fresh + 1 } }
    recordPlace s g.ctx g.core len = some at_ →
    devBlock s1 g.ctx (len / 4096 + 1) ((saveArea (s.ctx g.ctx) g.core).1 + at_) (wgBytes s1 w) = some s' →
    ∃ t h, exec (.workgroupSave w) s = .next t ∧ kget? t.wgs w = some h ∧ h.saved = true ∧ h.haltAt = none ∧ h.threads = [] ∧
      h.saveAt = at_ ∧ h.saveLen = len ∧ h.image.map (fun u => u.rg.cells) = (wgThreads s w).map (fun n => (s.th n).rg.cells) ∧
      (∀ n ∈ wgThreads s w, kget? t.ths n = none) ∧ (∀ b ∈ g.banks, ReadsZero t (scratchFlat g.core b) 32768)) ∧
  (∀ (s : State) (w : Nat) (g : Workgroup), kget? s.wgs w = some g → g.saved = false → g.haltAt.isSome = true → g.partner = none →
    (s.ctx g.ctx).saveArea = true → resident s g.ctx = true → drained s w = true → TablesOrdered s →
    lockRoom s g.core = true → g.core < Config.cores → recordPlace s g.ctx g.core (recordLen s w) = none →
    ∃ t, exec (.workgroupSave w) s = .next t ∧ Ends s t g.ctx ∧ Reports t g.ctx 4 0 ∧
      ((t.ctx g.ctx).lost.length = 2 → (t.ctx g.ctx).lost.getD (dieOf g.core) false = true)) ∧
  (∀ (s : State) (w : Nat) (g : Workgroup) (bs qs : List Nat) (off : Nat), kget? s.wgs w = some g → g.saved = true →
    (s.ctx g.ctx).ended = false → g.partner = none → g.threads = [] → restoreAllot s g = some (bs, qs, off) →
    (∀ u ∈ g.image, u.pl.core = g.core ∧ u.pl.half = g.half ∧ u.pl.quad < 4 ∧ u.ct.due = none) →
    ∃ t h, exec (.workgroupRestore w) s = .next t ∧ kget? t.wgs w = some h ∧ h.saved = false ∧ h.image = [] ∧ h.banks = bs ∧
      h.tabQuads = qs ∧ h.tabOff = off ∧ h.threads.length = g.image.length ∧
      ∀ (i n : Nat) (u : Strand), h.threads[i]? = some n → g.image[i]? = some u → kget? s.ths n = none ∧ (t.th n).rg.cells = u.rg.cells ∧
        (t.th n).pl.idx = u.pl.idx ∧ (t.th n).pl.core = g.core ∧ (t.th n).pl.quad = u.pl.quad ∧ (t.th n).ps.halted = false) ∧
  (∀ (s : State) (w : Nat) (g : Workgroup), kget? s.wgs w = some g → g.saved = true → restoreAllot s g = none →
    exec (.workgroupRestore w) s = .next s) ∧
  (∀ (s : State) (q : Nat), (s.quad q).swapTill = none → (halfOwner s q 0).isSome = true → (halfOwner s q 1).isSome = true →
    (s.quad q).spilling = none → (s.quad q).holder = none → (∀ n ∈ halfStrands s q (s.quad q).active, (s.th n).ps.halted = true) →
    halfAway s q (1 - (s.quad q).active) = false →
    ∃ t, exec (.shadowSwap q) s = .next t ∧ (t.quad q).swapTill = some (s.now + 256) ∧ (t.quad q).active = (s.quad q).active ∧
      t.ths = s.ths ∧ t.mem = s.mem) ∧
  (∀ (s : State) (q till : Nat), (s.quad q).swapTill = some till →
    (s.now < till → exec (.shadowSwap q) s = .next s) ∧
    (till ≤ s.now → halfAway s q (1 - (s.quad q).active) = false → ∃ t, exec (.shadowSwap q) s = .next t ∧ (t.quad q).active = 1 - (s.quad q).active ∧ (t.quad q).swapTill = none ∧
      (t.quad q).spilling = some (s.quad q).active ∧ SameRegs s t ∧ t.mem = s.mem ∧
      ∀ n ∈ halfStrands s q (1 - (s.quad q).active), (t.th n).ps.halted = false)) ∧
  (∀ (s : State) (q : Nat), halfAway s q (1 - (s.quad q).active) = true → exec (.shadowSwap q) s = .next s) ∧
  ∀ (s : State) (q h : Nat), (s.quad q).spilling = some h →
    (∀ n ∈ halfStrands s q h, (s.ctx (s.wg (s.th n).pl.wg).ctx).saveArea = false) →
    ∃ t, exec (.shadowSpillEnd q) s = .next t ∧ t = { s with quads := t.quads } ∧ (t.quad q).spilling = none ∧
      ∀ p, p ≠ q → t.quad p = s.quad p

/-- R368 to R373: a deadline decides for each affected queue, cuts off what is still resident, and is answered once all has left. The model's
readings: which choice a queue under two deadlines takes, the bytes left to save that a decision counts, and the place of an entry in RESYNC (log
13 and log 14, DEDUCED). -/
def Obligations.DeadlinesAreMet : Prop :=
  (∀ (s : State) (n q w : Nat) (d : Deadline) (ws : List Nat), kget? s.dls n = some d →
    (∀ a, d.lastAt = some a → a + 24000 ≤ s.now) → q < Config.queueThreads → ofQueue s (affectedWgs s d) q = w :: ws →
    (∀ p, p < Config.queueThreads → p ≠ q → ofQueue s (affectedWgs s d) p = []) →
    let all := w :: ws
    let mine := ofQueue s (decidedWgs s n d) q
    let ctx := (s.wg w).ctx
    let c := s.ctx ctx
    let fits (e : Nat) : Prop := s.now + 96000 + e ≤ d.till
    let dq := (List.range Config.dies).map (fun i => dirtyBytes s i all)
    let ck := eCkpt (haltTicks c) dq (admitted d)
    let runs := ∃ e, eRun s all = some e ∧ fits e ∧ (c.saveArea = true → fits (ck + 24000))
    let chosen (t : State) : Nat := (kgetD (kgetD t.dls n {}).choices q {}).choice
    ∃ t, exec (.deadlineDecision n) s = .next t ∧ (kgetD t.dls n {}).lastAt = some s.now ∧
      (mine = [] → ∀ e, earlierChoice s n d q = some e → chosen t = e.choice) ∧
      (mine ≠ [] → 2 ≤ (kgetD d.choices q {}).choice → chosen t = (kgetD d.choices q {}).choice) ∧
      (mine ≠ [] → (kgetD d.choices q {}).choice < 2 →
        (runs → chosen t = 1) ∧
        (¬runs → c.saveArea = true → fits ck → chosen t = 2 ∧ ∀ v ∈ mine, (kget? s.wgs v).isSome = true → (t.wg v).haltAt.isSome = true) ∧
        (¬runs → ¬(c.saveArea = true ∧ fits ck) → (∀ v ∈ all, (s.launch (s.wg v).launch).rst = true) → chosen t = 3 ∧
          ∀ v ∈ mine, (kget? s.launches (s.wg v).launch).isSome = true → (t.launch (s.wg v).launch).outcome.isSome = true) ∧
        (¬runs → ¬(c.saveArea = true ∧ fits ck) → (∃ v ∈ all, (s.launch (s.wg v).launch).rst = false) → resident s ctx = true →
          TablesOrdered s → chosen t = 4 ∧ Ends s t ctx ∧ Reports t ctx 0 0))) ∧
  (∀ (s : State) (n : Nat) (d : Deadline), TablesOrdered s → kget? s.dls n = some d →
    (s.now + 96000 < d.till → exec (.deadlineCutoff n) s = .next s) ∧
    (d.till ≤ s.now + 96000 →
      (∀ w ∈ affectedWgs s d, ∃ l, kget? s.launches (s.wg w).launch = some l ∧ l.ctx = (s.wg w).ctx ∧ s.hasCtx l.ctx = true) →
      ∃ t, exec (.deadlineCutoff n) s = .next t ∧ ∀ w ∈ affectedWgs s d,
        (t.launch (s.wg w).launch).outcome.isSome = true ∨ (t.ctx (s.wg w).ctx).ended = true)) ∧
  ∀ (s : State) (n : Nat) (d : Deadline), TablesOrdered s → MemOk s → kget? s.dls n = some d → d.lastAt.isSome = true →
    (affectedWgs s d ≠ [] → exec (.deadlineReply n) s = .next s) ∧
    (affectedWgs s d = [] → (∀ e ∈ s.launches, ∀ q, e.2.queue = some q → (kget? d.choices q).isSome = true →
        launchOutcome s e.1 = none ∧ e.2.outcome = none) → kordered d.choices = true → d.chan < 4 →
      let as := rangeFrom d.reply (d.reply + (replyBytes d s.now).length)
      (copiesOf s as ≠ [] → ∃ t, exec (.deadlineReply n) s = .next t ∧ t.dls = s.dls ∧ t.mem = s.mem ∧ Snoops s t as) ∧
      (copiesOf s as = [] → ∃ t, exec (.deadlineReply n) s = .next t ∧ kget? t.dls n = none ∧ Stands t d.reply (replyBytes d s.now) ∧
        SameMemBut (fun a => d.reply ≤ a ∧ a < d.reply + (replyBytes d s.now).length) s t ∧
        (∀ e ∈ d.choices, ∀ q, (s.queue q).ctx = some e.2.ctx → (t.queue q).events &&& 2 ^ 18 = 2 ^ 18) ∧
        (d.kind = 1 → ∀ c ∈ d.ctxs, ∀ q, (s.queue q).ctx = some c → (t.queue q).events &&& 2 ^ 18 = 2 ^ 18)))

/-! ### Management -/

/-- R391 to R397: requests of another form or issuer are refused, the device has one owner at a time, and a summary is a snapshot. The model's
readings: the layouts of payloads and bodies, the body of a claim of a kind that is not enabled, and the time at which a request arrives (log 13,
DESIGN CHOICE). -/
def Obligations.OwnershipAndService : Prop :=
  (∀ p ∈ ([(.claim, 0x01, 8), (.renew, 0x02, 0), (.handover, 0x03, 16), (.resync, 0x04, 8), (.ctxCreate, 0x10, 1032),
      (.ctxDestroy, 0x11, 8), (.ctxFlags, 0x12, 16), (.pageOwner, 0x13, 24), (.keyLoad, 0x14, 40), (.deadline, 0x18, 128),
      (.reopen, 0x19, 64), (.queueStart, 0x20, 32), (.queueStop, 0x21, 8), (.queueResume, 0x22, 8), (.faultlogSet, 0x28, 24),
      (.faultReply, 0x29, 16), (.codeLoad, 0x30, 24), (.codeReplace, 0x31, 24), (.codeUnload, 0x32, 8), (.fwStage, 0x38, 8),
      (.cfgStage, 0x39, 8), (.margin, 0x3A, 0)] : List (Instr × Nat × Nat)),
    (∀ (s : State) (r : Request), Turn s r →
      (r.op = p.2.1 → r.good = false ∨ r.payload.length ≠ p.2.2 → ∃ t, exec p.1 s = .next t ∧ Refused s t r 2) ∧
      (r.op ≠ p.2.1 → r.op ∈ opcodes → exec p.1 s = .next s) ∧
      (r.op ∉ opcodes → s.mg.reqs = [r] → ∃ t, exec p.1 s = .next t ∧ Refused s t r 2)) ∧
    ∀ (s : State) (r : Request), TurnAfter s r → r.op = p.2.1 → r.op ≠ 0x14 → r.good = true → r.payload.length = p.2.2 → r.owner = true →
      r.chan < 4 → busy s r = true → ∃ t, exec p.1 s = .next t ∧ Refused s t r 5) ∧
  (∀ p ∈ ([(.renew, 0x02, 0), (.handover, 0x03, 16), (.ctxCreate, 0x10, 1032), (.ctxDestroy, 0x11, 8), (.ctxFlags, 0x12, 16),
      (.pageOwner, 0x13, 24), (.reopen, 0x19, 64), (.faultlogSet, 0x28, 24), (.fwStage, 0x38, 8), (.cfgStage, 0x39, 8)] :
      List (Instr × Nat × Nat)), ∀ (s : State) (r : Request), Served s r p.2.1 p.2.2 → r.owner = false ∨ 4 ≤ r.chan →
    ∃ t, exec p.1 s = .next t ∧ Refused s t r 1) ∧
  (∀ (s : State) (r : Request), Served s r 0x01 8 → r.chan < 4 →
    let valid := r.chan ∈ s.up.masters
    let owned := r.held = true ∨ ownerNow s ≠ none
    let takes := ∃ t, exec .claim s = .next t ∧ Replied s t r 0 (leBytes 8 1000000) ∧ OnlyMgmt s t ∧ t.mg.owner = some r.chan ∧
      t.mg.identity = r.fld 0 8 ∧ t.mg.leaseEnd = s.now + 2400000000 ∧ t.mg.handover = none
    let fails (b : List Byte) : Prop := ∃ t, exec .claim s = .next t ∧ Replied s t r 1 b ∧
      OnlyMgmt s t ∧ t.mg.owner = s.mg.owner ∧ t.mg.leaseEnd = s.mg.leaseEnd ∧ t.mg.handover = s.mg.handover
    let told := (owned → fails (leBytes 8 (s.mg.owner.getD 0) ++ leBytes 8 s.mg.identity)) ∧ (¬owned → fails [])
    ((∀ c n e, s.mg.handover = some (c, n, e) → e ≤ r.at_) → (valid ∧ ¬owned → takes) ∧ (¬(valid ∧ ¬owned) → told)) ∧
    ∀ c n e, s.mg.handover = some (c, n, e) → r.at_ < e →
      (valid ∧ r.chan = c ∧ r.fld 0 8 = n → takes) ∧ (¬(valid ∧ r.chan = c ∧ r.fld 0 8 = n) → told)) ∧
  (∀ (s : State) (r : Request), Served s r 0x02 0 → r.owner = true → r.chan < 4 →
    ∃ t, exec .renew s = .next t ∧ Replied s t r 0 [] ∧ OnlyMgmt s t ∧ t.mg.owner = s.mg.owner) ∧
  (∀ (s : State) (r : Request), Served s r 0x03 16 → r.owner = true → r.chan < 4 →
    (1 ≤ r.fld 0 8 → r.fld 0 8 ≤ 3 → ∃ t, exec .handover s = .next t ∧ Replied s t r 0 [] ∧ OnlyMgmt s t ∧ t.mg.owner = s.mg.owner ∧
      t.mg.handover = some (r.fld 0 8, r.fld 8 8, s.now + 2400000000)) ∧
    (r.fld 0 8 = 0 ∨ 3 < r.fld 0 8 → ∃ t, exec .handover s = .next t ∧ Refused s t r 2)) ∧
  (∀ s : State,
    let late (h : Nat × Nat × Nat) : Prop := ∃ r ∈ s.mg.reqs, r.op = 0x01 ∧ r.at_ < h.2.2
    (s.mg.owner.isSome = true → s.mg.leaseEnd ≤ s.now →
      ∃ t, exec .leaseExpiry s = .next t ∧ OnlyMgmt s t ∧ t.mg.owner = none ∧
        ∀ h, s.mg.handover = some h → (late h → t.mg.handover = some h) ∧ (¬late h → t.mg.handover = none)) ∧
    (s.mg.owner = none ∨ s.now < s.mg.leaseEnd → exec .leaseExpiry s = .next s)) ∧
  (∀ (s : State) (c n e : Nat), s.mg.handover = some (c, n, e) →
    let late : Prop := ∃ r ∈ s.mg.reqs, r.op = 0x01 ∧ r.at_ < e
    (e ≤ s.now → ¬late → ∃ t, exec .handoverLapse s = .next t ∧ OnlyMgmt s t ∧ t.mg.handover = none ∧ t.mg.owner = s.mg.owner) ∧
    (s.now < e ∨ late → exec .handoverLapse s = .next s)) ∧
  (∀ (s : State) (r : Request), MemOk s → Served s r 0x04 8 → r.chan < 4 →
    (chanFlats s r.chan .write (r.fld 0 8) (summary s none).length = none → ∃ t, exec .resync s = .next t ∧ Refused s t r 3) ∧
    let as := rangeFrom (r.fld 0 8) (r.fld 0 8 + (summary s none).length)
    ((∀ j, j < (summary s none).length → populated s (r.fld 0 8 + j) = true ∧ r.fld 0 8 + j < 2 ^ 52) →
      (copiesOf s as ≠ [] → ∃ t, exec .resync s = .next t ∧ t.mem = s.mem ∧ t.mg = s.mg ∧ Snoops s t as) ∧
      (copiesOf s as = [] → ∃ t, exec .resync s = .next t ∧ Replied s t r 0 [] ∧ Stands t (r.fld 0 8) (summary s none) ∧
        SameMemBut (fun a => r.fld 0 8 ≤ a ∧ a < r.fld 0 8 + (summary s none).length) s t))) ∧
  (∀ (s : State) (vf : Option Nat), ((summary s vf).drop 16).take 8 = leBytes 4 0x5A525359 ++ leBytes 4 (summary s vf).length ∧
    ((summary s vf).drop 24).take 4 = leBytes 4 s.mg.seqNo) ∧
  ∀ (s : State) (r : Request), Served s r 0x3A 0 → r.chan < 4 →
    ∃ t, exec .margin s = .next t ∧ Replied s t r 0 (marginSection s) ∧ OnlyMgmt s t

/-- R335, R356 to R358, R296, R368, R371: contexts, page owners, keys, deadlines and reopening, as the owner asks for them. The model's readings:
status 2 for a descriptor outside its limits and 3 for other refusals, the layouts of payloads, and mailbox status 2 for a deadline that is
rejected (log 13, DESIGN CHOICE). -/
def Obligations.ContextRequests : Prop :=
  (∀ (s : State) (r : Request), (Served s r 0x10 1032 ∧ r.owner = true ∧ r.chan < 4) ∨
      s.mg.reqs.find? (fun x => x.started && x.op == 0x10 && createReady s x) = some r →
    (descriptor (r.payload.take 1024) = none → ∃ t, exec .ctxCreate s = .next t ∧ Refused s t r 2) ∧
    ∀ n np ne c, descriptor (r.payload.take 1024) = some (n, np, ne, c) →
      let waits : Prop := ∃ q ∈ c.quads, ∃ h, (s.quad q).spilling = some h ∧ (c.mode = 0 ∨ h = halfOf c)
      (32 < r.fld 1024 8 → ∃ t, exec .ctxCreate s = .next t ∧ Refused s t r 2) ∧
      (r.fld 1024 8 ≤ 32 → ¬waits → mayCreate s n np ne (r.fld 1024 8) c = false → ∃ t, exec .ctxCreate s = .next t ∧ Refused s t r 3) ∧
      (r.fld 1024 8 ≤ 32 → waits → ∃ t, exec .ctxCreate s = .next t ∧ OnlyMgmt s t ∧ { r with started := true } ∈ t.mg.reqs) ∧
      (r.fld 1024 8 ≤ 32 → mayCreate s n np ne (r.fld 1024 8) c = true → ¬waits →
        ∃ t x, exec .ctxCreate s = .next t ∧ Replied s t r 0 [] ∧ kget? t.ctxs n = some x ∧
          x = { c with plain := x.plain, exact := x.exact, fn := r.fld 1024 8 } ∧ x.plain.length = np ∧ x.exact.length = ne ∧
          (∀ b, b ∈ x.plain ∨ b ∈ x.exact → ∀ e ∈ s.ctxs, b ∉ e.2.plain ∧ b ∉ e.2.exact) ∧
          (∀ b, b ∈ x.plain ∨ b ∈ x.exact → ReadsZero t (commonFlat b) 262144) ∧
          (∀ e ∈ c.banks, ∀ b ∈ e.2, ReadsZero t (scratchFlat e.1 b) 32768) ∧
          (r.fld 1024 8 ≠ 0 → (kgetD t.io.funcs (r.fld 1024 8) {}).ctx = some n) ∧ ∀ m, m ≠ n → kget? t.ctxs m = kget? s.ctxs m)) ∧
  (∀ (s : State) (n np ne fn : Nat) (c : Context), s.hasCtx n = true ∨ storageFree s c = false ∨ handlerOk s n c.handler = false ∨
      pageOwnerOf s c.root ≠ n ∨ (fn ≠ 0 ∧ fn ∉ s.up.vfs) → mayCreate s n np ne fn c = false) ∧
  (∀ (s : State) (r : Request), Served s r 0x11 8 → r.owner = true → r.chan < 4 →
    let n := r.fld 0 8
    (63 < n → ∃ t, exec .ctxDestroy s = .next t ∧ Refused s t r 2) ∧
    (n ≤ 63 → s.hasCtx n = false → ∃ t, exec .ctxDestroy s = .next t ∧ Refused s t r 3) ∧
    (n ≤ 63 → resident s n = true → TablesOrdered s →
      ((∀ e ∈ s.ths, e.2.pl.ctx ≠ n) → (∀ e ∈ s.wgs, e.2.ctx ≠ n) → (∀ f ∈ s.fl, f.ctx = n → f.done = true) →
        ∃ t, exec .ctxDestroy s = .next t ∧ Replied s t r 0 [] ∧ t.hasCtx n = false ∧ (∀ e ∈ t.queues, e.2.ctx ≠ some n) ∧
          (∀ e ∈ t.codes, e.2.ctx ≠ n) ∧ (∀ e ∈ t.launches, e.2.ctx ≠ n) ∧
          (∀ e ∈ (s.ctx n).banks, ∀ b ∈ e.2, ReadsZero t (scratchFlat e.1 b) 32768) ∧
          ∀ b, b ∈ (s.ctx n).plain ∨ b ∈ (s.ctx n).exact → ReadsZero t (commonFlat b) 262144) ∧
      ((∃ m u, kget? s.ths m = some u ∧ u.pl.kind = .strand ∧ u.pl.ctx = n ∧ m % 16384 < 8192) →
        ∃ t, exec .ctxDestroy s = .next t ∧ Ends s t n ∧ (t.ctx n).dying = true ∧
          ∃ x ∈ t.mg.reqs, x.chan = r.chan ∧ x.slot = r.slot ∧ x.started = true))) ∧
  (∀ (s : State) (r : Request), Served s r 0x12 16 → r.owner = true → r.chan < 4 →
    let n := r.fld 0 8
    (63 < n ∨ 1 < r.fld 8 8 → ∃ t, exec .ctxFlags s = .next t ∧ Refused s t r 2) ∧
    (n ≤ 63 → r.fld 8 8 ≤ 1 → resident s n = false ∨ (∃ e ∈ s.wgs, e.2.ctx = n ∧ e.2.saved = false) →
      ∃ t, exec .ctxFlags s = .next t ∧ Refused s t r 3) ∧
    (n ≤ 63 → r.fld 8 8 ≤ 1 → resident s n = true → (∀ e ∈ s.wgs, e.2.ctx = n → e.2.saved = true) →
      ∃ t, exec .ctxFlags s = .next t ∧ Replied s t r 0 [] ∧ t.ctx n = { s.ctx n with strengthen := decide (r.fld 8 8 = 1) } ∧
        ∀ m, m ≠ n → kget? t.ctxs m = kget? s.ctxs m)) ∧
  (∀ (s : State) (r : Request), TablesOrdered s → Served s r 0x13 24 → r.owner = true → r.chan < 4 →
    let lo := r.fld 0 8
    let n := r.fld 8 8
    let c := r.fld 16 8
    ((63 < c ∧ c ≠ 255) ∨ 2 ^ 36 < lo + n ∨ (∃ p, lo ≤ p ∧ p < lo + n ∧ ownedPage p = false) →
      ∃ t, exec .pageOwner s = .next t ∧ Refused s t r 2) ∧
    (c ≤ 63 ∨ c = 255 → lo + n ≤ 2 ^ 36 → (∀ p, lo ≤ p → p < lo + n → ownedPage p = true) →
      ∃ t, exec .pageOwner s = .next t ∧ Replied s t r 0 [] ∧
        ∀ pa, pageOwnerOf t pa = if lo ≤ pa / 65536 ∧ pa / 65536 < lo + n then c else pageOwnerOf s pa)) ∧
  (∀ (s : State) (r : Request) (c : Nat), Served s r 0x14 40 → 4 ≤ r.chan → r.vf s = some c →
    let slot := r.fld 0 8
    let fit := (s.ctx c).conf = true ∧ r.ide = true ∧ (kgetD s.io.funcs (r.chan - 4) {}).run = true
    (15 < slot → ∃ t, exec .keyLoad s = .next t ∧ Refused s t r 2) ∧
    (slot ≤ 15 → ¬fit → ∃ t, exec .keyLoad s = .next t ∧ Refused s t r 3) ∧
    (slot ≤ 15 → fit → ∃ t, exec .keyLoad s = .next t ∧ Replied s t r 0 [] ∧
      (∃ k, kget? (t.ctx c).keys slot = some k ∧ k.key = (r.payload.drop 8).take 32 ∧ k.lastEnc = 0 ∧ k.lastDec = 0) ∧
      ∀ m, m ≠ c → kget? t.ctxs m = kget? s.ctxs m)) ∧
  (∀ (s : State) (r : Request), MemOk s → Served s r 0x18 128 → r.owner = true → r.chan < 4 →
    let a := r.fld 24 8
    (chanFlats s r.chan .write a 16 = none → ∃ t, exec .deadline s = .next t ∧ Refused s t r 3) ∧
    let as := rangeFrom a (a + 16)
    ((∀ j, j < 16 → populated s (a + j) = true ∧ a + j < 2 ^ 52) → deadlineStatus r ≠ 0 → copiesOf s as ≠ [] →
      ∃ t, exec .deadline s = .next t ∧ t.mem = s.mem ∧ t.mg = s.mg ∧ t.dls = s.dls ∧ Snoops s t as) ∧
    ((∀ j, j < 16 → populated s (a + j) = true ∧ a + j < 2 ^ 52) → copiesOf s as = [] → ∀ st, deadlineStatus r = st → st ≠ 0 →
      ∃ t, exec .deadline s = .next t ∧ Replied s t r 2 [] ∧ Stands t a (BitVec.ofNat 8 st :: List.replicate 15 0) ∧
        t.dls = s.dls ∧ t.quads = s.quads) ∧
    (r.fld 8 8 < 200000 → deadlineStatus r ≠ 0) ∧
    ((∀ j, j < 16 → populated s (a + j) = true ∧ a + j < 2 ^ 52) → deadlineStatus r = 0 →
      ∃ t d, exec .deadline s = .next t ∧ Replied s t r 0 [] ∧ t.mem = s.mem ∧ kget? t.dls s.run.nextId = some d ∧
        d.kind = r.fld 0 1 ∧ d.t0 = s.now ∧ d.till = s.now + r.fld 8 8 * 12 / 5 ∧ d.reply = a ∧ d.chan = r.chan ∧
        (∀ e ∈ s.dls, e.2.place ≠ d.place) ∧
        (d.kind = 0 → ∀ q c, q < 512 → c < 64 → (r.fld 32 64).testBit q = true → c ∈ (t.quad q).closed) ∧
        (d.kind = 1 → ∀ c q, c < 64 → (r.fld 16 8).testBit c = true → q ∈ (s.ctx c).quads → c ∈ (t.quad q).closed))) ∧
  ∀ (s : State) (r : Request), Served s r 0x19 64 → r.owner = true → r.chan < 4 →
    ∃ t, exec .reopen s = .next t ∧ Replied s t r 0 [] ∧
      ∀ q, t.quad q = if q < 512 ∧ (r.fld 0 64).testBit q = true then { s.quad q with closed := [] } else s.quad q

/-- R378, R379, R351: queues start, stop and resume; the fault log's ring is set, and its records are answered. The model's readings: FAULT_REPLY
with action 1 on a record of source 1 or 2 is refused with status 3, and the layouts of payloads (log 13, DESIGN CHOICE); the conditions of
QUEUE_START that the tables leave open (log 14, DEDUCED). -/
def Obligations.QueueAndLogRequests : Prop :=
  (∀ (s : State) (r : Request), Served s r 0x20 32 → r.owner = true → r.chan < 4 →
    let q := r.fld 0 1
    let c := r.fld 1 1
    let h := r.fld 4 4
    let bad := Config.queueThreads ≤ q ∨ 63 < c ∨ 7 < r.fld 2 1
    (bad → ∃ t, exec .queueStart s = .next t ∧ Refused s t r 2) ∧
    (¬bad → mayStart s q c h (r.fld 16 8) = false → ∃ t, exec .queueStart s = .next t ∧ Refused s t r 3) ∧
    (¬bad → mayStart s q c h (r.fld 16 8) = true →
      ∃ t u, exec .queueStart s = .next t ∧ Replied s t r 0 [] ∧ kget? t.ths (queueNo q) = some u ∧ SameOthers (queueNo q) s t ∧
        u.pl.kind = .queue ∧ u.pl.ctx = c ∧ u.pl.code = h ∧ u.live = 1 ∧
        u.ps.s0.grp = some { pc := (s.transOf h (kgetD s.codes h {}).cur).entry, mask := 1 } ∧ u.ps.s1.grp = none ∧
        u.ct.part = 0 ∧ u.ct.fp = 0 ∧ u.rg.final (sCell 0) = BitVec.ofNat 32 q ∧ u.rg.final (sCell 1) = BitVec.ofNat 32 c ∧
        u.rg.final (sCell 2) = BitVec.ofNat 32 (r.fld 8 8) ∧ u.rg.final (sCell 3) = BitVec.ofNat 32 (r.fld 8 8 / 2 ^ 32) ∧
        (t.queue q).state = 1 ∧ (t.queue q).prio = r.fld 2 1 ∧ (t.queue q).ctx = some c ∧ (t.queue q).status = r.fld 16 8 ∧
        (t.queue q).events = 0 ∧ (MemOk s → TouchedBut (fun _ => False) s t))) ∧
  (∀ (s : State) (q c h st : Nat), s.up.accepting = false ∨ dieOfCore (256 + q) ∈ s.up.held ∨ queueIdle s q = false ∨ resident s c = false ∨ st % 64 ≠ 0 →
    mayStart s q c h st = false) ∧
  (∀ (s : State) (r : Request), TablesOrdered s → Served s r 0x21 8 → r.owner = true → r.chan < 4 →
    let q := r.fld 0 8
    (Config.queueThreads ≤ q → ∃ t, exec .queueStop s = .next t ∧ Refused s t r 2) ∧
    (q < Config.queueThreads → queueIdle s q = true → ∃ t, exec .queueStop s = .next t ∧ Refused s t r 3) ∧
    (q < Config.queueThreads → queueIdle s q = false →
      (haltsHere (s.th (queueNo q)) = true → ∃ t, exec .queueStop s = .next t ∧ Replied s t r 0 [] ∧ (t.queue q).state = 0 ∧
        kget? t.ths (queueNo q) = none ∧ (MemOk s → TouchedBut (fun _ => False) s t)) ∧
      (haltsHere (s.th (queueNo q)) = false → ∃ t, exec .queueStop s = .next t ∧ Replied s t r 0 [] ∧ (t.queue q).stopReq = true ∧
        t.ths = s.ths))) ∧
  (∀ (s : State) (r : Request), Served s r 0x22 8 → r.owner = true → r.chan < 4 →
    let q := r.fld 0 8
    let u := s.th (queueNo q)
    (Config.queueThreads ≤ q → ∃ t, exec .queueResume s = .next t ∧ Refused s t r 2) ∧
    (q < Config.queueThreads → (s.queue q).state ≠ 3 → ∃ t, exec .queueResume s = .next t ∧ Refused s t r 3) ∧
    (q < Config.queueThreads → (s.queue q).state = 3 → u.pl.kind = .queue → u.ct.pending = none → (u.ct.fault.getD {}).source = 0 →
      (u.ct.fault.getD {}).cls ≠ .trap → (u.ct.fault.getD {}).cls ≠ .brk → u.ps.s0.grp.isSome = u.ps.s0.clause.isSome →
      u.ps.s1.grp.isSome = u.ps.s1.clause.isSome → u.ps.fork = [] →
      ∃ t, exec .queueResume s = .next t ∧ Replied s t r 0 [] ∧ (t.queue q).state = 1 ∧ (t.queue q).frec = none ∧
        (t.th (queueNo q)).ct.stopped = false ∧ (t.th (queueNo q)).ct.fault = none ∧ SameRegs s t ∧ SameOthers (queueNo q) s t)) ∧
  (∀ (s : State) (r : Request), Served s r 0x28 24 → r.owner = true → r.chan < 4 →
    let n := r.fld 8 8
    let ok := r.fld 0 8 % 64 = 0 ∧ 16 ≤ n ∧ n ≤ 65536 ∧ 2 ^ Nat.log2 n = n ∧ r.fld 16 8 ≤ 2047
    (¬ok → ∃ t, exec .faultlogSet s = .next t ∧ Refused s t r 2) ∧
    (ok → ∃ t, exec .faultlogSet s = .next t ∧ Replied s t r 0 [] ∧ t.log.base = r.fld 0 8 ∧ t.log.entries = n ∧
      t.log.vector = r.fld 16 8 ∧ t.log.next = 0 ∧ t.log.taken = [] ∧ t.log.waiting = s.log.waiting ∧ t.mem = s.mem ∧ t.ths = s.ths)) ∧
  ∀ (s : State) (r : Request) (x : LogRec), Served s r 0x29 16 → r.owner = true → r.chan < 4 →
    let found := s.log.recs.find? (fun y => y.seqNo == r.fld 0 8 && !y.resolved)
    let a := r.fld 8 8
    let resolved (t : State) : Prop := exec .faultReply s = .next t ∧ Replied s t r 0 [] ∧ ∀ y ∈ t.log.recs, y.seqNo ≠ x.seqNo
    (a ≤ 2 → found = none → ∃ t, exec .faultReply s = .next t ∧ Refused s t r 3) ∧
    (2 < a → ∃ t, exec .faultReply s = .next t ∧ Refused s t r 2) ∧
    (a = 1 → found = some x → x.source = 1 ∨ x.source = 2 → ∃ t, exec .faultReply s = .next t ∧ Refused s t r 3) ∧
    (a = 2 → found = some x → resident s x.ctx = true → TablesOrdered s → ∃ t, resolved t ∧ Ends s t x.ctx) ∧
    (a = 1 → found = some x → x.source = 0 → ∃ t, resolved t ∧ ∀ n ∈ x.threads, n < savedBase → (s.th n).ct.stopped = true →
      (t.th n).ln.exited = BitVec.allOnes 32 ∧ groupsOf (t.th n) = [] ∧ (t.th n).ct.stopped = false) ∧
    (a ≤ 1 → found = some x → x.source = 0 → ∀ n, x.threads = [n] → savedBase ≤ n → ∃ t, resolved t ∧
      ∀ u ∈ (t.wg ((n - savedBase) / 32)).image, u.pl.idx = (n - savedBase) % 32 → u.ct.due = some (a == 1)) ∧
    (a = 0 → found = some x → x.source = 0 → ∀ n, x.threads = [n] → n < savedBase → NoneDue s n →
      let u := s.th n
      u.ct.stopped = true → masksOk u = true → (u.ct.fault.getD {}).source = 0 → (u.ct.fault.getD {}).cls ≠ .trap →
      (u.ct.fault.getD {}).cls ≠ .brk → u.ps.s0.grp.isSome = u.ps.s0.clause.isSome → u.ps.s1.grp.isSome = u.ps.s1.clause.isSome →
      u.ps.fork = [] → ∃ t, resolved t ∧ (t.th n).ct.stopped = false ∧ (t.th n).ct.fault = none ∧ SameRegs s t)

/-- R58, R61 to R63, R65 to R69, R403: code objects are checked, portable ones translated, mapped, swapped and unloaded; signed records are
verified and staged. The model's readings: the layout of the reply to CODE_LOAD, the release of old translations at the next CODE_REPLACE, and the
kinds and header of signed records (log 13, DESIGN CHOICE); what CODE_UNLOAD waits for (log 14, DEDUCED); what the bytes of records and of
portable text mean (log 8). -/
def Obligations.CodeRequests : Prop :=
  (∀ b : List Byte, objF b 0 4 ≠ 0x5A4E0C0B ∨ objF b 4 2 ≠ 1 ∨ objF b 8 1 = 0 ∨ 32 < objF b 8 1 ∨
    ((bitOf (objF b 7 1) 1 = false ∨ objF b 0x2C 4 ≠ 0) ∧ isHeader b (objF b 0x24 4) = false) → checkObject b = none) ∧
  (∀ (b : List Byte) (ts : List (List Nat)), checkObject b = some ts →
    ∀ l ∈ ts, beginsKnot b (l.headD 0) = true ∧ ∀ e ∈ l, 4 * e < objF b 0x2C 4) ∧
  (∀ (b n : List Byte) (ts : List (List Nat)), nativeOf b = some (n, ts) → checkObject n = some ts ∧ (checkObject b).isSome = true ∧
    (bitOf (objF b 7 1) 1 = false → n = b) ∧
    (bitOf (objF b 7 1) 1 = true → ∃ k, Twifel.parse ((b.drop (objF b 0x50 4)).take (objF b 0x54 4)) = some k ∧ k.ok = true ∧
      (objF b 0x2C 4 ≠ 0 → Config.twifelFirst b = false → n = b) ∧
      (objF b 0x2C 4 = 0 ∨ Config.twifelFirst b = true → objF n 0x2C 4 ≠ 0 ∧ objF n 6 1 = objF b 6 1 ∧ callsOk n ts = true ∧
        Twifel.keepsOps k ((sliceInstrs n).map (fun e => e.2)) = true))) ∧
  (∀ (s : State) (r : Request), MemOk s → Served s r 0x30 24 → r.owner = true → r.chan < 4 →
    let c := r.fld 0 8
    (63 < c → ∃ t, exec .codeLoad s = .next t ∧ Refused s t r 2) ∧
    (c ≤ 63 → readObject s r (r.fld 8 8) (r.fld 16 8) = none → ∃ t, exec .codeLoad s = .next t ∧ Refused s t r 3) ∧
    ∀ b ts base, c ≤ 63 → (s.ctx c).ended = false → readObject s r (r.fld 8 8) (r.fld 16 8) = some (b, ts) →
      (objF b 6 1 = 1 → (s.ctx c).strengthen = true) → b.length ≤ 2 ^ 26 →
      findWindow s c (2 ^ 22) (Config.freeNat s.run.fresh) = some base →
      let h := s.mg.nextCode
      ∃ t o, exec .codeLoad s = .next t ∧ Replied s t r 0 (leBytes 8 h ++ leBytes 8 base) ∧ t.mg.nextCode = h + 1 ∧
        kget? t.codes h = some o ∧ o.ctx = c ∧ o.base = base ∧ o.cur = 0 ∧ kget? o.trans 0 = some (transAtOff b ts 0) ∧
        Stands t (codeFlat h) (mappedImage b (transAtOff b ts 0)) ∧
        SameMemBut (fun a => codeFlat h ≤ a ∧ a < codeFlat h + 2 ^ 26) s t ∧ ∀ m, m ≠ h → kget? t.codes m = kget? s.codes m) ∧
  (∀ (s : State) (r : Request) (o : Code) (b : List Byte) (ts : List (List Nat)), MemOk s → Served s r 0x31 24 → r.owner = true →
    r.chan < 4 → kget? s.codes (r.fld 0 8) = some o → readObject s r (r.fld 8 8) (r.fld 16 8) = some (b, ts) → kordered o.trans = true →
    let h := r.fld 0 8
    let kept := o.trans.filter (fun e => e.1 == o.cur || (usersOf s h).any (fun u => u ≤ e.1))
    let new := transAtOff b ts (roundUp (windowEnd { o with trans := kept }) 65536)
    let ok := swapOk (kgetD kept o.cur {}) new = true ∧ new.off + new.len ≤ 2 ^ 26 ∧ (objF b 6 1 = 1 → (s.ctx o.ctx).strengthen = true)
    (¬ok → ∃ t, exec .codeReplace s = .next t ∧ Refused s t r 3) ∧
    (ok → ∃ t x, exec .codeReplace s = .next t ∧ Replied s t r 0 [] ∧ kget? t.codes h = some x ∧ x.cur = o.cur + 1 ∧ x.base = o.base ∧
      kget? x.trans (o.cur + 1) = some new ∧ Stands t (codeFlat h + new.off) (mappedImage b new) ∧
      ∀ n tr u, kget? o.trans n = some tr → u ∈ usersOf s h → u ≤ n → n ≠ o.cur + 1 → kget? x.trans n = some tr)) ∧
  (∀ (s : State) (r : Request), Served s r 0x31 24 → r.owner = true → r.chan < 4 →
    kget? s.codes (r.fld 0 8) = none ∨ readObject s r (r.fld 8 8) (r.fld 16 8) = none →
    ∃ t, exec .codeReplace s = .next t ∧ Refused s t r 3) ∧
  (∀ (s : State) (r : Request), TablesOrdered s → Served s r 0x32 8 → r.owner = true → r.chan < 4 →
    let h := r.fld 0 8
    (kget? s.codes h = none → ∃ t, exec .codeUnload s = .next t ∧ Refused s t r 3) ∧
    ((kget? s.codes h).isSome = true → codeUsed s h = true → ∃ t, exec .codeUnload s = .next t ∧ OnlyMgmt s t ∧
      ∃ x ∈ t.mg.reqs, x.chan = r.chan ∧ x.slot = r.slot ∧ x.started = true) ∧
    ((kget? s.codes h).isSome = true → codeUsed s h = false → ∃ t, exec .codeUnload s = .next t ∧ Replied s t r 0 [] ∧
      kget? t.codes h = none ∧ ∀ m, m ≠ h → kget? t.codes m = kget? s.codes m)) ∧
  (∀ (s : State) (r : Request), TablesOrdered s →
    s.mg.reqs.find? (fun x => x.started && x.op == 0x32 && !codeUsed s (x.fld 0 8)) = some r →
    ∃ t, exec .codeUnload s = .next t ∧ Replied s t r 0 [] ∧ kget? t.codes (r.fld 0 8) = none) ∧
  (∀ (kinds : List Nat) (b : List Byte), authentic kinds b = true ↔ objF b 0 4 = Config.recordMagic ∧ recordKind b ∈ kinds ∧
    shake256 32 ((b.drop 96).take (objF b 24 8)) = (b.drop 32).take 32 ∧ Config.recordKey (recordKind b) (objF b 64 8) = true ∧
    Config.signatureOk b = true) ∧
  (∀ p ∈ ([(.fwStage, 0x38, [0]), (.cfgStage, 0x39, [1, 2, 3])] : List (Instr × Nat × List Nat)), ∀ (s : State) (r : Request),
    Served s r p.2.1 8 → r.owner = true → r.chan < 4 →
    (readRecord s r.chan (r.fld 0 8) = none → ∃ t, exec p.1 s = .next t ∧ Refused s t r 3) ∧
    ∀ b, readRecord s r.chan (r.fld 0 8) = some b →
      let k := recordKind b
      (authentic p.2.2 b = false → ∃ t, exec p.1 s = .next t ∧ Refused s t r 4) ∧
      (authentic p.2.2 b = true → objF b 16 8 < (s.signed k).sec → ∃ t, exec p.1 s = .next t ∧ Refused s t r 3) ∧
      (authentic p.2.2 b = true → (s.signed k).sec ≤ objF b 16 8 → ∃ t, exec p.1 s = .next t ∧ Replied s t r 0 [] ∧
        t.signed k = { s.signed k with staged := some b } ∧ (∀ j, j ≠ k → t.signed j = s.signed j) ∧ t.mem = s.mem ∧ t.ctxs = s.ctxs))

/-! ### The host, reset and links -/

/-- R388 to R390, R403, R409: host accesses, resets of functions and of the device. The model's readings: a TDI that leaves RUN ends its context
with class 0 (log 14, DEDUCED); host memory keeps its contents over a device reset (log 3); a sequence word that is written in parts submits
nothing, and a host write waits for its snoop (log 13, DESIGN CHOICE). -/
def Obligations.HostAndReset : Prop :=
  (∀ (s : State) (a b : BarAccess), .host b ∈ s.io.waits →
    exec (.hostBarAccess a) s = .next { s with io := { s.io with waits := s.io.waits ++ [.host a] } }) ∧
  (∀ (s : State) (a : BarAccess), a.fn ≤ 32 → 1 ≤ a.size → (∀ b, .host b ∉ s.io.waits) →
    let f := kgetD s.io.funcs a.fn {}
    let allOnes : State := { s with io := { s.io with hostData := some (2 ^ (8 * a.size) - 1) } }
    (a.fn ≠ 0 → a.fn ∉ s.up.vfs → (a.write = true → exec (.hostBarAccess a) s = .next s) ∧
      (a.write = false → exec (.hostBarAccess a) s = .next allOnes)) ∧ (a.fn = 0 ∨ a.fn ∈ s.up.vfs →
    (f.ide = true → a.ide = false → exec (.hostBarAccess a) s =
      .next (countersChange { s with io := { s.io with ideDropped := s.io.ideDropped + 1 } } 1)) ∧
    (f.ide = false ∨ a.ide = true →
      (a.bar = 0 → a.off + a.size ≤ 65536 → a.write = true →
        ∃ t, exec (.hostBarAccess a) s = .next t ∧ OnlyMgmt s t ∧ MailboxTakes s t (barChan a.fn) a.off (leBytes a.size a.value) a.ide) ∧
      (a.bar = 0 → a.off + a.size ≤ 65536 → a.write = false →
        ∃ t, exec (.hostBarAccess a) s = .next t ∧ t = { s with io := { s.io with hostData := t.io.hostData } } ∧
          t.io.hostData = some (leNat ((List.range a.size).map (fun j => mboxByte s (barChan a.fn) (a.off + j))))) ∧
      (a.bar = 2 → barFlats s a = none →
        (a.write = true → exec (.hostBarAccess a) s = .next s) ∧
        (a.write = false → exec (.hostBarAccess a) s = .next allOnes)) ∧
      (a.bar = 2 → ∀ as, barFlats s a = some as →
        (a.write = false → ∃ t, exec (.hostBarAccess a) s = .next t ∧ t.io.hostData = some (leNat (memGets s.mem as)) ∧
          (a.fn = 0 → t = { s with io := t.io }) ∧ (MemOk s → TouchedBut (fun _ => False) s t)) ∧
        (a.write = true → copiesOf s as ≠ [] → ∃ t, exec (.hostBarAccess a) s = .next t ∧ t.mem = s.mem ∧ Snoops s t as ∧
          t.io.waits = s.io.waits ++ [.host a]) ∧
        (a.write = true → copiesOf s as = [] → MemOk s → as.Nodup → ∃ t, exec (.hostBarAccess a) s = .next t ∧
          memGets t.mem as = leBytes a.size a.value ∧ (a.fn = 0 → SameMemBut (fun b => b ∈ as) s t) ∧ TouchedBut (fun b => b ∈ as) s t))))) ∧
  (∀ (s : State) (a : BarAccess), a.bar = 2 → a.fn = 0 → ownerNow s ≠ some 1 ∨ 2 ^ 38 < a.off + a.size → barFlats s a = none) ∧
  (∀ (s : State) (vf : Nat), (vf = 0 ∨ (kgetD s.io.funcs vf {}).ctx = none → exec (.functionLevelReset vf) s = .next s) ∧
    ∀ c, vf ≠ 0 → (kgetD s.io.funcs vf {}).ctx = some c → resident s c = true → TablesOrdered s →
      ((∀ e ∈ s.ths, e.2.pl.ctx ≠ c) → (∀ e ∈ s.wgs, e.2.ctx ≠ c) → (∀ f ∈ s.fl, f.ctx = c → f.done = true) →
        ∃ t, exec (.functionLevelReset vf) s = .next t ∧ t.hasCtx c = false ∧ (kgetD t.io.funcs vf {}).ctx = none) ∧
      ((∃ m u, kget? s.ths m = some u ∧ u.pl.kind = .strand ∧ u.pl.ctx = c ∧ m % 16384 < 8192) →
        ∃ t, exec (.functionLevelReset vf) s = .next t ∧ Ends s t c ∧ (t.ctx c).dying = true)) ∧
  (∀ (s : State) (vf : Nat), ((kgetD s.io.funcs vf {}).run = false → exec (.tdiLeaveRun vf) s = .next s) ∧
    ((kgetD s.io.funcs vf {}).run = true → ∃ t, exec (.tdiLeaveRun vf) s = .next t ∧ (kgetD t.io.funcs vf {}).run = false ∧
      ∀ c, (kgetD s.io.funcs vf {}).ctx = some c →
        ((s.ctx c).conf = true → resident s c = true → TablesOrdered s → Ends s t c ∧ Reports t c 0 0) ∧
        ((s.ctx c).conf = false → t = { s with io := t.io }))) ∧
  ∀ s : State, MemOk s → ∃ t, exec .deviceReset s = .next t ∧
    t = { State.reset with mem := t.mem, io := t.io, up := t.up, now := s.now, run := t.run } ∧
    (∀ a, memGet t.mem a = if 2 ^ 50 ≤ a ∧ a < 2 ^ 52 then memGet s.mem a else 0) ∧
    (∀ n, (kget? t.io.dies n).isSome = (kget? State.reset.io.dies n).isSome) ∧
    (∀ e ∈ t.io.dies, e.2.verified = false ∧ e.2.disabled = false ∧ e.2.end0.asked = s.now ∧ e.2.end1.asked = s.now) ∧ t.io.funcs = [] ∧
    t.up.accepting = false ∧
    (∀ k, t.signed k = match (s.signed k).staged with
      | some b => if authentic [k] b then { ver := objF b 8 8, sec := objF b 16 8, bytes := b } else { s.signed k with staged := none }
      | none => s.signed k) ∧
    let takes (k : Nat) : Prop := ∃ b, (s.signed k).staged = some b ∧ authentic [k] b = true
    (takes 1 → t.up.masters = [1, 2, 3].filter (Config.cfgMaster (t.signed 1).bytes)) ∧ (¬takes 1 → t.up.masters = s.up.masters) ∧
    (takes 1 ∨ takes 2 → ∀ n, n ∈ t.up.vfs ↔ 1 ≤ n ∧ n ≤ 32 ∧ Config.cfgFunction (t.signed 1).bytes (t.signed 2).bytes n = true) ∧
    (¬takes 1 → ¬takes 2 → t.up.vfs = s.up.vfs)

/-- R398 to R402: discovery, the die protocol's messages, and accesses of device-link peers. That the quadrants of a die without a verified path
are withdrawn is the model's reading (log 14), and so are the numbers of links, ends, opcodes and ports, the credits that a part grants, and
what waits for a snoop (log 13). -/
def Obligations.LinksAndPeers : Prop :=
  (∀ (s : State) (n : Nat) (b : List Byte) (l : DieLink), kget? s.io.dies (n / 2) = some l →
    ((l.end_ n).verified = true ∨ l.disabled = true → exec (.topologyDiscovery n b) s = .next s) ∧
    ((l.end_ n).verified = false → l.disabled = false → ∃ t, exec (.topologyDiscovery n b) s = .next t ∧
      Decided s t (n / 2) (fun k => (k.end_ n).record = b ∧ (k.end_ n).verified = recordOk s b (l.end_ n).nonce ∧
        k.disabled = !recordOk s b (l.end_ n).nonce))) ∧
  (∀ (s : State) (b : List Byte) (nonce : Nat), recordOk s b nonce = true → b.length = 2564 ∧ objF b 0 4 = 0x5A444945 ∧
    objF b 56 8 = Config.freeNat nonce % 2 ^ 64 ∧ Config.dieKey (s.signed 1).bytes (s.signed 3).bytes (objF b 48 8) = true ∧
    Config.signatureOk b = true) ∧
  (∀ (s : State) (n : Nat) (l : DieLink), kget? s.io.dies (n / 2) = some l → (l.end_ n).verified = false → l.disabled = false →
    (s.now < (l.end_ n).asked + 240000000 → exec (.dieRecordTimeout n) s = .next s) ∧
    ((l.end_ n).asked + 240000000 ≤ s.now → ∃ t, exec (.dieRecordTimeout n) s = .next t ∧ Decided s t (n / 2) (fun k => k.disabled = true))) ∧
  (∀ (m : NgMsg) (link n : Nat) (rest : List (List Byte)), msgFits m = true →
    headerMsg link (msgHeader m) m.data = { m with link := link } ∧
    messagesIn link (n + 1) (msgSlots m ++ rest) = ({ m with link := link } :: (messagesIn link n rest).1, (messagesIn link n rest).2)) ∧
  (∀ (s : State) (m : NgMsg), Arrives s m 0 → MemOk s →
    (Behind s m → ∃ t k, exec (.ngalanReq m) s = .next t ∧ t.mem = s.mem ∧ t.io.sent = s.io.sent ∧ t.io.outbox = s.io.outbox ∧
      kget? t.io.dies m.link = some k ∧ k.pend = (kgetD s.io.dies m.link {}).pend ++ [m]) ∧
    (¬Behind s m →
      (m.op = 3 → ∃ t, exec (.ngalanReq m) s = .next t ∧ Sends s t (answerTo m 2 []) ∧ CreditsBack s t m ∧ t.mem = s.mem ∧
        t.io.irqs = if vectorOn s (s.ctx m.ctx).fn m.operand then s.io.irqs ++ [((s.ctx m.ctx).fn, m.operand)] else s.io.irqs) ∧
      (m.op ≠ 3 → populated s m.addr = false ∨ (16 ≤ m.op ∧ m.addr % atomZ (m.op - 16) ≠ 0) →
        ∃ t, exec (.ngalanReq m) s = .next t ∧ Sends s t (answerTo m 5 []) ∧ CreditsBack s t m ∧ t.mem = s.mem ∧ t.ch = s.ch) ∧
      (populated s m.addr = true → (16 ≤ m.op → m.addr % atomZ (m.op - 16) = 0) →
        (m.op < 2 → ∃ t, exec (.ngalanReq m) s = .next t ∧ CreditsBack s t m ∧
          Sends s t (answerTo m 3 (memGets s.mem (rangeFrom (m.addr / 128 * 128) (m.addr / 128 * 128 + 128)))) ∧
          kgetD t.ch.dir (m.addr / 128) 0 = (if m.link = 2 then m.op + 1 else kgetD s.ch.dir (m.addr / 128) 0) ∧ t.mem = s.mem) ∧
        (Writes m → kgetD s.ch.dir (m.addr / 128) 0 = 0 → ∃ t, exec (.ngalanReq m) s = .next t ∧ CreditsBack s t m ∧
          Sends s t (requestAnswer (memGet s.mem) m) ∧ ∀ a, memGet t.mem a = afterRequest (memGet s.mem) m a) ∧
        (Writes m → kgetD s.ch.dir (m.addr / 128) 0 ≠ 0 → ∃ t k, exec (.ngalanReq m) s = .next t ∧ t.mem = s.mem ∧
          Snoops s t [m.addr] ∧ t.io.ctl = s.io.ctl ∧ kget? t.io.dies m.link = some k ∧ m ∈ k.pend)))) ∧
  (∀ (s : State) (m : NgMsg), Arrives s m 1 → ∃ t, exec (.ngalanSnp m) s = .next t ∧ Sends s t (answerTo m 2 []) ∧
    CreditsBack s t m ∧ t.mem = s.mem ∧ t.ch = s.ch) ∧
  (∀ (s : State) (m : NgMsg), Arrives s m 2 →
    (waiting s m = none → ∃ t, exec (.ngalanRsp m) s = .next t ∧ t = { s with io := t.io } ∧ CreditsBack s t m) ∧
    ∀ x, waiting s m = some x → MemOk s → ∃ t, exec (.ngalanRsp m) s = .next t ∧ SnoopEnds s t m x (memGet s.mem)) ∧
  (∀ (s : State) (m : NgMsg), Arrives s m 3 →
    (waiting s m = none → ∃ t, exec (.ngalanDat m) s = .next t ∧ t = { s with io := t.io } ∧ CreditsBack s t m) ∧
    ∀ x, waiting s m = some x → MemOk s → 128 ≤ m.data.length → ∃ t, exec (.ngalanDat m) s = .next t ∧
      SnoopEnds s t m x (fun a => if kgetD s.ch.dir (x.addr / 128) 0 = 2 ∧ a / 128 = x.addr / 128 then m.data.getD (a % 128) 0
        else memGet s.mem a)) ∧
  (∀ (s : State) (m : NgMsg), m.cls = 4 → msgFits m = true → msgKnown m = true →
    (16 ≤ m.link → m.link < 32 → m.operand + m.data.length ≤ 65536 →
      ∃ t, exec (.ngalanMgt m) s = .next t ∧ OnlyMgmt s t ∧ MailboxTakes s t 3 m.operand m.data false) ∧
    (m.link < 16 → Arrives s m 4 → ∃ t, exec (.ngalanMgt m) s = .next t ∧ t = { s with io := t.io } ∧ CreditsBack s t m)) ∧
  (∀ (s : State) (m : NgMsg), Arrives s m 5 →
    (waiting s m = none → ∃ t, exec (.ngalanErr m) s = .next t ∧ t = { s with io := t.io } ∧ CreditsBack s t m) ∧
    ∀ x, waiting s m = some x → s.io.waits = [] → ∃ t, exec (.ngalanErr m) s = .next t ∧
      (waitingReqs s = [] → t.mem = s.mem ∧ t.io.sent = s.io.sent ∧ t.io.outbox = s.io.outbox) ∧
      ∀ y, waitingReqs s = [y] → y.addr / 128 = x.addr / 128 → Writes y → t.mem = s.mem ∧ Sends s t (answerTo y 5 []) ∧ waitingReqs t = []) ∧
  (∀ (s : State) (m : NgMsg) (l : DieLink), msgKnown m = false → kget? s.io.dies m.link = some l →
    let recent := (l.badTimes.filter (fun a => s.now < a + 2400000)).length + 1
    ∃ t k, exec (.ngalanBadMessage m) s = .next t ∧ t = { s with io := { s.io with dies := t.io.dies }, mg := t.mg } ∧
      kget? t.io.dies m.link = some k ∧ k.bad = l.bad + 1 ∧ k.retrains = l.retrains + (if 16 ≤ recent then 1 else 0)) ∧
  (∀ (s : State) (link ack : Nat) (credits : List Nat) (l : DieLink), kget? s.io.dies link = some l →
    let more := l.credits.zipIdx.map (fun e => e.1 + credits.getD e.2 0)
    (s.io.outbox = [] → ∃ t k, exec (.controlSlot link credits ack) s = .next t ∧ kget? t.io.dies link = some k ∧
      k = { l with credits := more, ack := ack } ∧ t.io.sent = s.io.sent) ∧
    ∀ m, s.io.outbox = [m] → m.link = link → m.more < more.getD m.cls 0 →
      ∃ t, exec (.controlSlot link credits ack) s = .next t ∧ t.io.outbox = [] ∧ t.io.sent = s.io.sent ++ [m]) ∧
  (∀ (s : State) (a b : LinkAccess), .link b ∈ s.io.waits → ∃ t, exec (.inboundLinkAccess a) s = .next t ∧
    t = { s with io := { s.io with waits := s.io.waits ++ [.link a] } }) ∧
  ∀ (s : State) (a : LinkAccess), (∀ b, OutAccess.link b ∉ s.io.waits) →
    let answered (t : State) (st v : Nat) : Prop := exec (.inboundLinkAccess a) s = .next t ∧ t.io.linkData = some (st, v)
    let untouched (t : State) : Prop := t = { s with io := { s.io with linkData := t.io.linkData } }
    (∀ e, kget? s.io.exports a.exp = some e → (a.kind = 0 ∧ e.r = false) ∨ (a.kind = 1 ∧ e.w = false) ∨ (2 ≤ a.kind ∧ e.atomic = false) ∨
      e.len < a.off + a.size ∨ resident s e.ctx = false → ∃ t, answered t 1 0 ∧ untouched t) ∧
    (kget? s.io.exports a.exp = none → ∃ t, answered t 1 0 ∧ untouched t) ∧
    ∀ e as exact, kget? s.io.exports a.exp = some e → exportFlats s e a = some (as, exact) →
      let old := leNat (memGets s.mem as)
      (a.kind = 0 → ∃ t, answered t 0 old ∧ (e.common = true → untouched t) ∧ (MemOk s → TouchedBut (fun _ => False) s t)) ∧
      (a.kind = 1 → exact = true → ∃ t, answered t 1 0 ∧ untouched t) ∧
      (a.kind = 1 ∧ exact = false ∨ (∃ p, 2 ≤ a.kind ∧ linkOp a exact = some p ∧ as.headD 0 % a.size = 0) → copiesOf s as ≠ [] →
        ∃ t, exec (.inboundLinkAccess a) s = .next t ∧ t.mem = s.mem ∧ Snoops s t as ∧ t.io.waits = s.io.waits ++ [.link a]) ∧
      (a.kind = 1 → exact = false → copiesOf s as = [] → MemOk s → as.Nodup → ∃ t, answered t 0 0 ∧ memGets t.mem as = leBytes a.size a.value ∧
        TouchedBut (fun b => b ∈ as) s t ∧ ∀ b ∈ as, kget? t.ch.narrow (b / 128) = none) ∧
      (2 ≤ a.kind → linkOp a exact = none → ∃ t, answered t 1 0 ∧ untouched t) ∧
      ∀ op v, 2 ≤ a.kind → linkOp a exact = some (op, v) →
        (as.headD 0 % a.size ≠ 0 → ∃ t, answered t 1 0 ∧ untouched t) ∧
        (as.headD 0 % a.size = 0 → copiesOf s as = [] → MemOk s → as.Nodup → ∃ t, answered t 0 old ∧ memGets t.mem as = leBytes a.size (atomV op old v a.cmp) ∧
          TouchedBut (fun b => b ∈ as) s t ∧ t.ch.narrow = s.ch.narrow)

/-! ### The whole machine -/

/-- R409, R395, R401: right after reset every byte of memory reads zero, there is no owner and no work, no link is verified yet and no
work is accepted. -/
def Obligations.ResetState : Prop :=
  (∀ a, memGet State.reset.mem a = 0) ∧ State.reset.mg.owner = none ∧ State.reset.mg.reqs = [] ∧ State.reset.ctxs = [] ∧
  State.reset.ths = [] ∧ State.reset.wgs = [] ∧ State.reset.launches = [] ∧ State.reset.codes = [] ∧ State.reset.queues = [] ∧
  State.reset.fl = [] ∧ State.reset.dls = [] ∧ State.reset.up.accepting = false ∧ State.reset.io.dies ≠ [] ∧
  ∀ e ∈ State.reset.io.dies, e.2.verified = false ∧ e.2.disabled = false

/-- The invariants that steps keep hold at reset (the model's own). -/
def Obligations.ResetMeetsInvariants : Prop :=
  MemOk State.reset ∧ TablesOrdered State.reset ∧ SlotsDistinct State.reset ∧ FreshIds State.reset ∧ ThreadsShaped State.reset

/-- Every step that answers a next state keeps memory in its one canonical form (the model's own, R4, R260). -/
def Obligations.MemoryStaysCanonical : Prop := ∀ s t : State, MemOk s → step s = .next t → MemOk t

/-- Every step keeps the maps of the state in rising order, the requests of the mailbox in slots of their own (R392), and the numbers
of operations in flight below the next one (R267). -/
def Obligations.TablesStayOrdered : Prop :=
  ∀ s t : State, TablesOrdered s → SlotsDistinct s → FreshIds s → step s = .next t → TablesOrdered t ∧ SlotsDistinct t ∧ FreshIds t

/-- Every step keeps the shape of every thread and of every saved strand (R79, R85, R102, R180): 32 frame words and items, eight
arrival masks, four number formats, each of them valid or, in a handler, the zero that it starts with (R344). -/
def Obligations.ThreadsStayShaped : Prop := ∀ s t : State, ThreadsShaped s → step s = .next t → ThreadsShaped t

/-- A step always answers a next state, but where the agenda names an encoded instruction as an event with no thread at its issue
(the model's own, log 1). -/
def Obligations.StepAnswersNext : Prop :=
  ∀ s : State, (∃ t, step s = .next t) ∨
    (step s = .fault .noIssuer ∧ ∃ dt i rest, s.run.agenda = (dt, .event i) :: rest ∧ i.parts ≠ .event)

/-- R56, R81, R168: a step that the agenda gives to a thread runs the instruction that the parcels of the thread's clause decode to, in
the state that its settled waits leave, and then the homes of watched words test them (R381); so does one given to an access thread. -/
def Obligations.StepRunsTheDecodedInstruction : Prop :=
  (∀ (s : State) (dt th k : Nat) (rest : List (Nat × Move)) (c : Clause) (i : Instr) (after : List Word),
    s.run.agenda = (dt, .issue th) :: rest →
    let u := refresh { s with now := s.now + dt, run := { s.run with agenda := rest, cur := some th } } th
    issuer u = some (th, k) → ((u.th th).grp k).st = .runnable → ((u.th th).slot k).clause = some c →
    decode (u.th th).codeKind (c.body.drop c.pos) = some (i, after) →
    ∃ t, exec i u = .next t ∧ step s = .next (watchTest t)) ∧
  ∀ (s : State) (dt th : Nat) (rest : List (Nat × Move)) (a : Access) (c : Clause) (i : Instr) (after : List Word),
    s.run.agenda = (dt, .accessIssue th) :: rest → (s.th th).access = some a → a.clause = some c → a.ended = false → a.faulted = false →
    (s.th th).ps.halted = false → decode .access (c.body.drop c.pos) = some (i, after) →
    let u := { s with now := s.now + dt, run := { s.run with agenda := rest, cur := some th } }
    (nopSize i = none → ∃ t, exec i u = .next t ∧ step s = .next (watchTest t)) ∧
    ∀ n, nopSize i = some n → ∃ t, step s = .next t ∧ (t.th th).access = some (accessNext a n) ∧ SameMem s t

/-- R15, R26, R32, R33: words written out by the encoding tables of the spec decode to the instructions that they stand for. -/
def Obligations.WordsDecode : Prop :=
  decodeTableWord 64 (0x60200821 + 0x00000040 * 2 ^ 32) =
    some (.add { st := 0, d := 1, a := 2, b := 3, c := 1, gk := 0, gneg := false, tr := false, ru := false, md := 0, lit := none }) ∧
  decodeTableWord 32 (4 * 32 + 7 * 2 ^ 11 + 0xFFF * 2 ^ 20) = some (.ldi { st := 0, d := 7, imm := 0xFFF }) ∧
  decodeTableWord 32 (2 * 32 + 4 * 2 ^ 29) = some (.ctlsExit 0)

/-- R15, R26, R32, R33, R56: decoding and encoding agree. Every well-formed instruction decodes from its parcels, whatever follows
them, to itself with every operand; and parcels that decode to a well-formed instruction are its own. -/
def Obligations.DecodeAndEncodeAgree : Prop :=
  (∀ (i : Instr) (r : List Word), i.wf = true → i.parts ≠ .event → decodeRaw (encode i ++ r) = some (i, r)) ∧
  (∀ (kd : CodeKind) (i : Instr) (r : List Word), i.wfIn kd = true → i.parts ≠ .event → decode kd (encode i ++ r) = some (i, r)) ∧
  ∀ (kd : CodeKind) (ps r : List Word) (i : Instr), decode kd ps = some (i, r) → i.wfIn kd = true ∧ ps = encode i ++ r
end

