-- ==== Sys2Proof/Laws/Maps.lean ====
section
/-!
SUPPORT. The laws of sparse maps: what a key reads as after each update, and that updates keep the order of keys.
-/

namespace Sys2Proof.Machine

variable {α : Type}

/-! ### Reading after writing -/

/-- A key reads as what was last set. -/
@[simp] theorem kget?_kset_self (m : KMap α) (n : Nat) (v : α) : kget? (kset m n v) n = some v := by
  induction m with
  | nil => simp [kset, kget?]
  | cons e m ih =>
    obtain ⟨k, w⟩ := e
    by_cases h : n = k
    · simp [kset, kget?, h]
    · by_cases h' : n < k <;> simp [kset, kget?, h, h', ih]

/-- Setting one key leaves every other, whether the keys are in order or not. -/
theorem kget?_kset_ne (m : KMap α) {n p : Nat} (v : α) (h : p ≠ n) : kget? (kset m n v) p = kget? m p := by
  induction m with
  | nil =>
    simp only [kset, kget?, if_neg h]
    split <;> rfl
  | cons e m ih =>
    obtain ⟨k, w⟩ := e
    simp only [kset]
    split
    · subst_vars; simp [kget?, h]
    · split
      · simp only [kget?, if_neg h]
        split
        · have hk : p ≠ k := by omega
          have hl : p < k := by omega
          simp [hk, hl]
        · rfl
      · simp only [kget?, ih]

/-- What a key reads as after another or the same one is set. -/
theorem kget?_kset (m : KMap α) (n p : Nat) (v : α) : kget? (kset m n v) p = if p = n then some v else kget? m p := by
  split
  · subst_vars; simp
  · exact kget?_kset_ne m v ‹_›

/-- A key that lists nothing keeps a map as it is. -/
theorem kmodify_none {m : KMap α} {n : Nat} (f : α → α) (h : kget? m n = none) : kmodify m n f = m := by simp [kmodify, h]

/-- What a key reads as after a change of an entry. -/
theorem kget?_kmodify (m : KMap α) (n p : Nat) (f : α → α) :
    kget? (kmodify m n f) p = if p = n then (kget? m n).map f else kget? m p := by
  unfold kmodify
  split
  · rename_i v h
    rw [kget?_kset, h]; rfl
  · rename_i h
    split
    · subst_vars; simp [h]
    · rfl

/-! ### Order -/

/-- Every key of an ordered map is above its first key. -/
theorem kordered_lt {k : Nat} {w : α} {m : KMap α} (h : kordered ((k, w) :: m) = true) : ∀ e ∈ m, k < e.1 := by
  induction m generalizing k w with
  | nil => simp
  | cons e m ih =>
    obtain ⟨n, v⟩ := e
    simp only [kordered, Bool.and_eq_true, decide_eq_true_eq] at h
    intro e he
    rcases List.mem_cons.mp he with rfl | he
    · exact h.1
    · exact Nat.lt_trans h.1 (ih h.2 e he)

/-- The tail of an ordered map is ordered. -/
theorem kordered_tail {e : Nat × α} {m : KMap α} (h : kordered (e :: m) = true) : kordered m = true := by
  cases m with
  | nil => rfl
  | cons d m => obtain ⟨k, w⟩ := e; obtain ⟨n, v⟩ := d; simp only [kordered, Bool.and_eq_true] at h; exact h.2

/-- A key below every key of an ordered map heads an ordered map. -/
theorem kordered_cons {k : Nat} {w : α} {m : KMap α} (h : kordered m = true) (hk : ∀ e ∈ m, k < e.1) : kordered ((k, w) :: m) = true := by
  cases m with
  | nil => rfl
  | cons d m => obtain ⟨n, v⟩ := d; simp [kordered, h, hk (n, v) (by simp)]

/-- Order, by the first key. -/
theorem kordered_cons_iff {k : Nat} {w : α} {m : KMap α} :
    kordered ((k, w) :: m) = true ↔ kordered m = true ∧ ∀ e ∈ m, k < e.1 :=
  ⟨fun h => ⟨kordered_tail h, kordered_lt h⟩, fun h => kordered_cons h.1 h.2⟩

/-- Keys of a map after a key is set. -/
theorem mem_kset {m : KMap α} {n : Nat} {v : α} {e : Nat × α} (h : e ∈ kset m n v) : e = (n, v) ∨ e ∈ m := by
  induction m with
  | nil => simpa [kset] using h
  | cons d m ih =>
    obtain ⟨k, w⟩ := d
    simp only [kset] at h
    split at h
    · rcases List.mem_cons.mp h with h | h
      · exact .inl h
      · exact .inr (List.mem_cons_of_mem _ h)
    · split at h
      · rcases List.mem_cons.mp h with h | h
        · exact .inl h
        · exact .inr h
      · rcases List.mem_cons.mp h with rfl | h
        · exact .inr (by simp)
        · rcases ih h with h | h
          · exact .inl h
          · exact .inr (List.mem_cons_of_mem _ h)

/-- Setting a key keeps the order. -/
theorem kordered_kset {m : KMap α} (h : kordered m = true) (n : Nat) (v : α) : kordered (kset m n v) = true := by
  induction m with
  | nil => rfl
  | cons d m ih =>
    obtain ⟨k, w⟩ := d
    rw [kordered_cons_iff] at h
    simp only [kset]
    split
    · subst_vars; exact kordered_cons h.1 h.2
    · split
      · refine kordered_cons (kordered_cons h.1 h.2) ?_
        intro e he
        rcases List.mem_cons.mp he with rfl | he
        · assumption
        · exact Nat.lt_trans ‹_› (h.2 e he)
      · refine kordered_cons (ih h.1) ?_
        intro e he
        rcases mem_kset he with rfl | he
        · simp only; omega
        · exact h.2 e he

/-- Dropping entries keeps the order. -/
theorem kordered_filter {m : KMap α} (h : kordered m = true) (p : Nat × α → Bool) : kordered (m.filter p) = true := by
  induction m with
  | nil => rfl
  | cons d m ih =>
    obtain ⟨k, w⟩ := d
    rw [kordered_cons_iff] at h
    simp only [List.filter]
    split
    · exact kordered_cons (ih h.1) (fun e he => h.2 e (List.mem_filter.mp he).1)
    · exact ih h.1

/-- What is left after a key is dropped was there before. -/
theorem mem_of_mem_kdel {m : KMap α} {n : Nat} {e : Nat × α} (h : e ∈ kdel m n) : e ∈ m := by
  induction m with
  | nil => simp [kdel] at h
  | cons d m ih =>
    obtain ⟨k, w⟩ := d
    simp only [kdel] at h
    split at h
    · exact List.mem_cons_of_mem _ h
    · split at h
      · exact h
      · rcases List.mem_cons.mp h with rfl | h
        · simp
        · exact List.mem_cons_of_mem _ (ih h)

/-- Dropping a key keeps the order. -/
theorem kordered_kdel {m : KMap α} (h : kordered m = true) (n : Nat) : kordered (kdel m n) = true := by
  induction m with
  | nil => rfl
  | cons d m ih =>
    obtain ⟨k, w⟩ := d
    rw [kordered_cons_iff] at h
    simp only [kdel]
    split
    · exact h.1
    · split
      · exact kordered_cons h.1 h.2
      · exact kordered_cons (ih h.1) (fun e he => h.2 e (mem_of_mem_kdel he))

/-- Changing values keeps the order. -/
theorem kordered_map {β : Type} {m : KMap α} (h : kordered m = true) (f : Nat × α → Nat × β) (hf : ∀ e, (f e).1 = e.1) :
    kordered (m.map f) = true := by
  induction m with
  | nil => rfl
  | cons d m ih =>
    obtain ⟨k, w⟩ := d
    rw [kordered_cons_iff] at h
    have hk : f (k, w) = (k, (f (k, w)).2) := Prod.ext (hf _) rfl
    rw [List.map, hk]
    refine kordered_cons (ih h.1) ?_
    intro e he
    obtain ⟨d, hd, rfl⟩ := List.mem_map.mp he
    rw [hf]; exact h.2 d hd

/-- Changing an entry keeps the order. -/
theorem kordered_kmodify {m : KMap α} (h : kordered m = true) (n : Nat) (f : α → α) : kordered (kmodify m n f) = true := by
  unfold kmodify
  split
  · exact kordered_kset h n _
  · exact h

/-! ### Entries -/

/-- An entry that a key reads as is in the map. -/
theorem mem_of_kget? {m : KMap α} {n : Nat} {v : α} (h : kget? m n = some v) : (n, v) ∈ m := by
  induction m with
  | nil => simp [kget?] at h
  | cons d m ih =>
    obtain ⟨k, w⟩ := d
    simp only [kget?] at h
    split at h
    · subst_vars; injection h with h; subst h; simp
    · split at h
      · cases h
      · exact List.mem_cons_of_mem _ (ih h)

/-- An entry of an ordered map is what its key reads as. -/
theorem kget?_of_mem {m : KMap α} (ho : kordered m = true) {n : Nat} {v : α} (h : (n, v) ∈ m) : kget? m n = some v := by
  induction m with
  | nil => simp at h
  | cons d m ih =>
    obtain ⟨k, w⟩ := d
    rw [kordered_cons_iff] at ho
    rcases List.mem_cons.mp h with h | h
    · injection h with h1 h2; subst h1; subst h2; simp [kget?]
    · have hk : k < n := ho.2 _ h
      have h1 : n ≠ k := by omega
      have h2 : ¬ n < k := by omega
      simp [kget?, h1, h2, ih ho.1 h]

/-- A key below every entry reads as none. -/
theorem kget?_none_of_lt {m : KMap α} {n : Nat} (h : ∀ e ∈ m, n < e.1) : kget? m n = none := by
  cases m with
  | nil => rfl
  | cons d m =>
    obtain ⟨k, w⟩ := d
    have hk : n < k := h (k, w) (by simp)
    have h1 : n ≠ k := by omega
    simp [kget?, h1, hk]

/-- A key dropped from an ordered map reads as none. -/
theorem kget?_kdel_self {m : KMap α} (h : kordered m = true) (n : Nat) : kget? (kdel m n) n = none := by
  induction m with
  | nil => rfl
  | cons d m ih =>
    obtain ⟨k, w⟩ := d
    rw [kordered_cons_iff] at h
    simp only [kdel]
    split
    · subst_vars; exact kget?_none_of_lt h.2
    · split
      · rename_i h1 h2; simp [kget?, h1, h2]
      · rename_i h1 h2; simp [kget?, h1, h2, ih h.1]

/-- Dropping a key of an ordered map leaves every other. -/
theorem kget?_kdel_ne {m : KMap α} (h : kordered m = true) {n p : Nat} (hp : p ≠ n) : kget? (kdel m n) p = kget? m p := by
  induction m with
  | nil => rfl
  | cons d m ih =>
    obtain ⟨k, w⟩ := d
    rw [kordered_cons_iff] at h
    simp only [kdel]
    split
    · subst_vars
      simp only [kget?, if_neg hp]
      split
      · exact kget?_none_of_lt (fun e he => Nat.lt_trans ‹_› (h.2 e he))
      · rfl
    · split
      · rfl
      · simp only [kget?, ih h.1]

/-- What another key reads as survives a drop, whether the keys are in order or not. -/
theorem kget?_kdel_some {m : KMap α} {n p : Nat} {v : α} (hp : p ≠ n) (h : kget? m p = some v) : kget? (kdel m n) p = some v := by
  induction m with
  | nil => simp [kget?] at h
  | cons d m ih =>
    obtain ⟨k, w⟩ := d
    simp only [kdel]
    split
    · subst_vars
      simp only [kget?, if_neg hp] at h
      split at h
      · cases h
      · exact h
    · split
      · exact h
      · simp only [kget?] at h ⊢
        split at h
        · simp_all
        · split at h
          · cases h
          · simp_all

/-- What a key reads as where every entry's value changes by its key. -/
theorem kget?_map {β : Type} (m : KMap α) (f : Nat → α → β) (n : Nat) :
    kget? (m.map (fun e => (e.1, f e.1 e.2))) n = (kget? m n).map (f n) := by
  induction m with
  | nil => rfl
  | cons d m ih =>
    obtain ⟨k, w⟩ := d
    simp only [List.map, kget?]
    split
    · subst_vars; rfl
    · split <;> simp [ih]

/-! ### Maps with a default -/

/-- What a key reads as after another or the same one is set, in an ordered map whose unlisted keys read as a default. -/
theorem kgetD_ksetD [DecidableEq α] {m : KMap α} (h : kordered m = true) (n p : Nat) (v d : α) :
    kgetD (ksetD m n v d) p d = if p = n then v else kgetD m p d := by
  unfold ksetD kgetD
  split
  · rename_i hv
    by_cases hp : p = n
    · subst hp; simp [kget?_kdel_self h, hv]
    · simp [kget?_kdel_ne h hp, hp]
  · rw [kget?_kset]
    split <;> rfl

/-- Setting keeps the order. -/
theorem kordered_ksetD [DecidableEq α] {m : KMap α} (h : kordered m = true) (n : Nat) (v d : α) : kordered (ksetD m n v d) = true := by
  unfold ksetD
  split
  · exact kordered_kdel h n
  · exact kordered_kset h n v

/-- No entry equal to the default appears. -/
theorem ksetD_ne_default [DecidableEq α] {m : KMap α} {n : Nat} {v d : α} (h : ∀ e ∈ m, e.2 ≠ d) : ∀ e ∈ ksetD m n v d, e.2 ≠ d := by
  intro e he
  unfold ksetD at he
  split at he
  · exact h e (mem_of_mem_kdel he)
  · rcases mem_kset he with rfl | he
    · assumption
    · exact h e he

end Sys2Proof.Machine
end

