-- ==== Sys2Proof/Laws/State.lean ====
section
/-!
SUPPORT. What each update of the state leaves and what it sets, field by field, so that no proof unfolds a record update.
-/

namespace Sys2Proof.Machine

/-! ### setTh -/

@[simp] theorem State.setTh_mem (s : State) (n : Nat) (t : Strand) : (s.setTh n t).mem = s.mem := rfl
@[simp] theorem State.setTh_ths (s : State) (n : Nat) (t : Strand) : (s.setTh n t).ths = kset s.ths n t := rfl
@[simp] theorem State.setTh_wgs (s : State) (n : Nat) (t : Strand) : (s.setTh n t).wgs = s.wgs := rfl
@[simp] theorem State.setTh_launches (s : State) (n : Nat) (t : Strand) : (s.setTh n t).launches = s.launches := rfl
@[simp] theorem State.setTh_ctxs (s : State) (n : Nat) (t : Strand) : (s.setTh n t).ctxs = s.ctxs := rfl
@[simp] theorem State.setTh_codes (s : State) (n : Nat) (t : Strand) : (s.setTh n t).codes = s.codes := rfl
@[simp] theorem State.setTh_fl (s : State) (n : Nat) (t : Strand) : (s.setTh n t).fl = s.fl := rfl
@[simp] theorem State.setTh_ch (s : State) (n : Nat) (t : Strand) : (s.setTh n t).ch = s.ch := rfl
@[simp] theorem State.setTh_ord (s : State) (n : Nat) (t : Strand) : (s.setTh n t).ord = s.ord := rfl
@[simp] theorem State.setTh_dirty (s : State) (n : Nat) (t : Strand) : (s.setTh n t).dirty = s.dirty := rfl
@[simp] theorem State.setTh_lk (s : State) (n : Nat) (t : Strand) : (s.setTh n t).lk = s.lk := rfl
@[simp] theorem State.setTh_quads (s : State) (n : Nat) (t : Strand) : (s.setTh n t).quads = s.quads := rfl
@[simp] theorem State.setTh_cores (s : State) (n : Nat) (t : Strand) : (s.setTh n t).cores = s.cores := rfl
@[simp] theorem State.setTh_ccores (s : State) (n : Nat) (t : Strand) : (s.setTh n t).ccores = s.ccores := rfl
@[simp] theorem State.setTh_ccLast (s : State) (n : Nat) (t : Strand) : (s.setTh n t).ccLast = s.ccLast := rfl
@[simp] theorem State.setTh_queues (s : State) (n : Nat) (t : Strand) : (s.setTh n t).queues = s.queues := rfl
@[simp] theorem State.setTh_log (s : State) (n : Nat) (t : Strand) : (s.setTh n t).log = s.log := rfl
@[simp] theorem State.setTh_dls (s : State) (n : Nat) (t : Strand) : (s.setTh n t).dls = s.dls := rfl
@[simp] theorem State.setTh_mg (s : State) (n : Nat) (t : Strand) : (s.setTh n t).mg = s.mg := rfl
@[simp] theorem State.setTh_io (s : State) (n : Nat) (t : Strand) : (s.setTh n t).io = s.io := rfl
@[simp] theorem State.setTh_up (s : State) (n : Nat) (t : Strand) : (s.setTh n t).up = s.up := rfl
@[simp] theorem State.setTh_now (s : State) (n : Nat) (t : Strand) : (s.setTh n t).now = s.now := rfl
@[simp] theorem State.setTh_run (s : State) (n : Nat) (t : Strand) : (s.setTh n t).run = s.run := rfl

/-! ### modTh -/

@[simp] theorem State.modTh_mem (s : State) (n : Nat) (f : Strand → Strand) : (s.modTh n f).mem = s.mem := rfl
@[simp] theorem State.modTh_ths (s : State) (n : Nat) (f : Strand → Strand) : (s.modTh n f).ths = kmodify s.ths n f := rfl
@[simp] theorem State.modTh_wgs (s : State) (n : Nat) (f : Strand → Strand) : (s.modTh n f).wgs = s.wgs := rfl
@[simp] theorem State.modTh_launches (s : State) (n : Nat) (f : Strand → Strand) : (s.modTh n f).launches = s.launches := rfl
@[simp] theorem State.modTh_ctxs (s : State) (n : Nat) (f : Strand → Strand) : (s.modTh n f).ctxs = s.ctxs := rfl
@[simp] theorem State.modTh_codes (s : State) (n : Nat) (f : Strand → Strand) : (s.modTh n f).codes = s.codes := rfl
@[simp] theorem State.modTh_fl (s : State) (n : Nat) (f : Strand → Strand) : (s.modTh n f).fl = s.fl := rfl
@[simp] theorem State.modTh_ch (s : State) (n : Nat) (f : Strand → Strand) : (s.modTh n f).ch = s.ch := rfl
@[simp] theorem State.modTh_ord (s : State) (n : Nat) (f : Strand → Strand) : (s.modTh n f).ord = s.ord := rfl
@[simp] theorem State.modTh_dirty (s : State) (n : Nat) (f : Strand → Strand) : (s.modTh n f).dirty = s.dirty := rfl
@[simp] theorem State.modTh_lk (s : State) (n : Nat) (f : Strand → Strand) : (s.modTh n f).lk = s.lk := rfl
@[simp] theorem State.modTh_quads (s : State) (n : Nat) (f : Strand → Strand) : (s.modTh n f).quads = s.quads := rfl
@[simp] theorem State.modTh_cores (s : State) (n : Nat) (f : Strand → Strand) : (s.modTh n f).cores = s.cores := rfl
@[simp] theorem State.modTh_ccores (s : State) (n : Nat) (f : Strand → Strand) : (s.modTh n f).ccores = s.ccores := rfl
@[simp] theorem State.modTh_ccLast (s : State) (n : Nat) (f : Strand → Strand) : (s.modTh n f).ccLast = s.ccLast := rfl
@[simp] theorem State.modTh_queues (s : State) (n : Nat) (f : Strand → Strand) : (s.modTh n f).queues = s.queues := rfl
@[simp] theorem State.modTh_log (s : State) (n : Nat) (f : Strand → Strand) : (s.modTh n f).log = s.log := rfl
@[simp] theorem State.modTh_dls (s : State) (n : Nat) (f : Strand → Strand) : (s.modTh n f).dls = s.dls := rfl
@[simp] theorem State.modTh_mg (s : State) (n : Nat) (f : Strand → Strand) : (s.modTh n f).mg = s.mg := rfl
@[simp] theorem State.modTh_io (s : State) (n : Nat) (f : Strand → Strand) : (s.modTh n f).io = s.io := rfl
@[simp] theorem State.modTh_up (s : State) (n : Nat) (f : Strand → Strand) : (s.modTh n f).up = s.up := rfl
@[simp] theorem State.modTh_now (s : State) (n : Nat) (f : Strand → Strand) : (s.modTh n f).now = s.now := rfl
@[simp] theorem State.modTh_run (s : State) (n : Nat) (f : Strand → Strand) : (s.modTh n f).run = s.run := rfl

/-! ### modCtx -/

@[simp] theorem State.modCtx_mem (s : State) (n : Nat) (f : Context → Context) : (s.modCtx n f).mem = s.mem := rfl
@[simp] theorem State.modCtx_ths (s : State) (n : Nat) (f : Context → Context) : (s.modCtx n f).ths = s.ths := rfl
@[simp] theorem State.modCtx_wgs (s : State) (n : Nat) (f : Context → Context) : (s.modCtx n f).wgs = s.wgs := rfl
@[simp] theorem State.modCtx_launches (s : State) (n : Nat) (f : Context → Context) : (s.modCtx n f).launches = s.launches := rfl
@[simp] theorem State.modCtx_ctxs (s : State) (n : Nat) (f : Context → Context) : (s.modCtx n f).ctxs = kmodify s.ctxs n f := rfl
@[simp] theorem State.modCtx_codes (s : State) (n : Nat) (f : Context → Context) : (s.modCtx n f).codes = s.codes := rfl
@[simp] theorem State.modCtx_fl (s : State) (n : Nat) (f : Context → Context) : (s.modCtx n f).fl = s.fl := rfl
@[simp] theorem State.modCtx_ch (s : State) (n : Nat) (f : Context → Context) : (s.modCtx n f).ch = s.ch := rfl
@[simp] theorem State.modCtx_ord (s : State) (n : Nat) (f : Context → Context) : (s.modCtx n f).ord = s.ord := rfl
@[simp] theorem State.modCtx_dirty (s : State) (n : Nat) (f : Context → Context) : (s.modCtx n f).dirty = s.dirty := rfl
@[simp] theorem State.modCtx_lk (s : State) (n : Nat) (f : Context → Context) : (s.modCtx n f).lk = s.lk := rfl
@[simp] theorem State.modCtx_quads (s : State) (n : Nat) (f : Context → Context) : (s.modCtx n f).quads = s.quads := rfl
@[simp] theorem State.modCtx_cores (s : State) (n : Nat) (f : Context → Context) : (s.modCtx n f).cores = s.cores := rfl
@[simp] theorem State.modCtx_ccores (s : State) (n : Nat) (f : Context → Context) : (s.modCtx n f).ccores = s.ccores := rfl
@[simp] theorem State.modCtx_ccLast (s : State) (n : Nat) (f : Context → Context) : (s.modCtx n f).ccLast = s.ccLast := rfl
@[simp] theorem State.modCtx_queues (s : State) (n : Nat) (f : Context → Context) : (s.modCtx n f).queues = s.queues := rfl
@[simp] theorem State.modCtx_log (s : State) (n : Nat) (f : Context → Context) : (s.modCtx n f).log = s.log := rfl
@[simp] theorem State.modCtx_dls (s : State) (n : Nat) (f : Context → Context) : (s.modCtx n f).dls = s.dls := rfl
@[simp] theorem State.modCtx_mg (s : State) (n : Nat) (f : Context → Context) : (s.modCtx n f).mg = s.mg := rfl
@[simp] theorem State.modCtx_io (s : State) (n : Nat) (f : Context → Context) : (s.modCtx n f).io = s.io := rfl
@[simp] theorem State.modCtx_up (s : State) (n : Nat) (f : Context → Context) : (s.modCtx n f).up = s.up := rfl
@[simp] theorem State.modCtx_now (s : State) (n : Nat) (f : Context → Context) : (s.modCtx n f).now = s.now := rfl
@[simp] theorem State.modCtx_run (s : State) (n : Nat) (f : Context → Context) : (s.modCtx n f).run = s.run := rfl

/-! ### modWg -/

@[simp] theorem State.modWg_mem (s : State) (n : Nat) (f : Workgroup → Workgroup) : (s.modWg n f).mem = s.mem := rfl
@[simp] theorem State.modWg_ths (s : State) (n : Nat) (f : Workgroup → Workgroup) : (s.modWg n f).ths = s.ths := rfl
@[simp] theorem State.modWg_wgs (s : State) (n : Nat) (f : Workgroup → Workgroup) : (s.modWg n f).wgs = kmodify s.wgs n f := rfl
@[simp] theorem State.modWg_launches (s : State) (n : Nat) (f : Workgroup → Workgroup) : (s.modWg n f).launches = s.launches := rfl
@[simp] theorem State.modWg_ctxs (s : State) (n : Nat) (f : Workgroup → Workgroup) : (s.modWg n f).ctxs = s.ctxs := rfl
@[simp] theorem State.modWg_codes (s : State) (n : Nat) (f : Workgroup → Workgroup) : (s.modWg n f).codes = s.codes := rfl
@[simp] theorem State.modWg_fl (s : State) (n : Nat) (f : Workgroup → Workgroup) : (s.modWg n f).fl = s.fl := rfl
@[simp] theorem State.modWg_ch (s : State) (n : Nat) (f : Workgroup → Workgroup) : (s.modWg n f).ch = s.ch := rfl
@[simp] theorem State.modWg_ord (s : State) (n : Nat) (f : Workgroup → Workgroup) : (s.modWg n f).ord = s.ord := rfl
@[simp] theorem State.modWg_dirty (s : State) (n : Nat) (f : Workgroup → Workgroup) : (s.modWg n f).dirty = s.dirty := rfl
@[simp] theorem State.modWg_lk (s : State) (n : Nat) (f : Workgroup → Workgroup) : (s.modWg n f).lk = s.lk := rfl
@[simp] theorem State.modWg_quads (s : State) (n : Nat) (f : Workgroup → Workgroup) : (s.modWg n f).quads = s.quads := rfl
@[simp] theorem State.modWg_cores (s : State) (n : Nat) (f : Workgroup → Workgroup) : (s.modWg n f).cores = s.cores := rfl
@[simp] theorem State.modWg_ccores (s : State) (n : Nat) (f : Workgroup → Workgroup) : (s.modWg n f).ccores = s.ccores := rfl
@[simp] theorem State.modWg_ccLast (s : State) (n : Nat) (f : Workgroup → Workgroup) : (s.modWg n f).ccLast = s.ccLast := rfl
@[simp] theorem State.modWg_queues (s : State) (n : Nat) (f : Workgroup → Workgroup) : (s.modWg n f).queues = s.queues := rfl
@[simp] theorem State.modWg_log (s : State) (n : Nat) (f : Workgroup → Workgroup) : (s.modWg n f).log = s.log := rfl
@[simp] theorem State.modWg_dls (s : State) (n : Nat) (f : Workgroup → Workgroup) : (s.modWg n f).dls = s.dls := rfl
@[simp] theorem State.modWg_mg (s : State) (n : Nat) (f : Workgroup → Workgroup) : (s.modWg n f).mg = s.mg := rfl
@[simp] theorem State.modWg_io (s : State) (n : Nat) (f : Workgroup → Workgroup) : (s.modWg n f).io = s.io := rfl
@[simp] theorem State.modWg_up (s : State) (n : Nat) (f : Workgroup → Workgroup) : (s.modWg n f).up = s.up := rfl
@[simp] theorem State.modWg_now (s : State) (n : Nat) (f : Workgroup → Workgroup) : (s.modWg n f).now = s.now := rfl
@[simp] theorem State.modWg_run (s : State) (n : Nat) (f : Workgroup → Workgroup) : (s.modWg n f).run = s.run := rfl

/-! ### modLaunch -/

@[simp] theorem State.modLaunch_mem (s : State) (n : Nat) (f : Launch → Launch) : (s.modLaunch n f).mem = s.mem := rfl
@[simp] theorem State.modLaunch_ths (s : State) (n : Nat) (f : Launch → Launch) : (s.modLaunch n f).ths = s.ths := rfl
@[simp] theorem State.modLaunch_wgs (s : State) (n : Nat) (f : Launch → Launch) : (s.modLaunch n f).wgs = s.wgs := rfl
@[simp] theorem State.modLaunch_launches (s : State) (n : Nat) (f : Launch → Launch) : (s.modLaunch n f).launches = kmodify s.launches n f := rfl
@[simp] theorem State.modLaunch_ctxs (s : State) (n : Nat) (f : Launch → Launch) : (s.modLaunch n f).ctxs = s.ctxs := rfl
@[simp] theorem State.modLaunch_codes (s : State) (n : Nat) (f : Launch → Launch) : (s.modLaunch n f).codes = s.codes := rfl
@[simp] theorem State.modLaunch_fl (s : State) (n : Nat) (f : Launch → Launch) : (s.modLaunch n f).fl = s.fl := rfl
@[simp] theorem State.modLaunch_ch (s : State) (n : Nat) (f : Launch → Launch) : (s.modLaunch n f).ch = s.ch := rfl
@[simp] theorem State.modLaunch_ord (s : State) (n : Nat) (f : Launch → Launch) : (s.modLaunch n f).ord = s.ord := rfl
@[simp] theorem State.modLaunch_dirty (s : State) (n : Nat) (f : Launch → Launch) : (s.modLaunch n f).dirty = s.dirty := rfl
@[simp] theorem State.modLaunch_lk (s : State) (n : Nat) (f : Launch → Launch) : (s.modLaunch n f).lk = s.lk := rfl
@[simp] theorem State.modLaunch_quads (s : State) (n : Nat) (f : Launch → Launch) : (s.modLaunch n f).quads = s.quads := rfl
@[simp] theorem State.modLaunch_cores (s : State) (n : Nat) (f : Launch → Launch) : (s.modLaunch n f).cores = s.cores := rfl
@[simp] theorem State.modLaunch_ccores (s : State) (n : Nat) (f : Launch → Launch) : (s.modLaunch n f).ccores = s.ccores := rfl
@[simp] theorem State.modLaunch_ccLast (s : State) (n : Nat) (f : Launch → Launch) : (s.modLaunch n f).ccLast = s.ccLast := rfl
@[simp] theorem State.modLaunch_queues (s : State) (n : Nat) (f : Launch → Launch) : (s.modLaunch n f).queues = s.queues := rfl
@[simp] theorem State.modLaunch_log (s : State) (n : Nat) (f : Launch → Launch) : (s.modLaunch n f).log = s.log := rfl
@[simp] theorem State.modLaunch_dls (s : State) (n : Nat) (f : Launch → Launch) : (s.modLaunch n f).dls = s.dls := rfl
@[simp] theorem State.modLaunch_mg (s : State) (n : Nat) (f : Launch → Launch) : (s.modLaunch n f).mg = s.mg := rfl
@[simp] theorem State.modLaunch_io (s : State) (n : Nat) (f : Launch → Launch) : (s.modLaunch n f).io = s.io := rfl
@[simp] theorem State.modLaunch_up (s : State) (n : Nat) (f : Launch → Launch) : (s.modLaunch n f).up = s.up := rfl
@[simp] theorem State.modLaunch_now (s : State) (n : Nat) (f : Launch → Launch) : (s.modLaunch n f).now = s.now := rfl
@[simp] theorem State.modLaunch_run (s : State) (n : Nat) (f : Launch → Launch) : (s.modLaunch n f).run = s.run := rfl

/-! ### modQuad -/

@[simp] theorem State.modQuad_mem (s : State) (n : Nat) (f : Quadrant → Quadrant) : (s.modQuad n f).mem = s.mem := rfl
@[simp] theorem State.modQuad_ths (s : State) (n : Nat) (f : Quadrant → Quadrant) : (s.modQuad n f).ths = s.ths := rfl
@[simp] theorem State.modQuad_wgs (s : State) (n : Nat) (f : Quadrant → Quadrant) : (s.modQuad n f).wgs = s.wgs := rfl
@[simp] theorem State.modQuad_launches (s : State) (n : Nat) (f : Quadrant → Quadrant) : (s.modQuad n f).launches = s.launches := rfl
@[simp] theorem State.modQuad_ctxs (s : State) (n : Nat) (f : Quadrant → Quadrant) : (s.modQuad n f).ctxs = s.ctxs := rfl
@[simp] theorem State.modQuad_codes (s : State) (n : Nat) (f : Quadrant → Quadrant) : (s.modQuad n f).codes = s.codes := rfl
@[simp] theorem State.modQuad_fl (s : State) (n : Nat) (f : Quadrant → Quadrant) : (s.modQuad n f).fl = s.fl := rfl
@[simp] theorem State.modQuad_ch (s : State) (n : Nat) (f : Quadrant → Quadrant) : (s.modQuad n f).ch = s.ch := rfl
@[simp] theorem State.modQuad_ord (s : State) (n : Nat) (f : Quadrant → Quadrant) : (s.modQuad n f).ord = s.ord := rfl
@[simp] theorem State.modQuad_dirty (s : State) (n : Nat) (f : Quadrant → Quadrant) : (s.modQuad n f).dirty = s.dirty := rfl
@[simp] theorem State.modQuad_lk (s : State) (n : Nat) (f : Quadrant → Quadrant) : (s.modQuad n f).lk = s.lk := rfl
@[simp] theorem State.modQuad_quads (s : State) (n : Nat) (f : Quadrant → Quadrant) : (s.modQuad n f).quads = kset s.quads n (f (s.quad n)) := rfl
@[simp] theorem State.modQuad_cores (s : State) (n : Nat) (f : Quadrant → Quadrant) : (s.modQuad n f).cores = s.cores := rfl
@[simp] theorem State.modQuad_ccores (s : State) (n : Nat) (f : Quadrant → Quadrant) : (s.modQuad n f).ccores = s.ccores := rfl
@[simp] theorem State.modQuad_ccLast (s : State) (n : Nat) (f : Quadrant → Quadrant) : (s.modQuad n f).ccLast = s.ccLast := rfl
@[simp] theorem State.modQuad_queues (s : State) (n : Nat) (f : Quadrant → Quadrant) : (s.modQuad n f).queues = s.queues := rfl
@[simp] theorem State.modQuad_log (s : State) (n : Nat) (f : Quadrant → Quadrant) : (s.modQuad n f).log = s.log := rfl
@[simp] theorem State.modQuad_dls (s : State) (n : Nat) (f : Quadrant → Quadrant) : (s.modQuad n f).dls = s.dls := rfl
@[simp] theorem State.modQuad_mg (s : State) (n : Nat) (f : Quadrant → Quadrant) : (s.modQuad n f).mg = s.mg := rfl
@[simp] theorem State.modQuad_io (s : State) (n : Nat) (f : Quadrant → Quadrant) : (s.modQuad n f).io = s.io := rfl
@[simp] theorem State.modQuad_up (s : State) (n : Nat) (f : Quadrant → Quadrant) : (s.modQuad n f).up = s.up := rfl
@[simp] theorem State.modQuad_now (s : State) (n : Nat) (f : Quadrant → Quadrant) : (s.modQuad n f).now = s.now := rfl
@[simp] theorem State.modQuad_run (s : State) (n : Nat) (f : Quadrant → Quadrant) : (s.modQuad n f).run = s.run := rfl

/-! ### modCore -/

@[simp] theorem State.modCore_mem (s : State) (n : Nat) (f : CoreSt → CoreSt) : (s.modCore n f).mem = s.mem := rfl
@[simp] theorem State.modCore_ths (s : State) (n : Nat) (f : CoreSt → CoreSt) : (s.modCore n f).ths = s.ths := rfl
@[simp] theorem State.modCore_wgs (s : State) (n : Nat) (f : CoreSt → CoreSt) : (s.modCore n f).wgs = s.wgs := rfl
@[simp] theorem State.modCore_launches (s : State) (n : Nat) (f : CoreSt → CoreSt) : (s.modCore n f).launches = s.launches := rfl
@[simp] theorem State.modCore_ctxs (s : State) (n : Nat) (f : CoreSt → CoreSt) : (s.modCore n f).ctxs = s.ctxs := rfl
@[simp] theorem State.modCore_codes (s : State) (n : Nat) (f : CoreSt → CoreSt) : (s.modCore n f).codes = s.codes := rfl
@[simp] theorem State.modCore_fl (s : State) (n : Nat) (f : CoreSt → CoreSt) : (s.modCore n f).fl = s.fl := rfl
@[simp] theorem State.modCore_ch (s : State) (n : Nat) (f : CoreSt → CoreSt) : (s.modCore n f).ch = s.ch := rfl
@[simp] theorem State.modCore_ord (s : State) (n : Nat) (f : CoreSt → CoreSt) : (s.modCore n f).ord = s.ord := rfl
@[simp] theorem State.modCore_dirty (s : State) (n : Nat) (f : CoreSt → CoreSt) : (s.modCore n f).dirty = s.dirty := rfl
@[simp] theorem State.modCore_lk (s : State) (n : Nat) (f : CoreSt → CoreSt) : (s.modCore n f).lk = s.lk := rfl
@[simp] theorem State.modCore_quads (s : State) (n : Nat) (f : CoreSt → CoreSt) : (s.modCore n f).quads = s.quads := rfl
@[simp] theorem State.modCore_cores (s : State) (n : Nat) (f : CoreSt → CoreSt) : (s.modCore n f).cores = kset s.cores n (f (s.core n)) := rfl
@[simp] theorem State.modCore_ccores (s : State) (n : Nat) (f : CoreSt → CoreSt) : (s.modCore n f).ccores = s.ccores := rfl
@[simp] theorem State.modCore_ccLast (s : State) (n : Nat) (f : CoreSt → CoreSt) : (s.modCore n f).ccLast = s.ccLast := rfl
@[simp] theorem State.modCore_queues (s : State) (n : Nat) (f : CoreSt → CoreSt) : (s.modCore n f).queues = s.queues := rfl
@[simp] theorem State.modCore_log (s : State) (n : Nat) (f : CoreSt → CoreSt) : (s.modCore n f).log = s.log := rfl
@[simp] theorem State.modCore_dls (s : State) (n : Nat) (f : CoreSt → CoreSt) : (s.modCore n f).dls = s.dls := rfl
@[simp] theorem State.modCore_mg (s : State) (n : Nat) (f : CoreSt → CoreSt) : (s.modCore n f).mg = s.mg := rfl
@[simp] theorem State.modCore_io (s : State) (n : Nat) (f : CoreSt → CoreSt) : (s.modCore n f).io = s.io := rfl
@[simp] theorem State.modCore_up (s : State) (n : Nat) (f : CoreSt → CoreSt) : (s.modCore n f).up = s.up := rfl
@[simp] theorem State.modCore_now (s : State) (n : Nat) (f : CoreSt → CoreSt) : (s.modCore n f).now = s.now := rfl
@[simp] theorem State.modCore_run (s : State) (n : Nat) (f : CoreSt → CoreSt) : (s.modCore n f).run = s.run := rfl

/-! ### modQueue -/

@[simp] theorem State.modQueue_mem (s : State) (n : Nat) (f : Queue → Queue) : (s.modQueue n f).mem = s.mem := rfl
@[simp] theorem State.modQueue_ths (s : State) (n : Nat) (f : Queue → Queue) : (s.modQueue n f).ths = s.ths := rfl
@[simp] theorem State.modQueue_wgs (s : State) (n : Nat) (f : Queue → Queue) : (s.modQueue n f).wgs = s.wgs := rfl
@[simp] theorem State.modQueue_launches (s : State) (n : Nat) (f : Queue → Queue) : (s.modQueue n f).launches = s.launches := rfl
@[simp] theorem State.modQueue_ctxs (s : State) (n : Nat) (f : Queue → Queue) : (s.modQueue n f).ctxs = s.ctxs := rfl
@[simp] theorem State.modQueue_codes (s : State) (n : Nat) (f : Queue → Queue) : (s.modQueue n f).codes = s.codes := rfl
@[simp] theorem State.modQueue_fl (s : State) (n : Nat) (f : Queue → Queue) : (s.modQueue n f).fl = s.fl := rfl
@[simp] theorem State.modQueue_ch (s : State) (n : Nat) (f : Queue → Queue) : (s.modQueue n f).ch = s.ch := rfl
@[simp] theorem State.modQueue_ord (s : State) (n : Nat) (f : Queue → Queue) : (s.modQueue n f).ord = s.ord := rfl
@[simp] theorem State.modQueue_dirty (s : State) (n : Nat) (f : Queue → Queue) : (s.modQueue n f).dirty = s.dirty := rfl
@[simp] theorem State.modQueue_lk (s : State) (n : Nat) (f : Queue → Queue) : (s.modQueue n f).lk = s.lk := rfl
@[simp] theorem State.modQueue_quads (s : State) (n : Nat) (f : Queue → Queue) : (s.modQueue n f).quads = s.quads := rfl
@[simp] theorem State.modQueue_cores (s : State) (n : Nat) (f : Queue → Queue) : (s.modQueue n f).cores = s.cores := rfl
@[simp] theorem State.modQueue_ccores (s : State) (n : Nat) (f : Queue → Queue) : (s.modQueue n f).ccores = s.ccores := rfl
@[simp] theorem State.modQueue_ccLast (s : State) (n : Nat) (f : Queue → Queue) : (s.modQueue n f).ccLast = s.ccLast := rfl
@[simp] theorem State.modQueue_queues (s : State) (n : Nat) (f : Queue → Queue) : (s.modQueue n f).queues = kset s.queues n (f (s.queue n)) := rfl
@[simp] theorem State.modQueue_log (s : State) (n : Nat) (f : Queue → Queue) : (s.modQueue n f).log = s.log := rfl
@[simp] theorem State.modQueue_dls (s : State) (n : Nat) (f : Queue → Queue) : (s.modQueue n f).dls = s.dls := rfl
@[simp] theorem State.modQueue_mg (s : State) (n : Nat) (f : Queue → Queue) : (s.modQueue n f).mg = s.mg := rfl
@[simp] theorem State.modQueue_io (s : State) (n : Nat) (f : Queue → Queue) : (s.modQueue n f).io = s.io := rfl
@[simp] theorem State.modQueue_up (s : State) (n : Nat) (f : Queue → Queue) : (s.modQueue n f).up = s.up := rfl
@[simp] theorem State.modQueue_now (s : State) (n : Nat) (f : Queue → Queue) : (s.modQueue n f).now = s.now := rfl
@[simp] theorem State.modQueue_run (s : State) (n : Nat) (f : Queue → Queue) : (s.modQueue n f).run = s.run := rfl

/-! ### modFlight -/

@[simp] theorem State.modFlight_mem (s : State) (n : Nat) (f : Flight → Flight) : (s.modFlight n f).mem = s.mem := rfl
@[simp] theorem State.modFlight_ths (s : State) (n : Nat) (f : Flight → Flight) : (s.modFlight n f).ths = s.ths := rfl
@[simp] theorem State.modFlight_wgs (s : State) (n : Nat) (f : Flight → Flight) : (s.modFlight n f).wgs = s.wgs := rfl
@[simp] theorem State.modFlight_launches (s : State) (n : Nat) (f : Flight → Flight) : (s.modFlight n f).launches = s.launches := rfl
@[simp] theorem State.modFlight_ctxs (s : State) (n : Nat) (f : Flight → Flight) : (s.modFlight n f).ctxs = s.ctxs := rfl
@[simp] theorem State.modFlight_codes (s : State) (n : Nat) (f : Flight → Flight) : (s.modFlight n f).codes = s.codes := rfl
@[simp] theorem State.modFlight_ch (s : State) (n : Nat) (f : Flight → Flight) : (s.modFlight n f).ch = s.ch := rfl
@[simp] theorem State.modFlight_ord (s : State) (n : Nat) (f : Flight → Flight) : (s.modFlight n f).ord = s.ord := rfl
@[simp] theorem State.modFlight_dirty (s : State) (n : Nat) (f : Flight → Flight) : (s.modFlight n f).dirty = s.dirty := rfl
@[simp] theorem State.modFlight_lk (s : State) (n : Nat) (f : Flight → Flight) : (s.modFlight n f).lk = s.lk := rfl
@[simp] theorem State.modFlight_quads (s : State) (n : Nat) (f : Flight → Flight) : (s.modFlight n f).quads = s.quads := rfl
@[simp] theorem State.modFlight_cores (s : State) (n : Nat) (f : Flight → Flight) : (s.modFlight n f).cores = s.cores := rfl
@[simp] theorem State.modFlight_ccores (s : State) (n : Nat) (f : Flight → Flight) : (s.modFlight n f).ccores = s.ccores := rfl
@[simp] theorem State.modFlight_ccLast (s : State) (n : Nat) (f : Flight → Flight) : (s.modFlight n f).ccLast = s.ccLast := rfl
@[simp] theorem State.modFlight_queues (s : State) (n : Nat) (f : Flight → Flight) : (s.modFlight n f).queues = s.queues := rfl
@[simp] theorem State.modFlight_log (s : State) (n : Nat) (f : Flight → Flight) : (s.modFlight n f).log = s.log := rfl
@[simp] theorem State.modFlight_dls (s : State) (n : Nat) (f : Flight → Flight) : (s.modFlight n f).dls = s.dls := rfl
@[simp] theorem State.modFlight_mg (s : State) (n : Nat) (f : Flight → Flight) : (s.modFlight n f).mg = s.mg := rfl
@[simp] theorem State.modFlight_io (s : State) (n : Nat) (f : Flight → Flight) : (s.modFlight n f).io = s.io := rfl
@[simp] theorem State.modFlight_up (s : State) (n : Nat) (f : Flight → Flight) : (s.modFlight n f).up = s.up := rfl
@[simp] theorem State.modFlight_now (s : State) (n : Nat) (f : Flight → Flight) : (s.modFlight n f).now = s.now := rfl
@[simp] theorem State.modFlight_run (s : State) (n : Nat) (f : Flight → Flight) : (s.modFlight n f).run = s.run := rfl

/-! ### setDirty -/

@[simp] theorem setDirty_ths (s : State) (l : List Nat) : (setDirty s l).ths = s.ths := rfl
@[simp] theorem setDirty_wgs (s : State) (l : List Nat) : (setDirty s l).wgs = s.wgs := rfl
@[simp] theorem setDirty_launches (s : State) (l : List Nat) : (setDirty s l).launches = s.launches := rfl
@[simp] theorem setDirty_ctxs (s : State) (l : List Nat) : (setDirty s l).ctxs = s.ctxs := rfl
@[simp] theorem setDirty_codes (s : State) (l : List Nat) : (setDirty s l).codes = s.codes := rfl
@[simp] theorem setDirty_fl (s : State) (l : List Nat) : (setDirty s l).fl = s.fl := rfl
@[simp] theorem setDirty_ch (s : State) (l : List Nat) : (setDirty s l).ch = s.ch := rfl
@[simp] theorem setDirty_ord (s : State) (l : List Nat) : (setDirty s l).ord = s.ord := rfl
@[simp] theorem setDirty_dirty (s : State) (l : List Nat) : (setDirty s l).dirty = s.dirty := rfl
@[simp] theorem setDirty_lk (s : State) (l : List Nat) : (setDirty s l).lk = s.lk := rfl
@[simp] theorem setDirty_quads (s : State) (l : List Nat) : (setDirty s l).quads = s.quads := rfl
@[simp] theorem setDirty_cores (s : State) (l : List Nat) : (setDirty s l).cores = s.cores := rfl
@[simp] theorem setDirty_ccores (s : State) (l : List Nat) : (setDirty s l).ccores = s.ccores := rfl
@[simp] theorem setDirty_ccLast (s : State) (l : List Nat) : (setDirty s l).ccLast = s.ccLast := rfl
@[simp] theorem setDirty_queues (s : State) (l : List Nat) : (setDirty s l).queues = s.queues := rfl
@[simp] theorem setDirty_log (s : State) (l : List Nat) : (setDirty s l).log = s.log := rfl
@[simp] theorem setDirty_dls (s : State) (l : List Nat) : (setDirty s l).dls = s.dls := rfl
@[simp] theorem setDirty_mg (s : State) (l : List Nat) : (setDirty s l).mg = s.mg := rfl
@[simp] theorem setDirty_io (s : State) (l : List Nat) : (setDirty s l).io = s.io := rfl
@[simp] theorem setDirty_up (s : State) (l : List Nat) : (setDirty s l).up = s.up := rfl
@[simp] theorem setDirty_now (s : State) (l : List Nat) : (setDirty s l).now = s.now := rfl
@[simp] theorem setDirty_run (s : State) (l : List Nat) : (setDirty s l).run = s.run := rfl

/-! ### noteChange -/

@[simp] theorem noteChange_mem (s : State) (a n : Nat) : (noteChange s a n).mem = s.mem := rfl
@[simp] theorem noteChange_ths (s : State) (a n : Nat) : (noteChange s a n).ths = s.ths := rfl
@[simp] theorem noteChange_wgs (s : State) (a n : Nat) : (noteChange s a n).wgs = s.wgs := rfl
@[simp] theorem noteChange_launches (s : State) (a n : Nat) : (noteChange s a n).launches = s.launches := rfl
@[simp] theorem noteChange_ctxs (s : State) (a n : Nat) : (noteChange s a n).ctxs = s.ctxs := rfl
@[simp] theorem noteChange_codes (s : State) (a n : Nat) : (noteChange s a n).codes = s.codes := rfl
@[simp] theorem noteChange_fl (s : State) (a n : Nat) : (noteChange s a n).fl = s.fl := rfl
@[simp] theorem noteChange_ch (s : State) (a n : Nat) : (noteChange s a n).ch = s.ch := rfl
@[simp] theorem noteChange_ord (s : State) (a n : Nat) : (noteChange s a n).ord = s.ord := rfl
@[simp] theorem noteChange_dirty (s : State) (a n : Nat) : (noteChange s a n).dirty = s.dirty := rfl
@[simp] theorem noteChange_lk (s : State) (a n : Nat) : (noteChange s a n).lk = s.lk := rfl
@[simp] theorem noteChange_quads (s : State) (a n : Nat) : (noteChange s a n).quads = s.quads := rfl
@[simp] theorem noteChange_cores (s : State) (a n : Nat) : (noteChange s a n).cores = s.cores := rfl
@[simp] theorem noteChange_ccores (s : State) (a n : Nat) : (noteChange s a n).ccores = s.ccores := rfl
@[simp] theorem noteChange_ccLast (s : State) (a n : Nat) : (noteChange s a n).ccLast = s.ccLast := rfl
@[simp] theorem noteChange_queues (s : State) (a n : Nat) : (noteChange s a n).queues = s.queues := rfl
@[simp] theorem noteChange_log (s : State) (a n : Nat) : (noteChange s a n).log = s.log := rfl
@[simp] theorem noteChange_dls (s : State) (a n : Nat) : (noteChange s a n).dls = s.dls := rfl
@[simp] theorem noteChange_io (s : State) (a n : Nat) : (noteChange s a n).io = s.io := rfl
@[simp] theorem noteChange_up (s : State) (a n : Nat) : (noteChange s a n).up = s.up := rfl
@[simp] theorem noteChange_now (s : State) (a n : Nat) : (noteChange s a n).now = s.now := rfl
@[simp] theorem noteChange_run (s : State) (a n : Nat) : (noteChange s a n).run = s.run := rfl

/-! ### countersChange -/

@[simp] theorem countersChange_mem (s : State) (k : Nat) : (countersChange s k).mem = s.mem := rfl
@[simp] theorem countersChange_ths (s : State) (k : Nat) : (countersChange s k).ths = s.ths := rfl
@[simp] theorem countersChange_wgs (s : State) (k : Nat) : (countersChange s k).wgs = s.wgs := rfl
@[simp] theorem countersChange_launches (s : State) (k : Nat) : (countersChange s k).launches = s.launches := rfl
@[simp] theorem countersChange_ctxs (s : State) (k : Nat) : (countersChange s k).ctxs = s.ctxs := rfl
@[simp] theorem countersChange_codes (s : State) (k : Nat) : (countersChange s k).codes = s.codes := rfl
@[simp] theorem countersChange_fl (s : State) (k : Nat) : (countersChange s k).fl = s.fl := rfl
@[simp] theorem countersChange_ch (s : State) (k : Nat) : (countersChange s k).ch = s.ch := rfl
@[simp] theorem countersChange_ord (s : State) (k : Nat) : (countersChange s k).ord = s.ord := rfl
@[simp] theorem countersChange_dirty (s : State) (k : Nat) : (countersChange s k).dirty = s.dirty := rfl
@[simp] theorem countersChange_lk (s : State) (k : Nat) : (countersChange s k).lk = s.lk := rfl
@[simp] theorem countersChange_quads (s : State) (k : Nat) : (countersChange s k).quads = s.quads := rfl
@[simp] theorem countersChange_cores (s : State) (k : Nat) : (countersChange s k).cores = s.cores := rfl
@[simp] theorem countersChange_ccores (s : State) (k : Nat) : (countersChange s k).ccores = s.ccores := rfl
@[simp] theorem countersChange_ccLast (s : State) (k : Nat) : (countersChange s k).ccLast = s.ccLast := rfl
@[simp] theorem countersChange_queues (s : State) (k : Nat) : (countersChange s k).queues = s.queues := rfl
@[simp] theorem countersChange_log (s : State) (k : Nat) : (countersChange s k).log = s.log := rfl
@[simp] theorem countersChange_dls (s : State) (k : Nat) : (countersChange s k).dls = s.dls := rfl
@[simp] theorem countersChange_io (s : State) (k : Nat) : (countersChange s k).io = s.io := rfl
@[simp] theorem countersChange_up (s : State) (k : Nat) : (countersChange s k).up = s.up := rfl
@[simp] theorem countersChange_now (s : State) (k : Nat) : (countersChange s k).now = s.now := rfl
@[simp] theorem countersChange_run (s : State) (k : Nat) : (countersChange s k).run = s.run := rfl

/-! ### modLink -/

@[simp] theorem modLink_mem (s : State) (n : Nat) (f : DieLink → DieLink) : (modLink s n f).mem = s.mem := rfl
@[simp] theorem modLink_ths (s : State) (n : Nat) (f : DieLink → DieLink) : (modLink s n f).ths = s.ths := rfl
@[simp] theorem modLink_wgs (s : State) (n : Nat) (f : DieLink → DieLink) : (modLink s n f).wgs = s.wgs := rfl
@[simp] theorem modLink_launches (s : State) (n : Nat) (f : DieLink → DieLink) : (modLink s n f).launches = s.launches := rfl
@[simp] theorem modLink_ctxs (s : State) (n : Nat) (f : DieLink → DieLink) : (modLink s n f).ctxs = s.ctxs := rfl
@[simp] theorem modLink_codes (s : State) (n : Nat) (f : DieLink → DieLink) : (modLink s n f).codes = s.codes := rfl
@[simp] theorem modLink_fl (s : State) (n : Nat) (f : DieLink → DieLink) : (modLink s n f).fl = s.fl := rfl
@[simp] theorem modLink_ch (s : State) (n : Nat) (f : DieLink → DieLink) : (modLink s n f).ch = s.ch := rfl
@[simp] theorem modLink_ord (s : State) (n : Nat) (f : DieLink → DieLink) : (modLink s n f).ord = s.ord := rfl
@[simp] theorem modLink_dirty (s : State) (n : Nat) (f : DieLink → DieLink) : (modLink s n f).dirty = s.dirty := rfl
@[simp] theorem modLink_lk (s : State) (n : Nat) (f : DieLink → DieLink) : (modLink s n f).lk = s.lk := rfl
@[simp] theorem modLink_quads (s : State) (n : Nat) (f : DieLink → DieLink) : (modLink s n f).quads = s.quads := rfl
@[simp] theorem modLink_cores (s : State) (n : Nat) (f : DieLink → DieLink) : (modLink s n f).cores = s.cores := rfl
@[simp] theorem modLink_ccores (s : State) (n : Nat) (f : DieLink → DieLink) : (modLink s n f).ccores = s.ccores := rfl
@[simp] theorem modLink_ccLast (s : State) (n : Nat) (f : DieLink → DieLink) : (modLink s n f).ccLast = s.ccLast := rfl
@[simp] theorem modLink_queues (s : State) (n : Nat) (f : DieLink → DieLink) : (modLink s n f).queues = s.queues := rfl
@[simp] theorem modLink_log (s : State) (n : Nat) (f : DieLink → DieLink) : (modLink s n f).log = s.log := rfl
@[simp] theorem modLink_dls (s : State) (n : Nat) (f : DieLink → DieLink) : (modLink s n f).dls = s.dls := rfl
@[simp] theorem modLink_mg (s : State) (n : Nat) (f : DieLink → DieLink) : (modLink s n f).mg = s.mg := rfl
@[simp] theorem modLink_up (s : State) (n : Nat) (f : DieLink → DieLink) : (modLink s n f).up = s.up := rfl
@[simp] theorem modLink_now (s : State) (n : Nat) (f : DieLink → DieLink) : (modLink s n f).now = s.now := rfl
@[simp] theorem modLink_run (s : State) (n : Nat) (f : DieLink → DieLink) : (modLink s n f).run = s.run := rfl

/-! ### setDir -/

@[simp] theorem setDir_mem (s : State) (pa v : Nat) : (setDir s pa v).mem = s.mem := rfl
@[simp] theorem setDir_ths (s : State) (pa v : Nat) : (setDir s pa v).ths = s.ths := rfl
@[simp] theorem setDir_wgs (s : State) (pa v : Nat) : (setDir s pa v).wgs = s.wgs := rfl
@[simp] theorem setDir_launches (s : State) (pa v : Nat) : (setDir s pa v).launches = s.launches := rfl
@[simp] theorem setDir_ctxs (s : State) (pa v : Nat) : (setDir s pa v).ctxs = s.ctxs := rfl
@[simp] theorem setDir_codes (s : State) (pa v : Nat) : (setDir s pa v).codes = s.codes := rfl
@[simp] theorem setDir_fl (s : State) (pa v : Nat) : (setDir s pa v).fl = s.fl := rfl
@[simp] theorem setDir_ord (s : State) (pa v : Nat) : (setDir s pa v).ord = s.ord := rfl
@[simp] theorem setDir_dirty (s : State) (pa v : Nat) : (setDir s pa v).dirty = s.dirty := rfl
@[simp] theorem setDir_lk (s : State) (pa v : Nat) : (setDir s pa v).lk = s.lk := rfl
@[simp] theorem setDir_quads (s : State) (pa v : Nat) : (setDir s pa v).quads = s.quads := rfl
@[simp] theorem setDir_cores (s : State) (pa v : Nat) : (setDir s pa v).cores = s.cores := rfl
@[simp] theorem setDir_ccores (s : State) (pa v : Nat) : (setDir s pa v).ccores = s.ccores := rfl
@[simp] theorem setDir_ccLast (s : State) (pa v : Nat) : (setDir s pa v).ccLast = s.ccLast := rfl
@[simp] theorem setDir_queues (s : State) (pa v : Nat) : (setDir s pa v).queues = s.queues := rfl
@[simp] theorem setDir_log (s : State) (pa v : Nat) : (setDir s pa v).log = s.log := rfl
@[simp] theorem setDir_dls (s : State) (pa v : Nat) : (setDir s pa v).dls = s.dls := rfl
@[simp] theorem setDir_mg (s : State) (pa v : Nat) : (setDir s pa v).mg = s.mg := rfl
@[simp] theorem setDir_io (s : State) (pa v : Nat) : (setDir s pa v).io = s.io := rfl
@[simp] theorem setDir_up (s : State) (pa v : Nat) : (setDir s pa v).up = s.up := rfl
@[simp] theorem setDir_now (s : State) (pa v : Nat) : (setDir s pa v).now = s.now := rfl
@[simp] theorem setDir_run (s : State) (pa v : Nat) : (setDir s pa v).run = s.run := rfl

/-! ### newId -/

@[simp] theorem State.newId_mem (s : State) : s.newId.2.mem = s.mem := rfl
@[simp] theorem State.newId_ths (s : State) : s.newId.2.ths = s.ths := rfl
@[simp] theorem State.newId_wgs (s : State) : s.newId.2.wgs = s.wgs := rfl
@[simp] theorem State.newId_launches (s : State) : s.newId.2.launches = s.launches := rfl
@[simp] theorem State.newId_ctxs (s : State) : s.newId.2.ctxs = s.ctxs := rfl
@[simp] theorem State.newId_codes (s : State) : s.newId.2.codes = s.codes := rfl
@[simp] theorem State.newId_fl (s : State) : s.newId.2.fl = s.fl := rfl
@[simp] theorem State.newId_ch (s : State) : s.newId.2.ch = s.ch := rfl
@[simp] theorem State.newId_ord (s : State) : s.newId.2.ord = s.ord := rfl
@[simp] theorem State.newId_dirty (s : State) : s.newId.2.dirty = s.dirty := rfl
@[simp] theorem State.newId_lk (s : State) : s.newId.2.lk = s.lk := rfl
@[simp] theorem State.newId_quads (s : State) : s.newId.2.quads = s.quads := rfl
@[simp] theorem State.newId_cores (s : State) : s.newId.2.cores = s.cores := rfl
@[simp] theorem State.newId_ccores (s : State) : s.newId.2.ccores = s.ccores := rfl
@[simp] theorem State.newId_ccLast (s : State) : s.newId.2.ccLast = s.ccLast := rfl
@[simp] theorem State.newId_queues (s : State) : s.newId.2.queues = s.queues := rfl
@[simp] theorem State.newId_log (s : State) : s.newId.2.log = s.log := rfl
@[simp] theorem State.newId_dls (s : State) : s.newId.2.dls = s.dls := rfl
@[simp] theorem State.newId_mg (s : State) : s.newId.2.mg = s.mg := rfl
@[simp] theorem State.newId_io (s : State) : s.newId.2.io = s.io := rfl
@[simp] theorem State.newId_up (s : State) : s.newId.2.up = s.up := rfl
@[simp] theorem State.newId_now (s : State) : s.newId.2.now = s.now := rfl
@[simp] theorem State.newId_agenda (s : State) : s.newId.2.run.agenda = s.run.agenda := rfl
@[simp] theorem State.newId_cur (s : State) : s.newId.2.run.cur = s.run.cur := rfl

/-! ### freeNat -/

@[simp] theorem State.freeNat_mem (s : State) : s.freeNat.2.mem = s.mem := rfl
@[simp] theorem State.freeNat_ths (s : State) : s.freeNat.2.ths = s.ths := rfl
@[simp] theorem State.freeNat_wgs (s : State) : s.freeNat.2.wgs = s.wgs := rfl
@[simp] theorem State.freeNat_launches (s : State) : s.freeNat.2.launches = s.launches := rfl
@[simp] theorem State.freeNat_ctxs (s : State) : s.freeNat.2.ctxs = s.ctxs := rfl
@[simp] theorem State.freeNat_codes (s : State) : s.freeNat.2.codes = s.codes := rfl
@[simp] theorem State.freeNat_fl (s : State) : s.freeNat.2.fl = s.fl := rfl
@[simp] theorem State.freeNat_ch (s : State) : s.freeNat.2.ch = s.ch := rfl
@[simp] theorem State.freeNat_ord (s : State) : s.freeNat.2.ord = s.ord := rfl
@[simp] theorem State.freeNat_dirty (s : State) : s.freeNat.2.dirty = s.dirty := rfl
@[simp] theorem State.freeNat_lk (s : State) : s.freeNat.2.lk = s.lk := rfl
@[simp] theorem State.freeNat_quads (s : State) : s.freeNat.2.quads = s.quads := rfl
@[simp] theorem State.freeNat_cores (s : State) : s.freeNat.2.cores = s.cores := rfl
@[simp] theorem State.freeNat_ccores (s : State) : s.freeNat.2.ccores = s.ccores := rfl
@[simp] theorem State.freeNat_ccLast (s : State) : s.freeNat.2.ccLast = s.ccLast := rfl
@[simp] theorem State.freeNat_queues (s : State) : s.freeNat.2.queues = s.queues := rfl
@[simp] theorem State.freeNat_log (s : State) : s.freeNat.2.log = s.log := rfl
@[simp] theorem State.freeNat_dls (s : State) : s.freeNat.2.dls = s.dls := rfl
@[simp] theorem State.freeNat_mg (s : State) : s.freeNat.2.mg = s.mg := rfl
@[simp] theorem State.freeNat_io (s : State) : s.freeNat.2.io = s.io := rfl
@[simp] theorem State.freeNat_up (s : State) : s.freeNat.2.up = s.up := rfl
@[simp] theorem State.freeNat_now (s : State) : s.freeNat.2.now = s.now := rfl
@[simp] theorem State.freeNat_agenda (s : State) : s.freeNat.2.run.agenda = s.run.agenda := rfl
@[simp] theorem State.freeNat_cur (s : State) : s.freeNat.2.run.cur = s.run.cur := rfl

/-! ### freeBool -/

@[simp] theorem State.freeBool_mem (s : State) : s.freeBool.2.mem = s.mem := rfl
@[simp] theorem State.freeBool_ths (s : State) : s.freeBool.2.ths = s.ths := rfl
@[simp] theorem State.freeBool_wgs (s : State) : s.freeBool.2.wgs = s.wgs := rfl
@[simp] theorem State.freeBool_launches (s : State) : s.freeBool.2.launches = s.launches := rfl
@[simp] theorem State.freeBool_ctxs (s : State) : s.freeBool.2.ctxs = s.ctxs := rfl
@[simp] theorem State.freeBool_codes (s : State) : s.freeBool.2.codes = s.codes := rfl
@[simp] theorem State.freeBool_fl (s : State) : s.freeBool.2.fl = s.fl := rfl
@[simp] theorem State.freeBool_ch (s : State) : s.freeBool.2.ch = s.ch := rfl
@[simp] theorem State.freeBool_ord (s : State) : s.freeBool.2.ord = s.ord := rfl
@[simp] theorem State.freeBool_dirty (s : State) : s.freeBool.2.dirty = s.dirty := rfl
@[simp] theorem State.freeBool_lk (s : State) : s.freeBool.2.lk = s.lk := rfl
@[simp] theorem State.freeBool_quads (s : State) : s.freeBool.2.quads = s.quads := rfl
@[simp] theorem State.freeBool_cores (s : State) : s.freeBool.2.cores = s.cores := rfl
@[simp] theorem State.freeBool_ccores (s : State) : s.freeBool.2.ccores = s.ccores := rfl
@[simp] theorem State.freeBool_ccLast (s : State) : s.freeBool.2.ccLast = s.ccLast := rfl
@[simp] theorem State.freeBool_queues (s : State) : s.freeBool.2.queues = s.queues := rfl
@[simp] theorem State.freeBool_log (s : State) : s.freeBool.2.log = s.log := rfl
@[simp] theorem State.freeBool_dls (s : State) : s.freeBool.2.dls = s.dls := rfl
@[simp] theorem State.freeBool_mg (s : State) : s.freeBool.2.mg = s.mg := rfl
@[simp] theorem State.freeBool_io (s : State) : s.freeBool.2.io = s.io := rfl
@[simp] theorem State.freeBool_up (s : State) : s.freeBool.2.up = s.up := rfl
@[simp] theorem State.freeBool_now (s : State) : s.freeBool.2.now = s.now := rfl
@[simp] theorem State.freeBool_agenda (s : State) : s.freeBool.2.run.agenda = s.run.agenda := rfl
@[simp] theorem State.freeBool_cur (s : State) : s.freeBool.2.run.cur = s.run.cur := rfl

/-! ### Parts of a thread -/

@[simp] theorem Strand.setSlot_pl (t : Strand) (k : Nat) (v : PcSlot) : (t.setSlot k v).pl = t.pl := rfl
@[simp] theorem Strand.setSlot_rg (t : Strand) (k : Nat) (v : PcSlot) : (t.setSlot k v).rg = t.rg := rfl
@[simp] theorem Strand.setSlot_ln (t : Strand) (k : Nat) (v : PcSlot) : (t.setSlot k v).ln = t.ln := rfl
@[simp] theorem Strand.setSlot_qn (t : Strand) (k : Nat) (v : PcSlot) : (t.setSlot k v).qn = t.qn := rfl
@[simp] theorem Strand.setSlot_ct (t : Strand) (k : Nat) (v : PcSlot) : (t.setSlot k v).ct = t.ct := rfl
@[simp] theorem Strand.setSlot_access (t : Strand) (k : Nat) (v : PcSlot) : (t.setSlot k v).access = t.access := rfl
@[simp] theorem Strand.setSlot_fqs (t : Strand) (k : Nat) (v : PcSlot) : (t.setSlot k v).fqs = t.fqs := rfl

@[simp] theorem Strand.setGrp_pl (t : Strand) (k : Nat) (g : Option Group) : (t.setGrp k g).pl = t.pl := rfl
@[simp] theorem Strand.setGrp_rg (t : Strand) (k : Nat) (g : Option Group) : (t.setGrp k g).rg = t.rg := rfl
@[simp] theorem Strand.setGrp_ln (t : Strand) (k : Nat) (g : Option Group) : (t.setGrp k g).ln = t.ln := rfl
@[simp] theorem Strand.setGrp_qn (t : Strand) (k : Nat) (g : Option Group) : (t.setGrp k g).qn = t.qn := rfl
@[simp] theorem Strand.setGrp_ct (t : Strand) (k : Nat) (g : Option Group) : (t.setGrp k g).ct = t.ct := rfl
@[simp] theorem Strand.setGrp_access (t : Strand) (k : Nat) (g : Option Group) : (t.setGrp k g).access = t.access := rfl
@[simp] theorem Strand.setGrp_fqs (t : Strand) (k : Nat) (g : Option Group) : (t.setGrp k g).fqs = t.fqs := rfl

@[simp] theorem Strand.setFrame_pl (t : Strand) (l : Nat) (f : LaneFrame) : (t.setFrame l f).pl = t.pl := rfl
@[simp] theorem Strand.setFrame_ps (t : Strand) (l : Nat) (f : LaneFrame) : (t.setFrame l f).ps = t.ps := rfl
@[simp] theorem Strand.setFrame_ln (t : Strand) (l : Nat) (f : LaneFrame) : (t.setFrame l f).ln = t.ln := rfl
@[simp] theorem Strand.setFrame_qn (t : Strand) (l : Nat) (f : LaneFrame) : (t.setFrame l f).qn = t.qn := rfl
@[simp] theorem Strand.setFrame_ct (t : Strand) (l : Nat) (f : LaneFrame) : (t.setFrame l f).ct = t.ct := rfl
@[simp] theorem Strand.setFrame_access (t : Strand) (l : Nat) (f : LaneFrame) : (t.setFrame l f).access = t.access := rfl
@[simp] theorem Strand.setFrame_fqs (t : Strand) (l : Nat) (f : LaneFrame) : (t.setFrame l f).fqs = t.fqs := rfl

@[simp] theorem Strand.slot_setSlot_zero (t : Strand) (v : PcSlot) : (t.setSlot 0 v).slot 0 = v := rfl

@[simp] theorem Strand.slot_setSlot_one (t : Strand) (v : PcSlot) : (t.setSlot 1 v).slot 1 = v := rfl

/-- Setting a slot and reading it back. -/
theorem Strand.slot_setSlot (t : Strand) (k : Nat) (v : PcSlot) : (t.setSlot k v).slot k = v := by
  by_cases h : k = 0 <;> simp [Strand.slot, Strand.setSlot, h]

/-- Setting one slot leaves the other. -/
theorem Strand.slot_setSlot_other (t : Strand) (j k : Nat) (v : PcSlot) (h : (j = 0) ≠ (k = 0)) : (t.setSlot k v).slot j = t.slot j := by
  by_cases hj : j = 0 <;> by_cases hk : k = 0 <;> simp_all [Strand.slot, Strand.setSlot]

/-! ### Ends of a link -/

/-- Setting an end of a link and reading it back. -/
@[simp] theorem DieLink.end_setEnd (l : DieLink) (k : Nat) (e : DieEnd) : (l.setEnd k e).end_ k = e := by
  by_cases h : k % 2 = 0 <;> simp [DieLink.end_, DieLink.setEnd, h]

@[simp] theorem DieLink.setEnd_disabled (l : DieLink) (k : Nat) (e : DieEnd) : (l.setEnd k e).disabled = l.disabled := by
  unfold DieLink.setEnd
  split <;> rfl

@[simp] theorem DieLink.setEnd_credits (l : DieLink) (k : Nat) (e : DieEnd) : (l.setEnd k e).credits = l.credits := by
  unfold DieLink.setEnd
  split <;> rfl

@[simp] theorem DieLink.setEnd_pend (l : DieLink) (k : Nat) (e : DieEnd) : (l.setEnd k e).pend = l.pend := by
  unfold DieLink.setEnd
  split <;> rfl

end Sys2Proof.Machine
end

