-- ==== Sys2Proof/Laws/Mem.lean ====
section
/-!
SUPPORT. Memory: what a byte reads as after each operation, and that every operation keeps the one canonical form.
-/

namespace Sys2Proof.Machine

/-! ### The form -/

/-- The canonical form, by its two halves. -/
theorem Memory.wf_iff {m : List Host.Cell} : Memory.wf m = true ↔ kordered m = true ∧ ∀ e ∈ m, e.2 ≠ emptyByte := by
  simp [Memory.wf]

/-- Memory right after reset has the form. -/
theorem Memory.wf_reset : Memory.wf State.reset.mem = true := by decide

/-- Memory that lists nothing reads as zero. -/
@[simp] theorem memGet_nil (a : Nat) : memGet [] a = 0 := rfl

/-- Two memories of the form with the same bytes are the same list. -/
theorem Memory.ext {m n : List Host.Cell} (hm : Memory.wf m = true) (hn : Memory.wf n = true) (h : ∀ a, memGet m a = memGet n a) :
    m = n := by
  rw [Memory.wf_iff] at hm hn
  induction m generalizing n with
  | nil =>
    cases n with
    | nil => rfl
    | cons e n =>
      obtain ⟨k, v⟩ := e
      have := h k
      simp only [memGet, kgetD, kget?, if_pos] at this
      exact absurd this.symm (hn.2 (k, v) (by simp))
  | cons d m ih =>
    obtain ⟨j, u⟩ := d
    cases n with
    | nil =>
      have := h j
      simp only [memGet, kgetD, kget?, if_pos] at this
      exact absurd this (hm.2 (j, u) (by simp))
    | cons e n =>
      obtain ⟨k, v⟩ := e
      have hlt : ¬ j < k := by
        intro hj
        have := h j
        have h1 : j ≠ k := by omega
        simp only [memGet, kgetD, kget?, if_pos, if_neg h1, if_pos hj] at this
        exact hm.2 (j, u) (by simp) this
      have hgt : ¬ k < j := by
        intro hk
        have := h k
        have h1 : k ≠ j := by omega
        simp only [memGet, kgetD, kget?, if_pos, if_neg h1, if_pos hk] at this
        exact hn.2 (k, v) (by simp) this.symm
      have hjk : j = k := by omega
      subst hjk
      have huv : u = v := by
        have := h j
        simpa [memGet, kgetD, kget?] using this
      subst huv
      have om := kordered_cons_iff.mp hm.1
      have on := kordered_cons_iff.mp hn.1
      congr 1
      refine ih ⟨om.1, fun e he => hm.2 e (List.mem_cons_of_mem _ he)⟩ ⟨on.1, fun e he => hn.2 e (List.mem_cons_of_mem _ he)⟩ ?_
      intro a
      have := h a
      by_cases ha : a = j
      · subst ha
        simp [memGet, kgetD, kget?_none_of_lt om.2, kget?_none_of_lt on.2]
      · by_cases hl : a < j
        · simp [memGet, kgetD, kget?_none_of_lt (fun e he => Nat.lt_trans hl (om.2 e he)),
            kget?_none_of_lt (fun e he => Nat.lt_trans hl (on.2 e he))]
        · simpa [memGet, kgetD, kget?, ha, hl] using this

/-! ### One byte -/

/-- A write of a byte reads back, and leaves every other byte. -/
theorem memGet_memSet {m : List Host.Cell} (h : Memory.wf m = true) (a b : Nat) (v : Byte) :
    memGet (memSet m a v) b = if b = a then v else memGet m b := kgetD_ksetD (Memory.wf_iff.mp h).1 a b v emptyByte

/-- A write of a byte leaves every other byte, whatever the memory's form. -/
theorem memGet_memSet_kept {m : List Host.Cell} {a b : Nat} (v : Byte) (hb : b ≠ a) (hm : memGet m b ≠ 0) :
    memGet (memSet m a v) b = memGet m b := by
  unfold memSet ksetD
  unfold memGet kgetD at hm ⊢
  split
  · cases hk : kget? m b with
    | none => rw [hk] at hm; exact absurd rfl hm
    | some w => rw [kget?_kdel_some hb hk]
  · rw [kget?_kset_ne m v hb]

/-- A write of a byte keeps the form. -/
theorem Memory.wf_memSet {m : List Host.Cell} (h : Memory.wf m = true) (a : Nat) (v : Byte) : Memory.wf (memSet m a v) = true := by
  rw [Memory.wf_iff] at h ⊢
  exact ⟨kordered_ksetD h.1 a v emptyByte, ksetD_ne_default h.2⟩

/-! ### Several bytes -/

/-- Writes of bytes keep the form. -/
theorem Memory.wf_memSets {m : List Host.Cell} (h : Memory.wf m = true) (ws : List Host.Cell) : Memory.wf (memSets m ws) = true := by
  induction ws generalizing m with
  | nil => exact h
  | cons w ws ih => exact ih (Memory.wf_memSet h w.1 w.2)

/-- Writes of bytes leave every address that they do not name. -/
theorem memGet_memSets_other {m : List Host.Cell} (h : Memory.wf m = true) (ws : List Host.Cell) {a : Nat} (ha : ∀ w ∈ ws, w.1 ≠ a) :
    memGet (memSets m ws) a = memGet m a := by
  induction ws generalizing m with
  | nil => rfl
  | cons w ws ih =>
    obtain ⟨b, v⟩ := w
    have hb : a ≠ b := fun e => ha (b, v) (by simp) e.symm
    show memGet (memSets (memSet m b v) ws) a = memGet m a
    rw [ih (Memory.wf_memSet h b v) (fun w hw => ha w (List.mem_cons_of_mem _ hw)), memGet_memSet h, if_neg hb]

/-- A byte written at an address that no later write names reads back. -/
theorem memGet_memSets_of_nodup {m : List Host.Cell} (h : Memory.wf m = true) (ws : List Host.Cell)
    (hn : (ws.map (·.1)).Nodup) {a : Nat} {v : Byte} (hw : (a, v) ∈ ws) : memGet (memSets m ws) a = v := by
  induction ws generalizing m with
  | nil => simp at hw
  | cons w ws ih =>
    obtain ⟨b, u⟩ := w
    simp only [List.map, List.nodup_cons] at hn
    show memGet (memSets (memSet m b u) ws) a = v
    rcases List.mem_cons.mp hw with hw | hw
    · injection hw with h1 h2
      subst h1; subst h2
      rw [memGet_memSets_other (Memory.wf_memSet h a v) ws (fun w hw e => hn.1 (List.mem_map.mpr ⟨w, hw, e⟩)), memGet_memSet h, if_pos rfl]
    · exact ih (Memory.wf_memSet h b u) hn.2 hw

/-- Writes of little-endian values keep the form. -/
theorem Memory.wf_memPut {m : List Host.Cell} (h : Memory.wf m = true) (a n v : Nat) : Memory.wf (memPut m a n v) = true :=
  Memory.wf_memSets h _

/-- Writes under a mask keep the form. -/
theorem Memory.wf_memMask {m : List Host.Cell} (h : Memory.wf m = true) (a n mask d : Nat) : Memory.wf (memMask m a n mask d) = true :=
  Memory.wf_memPut h a n _

/-- Dropping bytes keeps the form. -/
theorem Memory.wf_filter {m : List Host.Cell} (h : Memory.wf m = true) (p : Host.Cell → Bool) : Memory.wf (m.filter p) = true := by
  rw [Memory.wf_iff] at h ⊢
  exact ⟨kordered_filter h.1 p, fun e he => h.2 e (List.mem_filter.mp he).1⟩

/-- What a byte reads as once the addresses that a test refuses are dropped. -/
theorem memGet_filter {m : List Host.Cell} (h : Memory.wf m = true) (p : Nat → Bool) (a : Nat) :
    memGet (m.filter (fun e => p e.1)) a = if p a then memGet m a else 0 := by
  have ho := (Memory.wf_iff.mp h).1
  have hf := kordered_filter ho (fun e => p e.1)
  unfold memGet kgetD
  cases hk : kget? m a with
  | none =>
    cases hg : kget? (m.filter (fun e => p e.1)) a with
    | none => simp [emptyByte]
    | some v =>
      have := kget?_of_mem ho (List.mem_filter.mp (mem_of_kget? hg)).1
      rw [hk] at this; cases this
  | some v =>
    have hm := mem_of_kget? hk
    cases hp : p a with
    | true => rw [kget?_of_mem hf (List.mem_filter.mpr ⟨hm, by simpa using hp⟩)]; rfl
    | false =>
      cases hg : kget? (m.filter (fun e => p e.1)) a with
      | none => simp [emptyByte]
      | some w =>
        have := (List.mem_filter.mp (mem_of_kget? hg)).2
        simp [hp] at this

/-- Ordered maps whose keys lie one below the other join to an ordered map. -/
theorem kordered_append {α : Type} {m n : KMap α} (hm : kordered m = true) (hn : kordered n = true)
    (h : ∀ d ∈ m, ∀ e ∈ n, d.1 < e.1) : kordered (m ++ n) = true := by
  induction m with
  | nil => exact hn
  | cons d m ih =>
    obtain ⟨k, w⟩ := d
    rw [kordered_cons_iff] at hm
    refine kordered_cons (ih hm.1 (fun d hd => h d (List.mem_cons_of_mem _ hd))) ?_
    intro e he
    rcases List.mem_append.mp he with he | he
    · exact hm.2 e he
    · exact h (k, w) (by simp) e he

/-- Values placed on rising addresses are an ordered map. -/
theorem kordered_zip_range {α : Type} (lo : Nat) (n : Nat) (bs : List α) :
    kordered ((rangeFrom lo (lo + n)).zip bs) = true ∧ ∀ e ∈ (rangeFrom lo (lo + n)).zip bs, lo ≤ e.1 ∧ e.1 < lo + n := by
  have key : ∀ (n lo : Nat) (bs : List α), kordered (((List.range n).map (· + lo)).zip bs) = true ∧
      ∀ e ∈ ((List.range n).map (· + lo)).zip bs, lo ≤ e.1 ∧ e.1 < lo + n := by
    intro n
    induction n with
    | zero => intro lo bs; simp [kordered]
    | succ n ih =>
      intro lo bs
      cases bs with
      | nil => simp [kordered]
      | cons b bs =>
        have hr : (List.range (n + 1)).map (· + lo) = lo :: (List.range n).map (· + (lo + 1)) := by
          rw [List.range_succ_eq_map]
          simp [List.map_map, Function.comp_def, Nat.add_assoc, Nat.add_comm 1 lo]
        rw [hr, List.zip_cons_cons]
        have := ih (lo + 1) bs
        refine ⟨kordered_cons this.1 (fun e he => by have := this.2 e he; omega), ?_⟩
        intro e he
        rcases List.mem_cons.mp he with rfl | he
        · exact ⟨Nat.le_refl _, by simp only; omega⟩
        · have := this.2 e he; omega
  have := key n lo bs
  unfold rangeFrom
  rwa [Nat.add_sub_cancel_left]

/-- A block written over a range keeps the form. -/
theorem Memory.wf_memBlock {m : List Host.Cell} (h : Memory.wf m = true) (pa : Nat) (bs : List Byte) :
    Memory.wf (memBlock m pa bs) = true := by
  rw [Memory.wf_iff] at h ⊢
  obtain ⟨ho, hv⟩ := h
  have hz := kordered_zip_range pa bs.length bs
  unfold memBlock
  refine ⟨?_, ?_⟩
  · refine kordered_append (kordered_append (kordered_filter ho _) (kordered_filter hz.1 _) ?_) (kordered_filter ho _) ?_
    · intro d hd e he
      have h1 := (List.mem_filter.mp hd).2
      have h2 := hz.2 e (List.mem_filter.mp he).1
      simp only [decide_eq_true_eq] at h1
      omega
    · intro d hd e he
      have h2 := (List.mem_filter.mp he).2
      simp only [decide_eq_true_eq] at h2
      rcases List.mem_append.mp hd with hd | hd
      · have h1 := (List.mem_filter.mp hd).2
        simp only [decide_eq_true_eq] at h1
        omega
      · have h1 := hz.2 d (List.mem_filter.mp hd).1
        omega
  · intro e he
    rcases List.mem_append.mp he with he | he
    · rcases List.mem_append.mp he with he | he
      · exact hv e (List.mem_filter.mp he).1
      · have := (List.mem_filter.mp he).2
        simpa using this
    · exact hv e (List.mem_filter.mp he).1

/-! ### Operations of the machine -/

/-- The accessed bit of a leaf keeps the form. -/
theorem Memory.wf_setAccessed {m : List Host.Cell} (h : Memory.wf m = true) (l : Leaf) : Memory.wf (setAccessed m l) = true :=
  Memory.wf_memSet h _ _

/-- Dirty bits keep the form. -/
theorem Memory.wf_setDirty {s : State} (h : Memory.wf s.mem = true) (l : List Nat) : Memory.wf (setDirty s l).mem = true := by
  unfold setDirty
  show Memory.wf (l.foldl (fun m a => memSet m a (memGet m a ||| 0x40#8)) s.mem) = true
  generalize s.mem = m at h
  induction l generalizing m with
  | nil => exact h
  | cons a l ih => exact ih _ (Memory.wf_memSet h a _)

/-- Zero-filling a range keeps the form. -/
theorem Memory.wf_zeroRange {s : State} (h : Memory.wf s.mem = true) (lo n : Nat) : Memory.wf (zeroRange s lo n).mem = true :=
  Memory.wf_filter h _

/-- A zero-filled range reads as zero, and every other address as before. -/
theorem memGet_zeroRange {s : State} (h : Memory.wf s.mem = true) (lo n a : Nat) :
    memGet (zeroRange s lo n).mem a = if lo ≤ a ∧ a < lo + n then 0 else memGet s.mem a := by
  have := memGet_filter h (fun b => b < lo || lo + n ≤ b) a
  show memGet (s.mem.filter (fun e => e.1 < lo || lo + n ≤ e.1)) a = _
  rw [this]
  by_cases h1 : lo ≤ a ∧ a < lo + n
  · have : ¬ (a < lo ∨ lo + n ≤ a) := by omega
    rw [if_pos h1, if_neg (by simpa using this)]
  · have : a < lo ∨ lo + n ≤ a := by omega
    rw [if_neg h1, if_pos (by simpa using this)]

/-- A translation keeps the form: it changes at most an accessed bit. -/
theorem Memory.wf_translate {s : State} (h : Memory.wf s.mem = true) (c va : Nat) : Memory.wf (translate s c va).2.mem = true := by
  unfold translate
  dsimp only
  split <;> (try split) <;> (try split) <;> (try split) <;>
    first | exact h | exact Memory.wf_setAccessed h _

/-- A walk of the device keeps the form: it changes at most an accessed bit. -/
theorem Memory.wf_walkSet {s : State} (h : Memory.wf s.mem = true) (c va : Nat) : Memory.wf (walkSet s c va).2.mem = true := by
  unfold walkSet
  split
  · exact h
  · exact Memory.wf_setAccessed h _

/-- Sending a message changes links and messages, and nothing else. -/
theorem send_frame (s : State) (m : NgMsg) :
    send s m = { s with io := { s.io with dies := (send s m).io.dies, sent := (send s m).io.sent, outbox := (send s m).io.outbox } } := by
  unfold send
  split <;> rfl

/-- A snoop changes links and messages, and nothing else. -/
theorem snoop_frame (s : State) (n : Nat) :
    snoop s n = { s with io := { s.io with dies := (snoop s n).io.dies, sent := (snoop s n).io.sent, outbox := (snoop s n).io.outbox } } := by
  unfold snoop
  dsimp only
  split
  · rfl
  · rw [send_frame]; rfl

/-- What writes bytes at their homes does so where the other compute die holds no copy of their lines; else only snoops go out (R400). -/
theorem atHome_cases (s : State) (pas : List Nat) (done : State) :
    (copiesOf s pas = [] ∧ atHome s pas done = done) ∨ (copiesOf s pas ≠ [] ∧ (atHome s pas done).mem = s.mem) := by
  unfold atHome
  split
  · exact .inl ⟨by assumption, rfl⟩
  · rename_i h
    refine .inr ⟨h, ?_⟩
    generalize copiesOf s pas = ls
    clear h
    induction ls generalizing s with
    | nil => rfl
    | cons n ls ih => rw [List.foldl_cons, ih, snoop_frame]

/-- A byte written for the device at a flat address keeps the form. -/
theorem Memory.wf_physByte {s : State} (h : Memory.wf s.mem = true) (pa : Nat) (b : Byte) : Memory.wf (physByte s pa b).mem = true := by
  unfold physByte
  split
  · exact Memory.wf_memSet h pa b
  · dsimp only
    rw [snoop_frame]
    exact h

/-- A byte written for the device at a virtual address keeps the form. -/
theorem Memory.wf_devByte {s : State} (h : Memory.wf s.mem = true) (c va : Nat) (b : Byte) : Memory.wf (devByte s c va b).mem = true := by
  have hw := Memory.wf_walkSet h c va
  unfold devByte
  split
  · rename_i l u he
    rw [he] at hw
    split
    · exact Memory.wf_physByte (Memory.wf_setDirty hw _) _ _
    · exact hw
  · rename_i u he
    rw [he] at hw
    exact hw

/-- Device writes keep the form. -/
theorem Memory.wf_devWrite {s : State} (h : Memory.wf s.mem = true) (c va : Nat) (bs : List Byte) :
    Memory.wf (devWrite s c va bs).mem = true := by
  unfold devWrite
  generalize (List.range bs.length).zip bs = ps
  induction ps generalizing s with
  | nil => exact h
  | cons p ps ih =>
    rw [List.foldl_cons]
    exact ih (Memory.wf_devByte h _ _ _)

/-- A block written for the device at a flat address keeps the form. -/
theorem Memory.wf_physBlock {s : State} (h : Memory.wf s.mem = true) (pa : Nat) (bs : List Byte) :
    Memory.wf (physBlock s pa bs).mem = true := by
  unfold physBlock
  split
  · exact Memory.wf_memBlock h _ _
  · exact Memory.wf_memBlock h _ _

/-- Blocks for the device keep the form. -/
theorem Memory.wf_devBlock {s s' : State} (h : Memory.wf s.mem = true) (c : Nat) (n va : Nat) (bs : List Byte)
    (hb : devBlock s c n va bs = some s') : Memory.wf s'.mem = true := by
  induction n generalizing s va bs with
  | zero =>
    simp only [devBlock] at hb
    split at hb
    · injection hb with hb; subst hb; exact h
    · cases hb
  | succ n ih =>
    simp only [devBlock] at hb
    split at hb
    · injection hb with hb; subst hb; exact h
    · have hw := Memory.wf_walkSet h c va
      split at hb
      · cases hb
      · rename_i l u he
        rw [he] at hw
        split at hb
        · exact ih (Memory.wf_physBlock (Memory.wf_setDirty hw _) _ _) _ _ hb
        · cases hb

/-- Writes at physical addresses keep the form. -/
theorem Memory.wf_physWrite {s : State} (h : Memory.wf s.mem = true) (pa : Nat) (bs : List Byte) :
    Memory.wf (physWrite s pa bs).mem = true := by
  unfold physWrite
  generalize (rangeFrom pa (pa + bs.length)).zip bs = ps
  induction ps generalizing s with
  | nil => exact h
  | cons p ps ih => rw [List.foldl_cons]; exact ih (Memory.wf_physByte h _ _)

/-- Tests of watched words change no memory. -/
@[simp] theorem watchTest_mem (s : State) : (watchTest s).mem = s.mem := rfl

/-- Writes of parties outside the cores keep the form. -/
theorem Memory.wf_homeWrite {s : State} (h : Memory.wf s.mem = true) (ws : List Host.Cell) : Memory.wf (homeWrite s ws).mem = true :=
  Memory.wf_memSets h ws

/-- Atomics of parties outside the cores keep the form. -/
theorem Memory.wf_homeRmw {s : State} (h : Memory.wf s.mem = true) (ws : List Host.Cell) : Memory.wf (homeRmw s ws).mem = true :=
  Memory.wf_memSets h ws

/-- Accessed bits keep the form. -/
theorem Memory.wf_foldl_setAccessed {m : List Host.Cell} (h : Memory.wf m = true) (ls : List Leaf) :
    Memory.wf (ls.foldl setAccessed m) = true := by
  induction ls generalizing m with
  | nil => exact h
  | cons l ls ih => exact ih (Memory.wf_setAccessed h l)

/-- The A and D bits of an access of a party outside the cores keep the form. -/
theorem Memory.wf_touchRange {s : State} (h : Memory.wf s.mem = true) (c va n : Nat) (w : Bool) :
    Memory.wf (touchRange s c va n w).mem = true := by
  unfold touchRange
  dsimp only
  split
  · exact Memory.wf_setDirty (Memory.wf_foldl_setAccessed h _) _
  · exact Memory.wf_foldl_setAccessed h _

/-- Mapping a translation keeps the form. -/
theorem Memory.wf_mapTrans {s : State} (h : Memory.wf s.mem = true) (c n : Nat) (b : List Byte) (t : Trans) :
    Memory.wf (mapTrans s c n b t).mem = true := Memory.wf_memBlock (Memory.wf_zeroRange h _ _) _ _

end Sys2Proof.Machine
end

