-- ==== Sys2Proof/Laws/Ops.lean ====
section
/-!
SUPPORT. What each shared operation of the machine can do, said once: the provers cite these and do not unfold the operation.
-/

namespace Sys2Proof.Machine

/-! ### Accessors -/

/-- What a thread reads as after a change of a thread. -/
theorem State.th_modTh (s : State) (n m : Nat) (f : Strand → Strand) :
    (s.modTh n f).th m = if m = n ∧ (kget? s.ths n).isSome then f (s.th n) else s.th m := by
  unfold State.th kgetD
  rw [State.modTh_ths, kget?_kmodify]
  by_cases h : m = n
  · subst h
    cases hk : kget? s.ths m <;> simp
  · simp [h]

/-- A change of a thread leaves every other. -/
theorem State.th_modTh_ne (s : State) {n m : Nat} (f : Strand → Strand) (h : m ≠ n) : (s.modTh n f).th m = s.th m := by
  rw [State.th_modTh, if_neg (fun h' => h h'.1)]

/-- A change of a thread leaves every other entry. -/
theorem State.ths_modTh_ne (s : State) {n m : Nat} (f : Strand → Strand) (h : m ≠ n) :
    kget? (s.modTh n f).ths m = kget? s.ths m := by rw [State.modTh_ths, kget?_kmodify, if_neg h]

/-- What a thread reads as after one is set. -/
theorem State.th_setTh (s : State) (n m : Nat) (t : Strand) : (s.setTh n t).th m = if m = n then t else s.th m := by
  unfold State.th kgetD
  rw [State.setTh_ths, kget?_kset]
  split <;> rfl

/-- What a context reads as after a change of a context. -/
theorem State.ctx_modCtx (s : State) (n m : Nat) (f : Context → Context) :
    (s.modCtx n f).ctx m = if m = n ∧ (kget? s.ctxs n).isSome then f (s.ctx n) else s.ctx m := by
  unfold State.ctx kgetD
  rw [State.modCtx_ctxs, kget?_kmodify]
  by_cases h : m = n
  · subst h
    cases hk : kget? s.ctxs m <;> simp
  · simp [h]

/-- What a workgroup reads as after a change of a workgroup. -/
theorem State.wg_modWg (s : State) (n m : Nat) (f : Workgroup → Workgroup) :
    (s.modWg n f).wg m = if m = n ∧ (kget? s.wgs n).isSome then f (s.wg n) else s.wg m := by
  unfold State.wg kgetD
  rw [State.modWg_wgs, kget?_kmodify]
  by_cases h : m = n
  · subst h
    cases hk : kget? s.wgs m <;> simp
  · simp [h]

/-- What a quadrant reads as after a change of a quadrant. -/
theorem State.quad_modQuad (s : State) (n m : Nat) (f : Quadrant → Quadrant) :
    (s.modQuad n f).quad m = if m = n then f (s.quad n) else s.quad m := by
  unfold State.quad kgetD
  rw [State.modQuad_quads, kget?_kset]
  split <;> rfl

/-- What a core's handler slot reads as after a change of one. -/
theorem State.core_modCore (s : State) (n m : Nat) (f : CoreSt → CoreSt) :
    (s.modCore n f).core m = if m = n then f (s.core n) else s.core m := by
  unfold State.core kgetD
  rw [State.modCore_cores, kget?_kset]
  split <;> rfl

/-- What a queue reads as after a change of a queue. -/
theorem State.queue_modQueue (s : State) (n m : Nat) (f : Queue → Queue) :
    (s.modQueue n f).queue m = if m = n then f (s.queue n) else s.queue m := by
  unfold State.queue kgetD
  rw [State.modQueue_queues, kget?_kset]
  split <;> rfl

/-! ### The issue of an instruction -/

/-- A thread and slot are at issue exactly where the model's field names the thread and a group of it issues. -/
theorem issuer_eq_some {s : State} {n k : Nat} :
    issuer s = some (n, k) ↔
      s.run.cur = some n ∧ ∃ t, kget? s.ths n = some t ∧ t.ps.issuing = some k ∧ (t.slot k).grp.isSome = true := by
  unfold issuer
  constructor
  · intro h
    split at h
    · cases h
    · split at h
      · cases h
      · split at h
        · cases h
        · split at h
          · injection h with h
            injection h with h1 h2
            subst h1; subst h2
            exact ⟨by assumption, _, by assumption, by assumption, by assumption⟩
          · cases h
  · rintro ⟨h1, t, h2, h3, h4⟩
    simp [h1, h2, h3, h4]

/-- A meaning of an encoded instruction runs for the thread at issue. -/
theorem withIssuer_of_issuer {s : State} {n k : Nat} (h : issuer s = some (n, k)) (f : Nat → Nat → State) :
    withIssuer s f = .next (f n k) := by simp [withIssuer, h]

/-- Everything that a meaning run for the thread at issue can answer. -/
theorem withIssuer_cases (s : State) (f : Nat → Nat → State) :
    (∃ n k, issuer s = some (n, k) ∧ withIssuer s f = .next (f n k)) ∨ (issuer s = none ∧ withIssuer s f = .fault .noIssuer) := by
  unfold withIssuer
  cases h : issuer s with
  | none => exact .inr ⟨rfl, rfl⟩
  | some p => exact .inl ⟨p.1, p.2, rfl, rfl⟩

/-- A meaning run for the thread at issue is never refused. -/
theorem withIssuer_not_refused (s : State) (f : Nat → Nat → State) (r : Refusal) : withIssuer s f ≠ .refused r := by
  rcases withIssuer_cases s f with ⟨n, k, _, h⟩ | ⟨_, h⟩ <;> rw [h] <;> intro e <;> cases e

/-! ### Small operations -/

/-- Freeing issue slots leaves every thread as it is. -/
@[simp] theorem freeIssue_ths (s : State) (th : Nat) : (freeIssue s th).ths = s.ths := rfl
@[simp] theorem freeIssue_mem (s : State) (th : Nat) : (freeIssue s th).mem = s.mem := rfl
@[simp] theorem freeIssue_fl (s : State) (th : Nat) : (freeIssue s th).fl = s.fl := rfl
@[simp] theorem freeIssue_ctxs (s : State) (th : Nat) : (freeIssue s th).ctxs = s.ctxs := rfl
@[simp] theorem freeIssue_wgs (s : State) (th : Nat) : (freeIssue s th).wgs = s.wgs := rfl

/-- No quadrant and no control core is held by a thread that has freed its issue slots. -/
theorem freeIssue_free (s : State) (th : Nat) :
    (∀ e ∈ (freeIssue s th).quads, e.2.holder ≠ some th) ∧ ∀ e ∈ (freeIssue s th).ccores, e.2 ≠ th := by
  refine ⟨?_, ?_⟩
  · intro e he
    obtain ⟨d, hd, rfl⟩ := List.mem_map.mp he
    dsimp only
    split
    · intro h; cases h
    · assumption
  · intro e he
    have := (List.mem_filter.mp he).2
    simpa using this

/-- An escalation waits last for the fault log, and nothing else changes. -/
theorem escalate_spec (s : State) (src th : Nat) (r : FaultRec) (l : Nat) :
    ∃ e, escalate s src th r l = { s with log := { s.log with waiting := s.log.waiting ++ [e] } } ∧ e.ctx = (s.th th).pl.ctx ∧
      e.source = src ∧ e.threads = [th] ∧ e.addr = r.addr ∧ e.pc = r.pc ∧ e.mask = r.mask ∧ e.launch = l ∧ e.resolved = false :=
  ⟨_, rfl, rfl, rfl, rfl, rfl, rfl, rfl, rfl, rfl⟩

/-- A vector that its function has enabled is raised; any other is counted. -/
theorem raiseVector_spec (s : State) (fn v : Nat) :
    (vectorOn s fn v = true ∧ raiseVector s fn v = { s with io := { s.io with irqs := s.io.irqs ++ [(fn, v)] } }) ∨
    (vectorOn s fn v = false ∧ raiseVector s fn v = countersChange { s with io := { s.io with irqDropped := s.io.irqDropped + 1 } } 1) := by
  unfold raiseVector
  cases vectorOn s fn v <;> simp

/-- What a queue reads as after event bits have been set for a context. -/
theorem contextEvents_queue (s : State) (c bits q : Nat) :
    (contextEvents s c bits).queue q =
      if (s.queue q).ctx = some c then { s.queue q with events := (s.queue q).events ||| bits } else s.queue q := by
  unfold State.queue kgetD contextEvents
  have hm : (s.queues.map (fun e => if e.2.ctx = some c then (e.1, { e.2 with events := e.2.events ||| bits }) else e)) =
      s.queues.map (fun e => (e.1, if e.2.ctx = some c then { e.2 with events := e.2.events ||| bits } else e.2)) := by
    refine List.map_congr_left (fun e _ => ?_)
    split <;> rfl
  rw [hm, kget?_map s.queues (fun _ v => if v.ctx = some c then { v with events := v.events ||| bits } else v)]
  cases kget? s.queues q <;> simp

/-- A test of watched words changes no field but threads. -/
theorem watchTest_frame (s : State) : watchTest s = { s with ths := (watchTest s).ths } := rfl

/-- A test of watched words leaves every thread that is no queue thread, and all registers. -/
theorem watchTest_th (s : State) (n : Nat) :
    ((s.th n).pl.kind ≠ .queue → (watchTest s).th n = s.th n) ∧ ((watchTest s).th n).rg = (s.th n).rg ∧
      ((watchTest s).th n).ct = (s.th n).ct ∧ ((watchTest s).th n).pl = (s.th n).pl := by
  unfold State.th kgetD watchTest
  have hm : (s.ths.map (fun e => if e.2.pl.kind == .queue then
      (e.1, { e.2 with ps := { e.2.ps with s0 := { e.2.ps.s0 with grp := e.2.ps.s0.grp.map (watchGroup s.mem) } } }) else e)) =
      s.ths.map (fun e => (e.1, if e.2.pl.kind == .queue then
        { e.2 with ps := { e.2.ps with s0 := { e.2.ps.s0 with grp := e.2.ps.s0.grp.map (watchGroup s.mem) } } } else e.2)) := by
    refine List.map_congr_left (fun e _ => ?_)
    split <;> rfl
  simp only [hm, kget?_map s.ths (fun _ v => if v.pl.kind == .queue then
        { v with ps := { v.ps with s0 := { v.ps.s0 with grp := v.ps.s0.grp.map (watchGroup s.mem) } } } else v)]
  cases kget? s.ths n with
  | none => simp
  | some t =>
    simp only [Option.map_some, Option.getD_some]
    by_cases h : t.pl.kind = .queue <;> simp [h]

/-! ### Operations in flight -/

/-- A new operation takes the next number, is the last in flight and is not finished; nothing else changes. -/
theorem newFlight_spec (s : State) (th : Nat) (paths dests : List Nat) (w : Work) :
    (newFlight s th paths dests w).1 = s.run.nextId ∧
    ∃ f, (newFlight s th paths dests w).2 =
        { s with fl := s.fl ++ [f], run := { s.run with nextId := s.run.nextId + 1 } } ∧
      f.id = s.run.nextId ∧ f.th = th ∧ f.core = (s.th th).pl.core ∧ f.ctx = (s.th th).pl.ctx ∧ f.launch = (s.th th).pl.launch ∧
      f.paths = paths ∧ f.dests = dests ∧ f.work = w ∧ f.done = false :=
  ⟨rfl, _, rfl, rfl, rfl, rfl, rfl, rfl, rfl, rfl, rfl, rfl⟩

/-- What a sweep keeps was in flight before, with at most fewer paths. -/
theorem mem_sweepGo {th : Nat} {g : Flight} (fs : List Flight) (blk : List Nat) (h : g ∈ sweepGo th fs blk) :
    ∃ f ∈ fs, g.id = f.id ∧ g.th = f.th ∧ g.done = f.done ∧ g.work = f.work := by
  induction fs generalizing blk with
  | nil => simp [sweepGo] at h
  | cons f fs ih =>
    simp only [sweepGo] at h
    have up : ∀ blk, g ∈ sweepGo th fs blk → ∃ f' ∈ f :: fs, g.id = f'.id ∧ g.th = f'.th ∧ g.done = f'.done ∧ g.work = f'.work :=
      fun blk h => (ih blk h).imp (fun f' hf => ⟨List.mem_cons_of_mem _ hf.1, hf.2⟩)
    split at h
    · rcases List.mem_cons.mp h with rfl | h
      · exact ⟨g, by simp, rfl, rfl, rfl, rfl⟩
      · exact up _ h
    · split at h
      · split at h
        · exact up _ h
        · rcases List.mem_cons.mp h with rfl | h
          · exact ⟨f, by simp, rfl, rfl, rfl, rfl⟩
          · exact up _ h
      · rcases List.mem_cons.mp h with rfl | h
        · exact ⟨g, by simp, rfl, rfl, rfl, rfl⟩
        · exact up _ h

/-- The operations of other threads survive a sweep. -/
theorem mem_sweepGo_other {th : Nat} {g : Flight} (fs : List Flight) (blk : List Nat) (hg : g ∈ fs) (ht : g.th ≠ th) :
    g ∈ sweepGo th fs blk := by
  induction fs generalizing blk with
  | nil => simp at hg
  | cons f fs ih =>
    simp only [sweepGo]
    rcases List.mem_cons.mp hg with rfl | hg
    · simp [ht]
    · split
      · exact List.mem_cons_of_mem _ (ih _ hg)
      · split
        · split
          · exact ih _ hg
          · exact List.mem_cons_of_mem _ (ih _ hg)
        · exact List.mem_cons_of_mem _ (ih _ hg)

/-- Finishing an operation changes nothing but what is in flight. -/
theorem finishFlight_frame (s : State) (id : Nat) : finishFlight s id = { s with fl := (finishFlight s id).fl } := by
  unfold finishFlight
  split <;> rfl

/-- No operation of a finished number is left unfinished. -/
theorem finishFlight_done {s : State} {id : Nat} {f : Flight} (h : s.flight? id = some f) :
    ∀ g ∈ (finishFlight s id).fl, g.id = id → g.done = true := by
  intro g hg hid
  unfold finishFlight at hg
  rw [h] at hg
  obtain ⟨x, hx, h1, -, h3, -⟩ := mem_sweepGo _ _ hg
  obtain ⟨y, hy, rfl⟩ := List.mem_map.mp hx
  rw [h3]
  split
  · rfl
  · rename_i hne
    exfalso
    rw [if_neg hne] at h1
    exact hne (h1.symm.trans hid)

/-! ### Device writes -/

/-- A walk of the device changes memory and nothing else. -/
theorem walkSet_frame (s : State) (c va : Nat) : (walkSet s c va).2 = { s with mem := (walkSet s c va).2.mem } := by
  unfold walkSet
  split <;> rfl

/-- The links of one state with the die links, messages and waiting bytes of another. -/
def outIo (s t : State) : Links :=
  { s.io with dies := t.io.dies, sent := t.io.sent, outbox := t.io.outbox, parked := t.io.parked }

/-- A byte written for the device at a flat address changes memory, what it says of narrow releases and release sequences, and the messages of its snoop. -/
theorem physByte_frame (s : State) (pa : Nat) (b : Byte) :
    physByte s pa b = { s with mem := (physByte s pa b).mem, ch := { s.ch with narrow := (physByte s pa b).ch.narrow },
                                            ord := { s.ord with rel := (physByte s pa b).ord.rel }, io := outIo s (physByte s pa b) } := by
  unfold physByte
  split
  · rfl
  · dsimp only
    rw [snoop_frame]
    rfl

/-- A byte written for the device changes memory, what it says of narrow releases and release sequences, and the messages of its snoop, and nothing else. -/
theorem devByte_frame (s : State) (c va : Nat) (b : Byte) :
    devByte s c va b = { s with mem := (devByte s c va b).mem, ch := { s.ch with narrow := (devByte s c va b).ch.narrow },
                                            ord := { s.ord with rel := (devByte s c va b).ord.rel }, io := outIo s (devByte s c va b) } := by
  have hw := walkSet_frame s c va
  unfold devByte
  split
  · rename_i l u he
    rw [he] at hw
    dsimp only at hw
    rw [hw]
    split
    · rw [physByte_frame]; rfl
    · rfl
  · rename_i u he
    rw [he] at hw
    dsimp only at hw
    rw [hw]; rfl

/-- A device write changes memory, what it says of narrow releases and release sequences, and the messages of its snoops, and nothing else. -/
theorem devWrite_frame (s : State) (c va : Nat) (bs : List Byte) :
    devWrite s c va bs = { s with mem := (devWrite s c va bs).mem, ch := { s.ch with narrow := (devWrite s c va bs).ch.narrow },
                                            ord := { s.ord with rel := (devWrite s c va bs).ord.rel }, io := outIo s (devWrite s c va bs) } := by
  unfold devWrite
  generalize (List.range bs.length).zip bs = ps
  induction ps generalizing s with
  | nil => rfl
  | cons p ps ih =>
    rw [List.foldl_cons, ih, devByte_frame]
    rfl

/-- Writing the fork stack changes memory, what it says of narrow releases and release sequences, and the messages of its snoops, and nothing else. -/
theorem spillForks_frame (s : State) (th : Nat) :
    spillForks s th = { s with mem := (spillForks s th).mem, ch := { s.ch with narrow := (spillForks s th).ch.narrow },
                                            ord := { s.ord with rel := (spillForks s th).ord.rel }, io := outIo s (spillForks s th) } := by
  unfold spillForks
  dsimp only
  split
  · rfl
  · exact devWrite_frame _ _ _ _

/-- Writing the fork stack keeps the form of memory. -/
theorem Memory.wf_spillForks {s : State} (h : Memory.wf s.mem = true) (th : Nat) : Memory.wf (spillForks s th).mem = true := by
  unfold spillForks
  dsimp only
  split
  · exact h
  · exact Memory.wf_devWrite h _ _ _

/-! ### Queues' states -/

/-- A change of a queue's state changes queues, what is in flight, the numbers of changes and bits of the tables; a new operation in
flight belongs to the queue's thread. -/
theorem queueState_frame (s : State) (n st : Nat) :
    queueState s n st = { s with mem := (queueState s n st).mem, queues := (queueState s n st).queues, fl := (queueState s n st).fl,
                                 mg := (queueState s n st).mg, run := (queueState s n st).run } ∧
    (queueState s n st).run.cur = s.run.cur ∧ (queueState s n st).run.agenda = s.run.agenda ∧
    ∀ f ∈ (queueState s n st).fl, f ∈ s.fl ∨ f.th = queueNo n := by
  unfold queueState
  dsimp only
  split
  · exact ⟨rfl, rfl, rfl, fun f hf => .inl hf⟩
  · split
    · exact ⟨rfl, rfl, rfl, fun f hf => .inl hf⟩
    · split
      · rename_i u he
        have hw := he ▸ walkSet_frame _ _ _
        dsimp only at hw
        rw [hw]
        exact ⟨rfl, rfl, rfl, fun f hf => .inl hf⟩
      · rename_i l u he
        have hw := he ▸ walkSet_frame _ _ _
        dsimp only at hw
        rw [hw]
        split
        · exact ⟨rfl, rfl, rfl, fun f hf => .inl hf⟩
        · refine ⟨rfl, rfl, rfl, fun f hf => ?_⟩
          rcases List.mem_append.mp hf with hf | hf
          · exact .inl hf
          · rw [List.mem_singleton] at hf; subst hf; exact .inr rfl

/-- A change of a queue's state keeps the form of memory. -/
theorem Memory.wf_queueState {s : State} (h : Memory.wf s.mem = true) (n st : Nat) : Memory.wf (queueState s n st).mem = true := by
  unfold queueState
  dsimp only
  split
  · exact h
  · split
    · exact h
    · rename_i c hc
      have hw : ∀ u : State, u.mem = s.mem → Memory.wf (walkSet u c (s.queue n).status).2.mem = true :=
        fun u hu => Memory.wf_walkSet (hu ▸ h) _ _
      split
      · rename_i u he
        exact (congrArg (fun p => Memory.wf p.2.mem) he).symm.trans (hw (noteChange (s.modQueue n _) 3 n) rfl)
      · rename_i l u he
        have hu := (congrArg (fun p => Memory.wf p.2.mem) he).symm.trans (hw (noteChange (s.modQueue n _) 3 n) rfl)
        split
        · exact hu
        · exact Memory.wf_setDirty hu _

/-- A queue whose state is set has it. -/
theorem queueState_state (s : State) (n st : Nat) : ((queueState s n st).queue n).state = st := by
  unfold queueState
  dsimp only
  split
  · assumption
  · have hq : ∀ (t : State) (q : Queue), t.queues = kset s.queues n q → q.state = st → (t.queue n).state = st := by
      intro t q h hs; simp [State.queue, kgetD, h, hs]
    split
    · exact hq _ _ rfl rfl
    · split
      · rename_i he
        exact hq _ _ (congrArg State.queues (he ▸ walkSet_frame _ _ _)) rfl
      · rename_i he
        have hw := congrArg State.queues (he ▸ walkSet_frame _ _ _)
        split <;> exact hq _ _ hw rfl

/-! ### Stops -/

/-- What a stop leaves (R137): workgroups, launches, code, locks, deadlines, links, upkeep, time and the agenda; every other thread; and
the registers of every thread. -/
theorem stopThread_frame (s : State) (th : Nat) (r : FaultRec) :
    let t := stopThread s th r
    t.wgs = s.wgs ∧ t.launches = s.launches ∧ t.codes = s.codes ∧ t.lk = s.lk ∧ t.ch = { s.ch with narrow := t.ch.narrow } ∧ t.dls = s.dls ∧ t.io = outIo s t ∧ t.up = s.up ∧
    t.now = s.now ∧ t.run.agenda = s.run.agenda ∧ (∀ n, n ≠ th → kget? t.ths n = kget? s.ths n) := by
  intro t
  have key : ∀ u : State, (∃ f, u.ths = kmodify s.ths th f) → ∀ n, n ≠ th → kget? u.ths n = kget? s.ths n := by
    rintro u ⟨f, h⟩ n hn; rw [h, kget?_kmodify, if_neg hn]
  have hsp := fun u => spillForks_frame u th
  have hag : ∀ u : State, (freeIssue u th).run.agenda = u.run.agenda := by intro u; unfold freeIssue; dsimp only; split <;> rfl
  have hq := fun (u : State) n st => queueState_frame u n st
  show _ ∧ _
  subst t
  unfold stopThread
  dsimp only
  split
  · split
    · rw [escalate, hsp]; exact ⟨rfl, rfl, rfl, rfl, rfl, rfl, rfl, rfl, rfl, hag _, key _ ⟨_, rfl⟩⟩
    · rw [hsp]; exact ⟨rfl, rfl, rfl, rfl, rfl, rfl, rfl, rfl, rfl, hag _, key _ ⟨_, rfl⟩⟩
  · rw [escalate, hsp]; exact ⟨rfl, rfl, rfl, rfl, rfl, rfl, rfl, rfl, rfl, hag _, key _ ⟨_, rfl⟩⟩
  · have through : ∀ v : State, (v.wgs = s.wgs ∧ v.launches = s.launches ∧ v.codes = s.codes ∧ v.lk = s.lk ∧
        v.ch = { s.ch with narrow := v.ch.narrow } ∧ v.dls = s.dls ∧ v.io = outIo s v ∧ v.up = s.up ∧ v.now = s.now ∧
        v.run.agenda = s.run.agenda ∧ ∀ n, n ≠ th → kget? v.ths n = kget? s.ths n) →
        let t := queueState v (queueOf th) 3
        t.wgs = s.wgs ∧ t.launches = s.launches ∧ t.codes = s.codes ∧ t.lk = s.lk ∧ t.ch = { s.ch with narrow := t.ch.narrow } ∧
        t.dls = s.dls ∧ t.io = outIo s t ∧ t.up = s.up ∧ t.now = s.now ∧ t.run.agenda = s.run.agenda ∧
        ∀ n, n ≠ th → kget? t.ths n = kget? s.ths n := by
      intro v hv
      obtain ⟨h1, -, h2, -⟩ := hq v (queueOf th) 3
      dsimp only
      rw [h1]
      obtain ⟨e1, e2, e3, e4, e5, e6, e7, e8, e9, e10, e11⟩ := hv
      exact ⟨e1, e2, e3, e4, e5, e6, e7, e8, e9, h2.trans e10, e11⟩
    refine through _ ?_
    rw [hsp]
    exact ⟨rfl, rfl, rfl, rfl, rfl, rfl, rfl, rfl, rfl, hag _, key _ ⟨_, rfl⟩⟩

/-- A stop keeps the form of memory. -/
theorem Memory.wf_stopThread {s : State} (h : Memory.wf s.mem = true) (th : Nat) (r : FaultRec) :
    Memory.wf (stopThread s th r).mem = true := by
  have key : ∀ u : State, u.mem = s.mem → Memory.wf (spillForks u th).mem = true := fun u hu => Memory.wf_spillForks (hu ▸ h) th
  unfold stopThread
  dsimp only
  split
  · split
    · exact key _ rfl
    · exact key _ rfl
  · exact key _ rfl
  · refine Memory.wf_queueState ?_ _ _
    rw [State.modQueue_mem]
    exact key _ rfl

/-- A thread between clauses stops with what is due, or nothing happens. -/
theorem deliverAsync_cases (s : State) (th : Nat) :
    deliverAsync s th = s ∨ ∃ r, (s.th th).ct.pending = some r ∧ (s.th th).ct.stopped = false ∧ (s.th th).ps.issuing = none ∧
      deliverAsync s th = stopThread (s.modTh th (fun t => { t with ct := { t.ct with pending := t.ct.later.head?, later := t.ct.later.drop 1 } }))
        th { r with mask := (s.th th).live } := by
  unfold deliverAsync
  dsimp only
  split
  · exact .inl rfl
  · rename_i r h
    split
    · exact .inl rfl
    · rename_i hs
      simp only [Bool.or_eq_true, not_or, Bool.not_eq_true] at hs
      refine .inr ⟨r, h, hs.1, ?_, rfl⟩
      simpa using hs.2

/-- An acquire drops L1 copies of the thread's core, or nothing. -/
theorem acquireAt_frame (s : State) (th scope : Nat) : acquireAt s th scope = { s with ch := { s.ch with l1 := (acquireAt s th scope).ch.l1 } } := by
  unfold acquireAt
  dsimp only
  split <;> rfl

/-- What an acquire synchronises with is noted in the order of writes, and nothing else changes. -/
theorem hbAcquire_frame (s : State) (th : Nat) (lanes : Word) (ids : List Nat) :
    hbAcquire s th lanes ids = { s with ord := (hbAcquire s th lanes ids).ord } := by unfold hbAcquire; split <;> rfl

/-- The end of a wait changes the order of writes, and nothing else. -/
theorem hbHold_frame (s : State) (th : Nat) (g : Group) : hbHold s th g = { s with ord := (hbHold s th g).ord } := by
  unfold hbHold
  split
  · exact hbAcquire_frame _ _ _ _
  · exact hbAcquire_frame _ _ _ _
  · rfl

/-- The ends of waits drop L1 copies and change the order of writes, and nothing else. -/
theorem endWaits_frame (s : State) (th : Nat) (gs : List Group) :
    endWaits s th gs = { s with ch := { s.ch with l1 := (endWaits s th gs).ch.l1 }, ord := (endWaits s th gs).ord } := by
  unfold endWaits
  generalize (gs.map (fun g => holdScope g.hold)).foldl Nat.max 0 = n
  rw [acquireAt_frame]
  generalize (acquireAt s th n).ch.l1 = l
  suffices h : ∀ (gs : List Group) (u : State), gs.foldl (fun s g => hbHold s th g) u = { u with ord := (gs.foldl (fun s g => hbHold s th g) u).ord } by
    rw [h]
  intro gs
  induction gs with
  | nil => intro u; rfl
  | cons g gs ih => intro u; rw [List.foldl_cons, ih, hbHold_frame]

/-- A thread that is stopped or halted holds every group as it stands (R137, R127). -/
theorem refresh_held {s : State} {th : Nat} (h : (s.th th).ct.stopped = true ∨ (s.th th).ps.halted = true) : refresh s th = s := by
  unfold refresh
  rw [if_pos (by simpa using h)]

/-- Settling a thread's waits leaves every other thread. -/
theorem refresh_other (s : State) (th : Nat) {n : Nat} (hn : n ≠ th) : kget? (refresh s th).ths n = kget? s.ths n := by
  unfold refresh
  split
  · rfl
  dsimp only
  have hs : ∀ gs, (endWaits s th gs).ths = s.ths := fun gs => by rw [endWaits_frame]
  generalize he : endWaits s th _ = u
  have hs : u.ths = s.ths := he ▸ hs _
  rcases deliverAsync_cases (State.modTh u th _) th with h | ⟨r, _, _, _, h⟩
  · rw [h, State.modTh_ths, kget?_kmodify, if_neg hn, hs]
  · rw [h, (stopThread_frame _ _ _).2.2.2.2.2.2.2.2.2.2 n hn, State.modTh_ths, kget?_kmodify, if_neg hn, State.modTh_ths, kget?_kmodify,
      if_neg hn, hs]

/-- Settling a thread's waits keeps the form of memory. -/
theorem Memory.wf_refresh {s : State} (h : Memory.wf s.mem = true) (th : Nat) : Memory.wf (refresh s th).mem = true := by
  unfold refresh
  split
  · exact h
  dsimp only
  have hb : ∀ gs, Memory.wf (endWaits s th gs).mem = true := fun gs => by rw [endWaits_frame]; exact h
  generalize hu : endWaits s th _ = u
  have hb : Memory.wf u.mem = true := hu ▸ hb _
  rcases deliverAsync_cases (State.modTh u th _) th with he | ⟨r, _, _, _, he⟩
  · rw [he]; exact hb
  · rw [he]; exact Memory.wf_stopThread (s := State.modTh (State.modTh u th _) th _) hb _ _

/-- The end of a clause keeps the form of memory. -/
theorem Memory.wf_endClause {s : State} (h : Memory.wf s.mem = true) (th k : Nat) (y : Bool) :
    Memory.wf (endClause s th k y).mem = true := by
  unfold endClause
  dsimp only
  have key : ∀ (b : Bool) (u v : State), Memory.wf u.mem = true → Memory.wf v.mem = true → Memory.wf (if b then u else v).mem = true := by
    intro b u v hu hv; cases b <;> assumption
  refine Memory.wf_refresh ?_ th
  rw [freeIssue_mem]
  exact key _ _ _ h h

/-- Moving past an instruction keeps the form of memory. -/
theorem Memory.wf_finishInstr {s : State} (h : Memory.wf s.mem = true) (th k z st : Nat) :
    Memory.wf (finishInstr s th k z st).mem = true := by
  unfold finishInstr
  dsimp only
  split
  · rw [State.modTh_mem]; exact h
  · split
    · refine Memory.wf_endClause ?_ _ _ _
      rw [State.modTh_mem]; exact h
    · rw [State.modTh_mem]; exact h

/-! ### Registers -/

/-- What a cell finally holds after cells are set in turn: the last value set for it, or what it held. -/
theorem kget?_foldl_kset {α : Type} (ws : List (Nat × α)) (m : KMap α) (c : Nat) :
    kget? (ws.foldl (fun m w => kset m w.1 w.2) m) c =
      match (ws.reverse.find? (fun w => w.1 == c)) with | some w => some w.2 | none => kget? m c := by
  induction ws generalizing m with
  | nil => rfl
  | cons w ws ih =>
    rw [List.foldl_cons, ih, List.reverse_cons, List.find?_append]
    cases List.find? (fun w => w.1 == c) ws.reverse with
    | some x => rfl
    | none =>
      rw [kget?_kset]
      by_cases h : c = w.1
      · simp [h]
      · have h' : ¬ w.1 = c := fun e => h e.symm
        simp [h, h']

/-- Pokes leave every cell that they do not name. -/
theorem Regs.final_poke_other (r : Regs) (ws : List (Nat × Word)) {c : Nat} (h : ∀ w ∈ ws, w.1 ≠ c) : (r.poke ws).final c = r.final c := by
  have hn : ws.reverse.find? (fun w => w.1 == c) = none := by
    rw [List.find?_eq_none]; intro w hw; simpa using h w (List.mem_reverse.mp hw)
  simp [Regs.final, Regs.poke, kgetD, kget?_foldl_kset, hn]

/-- The cells of a register file after writes. -/
theorem Regs.put_cells (r : Regs) (ready : Nat) (ws : List (Nat × Word)) :
    (r.put ready ws).cells = ws.foldl (fun m w => kset m w.1 w.2) r.cells := by
  unfold Regs.put
  induction ws generalizing r with
  | nil => rfl
  | cons w ws ih => rw [List.foldl_cons, ih]; rfl

/-- Writes leave what every cell that they do not name finally holds. -/
theorem Regs.final_put_other (r : Regs) (ready : Nat) (ws : List (Nat × Word)) {c : Nat} (h : ∀ w ∈ ws, w.1 ≠ c) :
    (r.put ready ws).final c = r.final c := by
  have hn : ws.reverse.find? (fun w => w.1 == c) = none := by
    rw [List.find?_eq_none]; intro w hw; simpa using h w (List.mem_reverse.mp hw)
  simp [Regs.final, Regs.put_cells, kgetD, kget?_foldl_kset, hn]

/-- A cell finally holds what the last write for it wrote. -/
theorem Regs.final_put_last (r : Regs) (ready : Nat) (ws : List (Nat × Word)) {w : Nat × Word} {c : Nat}
    (h : ws.reverse.find? (fun w => w.1 == c) = some w) : (r.put ready ws).final c = w.2 := by
  simp [Regs.final, Regs.put_cells, kgetD, kget?_foldl_kset, h]

/-- With no result still to land, a cell reads as what it finally holds. -/
theorem Regs.read_landed (r : Regs) (clk c : Nat) (h : r.pend = []) : r.read clk c = r.final c := by simp [Regs.read, h, landed]

/-! ### Paths -/

/-- An instruction whose paths have room for what it raises goes on (R267). -/
theorem withPaths_of_room {s : State} {th : Nat} {ps : List Nat} (k z : Nat) (f : State → State)
    (h : ∀ p ∈ ps, counter s th p + ps.count p + pledged (s.th th) p ≤ 255) : withPaths s th k ps z f = f s := by
  have hn : fullPath s th ps = none := by
    unfold fullPath
    rw [List.find?_eq_none]
    intro p hp
    have := h p hp
    have : ¬ pathRoom s th ps p < counter s th p := by unfold pathRoom; omega
    simpa using this
  simp [withPaths, hn]

/-- An instruction that raises no path goes on. -/
@[simp] theorem withPaths_nil (s : State) (th k z : Nat) (f : State → State) : withPaths s th k [] z f = f s := rfl

/-! ### Operands -/

/-- An instruction whose operands can be read runs its body on what they hold, with its pops made. -/
theorem operate_of_ready {s : State} {i : Iss} {srcs : List Opnd} {dsts : List Nat} {rd : Word → List Nat} (body : State → Given → State)
    (h : operandStop s i srcs dsts rd = none) :
    operate s i srcs dsts rd body = body (s.modTh i.th (fun t => popQueues t (srcs.map (·.spec)))) (given s i srcs) := by
  simp [operate, h]

/-- Everything that the checks at issue can answer: the operands can be read, or the group waits, or the thread stops (R338). -/
theorem operandStop_cases (s : State) (i : Iss) (srcs : List Opnd) (dsts : List Nat) (rd : Word → List Nat) :
    operandStop s i srcs dsts rd = none ∨
    (∃ h, operandStop s i srcs dsts rd = some (holdGroup s i.th i.k h false true i.size)) ∨
    ∃ c m, operandStop s i srcs dsts rd = some (faultAt s i.th i.k c m 0 0) := by
  unfold operandStop
  dsimp only
  repeat' split
  all_goals first | exact .inl rfl | exact .inr (.inl ⟨_, rfl⟩) | exact .inr (.inr ⟨_, _, rfl⟩)

/-- Pops change no cell of a register. -/
@[simp] theorem popQueues_final (t : Strand) (ns : List Nat) (c : Nat) : (popQueues t ns).rg.final c = t.rg.final c := rfl

/-! ### The step -/

/-- A step whose agenda names a move carries it out after its time. -/
theorem step_agenda {s : State} {dt : Nat} {m : Move} {rest : List (Nat × Move)} (h : s.run.agenda = (dt, m) :: rest) :
    step s = runMove { s with now := s.now + dt, run := { s.run with agenda := rest } } m := by simp [step, h]

/-- An event of the agenda is its meaning, tested by the homes of watched words. -/
theorem runMove_event (s : State) (i : Instr) :
    (∀ t, exec i s = .next t → runMove s (.event i) = .next (watchTest t)) ∧ (∀ f, exec i s = .fault f → runMove s (.event i) = .fault f) := by
  refine ⟨fun t h => ?_, fun f h => ?_⟩ <;> simp [runMove, moveOne, watched_, h]

end Sys2Proof.Machine
end

