-- ==== Sys2Proof/Laws/PerInstr.lean ====
section
/-!
SUPPORT. One lemma for each instruction: the length code in the low bits of its first parcel counts its parcels (R15, R32,
R33).
-/

namespace Sys2Proof

/-- Code 0 is an instruction of one parcel, 1 of two or, with its four parameters, six, 2 of three with a literal; an event has
no parcels. -/
def Laws.LengthCode.OfParcels (p : Parts) : List Word → Prop
  | [] => p = .event
  | w :: ws =>
    (w.toNat % 4 = 0 ∧ ws.length = 0) ∨ (w.toNat % 4 = 1 ∧ (ws.length = 1 ∨ ws.length = 5)) ∨
    (w.toNat % 4 = 2 ∧ ws.length = 2)

/-- The length code of an instruction's first parcel counts its parcels. -/
def Laws.LengthCode.Statement (i : Instr) : Prop :=
  i.wf = true → Laws.LengthCode.OfParcels i.parts (encode i)

theorem Laws.LengthCode.parcel_mod (n : Nat) : (parcel n).toNat % 4 = n % 4 := by
  simp only [parcel, BitVec.toNat_ofNat]
  omega

theorem Laws.LengthCode.packL0_mod (maj : Nat) (x : LForm) :
    packL0 maj x % 4 = if x.lit.isSome then 2 else 1 := by
  unfold packL0
  split <;> omega

theorem Laws.LengthCode.of_parts (kd : CodeKind) (p : Parts) (h : wfParts kd p = true) :
    Laws.LengthCode.OfParcels p (encodeParts p) := by
  cases p with
  | un m x => exact .inl ⟨by rw [parcel_mod]; omega, rfl⟩
  | ctls m st => exact .inl ⟨by rw [parcel_mod]; omega, rfl⟩
  | brs x => exact .inl ⟨by rw [parcel_mod]; omega, rfl⟩
  | ldi x => exact .inl ⟨by rw [parcel_mod]; omega, rfl⟩
  | l maj m x =>
    have hm := packL0_mod maj x
    cases hl : x.lit with
    | none => exact .inr (.inl ⟨by rw [parcel_mod, hm, hl]; rfl, by simp [hl]⟩)
    | some v => exact .inr (.inr ⟨by rw [parcel_mod, hm, hl]; rfl, by simp [hl]⟩)
  | p maj m x =>
    have hm := packL0_mod maj x.l
    have hl : x.l.lit = none := by
      simp only [wfParts, Bool.and_eq_true, Option.isNone_iff_eq_none] at h
      exact h.2
    exact .inr (.inl ⟨by rw [parcel_mod, hm, hl]; rfl, by simp [hl]⟩)
  | event => rfl

theorem Laws.LengthCode.holds (i : Instr) : Laws.LengthCode.Statement i := by
  intro h
  simp only [Instr.wf, Instr.wfIn, Bool.or_eq_true, Bool.and_eq_true] at h
  obtain ((h | h) | h) | h := h <;> exact of_parts _ _ h.2

theorem Laws.LengthCode.clausePick (q : Nat) : Laws.LengthCode.Statement (.clausePick q) :=
  holds _
theorem Laws.LengthCode.starvationGuard (q : Nat) : Laws.LengthCode.Statement (.starvationGuard q) :=
  holds _
theorem Laws.LengthCode.groupRotation (th : Nat) : Laws.LengthCode.Statement (.groupRotation th) :=
  holds _
theorem Laws.LengthCode.controlCorePick (n : Nat) : Laws.LengthCode.Statement (.controlCorePick n) :=
  holds _
theorem Laws.LengthCode.unMov (x : SForm) : Laws.LengthCode.Statement (.unMov x) :=
  holds _
theorem Laws.LengthCode.unNot (x : SForm) : Laws.LengthCode.Statement (.unNot x) :=
  holds _
theorem Laws.LengthCode.unNeg (x : SForm) : Laws.LengthCode.Statement (.unNeg x) :=
  holds _
theorem Laws.LengthCode.unAbs (x : SForm) : Laws.LengthCode.Statement (.unAbs x) :=
  holds _
theorem Laws.LengthCode.unPopc (x : SForm) : Laws.LengthCode.Statement (.unPopc x) :=
  holds _
theorem Laws.LengthCode.unClz (x : SForm) : Laws.LengthCode.Statement (.unClz x) :=
  holds _
theorem Laws.LengthCode.unBrev (x : SForm) : Laws.LengthCode.Statement (.unBrev x) :=
  holds _
theorem Laws.LengthCode.fabs (x : SForm) : Laws.LengthCode.Statement (.fabs x) :=
  holds _
theorem Laws.LengthCode.ctlsNop (st : BitVec 3) : Laws.LengthCode.Statement (.ctlsNop st) :=
  holds _
theorem Laws.LengthCode.ctlsYield (st : BitVec 3) : Laws.LengthCode.Statement (.ctlsYield st) :=
  holds _
theorem Laws.LengthCode.ctlsKnot (st : BitVec 3) : Laws.LengthCode.Statement (.ctlsKnot st) :=
  holds _
theorem Laws.LengthCode.ctlsRet (st : BitVec 3) : Laws.LengthCode.Statement (.ctlsRet st) :=
  holds _
theorem Laws.LengthCode.ctlsExit (st : BitVec 3) : Laws.LengthCode.Statement (.ctlsExit st) :=
  holds _
theorem Laws.LengthCode.ctlsDone (st : BitVec 3) : Laws.LengthCode.Statement (.ctlsDone st) :=
  holds _
theorem Laws.LengthCode.ctlsBrk (st : BitVec 3) : Laws.LengthCode.Statement (.ctlsBrk st) :=
  holds _
theorem Laws.LengthCode.ctlsTake (st : BitVec 3) : Laws.LengthCode.Statement (.ctlsTake st) :=
  holds _
theorem Laws.LengthCode.brs (x : BrsForm) : Laws.LengthCode.Statement (.brs x) :=
  holds _
theorem Laws.LengthCode.ldi (x : LdiForm) : Laws.LengthCode.Statement (.ldi x) :=
  holds _
theorem Laws.LengthCode.add (x : LForm) : Laws.LengthCode.Statement (.add x) :=
  holds _
theorem Laws.LengthCode.sub (x : LForm) : Laws.LengthCode.Statement (.sub x) :=
  holds _
theorem Laws.LengthCode.mul (x : LForm) : Laws.LengthCode.Statement (.mul x) :=
  holds _
theorem Laws.LengthCode.mulh (x : LForm) : Laws.LengthCode.Statement (.mulh x) :=
  holds _
theorem Laws.LengthCode.mulhu (x : LForm) : Laws.LengthCode.Statement (.mulhu x) :=
  holds _
theorem Laws.LengthCode.mad (x : LForm) : Laws.LengthCode.Statement (.mad x) :=
  holds _
theorem Laws.LengthCode.min (x : LForm) : Laws.LengthCode.Statement (.min x) :=
  holds _
theorem Laws.LengthCode.max (x : LForm) : Laws.LengthCode.Statement (.max x) :=
  holds _
theorem Laws.LengthCode.minu (x : LForm) : Laws.LengthCode.Statement (.minu x) :=
  holds _
theorem Laws.LengthCode.maxu (x : LForm) : Laws.LengthCode.Statement (.maxu x) :=
  holds _
theorem Laws.LengthCode.abs (x : LForm) : Laws.LengthCode.Statement (.abs x) :=
  holds _
theorem Laws.LengthCode.neg (x : LForm) : Laws.LengthCode.Statement (.neg x) :=
  holds _
theorem Laws.LengthCode.and (x : LForm) : Laws.LengthCode.Statement (.and x) :=
  holds _
theorem Laws.LengthCode.or (x : LForm) : Laws.LengthCode.Statement (.or x) :=
  holds _
theorem Laws.LengthCode.xor (x : LForm) : Laws.LengthCode.Statement (.xor x) :=
  holds _
theorem Laws.LengthCode.not (x : LForm) : Laws.LengthCode.Statement (.not x) :=
  holds _
theorem Laws.LengthCode.tbl3 (x : LForm) : Laws.LengthCode.Statement (.tbl3 x) :=
  holds _
theorem Laws.LengthCode.shl (x : LForm) : Laws.LengthCode.Statement (.shl x) :=
  holds _
theorem Laws.LengthCode.shr (x : LForm) : Laws.LengthCode.Statement (.shr x) :=
  holds _
theorem Laws.LengthCode.sar (x : LForm) : Laws.LengthCode.Statement (.sar x) :=
  holds _
theorem Laws.LengthCode.rotl (x : LForm) : Laws.LengthCode.Statement (.rotl x) :=
  holds _
theorem Laws.LengthCode.bfe (x : LForm) : Laws.LengthCode.Statement (.bfe x) :=
  holds _
theorem Laws.LengthCode.bfeu (x : LForm) : Laws.LengthCode.Statement (.bfeu x) :=
  holds _
theorem Laws.LengthCode.bfi (x : LForm) : Laws.LengthCode.Statement (.bfi x) :=
  holds _
theorem Laws.LengthCode.clz (x : LForm) : Laws.LengthCode.Statement (.clz x) :=
  holds _
theorem Laws.LengthCode.popc (x : LForm) : Laws.LengthCode.Statement (.popc x) :=
  holds _
theorem Laws.LengthCode.brev (x : LForm) : Laws.LengthCode.Statement (.brev x) :=
  holds _
theorem Laws.LengthCode.mov (x : LForm) : Laws.LengthCode.Statement (.mov x) :=
  holds _
theorem Laws.LengthCode.dot4 (x : LForm) : Laws.LengthCode.Statement (.dot4 x) :=
  holds _
theorem Laws.LengthCode.add64 (x : LForm) : Laws.LengthCode.Statement (.add64 x) :=
  holds _
theorem Laws.LengthCode.sub64 (x : LForm) : Laws.LengthCode.Statement (.sub64 x) :=
  holds _
theorem Laws.LengthCode.lea (x : LForm) : Laws.LengthCode.Statement (.lea x) :=
  holds _
theorem Laws.LengthCode.leaCode (x : LForm) : Laws.LengthCode.Statement (.leaCode x) :=
  holds _
theorem Laws.LengthCode.mov64 (x : LForm) : Laws.LengthCode.Statement (.mov64 x) :=
  holds _
theorem Laws.LengthCode.shl64 (x : LForm) : Laws.LengthCode.Statement (.shl64 x) :=
  holds _
theorem Laws.LengthCode.shr64 (x : LForm) : Laws.LengthCode.Statement (.shr64 x) :=
  holds _
theorem Laws.LengthCode.apoff (x : LForm) : Laws.LengthCode.Statement (.apoff x) :=
  holds _
theorem Laws.LengthCode.apgen (x : LForm) : Laws.LengthCode.Statement (.apgen x) :=
  holds _
theorem Laws.LengthCode.apclass (x : LForm) : Laws.LengthCode.Statement (.apclass x) :=
  holds _
theorem Laws.LengthCode.fadd (x : LForm) : Laws.LengthCode.Statement (.fadd x) :=
  holds _
theorem Laws.LengthCode.fsub (x : LForm) : Laws.LengthCode.Statement (.fsub x) :=
  holds _
theorem Laws.LengthCode.fmul (x : LForm) : Laws.LengthCode.Statement (.fmul x) :=
  holds _
theorem Laws.LengthCode.fma (x : LForm) : Laws.LengthCode.Statement (.fma x) :=
  holds _
theorem Laws.LengthCode.fnma (x : LForm) : Laws.LengthCode.Statement (.fnma x) :=
  holds _
theorem Laws.LengthCode.fmin (x : LForm) : Laws.LengthCode.Statement (.fmin x) :=
  holds _
theorem Laws.LengthCode.fmax (x : LForm) : Laws.LengthCode.Statement (.fmax x) :=
  holds _
theorem Laws.LengthCode.fround (x : LForm) : Laws.LengthCode.Statement (.fround x) :=
  holds _
theorem Laws.LengthCode.fclamp (x : LForm) : Laws.LengthCode.Statement (.fclamp x) :=
  holds _
theorem Laws.LengthCode.fdot2 (x : LForm) : Laws.LengthCode.Statement (.fdot2 x) :=
  holds _
theorem Laws.LengthCode.frcp (x : LForm) : Laws.LengthCode.Statement (.frcp x) :=
  holds _
theorem Laws.LengthCode.frsq (x : LForm) : Laws.LengthCode.Statement (.frsq x) :=
  holds _
theorem Laws.LengthCode.fsqrt (x : LForm) : Laws.LengthCode.Statement (.fsqrt x) :=
  holds _
theorem Laws.LengthCode.fexp2 (x : LForm) : Laws.LengthCode.Statement (.fexp2 x) :=
  holds _
theorem Laws.LengthCode.flog2 (x : LForm) : Laws.LengthCode.Statement (.flog2 x) :=
  holds _
theorem Laws.LengthCode.fsin (x : LForm) : Laws.LengthCode.Statement (.fsin x) :=
  holds _
theorem Laws.LengthCode.fcos (x : LForm) : Laws.LengthCode.Statement (.fcos x) :=
  holds _
theorem Laws.LengthCode.ftanh (x : LForm) : Laws.LengthCode.Statement (.ftanh x) :=
  holds _
theorem Laws.LengthCode.fcvt (x : LForm) : Laws.LengthCode.Statement (.fcvt x) :=
  holds _
theorem Laws.LengthCode.f2i (x : LForm) : Laws.LengthCode.Statement (.f2i x) :=
  holds _
theorem Laws.LengthCode.i2f (x : LForm) : Laws.LengthCode.Statement (.i2f x) :=
  holds _
theorem Laws.LengthCode.pack2 (x : LForm) : Laws.LengthCode.Statement (.pack2 x) :=
  holds _
theorem Laws.LengthCode.unpack2 (x : LForm) : Laws.LengthCode.Statement (.unpack2 x) :=
  holds _
theorem Laws.LengthCode.nadd (x : LForm) : Laws.LengthCode.Statement (.nadd x) :=
  holds _
theorem Laws.LengthCode.nmul (x : LForm) : Laws.LengthCode.Statement (.nmul x) :=
  holds _
theorem Laws.LengthCode.nfma (x : LForm) : Laws.LengthCode.Statement (.nfma x) :=
  holds _
theorem Laws.LengthCode.nmin (x : LForm) : Laws.LengthCode.Statement (.nmin x) :=
  holds _
theorem Laws.LengthCode.nmax (x : LForm) : Laws.LengthCode.Statement (.nmax x) :=
  holds _
theorem Laws.LengthCode.npack (x : LForm) : Laws.LengthCode.Statement (.npack x) :=
  holds _
theorem Laws.LengthCode.nunpack (x : LForm) : Laws.LengthCode.Statement (.nunpack x) :=
  holds _
theorem Laws.LengthCode.ncvt (x : LForm) : Laws.LengthCode.Statement (.ncvt x) :=
  holds _
theorem Laws.LengthCode.icmp (x : LForm) : Laws.LengthCode.Statement (.icmp x) :=
  holds _
theorem Laws.LengthCode.icmpu (x : LForm) : Laws.LengthCode.Statement (.icmpu x) :=
  holds _
theorem Laws.LengthCode.fcmp (x : LForm) : Laws.LengthCode.Statement (.fcmp x) :=
  holds _
theorem Laws.LengthCode.fclass (x : LForm) : Laws.LengthCode.Statement (.fclass x) :=
  holds _
theorem Laws.LengthCode.kand (x : LForm) : Laws.LengthCode.Statement (.kand x) :=
  holds _
theorem Laws.LengthCode.kor (x : LForm) : Laws.LengthCode.Statement (.kor x) :=
  holds _
theorem Laws.LengthCode.kxor (x : LForm) : Laws.LengthCode.Statement (.kxor x) :=
  holds _
theorem Laws.LengthCode.kinv (x : LForm) : Laws.LengthCode.Statement (.kinv x) :=
  holds _
theorem Laws.LengthCode.kmov (x : LForm) : Laws.LengthCode.Statement (.kmov x) :=
  holds _
theorem Laws.LengthCode.kpop (x : LForm) : Laws.LengthCode.Statement (.kpop x) :=
  holds _
theorem Laws.LengthCode.lxch (x : LForm) : Laws.LengthCode.Statement (.lxch x) :=
  holds _
theorem Laws.LengthCode.vote (x : LForm) : Laws.LengthCode.Statement (.vote x) :=
  holds _
theorem Laws.LengthCode.redux (x : LForm) : Laws.LengthCode.Statement (.redux x) :=
  holds _
theorem Laws.LengthCode.scan (x : LForm) : Laws.LengthCode.Statement (.scan x) :=
  holds _
theorem Laws.LengthCode.compress (x : LForm) : Laws.LengthCode.Statement (.compress x) :=
  holds _
theorem Laws.LengthCode.expand (x : LForm) : Laws.LengthCode.Statement (.expand x) :=
  holds _
theorem Laws.LengthCode.isect (x : LForm) : Laws.LengthCode.Statement (.isect x) :=
  holds _
theorem Laws.LengthCode.part (x : LForm) : Laws.LengthCode.Statement (.part x) :=
  holds _
theorem Laws.LengthCode.rdlane (x : LForm) : Laws.LengthCode.Statement (.rdlane x) :=
  holds _
theorem Laws.LengthCode.bcast (x : LForm) : Laws.LengthCode.Statement (.bcast x) :=
  holds _
theorem Laws.LengthCode.qswap (x : LForm) : Laws.LengthCode.Statement (.qswap x) :=
  holds _
theorem Laws.LengthCode.qbcast (x : LForm) : Laws.LengthCode.Statement (.qbcast x) :=
  holds _
theorem Laws.LengthCode.qred (x : LForm) : Laws.LengthCode.Statement (.qred x) :=
  holds _
theorem Laws.LengthCode.nfset (x : LForm) : Laws.LengthCode.Statement (.nfset x) :=
  holds _
theorem Laws.LengthCode.nfget (x : LForm) : Laws.LengthCode.Statement (.nfget x) :=
  holds _
theorem Laws.LengthCode.cbld (x : LForm) : Laws.LengthCode.Statement (.cbld x) :=
  holds _
theorem Laws.LengthCode.cbldInstant (f : Nat) : Laws.LengthCode.Statement (.cbldInstant f) :=
  holds _
theorem Laws.LengthCode.cbrd (x : LForm) : Laws.LengthCode.Statement (.cbrd x) :=
  holds _
theorem Laws.LengthCode.lqset (x : LForm) : Laws.LengthCode.Statement (.lqset x) :=
  holds _
theorem Laws.LengthCode.lqclr (x : LForm) : Laws.LengthCode.Statement (.lqclr x) :=
  holds _
theorem Laws.LengthCode.ld (x : LForm) : Laws.LengthCode.Statement (.ld x) :=
  holds _
theorem Laws.LengthCode.loadDataReturn (f : Nat) : Laws.LengthCode.Statement (.loadDataReturn f) :=
  holds _
theorem Laws.LengthCode.remotePromotion (f : Nat) : Laws.LengthCode.Statement (.remotePromotion f) :=
  holds _
theorem Laws.LengthCode.st (x : LForm) : Laws.LengthCode.Statement (.st x) :=
  holds _
theorem Laws.LengthCode.lde (x : LForm) : Laws.LengthCode.Statement (.lde x) :=
  holds _
theorem Laws.LengthCode.ste (x : LForm) : Laws.LengthCode.Statement (.ste x) :=
  holds _
theorem Laws.LengthCode.cst (x : LForm) : Laws.LengthCode.Statement (.cst x) :=
  holds _
theorem Laws.LengthCode.prefetch (x : LForm) : Laws.LengthCode.Statement (.prefetch x) :=
  holds _
theorem Laws.LengthCode.atom (x : LForm) : Laws.LengthCode.Statement (.atom x) :=
  holds _
theorem Laws.LengthCode.red (x : LForm) : Laws.LengthCode.Statement (.red x) :=
  holds _
theorem Laws.LengthCode.atomicPerform (f : Nat) : Laws.LengthCode.Statement (.atomicPerform f) :=
  holds _
theorem Laws.LengthCode.fence (x : LForm) : Laws.LengthCode.Statement (.fence x) :=
  holds _
theorem Laws.LengthCode.storeApply (f k : Nat) : Laws.LengthCode.Statement (.storeApply f k) :=
  holds _
theorem Laws.LengthCode.wait (x : LForm) : Laws.LengthCode.Statement (.wait x) :=
  holds _
theorem Laws.LengthCode.bar (x : LForm) : Laws.LengthCode.Statement (.bar x) :=
  holds _
theorem Laws.LengthCode.barArrive (x : LForm) : Laws.LengthCode.Statement (.barArrive x) :=
  holds _
theorem Laws.LengthCode.barWait (x : LForm) : Laws.LengthCode.Statement (.barWait x) :=
  holds _
theorem Laws.LengthCode.cmAdd (x : LForm) : Laws.LengthCode.Statement (.cmAdd x) :=
  holds _
theorem Laws.LengthCode.cmMax (x : LForm) : Laws.LengthCode.Statement (.cmMax x) :=
  holds _
theorem Laws.LengthCode.cmAxpy (x : LForm) : Laws.LengthCode.Statement (.cmAxpy x) :=
  holds _
theorem Laws.LengthCode.cmScale (x : LForm) : Laws.LengthCode.Statement (.cmScale x) :=
  holds _
theorem Laws.LengthCode.cmFill (x : LForm) : Laws.LengthCode.Statement (.cmFill x) :=
  holds _
theorem Laws.LengthCode.cmSum (x : LForm) : Laws.LengthCode.Statement (.cmSum x) :=
  holds _
theorem Laws.LengthCode.cmRangeCompletion (f : Nat) : Laws.LengthCode.Statement (.cmRangeCompletion f) :=
  holds _
theorem Laws.LengthCode.cpy (x : LForm) : Laws.LengthCode.Statement (.cpy x) :=
  holds _
theorem Laws.LengthCode.cpyt (x : PForm) : Laws.LengthCode.Statement (.cpyt x) :=
  holds _
theorem Laws.LengthCode.dcpy (x : LForm) : Laws.LengthCode.Statement (.dcpy x) :=
  holds _
theorem Laws.LengthCode.ecpy (x : LForm) : Laws.LengthCode.Statement (.ecpy x) :=
  holds _
theorem Laws.LengthCode.copyCompletion (f : Nat) : Laws.LengthCode.Statement (.copyCompletion f) :=
  holds _
theorem Laws.LengthCode.abset (x : LForm) : Laws.LengthCode.Statement (.abset x) :=
  holds _
theorem Laws.LengthCode.abdecl (x : LForm) : Laws.LengthCode.Statement (.abdecl x) :=
  holds _
theorem Laws.LengthCode.abarr (x : LForm) : Laws.LengthCode.Statement (.abarr x) :=
  holds _
theorem Laws.LengthCode.arrivalPerform (f : Nat) : Laws.LengthCode.Statement (.arrivalPerform f) :=
  holds _
theorem Laws.LengthCode.abwait (x : LForm) : Laws.LengthCode.Statement (.abwait x) :=
  holds _
theorem Laws.LengthCode.abtest (x : LForm) : Laws.LengthCode.Statement (.abtest x) :=
  holds _
theorem Laws.LengthCode.fget (x : PForm) : Laws.LengthCode.Statement (.fget x) :=
  holds _
theorem Laws.LengthCode.fgetCompletion (f : Nat) : Laws.LengthCode.Statement (.fgetCompletion f) :=
  holds _
theorem Laws.LengthCode.hset (x : LForm) : Laws.LengthCode.Statement (.hset x) :=
  holds _
theorem Laws.LengthCode.hinv (x : LForm) : Laws.LengthCode.Statement (.hinv x) :=
  holds _
theorem Laws.LengthCode.hget (x : LForm) : Laws.LengthCode.Statement (.hget x) :=
  holds _
theorem Laws.LengthCode.handleResultWritten (f : Nat) : Laws.LengthCode.Statement (.handleResultWritten f) :=
  holds _
theorem Laws.LengthCode.spOpen (x : PForm) : Laws.LengthCode.Statement (.spOpen x) :=
  holds _
theorem Laws.LengthCode.spSeed (x : LForm) : Laws.LengthCode.Statement (.spSeed x) :=
  holds _
theorem Laws.LengthCode.seedRecordUnit (f : Nat) : Laws.LengthCode.Statement (.seedRecordUnit f) :=
  holds _
theorem Laws.LengthCode.spMma (x : PForm) : Laws.LengthCode.Statement (.spMma x) :=
  holds _
theorem Laws.LengthCode.spJoinKj (x : PForm) : Laws.LengthCode.Statement (.spJoinKj x) :=
  holds _
theorem Laws.LengthCode.spJoinRec (x : PForm) : Laws.LengthCode.Statement (.spJoinRec x) :=
  holds _
theorem Laws.LengthCode.spJoinPair (x : PForm) : Laws.LengthCode.Statement (.spJoinPair x) :=
  holds _
theorem Laws.LengthCode.spGrp (x : PForm) : Laws.LengthCode.Statement (.spGrp x) :=
  holds _
theorem Laws.LengthCode.spliceUnit (f : Nat) : Laws.LengthCode.Statement (.spliceUnit f) :=
  holds _
theorem Laws.LengthCode.spDrain (x : LForm) : Laws.LengthCode.Statement (.spDrain x) :=
  holds _
theorem Laws.LengthCode.drainCompletion (f : Nat) : Laws.LengthCode.Statement (.drainCompletion f) :=
  holds _
theorem Laws.LengthCode.spClear (x : LForm) : Laws.LengthCode.Statement (.spClear x) :=
  holds _
theorem Laws.LengthCode.spClose (x : LForm) : Laws.LengthCode.Statement (.spClose x) :=
  holds _
theorem Laws.LengthCode.spStat (x : LForm) : Laws.LengthCode.Statement (.spStat x) :=
  holds _
theorem Laws.LengthCode.burst (x : LForm) : Laws.LengthCode.Statement (.burst x) :=
  holds _
theorem Laws.LengthCode.arrayRampDown (q : Nat) : Laws.LengthCode.Statement (.arrayRampDown q) :=
  holds _
theorem Laws.LengthCode.arrayRampUp (q : Nat) : Laws.LengthCode.Statement (.arrayRampUp q) :=
  holds _
theorem Laws.LengthCode.burstCreditExpiry (q : Nat) : Laws.LengthCode.Statement (.burstCreditExpiry q) :=
  holds _
theorem Laws.LengthCode.frame (x : LForm) : Laws.LengthCode.Statement (.frame x) :=
  holds _
theorem Laws.LengthCode.grow (x : LForm) : Laws.LengthCode.Statement (.grow x) :=
  holds _
theorem Laws.LengthCode.growTry (x : LForm) : Laws.LengthCode.Statement (.growTry x) :=
  holds _
theorem Laws.LengthCode.growRing (x : LForm) : Laws.LengthCode.Statement (.growRing x) :=
  holds _
theorem Laws.LengthCode.trim (x : LForm) : Laws.LengthCode.Statement (.trim x) :=
  holds _
theorem Laws.LengthCode.flush (x : LForm) : Laws.LengthCode.Statement (.flush x) :=
  holds _
theorem Laws.LengthCode.reelPayout (th : Nat) : Laws.LengthCode.Statement (.reelPayout th) :=
  holds _
theorem Laws.LengthCode.reelHaulIn (th : Nat) : Laws.LengthCode.Statement (.reelHaulIn th) :=
  holds _
theorem Laws.LengthCode.reelWorkAhead (th lane : Nat) (x : ReelAhead) : Laws.LengthCode.Statement (.reelWorkAhead th lane x) :=
  holds _
theorem Laws.LengthCode.bra (x : LForm) : Laws.LengthCode.Statement (.bra x) :=
  holds _
theorem Laws.LengthCode.jmp (x : LForm) : Laws.LengthCode.Statement (.jmp x) :=
  holds _
theorem Laws.LengthCode.brx (x : LForm) : Laws.LengthCode.Statement (.brx x) :=
  holds _
theorem Laws.LengthCode.call (x : LForm) : Laws.LengthCode.Statement (.call x) :=
  holds _
theorem Laws.LengthCode.callx (x : LForm) : Laws.LengthCode.Statement (.callx x) :=
  holds _
theorem Laws.LengthCode.ret (x : LForm) : Laws.LengthCode.Statement (.ret x) :=
  holds _
theorem Laws.LengthCode.exit (x : LForm) : Laws.LengthCode.Statement (.exit x) :=
  holds _
theorem Laws.LengthCode.knot (x : LForm) : Laws.LengthCode.Statement (.knot x) :=
  holds _
theorem Laws.LengthCode.done (x : LForm) : Laws.LengthCode.Statement (.done x) :=
  holds _
theorem Laws.LengthCode.take (x : LForm) : Laws.LengthCode.Statement (.take x) :=
  holds _
theorem Laws.LengthCode.yield (x : LForm) : Laws.LengthCode.Statement (.yield x) :=
  holds _
theorem Laws.LengthCode.nop (x : LForm) : Laws.LengthCode.Statement (.nop x) :=
  holds _
theorem Laws.LengthCode.trap (x : LForm) : Laws.LengthCode.Statement (.trap x) :=
  holds _
theorem Laws.LengthCode.brk (x : LForm) : Laws.LengthCode.Statement (.brk x) :=
  holds _
theorem Laws.LengthCode.strandRestart (th : Nat) : Laws.LengthCode.Statement (.strandRestart th) :=
  holds _
theorem Laws.LengthCode.strandRetire (th : Nat) : Laws.LengthCode.Statement (.strandRetire th) :=
  holds _
theorem Laws.LengthCode.launchComplete (l : Nat) : Laws.LengthCode.Statement (.launchComplete l) :=
  holds _
theorem Laws.LengthCode.csrr (x : LForm) : Laws.LengthCode.Statement (.csrr x) :=
  holds _
theorem Laws.LengthCode.csrw (x : LForm) : Laws.LengthCode.Statement (.csrw x) :=
  holds _
theorem Laws.LengthCode.scrWrite (th : Nat) (v : Word) : Laws.LengthCode.Statement (.scrWrite th v) :=
  holds _
theorem Laws.LengthCode.tlbInvalidatePage (th : Nat) : Laws.LengthCode.Statement (.tlbInvalidatePage th) :=
  holds _
theorem Laws.LengthCode.tlbInvalidateAll (th : Nat) : Laws.LengthCode.Statement (.tlbInvalidateAll th) :=
  holds _
theorem Laws.LengthCode.winsel (x : LForm) : Laws.LengthCode.Statement (.winsel x) :=
  holds _
theorem Laws.LengthCode.winrd (x : LForm) : Laws.LengthCode.Statement (.winrd x) :=
  holds _
theorem Laws.LengthCode.winwr (x : LForm) : Laws.LengthCode.Statement (.winwr x) :=
  holds _
theorem Laws.LengthCode.resume (x : LForm) : Laws.LengthCode.Statement (.resume x) :=
  holds _
theorem Laws.LengthCode.kill (x : LForm) : Laws.LengthCode.Statement (.kill x) :=
  holds _
theorem Laws.LengthCode.faultack (x : LForm) : Laws.LengthCode.Statement (.faultack x) :=
  holds _
theorem Laws.LengthCode.handlerStart (core : Nat) : Laws.LengthCode.Statement (.handlerStart core) :=
  holds _
theorem Laws.LengthCode.faultLogWrite : Laws.LengthCode.Statement (.faultLogWrite) :=
  holds _
theorem Laws.LengthCode.launch (x : PForm) : Laws.LengthCode.Statement (.launch x) :=
  holds _
theorem Laws.LengthCode.workgroupPlacement (ctx : Nat) : Laws.LengthCode.Statement (.workgroupPlacement ctx) :=
  holds _
theorem Laws.LengthCode.watch (x : LForm) : Laws.LengthCode.Statement (.watch x) :=
  holds _
theorem Laws.LengthCode.watchMet (q : Nat) : Laws.LengthCode.Statement (.watchMet q) :=
  holds _
theorem Laws.LengthCode.watchPoll (q : Nat) : Laws.LengthCode.Statement (.watchPoll q) :=
  holds _
theorem Laws.LengthCode.signal (x : LForm) : Laws.LengthCode.Statement (.signal x) :=
  holds _
theorem Laws.LengthCode.signalQ (x : LForm) : Laws.LengthCode.Statement (.signalQ x) :=
  holds _
theorem Laws.LengthCode.evwait (x : LForm) : Laws.LengthCode.Statement (.evwait x) :=
  holds _
theorem Laws.LengthCode.evwaitTimeout (q : Nat) : Laws.LengthCode.Statement (.evwaitTimeout q) :=
  holds _
theorem Laws.LengthCode.qprio (x : LForm) : Laws.LengthCode.Statement (.qprio x) :=
  holds _
theorem Laws.LengthCode.aLoop (x : LForm) : Laws.LengthCode.Statement (.aLoop x) :=
  holds _
theorem Laws.LengthCode.aLd (x : LForm) : Laws.LengthCode.Statement (.aLd x) :=
  holds _
theorem Laws.LengthCode.aWalk (x : LForm) : Laws.LengthCode.Statement (.aWalk x) :=
  holds _
theorem Laws.LengthCode.aSync (x : LForm) : Laws.LengthCode.Statement (.aSync x) :=
  holds _
theorem Laws.LengthCode.aEnd (x : LForm) : Laws.LengthCode.Statement (.aEnd x) :=
  holds _
theorem Laws.LengthCode.aSet (x : LForm) : Laws.LengthCode.Statement (.aSet x) :=
  holds _
theorem Laws.LengthCode.feedRowLand (f : Nat) : Laws.LengthCode.Statement (.feedRowLand f) :=
  holds _
theorem Laws.LengthCode.l1LineDrop (core line : Nat) : Laws.LengthCode.Statement (.l1LineDrop core line) :=
  holds _
theorem Laws.LengthCode.powerWindow (watts : Nat) : Laws.LengthCode.Statement (.powerWindow watts) :=
  holds _
theorem Laws.LengthCode.undervoltage : Laws.LengthCode.Statement (.undervoltage) :=
  holds _
theorem Laws.LengthCode.uncorrectableError (loc : ErrLoc) : Laws.LengthCode.Statement (.uncorrectableError loc) :=
  holds _
theorem Laws.LengthCode.scrubPass : Laws.LengthCode.Statement (.scrubPass) :=
  holds _
theorem Laws.LengthCode.marginPlan (slack : List (Nat × Nat)) : Laws.LengthCode.Statement (.marginPlan slack) :=
  holds _
theorem Laws.LengthCode.quadrantSlackZero (q : Nat) : Laws.LengthCode.Statement (.quadrantSlackZero q) :=
  holds _
theorem Laws.LengthCode.workgroupHalt (w : Nat) : Laws.LengthCode.Statement (.workgroupHalt w) :=
  holds _
theorem Laws.LengthCode.haltTimeout (w : Nat) : Laws.LengthCode.Statement (.haltTimeout w) :=
  holds _
theorem Laws.LengthCode.workgroupSave (w : Nat) : Laws.LengthCode.Statement (.workgroupSave w) :=
  holds _
theorem Laws.LengthCode.shadowSwap (q : Nat) : Laws.LengthCode.Statement (.shadowSwap q) :=
  holds _
theorem Laws.LengthCode.shadowSpillEnd (q : Nat) : Laws.LengthCode.Statement (.shadowSpillEnd q) :=
  holds _
theorem Laws.LengthCode.workgroupRestore (w : Nat) : Laws.LengthCode.Statement (.workgroupRestore w) :=
  holds _
theorem Laws.LengthCode.deadlineDecision (d : Nat) : Laws.LengthCode.Statement (.deadlineDecision d) :=
  holds _
theorem Laws.LengthCode.deadlineCutoff (d : Nat) : Laws.LengthCode.Statement (.deadlineCutoff d) :=
  holds _
theorem Laws.LengthCode.deadlineReply (d : Nat) : Laws.LengthCode.Statement (.deadlineReply d) :=
  holds _
theorem Laws.LengthCode.claim : Laws.LengthCode.Statement (.claim) :=
  holds _
theorem Laws.LengthCode.renew : Laws.LengthCode.Statement (.renew) :=
  holds _
theorem Laws.LengthCode.handover : Laws.LengthCode.Statement (.handover) :=
  holds _
theorem Laws.LengthCode.resync : Laws.LengthCode.Statement (.resync) :=
  holds _
theorem Laws.LengthCode.ctxCreate : Laws.LengthCode.Statement (.ctxCreate) :=
  holds _
theorem Laws.LengthCode.ctxDestroy : Laws.LengthCode.Statement (.ctxDestroy) :=
  holds _
theorem Laws.LengthCode.ctxFlags : Laws.LengthCode.Statement (.ctxFlags) :=
  holds _
theorem Laws.LengthCode.pageOwner : Laws.LengthCode.Statement (.pageOwner) :=
  holds _
theorem Laws.LengthCode.keyLoad : Laws.LengthCode.Statement (.keyLoad) :=
  holds _
theorem Laws.LengthCode.deadline : Laws.LengthCode.Statement (.deadline) :=
  holds _
theorem Laws.LengthCode.reopen : Laws.LengthCode.Statement (.reopen) :=
  holds _
theorem Laws.LengthCode.queueStart : Laws.LengthCode.Statement (.queueStart) :=
  holds _
theorem Laws.LengthCode.queueStop : Laws.LengthCode.Statement (.queueStop) :=
  holds _
theorem Laws.LengthCode.queueResume : Laws.LengthCode.Statement (.queueResume) :=
  holds _
theorem Laws.LengthCode.faultlogSet : Laws.LengthCode.Statement (.faultlogSet) :=
  holds _
theorem Laws.LengthCode.faultReply : Laws.LengthCode.Statement (.faultReply) :=
  holds _
theorem Laws.LengthCode.codeLoad : Laws.LengthCode.Statement (.codeLoad) :=
  holds _
theorem Laws.LengthCode.codeReplace : Laws.LengthCode.Statement (.codeReplace) :=
  holds _
theorem Laws.LengthCode.codeUnload : Laws.LengthCode.Statement (.codeUnload) :=
  holds _
theorem Laws.LengthCode.fwStage : Laws.LengthCode.Statement (.fwStage) :=
  holds _
theorem Laws.LengthCode.cfgStage : Laws.LengthCode.Statement (.cfgStage) :=
  holds _
theorem Laws.LengthCode.margin : Laws.LengthCode.Statement (.margin) :=
  holds _
theorem Laws.LengthCode.leaseExpiry : Laws.LengthCode.Statement (.leaseExpiry) :=
  holds _
theorem Laws.LengthCode.handoverLapse : Laws.LengthCode.Statement (.handoverLapse) :=
  holds _
theorem Laws.LengthCode.functionLevelReset (vf : Nat) : Laws.LengthCode.Statement (.functionLevelReset vf) :=
  holds _
theorem Laws.LengthCode.tdiLeaveRun (vf : Nat) : Laws.LengthCode.Statement (.tdiLeaveRun vf) :=
  holds _
theorem Laws.LengthCode.hostBarAccess (a : BarAccess) : Laws.LengthCode.Statement (.hostBarAccess a) :=
  holds _
theorem Laws.LengthCode.deviceReset : Laws.LengthCode.Statement (.deviceReset) :=
  holds _
theorem Laws.LengthCode.topologyDiscovery (link : Nat) (r : List Byte) : Laws.LengthCode.Statement (.topologyDiscovery link r) :=
  holds _
theorem Laws.LengthCode.dieRecordTimeout (link : Nat) : Laws.LengthCode.Statement (.dieRecordTimeout link) :=
  holds _
theorem Laws.LengthCode.ngalanReq (m : NgMsg) : Laws.LengthCode.Statement (.ngalanReq m) :=
  holds _
theorem Laws.LengthCode.ngalanSnp (m : NgMsg) : Laws.LengthCode.Statement (.ngalanSnp m) :=
  holds _
theorem Laws.LengthCode.ngalanRsp (m : NgMsg) : Laws.LengthCode.Statement (.ngalanRsp m) :=
  holds _
theorem Laws.LengthCode.ngalanDat (m : NgMsg) : Laws.LengthCode.Statement (.ngalanDat m) :=
  holds _
theorem Laws.LengthCode.ngalanMgt (m : NgMsg) : Laws.LengthCode.Statement (.ngalanMgt m) :=
  holds _
theorem Laws.LengthCode.ngalanErr (m : NgMsg) : Laws.LengthCode.Statement (.ngalanErr m) :=
  holds _
theorem Laws.LengthCode.ngalanBadMessage (m : NgMsg) : Laws.LengthCode.Statement (.ngalanBadMessage m) :=
  holds _
theorem Laws.LengthCode.inboundLinkAccess (a : LinkAccess) : Laws.LengthCode.Statement (.inboundLinkAccess a) :=
  holds _
theorem Laws.LengthCode.controlSlot (link : Nat) (credits : List Nat) (ack : Nat) : Laws.LengthCode.Statement (.controlSlot link credits ack) :=
  holds _

end Sys2Proof
end

