-- ==== Sys2Proof/Tests/Slice0.lean ====
section
/-!
SUPPORT. Tests on fixed values: ill-formed instructions that the checks refuse, words written out by the encoding tables of the
spec, results of single steps worked out by hand from the spec, and for the statements with hypotheses a state and operands
that meet them.
-/

namespace Sys2Proof.Tests

set_option Elab.async false

open Sys2Proof.Machine

/-! ### Helpers -/

/-- An L form by its register fields and modifier. -/
def lf (d a b c : Nat) (md : Nat := 0) (lit : Option Word := none) : LForm :=
  { st := 0, d := BitVec.ofNat 9 d, a := BitVec.ofNat 9 a, b := BitVec.ofNat 9 b, c := BitVec.ofNat 9 c, gk := 0, gneg := false,
    tr := false, ru := false, md := BitVec.ofNat 5 md, lit := lit }

/-- A form with parameters. -/
def pf (x : LForm) (p0 p1 p2 p3 : Word) : PForm := { l := x, p0 := p0, p1 := p1, p2 := p2, p3 := p3 }

/-- A strand at the issue of some parcels, which two `nop` follow in its clause, with frames of 40 registers. -/
def strandAt (body : List Word) : Strand :=
  let t := freshStrand { ctx := 1, launch := 4, wg := 2, code := 3 } 16
  { t with
    rg := { t.rg with frames := List.replicate 32 { size := 5 }, plymap := List.range 16 }
    ps := { s0 := { grp := some { mask := 0xFFFFFFFF }, clause := some { hdr := 0, word := 3, body := body ++ [0x40, 0x40] } }
            issuing := some 0 } }

/-- A part with one context, one code object, one workgroup and one thread, which is at the issue of some parcels. -/
def at_ (body : List Word) (f : Strand → Strand := id) : State :=
  { State.reset with
    ths := [(0, f (strandAt body))]
    wgs := [(2, { ctx := 1, launch := 4, code := 3, threads := [0], quads := [0], banks := [0], bars := List.replicate 8 0,
                  itemEnd := 40 })]
    launches := [(4, { ctx := 1, code := 3 })]
    ctxs := [(1, { handler := 3, quads := [0], banks := [(0, [0])], plain := [0], exact := [1], cb := [(0, List.replicate 16 0)] })]
    codes := [(3, { ctx := 1, trans := [(0, { frame := 8, fplies := 40, depth := 4 })] })]
    run := { fresh := 16, cur := some 0 } }

/-- Registers of the strand that hold values from the start. -/
def withCells (ws : List (Nat × Word)) (t : Strand) : Strand := { t with rg := t.rg.poke ws }

/-- Whether an instruction is at issue and no check at issue stops it. -/
def readyB (s : State) (i : Iss) (srcs : List Opnd) (dsts : List Nat) (rd : Word → List Nat) : Bool :=
  issuer s == some (i.th, i.k) && (operandStop s i srcs dsts rd).isNone

theorem ready_of {s : State} {i : Iss} {srcs : List Opnd} {dsts : List Nat} {rd : Word → List Nat}
    (h : readyB s i srcs dsts rd = true) : Ready s i srcs dsts rd := by
  simp only [readyB, Bool.and_eq_true, beq_iff_eq, Option.isNone_iff_eq_none] at h
  exact ⟨h.1, h.2⟩

/-- An instruction at issue with its operands. -/
structure Case where
  ins : Instr
  iss : Iss
  srcs : List Opnd
  dsts : List Nat
  rd : Word → List Nat

/-- Whether an instruction is well formed and ready in a state. -/
def Case.ok (c : Case) (s : State) : Bool := c.ins.wf && readyB s c.iss c.srcs c.dsts c.rd

/-- Each of some instructions is well formed and ready where it is at issue. -/
def AllReady (f : Instr → State) (l : List Case) : Prop :=
  ∀ c ∈ l, c.ins.wf = true ∧ Ready (f c.ins) c.iss c.srcs c.dsts c.rd

theorem all_ready {f : Instr → State} {l : List Case} (h : l.all (fun c => c.ok (f c.ins)) = true) : AllReady f l := by
  intro c hc
  have hk := List.all_eq_true.mp h c hc
  simp only [Case.ok, Bool.and_eq_true] at hk
  exact ⟨hk.1, ready_of hk.2⟩

/-- The usual state of an instruction: at its issue. -/
def usual (i : Instr) : State := at_ (encode i)

/-- An L-form instruction with one 32-bit or 64-bit result, its operands read in the active lanes. -/
def caseL (ins : LForm → Instr) (x : LForm) (srcs : LForm → List Opnd) (dsts : List Nat) : Case :=
  { ins := ins x, iss := issL x 0 0, srcs := srcs x, dsts := dsts, rd := readActive }

/-- A short UN instruction. -/
def caseUn (ins : SForm → Instr) (x : SForm) (ty : OTy) : Case :=
  { ins := ins x, iss := issUn x 0 0, srcs := [{ spec := x.a.toNat, ty := ty }], dsts := [x.d.toNat], rd := readActive }

/-! ### States that meet the hypotheses of the statements -/

theorem witness_ShortFormResults : AllReady usual
    (([(.unMov, .w32), (.unNot, .w32), (.unNeg, .w32), (.unAbs, .w32), (.unPopc, .w32), (.unClz, .w32), (.unBrev, .w32), (.fabs, .f32)] :
        List ((SForm → Instr) × OTy)).flatMap (fun p =>
        [caseUn p.1 { st := 0, d := 39, a := 383 } p.2, caseUn p.1 { st := 7, d := 447, a := 480 } p.2]) ++
      [{ ins := .ldi { st := 0, d := 0, imm := 0x800 }, iss := issLdi { st := 0, d := 0, imm := 0x800 } 0 0, srcs := [], dsts := [0],
         rd := readActive }]) :=
  all_ready (by decide +kernel)

/-- An INT operation of two sources at both of its widths. -/
def two (ins : LForm → Instr) (t u c : Nat) : List Case :=
  [caseL ins (lf 39 383 504 c (4 * t) (some 0x80000000)) (fun x => [srcA x, srcB x]) [39],
   caseL ins (lf 446 444 504 0 (4 * u) (some 7)) (fun x => [wide x.a (intTy x), wide x.b (intTy x)]) [446, 447]]

/-- An INT shift at both of its widths. -/
def shift (ins : LForm → Instr) (t u : Nat) : List Case :=
  [caseL ins (lf 39 383 38 0 (4 * t)) (fun x => [srcA x, srcB x]) [39],
   caseL ins (lf 38 36 37 0 (4 * u)) (fun x => [wide x.a (intTy x), srcB x]) [38, 39]]

/-- An INT operation of one source at both of its widths. -/
def one (ins : LForm → Instr) (t u : Nat) : List Case :=
  [caseL ins (lf 320 0 0 0 (4 * t)) (fun x => [srcA x]) [320],
   caseL ins (lf 382 38 0 0 (4 * u)) (fun x => [wide x.a (intTy x)]) [382, 383]]

theorem witness_IntArithmetic : AllReady usual
    (two .add 0 5 1 ++ two .sub 0 5 1 ++ two .mul 0 5 0 ++ two .min 0 5 0 ++ two .max 0 5 0 ++ two .minu 1 6 0 ++ two .maxu 1 6 0 ++
      one .neg 0 5 ++
      [caseL .mulh (lf 0 1 2 0) (fun x => [srcA x, srcB x]) [0], caseL .mulhu (lf 0 1 2 0 4) (fun x => [srcA x, srcB x]) [0],
       caseL .mad (lf 0 1 2 3) (fun x => [srcA x, srcB x, srcC x]) [0], caseL .abs (lf 0 1 0 0) (fun x => [srcA x]) [0]]) :=
  all_ready (by decide +kernel)

theorem witness_IntLogicAndFields : AllReady usual
    (two .and 1 6 0 ++ two .or 1 6 0 ++ two .xor 1 6 0 ++ one .not 1 6 ++ one .mov 1 6 ++ shift .shl 1 6 ++ shift .shr 1 6 ++
      shift .sar 0 5 ++
      [caseL .tbl3 (lf 8 9 10 0xCA 4) (fun x => [srcA x, srcB x, srcD x]) [8], caseL .rotl (lf 8 9 10 0 4) (fun x => [srcA x, srcB x]) [8],
       caseL .bfeu (lf 0 1 2 3 4) (fun x => [srcA x, srcB x, srcC x]) [0], caseL .bfe (lf 0 1 2 3 0) (fun x => [srcA x, srcB x, srcC x]) [0],
       caseL .bfi (lf 0 1 2 3 4) (fun x => [srcA x, srcB x, srcC x, srcD x]) [0], caseL .clz (lf 0 1 0 0 4) (fun x => [srcA x]) [0],
       caseL .popc (lf 0 1 0 0 4) (fun x => [srcA x]) [0], caseL .brev (lf 0 1 0 0 4) (fun x => [srcA x]) [0],
       caseL .dot4 (lf 0 1 2 3 0) (fun x => [srcA x, srcB x, srcC x]) [0]]) :=
  all_ready (by decide +kernel)

theorem witness_AddressInstructions : AllReady usual
    ([caseL .add64 (lf 38 36 504 0 2 (some 1)) (fun x => [wide x.a (adrTy x), adrB x]) [38, 39],
      caseL .sub64 (lf 38 36 34 0) (fun x => [wide x.a (adrTy x), adrB x]) [38, 39],
      caseL .lea (lf 38 36 35 7 1) (fun x => [wide x.a (adrTy x), srcB x]) [38, 39],
      caseL .mov64 (lf 38 36 0 0) (fun x => [wide x.a .b64]) [38, 39], caseL .mov64 (lf 38 37 0 0 1) (fun x => [srcA x]) [38, 39],
      caseL .shl64 (lf 38 36 35 0) (fun x => [wide x.a .s64, srcB x]) [38, 39],
      caseL .shr64 (lf 38 36 35 0) (fun x => [wide x.a .s64, srcB x]) [38, 39],
      caseL .leaCode (lf 322 504 0 0 16 (some 8000)) (fun _ => []) [322, 323],
      caseL .apoff (lf 38 36 0 0) (fun x => [wide x.a .b64]) [38, 39], caseL .apgen (lf 38 36 0 0 24) (fun x => [wide x.a .b64]) [38, 39],
      caseL .apclass (lf 447 446 0 0) (fun x => [wide x.a .b64]) [447]]) :=
  all_ready (by decide +kernel)

/-- An FPU operation of n sources, FP32 and packed. -/
def fpu (ins : LForm → Instr) (n : Nat) (rn : Nat) : List Case :=
  [2, 3, 4].map (fun ty => caseL ins (lf 39 0 (if 2 ≤ n then 1 else 0) (if 3 ≤ n then 2 else 0) (4 * ty + rn))
    (fun x => ([x.a, x.b, x.c].take n).map (fop x)) [39])

theorem witness_FpuResults : AllReady usual
    (fpu .fadd 2 3 ++ fpu .fsub 2 2 ++ fpu .fmul 2 1 ++ fpu .fma 3 0 ++ fpu .fnma 3 3 ++ fpu .fmin 2 0 ++ fpu .fmax 2 0 ++ fpu .fclamp 3 0 ++
      [caseL .fround (lf 39 0 0 0 11) (fun x => ([x.a, x.b, x.c].take 1).map (fop x)) [39],
       caseL .fdot2 (lf 39 0 1 2 12) (fun x => [fop x x.a, fop x x.b, { spec := x.c.toNat, ty := .f32 }]) [39]]) :=
  all_ready (by decide +kernel)

theorem witness_SpecialFunctions : AllReady usual
    (([.frcp, .frsq, .fsqrt, .fexp2, .flog2, .fsin, .fcos, .ftanh] : List (LForm → Instr)).map (fun ins =>
      caseL ins (lf 39 0 0 0 11) (fun x => [fop x x.a]) [39])) :=
  all_ready (by decide +kernel)

theorem witness_FpArithmeticIsExact :
    ((-150 : Int) ≤ -150 ∧ (-150 : Int) ≤ 0 ∧ (2 ^ 24 : Nat) ≠ 0) ∧ signedAt true 1 (-149) (-150) = -2 := by decide

theorem witness_RoundingIsCorrect :
    (∀ f ∈ [fp32, fp16, bf16, e5m2, e4m3], (roundTo f 3 0 (.fin true 3 f.emin)).2 / 4 % 2 = 0 ∧ f.emin - 1 ≤ f.emin) ∧
    (∀ f ∈ [fp32, fp16, bf16, e5m2, e4m3], 2 ^ f.w - 1 < 2 ^ f.w ∧ decodeF f (2 ^ (f.w - 1)) ≠ .nan ∧ decodeF f 1 ≠ .nan) := by
  decide +kernel

theorem witness_Conversions : AllReady usual
    ([caseL .fcvt (lf 3 4 5 1 16) (fun x => [{ spec := x.a.toNat, ty := .f32 }, { spec := x.b.toNat, ty := .f32 }]) [3],
      caseL .fcvt (lf 3 4 479 0 15) (fun x => [{ spec := x.a.toNat, ty := .f32 }, { spec := x.b.toNat, ty := .f32 }]) [3],
      caseL .f2i (lf 3 2 0 0 1) (fun x => [{ spec := x.a.toNat, ty := .f32 }]) [3],
      caseL .f2i (lf 4 2 0 1 20) (fun x => [{ spec := x.a.toNat, ty := .f32 }]) [4, 5],
      caseL .i2f (lf 4 2 0 1 0) (fun x => [srcA x]) [4], caseL .i2f (lf 4 2 0 0 20) (fun x => [wide x.a .s64]) [4],
      caseL .pack2 (lf 4 2 3 0 0) (fun x => [srcA x, srcB x]) [4], caseL .pack2 (lf 4 2 3 0 4) (fun x => [srcA x, srcB x]) [4]] ++
      ([(0, .w32), (1, .w32), (3, .f16), (4, .bf16)] : List (Nat × OTy)).map (fun p =>
        caseL .unpack2 (lf 4 2 0 1 (4 * p.1)) (fun x => [{ spec := x.a.toNat, ty := p.2 }]) [4])) :=
  all_ready (by decide +kernel)

/-- The usual state with number formats of its own: E4M3, E2M1, INT8 and CB4 through slot 5. -/
def formats (i : Instr) : State := at_ (encode i) (fun t => { t with ct := { t.ct with nf := [0x40070342, 0x00010120, 0x0702, 0xC5000300] } })

/-- NRW instructions in the format of nfK. -/
def narrow (k : Nat) : List Case :=
  [caseL .nadd (lf 39 0 1 4 (28 + k)) (fun x => [srcA x, srcB x]) [39], caseL .nmul (lf 39 0 1 0 (28 + k)) (fun x => [srcA x, srcB x]) [39],
   caseL .nfma (lf 39 0 1 2 (28 + k)) (fun x => [srcA x, srcB x, srcC x]) [39],
   caseL .nmin (lf 39 0 1 0 (28 + k)) (fun x => [srcA x, srcB x]) [39], caseL .nmax (lf 39 0 1 0 (28 + k)) (fun x => [srcA x, srcB x]) [39],
   caseL .ncvt (lf 39 0 3 2 (28 + k)) (fun x => [srcA x]) [39],
   caseL .npack (lf 39 0 483 1 (28 + k)) (fun x => [{ spec := x.a.toNat, ty := if 2 ≤ k then .w32 else .f32 }, srcB x, srcD x]) [39],
   caseL .npack (lf 39 0 487 1 (28 + k)) (fun x => [{ spec := x.a.toNat, ty := if 2 ≤ k then .w32 else .f32 }, srcB x, srcD x]) [39],
   caseL .nunpack (lf 39 0 483 0 (28 + k)) (fun x => [srcA x, srcB x]) [39],
   caseL .nunpack (lf 39 0 504 0 (28 + k) (some 8)) (fun x => [srcA x, srcB x]) [39]]

theorem witness_NarrowFormats :
    AllReady formats (narrow 0 ++ narrow 1 ++ narrow 2 ++ narrow 3) ∧
    (∀ k < 3, nfValid (nfOf (formats (.nadd (lf 0 0 0 0))) 0 k) = true ∧ (nfFmt (nfOf (formats (.nadd (lf 0 0 0 0))) 0 k)).rule ≠ 3) ∧
    ((nfFmt 0xC5000300).rule = 3 ∧ (nfFmt 0xC5000300).isInt = true ∧ nfValid 0xC5000300 = true) ∧
    (nfFmt 0x0702).w = (nfFmt 0x40070342).w ∧ (nfFmt 0x0702).w ≠ (nfFmt 0x00010120).w := by
  refine ⟨all_ready ?_, ?_, ?_, ?_⟩ <;> decide +kernel

/-- The sources of a compare. -/
theorem witness_ComparisonsAndBits : AllReady usual
    ([caseL .icmp (lf 3 4 5 2 0) cmpSrcs [], caseL .icmp (lf 404 384 480 13 20) cmpSrcs [404], caseL .icmpu (lf 7 4 6 5 24) cmpSrcs [],
      caseL .icmpu (lf 0 4 5 8 4) cmpSrcs [0],
      caseL .fcmp (lf 1 4 5 7 8) (fun x => [{ spec := x.a.toNat, ty := .f32 }, { spec := x.b.toNat, ty := .f32 }]) [],
      caseL .fcmp (lf 1 4 5 14 8) (fun x => [{ spec := x.a.toNat, ty := .f32 }, { spec := x.b.toNat, ty := .f32 }]) [1],
      caseL .fclass (lf 1 4 0 511 8) (fun x => [{ spec := x.a.toNat, ty := .f32 }]) [], caseL .kand (lf 1 0 7 0) (fun x => [srcK x.a, srcK x.b]) [],
      caseL .kor (lf 7 1 2 0) (fun x => [srcK x.a, srcK x.b]) [], caseL .kxor (lf 1 1 1 0) (fun x => [srcK x.a, srcK x.b]) [],
      caseL .kinv (lf 1 0 0 0) (fun x => [srcK x.a]) [], caseL .kmov (lf 1 39 0 0) (fun x => [srcA x]) [],
      caseL .kmov (lf 2 390 0 1) (fun x => [srcA x]) [], caseL .kmov (lf 39 7 0 2) (fun x => [srcK x.a]) [39],
      caseL .kmov (lf 384 7 0 3) (fun x => [srcK x.a]) []] ++
      [384, 39].map (fun d => { caseL .kpop (lf d 1 0 0) (fun x => [srcK x.a]) [d] with rd := fun _ => lanesOf 0xFFFFFFFF })) ∧
    (∀ c ∈ [0, 0x7FFFFFFF, 0x80000000, 0xFFFFFFFF], c < 2 ^ 32) := by
  refine ⟨all_ready ?_, ?_⟩ <;> decide +kernel

theorem witness_LaneAndQuadExchanges :
    AllReady usual ((List.range 4).map (fun m => caseL .lxch (lf 39 0 1 0 (8 * m + m)) (fun x => [srcA x, srcB x]) [39]) ++
      (List.range 4).map (fun m => caseL .vote (lf 39 0 0 0 (8 * m)) (fun x => [srcA x]) [39]) ++
      [caseL .bcast (lf 39 0 495 0) (fun x => [srcA x, srcB x]) [39]]) ∧
    AllReady usual ([(.qswap, 483), (.qbcast, 480), (.qred, 0)].map (fun p : (LForm → Instr) × Nat =>
      { caseL p.1 (lf 39 0 p.2 0) (fun x => [srcA x]) [39] with rd := quadSources 0xFFFFFFFF })) ∧
    groupOf (usual (.qred (lf 0 0 0 0))) { th := 0, k := 0 } = 0xFFFFFFFF := by
  refine ⟨all_ready ?_, all_ready ?_, ?_⟩ <;> decide +kernel

theorem witness_LaneReductions : AllReady usual
    ((List.range 11).map (fun m => caseL .redux (lf 39 0 0 0 m) (fun x => [srcA x]) [39]) ++
      (List.range 11).map (fun m => caseL .scan (lf 39 0 0 0 (m + 16 * (m % 2))) (fun x => [srcA x]) [39])) :=
  all_ready (by decide +kernel)

theorem witness_PackingAndIntersection :
    AllReady usual [caseL .compress (lf 39 0 1 0) (fun x => [srcA x, srcB x]) [39], caseL .expand (lf 39 0 1 0) (fun x => [srcA x, srcB x]) [39],
      caseL .isect (lf 38 0 1 446 7) (fun x => [srcA x, srcB x]) [38, 39],
      { caseL .rdlane (lf 384 0 504 0 0 (some 31)) (fun x => [srcA x, srcB x]) [] with rd := fun _ => [31] },
      caseL .part (lf 0 482 0 0) (fun x => [srcA x]) [], caseL .part (lf 0 504 0 0 0 (some 32)) (fun x => [srcA x]) []] ∧
    (given (usual (.part (lf 0 504 0 0 0 (some 32)))) (issL (lf 0 504 0 0 0 (some 32)) 0 0) [srcA (lf 0 504 0 0)]).v 0 0 = 2 ^ 5 ∧
    (given (usual (.rdlane (lf 384 0 504 0 0 (some 31)))) (issL (lf 384 0 504 0 0 (some 31)) 0 0) [srcA (lf 384 0 504 0), srcB (lf 384 0 504 0)]).v 1 0 = 31 ∧
    ([3, 5, 0xFFFFFFFE] : List Nat).Pairwise (· < ·) ∧ isectTile [3, 5, 9, 12, 20, 21, 30, 40] [5, 6, 12, 19, 21, 22, 23, 50] =
      ([(1, 0), (3, 2), (5, 4)], 8, 7) := by
  refine ⟨all_ready ?_, ?_, ?_, ?_⟩ <;> decide +kernel

theorem paidBelow_of {t : Strand} {l : Nat} (h : (t.frame l).base ≤ (t.frame l).lo) : PaidBelow t l := fun p h1 h2 => by omega

theorem paidFor_of {t : Strand} {l top : Nat} (h : top ≤ t.rg.qf + (t.frame l).lo) : PaidFor t l top := fun p h1 h2 => by omega

/-- The usual state with one operation in flight, of the thread at issue. -/
def flying (w : Work) (paths : List Nat := []) (dests : List Nat := []) (th : Nat := 0) : State :=
  { at_ [] with fl := [{ id := 5, th := th, core := 0, ctx := 1, launch := 4, paths := paths, dests := dests, work := w }]
                run := { fresh := 16, nextId := 6, cur := some 0 } }

theorem witness_ConfigurationInstructions_formats :
    AllReady usual [caseL .nfset (lf 0 504 0 0 3 (some 0xC5000300)) (fun x => [srcA x]) [],
      caseL .nfset (lf 0 504 0 0 0 (some 0xFFFFFFFF)) (fun x => [srcA x]) [], caseL .nfget (lf 39 0 0 0 3) (fun _ => []) [39],
      caseL .nfget (lf 447 0 0 0 0) (fun _ => []) [447]] ∧
    nfValid 0xC5000300 = true ∧ nfValid 0xFFFFFFFF = false := by
  refine ⟨all_ready ?_, ?_, ?_⟩ <;> decide +kernel

theorem witness_ConfigurationInstructions_codebooks :
    AllReady usual [caseL .cbld (lf 0 440 63 0) (fun x => [{ spec := x.a.toNat, regs := 8 }]) [], caseL .cbrd (lf 384 0 63 0) (fun _ => []) []] ∧
    (∀ c ∈ [0, 0x8000, 0x3780, 0x477F], cbEntryOk c = true) ∧ (∀ c ∈ [1, 0x4780, 0x7F80, 0x7FC0], cbEntryOk c = false) ∧
    (let s := flying (.cbld 1 63 (List.replicate 16 0x3F80))
     s.flight? 5 = s.fl.head? ∧ s.hasCtx 1 = true ∧ ∀ g ∈ s.fl, g.ctx = 1 → g.done = false → 63 ∉ g.caps) := by
  refine ⟨all_ready ?_, ?_, ?_, ?_⟩ <;> decide +kernel

theorem witness_ConfigurationInstructions_queues :
    AllReady usual [caseL .lqset (lf 463 488 0 0) (fun x => [{ spec := x.a.toNat }]) [], caseL .lqset (lf 448 481 0 0) (fun x => [{ spec := x.a.toNat }]) [],
      caseL .lqclr (lf 448 0 0 0) (fun _ => []) []] ∧
    (let s := usual (.lqset (lf 463 488 0 0))
     max 8 (s.transTh (s.th 0)).frame + 1 ≤ (s.th 0).rg.q - (s.th 0).rg.lqs.length ∧ (∀ l ∈ liveLanes (s.th 0), PaidBelow (s.th 0) l) ∧
     kordered (s.th 0).rg.lqs = true) := by
  refine ⟨all_ready (by decide +kernel), by decide +kernel, ?_, by decide +kernel⟩
  have h : ∀ l ∈ liveLanes ((usual (.lqset (lf 463 488 0 0))).th 0), (((usual (.lqset (lf 463 488 0 0))).th 0).frame l).base ≤
      (((usual (.lqset (lf 463 488 0 0))).th 0).frame l).lo := by decide +kernel
  exact fun l hl => paidBelow_of (h l hl)

/-- The operand of a frame operation. -/
def frameSrc (x : LForm) : List Opnd := [{ spec := x.a.toNat }]

/-- Whether a thread has the shape. -/
def shapedB (t : Strand) : Bool :=
  t.rg.frames.length == 32 && t.ln.items.length == 32 && t.ln.arr.length == 8 && t.ct.nf.length == 4 && t.ct.nf.all (fun w => nfValid w.toNat)

theorem shaped_of {t : Strand} (h : shapedB t = true) : Shaped t := by
  simp only [shapedB, Bool.and_eq_true, beq_iff_eq, List.all_eq_true] at h
  exact ⟨h.1.1.1.1, h.1.1.1.2, h.1.1.2, h.1.2, fun w hw => Or.inl (h.2 w hw)⟩

theorem witness_FrameSizes :
    AllReady usual (([481, 488, 489, 0].map (fun a => caseL .frame (lf 0 a 0 0) frameSrc [])) ++
      ([481, 483, 484, 0].map (fun a => caseL .grow (lf 0 a 0 0) frameSrc [])) ++
      ([481, 484, 485, 0].map (fun a => caseL .trim (lf 0 a 0 0) frameSrc []))) ∧
    (let u := (usual (.frame (lf 0 488 0 0))).th 0
     Shaped u ∧ ((usual (.frame (lf 0 488 0 0))).transTh u).frame = 8 ∧ (∀ l, l < 32 → (u.frame l).size = 5 ∧ (u.frame l).base = 0 ∧ (u.frame l).lo = 0) ∧
       ∀ l, PaidFor u l 8) ∧
    (given (usual (.frame (lf 0 488 0 0))) (issL (lf 0 488 0 0) 0 0) (frameSrc (lf 0 488 0 0))).v 0 31 = 8 := by
  refine ⟨all_ready (by decide +kernel), ⟨?_, by decide +kernel, by decide +kernel, fun l => paidFor_of ?_⟩, by decide +kernel⟩
  · exact shaped_of (by decide +kernel)
  · have : (8 : Nat) ≤ ((usual (.frame (lf 0 488 0 0))).th 0).rg.qf := by decide +kernel
    omega

theorem witness_RingAndFlush :
    AllReady usual [caseL .growTry (lf 0 481 0 0 23) frameSrc [], caseL .growTry (lf 0 483 0 0 17) frameSrc [],
      caseL .growRing (lf 447 488 0 0 8) frameSrc [], caseL .growRing (lf 384 504 0 0 8 (some 17)) frameSrc [],
      caseL .growRing (lf 384 504 0 0 8 (some 256)) frameSrc [], caseL .flush (lf 0 0 0 0) (fun _ => []) []] ∧
    (let s := usual (.growRing (lf 384 504 0 0 8 (some 17)))
     let u := s.th 0
     u.rg.q = 16 ∧ 1 ≤ (freePlies s u.pl.ctx u.pl.core u.pl.quad u.pl.half).length ∧ (∀ l ∈ liveLanes u, (u.frame l).size ≤ u.rg.qf) ∧
     (∀ l ∈ liveLanes u, PaidBelow u l) ∧ ∀ l ∈ liveLanes u, (u.frame l).depth ≤ (u.frame l).linkLow) := by
  refine ⟨all_ready (by decide +kernel), by decide +kernel, by decide +kernel, by decide +kernel, ?_, by decide +kernel⟩
  have h : ∀ l ∈ liveLanes ((usual (.growRing (lf 384 504 0 0 8 (some 17)))).th 0),
      (((usual (.growRing (lf 384 504 0 0 8 (some 17)))).th 0).frame l).base ≤
      (((usual (.growRing (lf 384 504 0 0 8 (some 17)))).th 0).frame l).lo := by decide +kernel
  exact fun l hl => paidBelow_of (h l hl)

/-- The tables of a context that map its first GiB to the second GiB of near DRAM, readable and writable: a table entry and a leaf. -/
def tables : List Host.Cell := [(0x10000, 1), (0x10002, 2), (0x20000, 0x0F), (0x20003, 0x40), (0x20009, 0x0A)]

/-- A state whose context has those tables, with its pool at 128 MiB. -/
def mapped (s : State) : State :=
  { s with mem := tables, ctxs := s.ctxs.map (fun e => (e.1, { e.2 with root := 0x10000, poolBase := 0x8000000, poolSize := 0x1000000 })) }

theorem memOk_mapped (s : State) : MemOk (mapped s) := by
  show Memory.wf tables = true
  decide

/-- A state in which the reel has a transfer to make or under way. -/
def needing (n : Need) (q depth : Nat) (x : Option Xfer) : State := mapped (at_ [] (fun t => { t with
  rg := { t.rg with need := [n], frames := List.replicate 32 { base := 3, lo := 1, size := 5, depth := depth, linkLow := 1 }, q := q,
                    xfer := x } }))

/-- What the beginning of a transfer asks of the state. -/
def mayBegin (s : State) : Bool :=
  (kget? s.ths 0).isSome && !(s.th 0).ps.halted && (s.th 0).rg.xfer == none && lockRoom s (s.th 0).pl.core

/-- What the end of a transfer asks of the state. -/
def mayEnd (s : State) (n : Need) (ahead ok : Bool) : Bool :=
  (kget? s.ths 0).isSome && (s.th 0).rg.xfer == some { need := n, id := 9, ahead := ahead } && !lockWaits s 9 &&
    (n.loc (endXfer s 0) 0).1.isOk == ok

/-- The conditions of work ahead in a lane: to pay out a ply and a record, and to haul in either. -/
def mayAhead (s : State) (l : Nat) : List Bool :=
  let u := s.th 0
  let f := u.frame l
  [decide (f.lo + u.rg.qf ≤ f.base + f.size + 1 ∧ (f.lo, l) ∉ u.rg.clean),
   decide (f.depth = f.linkLow + 16 ∧ (f.linkLow, l) ∉ u.rg.kept),
   decide (0 < f.lo ∧ chainTop u (s.transTh u).frame l ≤ f.lo + u.rg.qf - 1), decide (0 < f.linkLow ∧ f.depth < f.linkLow + 16)]

theorem witness_ReelTransfers_needed :
    let n : Need := { pay := true, link := false, idx := 1, lane := 31 }
    let m : Need := { pay := false, link := true, idx := 0, lane := 0 }
    (mayBegin (needing n 8 17 none) = true ∧ ((needing n 8 17 none).th 0).rg.need.find? (fun n => n.pay == true) = some n ∧
      mayBegin (needing m 8 17 none) = true ∧ ((needing m 8 17 none).th 0).rg.need.find? (fun n => n.pay == false) = some m) ∧
    (∀ k ∈ [n, m], let s := needing k 8 17 (some { need := k, id := 9, ahead := false })
      MemOk s ∧ NoneDue s 0 ∧ mayEnd s k false true = true ∧ k ∈ (s.th 0).rg.need) ∧
    ∀ k ∈ [n, m], let s := { needing k 8 17 (some { need := k, id := 9, ahead := false }) with mem := [] }
      NoneDue s 0 ∧ mayEnd s k false false = true ∧ k ∈ (s.th 0).rg.need := by
  refine ⟨by decide +kernel, fun k hk => ⟨memOk_mapped _, ?_⟩, ?_⟩
  · revert k
    unfold NoneDue
    decide +kernel
  · unfold NoneDue
    decide +kernel

theorem witness_ReelTransfers_ahead :
    let n (pay link : Bool) (idx : Nat) : Need := { pay := pay, link := link, idx := idx, lane := 31 }
    let s (k : Need) (x : Option Xfer) : State := if k.pay then needing k 8 17 x else needing k 16 5 x
    ∀ e ∈ [(n true false 1, 0), (n true true 1, 1), (n false false 0, 2), (n false true 0, 3)],
      mayBegin (s e.1 none) = true ∧ shapedB ((s e.1 none).th 0) = true ∧ ((s e.1 none).th 0).pl.kind = .strand ∧
      ((s e.1 none).th 0).live.getLsbD 31 = true ∧ (mayAhead (s e.1 none) 31)[e.2]? = some true ∧
      mayEnd (s e.1 (some { need := e.1, id := 9, ahead := true })) e.1 true true = true ∧
      (mayAhead (s e.1 (some { need := e.1, id := 9, ahead := true })) 31)[e.2]? = some true := by
  decide +kernel

/-! #### Memory -/

theorem pathsOpen_of {s : State} {th : Nat} {ps : List Nat} (h : s.fl.length + ps.length ≤ 255) (hc : (s.th th).qn.closed = []) :
    PathsOpen s th ps := fun p _ => by
  have h1 := List.length_filter_le (fun f : Flight => f.th == th && f.paths.contains p) s.fl
  have h2 := List.count_le_length (a := p) (l := ps)
  have h3 : pledged (s.th th) p = 0 := by simp [pledged, hc]
  unfold counter
  omega

/-- Whether a thread has room for the operations that an instruction begins. -/
def roomsB (s : State) (th : Nat) (ps : List Nat) : Bool := decide (∀ p ∈ ps, counter s th p + ps.count p + pledged (s.th th) p ≤ 255)

/-- The strand with only lanes 0 and 31 live, in its group. -/
def few (t : Strand) : Strand :=
  { t with ps := { t.ps with s0 := { t.ps.s0 with grp := some { mask := 0x80000001 } } }
           ln := { t.ln with exited := 0x7FFFFFFE } }

/-- The registers of the addressed state. -/
def someCells : List (Nat × Word) :=
  [(sCell 1, 0xFF000000), (sCell 2, 0x1000), (sCell 5, 0xFF020000), (sCell 6, 0x80000000), (sCell 7, 0xFF020000), (sCell 10, 3), (sCell 11, 2)]

/-- The usual state of lanes 0 and 31, with `[s0]` an address of the shared space, `[s2]` one that tables map, and `[s4]` and `[s6]`
plain and exact cells of the common space. -/
def addressed (body : List Word) : State := mapped (at_ body (fun t => few (withCells someCells t)))

/-- A case of a memory access and where the access of a lane leads. -/
structure MemCase extends Case where
  dest : State → State → Nat → Except FClass Reach × State

/-- The lanes' accesses of a case in the state where it is at issue. -/
def MemCase.walked (c : MemCase) (s : State) :=
  checkLanes (c.dest s) (poppedState s c.iss c.srcs) (c.rd (given s c.iss c.srcs).act)

/-- A case is well formed, ready and has its paths open, and its lanes' accesses pass their checks. -/
def MemCase.Reaches (c : MemCase) (s : State) : Prop :=
  c.ins.wf = true ∧ Ready s c.iss c.srcs c.dsts c.rd ∧ (∀ ps : List Nat, ps.length ≤ 33 → PathsOpen s 0 ps) ∧
  ∃ rs s', AllReach s c.iss c.srcs (c.rd (given s c.iss c.srcs).act) (c.dest s) rs s'

/-- Whether a case reaches. -/
def MemCase.reaches (c : MemCase) (s : State) : Bool :=
  c.ok s && decide (s.fl.length ≤ 222) && ((s.th 0).qn.closed == []) && (lanesFault (s.th c.iss.th).ln.helper (c.walked s).1).isNone

theorem reaches_of {f : Instr → State} {l : List MemCase} (h : l.all (fun c => c.reaches (f c.ins)) = true) :
    ∀ c ∈ l, c.Reaches (f c.ins) := by
  intro c hc
  have hk := List.all_eq_true.mp h c hc
  simp only [MemCase.reaches, Case.ok, Bool.and_eq_true, decide_eq_true_eq, beq_iff_eq] at hk
  exact ⟨hk.1.1.1.1, ready_of hk.1.1.1.2, fun ps hp => pathsOpen_of (by omega) hk.1.2, _, _, rfl, Option.isNone_iff_eq_none.mp hk.2⟩

/-- A sized access with its destinations. -/
def sizedCase (ins : LForm → Instr) (x : LForm) (srcs : LForm → List Opnd) (dsts : List Nat) (rd : Word → List Nat) (acc : Acc) : MemCase :=
  { caseL ins x srcs dsts with
    rd := rd
    dest := fun s u l => accessAt u 0 (laneAddr x (sizeZ x) ((given s (issL x 0 0) (srcs x)).v 0 l) ((given s (issL x 0 0) (srcs x)).v 1 l))
      (sizeZ x) acc }

/-- A case of an `lde` or `ste`. -/
structure ElemCase extends Case where
  x : LForm
  store : Bool

/-- The elements' accesses of a case up to their scales, in the state where it is at issue. -/
def ElemCase.walked (c : ElemCase) (s : State) :=
  checkLanes (fun u l => elemAt u 0 ((given s c.iss c.srcs).v 0 l) ((given s c.iss c.srcs).v 1 l) (offC c.x) c.store)
    (poppedState s c.iss c.srcs) (c.rd (given s c.iss c.srcs).act)

/-- What all checks of a case answer. -/
def ElemCase.checked (c : ElemCase) (s : State) : List (Nat × Except FClass Reach) :=
  (c.walked s).1.map (fun e => (e.1, e.2.bind (elemOk (c.walked s).2 0 e.1 c.store)))

/-- A case is well formed, ready and has its paths open, and its elements' checks answer a fault or none. -/
def ElemCase.Checks (c : ElemCase) (s : State) (ok : Bool) : Prop :=
  c.ins.wf = true ∧ Ready s c.iss c.srcs c.dsts c.rd ∧ (∀ ps : List Nat, ps.length ≤ 33 → PathsOpen s 0 ps) ∧
  ∃ rs s', (s.th c.iss.th).ln.helper = 0 ∧
    (∃ rs0, c.walked s = (rs0, s') ∧ readWaits s' 0 ((passed rs0).filterMap (·.2.scale)) = none ∧
      rs = rs0.map (fun e => (e.1, e.2.bind (elemOk s' 0 e.1 c.store)))) ∧ (lanesFault 0 rs).isNone = ok

/-- Whether a case checks. -/
def ElemCase.checks (c : ElemCase) (s : State) (ok : Bool) : Bool :=
  c.ok s && decide (s.fl.length ≤ 222) && ((s.th 0).qn.closed == []) && ((s.th c.iss.th).ln.helper == 0) &&
  (readWaits (c.walked s).2 0 ((passed (c.walked s).1).filterMap (·.2.scale))).isNone && ((lanesFault 0 (c.checked s)).isNone == ok)

theorem checks_of {f : Instr → State} {l : List ElemCase} {ok : Bool} (h : l.all (fun c => c.checks (f c.ins) ok) = true) :
    ∀ c ∈ l, c.Checks (f c.ins) ok := by
  intro c hc
  have hk := List.all_eq_true.mp h c hc
  simp only [ElemCase.checks, Case.ok, Bool.and_eq_true, decide_eq_true_eq, beq_iff_eq] at hk
  exact ⟨hk.1.1.1.1.1.1, ready_of hk.1.1.1.1.1.2, fun ps hp => pathsOpen_of (by omega) hk.1.1.1.2, _, _, hk.1.1.2,
    ⟨_, rfl, Option.isNone_iff_eq_none.mp hk.1.2, rfl⟩, hk.2⟩

/-- An `lde`. -/
def ldeCase (x : LForm) : ElemCase :=
  { caseL .lde x (fun x => [baseA x, srcB x]) [x.d.toNat] with x := x, store := false }

/-- A `ste` in an issuing strand without helpers. -/
def steCase (x : LForm) : ElemCase :=
  { caseL .ste x (fun x => [baseA x, srcB x, dataD x 1]) [] with
    rd := fun act => storeLanes (strandAt []) act [x.a, x.b, x.d]
    x := x
    store := true }

/-- A load of a destination, address, offset with scope, and modifier. -/
def loadCase (d a c md : Nat) : MemCase :=
  sizedCase .ld (lf d a 479 c md) (fun x => [baseA x, srcB x]) ((List.range (sizeRegs (lf d a 479 c md))).map (· + d)) readActive .read

/-- A store in an issuing strand without helpers. -/
def storeCase (d a c md : Nat) : MemCase :=
  sizedCase .st (lf d a 479 c md) (fun x => [baseA x, srcB x, dataD x (sizeRegs x)]) []
    (fun act => storeLanes (strandAt []) act [(lf d a 479 c md).a, (lf d a 479 c md).b, (lf d a 479 c md).d]) .write

/-- The addressed state of an instruction. -/
def addr (i : Instr) : State := addressed (encode i)

theorem witness_LoadsIssue :
    (∀ c ∈ [loadCase 39 384 0 16, loadCase 36 384 31 24, loadCase 38 386 32 20, loadCase 0 386 287 18, loadCase 390 384 192 17,
        loadCase 383 386 0 12], c.Reaches (addr c.ins)) ∧
    (∀ c ∈ [ldeCase (lf 39 386 2 31 0)], c.Checks (addr c.ins) true) ∧
    AllReady addr [caseL .prefetch (lf 0 386 479 32 0) (fun x => [baseA x, srcB x]) [],
      caseL .prefetch (lf 0 384 479 31 8) (fun x => [baseA x, srcB x]) []] := by
  refine ⟨reaches_of ?_, checks_of ?_, all_ready ?_⟩ <;> decide +kernel

theorem witness_LoadsReturn :
    (let l : LoadLane := { lane := 31, cells := [300], pas := [8, 9, 10, 11] }
     let s := flying (.load [l] 3 true) [1] [300]
     ∃ f, s.flight? 5 = some f ∧ f.work = .load [l] 3 true ∧ f.done = false ∧ (kget? s.ths f.th).isSome = true ∧ ([l].flatMap (·.cells)).Nodup ∧
      acquirePending s f = false ∧ readPending s f (readsOf f) = false ∧ commitPending s f (readsOf f) = false ∧ narrowOf s (readsOf f) = []) ∧
    (let s := flying (.abtest 0 0 900 1) [2]
     ∃ f, s.flight? 5 = some f ∧ f.work = .abtest 0 0 900 1 ∧ f.done = false ∧ (kget? s.ths f.th).isSome = true ∧ acquirePending s f = false) ∧
    (let s := flying .fence
     ∃ f, s.flight? 5 = some f ∧ f.work = .fence ∧ f.done = false ∧
      ∀ g ∈ s.fl, g.th = f.th → g.id < f.id → g.done = false → g.lanes &&& f.lanes ≠ 0 → readsOf g = [] ∧ acquires g = false) ∧
    (let l : LoadLane := { lane := 0, cells := [], pas := [0x8000] }
     let s := { flying (.load [l] 4 true) with ch := { narrow := [(256, (2, 7))] } }
     ∃ f, s.flight? 5 = some f ∧ f.work = .load [l] 4 true ∧ f.done = false ∧ kordered s.ch.narrow = true ∧
      narrowOf s ([l].flatMap (·.pas)) = [(256, (2, 7))] ∧ undrained s 2 8 = false) ∧
    (let l : LoadLane := { lane := 0, cells := [], pas := [0x40000020] }
     let x : SectorW := { pa := 0x40000020, mask := 0xFF00, data := 0x1200, leaf := [0x20000] }
     let g : Flight := { id := 4, th := 1, core := 2, ctx := 1, launch := 4, paths := [1], work := .commit [x] 0 }
     let s := mapped { flying (.load [l] 4 true) with
       fl := g :: (flying (.load [l] 4 true)).fl, ch := { narrow := [(0x40000020 / 128, (2, 7))] } }
     MemOk s ∧ s.flight? 5 ≠ none ∧ kordered s.ch.narrow = true ∧ narrowOf s ([l].flatMap (·.pas)) = [(0x40000020 / 128, (2, 7))] ∧
       s.fl.filter (fun g => g.core == 2 && g.id ≤ 7) = [g] ∧ s.flight? g.id = some g ∧ canApply s g 0 x = true ∧ copiesOf s [x.pa] = [] ∧
       ∀ a ∈ x.leaf, a < x.pa ∨ x.pa + 32 ≤ a) := by
  refine ⟨⟨_, rfl, ?_⟩, ⟨_, rfl, ?_⟩, ⟨_, rfl, ?_⟩, ⟨_, rfl, ?_⟩, memOk_mapped _, ?_⟩ <;> decide +kernel

/-- A collective store of the whole group. -/
def cstX : LForm := lf 1 386 480 63 16

theorem witness_StoresIssueAndApply :
    (∀ c ∈ [storeCase 0 384 0 16, storeCase 36 384 31 24, storeCase 39 386 32 0, storeCase 384 386 257 17, storeCase 479 384 31 20, storeCase 3 384 64 17], c.Reaches (addr c.ins)) ∧
    (∀ c ∈ [steCase (lf 39 386 2 31 3), steCase (lf 39 386 2 32 16)], c.Checks (addr c.ins) true) ∧
    (∀ es, (bufPutAll ((addressed []).th 0).qn es).2 = 0 → StoresFit (addressed []) 0 es) ∧
    (let e (a : Nat) : BufEntry := { lane := 31, chunk := a, half0 := a, half1 := a + 8, mask := 1, data := 1, leaf := [] }
     let s := (addressed []).modTh 0 (fun t => { t with qn := { t.qn with buf := (List.range 16).map (fun j => e (16 * j)) } })
     (bufPutAll (s.th 0).qn [e 256]).2 ≠ 0 ∧ (bufPutAll (s.th 0).qn [e 256]).1.used ≤ logCap s (s.th 0) ∧ lockRoom s (s.th 0).pl.core = true) ∧
    (let s := addr (.cst cstX)
     let i := issL cstX 0 0
     let srcs := [baseA cstX, srcB cstX, dataD cstX 1]
     let ls := [0, 31]
     let r := checkLanes (fun s l => accessAt s 0 ((laneAddr cstX 4 ((given s i srcs).v 0 0) ((given s i srcs).v 1 0) + ls.idxOf l * 4) % 2 ^ 64) 4 .write)
       (poppedState s i srcs) (ls.filter (fun l => !(0 : Word).getLsbD l))
     (Instr.cst cstX).wf = true ∧ readyB s i srcs [] (fun act => lanesOf (act &&& ~~~0)) = true ∧ lanesFault 0 r.1 = none ∧
       (bufPutAll (s.th 0).qn (entriesOf r.2 0 (passed r.1) ((given s i srcs).v 2))).2 = 0) ∧
    (let x : SectorW := { pa := 0x40000020, mask := 0xFF00, data := 0x1200, leaf := [0x20000] }
     let s := mapped (flying (.commit [x] 0) [1])
     MemOk s ∧ ∃ f, s.flight? 5 = some f ∧ f.work = .commit [x] 0 ∧ ([x] : List SectorW)[0]? = some x ∧ canApply s f 0 x = true ∧ copiesOf s [x.pa] = [] ∧
      ∀ a ∈ x.leaf, a < x.pa ∨ x.pa + 32 ≤ a) := by
  refine ⟨reaches_of (by decide +kernel), checks_of (by decide +kernel), fun es h => Or.inl h, by decide +kernel, by decide +kernel, memOk_mapped _, _, rfl, ?_⟩
  decide +kernel

theorem witness_AccessFaults :
    (let fails (n : Nat) (x : LForm) : Bool :=
      let s := addr (((laneAccesses (addressed []) x 0 0)[n]?).elim (.ldi { st := 0, d := 0, imm := 0 }) (·.ins))
      ((laneAccesses s x 0 0)[n]?).any (fun a => a.ins.wf && readyB s (issL x 0 0) a.srcs a.dsts a.rd &&
        (lanesFault (s.th 0).ln.helper (checkLanes a.check (poppedState s (issL x 0 0) a.srcs) (a.rd (given s (issL x 0 0) a.srcs).act)).1).isSome)
     fails 0 (lf 39 384 483 0 16) = true ∧ fails 1 (lf 39 388 479 32 16) = true ∧ fails 2 (lf 39 388 0 72 0) = true ∧
     fails 3 (lf 0 388 0 104 0) = true ∧ fails 4 (lf 0 384 0 0 0) = true ∧ fails 5 (lf 0 384 0 5 4) = true) ∧
    (∀ c ∈ [ldeCase (lf 39 388 2 31 0), steCase (lf 39 388 2 31 3)], c.Checks (addr c.ins) false) ∧
    (let x := lf 1 388 480 63 16
     let s := addr (.cst x)
     let i := issL x 0 0
     let srcs := [baseA x, srcB x, dataD x 1]
     let r := checkLanes (fun s l => accessAt s 0 ((laneAddr x 4 ((given s i srcs).v 0 0) ((given s i srcs).v 1 0) + [0, 31].idxOf l * 4) % 2 ^ 64) 4 .write)
       (poppedState s i srcs) ([0, 31].filter (fun l => !(0 : Word).getLsbD l))
     (Instr.cst x).wf = true ∧ readyB s i srcs [] (fun act => lanesOf (act &&& ~~~0)) = true ∧ (lanesFault 0 r.1).isSome = true ∧
       (bufPutAll (s.th 0).qn (entriesOf r.2 0 (passed r.1) ((given s i srcs).v 2))).2 = 0) := by
  refine ⟨?_, checks_of ?_, ?_⟩ <;> decide +kernel

/-- An atomic. -/
def atomCase (dst : Bool) (x : LForm) : MemCase :=
  let z := atomZ (x.md.toNat / 2)
  let srcs : List Opnd := [baseA x, atomB (x.md.toNat / 2) x.b]
  { caseL (if dst then .atom else .red) x (fun _ => srcs) (if dst then (List.range (z / 4)).map (· + x.d.toNat) else []) with
    rd := fun act => if dst then (if isS x.d.toNat then lanesOf (scalarLane (strandAt []) act) else lanesOf (act &&& ~~~(0 : Word)))
      else storeLanes (strandAt []) act [x.a, x.b]
    dest := fun s u l => accessAt u 0 (wrapN (((given s (issL x 0 0) srcs).v 0 l : Int) + sextN x.c.toNat 4 * z) 64) z .atomic }

theorem witness_AtomicInstructions :
    (∀ c ∈ [atomCase true (lf 39 384 0 64 0), atomCase true (lf 38 386 36 336 2), atomCase true (lf 39 384 38 375 22), atomCase true (lf 36 386 32 296 24),
        atomCase true (lf 390 386 480 128 8), atomCase true (lf 39 386 0 192 26), atomCase false (lf 0 386 0 104 0),
        atomCase false (lf 0 386 384 263 28), atomCase false (lf 0 386 479 64 4)], c.Reaches (addr c.ins)) ∧
    (let l : AtomLane := { lane := 0, pa := 0x40000000, cells := [300], v := 7, leaf := [0x20000] }
     let s := mapped (flying (.atom 0 4 4 2 [l]) [6] [300])
     ∃ f, s.flight? 5 = some f ∧ f.work = .atom 0 4 4 2 [l] ∧ f.done = false ∧ (kget? s.ths f.th).isSome = true ∧ ([l].flatMap (·.cells)).Nodup ∧
      acquirePending s f = false ∧ readPending s f (readsOf f) = false ∧ commitPending s f (readsOf f) = false ∧ homeWaits s f.th f.id f.lanes f.hb = false ∧
       copiesOf s (readsOf f) = [] ∧ copiesOf { s with ch := { dir := [(0x40000000 / 128, 1)] } } (readsOf f) ≠ []) ∧
    (let l : AtomLane := { lane := 0, pa := 0x40000000, cells := [300], v := 7, leaf := [0x20000] }
     relWaits (flying (.atom 0 4 4 2 [l]) [6] [300]) 0 6 0x80000001 2 = true ∧ relWaits (flying (.atom 0 4 4 2 [l]) [6] [300]) 0 6 0x80000000 2 = false) := by
  refine ⟨reaches_of (by decide +kernel), ⟨_, rfl, ?_⟩, ?_⟩ <;> decide +kernel

/-- A `cm.add` or `cm.max`. -/
def cmCase (ins : LForm → Instr) (x : LForm) : MemCase :=
  let z : Nat := if cmExact x.ty then 32 else 4
  let srcs : List Opnd := [baseA x, { spec := x.b.toNat, ty := if x.ty = 2 ∨ x.ty = 4 then .f32 else .w32 }]
  { caseL ins x (fun _ => srcs) [] with
    rd := fun act => storeLanes (strandAt []) act [x.a, x.b]
    dest := fun s u l => cmAt u 0 (wrapN (((given s (issL x 0 0) srcs).v 0 l : Int) + offC x * z) 64) x.ty }

/-- The operands of a range operation. -/
def rangeSrcs (minor : Nat) (x : LForm) : List Opnd :=
  [srcA x, if minor = 2 ∨ minor = 5 then srcB x else { spec := 479 }, srcC x,
    if minor = 5 then { spec := 479 } else { spec := x.d.toNat, ty := if x.ty = 2 ∧ minor = 4 then .f32 else .w32 }]

/-- A range operation, which reads its operands in one lane. -/
def rangeCase (ins : LForm → Instr) (minor : Nat) (x : LForm) : Case :=
  { caseL ins x (rangeSrcs minor) [] with rd := fun act => lanesOf (scalarLane (strandAt []) act) }

theorem witness_CommonMemory_lanes :
    (∀ c ∈ [cmCase .cmAdd (lf 0 388 0 0 0), cmCase .cmAdd (lf 0 388 39 31 8), cmCase .cmAdd (lf 0 390 0 1 12), cmCase .cmAdd (lf 0 390 497 0 16),
        cmCase .cmMax (lf 0 388 0 5 4), cmCase .cmMax (lf 0 390 0 31 16)], c.Reaches (addr c.ins)) ∧
    cmOperand 4 0x3F800000 ≠ none ∧ cmOperand 4 0x7F800000 = none := by
  refine ⟨reaches_of (by decide +kernel), ?_⟩
  decide +kernel

theorem witness_CommonMemory_ranges :
    AllReady addr [rangeCase .cmAxpy 2 (lf 384 386 388 495 0), rangeCase .cmScale 3 (lf 384 386 0 480 8), rangeCase .cmFill 4 (lf 479 386 0 481 12),
      rangeCase .cmFill 4 (lf 480 386 0 495 0), rangeCase .cmSum 5 (lf 0 386 388 481 16)] ∧
    (let c := (addressed []).ctx 1
     (cmRangeAt c 0x1000 15 4 false).isSome = true ∧ (cmRangeAt c 0x80000000 1 32 true).isSome = true ∧ cmOverlap 0x1000 0 15 4 = false) ∧
    PathsOpen (addressed []) 0 [6] ∧
    (∀ m ∈ [2, 3, 4, 5], ∀ got ∈ ([[], [(0, 1), (1, 2)]] : List (List (Nat × Nat))),
      let ys := if m = 5 then [0x100] else [0x100, 0x104]
      let xs := if m = 2 ∨ m = 5 then [0x200, 0x204] else []
      let w : Work := .cmRange m 0 3 ys xs got
      let s := mapped (flying w [6])
      MemOk s ∧ ∃ f, s.flight? 5 = some f ∧ f.work = w ∧ f.done = false ∧
        acquirePending s f = false ∧ readPending s f (readsOf f) = false ∧ commitPending s f (readsOf f) = false) ∧
    (∀ m < 2, ([(0, 1), (1, 2)] : List (Nat × Nat)).any (fun e => e.1 == m) = true) := by
  refine ⟨all_ready (by decide +kernel), by decide +kernel, pathsOpen_of (by decide +kernel) (by decide +kernel), ?_, by decide⟩
  intro m hm got hg
  refine ⟨memOk_mapped _, _, rfl, rfl, rfl, ?_⟩
  revert m
  revert got
  decide +kernel

/-! #### Control -/

/-- Code words from a parcel offset of code object 3 on, as bytes that are not zero. -/
def codeAt (ws : List (Nat × Nat)) : List Host.Cell := ws.foldl (fun m w => memPut m (codeFlat 3 + 4 * w.1) 4 w.2) []

/-- The translation of the code object with code. -/
def trans3 : Trans := { len := 1024, tabOff := 512, tabs := [[64, 80, 65]], frame := 8, fplies := 40, depth := 4, forks := 4 }

/-- A state whose code object is mapped at 2 to the 40, with a clause of two `nop` at parcels 64 and 80 and a target table that names
them. -/
def coded (s : State) : State :=
  { s with mem := codeAt [(64, 3), (66, 0x40), (67, 0x40), (80, 3), (82, 0x40), (83, 0x40), (128, 3), (129, 64), (130, 80), (131, 65)]
           codes := [(3, { ctx := 1, base := 2 ^ 40, trans := [(0, trans3)] })] }

/-- An instruction at issue in the state with code, in which the odd lanes' bit of k1 is set and `[s0]` and `[s1]` are 80 and 65. -/
def inCode (i : Instr) (f : Strand → Strand := id) : State :=
  coded (at_ (encode i) (fun t => f (withCells ([(sCell 0, 80), (sCell 1, 65), (sCell 2, 1), (sCell 3, 2)] ++
    (List.range 16).map (fun l => (kCell 1 (2 * l + 1), 1))) t)))

/-- Where the targets of a transfer's lanes lie. -/
def aims (s : State) (i : Iss) (srcs : List Opnd) (f : State → Nat → Target × State) :=
  (targetsOf f (poppedState s i srcs) (lanesOf (given s i srcs).act)).1

/-- A short branch, guarded or not. -/
def brsAt (k off : Nat) : BrsForm := { k := BitVec.ofNat 3 k, neg := false, off := BitVec.ofNat 17 off, st := 0 }

/-- Whether the fork stack has room. -/
def roomB (s : State) (i : Iss) (dest : Nat → Nat) : Bool :=
  let n := ((lanesOf (groupOf s i)).map dest).eraseDups.length
  n ≤ 1 || (s.th i.th).ps.fork.length + n ≤ (s.transTh (s.th i.th)).forks + (if ((s.th i.th).slot (1 - i.k)).grp.isNone then 2 else 1)

theorem room_iff (s : State) (i : Iss) (dest : Nat → Nat) : roomB s i dest = true ↔ Room s i dest := by
  simp [roomB, Room]

/-- A transfer of control at issue: whether it is ready, the class with which its targets fail, and whether the fork stack has room. -/
def goes (s : State) (ins : Instr) (i : Iss) (srcs : List Opnd) (f : State → Nat → Target × State) : Bool × Option FClass × Bool :=
  (ins.wf && readyB s i srcs [] readActive, (targetFault (aims s i srcs f)).map (·.1), roomB s i (destOf s i (aims s i srcs f)))

/-- The strand with a full fork stack and both slots taken. -/
def forked (t : Strand) : Strand :=
  { t with ps := { t.ps with s1 := { grp := some { mask := 0 } }, fork := List.replicate 4 { mask := 0 } } }

/-- The issue of a short branch. -/
def brsIss (x : BrsForm) : Iss := { th := 0, k := 0, size := 1, st := x.st.toNat, gk := x.k.toNat, gneg := x.neg }

/-- A short branch in a state. -/
def brsGoes (x : BrsForm) (f : Strand → Strand) :=
  goes (inCode (.brs x) f) (.brs x) (brsIss x) [] (fun s _ => headerAt s 0 (reachPc 2 (sextN x.off.toNat 17)))

theorem witness_BranchesAndCalls_branches :
    brsGoes (brsAt 0 62) id = (true, none, true) ∧ brsGoes (brsAt 1 78) id = (true, none, true) ∧
    brsGoes (brsAt 1 62) forked = (true, none, false) ∧ brsGoes (brsAt 1 63) id = (true, some .target, true) ∧
    brsGoes (brsAt 0 131071) id = (true, some .target, true) ∧
    (let x := lf 0 62 0 0
     goes (inCode (.bra x)) (.bra x) (issL x 0 0) [] (fun s _ => headerAt s 0 (reachPc 2 (ctlOff x))) = (true, none, true)) ∧
    (let x (r : Nat) := lf 0 r 0 0
     let jump (x : LForm) := goes (inCode (.jmp x)) (.jmp x) (issL x 0 0) [{ spec := x.a.toNat }] (fun s _ => headerAt s 0
       ((given (inCode (.jmp x)) (issL x 0 0) [{ spec := x.a.toNat }]).v 0 0))
     jump (x 384) = (true, none, true) ∧ jump (x 385) = (true, some .target, true)) ∧
    (let x (r : Nat) := lf 0 r 0 0
     let jump (x : LForm) := goes (inCode (.brx x)) (.brx x) (issL x 0 0) [{ spec := x.a.toNat }] (fun s l =>
       tableTarget s 0 (transAt s (s.th 0) 2) 0 ((given (inCode (.brx x)) (issL x 0 0) [{ spec := x.a.toNat }]).v 0 l))
     jump (x 386) = (true, none, true) ∧ jump (x 0) = (true, some .target, true) ∧ jump (x 387) = (true, some .target, true)) ∧
    (let x := lf 0 386 1 0
     let s := inCode (.brx x)
     (Instr.brx x).wf = true ∧ readyB s (issL x 0 0) [{ spec := x.a.toNat }] [] readActive = true ∧
       (transAt (poppedState s (issL x 0 0) [{ spec := x.a.toNat }]) (s.th 0) (curPc (s.th 0) 0)).tabs.length = 1) := by
  decide +kernel

/-- A call or return at issue where the frames hold, and what the lanes of the call have. -/
def called (t : Strand) : Strand :=
  { t with rg := { t.rg with frames := List.replicate 32 { base := 2, size := 5, depth := 1 },
                             links := (List.range 32).map (fun l => (l, { depth := 0, size := 3, ob8 := 2, ret := 64 })) } }

theorem witness_BranchesAndCalls_calls :
    (let x := lf 4 62 0 0
     let s := inCode (.call x)
     shapedB (s.th 0) = true ∧ goes s (.call x) (issL x 0 0) [] (fun s _ => headerAt s 0 (reachPc 2 (ctlOff x))) = (true, none, true) ∧
     ((s.th 0).frame 0).size = 5 ∧ ((s.th 0).frame 0).depth + 1 ≤ (s.transTh (s.th 0)).depth ∧ ((s.th 0).frame 0).base + 4 + 8 ≤ 40 ∧
     (∀ l < 32, ((s.th 0).frame l).depth ≠ ((s.th 0).frame l).linkLow + 16)) ∧
    (let x := lf 0 386 0 0
     let s := inCode (.callx x)
     shapedB (s.th 0) = true ∧ entryAt (transAt s (s.th 0) 2) 0 0 = some 129 ∧
     (codeRead (poppedState s (issL x 0 0) [{ spec := x.a.toNat }]) 1 3 129 false).1.isOk = true ∧
     (entryZero (poppedState s (issL x 0 0) [{ spec := x.a.toNat }]) 0 0 0).1.isOk = true ∧
     goes s (.callx x) (issL x 0 0) [{ spec := x.a.toNat }] (fun s' l => callxTarget s' 0 0 0
       ((given s (issL x 0 0) [{ spec := x.a.toNat }]).v 0 l)) = (true, none, true)) ∧
    (let s := inCode (.ctlsRet 0) called
     let i := issS 0 0 0
     shapedB (s.th 0) = true ∧ readyB s i [] [] readActive = true ∧
     (∀ l < 32, ((s.th 0).frame l).linkLow < ((s.th 0).frame l).depth ∧
       ((s.th 0).frame l).lo ≤ ((s.th 0).frame l).base - (retRec (s.th 0) l).ob8 ∧
       ((s.th 0).frame l).base - (retRec (s.th 0) l).ob8 + (retRec (s.th 0) l).size ≤ (s.th 0).rg.qf + ((s.th 0).frame l).lo) ∧
     (let rs := (targetsOf (fun s l => headerAt s 0 (retRec ((inCode (.ctlsRet 0) called).th 0) l).ret)
         (poppedState s i []) (lanesOf 0xFFFFFFFF)).1
      (targetFault rs).isNone = true ∧ roomB s i (destOf s i rs) = true)) ∧
    (let x := lf 0 0 0 0
     let s := inCode (.ret x)
     (Instr.ret x).wf = true ∧ readyB s (issL x 0 0) [] [] readActive = true ∧ ((s.th 0).frame 31).depth = 0) := by
  decide +kernel

/-! #### Synchronization and lanes -/

/-- The usual state of an instruction, with one operation in flight of its thread. -/
def besides (w : Work) (paths : List Nat) (i : Instr) : State :=
  { at_ (encode i) with fl := [{ id := 5, th := 0, core := 0, ctx := 1, launch := 4, paths := paths, work := w }]
                        run := { fresh := 16, nextId := 6, cur := some 0 } }

/-- A commit of one sector that is not applied. -/
def oneSector : Work := .commit [{ pa := 0x40000000, mask := 0xFF, data := 1 }] 0

theorem witness_FenceAndWait :
    (∀ c ∈ [12, 13, 14, 20, 4], (caseL .fence (lf 0 0 0 0 c) (fun _ => []) []).ok (usual (.fence (lf 0 0 0 0 c))) = true ∧
      (caseL .fence (lf 0 0 0 0 c) (fun _ => []) []).ok (besides oneSector [1] (.fence (lf 0 0 0 0 c))) = true) ∧
    FreshIds (besides oneSector [1] (.fence (lf 0 0 0 0 12))) ∧
    PathsOpen (besides oneSector [1] (.fence (lf 0 0 0 0 12))) 0 (commitPath ((besides oneSector [1] (.fence (lf 0 0 0 0 12))).th 0) 0xFFFFFFFF) ∧
    (let s := usual (.fence (lf 0 0 0 0 12))
     homeWaits s 0 s.run.nextId 0xFFFFFFFF (hbOf s 0 0xFFFFFFFF) = false ∧ coreWaits s 0 s.run.nextId 0xFFFFFFFF (hbOf s 0 0xFFFFFFFF) = false) ∧
    (let s := besides oneSector [1] (.fence (lf 0 0 0 0 12))
     homeWaits s 0 s.run.nextId 0xFFFFFFFF (hbOf s 0 0xFFFFFFFF) = true ∧ coreWaits s 0 s.run.nextId 0xFFFFFFFF (hbOf s 0 0xFFFFFFFF) = false) ∧
    (let s := besides (.atom 0 4 4 0 [{ lane := 0, pa := 0x40000000, cells := [], v := 7, leaf := [] }]) [6] (.fence (lf 0 0 0 0 12))
     coreWaits s 0 s.run.nextId 0xFFFFFFFF (hbOf s 0 0xFFFFFFFF) = true) ∧
    AllReady usual [caseL .wait (lf 0 480 1 0) (fun x => [srcA x]) [], caseL .wait (lf 0 504 7 0 0 (some 255)) (fun x => [srcA x]) []] ∧
    AllReady (besides oneSector [1]) [caseL .wait (lf 0 480 1 0) (fun x => [srcA x]) [], caseL .wait (lf 0 481 1 0) (fun x => [srcA x]) []] ∧
    counter (besides oneSector [1] (.wait (lf 0 480 1 0))) 0 1 = 1 := by
  unfold FreshIds PathsOpen
  refine ⟨?_, ?_, ?_, ?_, ?_, ?_, all_ready ?_, all_ready ?_, ?_⟩ <;> decide +kernel

/-- The operands of a barrier instruction. -/
def barSrcs (x : LForm) : List Opnd := [srcA x, srcB x]

/-- A workgroup of one strand that has arrived at barrier 7, for a count. -/
def arrived (count : Nat) : State :=
  let s := at_ [] (fun t => { t with ln := { t.ln with arr := (List.replicate 8 0).set 7 0xFFFFFFFF },
                                     qn := { t.qn with closed := [(7, { lane := 3, chunk := 0, half0 := 0, half1 := 1, mask := 1, data := 1, leaf := [] })] } })
  { s with wgs := s.wgs.map (fun e => (e.1, { e.2 with bars := (List.replicate 8 0).set 7 (256 * count) })) }

theorem witness_BarriersAndPhases :
    AllReady usual [caseL .bar (lf 0 480 480 0) barSrcs [], caseL .bar (lf 0 487 504 0 0 (some 32)) barSrcs [],
      caseL .barArrive (lf 0 481 482 0) barSrcs [], caseL .barWait (lf 0 487 0 0) (fun x => [srcA x]) []] ∧
    (let s := usual (.bar (lf 0 487 504 0 0 (some 32)))
     let g := given s (issL (lf 0 487 504 0 0 (some 32)) 0 0) (barSrcs (lf 0 487 504 0 0 (some 32)))
     g.v 0 0 = 7 ∧ g.v 1 0 = 32 ∧ ((s.th 0).grp 0).st = .runnable ∧ ((s.th 0).grp 0).w = false ∧ ((s.th 0).grp 0).hold = .free ∧
       (∀ l ∈ lanesOf g.act, ((s.th 0).arrOf 7).getLsbD l = false) ∧ PathsOpen s 0 (arrivalPath (s.th 0) 7 g.act) ∧
       relWaits s 0 s.run.nextId g.act 2 = false ∧
       holdDone (barEval (arrivedState s (issL (lf 0 487 504 0 0 (some 32)) 0 0) (barSrcs (lf 0 487 504 0 0 (some 32))) 7 32) 2 7) 0
         { ((barEval (arrivedState s (issL (lf 0 487 504 0 0 (some 32)) 0 0) (barSrcs (lf 0 487 504 0 0 (some 32))) 7 32) 2 7).th 0).grp 0
           with hold := .barrier 7 } = false ∧
       holdDone (barEval (arrivedState s (issL (lf 0 487 504 0 0 (some 32)) 0 0) (barSrcs (lf 0 487 504 0 0 (some 32))) 7 1) 2 7) 0
         { ((barEval (arrivedState s (issL (lf 0 487 504 0 0 (some 32)) 0 0) (barSrcs (lf 0 487 504 0 0 (some 32))) 7 1) 2 7).th 0).grp 0
           with hold := .barrier 7 } = true) ∧
    (holdDone (usual (.barWait (lf 0 487 0 0))) 0 { (((usual (.barWait (lf 0 487 0 0))).th 0).grp 0) with hold := .barrier 7 } = true ∧
     holdDone (arrived 2) 0 { (((arrived 2).th 0).grp 0) with hold := .barrier 7 } = false) ∧
    ((strandAt []).ln.arr.length = 8 ∧ ([0, 31] : List Nat).Nodup ∧ ∀ l ∈ ([0, 31] : List Nat), ((strandAt []).arrOf 7).getLsbD l = false) ∧
    (∀ n ∈ [1, 2], (kget? (arrived n).wgs 2).isSome = true ∧ ((arrived n).wg 2).bars.length = 8 ∧ wgThreads (arrived n) 2 = [0] ∧
      arrivedAll ((arrived n).th 0) 7 = true ∧ ((arrived n).wg 2).counted = [] ∧ bitsOf (((arrived n).wg 2).bars.getD 7 0) 8 6 = n ∧
      ((arrived n).th 0).ln.arr.length = 8) := by
  unfold PathsOpen
  refine ⟨all_ready ?_, ?_, ?_, ?_, ?_⟩ <;> decide +kernel

/-- A control instruction without operands, in its two forms. -/
def bothAt (short : BitVec 3 → Instr) (long : LForm → Instr) (f : Instr → State) (p : State → Iss → Bool) : Bool :=
  readyB (f (short 7)) (issS 7 0 0) [] [] readActive && p (f (short 7)) (issS 7 0 0) &&
  (long (lf 0 0 0 0)).wf && readyB (f (long (lf 0 0 0 0))) (issL (lf 0 0 0 0) 0 0) [] [] readActive && p (f (long (lf 0 0 0 0))) (issL (lf 0 0 0 0) 0 0)

/-- The state of an instruction of a handler. -/
def handling (i : Instr) : State :=
  let s := at_ (encode i) (fun t => { t with pl := { t.pl with kind := .handler } })
  { s with ths := [(0, (s.th 0))] }

/-- Half of the lanes idle, one of them a helper, and the workgroup's queue has items. -/
def halfIdle (i : Instr) : State :=
  at_ (encode i) (fun t => { t with ln := { t.ln with idle := 0xFFFF0000, helper := 0x80000000 }
                                    ps := { t.ps with s0 := { t.ps.s0 with grp := some { mask := 0xFFFF } } } })

/-- Whether path 1 has room for what the acting lanes have to commit. -/
def openB (s : State) (i : Iss) : Bool := roomsB s i.th (commitPath (s.th i.th) (acting s i))

theorem witness_LanesIdleAndExit :
    bothAt .ctlsExit .exit usual (fun s i => (s.th i.th).pl.kind == .strand && openB s i) = true ∧
    bothAt .ctlsExit .exit handling (fun s i => (s.th i.th).pl.kind != .strand && kordered s.ths && openB s i &&
      (s.th i.th).ln.exited ||| (s.th i.th).ln.idle ||| acting s i == BitVec.allOnes 32) = true ∧
    bothAt .ctlsDone .done usual (fun s i => openB s i && (lanesOf (acting s i)).all (fun l => ((s.th i.th).frame l).depth == 0)) = true ∧
    bothAt .ctlsDone .done (fun i => inCode i called) (fun s i => (lanesOf (acting s i)).any (fun l => ((s.th i.th).frame l).depth != 0)) = true ∧
    bothAt .ctlsTake .take halfIdle (fun s i => shapedB (s.th i.th) && openB s i && (kget? s.wgs (s.th i.th).pl.wg).isSome &&
      servedLanes (s.th 0) 2 == [16, 17] && servedHelpers (s.th 0) 15 == [31]) = true := by decide +kernel

theorem witness_NopYieldKnotTrap :
    bothAt .ctlsNop .nop usual (fun _ _ => true) = true ∧ bothAt .ctlsYield .yield usual (fun _ _ => true) = true ∧
    bothAt .ctlsKnot .knot usual (fun s i => ((s.th i.th).slot i.k).clause.isSome) = true ∧
    bothAt .ctlsKnot .knot (fun i => inCode i forked) (fun s i => ((s.th i.th).slot i.k).clause.isSome &&
      ((s.th i.th).slot (1 - i.k)).grp.toList.any runningGrp) = true ∧
    bothAt .ctlsBrk .brk usual (fun s i => acting s i != 0) = true ∧
    AllReady usual [caseL .trap (lf 0 480 0 0) (fun x => [{ spec := x.a.toNat }]) [], caseL .trap (lf 0 447 0 0) (fun x => [{ spec := x.a.toNat }]) []] ∧
    (let x := { lf 0 480 0 0 with gk := 2 }
     (caseL .trap x (fun x => [{ spec := x.a.toNat }]) []).ok (usual (.trap x)) = true ∧
     (given (usual (.trap x)) (issL x 0 0) [{ spec := 480 }]).act = 0) := by
  refine ⟨?_, ?_, ?_, ?_, ?_, all_ready ?_, ?_⟩ <;> decide +kernel

/-! #### Scheduling and launches -/

/-- The state of two strands of a quadrant that stand before the clause at parcel 64, one of them passed over a number of times, the
other with a progress count and of a kind. -/
def waiting (passed progress : Nat) (kind : Kind) : State :=
  let t : Strand := strandAt []
  let u (f : Strand → Strand) : Strand := f { t with ps := { t.ps with s0 := { grp := some { pc := 64, mask := 0xFFFFFFFF } }, issuing := none } }
  let s := coded (at_ [])
  { s with ths := [(0, u (fun t => { t with ps := { t.ps with passed := passed } })),
                   (1, u (fun t => { t with pl := { t.pl with slot := 1, kind := kind }, ps := { t.ps with progress := progress } }))] }

/-- A queue thread of control core 0 that stands before the clause at parcel 64. -/
def queueing : State :=
  let t : Strand := strandAt []
  let s := coded (at_ [])
  { s with ths := [(queueNo 7, { t with pl := { t.pl with kind := .queue, core := 263 }
                                        ps := { t.ps with s0 := { grp := some { pc := 64, mask := 1 } }, issuing := none } })]
           queues := [(7, { state := 1, prio := 3 })] }

/-- A strand whose group in slot 0 has issued 1,024 clauses, with a parked and a runnable group on its fork stack. -/
def longRun : State :=
  at_ [] (fun t => { t with ps := { t.ps with s0 := { grp := some { pc := 64, mask := 1 }, issued := 1024 }, issuing := none,
                                              fork := [{ st := .parked, pc := 80, mask := 2 }, { pc := 64, mask := 4 }] } })

theorem witness_SchedulerPicks :
    ([waiting 0 0 .strand, waiting 4096 65535 .strand, waiting 4096 3 .handler].all (fun s => canPick s 0 &&
      (readyQuad s 0).1.length == 2 && (readyQuad s 0).1.all (fun e => ((readyQuad s 0).2.th e.1).ps.progress ≤ 65535))) = true ∧
    (starved (readyQuad (waiting 4096 65535 .strand) 0).2 (readyQuad (waiting 4096 65535 .strand) 0).1).length = 1 ∧
    (readyQuad (waiting 4096 65535 .strand) 0).1.all (fun e => ((readyQuad (waiting 4096 65535 .strand) 0).2.th e.1).pl.kind != .handler) = true ∧
    (readyQuad (waiting 4096 3 .handler) 0).1.any (fun e => ((readyQuad (waiting 4096 3 .handler) 0).2.th e.1).pl.kind == .handler) = true ∧
    (kget? queueing.ccores 0 = none ∧ queueing.up.held.contains 0 = false ∧ (∀ q ∈ coreQueues queueing 0, (queueing.queue q).stopReq = false) ∧
      (readyAll ((coreQueues queueing 0).map queueNo) (((coreQueues queueing 0).map queueNo).foldl refresh queueing)).1.length = 1) ∧
    (let u := longRun.th 0
     u.ps.s0.grp = some { pc := 64, mask := 1 } ∧ u.ps.s0.clause = none ∧ 1024 ≤ u.ps.s0.issued ∧ u.ps.s1.issued < 1024 ∧
      u.ps.fork = [{ st := .parked, pc := 80, mask := 2 }] ++ { pc := 64, mask := 4 } :: []) := by decide +kernel

/-- A launch of one workgroup by a code handle in a scalar register, with parameter 0. -/
def launchX (code : Nat) (p0 : Word) : PForm := pf (lf 0 code 388 386) p0 0x10001 0x200000 5

/-- The operands of a launch. -/
def launchSrcs (x : PForm) : List Opnd := [srcA x.l, wide x.l.b .b64, wide x.l.c .b64] ++ parOpnds x

/-- Whether a launch is ready, whether its parameters keep their limits, and whether it names loaded code. -/
def launches (x : PForm) : Bool × Bool × Bool :=
  let s := addr (.launch x)
  let g := given s (issP x 0 0) (launchSrcs x)
  let code := (kget? s.codes (g.v 0 0)).filter (fun c => c.ctx == 1)
  ((Instr.launch x).wf && readyB s (issP x 0 0) (launchSrcs x) [] readActive,
    launchOk (parVal x.p0 (g.v 3 0)) (parVal x.p1 (g.v 4 0)) (parVal x.p2 (g.v 5 0)) (parVal x.p3 (g.v 6 0))
      (code.map (fun c => (s.transOf (g.v 0 0) c.cur).strands)), code.isSome)

/-- An atomic in flight. -/
def adding : Flight :=
  { id := 0, th := 0, core := 0, ctx := 1, launch := 4, paths := [6],
    work := .atom 0 4 4 0 [{ lane := 0, pa := 0x40000000, cells := [], v := 7, leaf := [] }] }

theorem witness_LaunchesRun_launch :
    launches (launchX 394 1) = (true, true, true) ∧ launches (launchX 395 1) = (true, true, false) ∧
    launches (launchX 394 0xFE000189) = (true, false, true) ∧
    (let x := launchX 394 1
     let s := addr (.launch x)
     let g := given s (issP x 0 0) (launchSrcs x)
     g.v 2 0 % 8 = 0 ∧ spaceOf (g.v 2 0) = 0 ∧ s.hasCtx 1 = true ∧ (resolve (poppedState s (issP x 0 0) (launchSrcs x)) 0 (g.v 2 0) .write).1.isOk = true ∧
       roomsB s 0 (commitPath (s.th 0) 0xFFFFFFFF) = true ∧ (s.th 0).ct.pending = none ∧
       (let u := (resolve (poppedState s (issP x 0 0) (launchSrcs x)) 0 (g.v 2 0) .write).2
        relWaits u 0 u.run.nextId 0xFFFFFFFF 2 = false ∧
        relWaits { u with fl := [adding] } 0 1 0xFFFFFFFF 2 = true)) ∧
    FreshIds (addr (.launch (launchX 394 1))) := by
  unfold FreshIds
  decide +kernel

/-- A launch of one workgroup of 17 lanes. -/
def launch4 : Launch := { ctx := 1, code := 3, lanes := 17, items := 3, rel := [5], cw := 0x1000 }

/-- A state with that launch, of a translation and with a pool. -/
def launched (tr : Trans) (pool : Nat) : State :=
  { State.reset with
    mem := tables
    launches := [(4, launch4)]
    ctxs := [(1, { quads := [0, 1, 8], banks := [(0, [0, 1])], poolSize := pool, root := 0x10000, order := [4] })]
    codes := [(3, { ctx := 1, trans := [(0, tr)] })] }

/-- A translation whose strands have regions of 64 KiB. -/
def small : Trans := { ring := 8, frame := 2, banks := 1, tabA := 64 }

/-- Whether nothing that a placement waits for is left. -/
def placeable (s : State) : Bool :=
  (s.ctx 1).order == [4] && kget? s.launches 4 == some launch4 && s.hasCtx 1 && launch4.outcome.isNone && stillOut s launch4.rel == []

theorem allot_of {s : State} {ctx core : Nat} {nd : Needs} {qs bs : List Nat} {t : List Nat × Nat} {rs : List Nat}
    (h1 : strandQuads s ctx core nd false = some qs) (h2 : freeBanks s ctx core nd.banks false = some bs)
    (h3 : tabAllot s ctx core nd.tabA false = some t)
    (h4 : freeRegions nd.region (s.ctx ctx).poolSize nd.n s.run.fresh ([] ++ regionsHeld s ctx) = some rs) :
    allotCore s ctx core nd [] = some { core := core, quads := qs, banks := bs, tabQuads := t.1, tabOff := t.2, regions := rs } := by
  simp only [allotCore, h1, h2, h3, h4, Bool.false_eq_true, if_false]

theorem region_zero {size limit : Nat} (h : size ≤ limit) : freeRegion [] size limit 0 = some 0 := by
  simp [freeRegion, regionFrom, sortBy, h]

theorem start_zero {n k m : Nat} (h : k = 1) : Config.freeNat n % k * m = 0 := by rw [h, Nat.mod_one, Nat.zero_mul]

theorem one_region {size limit n : Nat} (h : size ≤ limit) (h1 : limit / 65536 = 1) : freeRegions size limit 1 n [] = some [0] := by
  have d : drawnRegions size limit 1 n [] = some [0] := by rw [drawnRegions, start_zero h1, region_zero h]; rfl
  rw [freeRegions, d]

theorem regions_of {size limit k n : Nat} {held : List (Nat × Nat)} (h1 : size ≤ limit) (h2 : limit / 65536 = 1) (h3 : k = 1) (h4 : held = []) :
    freeRegions size limit k n held = some [0] := by
  subst h3 h4
  exact one_region h1 h2

theorem first_of {f : Nat → Option (List Allot)} {a : Nat} {l : List Nat} {r : List Allot} (h : f a = some r) :
    firstHold f (a :: l) 0 = some r := by
  simp [firstHold, h]

theorem allotted : allotCore (launched small 0x10000) 1 0 (needsOf small 17) [] =
    some { core := 0, quads := [0], banks := [0], tabQuads := [0], tabOff := 0, regions := [0] } :=
  allot_of (s := launched small 0x10000) (ctx := 1) (core := 0) (nd := needsOf small 17) (qs := [0]) (bs := [0]) (t := ([0], 0)) (rs := [0])
    (by decide +kernel) (by decide +kernel) (by decide +kernel)
    (regions_of (by decide +kernel) (by decide +kernel) (by decide +kernel) (by decide +kernel))

theorem witness_LaunchesRun_placement :
    stillOut { launched small 0x10000 with fl := [{ id := 5, th := 0, core := 0, ctx := 1, launch := 4, paths := [1], work := oneSector }] } launch4.rel ≠ [] ∧
    (placeable (launched small 0x10000) = true ∧ rejected (launched small 0x10000) launch4 = false) ∧
    rejected (launched { small with ring := 513 } 0x10000) launch4 = true ∧
    ∃ a, firstHold (fun k => (allotCore (launched small 0x10000) 1 k (needsOf small 17) []).map (fun a => [a])) [0, 2] 0 = some [a] :=
  ⟨by decide +kernel, by decide +kernel, by decide +kernel, _, first_of (by rw [allotted]; rfl)⟩

theorem witness_LaunchesRun_cores : ownCores ((launched small 0x10000).ctx 1) = [0, 2] := by decide +kernel

/-- A strand of a workgroup with items, which has ended its clauses, with some lanes idle. -/
def restful (idle live : Word) : State :=
  at_ [] (fun t => { t with ps := {}, ln := { t.ln with idle := idle, exited := ~~~(idle ||| live), lh := some 64 } })

/-- A launch all of whose workgroups have retired. -/
def finished : State :=
  let s := launched small 0x10000
  { s with launches := [(4, { launch4 with next := 1, doneWgs := 1, queue := some 7 })] }

theorem witness_LaunchesRun_life :
    (let s := restful 0xFFFFFFFF 0
     (kget? s.ths 0).isSome = true ∧ (s.th 0).pl.kind = .strand ∧ (s.th 0).ct.stopped = false ∧ (s.th 0).ps.halted = false ∧
      groupsOf (s.th 0) = [] ∧ (s.th 0).ln.idle ≠ 0 ∧ (s.th 0).ln.lh = some 64 ∧ (s.wg (s.th 0).pl.wg).itemNext < (s.wg (s.th 0).pl.wg).itemEnd) ∧
    (let s := restful 0 0
     kordered s.ths = true ∧ kordered s.wgs = true ∧ (s.th 0).live = 0 ∧ (s.th 0).ln.idle = 0 ∧ groupsOf (s.th 0) = [] ∧ (s.th 0).rg.need = [] ∧
      (s.th 0).rg.xfer = none ∧ s.fl.any (fun f => f.th == 0 && f.paths != []) = false ∧ wgThreads s 2 = [0] ∧ (kget? s.launches 4).isSome = true) ∧
    wgThreads { restful 0 0 with ths := [(0, (restful 0 0).th 0), (1, (restful 0 0).th 0)], wgs := [(2, { ctx := 1, launch := 4, code := 3, threads := [0, 1] })] } 2 = [0, 1] ∧
    (MemOk finished ∧ kordered finished.launches = true ∧ launchOutcome finished 4 = some 0 ∧ spaceOf (finished.launch 4).cw = 0 ∧
      (finished.log.waiting ++ finished.log.recs).any (fun r => r.launch == 4 && r.source == 1 && !r.resolved) = false ∧
      (deviceLoc finished 1 0x1000 .write).1.toOption = some 0x40001000 ∧
      (walk (deviceLoc finished 1 0x1000 .write).2 1 0x1000).map (·.at_) = some 0x20000 ∧
      copiesOf (deviceLoc finished 1 0x1000 .write).2 [0x40001000] = [] ∧
      copiesOf { (deviceLoc finished 1 0x1000 .write).2 with ch := { dir := [(0x40001000 / 128, 2)] } } [0x40001000] ≠ []) := by
  refine ⟨by decide +kernel, by decide +kernel, by decide +kernel, (by decide : Memory.wf tables = true), ?_⟩
  decide +kernel

/-! #### Queues and the system -/

/-- The thread of queue 7 at the issue of an instruction, with the registers and the tables of the addressed state, and its queue. -/
def onQueue (i : Instr) (q : Queue := { state := 1, ctx := some 1 }) (f : Strand → Strand := id) : State :=
  let s := addressed (encode i)
  let t := s.th 0
  { s with ths := [(8327, f { t with pl := { t.pl with kind := .queue, core := 263 }
                                     ps := { t.ps with s0 := { t.ps.s0 with grp := some { mask := 1 } } }
                                     ln := { t.ln with exited := 0xFFFFFFFE } })]
           queues := [(7, q)]
           run := { s.run with cur := some 8327 } }

/-- A queue instruction at issue. -/
def queueReady (i : Instr) (x : LForm) (srcs : List Opnd) (s : State) : Bool := i.wf && readyB s (issL x 8327 0) srcs [] readActive

/-- The operands of a watch. -/
def watchSrcs (x : LForm) : List Opnd := [baseA x, if watchSize x = 8 then wide x.b .b64 else srcB x]

/-- Whether a watch is ready and its word lies where it may read, and whether its condition holds. -/
def watches (x : LForm) : Bool × Bool :=
  let s := onQueue (.watch x)
  let g := given s (issL x 8327 0) (watchSrcs x)
  let r := accessAt (poppedState s (issL x 8327 0) (watchSrcs x)) 8327 (g.v 0 0) (watchSize x) .read
  (queueReady (.watch x) x (watchSrcs x) s && r.1.isOk && (s.th 8327).ct.pending.isNone,
    match r.1 with | .ok p => watchCond (x.c.toNat % 8) (8 * watchSize x) (memNat r.2.mem (p.pas.headD 0) (watchSize x)) (g.v 1 0) | _ => false)

/-- The state of queue 7 in a wait. -/
def inWait (i : Instr) (h : Hold) : State :=
  onQueue i { state := 2, ctx := some 1 } (fun t => { t with ps := { t.ps with issuing := none, s0 := { t.ps.s0 with grp := some { st := .waiting, w := true, mask := 1, hold := h } } } })

theorem standsAt_of {s : State} {q : Nat} {i : Instr} {h : Hold}
    (k : ((kget? s.ths (queueNo q)).isSome && !(s.th (queueNo q)).ct.stopped && nextInstr (s.th (queueNo q)) 0 == some i &&
      (s.th (queueNo q)).ps.s0.grp.any (fun g => g.st == .waiting && g.hold == h)) = true) : StandsAt s q i h := by
  simp only [Bool.and_eq_true, Bool.not_eq_true', beq_iff_eq, Option.any_eq_true] at k
  obtain ⟨⟨⟨a, b⟩, c⟩, g, d, e, f⟩ := k
  exact ⟨a, b, c, g, d, e, f⟩

/-- A watch of a word and an event wait. -/
def watchX : LForm := lf 390 386 480 1 16
def evwaitX : LForm := lf 390 393 480 0 0

theorem witness_QueueInstructions_waits :
    watches (lf 390 386 480 0 16) = (true, true) ∧ watches watchX = (true, false) ∧ watches (lf 390 386 495 4 22) = (true, false) ∧
    (∀ v, v = none ∨ v = some 0xFFFFFFFF → StandsAt (inWait (.watch watchX) (.word 0 0 1 4 true [] v)) 7 (.watch watchX) (.word 0 0 1 4 true [] v)) ∧
    watchCond 1 32 (memNat (inWait (.watch watchX) (.word 0x10000 0 1 4 true [] none)).mem 0x10000 4) 0 = true ∧
    StandsAt (inWait (.watch watchX) (.word 0x10000 0 1 4 true [] none)) 7 (.watch watchX) (.word 0x10000 0 1 4 true [] none) ∧
    StandsAt (inWait (.evwait evwaitX) (.events 1 (some 0))) 7 (.evwait evwaitX) (.events 1 (some 0)) ∧
    StandsAt (inWait (.evwait evwaitX) (.events 1 (some 1))) 7 (.evwait evwaitX) (.events 1 (some 1)) := by
  refine ⟨by decide +kernel, by decide +kernel, by decide +kernel, ?_, by decide +kernel, standsAt_of (by decide +kernel),
    standsAt_of (by decide +kernel), standsAt_of (by decide +kernel)⟩
  rintro v (rfl | rfl) <;> exact standsAt_of (by decide +kernel)

/-- The operands of a signal to memory. -/
def signalSrcs (x : LForm) : List Opnd := [baseA x, if 2 ≤ x.rn then wide x.b .b64 else srcB x, srcC x]

theorem witness_QueueInstructions_signals :
    ([lf 0 386 480 479 17, lf 0 386 386 495 23].all (fun x =>
      let s := onQueue (.signal x)
      queueReady (.signal x) x (signalSrcs x) s && roomsB s 8327 (6 :: commitPath (s.th 8327) 0xFFFFFFFF) && decide ((given s (issL x 8327 0) (signalSrcs x)).v 2 0 ≤ 2047) &&
      (accessAt (poppedState s (issL x 8327 0) (signalSrcs x)) 8327 ((given s (issL x 8327 0) (signalSrcs x)).v 0 0) (if 2 ≤ x.rn then 8 else 4)
        .atomic).1.isOk) = true) ∧
    (let x := lf 0 392 394 0 0
     let b := { onQueue (.signalQ x) { state := 1, ctx := some 1 } (withCells [(sCell 8, 7)]) with
                  fl := [{ id := 5, th := 8327, core := 263, ctx := 1, paths := [1], work := oneSector }] }
     let s := { b with run := { b.run with nextId := 6 } }
     queueReady (.signalQ x) x [srcA x, srcB x] s = true ∧ (given s (issL x 8327 0) [srcA x, srcB x]).v 0 0 = 7 ∧
       (given s (issL x 8327 0) [srcA x, srcB x]).v 1 0 = 3 ∧ (s.queue 7).ctx = some (s.th 8327).pl.ctx ∧
       roomsB s 8327 (commitPath (s.th 8327) 0xFFFFFFFF) = true ∧ homeWaits s 8327 6 0xFFFFFFFF (hbOf s 8327 0xFFFFFFFF) = true) ∧
    (let x := lf 0 393 394 0 0
     let s := onQueue (.signalQ x)
     queueReady (.signalQ x) x [srcA x, srcB x] s = true ∧ (given s (issL x 8327 0) [srcA x, srcB x]).v 0 0 = 0 ∧
       (s.queue 0).ctx ≠ some (s.th 8327).pl.ctx) ∧
    (let x := lf 0 392 394 0 0
     let s := onQueue (.signalQ x) { state := 1, ctx := some 1 } (withCells [(sCell 8, 7)])
     queueReady (.signalQ x) x [srcA x, srcB x] s = true ∧ sectorsTh s 8327 (openEntries (s.th 8327).qn 0xFFFFFFFF) = [] ∧ homeWaits s 8327 s.run.nextId 0xFFFFFFFF (hbOf s 8327 0xFFFFFFFF) = false) := by
  decide +kernel

/-- An event wait for a mask, with a time and pending events. -/
def evwaits (mask ev : Nat) (b : Nat) : Bool × Nat × Nat :=
  let x := lf 390 393 b 0 0
  let s := onQueue (.evwait x) { state := 1, ctx := some 1, events := ev } (withCells [(sCell 9, BitVec.ofNat 32 mask)])
  (queueReady (.evwait x) x [srcA x, srcB x] s, (given s (issL x 8327 0) [srcA x, srcB x]).v 0 0, (s.queue 7).events &&& mask)

theorem witness_QueueInstructions_reads :
    let s := { onQueue (.watch watchX) with
      fl := [{ id := 5, th := 8327, core := 263, ctx := 1, paths := [1], work := .load [{ lane := 0, cells := [], pas := [0x40000000, 0x40000001] }] 0 false }] }
    readWaits s 8327 [0x40000000, 0x40000001] = some 5 := by decide +kernel

theorem witness_QueueInstructions_events :
    evwaits 0xDFFFF 0x10001 481 = (true, 0xDFFFF, 0x10001) ∧ evwaits 1 2 480 = (true, 1, 0) ∧ evwaits 1 2 495 = (true, 1, 0) ∧
    evwaits 0x20000 0 480 = (true, 0x20000, 0) ∧ evwaits 0x100000 0 480 = (true, 0x100000, 0) ∧
    ([lf 0 479 480 0 0, lf 0 392 487 0 0].all (fun x =>
      let s := onQueue (.qprio x) { state := 1, ctx := some 1 } (withCells [(sCell 8, 7)])
      queueReady (.qprio x) x [srcA x, srcB x] s && ((given s (issL x 8327 0) [srcA x, srcB x]).v 1 0 ≤ 7)) = true) := by
  decide +kernel

/-! #### Handlers and stops -/

/-- A handler at the issue of an instruction that has selected a stopped strand, which is in its core's list, with the registers of the
addressed state. -/
def handler (i : Instr) (f : Strand → Strand := id) (g : Strand → Strand := id) (sel : Option Nat := some 1) : State :=
  let s := addressed (encode i)
  let t := s.th 0
  { s with ths := [(0, f { t with pl := { t.pl with kind := .handler }, ct := { t.ct with sel := sel } }),
                   (1, g { t with pl := { t.pl with slot := 1 }, ps := { t.ps with issuing := none }, ct := { t.ct with stopped := true, fault := some { cls := .page, pc := 64 } } })]
           cores := [(0, { serves := some 1, pending := [1] })] }

/-- A control register access at issue, of a strand or a handler. -/
def csrCase (ins : LForm → Instr) (x : LForm) (srcs : LForm → List Opnd) (dsts : List Nat) (s : Instr → State) : Bool :=
  (caseL ins x srcs dsts).ok (s (ins x))

theorem witness_ControlRegisters_reads :
    ([usual, fun i => handler i].all (fun s => [0, 0x10, 0x11, 0x20].all (fun n => csrCase .csrr (lf 384 n 0 0) (fun _ => []) [384] s))) = true ∧
    ((usual (.csrr (lf 384 0 0 0))).th 0).pl.kind = .strand ∧ ((handler (.csrr (lf 384 0 0 0))).th 0).pl.kind = .handler := by
  decide +kernel

/-- A write of a value to a control register. -/
def csrwAt (n v : Nat) (s : Instr → (Strand → Strand) → State) : Bool × Nat :=
  let x := lf 0 n 447 0
  let s := s (.csrw x) (withCells [(sCell 63, BitVec.ofNat 32 v)])
  ((caseL .csrw x (fun x => [srcB x]) []).ok s, (given s (issL x 0 0) [srcB x]).v 0 0)

/-- A strand at issue with other registers. -/
def strandFor (i : Instr) (f : Strand → Strand) : State := at_ (encode i) f

theorem witness_ControlRegisters_writes :
    ([0x11F, 0x500].all (fun v => csrwAt 0 v strandFor == (true, v)) && [0, 0x600, 0x700].all (fun v => csrwAt 0 v strandFor == (true, v)) &&
      [0x10, 0x11, 0x20].all (fun n => csrwAt n 3 strandFor == (true, 3)) && [0x10, 0x20].all (fun n => csrwAt n 3 (fun i f => handler i f) == (true, 3)) &&
      [0, 1, 2, 3].all (fun v => csrwAt 0x11 v (fun i f => handler i f) == (true, v))) = true ∧
    (let x := lf 0 0 447 0
     let s := strandFor (.csrw x) (withCells [(sCell 63, 0x300)])
     nextInstr (s.th 0) 0 = some (.csrw x) ∧ readyB { s with run := { s.run with cur := some 0 } } (issL x 0 0) [srcB x] [] readActive = true) := by
  decide +kernel

/-- A TLB invalidation in flight, and a held translation that an operation in flight has pinned, or none. -/
def invalidating (cmd : Nat) (pins : List Nat) : State :=
  { at_ [] (fun t => { t with pl := { t.pl with kind := .handler } }) with
    fl := [{ id := 5, th := 0, core := 0, ctx := 1, paths := [], work := .tlbi cmd }, { id := 6, th := 1, core := 0, ctx := 1, paths := [4], pins := pins, work := .fence }]
    ch := { tlb := [{ ctx := 1, va := 0, size := 2 ^ 30, lo := 0x4F, hi := 0, leaf := 0x20000 }] } }

theorem witness_ControlRegisters_invalidation :
    [0, 1].all (fun c => [[], [0x20000]].all (fun p =>
      let s := invalidating c p
      s.fl.find? (fun f => f.th == 0 && !f.done && f.work == .tlbi c) == s.fl.head? && s.flight? 5 == s.fl.head? &&
      (tlbPinned s 1 c 0 == !p.isEmpty))) = true := by decide +kernel

/-- A window instruction of a handler, by its item. -/
def winAt (ins : LForm → Instr) (x : LForm) (srcs : LForm → List Opnd) (dsts : List Nat) (v : Nat) : Bool :=
  let s := handler (ins x) (withCells [(sCell 20, BitVec.ofNat 32 v)])
  (caseL ins x srcs dsts).ok s && (given s (issL x 0 0) (srcs x)).v 0 0 == v && winSelected s 0 == some 1

theorem witness_HandlerWindow :
    ([2 ^ 32 - 1, 0, 1, 63, 64].all (fun v => winAt .winsel (lf 384 404 0 0) (fun x => [srcA x]) [384] v)) = true ∧
    ([39, 2 * 2 ^ 28 + 63, 3 * 2 ^ 28, 4 * 2 ^ 28 + 7, 6 * 2 ^ 28 + 2, 7 * 2 ^ 28 + 12].all (fun v =>
      winAt .winrd (lf 39 404 0 0) (fun x => [srcA x]) [39] v && itemOk v)) = true ∧
    ([2 * 2 ^ 28, 3 * 2 ^ 28 + 63, 4 * 2 ^ 28 + 7].all (fun v => winAt .winwr (lf 0 404 39 0) (fun x => [srcA x, srcB x]) [] v && itemOk v)) = true ∧
    winAt .winwr (lf 0 404 39 0) (fun x => [srcA x, srcB x]) [] (2 ^ 32 - 1) = true ∧ itemOk (2 ^ 32 - 1) = false ∧
    (let s := handler (.winrd (lf 39 404 0 0)) id id none
     (caseL .winrd (lf 39 404 0 0) (fun x => [srcA x]) [39]).ok s = true ∧ winSelected s 0 = none) ∧
    (let s := handler (.winsel (lf 384 404 0 0))
     s.ths.any (fun e => e.2.pl.kind == .strand && e.2.pl.core == 0 && e.2.pl.ctx == 1 && 16 * e.2.pl.quad + e.2.pl.slot == 1 && e.2.ct.stopped) = true ∧
       s.ths.all (fun e => !(16 * e.2.pl.quad + e.2.pl.slot == 63)) = true) ∧
    (let t := (handler (.winrd (lf 39 404 0 0))).th 1
     t.ln.exited.getLsbD 31 = false ∧ (39 < 8 * (t.frame 31).size) ∧ (t.frame 31).lo ≤ (t.frame 31).base + 39 / 8) := by
  decide +kernel

theorem selected_of {s : State} {th n : Nat} (h : (winSelected s th == some n && n != th && (s.th th).pl.kind == .handler &&
    (s.th th).ct.pending.isNone) = true) : Selected s th n := by
  simp only [Bool.and_eq_true, beq_iff_eq, bne_iff_ne, ne_eq, Option.isNone_iff_eq_none] at h
  exact ⟨h.1.1.1, h.1.1.2, h.1.2, h.2⟩

/-- A stop that waits for the fault log, whose first slot is free. -/
def escalating : State :=
  { State.reset with log := { base := 0x1000, entries := 2, vector := 3, waiting := [{ ctx := 1, cls := 5 }] }, queues := [(7, { ctx := some 1 })] }

theorem witness_StopsAreResolved :
    (∀ p : LForm → Instr, p = .resume ∨ p = .kill ∨ p = .faultack → (caseL p (lf 0 0 0 0) (fun _ => []) []).ok (handler (p (lf 0 0 0 0))) = true ∧
      Selected (handler (p (lf 0 0 0 0))) 0 1 ∧
      (caseL p (lf 0 0 0 0) (fun _ => []) []).ok (handler (p (lf 0 0 0 0)) id id none) = true ∧
      winSelected (handler (p (lf 0 0 0 0)) id id none) 0 = none) ∧
    (let s := handler (.resume (lf 0 0 0 0))
     sectorsTh s 0 (openEntries (s.th 0).qn 0xFFFFFFFF) = [] ∧ homeWaits s 0 s.run.nextId 0xFFFFFFFF (hbOf s 0 0xFFFFFFFF) = false ∧ (s.th 0).qn.used = 0 ∧
       roomsB s 0 (commitPath (s.th 0) 0xFFFFFFFF) = true ∧ (s.th 1).ct.pending = none ∧
       masksOk (s.th 1) = true ∧ (∀ e ∈ (s.wg (s.th 1).pl.wg).tables, e.2.unchecked = false) ∧ ((s.th 1).ct.fault.getD {}).cls = .page ∧
       (s.th 1).ps.s0.grp.isSome = (s.th 1).ps.s0.clause.isSome ∧ (s.th 1).ps.s1.grp.isSome = (s.th 1).ps.s1.clause.isSome ∧ (s.th 1).ps.fork = [] ∧ (s.th 1).ct.acked = false) ∧
    (let s := { handler (.faultack (lf 0 0 0 0)) with cores := [(0, { pending := [1] })] }
     (s.core 0).pending = [1] ∧ (s.core 0).serves = none ∧ kget? s.ths (handlerNo 0) = none ∧
       (kget? s.codes (s.ctx (s.th 1).pl.ctx).handler).isSome = true) ∧
    (MemOk escalating ∧ escalating.log.waiting = [{ ctx := 1, cls := 5 }] ∧ (∀ r ∈ escalating.log.recs, coalesces escalating { ctx := 1, cls := 5 } r = false) ∧
      escalating.log.entries ≠ 0 ∧ escalating.log.next ∉ escalating.log.taken ∧
      copiesOf escalating (rangeFrom 0x1000 0x1040) = [] ∧ copiesOf { escalating with ch := { dir := [(32, 2)] } } (rangeFrom 0x1000 0x1040) ≠ []) ∧
    Selected (handler (.faultack (lf 0 0 0 0)) id (fun t => { t with ct := { t.ct with acked := true } })) 0 1 := by
  refine ⟨?_, by decide +kernel, by decide +kernel, ?_, selected_of (by decide +kernel)⟩
  · rintro p (rfl | rfl | rfl) <;> exact ⟨by decide +kernel, selected_of (by decide +kernel), by decide +kernel, by decide +kernel⟩
  · refine ⟨(by decide : Memory.wf [] = true), ?_⟩
    decide +kernel

/-! #### Engines -/

/-- Whether an engine instruction is ready with its path open and lock room. -/
def engineB (s : State) (i : Iss) (srcs : List Opnd) : Bool :=
  readyB s i srcs [] readActive && (groupOf s i &&& ~~~(s.th i.th).ln.helper != 0) && decide (s.fl.length ≤ 254) && ((s.th i.th).qn.closed == []) && lockRoom s (s.th i.th).pl.core

theorem engineReady_of {s : State} {i : Iss} {srcs : List Opnd} {p : Nat} (h : engineB s i srcs = true) : EngineReady s i p srcs [] := by
  simp only [engineB, Bool.and_eq_true, bne_iff_ne, ne_eq, decide_eq_true_eq, beq_iff_eq] at h
  have hl := h.1.1.2
  exact ⟨ready_of h.1.1.1.1, h.1.1.1.2, pathsOpen_of (by simp only [List.length_singleton]; omega) h.1.2, h.2⟩

/-- The operands of a `cpy`. -/
def cpySrcs (x : LForm) : List Opnd := [baseA x, wide x.b .b64, srcC x, srcD x]

/-- Whether a `cpy` is ready, and its ranges pass. -/
def copies (x : LForm) (f : State → State := id) : Bool × Bool :=
  let s := f (addr (.cpy x))
  let i := issL x 0 0
  let v (n : Nat) : Nat := (given s i (cpySrcs x)).v n 0
  ((Instr.cpy x).wf && engineB s i (cpySrcs x), (spansAt 0 (poppedState s i (cpySrcs x)) [⟨v 1, v 2, false⟩, ⟨v 0, v 2, true⟩]).1.isOk)

/-- The state in which only helper lanes are in the group. -/
def onlyHelpers (s : State) : State := s.modTh 0 (fun t => { t with ln := { t.ln with helper := 0xFFFFFFFF } })

theorem barrierFits (s : State) (th : Nat) : BarrierFits s th none := fun _ h => nomatch h

theorem barrierAt_of {s : State} {th off : Nat} {as : List Nat} (h : ((s.th th).pl.kind == .strand && off % 16 == 0 &&
    abFlats (s.wg (s.th th).pl.wg) off == some as && decide as.Nodup) = true) : BarrierAt s th off as := by
  simp only [Bool.and_eq_true, beq_iff_eq, decide_eq_true_eq] at h
  exact ⟨h.1.1.1, h.1.1.2, h.1.2, h.2⟩

/-- The bytes of the arrival barrier at the start of the shared extent. -/
def barrierBytes : List Nat := (abFlats ((at_ []).wg 2) 0).getD []

theorem witness_CopiesMoveBytes_cpy :
    copies (lf 479 384 386 495 4) = (true, true) ∧ copies (lf 404 386 384 480 20) = (true, true) ∧ copies (lf 479 384 396 495 8) = (true, true) ∧
    copies (lf 479 390 384 495 8) = (true, false) ∧
    (let s := onlyHelpers (addr (.cpy (lf 479 384 386 495 4)))
     let i := issL (lf 479 384 386 495 4) 0 0
     readyB s i (cpySrcs (lf 479 384 386 495 4)) [] readActive = true ∧ groupOf s i &&& ~~~(s.th 0).ln.helper = 0) ∧
    BarrierAt (addr (.cpy (lf 404 386 384 480 20))) 0 0 barrierBytes := by
  and_intros <;> decide +kernel

/-- The operands of a `cpyt`. -/
def cpytSrcs (x : PForm) : List Opnd := [baseA x.l, wide x.l.b .b64, { spec := 479 }, srcD x.l] ++ parOpnds x

/-- A `cpyt` of two rows, with a pitch of the destination. -/
def cpytX (dp : Word) : PForm := pf (lf 479 384 386 0 4) 0x20003 8 dp 5

theorem witness_CopiesMoveBytes_cpyt :
    (let x := cpytX 5
     let s := addr (.cpyt x)
     let v (n : Nat) : Nat := (given s (issP x 0 0) (cpytSrcs x)).v n 0
     (Instr.cpyt x).wf = true ∧ engineB s (issP x 0 0) (cpytSrcs x) = true ∧
       (spansAt 0 (poppedState s (issP x 0 0) (cpytSrcs x)) (rowSpans (v 1) 2 8 3 false ++ rowSpans (v 0) 2 5 5 true)).1.isOk = true) ∧
    (let x := cpytX 0xFE000189
     let s := addr (.cpyt x)
     (Instr.cpyt x).wf = true ∧ engineB s (issP x 0 0) (cpytSrcs x) = true ∧ parVal x.p2 ((given s (issP x 0 0) (cpytSrcs x)).v 6 0) = 0) := by
  decide +kernel

/-- The operands of `dcpy` and `ecpy`. -/
def cryptSrcs (x : LForm) : List Opnd := [baseA x, wide x.b .b64, wide x.c .b64, srcD x]

/-- A confidential context with key 0, and at offset 0x100 of the shared extent, which `[s8]` names, a descriptor of two bytes with
counter 1, whose tag lies at 0x2000. -/
def sealed (conf : Bool) (i : Instr) : State :=
  let s := (addr i).modTh 0 (withCells [(sCell 2, 0x1000), (sCell 8, 0x100), (sCell 9, 0xFF000000), (sCell 1, 0xFF000000)])
  { s with mem := s.mem ++ [(2 ^ 52 + 0x100, 2), (2 ^ 52 + 0x108, 1), (2 ^ 52 + 0x121, 0x20)]
           ctxs := s.ctxs.map (fun e => (e.1, { e.2 with conf := conf, keys := [(0, { key := List.replicate 32 7 })] })) }

/-- Whether a crypto copy is ready, its descriptor keeps its limits, and its ranges pass, with what it writes owned, where its key's last counter
is 0, below the descriptor's, or another that is not. -/
def crypts (ins : LForm → Instr) (enc : Bool) (x : LForm) (conf : Bool) (used : Nat := 0) : Bool × Bool × Bool × Bool :=
  let s := (sealed conf (ins x)).modCtx 1 (fun c => { c with keys := [(0, { key := List.replicate 32 7, lastEnc := used, lastDec := used })] })
  let i := issL x 0 0
  let v (n : Nat) : Nat := (given s i (cryptSrcs x)).v n 0
  let r := spanAt (poppedState s i (cryptSrcs x)) 0 ⟨v 2, 64, false⟩
  let d := cryptoOf (match r.1 with | .ok l => threadNat r.2 0 (l.map (·.pa)) | _ => 0)
  let two : List Span := if enc then [⟨v 0, d.n, true⟩, ⟨d.tag, 16, true⟩] else [⟨d.tag, 16, false⟩, ⟨v 0, d.n, true⟩]
  let q := spansAt 0 r.2 ([⟨v 1, d.n, false⟩, ⟨d.aad, d.aadLen, false⟩] ++ two ++ [⟨d.record, if d.record = 0 then 0 else 16, true⟩])
  ((ins x).wf && engineB s i (cryptSrcs x) && v 2 % 16 == 0 && (kget? (s.ctx 1).keys 0).any (fun q => decide ((if enc then q.lastEnc else q.lastDec) < d.ctr) == (used == 0)) && s.hasCtx 1,
    r.1.isOk && (match r.1 with | .ok l => (readWaits r.2 0 (l.map (·.pa))).isNone | _ => false) && d.ok && !lockHit r.2 0 (v 2) 64 false,
    q.1.isOk, match q.1 with | .ok ls => enc || (ls.getD 3 [] ++ ls.getD 4 []).all (ownedBy q.2 1) | _ => false)

theorem witness_CopiesMoveBytes_crypto :
    crypts .dcpy false (lf 479 384 386 392 4) true = (true, true, true, true) ∧ crypts .ecpy true (lf 479 386 384 392 20) true = (true, true, true, true) ∧
    crypts .dcpy false (lf 479 386 384 392 4) true = (true, true, true, false) ∧ crypts .ecpy true (lf 479 386 384 392 4) false = (true, true, true, true) ∧
    crypts .ecpy true (lf 479 386 384 392 20) true 1 = (true, true, true, true) ∧ crypts .dcpy false (lf 479 384 386 392 4) true 1 = (true, true, true, true) := by
  decide +kernel

/-- A copy in flight that counts down on the barrier at the start of the shared extent, or on none. -/
def copying (b : Option Nat) : State :=
  { at_ [] with
    fl := [{ id := 5, th := 0, core := 0, ctx := 1, paths := [4],
             work := .copy 0 [0x300, 0x301] [0x400, 0x401] b 2 1 [] [] [] [] [] 0 1 0 0 [0x20000] }]
    mem := [(0x300, 7)]
    lk := { entries := [{ reg := 0, ctx := 1, core := 0, overflow := false, flight := 5, ranges := [{ space := 0, lo := 0, len := 2, write := true }] }], next := 1 } }

theorem witness_CopiesMoveBytes_completion :
    [none, some 0].all (fun b =>
      let s := copying b
      Memory.wf s.mem && (match s.flight? 5 with
        | some f =>
          let ws := copyWrites s f
          !f.done && !lockWaits s 5 && !acquirePending s f && !writePending s f (ws.map (·.1)) && decide ((ws.map (·.1)).Nodup) && ws == [(0x400, 7), (0x401, 0)] &&
          [0x20000].all (fun a => !(ws.map (·.1)).contains a) && copiesOf s (ws.map (·.1)) == [] &&
          copiesOf { s with ch := { dir := [(8, 1)] } } (ws.map (·.1)) == [8] &&
          barrierBytes.all (fun a => !(ws.map (·.1)).contains a && a != 0x20000) && barrierBytes.length == 16
        | none => false)) = true := by decide +kernel

/-- A copy by rows, and a crypto copy with its tag at 0x500 and its record at 0x600, in flight. -/
def copyingBy (minor : Nat) : State :=
  let w : Work := if minor = 1 then .copy 1 [0x300, 0x301] [0x400, 0x401, 0x402, 0x403] none 4 1 [] [] [] [] [] 0 2 1 2 []
    else .copy minor [0x300] [0x400] none 1 1 (List.replicate 32 7) (List.replicate 12 1) [] (rangeFrom 0x500 0x510) (rangeFrom 0x600 0x610) 1 1 0 0 []
  { copying none with fl := [{ id := 5, th := 0, core := 0, ctx := 1, paths := [4], work := w }] }

theorem witness_CopiesMoveBytes_kinds :
    [1, 2, 3].all (fun minor =>
      let s := copyingBy minor
      Memory.wf s.mem && (s.flight? 5).any (fun f =>
        let as := (copyWrites s f).map (·.1)
        !f.done && !lockWaits s 5 && !acquirePending s f && !writePending s f as && decide as.Nodup && copiesOf s as == [])) = true := by decide +kernel

/-- An arrival in flight, which holds the group of slot 0. -/
def arriving (count due : Nat) : State :=
  let s := at_ [] (fun t => { t with ps := { t.ps with s0 := { t.ps.s0 with grp := some { st := .waiting, mask := 3, hold := .flight 5 } } } })
  { s with fl := [{ id := 5, th := 0, core := 0, ctx := 1, paths := [], work := .arrive 0 2 count 9 5 }]
           mem := if due = 0 then [] else [(barrierBytes.getD 4 0, BitVec.ofNat 8 due)] }

theorem witness_ArrivalBarriers :
    ([((.abset : LForm → Instr), lf 0 404 504 0 0 (some 65535)), (.abset, lf 0 404 447 0), (.abset, lf 0 404 504 0 0 (some 65536)),
      (.abdecl, lf 0 404 504 0 0 (some 0x7FFFFFFF)), (.abwait, lf 0 404 481 0), (.abwait, lf 0 404 480 0), (.abtest, lf 7 404 480 0)].all (fun p =>
      let s := addr (p.1 p.2)
      ((p.1 p.2).wf || p.2.b.toNat == 447 || p.2.b.toNat == 504) && readyB s (issL p.2 0 0) [srcA p.2, srcB p.2] [] readActive &&
        (groupOf s (issL p.2 0 0) &&& ~~~(s.th 0).ln.helper != 0) && (given s (issL p.2 0 0) [srcA p.2, srcB p.2]).v 0 0 == 0)) = true ∧
    (let x := lf 0 404 481 495
     (caseL .abarr x (fun x => [srcA x, srcB x, srcC x]) []).ok (addr (.abarr x)) = true ∧
       roomsB (addr (.abarr x)) 0 (commitPath ((addr (.abarr x)).th 0) (groupOf (addr (.abarr x)) (issL x 0 0))) = true) ∧
    roomsB (addr (.abtest (lf 7 404 480 0))) 0 [2] = true ∧
    BarrierAt (addr (.abset (lf 0 404 481 0))) 0 0 barrierBytes ∧ MemOk (addr (.abset (lf 0 404 481 0))) ∧
    (∀ p ∈ [(1, 1), (3, 4), (1, 0)], let s := arriving p.1 p.2
      Memory.wf s.mem = true ∧ (s.flight? 5).isSome = true ∧ (s.ctx 1).strengthen = false ∧ ((s.th 0).grp 0).hold = .flight 5 ∧
        bitsOf (abRead s 2 0) 32 16 = p.2 ∧
        (s.flight? 5).all (fun f => !relWaits s f.th 5 f.lanes (strong s f.ctx 2)) = true) ∧
    (let s := { arriving 1 1 with fl := adding :: (arriving 1 1).fl }
     (s.flight? 5).all (fun f => relWaits s f.th 5 f.lanes (strong s f.ctx 2)) = true) ∧
    abReached (at_ []) 2 0 0 = true ∧ abReached (at_ []) 2 0 (2 ^ 30 + 1) = true ∧ abReached (at_ []) 2 0 (2 ^ 30) = false ∧
    abReached (at_ []) 2 0 1 = false := by
  refine ⟨by decide +kernel, by decide +kernel, by decide +kernel, barrierAt_of (by decide +kernel), memOk_mapped _, by decide +kernel,
    by decide +kernel, ?_⟩
  decide +kernel

/-- A context whose handle slot 5 is valid, over ten elements at address 0x1000; `[s12]` to `[s14]` are its handle, one of an older
generation, and the slot number. -/
def handled (raw rewriting : Bool) (i : Instr) : State :=
  let s := (addr i).modTh 0 (withCells (someCells ++ [(sCell 12, 0x1005), (sCell 13, 5)]))
  { s with ctxs := s.ctxs.map (fun e => (e.1, { e.2 with handles :=
      [(5, { gen := 1, valid := true, base := 0x1000, x := 10, y := 1, p := 10, raw := raw, rewriting := rewriting })] })) }

/-- A fetch through a handle, of two elements a lane from an index on. -/
def fgetX (a b : Nat) : PForm := pf (lf 38 a b 480 7) 1 0 0 0

/-- The operands of a fetch. -/
def fgetSrcs (x : PForm) : List Opnd := [srcA x.l, srcB x.l, srcC x.l] ++ parOpnds x

/-- Whether a fetch is ready, the slot and generation that its handle names, and whether every lane's checks pass. -/
def gathers (raw rw : Bool) (x : PForm) : Bool × Nat × Nat × Bool :=
  let s := handled raw rw (.fget x)
  let i := issP x 0 0
  let g := given s i (fgetSrcs x)
  let xs (l : Nat) : List (Nat × Int) := (List.range 2).map (fun e => ((destCells (s.th 0) (38 + e) 1 l).headD 0, sextN (g.v 1 l) 32 + e))
  ((Instr.fget x).wf && readyB s i (fgetSrcs x) [38, 39] readActive && roomsB s 0 [3] && lockRoom s 0 &&
      (fgetWaits (poppedState s i (fgetSrcs x)) 0 (handleOf s 1 5) [0, 1]).isNone, g.v 0 0 % 2 ^ 12, g.v 0 0 / 2 ^ 12,
    (lanesGather (fun s l => laneGather s 0 (handleOf s 1 5) l (sextN (g.v 2 l) 32) (xs l)) (poppedState s i (fgetSrcs x)) (lanesOf g.act)).1.all
      (fun r => match r.2 with | .ok l => !l.isEmpty | _ => false))

/-- An operation in flight that changes or reads handle slot 5, after a fetch through the slot. -/
def handOp5 (minor : Nat) (force : Bool) (cells : List Nat) (genF : Nat) : State :=
  let s := handled false true (.nop (lf 0 0 0 0))
  { s with fl := [{ id := 4, th := 0, core := 0, ctx := 1, paths := [3], work := .fetch 5 genF [] 0 0 0 },
                  { id := 5, th := 0, core := 0, ctx := 1, paths := [3], dests := cells, work := .hand minor 5 force { gen := 2 } cells 2 }] }

theorem witness_FetchesAndHandles_fget :
    gathers false false (fgetX 396 480) = (true, 5, 1, true) ∧ gathers true false (fgetX 396 489) = (true, 5, 1, true) ∧
    gathers false true (fgetX 396 480) = (true, 5, 1, true) ∧ gathers false false (fgetX 397 480) = (true, 5, 0, true) ∧
    (let e : FetchElem := { lane := 31, cell := 300, inr := true, pas := [some 0x40001000], width := 8 }
     let s := flying (.fetch 5 1 [e] 900 0x80000000 7) [3] [300, 931]
     ∃ f, s.flight? 5 = some f ∧ f.work = .fetch 5 1 [e] 900 0x80000000 7 ∧ f.done = false ∧ (kget? s.ths f.th).isSome = true ∧ lockWaits s 5 = false ∧
       acquirePending s f = false ∧ ([300, 931] : List Nat).Nodup) := by
  refine ⟨by decide +kernel, by decide +kernel, by decide +kernel, by decide +kernel, _, rfl, ?_⟩
  decide +kernel

theorem witness_FetchesAndHandles_handles :
    ([1, 2, 0].all (fun kind =>
      let x := lf 384 397 392 0 16
      let t := (handled false false (.hset x)).modTh 0 (withCells (someCells ++ [(sCell 8, 0x100), (sCell 9, 0xFF000000), (sCell 13, 4095)]))
      let s := { t with mem := t.mem ++ (if kind = 0 then [] else
        [(2 ^ 52 + 0x108, 1), (2 ^ 52 + 0x10C, 1)] ++ (if kind = 1 then [] else [(2 ^ 52 + 0x10F, 0x80)]) ++
          [(2 ^ 52 + 0x110, 1)] ++ (if kind = 1 then [] else [(2 ^ 52 + 0x114, 1)])) }
      let v := (given s (issL x 0 0) [srcA x, wide x.b .b64]).v
      let r := spanAt (poppedState s (issL x 0 0) [srcA x, wide x.b .b64]) 0 ⟨v 1 0, 32, false⟩
      (Instr.hset x).wf && engineB s (issL x 0 0) [srcA x, wide x.b .b64] && v 0 0 == 4095 && v 1 0 % 16 == 0 && s.hasCtx 1 &&
        (match r.1 with
          | .ok ls =>
            let d := descOf (threadNat r.2 0 (ls.map (·.pa)))
            (readWaits r.2 0 (ls.map (·.pa))).isNone && descBad d == (kind == 0) && decide (2 ^ 31 ≤ d.y) == (kind == 2)
          | _ => false))) = true ∧
    ([((.hinv : LForm → Instr), lf 0 397 0 0), (.hget, lf 446 504 0 0 0 (some 4095))].all (fun p =>
      (p.1 p.2).wf && engineB (handled false false (p.1 p.2)) (issL p.2 0 0) [srcA p.2])) = true ∧
    ([handOp5 1 false [900] 2, handOp5 1 true [900] 1, handOp5 2 false [] 2, handOp5 2 false [] 1, handOp5 3 false [900, 901] 1].all (fun s =>
      match s.flight? 5 with
      | some f => !f.done && (kget? s.ths f.th).isSome && s.hasCtx f.ctx && s.fl.all (fun g => g.id == 5 || (match g.work with | .hand _ _ _ _ _ _ => false | _ => true))
      | none => false)) = true ∧
    ((handOp5 2 false [] 1).fl.any (fun g => fetchesSlot 1 5 g && (match g.work with | .fetch _ x _ _ _ _ => x != 2 | _ => false)) = true) := by
  decide +kernel

/-! #### Tables, splices and feeds -/

/-- A state whose workgroup has table storage of 64 slots and some open tables; `[s8]` is an address of the shared extent. -/
def tabled (ts : List (Nat × Table)) (i : Instr) : State :=
  let s := (addr i).modTh 0 (withCells (someCells ++ [(sCell 8, 0x100), (sCell 9, 0xFF000000)]))
  { s with wgs := s.wgs.map (fun e => (e.1, { e.2 with tabQuads := [0], tabA := 64, tables := ts })) }

/-- A table of eight by eight elements. -/
def plainTable : Table := { m1 := 7, n1 := 7 }

theorem openTable_of {s : State} {th : Nat} {x : LForm} {d : Table}
    (h : ((s.th th).pl.kind == .strand && tableOf s (s.th th).pl.wg (x.md.toNat % 4) == some d) = true) : OpenTable s th x d := by
  simp only [Bool.and_eq_true, beq_iff_eq] at h
  exact h

/-- An open of table 1 in a mode, and its operands. -/
def openX (p0 : Word) (c : Nat) : PForm := pf (lf 0 386 480 c 1) p0 0 (if c = 0 then 0 else 0x7007) 9
def openSrcs (x : PForm) : List Opnd := [baseA x.l, srcB x.l, if isS x.l.c.toNat then wide x.l.c .b64 else { spec := 479 }] ++ parOpnds x

/-- Whether an open is ready, whether its values break a limit, and whether its spill region passes. -/
def opens (x : PForm) (ts : List (Nat × Table)) : Bool × Bool × Bool :=
  let s := tabled ts (.spOpen x)
  let g := given s (issP x 0 0) (openSrcs x)
  let v (n : Nat) : Nat := g.v n 0
  let p0 := parVal x.p0 (v 3)
  let p2 := parVal x.p2 (v 5)
  let hash := bitOf p0 22
  let d : Table := { spillBase := v 0, spillCap := v 1, tag := parVal x.p3 (v 6), scope := bitsOf p0 23 2, hash := hash, probe := bitsOf p0 18 4 + 1,
                     logS := bitsOf p0 13 5, b := parVal x.p1 (v 4), m1 := bitsOf p2 12 12, n1 := bitsOf p2 0 12,
                     row0 := if hash then 0 else v 2 % 2 ^ 32, col0 := if hash then 0 else v 2 / 2 ^ 32 }
  ((Instr.spOpen x).wf && readyB s (issP x 0 0) (openSrcs x) [] readActive && (s.th 0).pl.kind == .strand && (kget? s.wgs 2).isSome &&
      (tabBusy s 2 1 (fun _ => true)).isNone && roomsB s 0 [5],
    openBad s (s.th 0) p0 (parVal x.p1 (v 4)) p2 (parVal x.p3 (v 6)) (isS x.l.c.toNat) d 1, (spillCheck (poppedState s (issP x 0 0) (openSrcs x)) 0 (v 0) (v 1)).1.isOk)

theorem witness_TableInstructions_open :
    opens (openX 0xC000 388) [] = (true, false, true) ∧ opens (openX 0x40C000 0) [(1, plainTable)] = (true, false, true) ∧
    opens (openX 0xE000 388) [] = (true, true, true) ∧ opens (openX 0xC000 388) [(0, plainTable)] = (true, true, true) := by decide +kernel

/-- A short SPL instruction on table 1 with its operands, which are at issue. -/
def splReady (ins : LForm → Instr) (x : LForm) (srcs : List Opnd) (ts : List (Nat × Table)) : Bool :=
  let s := tabled ts (ins x)
  (ins x).wf && readyB s (issL x 0 0) srcs [] readActive && roomsB s 0 [5] && lockRoom s 0 && (tabBusy s 2 1 (fun _ => true)).isNone

/-- A drain of table 1 to the shared extent in a form and format, and its operands. -/
def drainX (f : Nat) : LForm := if f / 8 % 4 = 2 then lf f 392 497 0 1 else lf f 392 497 504 1 (some 64)
def drainSrcs (x : LForm) : List Opnd := [baseA x, { spec := x.b.toNat, ty := .f32 }, if bitsOf x.d.toNat 3 2 = 2 then { spec := 479 } else srcC x]

/-- An operation on table 1 in flight. -/
def onTable (w : Work) : State :=
  let s := tabled [(1, plainTable)] (.nop (lf 0 0 0 0))
  { s with fl := [{ id := 5, th := 0, core := 0, ctx := 1, paths := [5], dests := [], work := w }] }

theorem witness_TableInstructions :
    (let x := lf 0 392 482 0 1
     let s := tabled [(1, plainTable)] (.spSeed x)
     splReady .spSeed x [baseA x, srcB x] [(1, plainTable)] = true ∧ OpenTable s 0 x plainTable ∧
       (spanAt (poppedState s (issL x 0 0) [baseA x, srcB x]) 0 ⟨(given s (issL x 0 0) [baseA x, srcB x]).v 0 0, 32, false⟩).1.isOk = true) ∧
    (splReady .spStat (lf 444 0 0 0 1) [] [(1, plainTable)] = true ∧ splReady .spClear (lf 0 0 0 0 5) [] [(1, plainTable)] = true ∧
      splReady .spClose (lf 0 0 0 0 1) [] [(1, plainTable)] = true) ∧
    tabBusy (onTable (.tabop 2 1 0 [] {})) 2 1 (fun _ => true) = some 5 ∧ kordered ((onTable (.tabop 2 1 0 [] {})).wg 2).tables = true ∧
    ([0, 16, 13, 104].all (fun f =>
      let s := tabled [(1, plainTable)] (.spDrain (drainX f))
      let v (n : Nat) : Nat := (given s (issL (drainX f) 0 0) (drainSrcs (drainX f))).v n 0
      splReady .spDrain (drainX f) (drainSrcs (drainX f)) [(1, plainTable)] && v 0 % 32 == 0 && v 1 == 0x3F800000 && (f / 8 % 4 == 2 || v 2 == 64) &&
        (pagesAt (poppedState s (issL (drainX f) 0 0) (drainSrcs (drainX f))) 0 .write (fun _ l => !l.exact) (v 0) 256).1.isOk)) = true ∧
    ([.seed 2 1 (List.range 32) 2 0, .seed 2 1 [] 0 0, .drain 2 1 [(0x400, 1), (0x401, 0)] [0x20000], .tabop 2 1 3 [900, 901, 902, 903] {},
        .tabop 2 1 0 [] {}].all (fun w => match (onTable w).flight? 5 with
      | some f => f.work == w && !f.done && !opWaits (onTable w) f && !lockWaits (onTable w) 5 && !writePending (onTable w) f [0x400, 0x401] &&
          !acquirePending (onTable w) f && !readPending (onTable w) f (List.range 16) && copiesOf (onTable w) [0x400, 0x401] == [] &&
          copiesOf { onTable w with ch := { dir := [(8, 1)] } } [0x400, 0x401] == [8] &&
          Memory.wf (onTable w).mem
      | none => false)) = true := by
  refine ⟨⟨by decide +kernel, openTable_of (by decide +kernel), by decide +kernel⟩, by decide +kernel, by decide +kernel, by decide +kernel,
    by decide +kernel, by decide +kernel⟩

/-- The state of a splice on table 1: nf0 and nf1 are E4M3, and the first A rows stand in f0 on. -/
def spliced (i : Instr) (f : Strand → Strand := id) : State :=
  (tabled [(1, plainTable)] i).modTh 0 (fun t => f { t with ct := { t.ct with nf := [0x40070342, 0x40070342, 0x0702, 0x0702] } })

/-- The operands of a dense splice whose A rows come from registers. -/
def denseSrcs (mode regs sregs : Nat) (x : PForm) : List Opnd :=
  let no : Opnd := { spec := 479 }
  [{ spec := x.l.a.toNat, regs := regs }, if isFG x.l.c.toNat && mode != 1 then { spec := x.l.c.toNat, regs := sregs } else if mode = 1 then srcC x.l else no,
    if isFq x.l.b.toNat then no else srcB x.l, if mode = 4 then wide x.l.d .b64 else no] ++ parOpnds x

/-- Whether a dense splice of two rows by two columns is ready and its ranges pass, and the other checks of its issue hold. -/
def denses (ins : PForm → Instr) (mode : Nat) (x : PForm) (nB nL : Nat) : Bool × Bool :=
  let s := spliced (ins x)
  let i := issP x 0 0
  let srcs := denseSrcs mode 1 1 x
  let g := given s i srcs
  ((ins x).wf && readyB s i srcs [] readActive && tableOf s 2 (x.l.md.toNat % 4) == some plainTable && coreServes (s.wg 2) (s.th 0) plainTable && lockRoom s 0 && roomsB s 0 [5] &&
      aBlock x.l.a.toNat 2 && nfOk (nfOf s 0 0) && nfOk (nfOf s 0 1) && g.v 1 0 % 4 == 0 && (isFq x.l.b.toNat || g.v 2 0 % 8 == 0),
    (spansAt 0 (poppedState s i srcs) [⟨spaceBase 2 + g.v 2 0, nB, false⟩, ⟨spaceBase 2 + g.v 1 0, nL, false⟩]).1.isOk)

/-- A join of two tuple streams, or of records. -/
def joinX (rec_ : Bool) : PForm := if rec_ then pf (lf 0 392 0 0 9) 0 1 0 0 else pf (lf 0 392 392 0 1) 0x2000 2 3 0
def joinSrcs (rec_ : Bool) (x : PForm) : List Opnd := [baseA x.l, if rec_ then { spec := 479 } else wide x.l.b .b64] ++ parOpnds x

/-- Whether a join is ready and its streams pass. -/
def joins (ins : PForm → Instr) (rec_ : Bool) (ts : State → State) : Bool × Bool :=
  let x := joinX rec_
  let s := ts (spliced (ins x))
  let srcs := joinSrcs rec_ x
  let g := given s (issP x 0 0) srcs
  ((ins x).wf && readyB s (issP x 0 0) srcs [] readActive && lockRoom s 0 && roomsB s 0 [5] && g.v 0 0 % 16 == 0 && g.v 1 0 % 8 == 0 && coreServes (s.wg 2) (s.th 0) plainTable,
    (spansAt 0 (poppedState s (issP x 0 0) srcs) [⟨g.v 0 0, if rec_ then 48 else 16, false⟩, ⟨g.v 1 0, if rec_ then 0 else 24, false⟩]).1.isOk)

/-- The state with no table open. -/
def noTables (s : State) : State := { s with wgs := s.wgs.map (fun e => (e.1, { e.2 with tables := [] })) }

theorem witness_SplicesIssue :
    denses .spMma 0 (pf (lf 0 0 384 320 1) 0x20001 0 0 0) 128 0 = (true, true) ∧ denses .spMma 0 (pf (lf 0 0 464 479 1) 0x20001 0x100 0 0) 0 0 = (true, true) ∧
    denses .spJoinPair 1 (pf (lf 0 0 384 384 5) 0x22001 0x10000 0 0) 128 4 = (true, true) ∧
    denses .spGrp 4 (pf (lf 392 0 384 479 1) 1 0x20000 0x101 0) 256 0 = (true, true) ∧
    joins .spJoinKj false id = (true, true) ∧ joins .spJoinRec true id = (true, true) ∧
    (joins .spJoinKj false noTables).1 = true ∧ (joins .spJoinRec true noTables).1 = true ∧ tableOf (noTables (spliced (.spJoinRec (joinX true)))) 2 1 = none := by
  decide +kernel

/-- A splice of one record on table 1 in flight, whose arrays are up; one array may serve another operation. -/
def unitAt (x : Splice) (d : Table) (slaved : Option Nat := none) : State :=
  let s := onTable (.splice x)
  { s with wgs := s.wgs.map (fun e => (e.1, { e.2 with tables := [(1, d)], tabQuads := [0, 1] }))
           quads := [(0, { ramped := true }), (1, { ramped := true, slaved := slaved })], mem := [(0x408, 5)] }

/-- A splice of a record of key 0. -/
def oneRecord (n : Nat) : Splice := { minor := 3, wg := 2, table := 1, recMode := true, count := n, aPas := (List.range 48).map (0x400 + ·), sclA := [0] }

/-- A hash table that is full for key 0 and has no spill space. -/
def fullTable : Table := { hash := true, probe := 1, logS := 6, slots := (List.range 64).map (fun n => (n, { seeded := false, key := 2 ^ 63 + n, pos := 0, v := 1 })) }

/-- What the next unit of an operation in flight is, and whether its table takes it. -/
def unitKind (x : Splice) (d : Table) : Bool × Nat × Option Bool :=
  let s := unitAt x d
  match s.flight? 5 with
  | none => (false, 0, none)
  | some f =>
    let s1 := if d.scope != 0 then takeArrays s f (homeArrays (s.wg 2) d) else s
    (!f.done && !x.suspended && decide (f.th < savedBase) && !(s.th 0).ps.halted && !opWaits s1 f && !lockWaits s1 5 && !acquirePending s1 f &&
        tableOf s 2 1 == some d && (kget? s.ths f.th).isSome && (s.th 0).ct.pending.isNone &&
        (homeArrays (s.wg 2) d).all (fun q => !arrayBusy s1 f (d.scope != 0) q && (s1.quad q).ramped),
      match unitOf s1 f x with | .sums _ _ _ _ => 1 | .over => 2 | _ => 0,
      match unitOf s1 f x with
      | .sums l extra _ _ => some ((enterUnit { d with discard := satAdd d.discard extra } (sortBy (fun e => e.1) l)).any (fun r =>
          !spillLocked s1 f (spillRanges r.2) && (r.2.isEmpty || lockRoom s1 f.core)))
      | _ => none)

/-- Whether an operation that spans arrays finds one of them busy. -/
def spanBusy (x : Splice) (d : Table) : Bool :=
  let s := unitAt x d (some 4)
  match s.flight? 5 with
  | none => false
  | some f => d.scope != 0 && (homeArrays (s.wg 2) d).any (fun q => arrayBusy s f true q) && (homeArrays (s.wg 2) d).any (fun q => !arrayBusy s f true q)

theorem witness_SpliceUnitsAndArrays_units :
    unitKind (oneRecord 1) plainTable = (true, 1, some true) ∧ unitKind (oneRecord 1) fullTable = (true, 1, some false) ∧
    unitKind (oneRecord 0) plainTable = (true, 2, none) ∧ unitKind (oneRecord 1) { plainTable with scope := 1 } = (true, 1, some true) ∧
    unitKind (oneRecord 1) { fullTable with spillCap := 96 } = (true, 1, some true) ∧ spanBusy (oneRecord 1) { plainTable with scope := 1 } = true ∧
    (plainTable.hash = false ∧ plainTable.seeded = false ∧ (directSlot plainTable (7 * 2 ^ 32 + 7)).isSome = true ∧
      (directSlot plainTable 0).isSome = true ∧ directSlot plainTable 8 = none) := by decide +kernel

/-- A quadrant's array at a time, with nothing in flight. -/
def arrayAt (a : Quadrant) (now : Nat) : State := { State.reset with quads := [(0, a)], now := now }

theorem witness_SpliceUnitsAndArrays_arrays :
    (let x := lf 0 504 0 0 1 (some 65535)
     let s := tabled [(1, plainTable)] (.burst x)
     (Instr.burst x).wf = true ∧ OpenTable s 0 x plainTable ∧ readyB s (issL x 0 0) [srcA x] [] readActive = true ∧
       homeArrays (s.wg 2) plainTable = [0] ∧ readyB (noTables s) (issL x 0 0) [srcA x] [] readActive = true) ∧
    (let x := lf 0 447 0 0 1
     let s := (tabled [(1, plainTable)] (.burst x)).modTh 0 (withCells [(sCell 63, 65536)])
     (Instr.burst x).wf = true ∧ readyB s (issL x 0 0) [srcA x] [] readActive = true ∧ (given s (issL x 0 0) [srcA x]).v 0 0 = 65536) ∧
    (arrayQueued (arrayAt { ramped := true } 512) 0 = false ∧ arrayQueued (arrayAt { credit := 1 } 8192) 0 = false ∧
      arrayQueued (unitAt (oneRecord 1) plainTable) 0 = true) := by
  refine ⟨⟨by decide +kernel, openTable_of (by decide +kernel), by decide +kernel, by decide +kernel, by decide +kernel⟩,
    by decide +kernel, by decide +kernel⟩

/-- An access thread at the issue of an instruction, whose registers a1, a2 and a3 hold 0x1000, 0x1100 and 1. -/
def accessing (i : Instr) (f : Access → Access := id) : State :=
  let s := coded (addr (.nop (lf 0 0 0 0)))
  let s := { s with mem := tables ++ s.mem, codes := s.codes.map (fun e : Nat × Code => (e.1, { e.2 with trans := [(0, { trans3 with acOff := 256, acLen := 256 })] })) }
  s.modTh 0 (fun t => { t with
    access := some (f { a := [0, 0x1000, 0x1100, 1] ++ List.replicate 12 2, pc := 64, clause := some { hdr := 64, word := 3, body := encode i ++ [0x40, 0x40] } })
    fqs := List.replicate 7 [] })

/-- Whether an access thread is at an instruction, which is well formed. -/
def accessB (i : Instr) (f : Access → Access := id) : Bool :=
  let s := accessing i f
  i.wf && s.run.cur == some 0 && (match (s.th 0).access with
    | some a => a.clause.isSome && !a.ended && !a.faulted && a.a.length == 16 && nextAccess (s.th 0) == some i
    | none => false)

theorem witness_FeedInstructions_registers :
    ((List.range 5).all (fun g => accessB (.aSet { lf 15 1 2 0 with gk := BitVec.ofNat 3 (g % 8), gneg := false })) &&
      accessB (.aSet { lf 3 1 63 0 with gk := 6 }) && accessB (.aSet { lf 15 1 32 0 with gk := 5 }) &&
      [2, 3, 0].all (fun d => accessB (.aLoop (lf d 1 3 14)) && accessB (.aLoop (lf d 479 0 14)))) = true ∧
    (let s := accessing (.aSet { lf 15 1 32 0 with gk := 5 })
     (match (feedWord s 0 0x1100 8).1 with | .val _ => true | _ => false) = true) ∧
    (let s := accessing (.aLoop (lf 2 1 3 14))
     accessSlice (s.transTh (s.th 0)) = (64, 128) ∧ (66 : Int) + loopOff (lf 2 1 3 14) = 80 ∧
       (codeRead s 1 3 80 true).1.toOption.map (fun w => w.toNat % 4) = some 3) := by decide +kernel

theorem witness_FeedInstructions_rows :
    (accessB (.aLd (lf 464 1 0 0)) = true ∧ (let s := accessing (.aLd (lf 464 1 0 0))
      (RowFree s 0 0 0x1000 ∧ (resolveRun s 0 .read 0x1000 128).1.isOk = true))) ∧
    ([lf 464 1 0 0 0, lf 464 1 0 0 24].all (fun x => accessB (.aWalk x) (fun a => { a with a := [0, 0x1000, 0x1100, 0, 1] ++ List.replicate 11 0 }))) = true ∧
    (let s := accessing (.aWalk (lf 464 1 0 0 16)) (fun a => { a with a := [0, 0x1000, 0x1100, 0, 1] ++ List.replicate 11 0 })
     (match (cooGo 0 0x1000 0x1100 32 s 0 1).1 with | .got ts _ left _ => ts.length == 1 && left == 0 | _ => false) = true ∧
     (match (csrGo 0 0x1000 0x1100 34 s 32 0 1 0).1 with | .got ts _ left _ => ts.length == 0 && left == 0 | _ => false) = true) ∧
    (accessB (.aSync (lf 464 16 0 0)) = true ∧ accessB (.aSync (lf 464 0 0 0)) = true ∧ accessB (.aEnd (lf 0 0 0 0)) = true ∧
      feedRows (accessing (.aSync (lf 464 0 0 0))) 0 0 = 0 ∧
      feedRows { accessing (.aSync (lf 464 0 0 0)) with fl := [{ id := 5, th := 0, core := 0, ctx := 1, paths := [7], work := .feed 0 [] {} [] [] }] } 0 0 = 1) ∧
    (let s := { accessing (.aSync (lf 464 0 0 0)) with
                  fl := [{ id := 5, th := 0, core := 0, ctx := 1, paths := [7], work := .feed 6 (List.range 128) { fmt := 5 } [] [] }] }
     (match s.flight? 5 with
      | some f => !f.done && (kget? s.ths f.th).isSome && decide (6 < (s.th f.th).fqs.length)
      | none => false) = true) := by
  unfold RowFree PathsOpen
  decide +kernel

/-! #### Upkeep, switching and deadlines -/

theorem tablesOrdered_of {s : State} (h : (kordered s.ths && kordered s.wgs && kordered s.launches && kordered s.ctxs && kordered s.codes &&
    kordered s.quads && kordered s.queues && kordered s.dls && kordered s.up.pages) = true) : TablesOrdered s := by
  simp only [Bool.and_eq_true] at h
  exact ⟨h.1.1.1.1.1.1.1.1, h.1.1.1.1.1.1.1.2, h.1.1.1.1.1.1.2, h.1.1.1.1.1.2, h.1.1.1.1.2, h.1.1.1.2, h.1.1.2, h.1.2, h.2⟩

/-- The usual state with page 2 owned by context 1, whose queue 7 runs. -/
def owned : State := { at_ [] with up := { State.reset.up with pages := [(2, 1)] }, queues := [(7, { ctx := some 1 })] }

theorem witness_PowerAndErrors :
    TablesOrdered owned ∧ resident owned 1 = true ∧ TablesOrdered State.reset ∧ (∀ c, resident State.reset c = false) ∧
    ([.dram 0x20000, .l2 0x20000 1, .strand 0, .table 0 0, .scratch 0 0, .common 0].all (fun l => errOwner owned l == some 1) &&
      [.dram 0, .l2 0 0, .l1 0 1, .strand 9, .table 9 0, .scratch 0 31, .common 9].all (fun l => (errOwner owned l).isNone)) = true ∧
    ((owned.quad 0).withdrawn = false ∧ (owned.quad 0).degraded = false ∧ (owned.quad 0).slack ≠ 0) ∧
    (let s := { owned with quads := [(0, { slack := 0 })] }
     TablesOrdered s ∧ (s.quad 0).slack = 0 ∧ (s.quad 0).withdrawn = false ∧ (kget? s.ctxs 1).isSome = true) := by
  refine ⟨tablesOrdered_of (by decide +kernel), by decide +kernel, tablesOrdered_of (by decide +kernel), fun _ => rfl, by decide +kernel,
    by decide +kernel, tablesOrdered_of (by decide +kernel), ?_⟩
  decide +kernel

/-- A workgroup of no strands that is to be switched out, or has been, of a context with save areas. -/
def switching (g : Workgroup) (area : Nat) (now : Nat) : State :=
  let s := mapped (at_ [])
  { s with ths := [], wgs := [(2, g)], now := now
           ctxs := s.ctxs.map (fun e => (e.1, { e.2 with saveArea := true, save0 := 0x100000, save0Len := area })) }

/-- The workgroup that halts from time 100 on. -/
def halting : Workgroup := { ctx := 1, launch := 4, code := 3, haltAt := some 100, bars := List.replicate 8 0 }

theorem only_place (size st : Nat) (h : 0 < size) : freeRegion [(0, 4096)] size (4096 + size) st = some 4096 := by
  have e : sortBy (fun h : Nat × Nat => h.1) [(0, 4096)] = [(0, 4096)] := rfl
  have z : regionFrom size (4096 + size) [(0, 4096)] 0 = some 4096 := by
    simp [regionFrom, Nat.ne_of_gt h]
  unfold freeRegion
  simp only [e]
  by_cases k : st < 4096
  · have m : Nat.max st 4096 = 4096 := Nat.max_eq_right (Nat.le_of_lt k)
    simp [k, regionFrom, m, Nat.ne_of_gt h]
  · have f : List.filter (fun h : Nat × Nat => decide (st < h.1 + h.2)) [(0, 4096)] = [] := by simp [k]
    rw [f]
    simp only [regionFrom]
    by_cases l : st + size ≤ 4096 + size
    · have : st = 4096 := by omega
      simp [this]
    · simp only [l, if_false]
      exact z

theorem record_of {s : State} {ctx core len : Nat} (h : (saveArea (s.ctx ctx) core).2 = 4096 + len)
    (k : savedRecords s ctx (dieOf core) = []) (p : 0 < len) : recordPlace s ctx core len = some 4096 := by
  unfold recordPlace
  rw [k]
  simp only [h]
  rw [if_neg (by omega)]
  exact only_place len _ p

theorem witness_SwitchingOutAndBack_out :
    (let s := switching halting 8192 101
     TablesOrdered s ∧ kget? s.wgs 2 = some halting ∧ (s.ctx 1).saveArea = true ∧ resident s 1 = true ∧ (s.ctx 1).root % 8192 = 0 ∧
       (s.ctx 1).root < 2 ^ 52 ∧ drained s 2 = true ∧ lockRoom s 0 = true ∧ (s.ctx 1).ended = false ∧ s.now < 100 + haltTicks (s.ctx 1) ∧ recordPlace s 1 0 (recordLen s 2) = some 4096 ∧
       let s1 := { s with run := { s.run with fresh := s.run.fresh + 1 } }
       (devBlock s1 1 (recordLen s 2 / 4096 + 1) ((saveArea (s.ctx 1) 0).1 + 4096) (wgBytes s1 2)).isSome = true) ∧
    (let s := switching halting 0 (100 + 48000)
     recordPlace s 1 0 (recordLen s 2) = none ∧ 100 + haltTicks (s.ctx 1) ≤ s.now) ∧
    (let s := at_ [] (fun t => { t with ps := { s0 := { grp := some { pc := 64, mask := 1 } } } })
     (kget? s.wgs 2).isSome = true ∧ (s.wg 2).saved = false ∧ switchSet s 2 = [2] ∧ haltsNow (s.th 0) = true) := by
  and_intros <;> first
    | decide +kernel
    | exact tablesOrdered_of (by decide +kernel)
    | exact record_of (by decide +kernel) (by decide +kernel) (by decide +kernel)

/-- A part in which the workgroup is saved: its one strand is in its image. -/
def saved (f : Workgroup → Workgroup := id) : State :=
  let s := at_ []
  { s with ths := []
           wgs := s.wgs.map (fun e => (e.1, f { e.2 with saved := true, threads := [], image := [strandAt []] })) }

/-- A part in whose quadrant 0 two contexts share, one in each half, by a quadrant's state. -/
def shadowed (a : Quadrant) : State :=
  let s := at_ [] (fun t => { t with ps := { t.ps with halted := true } })
  { s with ctxs := [(1, { handler := 3, mode := 1, quads := [0] }), (5, { mode := 2, quads := [0] })]
           quads := [(0, a)], now := 300 }

/-- The shared quadrant with a workgroup of half 1 that was copied out and can be restored. -/
def awayHalf (t : Option Nat) : State :=
  let s := shadowed { swapTill := t }
  { s with wgs := [(7, { ctx := 5, code := 3, half := 1, saved := true, quads := [0], bars := List.replicate 8 0, image := [strandAt []] })] }

theorem witness_SwitchingOutAndBack_back :
    (let s := saved
     let g := s.wg 2
     kget? s.wgs 2 = some g ∧ g.saved = true ∧ (s.ctx g.ctx).ended = false ∧ g.partner = none ∧ g.threads = [] ∧ g.image.length = 1 ∧
       (restoreAllot s g).isSome = true ∧ ∀ u ∈ g.image, u.pl.core = g.core ∧ u.pl.half = g.half ∧ u.pl.quad < 4 ∧ u.ct.due = none) ∧
    (let s := saved (fun g => { g with core := 1 })
     let g := s.wg 2
     g.saved = true ∧ restoreAllot s g = none) ∧
    (let s := shadowed {}
     (s.quad 0).swapTill = none ∧ halfOwner s 0 0 = some 1 ∧ halfOwner s 0 1 = some 5 ∧ (s.quad 0).spilling = none ∧
       (s.quad 0).holder = none ∧ halfStrands s 0 0 = [0] ∧ (s.th 0).ps.halted = true ∧ halfAway s 0 1 = false) ∧
    halfAway (awayHalf none) 0 1 = true ∧
    ((shadowed { swapTill := some 301 }).quad 0).swapTill = some 301 ∧ ((shadowed { swapTill := some 300 }).quad 0).swapTill = some 300 ∧
    (let s := shadowed { spilling := some 0 }
     halfStrands s 0 0 = [0] ∧ (s.quad 0).spilling = some 0 ∧ ∀ n ∈ halfStrands s 0 0, (s.ctx (s.wg (s.th n).pl.wg).ctx).saveArea = false) := by
  decide +kernel

/-! #### Deadlines -/

/-- A workgroup of no strands of queue 5, under a deadline of its context that falls due at time 400,000. -/
def pressed (now : Nat) (l : Launch) (area : Bool) (d : Deadline) : State :=
  let s := mapped (at_ [])
  { s with ths := [], wgs := [(2, { ctx := 1, launch := 4, code := 3, quads := [0], bars := List.replicate 8 0 })]
           launches := [(4, { l with ctx := 1, code := 3, queue := some 5 })]
           ctxs := [(1, { handler := 3, quads := [0], root := 0x10000, saveArea := area })]
           dls := [(9, { d with kind := 1, till := 400000, ctxs := [1] })], now := now }

/-- Whether the deadline has a decision to make, for queue 5 alone, and where the choice made before stands. -/
def decides (s : State) (old : Nat) : Bool :=
  let d := kgetD s.dls 9 {}
  (match d.lastAt with | some a => a + 24000 ≤ s.now | none => true) && ofQueue s (affectedWgs s d) 5 == [2] &&
    (List.range Config.queueThreads).all (fun p => p == 5 || (ofQueue s (affectedWgs s d) p).isEmpty) &&
    ofQueue s (decidedWgs s 9 d) 5 == [2] && (kgetD d.choices 5 {}).choice == old && (s.wg 2).ctx == 1

/-- The same part under a second deadline, of an earlier time, which has chosen for queue 5. -/
def doublyPressed : State :=
  let s := pressed 0 {} true {}
  { s with dls := (8, { kind := 1, till := 300000, ctxs := [1], choices := [(5, { ctx := 1, choice := 2 })] }) :: s.dls }

/-- E_run of the workgroup, whether the context has a save area, and R. -/
def bounds (s : State) : Option Nat × Bool × Nat := (eRun s [2], (s.ctx 1).saveArea, (kgetD s.dls 9 {}).till - s.now - 96000)

theorem no_dirt (now : Nat) (l : Launch) (area : Bool) (d : Deadline) (i : Nat) : dirtyBytes (pressed now l area d) i [2] = 0 := by
  have w : (pressed now l area d).wg 2 = { ctx := 1, launch := 4, code := 3, quads := [0], bars := List.replicate 8 0 } := rfl
  have t : wgThreads (pressed now l area d) 2 = [] := rfl
  have v : savedSlots (pressed now l area d) 2 = [] := rfl
  have b : leftBytes (pressed now l area d) 2 = 0 := rfl
  have y : (pressed now l area d).dirty = [] := rfl
  unfold dirtyBytes
  by_cases h : dieOf 0 = i
  · simp [w, t, v, b, h, y]
  · simp [w, h]

/-- E_ckpt of the workgroup is the halt timeout alone. -/
theorem ckpt_of (now : Nat) (l : Launch) (area : Bool) (d : Deadline) : eCkpt (haltTicks ((pressed now l area d).ctx 1))
    ((List.range Config.dies).map (fun i => dirtyBytes (pressed now l area d) i [2])) (admitted d) = 48000 := by
  have h : haltTicks ((pressed now l area d).ctx 1) = 48000 := by
    have c : (pressed now l area d).ctx 1 = { handler := 3, quads := [0], root := 0x10000, saveArea := area } := rfl
    rw [c]
    simp [haltTicks, usTicks]
  rw [h]
  have e : (List.range Config.dies).map (fun i => dirtyBytes (pressed now l area d) i [2]) = [0, 0] := by
    simp only [no_dirt]
    decide
  rw [e]
  rcases admitted d with _ | ⟨a, _ | ⟨b, m⟩⟩ <;> simp [eCkpt]

theorem witness_DeadlinesAreMet_decision :
    (let s := pressed 0 { doneWgs := 1, runSum := 100 } true {}
     decides s 0 = true ∧ bounds s = (some 100, true, 304000)) ∧
    (let s := pressed 0 {} true { lastAt := some 0 }
     decides { s with now := 24000 } 0 = true ∧ bounds { s with now := 24000 } = (none, true, 280000)) ∧
    (let s := pressed 0 { rst := true } false {}
     decides s 0 = true ∧ bounds s = (none, false, 304000) ∧ (s.launch 4).rst = true) ∧
    (let s := pressed 256001 {} true {}
     decides s 0 = true ∧ bounds s = (none, true, 47999) ∧ (s.launch 4).rst = false ∧ resident s 1 = true ∧ TablesOrdered s) ∧
    decides (pressed 0 {} true { choices := [(5, { choice := 2 })] }) 2 = true ∧
    (let s := doublyPressed
     let d := kgetD s.dls 9 {}
     d.lastAt = none ∧ ofQueue s (affectedWgs s d) 5 = [2] ∧ ofQueue s (decidedWgs s 9 d) 5 = [] ∧
       (List.range Config.queueThreads).all (fun p => p == 5 || (ofQueue s (affectedWgs s d) p).isEmpty) = true ∧
       (earlierChoice s 9 d 5).map (·.choice) = some 2) := by
  and_intros <;> decide +kernel

/-- A deadline that waits for its reply: no workgroup is left. -/
def answered : State :=
  { pressed 400000 {} false { lastAt := some 0, choices := [(5, { ctx := 1, choice := 3 })], reply := 0x30000 } with wgs := [] }

theorem witness_DeadlinesAreMet_end :
    TablesOrdered (pressed 303999 {} false {}) ∧ TablesOrdered (pressed 304000 {} false {}) ∧
    (let s := pressed 304000 {} false {}
     let d := kgetD s.dls 9 {}
     kget? s.dls 9 = some d ∧ d.till ≤ s.now + 96000 ∧ affectedWgs s d = [2] ∧ (s.wg 2).launch = 4 ∧
       kget? s.launches 4 = some (s.launch 4) ∧ (s.launch 4).ctx = (s.wg 2).ctx ∧ s.hasCtx (s.launch 4).ctx = true) ∧
    (let s := answered
     let d := kgetD s.dls 9 {}
     TablesOrdered s ∧ MemOk s ∧ kget? s.dls 9 = some d ∧ d.lastAt.isSome = true ∧ affectedWgs s d = [] ∧
       kordered d.choices = true ∧ d.chan < 4 ∧ ∀ e ∈ s.launches, ∀ q, e.2.queue = some q → (kget? d.choices q).isSome = true →
        launchOutcome s e.1 = none ∧ e.2.outcome = none) := by
  refine ⟨tablesOrdered_of (by decide +kernel), tablesOrdered_of (by decide +kernel), by decide +kernel, tablesOrdered_of (by decide +kernel),
    memOk_mapped (at_ []), by decide +kernel, by decide +kernel, by decide +kernel, by decide +kernel, by decide +kernel, ?_⟩
  intro e he q _ _
  have : e = (4, answered.launch 4) := List.mem_singleton.mp he
  subst this
  decide +kernel

/-! #### Management -/

/-- A request of the owner, in slot 1 of channel 0, with a payload. -/
def asks (op : Nat) (payload : List Byte) : Request := { chan := 0, slot := 1, op := op, payload := payload, tag := 5, seqNo := 9, owner := true }

/-- A part whose owner is channel 0, with requests in service. -/
def serving (rs : List Request) (s : State := mapped (at_ [])) : State :=
  { s with mg := { owner := some 0, identity := 77, leaseEnd := 1000, reqs := rs }, now := 100 }

/-- Whether a request is served in a state in which it is the only one. -/
def servedB (s : State) (r : Request) (op len : Nat) : Bool :=
  s.mg.reqs == [r] && !r.started && s.ctxs.all (fun e => !e.2.dying) && r.op == op && r.good && r.payload.length == len && !busy s r

theorem turn_of {s : State} {r : Request} (h : (s.mg.reqs == [r] && !r.started && s.ctxs.all (fun e => !e.2.dying)) = true) : Turn s r := by
  simp only [Bool.and_eq_true, beq_iff_eq, Bool.not_eq_true', List.all_eq_true] at h
  obtain ⟨⟨a, b⟩, c⟩ := h
  refine ⟨by simp [turn, a, b], by simp [SlotsDistinct, a], ?_, c⟩
  intro x hx
  rw [a] at hx
  rw [List.mem_singleton.mp hx, b]

theorem served_of {s : State} {r : Request} {op len : Nat} (h : servedB s r op len = true) : Served s r op len := by
  simp only [servedB, Bool.and_eq_true, beq_iff_eq, Bool.not_eq_true'] at h
  obtain ⟨⟨⟨⟨⟨⟨a, b⟩, c⟩, d⟩, e⟩, f⟩, g⟩ := h
  exact ⟨turn_of (by simp [a, b, List.all_eq_true] at c ⊢; exact c), d, e, f, g⟩

/-- A request of bytes of an operation, alone in service in a state. -/
def asked (op : Nat) (payload : List Byte) (s : State := mapped (at_ [])) : Bool := servedB (serving [asks op payload] s) (asks op payload) op payload.length

theorem leBytes_length (n v : Nat) : (leBytes n v).length = n := by
  induction n generalizing v with
  | zero => rfl
  | succ n ih => simp [leBytes, ih]

theorem entry_length (s : State) {size : Nat} (h : 4 ≤ size) (sect n : Nat) (b : List Byte) : (entry s size sect n b).length = size := by
  simp [entry, fit, leBytes_length]
  omega

theorem section_all (s : State) (ty size : Nat) : ∀ l : List (List Byte), (∀ x ∈ l, x.length = size) → (section_ s ty size l).length = 16 + l.length * size := by
  intro l h
  have k : (l.flatMap id).length = l.length * size := by
    induction l with
    | nil => simp
    | cons a l ih =>
      have e := ih (fun x m => h x (List.mem_cons_of_mem _ m))
      simp only [List.flatMap_cons, List.length_append, e, id, h a List.mem_cons_self, List.length_cons, Nat.succ_mul]
      omega
  simp only [section_, List.length_append, k, leBytes_length]

theorem section_length {α : Type} (s : State) (ty size : Nat) (f : α → List Byte) (h : ∀ x, (f x).length = size) (l : List α) :
    (section_ s ty size (l.map f)).length = 16 + l.length * size := by
  rw [section_all s ty size _ (by simp [h]), List.length_map]

theorem topo_length (s : State) : (section_ s 8 64 ((s.io.dies.flatMap (fun e => [topoEntry s e 0, topoEntry s e 1])).take 12)).length ≤ 16 + 12 * 64 := by
  have e (x : Nat × DieLink) (k : Nat) : (topoEntry s x k).length = 64 := entry_length s (by decide) _ _ _
  rw [section_all]
  · have := List.length_take_le 12 (s.io.dies.flatMap (fun e => [topoEntry s e 0, topoEntry s e 1]))
    omega
  · intro x h
    obtain ⟨y, -, k⟩ := List.mem_flatMap.mp (List.mem_of_mem_take h)
    rcases List.mem_cons.mp k with k | k
    · rw [k, e]
    · rw [List.mem_singleton.mp k, e]

theorem summary_length (s : State) (r : s.log.recs = []) : (summary s none).length ≤ 24000 := by
  have c (n : Nat) : (ctxEntry s n).length = 64 := by
    unfold ctxEntry
    split <;> exact entry_length s (by decide) _ _ _
  have hd : ∀ b : List Byte, (section_ s 0 64 [entry s 64 0 0 b]).length = 80 := fun b => by
    simp [section_, entry_length, leBytes_length]
  have e1 (f : List Byte) (n k : Nat) (hf : f.length = k) : (section_ s n k [f]).length = 16 + k := by simp [section_, hf, leBytes_length] <;> omega
  have q := section_length s 3 32 (queueEntry s) (fun x => entry_length s (by decide) _ _ _)
  have d := section_length s 4 64 (deadlinePlace s) (fun x => by
    unfold deadlinePlace
    cases s.dls.find? (fun e => e.2.place == x) <;> exact entry_length s (by decide) _ _ _)
  have m := section_length s 7 16 (marginEntry s) (fun x => entry_length s (by decide) _ _ _)
  have t := topo_length s
  have n := section_length s 6 256 (counterEntry s) (fun x => by unfold counterEntry; exact entry_length s (by decide) _ _ _)
  have x := section_length s 2 64 (ctxEntry s) c
  have f := section_length s 5 32 (faultEntry s) (fun x => entry_length s (by decide) _ _ _)
  have o := e1 (ownerEntry s) 1 64 (entry_length s (by decide) _ _ _)
  have v := e1 (versionEntry s) 9 128 (entry_length s (by decide) _ _ _)
  simp only [summary, sections, marginSection, List.length_append, hd, q, d, m, n, x, f, o, v, r, List.length_range, List.take_nil, List.filter_nil,
    List.length_nil, show Config.queueThreads = 64 from rfl, show Config.cores = 128 from rfl, show Config.dies = 2 from rfl]
  omega

theorem low_populated (s : State) {a : Nat} (h : a < 0x40000000) : populated s a = true := by
  have n : (nearDram a).isSome = true := by
    unfold nearDram
    rw [if_pos (by omega)]
    rfl
  simp [populated, n]

theorem witness_OwnershipAndService :
    ([(0x01, 8), (0x02, 0), (0x03, 16), (0x04, 8), (0x10, 1032), (0x11, 8), (0x12, 16), (0x13, 24), (0x14, 40), (0x18, 128), (0x19, 64),
      (0x20, 32), (0x21, 8), (0x22, 8), (0x28, 24), (0x29, 16), (0x30, 24), (0x31, 24), (0x32, 8), (0x38, 8), (0x39, 8), (0x3A, 0)] :
        List (Nat × Nat)).all (fun p => asked p.1 (List.replicate p.2 0)) = true ∧
    Turn (serving [asks 0x50 []]) (asks 0x50 []) ∧ (0x50 ∉ opcodes) ∧
    Turn (serving [{ asks 0x11 [] with good := false }]) { asks 0x11 [] with good := false } ∧
    Turn (serving [{ asks 0x02 [] with owner := false, chan := 5 }]) { asks 0x02 [] with owner := false, chan := 5 } ∧
    ownerNow (serving []) = some 0 ∧ ownerNow { serving [] with now := 1000 } = none ∧
    (let s := serving [asks 0x04 (leBytes 8 0x30000)]
     MemOk s ∧ (asks 0x04 (leBytes 8 0x30000)).fld 0 8 = 0x30000 ∧
       ∀ j, j < (summary s none).length → populated s (0x30000 + j) = true ∧ 0x30000 + j < 2 ^ 52) ∧
    chanFlats (serving []) 0 .write (2 ^ 45) 64 = none := by
  refine ⟨by decide +kernel, turn_of (by decide +kernel), by decide, turn_of (by decide +kernel), turn_of (by decide +kernel), by decide +kernel,
    by decide +kernel, ⟨memOk_mapped (at_ []), by decide +kernel, ?_⟩, by decide +kernel⟩
  intro j h
  have n : (summary (serving [asks 0x04 (leBytes 8 0x30000)]) none).length ≤ 24000 :=
    summary_length _ (by decide +kernel)
  exact ⟨low_populated _ (by omega), by omega⟩

/-- A claim by a channel with identity n, which arrived at a time. -/
def claims (chan n at_ : Nat) (held : Bool := false) : Request := { asks 0x01 (leBytes 8 n) with chan := chan, owner := false, at_ := at_, held := held }

/-- A part in which a claim is served at a time: an owner may hold a lease, and a handover to channel 2 with nonce 8 may run. -/
def claimed (r : Request) (owner : Option Nat) (hand : Option Nat) : State :=
  { serving [r] with
    now := 3000
    mg := { owner := owner, identity := 77, leaseEnd := if owner.isSome then 5000 else 0, reqs := [r], handover := hand.map (fun e => (2, 8, e)) } }

/-- Whether a claim is served; and whether it is valid, an owner holds a lease, and it arrived within a handover's second. -/
def claimCase (r : Request) (owner : Option Nat) (hand : Option Nat) : Bool × Bool × Bool × Bool :=
  let s := claimed r owner hand
  (servedB s r 0x01 8, s.up.masters.contains r.chan, r.held || (ownerNow s).isSome, s.mg.handover.any (fun h => r.at_ < h.2.2))

theorem witness_OwnershipAndService_claims :
    claimCase (claims 1 9 2000) none none = (true, true, false, false) ∧ claimCase (claims 1 9 2000 true) none none = (true, true, true, false) ∧
    claimCase (claims 0 9 2000) none none = (true, false, false, false) ∧ claimCase (claims 1 9 2000) (some 3) (some 1000) = (true, true, true, false) ∧
    claimCase (claims 2 8 2000) (some 3) (some 2500) = (true, true, true, true) ∧ claimCase (claims 2 9 2000) none (some 2500) = (true, true, false, true) ∧
    (let s := { claimed (claims 2 8 2000) (some 3) (some 2500) with now := 5000 }
     (s.mg.owner.isSome = true ∧ s.mg.leaseEnd ≤ s.now) ∧ (∃ r ∈ s.mg.reqs, r.op = 0x01 ∧ r.at_ < 2500)) ∧
    (∀ r ∈ (claimed (claims 2 8 2000) none (some 1000)).mg.reqs, ¬(r.op = 0x01 ∧ r.at_ < 1000)) := by
  decide +kernel

theorem witness_OwnershipAndService_busy :
    (let s := { serving [{ asks 0x32 (leBytes 8 3) with started := true, slot := 2 }, asks 0x32 (leBytes 8 3)] with
                  fl := [] }
     let r := asks 0x32 (leBytes 8 3)
     Machine.turn s = some r ∧ (∀ e ∈ s.ctxs, e.2.dying = false) ∧ codeUsed s 3 = true ∧ busy s r = true ∧ r.good = true ∧
       s.mg.reqs.map (fun x => (x.chan, x.slot, x.op, x.started)) = [(0, 2, 0x32, true), (0, 1, 0x32, false)]) := by
  decide +kernel

/-- A descriptor of a context that has no quadrant and no bank but two common banks. -/
def descrOf (n mode : Byte) (quads : Byte := 0) : List Byte :=
  [n, mode, 0, 0, 0, 0, 0, 0, 0, 0, 1, 0, 0, 0, 0, 0, 0, 0, 0, 0, 0, 0, 0, 0, 0, 0, 0, 0, 0, 0, 0, 0, 0, 0, 0, 0, 0, 0, 0, 0, 0, 0,
    0, 0, 0, 0, 0, 0, 0, 0, 0, 0, 0, 0, 0, 0, 0, 0, 0, 0, 0, 0, 0, 0, 0, 0, 0, 0, 1, 0, 1, 0, 0, 0, 0, 0, 0, 0, 0, 0, 0, 0, 0, 0, 0,
    0, 0, 0, 0, 0, 0, 0, 0, 0, 0, 0, 0, 0, 0, 0, 0, 0, 0, 0, 0, 0, 0, 0, 0, 0, 0, 0, 0, 0, 0, 0, 0, 0, 0, 0, 0, 0, 0, 0, 0, 0, 0, 0,
    quads] ++ List.replicate 903 0

/-- A part whose pages 1 and 2 are owned by context 5 and whose quadrant 3 spills. -/
def paged : State := { mapped (at_ []) with up := { State.reset.up with pages := [(1, 5), (2, 5)] }, quads := [(3, { spilling := some 0 })] }

/-- Whether the context of a descriptor may be created, and whether a quadrant of its half spills. -/
def created (b : List Byte) : Option (Bool × Bool) :=
  (descriptor (b.take 1024)).map (fun x => (mayCreate paged x.1 x.2.1 x.2.2.1 0 x.2.2.2, x.2.2.2.quads.any (fun q =>
    (paged.quad q).spilling.any (fun h => x.2.2.2.mode == 0 || h == halfOf x.2.2.2))))

theorem witness_ContextRequests_context :
    (descriptor ((descrOf 64 0).take 1024) = none ∧ asked 0x10 (descrOf 64 0) paged = true) ∧
    (created (descrOf 5 0) = some (true, false) ∧ asked 0x10 (descrOf 5 0) paged = true) ∧
    (created (descrOf 1 0) = some (false, false) ∧ asked 0x10 (descrOf 1 0) paged = true) ∧
    (created (descrOf 5 1 8) = some (true, true) ∧ asked 0x10 (descrOf 5 1 8) paged = true) ∧
    (paged.hasCtx 1 = true ∧ pageOwnerOf paged 0x10000 ≠ 1) ∧
    (asked 0x11 (leBytes 8 64) = true ∧ asked 0x11 (leBytes 8 2) = true ∧ paged.hasCtx 2 = false) ∧
    (let s := { mapped (at_ []) with ths := [], wgs := [] }
     asked 0x11 (leBytes 8 1) s = true ∧ resident s 1 = true ∧ TablesOrdered (serving [asks 0x11 (leBytes 8 1)] s) ∧ s.fl = []) ∧
    (let s := mapped (at_ [])
     asked 0x11 (leBytes 8 1) = true ∧ resident s 1 = true ∧ TablesOrdered (serving [asks 0x11 (leBytes 8 1)] s) ∧
       (s.th 0).pl.kind = .strand ∧ (s.th 0).pl.ctx = 1) ∧
    (let s := { mapped (at_ []) with wgs := [(2, { ctx := 1, launch := 4, code := 3, saved := true })] }
     asked 0x12 (leBytes 8 1 ++ leBytes 8 1) s = true ∧ resident s 1 = true ∧ ∀ e ∈ s.wgs, e.2.saved = true) ∧
    ((at_ []).wgs.any (fun e => e.2.ctx == 1 && !e.2.saved) && asked 0x12 (leBytes 8 1 ++ leBytes 8 1) &&
      asked 0x12 (leBytes 8 1 ++ leBytes 8 2)) = true := by
  and_intros <;> first | exact tablesOrdered_of (by decide +kernel) | decide +kernel

/-- A page owner request. -/
def pages (lo n c : Nat) : List Byte := leBytes 8 lo ++ leBytes 8 n ++ leBytes 8 c

/-- A key request of virtual function 1, bound to context 1, and its state. -/
def keyAsk (slot : Nat) (ide : Bool) : Request := { asks 0x14 (fit 40 (leBytes 8 slot)) with chan := 5, owner := false, ide := ide }
def keyState (r : Request) : State :=
  let s := at_ []
  serving [r] { s with ctxs := s.ctxs.map (fun (e : Nat × Context) => (e.1, { e.2 with conf := true }))
                       io := { s.io with funcs := [(1, { ctx := some 1, run := true })] } }

/-- A deadline request: a time and a reply address. -/
def dlAsk (us a : Nat) : List Byte := fit 128 (leBytes 8 0 ++ leBytes 8 us ++ leBytes 8 0 ++ leBytes 8 a ++ leBytes 1 4)

theorem witness_ContextRequests_rest :
    (asked 0x13 (pages 2 1 64) = true ∧ (asks 0x13 (pages 2 1 64)).fld 16 8 = 64 ∧ asked 0x13 (pages 2 (2 ^ 36) 1) = true ∧
      (asks 0x13 (pages 2 (2 ^ 36) 1)).fld 8 8 = 2 ^ 36 ∧ asked 0x13 (pages 786432 1 1) = true ∧ ownedPage 786432 = false) ∧
    (TablesOrdered (serving [asks 0x13 (pages 786431 1 255)]) ∧ asked 0x13 (pages 786431 1 255) = true ∧ ownedPage 786431 = true) ∧
    ([(15, true), (16, true), (15, false)].all (fun p => let r := keyAsk p.1 p.2
       servedB (keyState r) r 0x14 40 && r.vf (keyState r) == some 1 && r.fld 0 8 == p.1) = true) ∧
    (asked 0x18 (dlAsk 200000 (2 ^ 45)) = true ∧ chanFlats (serving []) 0 .write (2 ^ 45) 16 = none) ∧
    (asked 0x18 (dlAsk 199999 0x30000) = true ∧ deadlineStatus (asks 0x18 (dlAsk 199999 0x30000)) = 1 ∧
      (asks 0x18 (dlAsk 199999 0x30000)).fld 24 8 = 0x30000 ∧ MemOk (serving [asks 0x18 (dlAsk 199999 0x30000)])) ∧
    (asked 0x18 (dlAsk 200000 0x30000) = true ∧ deadlineStatus (asks 0x18 (dlAsk 200000 0x30000)) = 0 ∧
      (asks 0x18 (dlAsk 200000 0x30000)).fld 32 64 = 4) ∧
    (∀ j, j < 16 → populated (serving [asks 0x18 (dlAsk 200000 0x30000)]) (0x30000 + j) = true ∧ 0x30000 + j < 2 ^ 52) ∧
    asked 0x19 (fit 64 [4]) = true := by
  refine ⟨by decide +kernel, ⟨tablesOrdered_of (by decide +kernel), by decide +kernel, by decide +kernel⟩, by decide +kernel, by decide +kernel,
    ⟨by decide +kernel, by decide +kernel, by decide +kernel, memOk_mapped (at_ [])⟩, by decide +kernel,
    fun j h => ⟨low_populated _ (by omega), by omega⟩, by decide +kernel⟩

/-- A start of queue 7's program: priority, code object, status address. -/
def startAsk (q prio h st : Nat) : List Byte := leBytes 1 q ++ leBytes 1 1 ++ leBytes 1 prio ++ leBytes 1 0 ++ leBytes 4 h ++ leBytes 8 99 ++ leBytes 8 st ++ leBytes 8 0

/-- A part that accepts work. -/
def accepting : State := { mapped (at_ []) with up := { State.reset.up with accepting := true } }

/-- A part whose queue 7 has a thread, in a state of Table 20-5. -/
def running (st : Nat) (f : Strand → Strand := id) : State := mapped (onQueue (.nop (lf 0 0 0 0)) { state := st, ctx := some 1 } f)

/-- A part with an unanswered record of a stop of thread 0. -/
def logged (source : Nat) (f : Strand → Strand := id) : State :=
  { mapped (at_ [] f) with log := { recs := [{ seqNo := 12, ctx := 1, source := source, threads := [0] }] } }

/-- A part whose record names strand 0 of a saved workgroup. -/
def loggedSaved : State :=
  { mapped saved with log := { recs := [{ seqNo := 12, ctx := 1, source := 0, threads := [savedBase + 2 * 32] }] } }

/-- The stopped thread within its clause. -/
def stoppedAt (t : Strand) : Strand :=
  { t with ps := { t.ps with issuing := none }
           ct := { t.ct with stopped := true, fault := some { cls := .page, pc := 64 } } }

theorem witness_QueueAndLogRequests_queues :
    ([startAsk 64 0 3 0, startAsk 7 8 3 0, startAsk 7 0 9 0, startAsk 7 0 3 0x40000000, startAsk 7 0 3 0x100000].all (fun p => asked 0x20 p accepting) &&
      [(9, 0), (3, 0x40000000), (3, 64), (3, 0x100020)].map (fun p => mayStart accepting 7 1 p.1 p.2) == [false, false, true, false]) = true ∧
    ([startAsk 7 0 3 64].all (fun p => asked 0x20 p accepting) && queueIdle accepting 7) = true ∧
    (asked 0x21 (leBytes 8 64) && asked 0x21 (leBytes 8 7) && queueIdle (mapped (at_ [])) 7) = true ∧
    (let s := running 1
     TablesOrdered (serving [asks 0x21 (leBytes 8 7)] s) ∧ asked 0x21 (leBytes 8 7) s = true ∧ queueIdle s 7 = false ∧
       haltsHere (s.th (queueNo 7)) = false) ∧
    (let s := running 1 (fun t => { t with ps := { t.ps with issuing := none, s0 := { grp := some { pc := 64, mask := 1 } } } })
     TablesOrdered (serving [asks 0x21 (leBytes 8 7)] s) ∧ asked 0x21 (leBytes 8 7) s = true ∧ queueIdle s 7 = false ∧
       haltsHere (s.th (queueNo 7)) = true) ∧
    (let s := running 3 (fun t => { t with ct := { t.ct with stopped := true, fault := some { cls := .page, pc := 64 } } })
     let u := s.th (queueNo 7)
     asked 0x22 (leBytes 8 7) s = true ∧ asked 0x22 (leBytes 8 64) s = true ∧ asked 0x22 (leBytes 8 6) s = true ∧ (s.queue 6).state ≠ 3 ∧
       (s.queue 7).state = 3 ∧ u.pl.kind = .queue ∧ u.ct.pending = none ∧ (u.ct.fault.getD {}).source = 0 ∧
      (u.ct.fault.getD {}).cls = .page ∧ u.ps.s0.grp.isSome = u.ps.s0.clause.isSome ∧ u.ps.s1.grp.isSome = u.ps.s1.clause.isSome ∧
      u.ps.fork = []) := by
  refine ⟨by decide +kernel, by decide +kernel, by decide +kernel, ⟨tablesOrdered_of (by decide +kernel), by decide +kernel, by decide +kernel,
    by decide +kernel⟩, ⟨tablesOrdered_of (by decide +kernel), by decide +kernel, by decide +kernel, by decide +kernel⟩, by decide +kernel⟩

theorem witness_QueueAndLogRequests_log :
    (let p (n : Nat) := leBytes 8 0x1000 ++ leBytes 8 n ++ leBytes 8 2047
     asked 0x28 (p 16) = true ∧ asked 0x28 (p 17) = true ∧ 2 ^ Nat.log2 16 = 16 ∧ 2 ^ Nat.log2 17 ≠ 17) ∧
    (let p (n a : Nat) := leBytes 8 n ++ leBytes 8 a
     (asked 0x29 (p 11 2) (logged 0) && asked 0x29 (p 12 3) (logged 0) && asked 0x29 (p 12 1) (logged 2) && asked 0x29 (p 12 2) (logged 3) &&
       asked 0x29 (p 12 1) (logged 0 stoppedAt) && asked 0x29 (p 12 0) (logged 0 stoppedAt) &&
       asked 0x29 (p 12 0) loggedSaved && asked 0x29 (p 12 1) loggedSaved && (loggedSaved.wg 2).image.length == 1) = true ∧
     TablesOrdered (serving [asks 0x29 (p 12 2)] (logged 3)) ∧ resident (logged 3) 1 = true ∧
     ([(11, 0), (12, 0), (12, 2)].map (fun e => ((logged e.2).log.recs.find? (fun y => y.seqNo == e.1 && !y.resolved)).map (·.source)) =
       [none, some 0, some 2])) ∧
    (let s := logged 0 stoppedAt
     let u := s.th 0
     u.ct.pending = none ∧ u.ct.stopped = true ∧ masksOk u = true ∧ (u.ct.fault.getD {}).source = 0 ∧ (u.ct.fault.getD {}).cls = .page ∧
       u.ps.s0.grp.isSome = u.ps.s0.clause.isSome ∧ u.ps.s1.grp.isSome = u.ps.s1.clause.isSome ∧ u.ps.fork = []) := by
  refine ⟨by decide +kernel, ⟨by decide +kernel, tablesOrdered_of (by decide +kernel), by decide +kernel, by decide +kernel⟩, by decide +kernel⟩

/-- The nonzero bytes of an object of one clause without instructions, at address 0x30000: a header by Table 4-1 and the clause. -/
def object (depth : Byte) : List Host.Cell :=
  [(0, 0x0B), (1, 0x0C), (2, 0x4E), (3, 0x5A), (4, 1), (6, 2), (8, 1), (9, 8), (10, 8), (14, depth), (0x14, 40), (0x1C, 4), (0x21, 0x10),
    (0x28, 96), (0x2C, 16), (96, 3)].map (fun e => (0x30000 + e.1, e.2))

/-- A part whose memory holds the object, with code object 6 that nothing uses. -/
def loaded (depth : Byte := 4) : State :=
  let s := mapped (at_ [])
  { s with mem := tables ++ object depth, codes := s.codes ++ [(6, { ctx := 1 })] }

/-- A request that names a context or code object and the object in memory. -/
def objAsk (op n : Nat) (a : Nat := 0x30000) : Request := asks op (leBytes 8 n ++ leBytes 8 a ++ leBytes 8 112)

theorem window_of {s : State} {c : Nat} (h : ∀ b, baseFree s c b = true) (k i : Nat) :
    findWindow s c (k + 1) i = some (i % 2 ^ 22 * 2 ^ 26) := by
  simp only [findWindow, h, if_true]

theorem low_flats (s : State) (acc : Acc) (n : Nat) : ∀ a, a + n ≤ 0x40000000 → (chanFlats s 0 acc a n).isSome = true := by
  induction n with
  | zero => exact fun _ _ => rfl
  | succ n ih =>
    intro a h
    have p := low_populated s (show a < 0x40000000 by omega)
    have q : a < 2 ^ 52 := by omega
    simp only [chanFlats, show (0 : Nat) < 4 by decide, p, q, decide_true, Bool.and_self, if_true, Option.bind_some, Option.isSome_map]
    exact ih (a + 1) (by omega)

theorem record_read {s : State} {a : Nat} (h : (chanRead s 0 a 96).any (fun b => (recordVersion b).2.2 == 0) = true) (k : a + 2596 ≤ 0x40000000) :
    (readRecord s 0 a).isSome = true := by
  obtain ⟨b, e, z⟩ := (Option.any_eq_true _ _).mp h
  have z : (recordVersion b).2.2 = 0 := by simpa using z
  simp only [readRecord, e, Option.bind_some, z]
  simp [chanRead, low_flats s .read 2596 a k]

theorem witness_CodeRequests_load :
    (objF [0x0B, 0x0C, 0x4E, 0x5B] 0 4 ≠ 0x5A4E0C0B) ∧ (nativeOf (memGets loaded.mem (rangeFrom 0x30000 (0x30000 + 112)))).isSome = true ∧
    (MemOk (serving [objAsk 0x30 9] loaded) ∧ servedB (serving [objAsk 0x30 64] loaded) (objAsk 0x30 64) 0x30 24 = true ∧
      servedB (serving [objAsk 0x30 9 0x40000] loaded) (objAsk 0x30 9 0x40000) 0x30 24 = true ∧
      readObject loaded (objAsk 0x30 9 0x40000) 0x40000 112 = none) ∧
    (let s := serving [objAsk 0x30 9] loaded
     servedB s (objAsk 0x30 9) 0x30 24 = true ∧ (s.ctx 9).ended = false ∧
       ((readObject s (objAsk 0x30 9) 0x30000 112).any (fun x => objF x.1 6 1 == 2 && x.1.length == 112)) = true ∧
       ∃ base, findWindow s 9 (2 ^ 22) (Config.freeNat s.run.fresh) = some base) ∧
    ([(4, true), (5, false)].all (fun p => let s := serving [objAsk 0x31 3] (loaded p.1)
       let o := kgetD s.codes 3 {}
       servedB s (objAsk 0x31 3) 0x31 24 && kordered o.trans && (readObject s (objAsk 0x31 3) 0x30000 112).any (fun x =>
         let kept := o.trans.filter (fun e => e.1 == o.cur || (usersOf s 3).any (fun u => u ≤ e.1))
         let new := transAtOff x.1 x.2 (roundUp (windowEnd { o with trans := kept }) 65536)
         swapOk (kgetD kept o.cur {}) new == p.2 && new.off + new.len ≤ 2 ^ 26)) = true) ∧
    servedB (serving [objAsk 0x31 5] loaded) (objAsk 0x31 5) 0x31 24 = true ∧ kget? loaded.codes 5 = none := by
  refine ⟨by decide, by decide +kernel, ⟨?_, by decide +kernel, by decide +kernel, by decide +kernel⟩, ⟨by decide +kernel, by decide +kernel, by decide +kernel,
    ⟨_, window_of (fun b => ?_) 4194303 _⟩⟩, by decide +kernel, by decide +kernel, by decide +kernel⟩
  · show Memory.wf (tables ++ object 4) = true
    decide +kernel
  · rfl

theorem witness_CodeRequests_rest :
    (asked 0x32 (leBytes 8 5) loaded = true ∧ kget? loaded.codes 5 = none ∧ asked 0x32 (leBytes 8 3) loaded = true ∧ codeUsed loaded 3 = true ∧
      asked 0x32 (leBytes 8 6) loaded = true ∧ (kget? loaded.codes 6).isSome = true ∧ codeUsed loaded 6 = false) ∧
    TablesOrdered (serving [asks 0x32 (leBytes 8 3)] loaded) ∧ TablesOrdered (serving [asks 0x32 (leBytes 8 5)] loaded) ∧
    TablesOrdered (serving [asks 0x32 (leBytes 8 6)] loaded) ∧
    (let r : Request := { asks 0x32 (leBytes 8 6) with started := true }
     TablesOrdered (serving [r] loaded) ∧
       (serving [r] loaded).mg.reqs.find? (fun x => x.started && x.op == 0x32 && !codeUsed (serving [r] loaded) (x.fld 0 8)) = some r) ∧
    (asked 0x38 (leBytes 8 (2 ^ 45)) = true ∧ readRecord (serving []) 0 (2 ^ 45) = none) ∧
    (asked 0x38 (leBytes 8 0x40000) = true ∧ (readRecord (serving [asks 0x38 (leBytes 8 0x40000)]) 0 0x40000).isSome = true ∧
      asked 0x39 (leBytes 8 0x40000) = true ∧ ((serving []).signed 0).sec = 0) := by
  refine ⟨by decide +kernel, tablesOrdered_of (by decide +kernel), tablesOrdered_of (by decide +kernel), tablesOrdered_of (by decide +kernel),
    ⟨tablesOrdered_of (by decide +kernel), by decide +kernel⟩, by decide +kernel,
    by decide +kernel, record_read (by decide +kernel) (by decide), by decide +kernel, by decide +kernel⟩

/-- The digest of no bytes, as the SHA-3 standard's example values give it. -/
theorem test_digest : shake256 32 [] =
    [0x46, 0xB9, 0xDD, 0x2B, 0x0B, 0xA8, 0x8D, 0x13, 0x23, 0x3B, 0x3F, 0xEB, 0x74, 0x3E, 0xEB, 0x24, 0x3F, 0xCD, 0x52, 0xEA, 0x62, 0xB8, 0x1B, 0x82,
      0xB5, 0x0C, 0x27, 0x64, 0x6E, 0xD5, 0x76, 0x2F] := by decide +kernel

/-- A firmware record without a body: kind 0, security version 3 and the digest of no bytes. -/
def signedRecord : List Byte := List.replicate 16 0 ++ leBytes 8 3 ++ leBytes 8 0 ++ shake256 32 [] ++ List.replicate 2532 0

/-- Whether the record is authentic rests on what the spec leaves open alone: its magic number, its key and its signature. As a configuration
record it is not. -/
theorem witness_CodeRequests_authentic :
    authentic [0] signedRecord = (objF signedRecord 0 4 == Config.recordMagic && Config.recordKey 0 (objF signedRecord 64 8) && Config.signatureOk signedRecord) ∧
    authentic [1, 2, 3] signedRecord = false ∧ objF signedRecord 16 8 = 3 := by
  have k : recordKind signedRecord = 0 := by decide +kernel
  have d : (shake256 32 ((signedRecord.drop 96).take (recordVersion signedRecord).2.2) == (signedRecord.drop 32).take 32) = true := by decide +kernel
  refine ⟨?_, ?_, by decide +kernel⟩ <;> simp [authentic, k, d]

/-! #### The host, reset and links -/

/-- A part whose owner is the host's physical function, with function 1 bound to context 1 and running, and IDE on function 2. -/
def hosted (conf : Bool := false) : State :=
  let s := mapped (at_ [])
  { s with mg := { owner := some 1, leaseEnd := 1000 }
           ctxs := s.ctxs.map (fun (e : Nat × Context) => (e.1, { e.2 with conf := conf }))
           io := { s.io with funcs := [(1, { ctx := some 1, run := true }), (2, { ide := true })] } }

/-- A host access of 8 bytes. -/
def bar (fn n off : Nat) (write : Bool) : BarAccess := { fn := fn, bar := n, off := off, size := 8, write := write, value := 0x1122334455667788, ide := false }

theorem witness_HostAndReset :
    ((kgetD hosted.io.funcs 2 {}).ide = true ∧ (bar 2 0 0 false).ide = false ∧ (kgetD hosted.io.funcs 1 {}).ide = false ∧
      inService hosted (barChan 1) 15 = false ∧ (bar 1 0 65528 true).off + 8 ≤ 65536) ∧
    (barFlats hosted (bar 0 2 (2 ^ 38 - 7) true) = none ∧ barFlats hosted (bar 1 2 0x40000000 false) = none ∧
      ((barFlats hosted (bar 0 2 0x30000 true)).any (fun l => l.headD 0 == 0x30000 && decide l.Nodup)) = true ∧
      (barFlats hosted (bar 1 2 0x30000 true)).any (fun l => decide l.Nodup) = true ∧ (barFlats hosted (bar 1 2 0x30000 false)).isSome = true ∧
      MemOk hosted) ∧
    ownerNow (serving []) ≠ some 1 ∧
    ((kgetD hosted.io.funcs 2 {}).ctx = none ∧ (kgetD hosted.io.funcs 1 {}).ctx = some 1 ∧ resident hosted 1 = true ∧
      TablesOrdered hosted ∧ (hosted.th 0).pl.kind = .strand ∧ (hosted.th 0).pl.ctx = 1) ∧
    (let s := { hosted with ths := [], wgs := [] }
     resident s 1 = true ∧ TablesOrdered s ∧ s.fl = []) ∧
    ((kgetD hosted.io.funcs 2 {}).run = false ∧ (kgetD hosted.io.funcs 1 {}).run = true ∧ (hosted.ctx 1).conf = false ∧
      ((hosted true).ctx 1).conf = true ∧ resident (hosted true) 1 = true ∧ TablesOrdered (hosted true)) := by
  refine ⟨by decide +kernel, ⟨by decide +kernel, by decide +kernel, by decide +kernel, by decide +kernel, by decide +kernel, memOk_mapped (at_ [])⟩,
    by decide +kernel, ⟨by decide +kernel, by decide +kernel, by decide +kernel, tablesOrdered_of (by decide +kernel), by decide +kernel,
    by decide +kernel⟩, ⟨by decide +kernel, tablesOrdered_of (by decide +kernel), by decide +kernel⟩, by decide +kernel, by decide +kernel,
    by decide +kernel, by decide +kernel, by decide +kernel, tablesOrdered_of (by decide +kernel)⟩

/-- A message of a class on link 0, and a part whose link 0 is in a state, with the directory state of the line of its address. -/
def msg (cls op : Nat) (addr : Nat := 0x30040) (operand : Nat := 0) (data : List Byte := []) : NgMsg :=
  { link := 0, cls := cls, op := op, addr := addr, tag := 7, more := data.length / 16, ctx := 1, scope := 1, src := 0, operand := operand, data := data }
def linked (l : DieLink) (dir : Nat := 0) : State :=
  let s := mapped (at_ [])
  { s with io := { s.io with dies := [(0, l), (1, {}), (2, {})], outbox := [] }, ch := { s.ch with dir := [(0x30040 / 128, dir)] } }

/-- Whether a message arrives. -/
def arrivesB (s : State) (m : NgMsg) (cls : Nat) : Bool :=
  m.cls == cls && msgFits m && msgKnown m && (kget? s.io.dies m.link).any (fun l => !l.disabled)

theorem arrives_of {s : State} {m : NgMsg} {cls : Nat} (h : arrivesB s m cls = true) : Arrives s m cls := by
  simp only [arrivesB, Bool.and_eq_true, beq_iff_eq, Option.any_eq_true, Bool.not_eq_true'] at h
  exact ⟨h.1.1.1, h.1.1.2, h.1.2, h.2⟩

/-- The snoop of a line on link 2, and a part in which it waits for its answer while requests and accesses wait. -/
def snp : NgMsg := { msg 1 0 0x30000 with link := 2 }
def snooping (pend : List NgMsg) (waits : List OutAccess) : State :=
  { hosted with io := { hosted.io with dies := [(0, {}), (1, {}), (2, { pend := snp :: pend })], waits := waits, outbox := [] }
                ch := { hosted.ch with dir := [(0x30040 / 128, 2)] } }

/-- An access of a peer to export 6, and a part that exports near DRAM, or the exact bank of the context's common window. -/
def peer (kind op off size : Nat) : LinkAccess := { exp := 6, off := off, kind := kind, size := size, op := op, value := 5, cmp := 0 }
def exporting (common w : Bool) : State :=
  let s := mapped (at_ [])
  { s with io := { s.io with exports := [(6, { ctx := 1, common := common, base := if common then 2 ^ 31 else 0x30000, len := 4096, r := true, w := w, atomic := true })] } }

/-- What an access of a peer reaches: whether its first address keeps its size, whether its cells are exact, and whether it is an
operation. -/
def reaches (common : Bool) (a : LinkAccess) : Option (Bool × Bool × Bool) :=
  let s := exporting common true
  ((kget? s.io.exports 6).bind (fun e => exportFlats s e a)).map (fun x => (decide x.1.Nodup && x.1.headD 0 % a.size == 0, x.2, (linkOp a x.2).isSome))

/-- A part whose directory names a line. -/
def shared (s : State) (line : Nat) : State := { s with ch := { s.ch with dir := [(line, 1)] } }

theorem copiesOf_clear {s : State} (h : s.ch.dir = []) (l : List Nat) : copiesOf s l = [] := by
  unfold copiesOf dirOf
  rw [h]
  exact List.filter_eq_nil_iff.mpr (fun _ _ => by simp [kgetD, kget?])

theorem witness_copies :
    (let x : SectorW := { pa := 0x40000020, mask := 0xFF00, data := 0x1200, leaf := [0x20000] }
     let s := mapped (flying (.commit [x] 0) [1])
     s.ch.dir = [] ∧ copiesOf (shared s (0x40000020 / 128)) [x.pa] ≠ [] ∧
       (∃ f, (shared s (0x40000020 / 128)).flight? 5 = some f ∧ canApply (shared s (0x40000020 / 128)) f 0 x = true)) ∧
    (let l : AtomLane := { lane := 0, pa := 0x40000000, cells := [300], v := 7, leaf := [0x20000] }
     let s := mapped (flying (.atom 0 4 4 2 [l]) [6] [300])
     s.ch.dir = [] ∧ ∃ f, (shared s (0x40000000 / 128)).flight? 5 = some f ∧ copiesOf (shared s (0x40000000 / 128)) (readsOf f) ≠ [] ∧
       commitPending (shared s (0x40000000 / 128)) f (readsOf f) = false) ∧
    (finished.ch.dir = [] ∧ copiesOf (shared finished (0x40001000 / 128)) [0x40001000] ≠ [] ∧
      (deviceLoc (shared finished (0x40001000 / 128)) 1 0x1000 .write).1.toOption = some 0x40001000) ∧
    ((copying none).ch.dir = [] ∧ copiesOf (shared (copying none) 8) [0x400, 0x401] ≠ []) ∧
    (hosted.ch.dir = [] ∧ (barFlats (shared hosted (0x30000 / 128)) (bar 0 2 0x30000 true)).any (fun l => !(copiesOf (shared hosted (0x30000 / 128)) l).isEmpty) = true) ∧
    ((exporting false true).ch.dir = [] ∧ ((kget? (shared (exporting false true) (0x40030000 / 128)).io.exports 6).bind (fun e =>
      exportFlats (shared (exporting false true) (0x40030000 / 128)) e (peer 1 0 0 8))).any (fun x =>
        !(copiesOf (shared (exporting false true) (0x40030000 / 128)) x.1).isEmpty) = true) := by
  refine ⟨⟨by decide +kernel, by decide +kernel, _, rfl, by decide +kernel⟩, ⟨by decide +kernel, _, rfl, by decide +kernel⟩, ?_⟩
  decide +kernel

theorem copies_there {s : State} {a n : Nat} (h : 0 < n) (d : dirOf s (128 * (a / 128)) ≠ 0) : copiesOf s (rangeFrom a (a + n)) ≠ [] := by
  apply List.ne_nil_of_mem (a := a / 128)
  simp only [copiesOf, List.mem_filter, List.mem_eraseDups, List.mem_map, bne_iff_ne, ne_eq, d, not_false_eq_true, and_true]
  refine ⟨a, ?_, rfl⟩
  simp only [rangeFrom, List.mem_map, List.mem_range]
  exact ⟨0, by omega, by omega⟩

theorem witness_copies_replies :
    (let s := shared answered (0x30000 / 128)
     let d := kgetD s.dls 9 {}
     copiesOf s (rangeFrom d.reply (d.reply + (replyBytes d s.now).length)) ≠ []) ∧
    (let r := asks 0x18 (dlAsk 199999 0x30000)
     copiesOf (shared (serving [r]) (0x30000 / 128)) (rangeFrom 0x30000 (0x30000 + 16)) ≠ [] ∧ r.fld 24 8 = 0x30000) ∧
    (let s := serving [asks 0x04 (leBytes 8 0x30000)]
     copiesOf (shared s (0x30000 / 128)) (rangeFrom 0x30000 (0x30000 + (summary s none).length)) ≠ []) ∧
    (let s := { hosted with up := { hosted.up with vfs := [1] } }
     2 ∉ s.up.vfs ∧ 1 ∈ s.up.vfs ∧ s.io.waits = [] ∧ (∀ k ∈ [0, 1, 2, 3], (s.signed k).staged = none)) := by
  refine ⟨by decide +kernel, ⟨copies_there (by omega) (by decide +kernel), by decide +kernel⟩, copies_there ?_ (by decide +kernel), by decide +kernel⟩
  simp only [summary, section_, List.length_append, leBytes_length]
  omega

theorem witness_LinksAndPeers_discovery :
    (((linked { end0 := { verified := true } }).io.dies.map (fun e => (e.2.end0.verified, e.2.end1.verified, e.2.disabled))) =
      [(true, false, false), (false, false, false), (false, false, false)]) ∧
    (linked {}).now < 240000000 ∧ ((linked {}).io.dies.map (fun e => e.2.end0.asked)) = [0, 0, 0] := by
  decide +kernel

/-- A die record whose fields keep Table 21-6. -/
def dieRecord : List Byte := leBytes 4 0x5A444945 ++ [1, 2, 3] ++ List.replicate 2557 0

/-- Whether it verifies rests on its nonce, its key and its signature alone. -/
theorem witness_LinksAndPeers_record (s : State) (n : Nat) : recordOk s dieRecord n =
    (objF dieRecord 56 8 == Config.freeNat n % 2 ^ 64 && Config.dieKey (s.signed 1).bytes (s.signed 3).bytes (objF dieRecord 48 8) &&
      Config.signatureOk dieRecord) := by
  have h : (dieRecord.length == 2564 && objF dieRecord 0 4 == 0x5A444945 && decide (objF dieRecord 4 1 ≤ 2) && decide (objF dieRecord 5 1 ≤ 127) &&
    decide (1 ≤ objF dieRecord 6 1) && decide (objF dieRecord 6 1 ≤ 16)) = true := by decide +kernel
  simp only [recordOk, h, Bool.true_and]

theorem witness_LinksAndPeers_messages :
    ([(0, 0), (0, 1), (0, 2), (0, 3), (0, 16), (1, 0), (2, 0), (3, 0), (5, 0)].all (fun p => arrivesB (linked {}) (msg p.1 p.2) p.1)) = true ∧
    arrivesB (linked {}) (msg 4 0 0) 4 = true ∧ MemOk (linked {}) ∧ Writes (msg 0 2) ∧ Writes (msg 0 16) ∧
    (populated (linked {}) 0x30040 = true ∧ populated (linked {}) (2 ^ 45) = false ∧ 0x30040 % atomZ 0 = 0 ∧ 0x30041 % atomZ 0 ≠ 0) ∧
    (kgetD (linked {}).ch.dir (0x30040 / 128) 0 = 0 ∧ kgetD (linked {} 2).ch.dir (0x30040 / 128) 0 = 2) ∧
    (∃ x ∈ (kgetD (linked { pend := [msg 0 2] }).io.dies 0 {}).pend, x.cls = 0 ∧ x.addr / 128 = (msg 0 16).addr / 128) ∧
    (∃ x ∈ (kgetD (snooping [] []).io.dies 2 {}).pend, x.cls = 1 ∧ x.addr / 128 = (msg 0 16).addr / 128) ∧
    (∀ p ∈ [(0, 0), (0, 3), (0, 16)], ¬Behind (linked {}) (msg p.1 p.2)) ∧ Machine.waiting (linked {}) (msg 2 0) = none ∧
    (let m : NgMsg := { msg 4 0 0 65520 (List.replicate 16 1) with link := 16 }
     msgFits m = true ∧ msgKnown m = true ∧ m.operand + m.data.length ≤ 65536) ∧
    (msgKnown (msg 0 4) = false ∧ msgKnown (msg 6 0) = false ∧ msgKnown { msg 0 16 with scope := 0 } = false ∧
      (linked { badTimes := List.replicate 15 0 }).now = 0) ∧
    (let s := { linked { credits := [0, 0, 0, 0, 0, 0] } with io := { (linked { credits := [0, 0, 0, 0, 0, 0] }).io with outbox := [msg 2 0] } }
     s.io.outbox = [msg 2 0] ∧ (kget? s.io.dies 0).any (fun l => 0 < (l.credits.zipIdx.map (fun e => e.1 + ([0, 0, 1] : List Nat).getD e.2 0)).getD 2 0)) := by
  and_intros <;> first | decide +kernel | exact memOk_mapped (at_ []) | exact .inl rfl | exact .inr (by decide) | skip
  · simp only [Behind]
    decide +kernel

/-- The answers to the snoop, and what may wait for it: nothing, a write or an atomic of the other die, or a write of the host. -/
theorem witness_LinksAndPeers_snoops :
    ([2, 5].all (fun cls => let m : NgMsg := { msg cls 0 0 with link := 2 }
       arrivesB (snooping [] []) m cls && Machine.waiting (snooping [] []) m == some snp) = true) ∧
    (let m : NgMsg := { msg 3 0 0 0 (List.replicate 128 1) with link := 2 }
     arrivesB (snooping [] []) m 3 = true ∧ Machine.waiting (snooping [] []) m = some snp ∧ 128 ≤ m.data.length) ∧
    MemOk (snooping [] []) ∧ (waitingReqs (snooping [] []) = [] ∧ (snooping [] []).io.waits = []) ∧
    (∀ op ∈ [2, 16], let y : NgMsg := { msg 0 op with link := 2 }
     let s := snooping [y] []
     waitingReqs s = [y] ∧ s.io.waits = [] ∧ s.io.parked = [] ∧ kordered s.io.dies = true ∧ y.addr / 128 = snp.addr / 128 ∧ (op = 2 ∨ 16 ≤ op ∧ op < 32) ∧
       (∀ z ∈ (kgetD s.io.dies 2 {}).pend, z.cls = 1 → z.addr / 128 = snp.addr / 128 → z.tag = 7) ∧ populated s y.addr = true ∧ y.addr % atomZ 0 = 0) ∧
    (let a := bar 0 2 0x30040 true
     let s := snooping [] [.host a]
     waitingReqs s = [] ∧ s.io.parked = [] ∧ (kgetD s.io.funcs 0 {}).ide = false ∧ snp.addr / 128 = 0x30040 / 128 ∧
       (barFlats s a).any (fun as => copiesOf s as == [0x30040 / 128] && decide as.Nodup) = true) ∧
    (∃ b, OutAccess.link b ∈ (snooping [] [.link (peer 0 0 0 8)]).io.waits) ∧ (∃ b, OutAccess.host b ∈ (snooping [] [.host (bar 0 2 0x30040 true)]).io.waits) := by
  refine ⟨by decide +kernel, by decide +kernel, memOk_mapped (at_ []), by decide +kernel, by decide +kernel, by decide +kernel, ⟨_, List.mem_cons_self⟩, ⟨_, List.mem_cons_self⟩⟩

theorem witness_LinksAndPeers_peers :
    ((exporting false false).io.exports.any (fun e => e.1 == 6 && !e.2.w) && ((exporting false true).io.exports.all (fun e => e.2.len < 4088 + 16))) = true ∧
    kget? (linked {}).io.exports 6 = none ∧ (exporting false true).io.waits = [] ∧
    ([peer 0 0 0 8, peer 1 0 0 8, peer 2 0 0 4, peer 2 0 2 4, peer 2 40 0 4].map (reaches false) =
      [some (true, false, false), some (true, false, false), some (true, false, true), some (false, false, true), some (true, false, false)]) ∧
    ([peer 1 0 0 8, peer 2 0 0 4, peer 3 0 0 32, peer 3 0 8 32].map (reaches true) =
      [some (true, true, false), some (true, true, false), some (true, true, true), some (false, true, true)]) ∧
    MemOk (exporting false true) := by
  and_intros <;> first | decide +kernel | exact memOk_mapped (at_ [])

/-! #### The whole machine -/

/-- The usual state of an addition, which its agenda issues next. -/
def toIssue : State :=
  let s := usual (.add (lf 1 2 3 1))
  { s with run := { s.run with agenda := [(2, .issue 0)] } }

theorem threads_of {s : State} (h : (s.ths.all (fun e => shapedB e.2) && s.wgs.all (fun e => e.2.image.all shapedB)) = true) : ThreadsShaped s := by
  simp only [Bool.and_eq_true, List.all_eq_true] at h
  exact ⟨fun e k => shaped_of (h.1 e k), fun e k t l => shaped_of (h.2 e k t l)⟩

theorem witness_invariants :
    MemOk toIssue ∧ TablesOrdered toIssue ∧ SlotsDistinct toIssue ∧ FreshIds toIssue ∧ ThreadsShaped toIssue ∧
    (match step toIssue with | .next t => t.now == 2 | _ => false) = true :=
  ⟨rfl, tablesOrdered_of (by decide +kernel), List.Pairwise.nil, ⟨fun _ h => (List.not_mem_nil h).elim, fun _ h => (List.not_mem_nil h).elim⟩, threads_of (by decide +kernel),
    by decide +kernel⟩

theorem witness_StepAnswersNext :
    (let s := { toIssue with run := { toIssue.run with agenda := [(0, .event (.add (lf 1 2 3 1)))] } }
     (match step s with | .fault .noIssuer => true | _ => false) = false) ∧ (Instr.add (lf 1 2 3 1)).parts ≠ .event := by
  decide +kernel

theorem witness_StepRunsTheDecodedInstruction :
    (let s := toIssue
     let u := refresh { s with now := s.now + 2, run := { s.run with agenda := [], cur := some 0 } } 0
     s.run.agenda = [(2, .issue 0)] ∧ issuer u = some (0, 0) ∧ ((u.th 0).grp 0).st = .runnable ∧
       ((u.th 0).slot 0).clause.any (fun c => (decode (u.th 0).codeKind (c.body.drop c.pos)).any (fun x =>
         x.1 == .add (lf 1 2 3 1) && x.2 == [0x40, 0x40])) = true) ∧
    (let i : Instr := .nop (lf 0 0 0 0)
     let s := accessing i
     (s.th 0).access.any (fun a => !a.ended && !a.faulted && a.clause.any (fun c => (decode .access (c.body.drop c.pos)).isSome)) = true ∧
       (s.th 0).ps.halted = false) := by
  decide +kernel

theorem witness_DecodeAndEncodeAgree :
    (Instr.add (lf 1 2 3 1)).wf = true ∧ (Instr.add (lf 1 2 3 1)).wfIn .exec = true ∧ (Instr.add (lf 1 2 3 1)).parts ≠ .event ∧
    (decode .exec [0x60200821, 0x00000040, 7]).any (fun x => x.2 == [7]) = true := by
  decide +kernel

/-! ### Ill-formed instructions -/

/-- A form under a guard. -/
def lg (gk : BitVec 3) (gneg : Bool) (x : LForm) : LForm := { x with gk := gk, gneg := gneg }

/-- Whether no instruction of a list is well formed. -/
def refused (l : List Instr) : Bool := l.all (fun i => !i.wf)

theorem test_ill_formed_fields : refused
    [-- a destination that is no register, a missing literal, a literal that no source names, T on a result of 64 bits, RU
     .add (lf 480 1 2 0), .add (lf 1 504 2 0), .add (lf 1 2 3 0 0 (some 5)), .add { lf 2 4 6 0 20 with tr := true }, .add { lf 1 2 3 0 with ru := true },
     -- an inverted k0, a lane source for a scalar, a guard on a scalar destination, an odd register as a pair, a specifier above 504
     .add (lg 0 true (lf 1 2 3 0)), .add (lf 404 1 481 0), .add (lg 1 false (lf 404 405 481 0)), .add (lf 1 4 6 0 20), .mov (lf 1 505 0 0 4),
     .unMov { st := 0, d := 480, a := 1 }, .ldi { st := 0, d := 480, imm := 0 }, .brs { st := 0, k := 0, neg := true, off := 1 }] = true := by
  decide +kernel

theorem test_ill_formed_compute : refused
    [.add (lf 1 2 3 2), .abs (lf 1 2 3 0), .shl (lf 1 2 3 0 0), .tbl3 (lf 1 2 3 256 4), .mul (lf 1 2 3 0 1),
     .lea (lf 2 4 1 8 1), .leaCode (lf 2 4 0 0 16), .apgen (lf 4 6 0 0 17), .apclass (lf 404 5 0 0),
     .fadd (lf 1 2 3 0 0), .fadd (lf 404 405 406 0 12), .fmin (lf 1 2 3 0 9), .fma (lf 1 2 503 3 12), .fdot2 (lf 1 2 3 4 8),
     .fsin (lf 404 405 0 0 8), .fsin (lf 1 2 0 0 12), .fcvt (lf 1 2 3 2 12), .f2i (lf 1 2 0 0 8), .i2f (lf 1 2 0 2 0), .unpack2 (lf 1 2 0 2 0),
     .nadd (lf 1 480 2 0 28), .nadd (lf 1 2 3 5 28), .nfma (lf 1 2 3 4 0), .ncvt (lf 1 2 0 4 28),
     .icmp (lf 0 1 2 0 0), .icmp (lf 3 1 2 6 0), .icmpu (lf 3 1 2 0 0), .kand (lf 1 8 0 0), .kmov (lf 1 2 0 4), .kpop (lf 1 8 0 0)] = true := by
  decide +kernel

theorem test_ill_formed_lanes_and_settings : refused
    [.redux (lf 1 2 0 0 11), .compress (lf 1 2 3 0 1), .isect (lf 319 1 2 404 1), .isect (lf 1 2 3 403 1), .isect (lf 1 2 3 404 0),
     .part (lg 1 false (lf 0 482 0 0)), .rdlane (lf 1 2 480 0), .vote (lf 1 2 0 0 25), .qswap (lf 1 2 480 0), .qbcast (lf 1 2 484 0), .qred (lf 1 2 0 0 11),
     .nfset (lf 0 1 0 0), .nfget (lf 1 0 0 0 4), .cbld (lf 0 441 0 0), .cbrd (lf 384 0 64 0), .lqset (lf 448 480 0 0), .lqclr (lf 464 0 0 0),
     .frame (lf 1 481 0 0), .growTry (lf 0 481 0 0 16), .growRing (lf 1 481 0 0 8), .flush (lf 0 1 0 0)] = true := by
  decide +kernel

theorem test_ill_formed_memory : refused
    [.ld (lf 1 3 480 0 16), .ld (lf 1 2 480 (6 * 64) 17), .ld (lf 1 2 480 64 16), .ld (lf 1 2 480 (64 * 4) 25), .st (lf 1 2 480 0 4), .st (lf 1 2 480 64 18),
     .lde (lf 1 2 480 64), .ste (lf 1 2 480 0 4), .cst (lf 1 2 480 0 16), .cst (lf 1 404 2 0 16), .prefetch (lf 0 2 480 0 16),
     .atom (lf 1 2 3 0 0), .atom (lf 1 2 3 64 1), .atom (lf 1 2 4 64 2), .red (lf 0 2 3 64 18), .red (lf 0 2 3 (64 + 16) 0),
     .fence (lf 0 0 0 0 0), .wait (lf 0 480 8 0), .bar (lf 0 488 480 0), .barWait (lf 0 480 1 0),
     .cmAdd (lf 0 2 3 0 4), .cmMax (lf 0 2 3 64 0), .cmAxpy (lf 1 404 406 480 0), .cmFill (lf 2 404 0 480 0), .cmSum (lf 0 404 406 480 4)] = true := by
  decide +kernel

theorem test_ill_formed_engines : refused
    [.cpy (lf 1 404 406 480 4), .cpy (lf 479 404 406 480 0), .dcpy (lf 479 404 406 409 4), .abset (lf 0 384 480 0), .abtest (lf 0 384 480 0),
     .cpyt (pf (lf 479 404 406 0 4) 0x00100000 0 64 0), .cpyt (pf (lf 479 404 406 0 4) 0x00100040 0 63 0), .cpyt (pf (lf 479 404 406 0 4) 0xFE000001 0 64 0),
     .hset (lf 384 480 1 0), .hget (lf 447 480 0 0), .fget (pf (lf 318 384 0 0 1) 3 0 0 0), .fget (pf (lf 1 384 0 0 0) 0 0 0 0),
     .spOpen (pf (lf 0 404 384 406 0) 0 0 0 0), .spOpen (pf (lf 0 404 384 406 0) (2 ^ 22 + 6 * 2 ^ 13) 0 0 0), .spSeed (lf 0 404 480 0 4),
     .spDrain (lf 6 404 497 0 0), .spClear (lf 0 0 0 0 8), .spClose (lf 1 0 0 0 0), .spStat (lf 445 0 0 0 0), .burst (lf 0 1 0 0),
     .spMma (pf (lf 0 1 1 479) 0 0 0 0), .spMma (pf (lf 0 319 464 479) (3 * 2 ^ 17) 0 0 0), .spMma (pf (lf 0 1 464 479) (2 ^ 13) 0 0 0),
     .spJoinKj (pf (lf 0 404 406 0 4) 0 0 0 0), .spJoinRec (pf (lf 0 404 0 0 8) 1 0 0 0), .spJoinPair (pf (lf 0 1 464 384 4) 0 0 0 0),
     .spGrp (pf (lf 404 1 464 479) 0 0x00010000 0x0101 0), .spGrp (pf (lf 404 1 464 479) 0 0x00090000 0 0)] = true := by
  decide +kernel

theorem test_ill_formed_control : refused
    [.bra (lf 1 0 0 0), .jmp (lf 0 1 0 0), .brx (lf 0 1 0 0 2), .call (lf 40 0 0 0), .exit (lf 0 1 0 0), .knot (lg 1 false (lf 0 0 0 0)), .trap (lf 0 1 0 0),
     .csrr (lf 384 1 0 0), .csrw (lf 0 16 1 0), .winsel (lf 1 384 0 0), .winwr (lf 0 480 504 0), .resume (lf 1 0 0 0), .faultack (lf 0 0 0 0 1),
     .launch (pf (lf 0 384 386 388) 0 0x00010001 0x00010000 0), .launch (pf (lf 0 384 386 389) 1 0x00010001 0x00010000 0),
     .launch (pf (lf 0 384 386 388) 0x10000 0x00010001 0x00010000 0x10000), .watch (lf 384 386 480 6 16), .signal (lf 0 386 1 480 16), .evwait (lf 384 1 480 0),
     .qprio (lf 0 384 488 0), .aLoop (lf 16 0 0 0), .aLd (lf 1 2 0 0), .aWalk (lf 471 0 0 0), .aSync (lf 464 17 0 0), .aEnd (lf 1 0 0 0),
     .aSet (lg 3 false (lf 0 16 0 0))] = true := by
  decide +kernel

theorem test_ill_formed_constants : refused
    [.bar (lf 0 480 504 0 0 (some 33)), .barArrive (lf 0 480 504 0 0 (some 33)), .burst (lf 0 504 0 0 1 (some 65536)), .part (lf 0 483 0 0),
     .frame (lf 0 480 0 0), .frame (lf 0 504 0 0 0 (some 41)), .grow (lf 0 504 0 0 0 (some 40)),
     .trim (lf 0 480 0 0), .growRing (lf 384 504 0 0 8 (some 257))] = true := by
  decide +kernel

theorem test_kinds_of_code :
    (Instr.wfIn .queue (.fadd (lf 1 2 3 0 8)), Instr.wfIn .exec (.aEnd (lf 0 0 0 0)), Instr.wfIn .access (.add (lf 1 2 3 0)),
      Instr.wfIn .handler (.bar (lf 0 480 480 0)), Instr.wfIn .exec (.winsel (lf 386 387 0 0)), Instr.wfIn .queue (.add (lf 1 2 3 0))) =
    (false, false, false, false, false, false) := by
  decide +kernel

/-! ### Words written out by the encoding tables of the spec -/

/-- Whether some parcels decode to an instruction and to nothing more. -/
def reads (l : List (List Word × Instr)) : Bool := l.all (fun p => decodeRaw p.1 == some (p.2, []))

theorem test_words_short : reads
    [([0xFFD03880], .ldi { st := 0, d := 7, imm := 0xFFD }), ([0xFFFD1060], .brs { st := 0, k := 2, neg := false, off := 0x1FFFA }),
     ([0xFFFA5060], .brs { st := 0, k := 2, neg := true, off := 0x1FFF4 }), ([0x00401820], .unMov { st := 0, d := 3, a := 4 }),
     ([0x006E0020], .unMov { st := 0, d := 448, a := 6 }), ([0x00000040], .ctlsNop 0), ([0x80000040], .ctlsExit 0), ([0x60000040], .ctlsRet 0)] = true := by
  decide +kernel

theorem test_words_compute : reads
    [([0x60B05021, 0x0000003C], .add (lf 10 11 483 0)), ([0x00B05022, 0x0000003F, 0x000003E8], .add (lf 10 11 504 0 0 (some 1000))),
     ([0x00401821, 0x23610000], .mov (lg 2 false (lf 3 4 0 0 4))), ([0x3C00302D, 0x0000003C], .add { lf 6 448 481 0 with st := 3 }),
     ([0x60200821, 0x00000040], .add (lf 1 2 3 1)), ([0x40904021, 0x22003281], .tbl3 (lf 8 9 10 202 4)), ([0x794CA021, 0x2220003C], .shl (lf 404 404 483 0 4)),
     ([0x1F8A1042, 0x80400000, 0x00001F40], .leaCode (lf 322 504 0 0 16 (some 8000))), ([0x00602041, 0x00C00000], .apoff (lf 4 6 0 0)),
     ([0x00602041, 0xA0C00000], .apgen (lf 4 6 0 0 20)), ([0x196CA041, 0x00E00000], .apclass (lf 404 406 0 0)),
     ([0xC150A061, 0x486005C2], .fma (lf 20 21 22 23 9)), ([0x00404861, 0x40480028], .fmul { lf 9 4 320 0 8 with tr := true }),
     ([0x00301081, 0x40A00000], .fsin (lf 2 3 0 0 8)), ([0x002018A1, 0x08200000], .f2i (lf 3 2 0 0 1)), ([0xA04018A1, 0x80000040], .fcvt (lf 3 4 5 1 16)),
     ([0xC0D060C1, 0xE04003C1], .nfma (lf 12 13 14 15 28)), ([0xA04018E1, 0x00000080], .icmp (lf 3 4 5 2)),
     ([0x195CA0E1, 0x0000037C], .icmp (lf 404 405 480 13)), ([0x186010E1, 0x01000040], .kmov (lf 2 390 0 1))] = true := by
  decide +kernel

theorem test_words_lanes_and_settings : reads
    [([0x1E800101, 0x00E00000], .part (lf 0 488 0 0)), ([0x1F800102, 0x00E00000, 0x00000020], .part (lf 0 504 0 0 0 (some 32))),
     ([0x20502101, 0xC000003C], .lxch (lf 4 5 481 0 24)), ([0x00703101, 0xC0200000], .vote (lf 6 7 0 0 24)), ([0x00904101, 0x40400000], .redux (lf 8 9 0 0 8)),
     ([0x00904101, 0x80600000], .scan (lf 8 9 0 0 16)), ([0xC0502101, 0x00800000], .compress (lf 4 5 6 0)), ([0xA0405101, 0x10C06500], .isect (lf 10 4 5 404 2)),
     ([0xE03C2901, 0x0100003C], .rdlane (lf 389 3 487 0)), ([0x20502121, 0x0000003C], .qswap (lf 4 5 481 0)), ([0x00502121, 0x00400000], .qred (lf 4 5 0 0)),
     ([0x1F800142, 0x08000000, 0x800F0252], .nfset (lf 0 504 0 0 1 (some 0x800F0252))), ([0x19400141, 0x10000000], .nfset (lf 0 404 0 0 2)),
     ([0x00006141, 0x18200000], .nfget (lf 12 0 0 0 3)), ([0xB9000141, 0x00400000], .cbld (lf 0 400 5 0)), ([0x000CC141, 0x00600005], .cbrd (lf 408 0 40 0)),
     ([0x1E4E0141, 0x00800000], .lqset (lf 448 484 0 0)), ([0x000E0141, 0x00A00000], .lqclr (lf 448 0 0 0)),
     ([0x1E600261, 0x00000000], .frame (lf 0 486 0 0)), ([0x1F800262, 0x00000000, 0x00000014], .frame (lf 0 504 0 0 0 (some 20))),
     ([0x1E300261, 0x00200000], .grow (lf 0 483 0 0)), ([0x1E200261, 0x90200000], .growTry (lf 0 482 0 0 18)),
     ([0x1F8C2A62, 0x40200000, 0x00000040], .growRing (lf 389 504 0 0 8 (some 64))), ([0x1E200261, 0x00400000], .trim (lf 0 482 0 0)),
     ([0x00000261, 0x00600000], .flush (lf 0 0 0 0))] = true := by
  decide +kernel

theorem test_words_memory : reads
    [([0xE0205181, 0x8000043B], .ld (lf 10 2 479 16 16)), ([0x19402182, 0x8000003F, 0x000003E8], .ld (lf 4 404 504 0 16 (some 1000))),
     ([0xF9402181, 0x8800403B], .ld (lf 4 404 479 256 17)), ([0xF9402181, 0x9000403B], .ld (lf 4 404 479 256 18)), ([0xA0203981, 0x80200000], .st (lf 7 2 5 0 16)),
     ([0xF9602981, 0x8820403B], .st (lf 5 406 479 256 17)), ([0x20204181, 0x00400031], .lde (lf 8 2 393 0)), ([0xA0203981, 0x08600000], .ste (lf 7 2 5 0 1)),
     ([0xF9403981, 0x8080003B], .cst (lf 7 404 479 0 16)), ([0xE0200181, 0x40A0003B], .prefetch (lf 0 2 479 0 8)),
     ([0xC02021A1, 0x00004000], .atom (lf 4 2 6 256 0)), ([0xD94001A1, 0xD0205800], .red (lf 0 404 6 352 26)),
     ([0x000001C1, 0x80000000], .fence (lf 0 0 0 0 16)), ([0x000001C1, 0x50000000], .fence (lf 0 0 0 0 10)), ([0x3E0001C1, 0x00200000], .wait (lf 0 480 1 0)),
     ([0xB85001C1, 0x00200000], .wait (lf 0 389 5 0)), ([0x1E3001C1, 0x0040003C], .bar (lf 0 483 480 0)), ([0x985001C1, 0x0060003C], .barArrive (lf 0 389 484 0)),
     ([0x1E3001C1, 0x00800000], .barWait (lf 0 483 0 0)), ([0xC02001E1, 0x60000000], .cmAdd (lf 0 2 6 0 12)), ([0xC02001E1, 0x40000080], .cmAdd (lf 0 2 6 2 8)),
     ([0xD94001E1, 0x20200000], .cmMax (lf 0 404 6 0 4)), ([0xD94CD1E1, 0x40406632], .cmAxpy (lf 410 404 406 408 8)),
     ([0x194CD1E1, 0x40807A00], .cmFill (lf 410 404 0 488 8)), ([0xD94001E2, 0x80A07E32, 0x00000040], .cmSum (lf 0 404 406 504 16 (some 64)))] = true := by
  decide +kernel

theorem test_words_engines : reads
    [([0xD94CD201, 0x40006632], .cpy (lf 410 404 406 408 8)),
     ([0xD94CD201, 0x40200032, 0x00100040, 0x00000100, 0x00000040, 0x00000040], .cpyt (pf (lf 410 404 406 0 8) 0x00100040 0x100 0x40 0x40)),
     ([0xD94CD201, 0xA0406632], .dcpy (lf 410 404 406 408 20)), ([0x59A00201, 0x0080003C], .abset (lf 0 410 482 0)),
     ([0x39A00201, 0x00C0783C], .abarr (lf 0 410 481 480)), ([0x79A00201, 0x00E00033], .abwait (lf 0 410 411 0)),
     ([0x99405221, 0x10000140, 0, 0, 0, 0], .fget (pf (lf 10 404 4 5 2) 0 0 0 0)), ([0xD9FCF221, 0x00200032], .hset (lf 414 415 406 0)),
     ([0xD9FCF221, 0x80200032], .hset (lf 414 415 406 0 16)), ([0x59800241, 0x00200033], .spSeed (lf 0 408 410 0)), ([0x000D4241, 0x01000000], .spStat (lf 424 0 0 0)),
     ([0x39C28A41, 0x10A0003E], .spDrain (lf 81 412 497 0 2)), ([0x39C06A41, 0x00A067BE], .spDrain (lf 13 412 497 414)),
     ([0xA0800241, 0x004077F2, 0x00020001, 0, 0, 0], .spMma (pf (lf 0 8 405 479) 0x00020001 0 0 0)),
     ([0x00800241, 0x085077FA, 0x00FE007F, 0, 0xFE00019E, 0], .spMma (pf { lf 0 8 464 479 1 with ru := true } 0x00FE007F 0 0xFE00019E 0)),
     ([0xD9400241, 0x10600032, 0x0000A000, 0xFE000198, 0xFE000199, 0], .spJoinKj (pf (lf 0 404 406 0 2) 0xA000 0xFE000198 0xFE000199 0)),
     ([0xA1000241, 0x286066B2, 0x007E003F, 0x00320000, 0, 0], .spJoinPair (pf (lf 0 16 405 410 5) 0x007E003F 0x00320000 0 0)),
     ([0x210D4241, 0x008077FA, 0x0001403F, 0x00030000, 0x00180028, 0], .spGrp (pf (lf 424 16 465 479) 0x0001403F 0x00030000 0x00180028 0)),
     ([0x1EC00241, 0x01200000], .burst (lf 0 492 0 0))] = true := by
  decide +kernel

theorem test_words_control : reads
    [([0x00000281, 0x00C18000], .exit (lg 3 false (lf 0 0 0 0))), ([0x00000281, 0x00C58000], .exit (lg 3 true (lf 0 0 0 0))),
     ([0xFD001A81, 0x00607FFF], .call (lf 3 464 511 511)), ([0x40501A81, 0x00800000], .callx (lf 3 5 2 0)), ([0x00000281, 0x00A08000], .ret (lg 1 false (lf 0 0 0 0))),
     ([0x6A000281, 0x00058018], .bra (lg 3 true (lf 0 160 195 0))), ([0x18700281, 0x00200000], .jmp (lf 0 391 0 0)), ([0x38900281, 0x00400000], .brx (lf 0 393 1 0)),
     ([0x00600281, 0x00410000], .brx (lg 2 false (lf 0 6 0 0))), ([0x1E500281, 0x01808000], .trap (lg 1 false (lf 0 485 0 0))),
     ([0x000CA2A1, 0x00000000], .csrr (lf 404 0 0 0)), ([0xA11002A1, 0x00200032], .csrw (lf 0 17 405 0)), ([0x183C12A1, 0x00400000], .winsel (lf 386 387 0 0)),
     ([0x185022A1, 0x00600000], .winrd (lf 4 389 0 0)), ([0xD85002A1, 0x00800000], .winwr (lf 0 389 6 0)),
     ([0x594C5AC1, 0xA02000B1], .watch (lf 395 404 394 2 20)), ([0x596002C1, 0xA0407831], .signal (lf 0 406 394 480 20)),
     ([0x385002C1, 0x0040003C], .signalQ (lf 0 389 481 0)), ([0x08002AE1, 0x00A00000], .aSet (lf 5 128 0 0)), ([0x00002AE1, 0x00A00001], .aSet (lf 5 0 8 0)),
     ([0x000022E1, 0x00A28000], .aSet (lg 5 false (lf 4 0 0 0))), ([0x004E82E1, 0x00200000], .aLd (lf 464 4 0 0)),
     ([0xA0401AE1, 0xF807FF00], .aLoop (lg 7 true (lf 3 4 5 0x1FC 31))), ([0x008E92E1, 0x00400000], .aWalk (lf 466 8 0 0)),
     ([0x008E92E1, 0x80400000], .aWalk (lf 466 8 0 0 16)), ([0x008E8AE1, 0x00600000], .aSync (lf 465 8 0 0)), ([0x000002E1, 0x00800000], .aEnd (lf 0 0 0 0))] = true := by
  decide +kernel

/-! ### Results that the spec works out -/

/-- The usual strand at the issue of an instruction, with registers that hold values in lanes: specifier, lane and value. -/
def given_ (i : Instr) (vs : List (Nat × Nat × Word)) (f : Strand → Strand := id) : State :=
  at_ (encode i) (fun t => f (withCells (vs.map (fun v => ((regCell t v.1 v.2.1).getD 0, v.2.2))) t))

/-- What a step leaves in registers, and in the FP status. -/
def leaves (o : Host.Outcome State Fault Refusal) (l : List (Nat × Nat)) : List Word × Nat :=
  match o with
  | .next s => (l.map (fun v => ((s.th 0).rg.final ((regCell (s.th 0) v.1 v.2).getD 0))), (s.th 0).ct.fp)
  | _ => ([], 99)

/-- Table 11-7: a fused sum is exact, a product is rounded. -/
theorem test_fused_and_unfused :
    let x := lf 3 1 1 2 8
    let y := lf 4 1 1 0 8
    leaves (execFma x (given_ (.fma x) [(1, 5, 0x3F800800), (2, 5, 0xBF801000)])) [(3, 5)] = ([0x33800000], 0) ∧
    leaves (execFmul y (given_ (.fmul y) [(1, 5, 0x3F800800)])) [(4, 5)] = ([0x3F801000], 1) := by
  decide +kernel

/-- Table 11-10: `f2i` to nearest, 3 × 10⁹ and −2.5, signed and unsigned. -/
theorem test_f2i :
    let x := lf 3 2 0 0 0
    let u := lf 3 2 0 1 0
    leaves (execF2i x (given_ (.f2i x) [(2, 0, 0x40200000)])) [(3, 0)] = ([2], 1) ∧
    leaves (execF2i x (given_ (.f2i x) [(2, 0, 0x4F32D05E)])) [(3, 0)] = ([0x7FFFFFFF], 16) ∧
    leaves (execF2i u (given_ (.f2i u) [(2, 0, 0x4F32D05E)])) [(3, 0)] = ([3000000000], 0) ∧
    leaves (execF2i u (given_ (.f2i u) [(2, 0, 0xC0200000)])) [(3, 0)] = ([0], 16) := by
  decide +kernel

/-- Table 11-13: `nadd` in E4M3. -/
theorem test_nadd :
    let x := lf 3 1 2 0 28
    leaves (execNadd x (given_ (.nadd x) [(1, 9, 0x7E3C3C3C), (2, 9, 0x7E3C3C01)])) [(3, 9)] = ([0x7E44443C], 5) := by
  decide +kernel

/-- R210: fsin(0.5) is exactly 1. -/
theorem test_fsin :
    let x := lf 2 3 0 0 8
    leaves (execFsin x (given_ (.fsin x) [(3, 31, 0x3F000000)])) [(2, 31)] = ([0x3F800000], 0) := by
  decide +kernel

/-- Table 8-6: `isect` in tiles of eight, lanes 16 to 31 guarded off. -/
theorem test_isect :
    let x := lg 1 false (lf 10 4 5 404 2)
    let a := [3, 5, 9, 12, 20, 21, 30, 40, 1, 2, 3, 4, 5, 6, 7, 8]
    let b := [5, 6, 12, 19, 21, 22, 23, 50, 100, 101, 102, 103, 104, 105, 106, 107]
    let s := given_ (.isect x) ((List.range 16).flatMap (fun l => [(4, l, a.getD l 0), (5, l, b.getD l 0)]))
      (fun t => { withCells ((List.range 16).map (fun l => (kCell 1 l, 1))) t with ct := { t.ct with part := 3 } })
    (leaves (execIsect x s) [(10, 0), (10, 1), (10, 2), (11, 0), (11, 1), (11, 2), (404, 0), (405, 0)]).1 = [1, 3, 5, 0, 2, 4, 0x88, 7] := by
  decide +kernel

/-- R205: a merge under the truth table 0xCA, and a sum that saturates. -/
theorem test_tbl3_and_sat :
    let x := lf 8 9 10 0xCA 4
    let y := lf 1 2 3 1
    (leaves (execTbl3 x (given_ (.tbl3 x) [(8, 2, 0x0000FFFF), (9, 2, 0x11112222), (10, 2, 0x33334444)])) [(8, 2)]).1 = [0x33332222] ∧
    (leaves (execAdd y (given_ (.add y) [(2, 2, 0x7FFFFFFF), (3, 2, 1)])) [(1, 2)]).1 = [0x7FFFFFFF] := by
  decide +kernel

/-- R204: −2³¹ has no positive, and a product's high half is signed. -/
theorem test_abs_and_mulh :
    let x := lf 1 2 0 0
    let y := lf 1 2 2 0
    (leaves (execAbs x (given_ (.abs x) [(2, 0, 0x80000000)])) [(1, 0)]).1 = [0x80000000] ∧
    (leaves (execMulh y (given_ (.mulh y) [(2, 0, 0x80000000)])) [(1, 0)]).1 = [0x40000000] := by
  decide +kernel

/-! ### Twifel -/

/-- A kernel of three blocks (R64): a branch on whether the lane is below 5, an addition on one side, and the block where both meet. -/
def twifelOf (v2 : Nat) (use : Twifel.Arg) (dest : Twifel.Ty) (knot : Bool) (meet : Nat) : Twifel.Kernel :=
  { entry :=
      { params := [], result := none
        blocks :=
          [{ knot := false
             lines := [{ dest := some (1, .i32), rhs := .lane }, { dest := some (v2, .i1), rhs := .op 7 0 (lf 0 0 0 2) [(.a, .val 1), (.b, .num 5)] }]
             last := .br (.val v2) 1 2 meet },
           { knot := false, lines := [{ dest := some (3, dest), rhs := .op 1 0 (lf 0 0 0 0) [(.a, .val 1), (.b, .num 1)] }], last := .next },
           { knot := knot, lines := [{ dest := some (4, .i32), rhs := .op 1 0 (lf 0 0 0 0) [(.a, use), (.b, .num 1)] }], last := .ret none }] }
    funcs := [] }

/-- A kernel with a switch on the lane to one of two blocks, which go on at a third or return. -/
def switchOf (early : Bool) : Twifel.Kernel :=
  { entry :=
      { params := [], result := none
        blocks :=
          [{ knot := false, lines := [{ dest := some (1, .i32), rhs := .lane }], last := .switch (.val 1) 3 [1, 2] },
           { knot := false, lines := [], last := if early then .ret none else .br (.num 1) 3 3 3 },
           { knot := false, lines := [], last := .next }, { knot := true, lines := [], last := .ret none }] }
    funcs := [] }

/-- R65: a kernel that keeps the rules, and one for each of the cases that are rejected. -/
theorem test_twifel_rules :
    (twifelOf 2 (.val 1) .i32 true 2).ok = true ∧ (twifelOf 1 (.val 1) .i32 true 2).ok = false ∧ (twifelOf 2 (.val 3) .i32 true 2).ok = false ∧
    (twifelOf 2 (.val 1) .f32 true 2).ok = false ∧ (twifelOf 2 (.val 1) .i32 false 2).ok = false ∧ (twifelOf 2 (.val 1) .i32 true 1).ok = false ∧
    (switchOf true).ok = false := by
  decide +kernel

/-- R64: an addition with its type suffix, on one lane. -/
theorem test_twifel_addition :
    (opEffect (at_ []) 0 7 1 0 (lf 0 0 0 0) [(.a, 0x7FFFFFFF), (.b, 3)] true).map (·.2) = some 0x80000002 := by
  decide +kernel

/-- R64: a lane's way through a kernel. -/
theorem test_twifel_run : (runKernel (twifelOf 2 (.val 1) .i32 true 2) 0 7 4 (at_ [])).isSome = true := by decide +kernel

/-- Table 4-5: the text of a kernel with a branch. -/
theorem test_twifel_text :
    let line (s : String) : List Byte := s.toList.map (fun c => BitVec.ofNat 8 c.toNat) ++ [10]
    let brace (n : Nat) : List Byte := [BitVec.ofNat 8 n, 10]
    Twifel.textKernel ((line "kernel k ").dropLast ++ brace 123 ++ line "$l = lane" ++ line "$p = icmp.s32.lt $l, 5 ; a comment" ++
      line "br $p, bb1, bb2, knot bb2" ++ line "bb1:" ++ line "$x = fma.f32 $l, $l, 1" ++ line "bb2:" ++ line "knot" ++ line "ret" ++ brace 125) =
    some {
      entry :=
        { params := [], result := none
          blocks :=
            [{ knot := false
               lines := [{ dest := some (0, .i32), rhs := .lane }, { dest := some (1, .i1), rhs := .op 7 0 (lf 0 0 0 2) [(.a, .val 0), (.b, .num 5)] }]
               last := .br (.val 1) 1 2 2 },
             { knot := false, lines := [{ dest := some (2, .f32), rhs := .op 3 3 (lf 0 0 0 0 8) [(.a, .val 0), (.b, .val 0), (.c, .num 1)] }], last := .next },
             { knot := true, lines := [], last := .ret none }] }
      funcs := [] } := by
  decide +kernel

end Sys2Proof.Tests
end

namespace Sys2Proof.Machine

/-! ### What the end of a clause does to its thread

Knots, fork stack and waits move groups between places, and a stop holds them: the register cells and the FP flags of every
thread stay (R39, R128, R131, R137). -/

/-- The release of knots changes a thread's paths alone. -/
theorem releaseKnots_frame (t : Strand) : releaseKnots t = { t with ps := (releaseKnots t).ps } := by
  unfold releaseKnots
  dsimp only
  repeat' split
  all_goals rfl

/-- Filling a slot changes a thread's paths alone. -/
theorem fillSlot_frame (t : Strand) (k : Nat) : fillSlot t k = { t with ps := (fillSlot t k).ps } := by
  unfold fillSlot
  repeat' split
  all_goals rfl

/-- Two states in which every thread's register cells and FP flags agree. -/
def SameCells (s t : State) : Prop := ∀ n, (t.th n).rg.cells = (s.th n).rg.cells ∧ (t.th n).ct.fp = (s.th n).ct.fp

theorem SameCells.trans {s t u : State} (h : SameCells s t) (h' : SameCells t u) : SameCells s u :=
  fun n => ⟨(h' n).1.trans (h n).1, (h' n).2.trans (h n).2⟩

theorem SameCells.of_ths {s t : State} (h : t.ths = s.ths) : SameCells s t := fun n => by simp [State.th, h]

/-- A change of a thread that keeps its cells and flags keeps those of every thread. -/
theorem SameCells.modTh (s : State) (th : Nat) {f : Strand → Strand}
    (h : (f (s.th th)).rg.cells = (s.th th).rg.cells ∧ (f (s.th th)).ct.fp = (s.th th).ct.fp) : SameCells s (s.modTh th f) := by
  intro n
  rw [State.th_modTh]
  split
  · obtain ⟨rfl, -⟩ := ‹n = th ∧ _›
    exact h
  · exact ⟨rfl, rfl⟩

/-- A stop keeps every thread's register cells and FP flags (R39, R137). -/
theorem stopThread_sameCells (s : State) (th : Nat) (r : FaultRec) : SameCells s (stopThread s th r) := by
  have ths_queueState : ∀ (u : State) n st, (queueState u n st).ths = u.ths := fun u n st => by rw [(queueState_frame u n st).1]
  have ths_spillForks : ∀ u : State, (spillForks u th).ths = u.ths := fun u => by rw [spillForks_frame]
  have ths_escalate : ∀ (u : State) a (r : FaultRec) l, (escalate u a th r l).ths = u.ths := fun _ _ _ _ => rfl
  suffices h : ∃ f : Strand → Strand, (stopThread s th r).ths = (s.modTh th f).ths ∧
      ∀ t, (f t).rg.cells = t.rg.cells ∧ (f t).ct.fp = t.ct.fp by
    obtain ⟨f, h, hf⟩ := h
    exact (SameCells.modTh s th (hf _)).trans (.of_ths h)
  unfold stopThread
  dsimp only
  repeat' split
  all_goals
    simp only [ths_queueState, ths_escalate, ths_spillForks, State.modQueue_ths, State.modCore_ths, freeIssue_ths, State.modTh_ths,
      State.modCtx_ths]
    exact ⟨_, rfl, fun t => ⟨rfl, rfl⟩⟩

/-- What the end of an instruction may change beside a stop that is due: its own thread's paths and results that have not landed, the
issue slots, L1 copies, the order of writes, and the model's own fields (R38, R39, R81). -/
structure PathMoves (s u : State) (th : Nat) : Prop where
  issue : SameButIssue s u
  others : SameOthers th s u
  thread : u.th th = { s.th th with ps := (u.th th).ps, rg := { (s.th th).rg with pend := (u.th th).rg.pend } }

theorem SameButIssue.trans {s u v : State} (h : SameButIssue s u) (h' : SameButIssue u v) : SameButIssue s v := by
  unfold SameButIssue at h h' ⊢
  rw [h] at h'
  exact h'

theorem PathMoves.refl (s : State) (th : Nat) : PathMoves s s th := ⟨rfl, fun _ _ => rfl, rfl⟩

theorem PathMoves.trans {s u v : State} {th : Nat} (h : PathMoves s u th) (h' : PathMoves u v th) : PathMoves s v th where
  issue := h.issue.trans h'.issue
  others := fun n hn => (h'.others n hn).trans (h.others n hn)
  thread := by
    have e := h'.thread
    rw [h.thread] at e
    exact e

/-- A change of a thread's paths and of results that have not landed. -/
theorem PathMoves.of_modTh (s : State) (th : Nat) {f : Strand → Strand}
    (h : f (s.th th) = { s.th th with ps := (f (s.th th)).ps, rg := { (s.th th).rg with pend := (f (s.th th)).rg.pend } }) :
    PathMoves s (s.modTh th f) th where
  issue := rfl
  others := fun n hn => State.ths_modTh_ne s f hn
  thread := by
    rw [State.th_modTh]
    split
    · exact h
    · rfl

/-- A change of the issue slots, L1 copies, the order of writes and the model's own fields. -/
theorem PathMoves.of_issue {s u : State} (th : Nat) (h : SameButIssue s u) (ht : u.ths = s.ths) : PathMoves s u th where
  issue := h
  others := fun n _ => by rw [ht]
  thread := by simp [State.th, ht]

theorem PathMoves.sameCells {s u : State} {th : Nat} (h : PathMoves s u th) : SameCells s u := by
  intro n
  by_cases hn : n = th
  · subst hn
    rw [h.thread]
    exact ⟨rfl, rfl⟩
  · simp [State.th, kgetD, h.others n hn]

/-- A state is reached from another by moves of a thread's paths, after which the thread may stop with an asynchronous fault that is
due (R171, R250). -/
def EndsWith (s t : State) (th : Nat) : Prop := ∃ u, PathMoves s u th ∧ (t = u ∨ t = deliverAsync u th)

theorem PathMoves.endsWith {s u t : State} {th : Nat} (h : PathMoves s u th) (h' : EndsWith u t th) : EndsWith s t th := by
  obtain ⟨v, hv, ht⟩ := h'
  exact ⟨v, h.trans hv, ht⟩

theorem EndsWith.sameCells {s t : State} {th : Nat} (h : EndsWith s t th) : SameCells s t := by
  obtain ⟨u, hu, rfl | rfl⟩ := h
  · exact hu.sameCells
  · refine hu.sameCells.trans ?_
    rcases deliverAsync_cases u th with h | ⟨r, -, -, -, h⟩
    · rw [h]; exact .of_ths rfl
    · rw [h]; exact SameCells.trans (.modTh _ th ⟨rfl, rfl⟩) (stopThread_sameCells _ _ _)

theorem EndsWith.others {s t : State} {th : Nat} (h : EndsWith s t th) : SameOthers th s t := by
  obtain ⟨u, hu, rfl | rfl⟩ := h
  · exact hu.others
  · intro n hn
    rw [← hu.others n hn]
    rcases deliverAsync_cases u th with h | ⟨r, -, -, -, h⟩
    · rw [h]
    · obtain ⟨-, -, -, -, -, -, -, -, -, -, hths⟩ := stopThread_frame
        (u.modTh th (fun t => { t with ct := { t.ct with pending := t.ct.later.head?, later := t.ct.later.drop 1 } })) th
        { r with mask := (u.th th).live }
      rw [h, hths n hn, State.ths_modTh_ne _ _ hn]

/-- Where no asynchronous fault of the thread is due, nothing but its paths moves. -/
theorem EndsWith.pathMoves {s t : State} {th : Nat} (h : EndsWith s t th) (hp : (s.th th).ct.pending = none) : PathMoves s t th := by
  obtain ⟨u, hu, rfl | rfl⟩ := h
  · exact hu
  · have hq : (u.th th).ct.pending = none := by rw [hu.thread]; exact hp
    rcases deliverAsync_cases u th with h | ⟨r, h, -⟩
    · rwa [h]
    · rw [hq] at h; cases h

/-- A thread that settles its waits moves its paths, and stops if an asynchronous fault is due (R81, R128, R131). -/
theorem refresh_endsWith (s : State) (th : Nat) : EndsWith s (refresh s th) th := by
  unfold refresh
  split
  · exact ⟨s, .refl s th, .inl rfl⟩
  · refine ⟨_, ?_, .inr rfl⟩
    refine (PathMoves.of_issue th (u := endWaits s th _) ?_ ?_).trans (.of_modTh _ th ?_)
    · rw [endWaits_frame]; rfl
    · rw [endWaits_frame]
    · rw [fillSlot_frame, fillSlot_frame _ 0, releaseKnots_frame, endWaits_frame]
      rfl

/-- Freeing the issue slots of a thread moves no register. -/
theorem freeIssue_moves (s : State) (th : Nat) : PathMoves s (freeIssue s th) th := .of_issue th rfl rfl

/-- The end of a clause moves its thread's paths, and the thread stops if an asynchronous fault is due (R21, R39). -/
theorem endClause_endsWith (s : State) (th k : Nat) (y : Bool) : EndsWith s (endClause s th k y) th := by
  unfold endClause
  dsimp only
  refine PathMoves.endsWith (PathMoves.trans ?_ (freeIssue_moves _ th)) (refresh_endsWith _ th)
  generalize (y || _) = b
  cases b with
  | false => exact .of_modTh s th rfl
  | true => exact PathMoves.trans (.of_modTh s th rfl) (.of_issue th (by exact rfl) rfl)

/-- Moving past an instruction moves its thread's paths, and at the end of a clause the thread stops if an asynchronous fault is
due (R38). -/
theorem finishInstr_endsWith (s : State) (th k z st : Nat) : EndsWith s (finishInstr s th k z st) th := by
  unfold finishInstr
  dsimp only
  split
  · exact ⟨_, .of_modTh s th rfl, .inl rfl⟩
  · split
    · exact PathMoves.endsWith (.of_modTh s th rfl) (endClause_endsWith _ th k false)
    · exact ⟨_, .of_modTh s th rfl, .inl rfl⟩

end Sys2Proof.Machine

namespace Sys2Proof.Machine

/-! ### Registers after writes -/

/-- What a cell finally holds after writes of distinct cells: what they give it, or what it held. -/
theorem Regs.final_put (r : Regs) (ready : Nat) {ws : List (Nat × Word)} (h : (ws.map (·.1)).Nodup) (c : Nat) :
    (r.put ready ws).final c = (ws.lookup c).getD (r.final c) := by
  induction ws generalizing r with
  | nil => rfl
  | cons w ws ih =>
    obtain ⟨d, v⟩ := w
    obtain ⟨hd, h⟩ := List.nodup_cons.mp h
    rw [show r.put ready ((d, v) :: ws) = Regs.put _ ready ws from rfl, ih _ h]
    by_cases hc : c = d
    · have hn : ws.lookup d = none := List.lookup_eq_none_iff.mpr fun p hp =>
        bne_iff_ne.mpr fun e => hd (List.mem_map.mpr ⟨p, hp, e.symm⟩)
      subst hc
      simp [hn, Regs.final, kgetD]
    · simp [List.lookup_cons, beq_false_of_ne hc, Regs.final, kgetD, kget?_kset_ne _ _ hc]

/-- What a cell reads as after writes that land at a cycle: a cell that they name reads as what it finally holds from then on, and
every cell reads as before until then (R38, R40). -/
theorem Regs.read_put (r : Regs) (ready : Nat) (ws : List (Nat × Word)) (n c : Nat) :
    (r.put ready ws).read n c = if c ∈ ws.map (·.1) ∧ ready ≤ n then (r.put ready ws).final c else r.read n c := by
  induction ws generalizing r with
  | nil => simp [Regs.put]
  | cons w ws ih =>
    let r' : Regs := { r with pend := { cell := w.1, old := r.final w.1, ready := ready } :: r.pend, cells := kset r.cells w.1 w.2 }
    have hr : r'.read n c = if c = w.1 ∧ ready ≤ n then r'.final c else r.read n c := by
      by_cases hc : c = w.1
      · subst hc; by_cases hn : ready ≤ n <;> simp [r', Regs.read, landed, hn]
      · have hc' : w.1 ≠ c := fun e => hc e.symm
        simp [r', Regs.read, landed, hc, hc', Regs.final, kgetD, kget?_kset_ne _ _ hc]
    rw [show r.put ready (w :: ws) = r'.put ready ws from rfl, ih, hr]
    by_cases hm : c ∈ ws.map (·.1)
    · by_cases hn : ready ≤ n <;> simp [hm, hn]
    · have hf : (r'.put ready ws).final c = r'.final c := Regs.final_put_other _ _ _ fun p hp e =>
        hm (e ▸ List.mem_map_of_mem hp)
      rw [hf]
      simp [hm]

/-! ### What the body of an instruction writes -/

/-- A thread with a slot at issue has written some registers, whose values land at a cycle, and raised some flags; its groups, clauses
and issue cycle stand, and beside its registers and queues nothing of it changes. The newest write of a cell stands first. -/
structure StrandWrites (t u : Strand) (k ready : Nat) (ws : List (Nat × Word)) (fl : Nat) : Prop where
  frame : SameButRegs t u
  clk : u.ps.clk = t.ps.clk
  grp : (u.slot k).grp = (t.slot k).grp
  clause : (u.slot k).clause = (t.slot k).clause
  final : ∀ c, u.rg.final c = (ws.lookup c).getD (t.rg.final c)
  read : ∀ n c, u.rg.read n c = if c ∈ ws.map (·.1) ∧ ready ≤ n then u.rg.final c else t.rg.read n c
  flags : u.ct.fp = t.ct.fp ||| fl

/-- From one state to another the thread at issue has written some registers and raised some flags, and no other thread and nothing
else but the model's own fields changes. -/
structure RegWrites (s u : State) (i : Iss) (ready : Nat) (ws : List (Nat × Word)) (fl : Nat) : Prop where
  frame : u = { s with ths := u.ths, run := u.run }
  others : SameOthers i.th s u
  lives : (kget? u.ths i.th).isSome = true
  thread : StrandWrites (s.th i.th) (u.th i.th) i.k ready ws fl

theorem SameButRegs.trans {t u v : Strand} (h : SameButRegs t u) (h' : SameButRegs u v) : SameButRegs t v := by
  unfold SameButRegs at h h' ⊢
  rw [h] at h'
  exact h'

theorem StrandWrites.refl (t : Strand) (k ready : Nat) : StrandWrites t t k ready [] 0 :=
  ⟨rfl, rfl, rfl, rfl, fun _ => rfl, fun _ _ => (if_neg (by simp)).symm, (Nat.or_zero _).symm⟩

theorem StrandWrites.trans {t u v : Strand} {k ready : Nat} {ws ws' : List (Nat × Word)} {fl fl' : Nat}
    (h : StrandWrites t u k ready ws fl) (h' : StrandWrites u v k ready ws' fl') :
    StrandWrites t v k ready (ws' ++ ws) (fl ||| fl') where
  frame := h.frame.trans h'.frame
  clk := h'.clk.trans h.clk
  grp := h'.grp.trans h.grp
  clause := h'.clause.trans h.clause
  final := fun c => by
    rw [h'.final, h.final, List.lookup_append]
    cases ws'.lookup c <;> rfl
  read := fun n c => by
    rw [h'.read, h.read, h'.final]
    by_cases hn : ready ≤ n
    · by_cases hc : c ∈ ws'.map (·.1)
      · simp [hn, hc]
      · have hl : ws'.lookup c = none := List.lookup_eq_none_iff.mpr fun p hp =>
          bne_iff_ne.mpr fun e => hc (List.mem_map.mpr ⟨p, hp, e.symm⟩)
        simp [hn, hc, hl]
    · simp [hn]
  flags := by rw [h'.flags, h.flags, Nat.or_assoc]

theorem RegWrites.trans {s u v : State} {i : Iss} {ready : Nat} {ws ws' : List (Nat × Word)} {fl fl' : Nat}
    (h : RegWrites s u i ready ws fl) (h' : RegWrites u v i ready ws' fl') : RegWrites s v i ready (ws' ++ ws) (fl ||| fl') where
  frame := by
    have e := h'.frame
    rw [h.frame] at e
    exact e
  others := fun n hn => (h'.others n hn).trans (h.others n hn)
  lives := h'.lives
  thread := h.thread.trans h'.thread

/-- A change of the thread at issue that writes registers. -/
theorem RegWrites.of_modTh {s : State} {i : Iss} {ready : Nat} {ws : List (Nat × Word)} {fl : Nat} {f : Strand → Strand}
    (hl : (kget? s.ths i.th).isSome = true) (h : StrandWrites (s.th i.th) (f (s.th i.th)) i.k ready ws fl) :
    RegWrites s (s.modTh i.th f) i ready ws fl where
  frame := rfl
  others := fun n hn => State.ths_modTh_ne s f hn
  lives := by simpa [kget?_kmodify] using hl
  thread := by rwa [State.th_modTh, if_pos ⟨rfl, hl⟩]

/-- The thread at issue is set to one that has written registers. -/
theorem RegWrites.of_setTh {s : State} {i : Iss} {ready : Nat} {ws : List (Nat × Word)} {fl : Nat} {t : Strand}
    (h : StrandWrites (s.th i.th) t i.k ready ws fl) : RegWrites s (s.setTh i.th t) i ready ws fl where
  frame := rfl
  others := fun n hn => by rw [State.setTh_ths, kget?_kset_ne _ _ hn]
  lives := by simp
  thread := by rwa [State.th_setTh, if_pos rfl]

/-- Pops of queues write no register (R154, R159). -/
theorem popQueues_writes (t : Strand) (names : List Nat) (k ready : Nat) : StrandWrites t (popQueues t names) k ready [] 0 :=
  ⟨rfl, rfl, rfl, rfl, fun _ => rfl, fun _ _ => (if_neg (by simp)).symm, (Nat.or_zero _).symm⟩

/-- Raising flags of a thread writes no register (R203). -/
theorem raiseFp_writes {s : State} (i : Iss) (ready fl : Nat) (h : (kget? s.ths i.th).isSome = true) :
    RegWrites s (raiseFp s i.th fl) i ready [] (fl % 32) := by
  unfold raiseFp
  split
  · subst fl
    exact ⟨rfl, fun _ _ => rfl, h, .refl _ _ _⟩
  · exact .of_modTh h ⟨rfl, rfl, rfl, rfl, fun _ => rfl, fun n c => by simp, rfl⟩

/-- Writes of distinct cells into a thread's register file. -/
theorem StrandWrites.of_put (t : Strand) (k ready : Nat) {ws : List (Nat × Word)} (h : (ws.map (·.1)).Nodup) :
    StrandWrites t { t with rg := t.rg.put ready ws } k ready ws 0 where
  frame := by
    have hp : ∀ r : Regs, r.put ready ws = { r with cells := (r.put ready ws).cells, pend := (r.put ready ws).pend } := by
      unfold Regs.put
      clear h
      induction ws with
      | nil => intro r; rfl
      | cons w ws ih => intro r; rw [List.foldl_cons, ih]
    unfold SameButRegs
    rw [hp]
  clk := rfl
  grp := rfl
  clause := rfl
  final := Regs.final_put _ _ h
  read := Regs.read_put _ _ _
  flags := by simp

/-- A change of a thread's marks, loop queues and bypass entries beside some writes. -/
theorem StrandWrites.beside {t u v : Strand} {k ready : Nat} {ws : List (Nat × Word)} {fl : Nat} (h : StrandWrites t u k ready ws fl)
    (hf : SameButRegs u v) (hc : v.rg.cells = u.rg.cells) (hp : v.rg.pend = u.rg.pend) (hk : v.ps.clk = u.ps.clk)
    (hg : (v.slot k).grp = (u.slot k).grp) (hcl : (v.slot k).clause = (u.slot k).clause) (hfp : v.ct.fp = u.ct.fp) :
    StrandWrites t v k ready ws fl where
  frame := h.frame.trans hf
  clk := hk.trans h.clk
  grp := hg.trans h.grp
  clause := hcl.trans h.clause
  final := fun c => by rw [← h.final, Regs.final, hc]; rfl
  read := fun n c => by
    have hr : v.rg.read n c = u.rg.read n c := by simp [Regs.read, Regs.final, hc, hp]
    rw [hr, h.read, Regs.final, Regs.final, hc]
  flags := hfp.trans h.flags

/-! ### The cells of a result -/

theorem mem_lanesOf {m : Word} {l : Nat} : l ∈ lanesOf m ↔ l < 32 ∧ m.getLsbD l = true := by simp [lanesOf]

theorem lanesOf_nodup (m : Word) : (lanesOf m).Nodup := List.nodup_range.filter _

/-- A vector register names cells of its own in each lane: the lane stands in the cell's low bits. -/
theorem regCell_mod {t : Strand} {d l c : Nat} (hd : isS d = false) (h : regCell t d l = some c) : c % 32 = l % 32 := by
  unfold regCell at h
  split at h
  · simp only [fCell, Option.ite_none_left_eq_some, Option.some.injEq] at h
    rw [← h.2]
    simp [vrCell, ringCell]
  · split at h
    · rw [← Option.some.inj h]
      simp [gCell, Nat.add_mod]
    · rw [hd] at h
      cases h

theorem laneWrites_keys (u : Strand) (d : Nat) (act : Word) (f : Nat → Word) :
    (laneWrites u d act f).map (·.1) = (lanesOf act).filterMap (regCell u d) := by
  unfold laneWrites
  induction lanesOf act with
  | nil => rfl
  | cons l ls ih =>
    rw [List.flatMap_cons, List.map_append, ih, List.filterMap_cons]
    cases regCell u d l <;> rfl

/-- A vector register's cells in some lanes are distinct. -/
theorem laneWrites_nodup (u : Strand) {d : Nat} (act : Word) (f : Nat → Word) (hd : isS d = false) :
    ((laneWrites u d act f).map (·.1)).Nodup := by
  rw [laneWrites_keys, List.Nodup, List.pairwise_filterMap]
  refine (lanesOf_nodup act).imp_of_mem ?_
  intro l m hl hm hne b hb b' hb' e
  have h1 := regCell_mod hd hb
  have h2 := regCell_mod hd hb'
  have := (mem_lanesOf.mp hl).1
  have := (mem_lanesOf.mp hm).1
  omega

/-- The cells of a 32-bit result are distinct. -/
theorem dstWrites_nodup (u : Strand) (d : Nat) (tr : Bool) (act : Word) (f : Nat → Word) :
    ((dstWrites u d tr act f).map (·.1)).Nodup := by
  unfold dstWrites
  split
  · simp
  · split
    · rw [List.map_map, List.Nodup, List.pairwise_map]
      refine List.nodup_range.imp fun hne e => hne ?_
      simp only [Function.comp_apply, lqCell] at e
      omega
    · split
      · simp
      · exact laneWrites_nodup u act f (by simpa using ‹¬ isS d = true›)

/-- A change of a loop queue's place beside some writes. -/
theorem StrandWrites.put_lqs (t : Strand) (k ready : Nat) {ws : List (Nat × Word)} (h : (ws.map (·.1)).Nodup) (lqs : KMap LoopQ) :
    StrandWrites t { t with rg := { t.rg.put ready ws with lqs := lqs } } k ready ws 0 :=
  (StrandWrites.of_put t k ready h).beside rfl rfl rfl rfl rfl rfl rfl

/-- A lane-ply is marked as written beside some writes (R106). -/
theorem StrandWrites.put_unclean (t : Strand) (k ready : Nat) {ws : List (Nat × Word)} (h : (ws.map (·.1)).Nodup) (d : Nat)
    (lanes : List Nat) : StrandWrites t (unclean { t with rg := t.rg.put ready ws } d lanes) k ready ws 0 := by
  unfold unclean
  split
  · exact (StrandWrites.of_put t k ready h).beside rfl rfl rfl rfl rfl rfl rfl
  · exact .of_put t k ready h

/-- A result enters the bypass beside some writes (R31). -/
theorem StrandWrites.bypass {t u : Strand} {k ready : Nat} {ws : List (Nat × Word)} {fl : Nat} (h : StrandWrites t u k ready ws fl)
    (vals : List Word) (r : Nat) : StrandWrites t (u.setSlot k (pushByp (u.slot k) vals r)) k ready ws fl :=
  h.beside (by unfold SameButRegs Strand.setSlot; rfl) (by simp) (by simp) (by unfold Strand.setSlot; dsimp only; split <;> rfl)
    (by rw [Strand.slot_setSlot]; rfl) (by rw [Strand.slot_setSlot]; rfl) rfl

/-- The model's own fields stand beside a thread's writes. -/
theorem RegWrites.of_run {s u : State} {r : Run} {i : Iss} {ready : Nat} {ws : List (Nat × Word)} {fl : Nat}
    (h : RegWrites { s with run := r } u i ready ws fl) : RegWrites s u i ready ws fl := ⟨h.frame, h.others, h.lives, h.thread⟩

/-- What a vector result sets its thread to: a loop queue takes a new row; any other destination takes its lanes' values, and the
result enters the bypass (R30, R31, R160). -/
theorem putVec_eq (s : State) (i : Iss) {d : Nat} (tr : Bool) (act : Word) (lat cost : Nat) (f : Nat → Nat) (hd : isS d = false) :
    let t := s.th i.th
    let rg := t.rg.put (t.ps.clk + cost + lat) (dstWrites t d tr act (fun l => BitVec.ofNat 32 (f l)))
    (∃ lqs, putVec s i d tr act lat cost f = s.setTh i.th { t with rg := { rg with lqs := lqs } }) ∨
    ∃ r lanes vals, let u := unclean { t with rg := rg } d lanes
      putVec s i d tr act lat cost f = ({ s with run := r } : State).setTh i.th
        (u.setSlot i.k (pushByp (u.slot i.k) vals (t.ps.clk + cost + lat))) := by
  intro t rg
  unfold putVec
  by_cases hq : isLq d = true
  · simp only [rg, dstWrites, hd, hq, if_true, Bool.false_eq_true, if_false]
    exact .inl ⟨_, rfl⟩
  · simp only [rg, dstWrites, hd, hq, Bool.false_eq_true, if_false, Bool.or_eq_true, beq_iff_eq, decide_eq_true_eq]
    refine .inr ?_
    split
    · exact ⟨_, _, _, rfl⟩
    · exact ⟨s.run, _, _, rfl⟩

/-- A vector result is written to its destination's cells (R29, R30, R38, R160). -/
theorem putVec_writes (s : State) (i : Iss) {d : Nat} (tr : Bool) (act : Word) (lat cost : Nat) (f : Nat → Nat) (hd : isS d = false) :
    RegWrites s (putVec s i d tr act lat cost f) i ((s.th i.th).ps.clk + cost + lat)
      (dstWrites (s.th i.th) d tr act (fun l => BitVec.ofNat 32 (f l))) 0 := by
  have hn := dstWrites_nodup (s.th i.th) d tr act (fun l => BitVec.ofNat 32 (f l))
  rcases putVec_eq s i tr act lat cost f hd with ⟨lqs, h⟩ | ⟨r, lanes, vals, h⟩
  · rw [h]
    exact .of_setTh (.put_lqs _ _ _ hn lqs)
  · rw [h]
    exact RegWrites.of_run (.of_setTh ((StrandWrites.put_unclean _ _ _ hn d lanes).bypass vals _))

end Sys2Proof.Machine

namespace Sys2Proof.Machine

/-! ### The end of an instruction that writes registers -/

/-- An instruction that is not the last of its clause moves the clause's place and its thread's issue cycle, and no register (R38). -/
theorem finishInstr_inside {s : State} {th k z st : Nat} {c : Clause} (hl : (kget? s.ths th).isSome = true)
    (hc : ((s.th th).slot k).clause = some c) (hp : c.pos + z < c.body.length) :
    let v := (finishInstr s th k z st).th th
    (v.slot k).clause = some { c with pos := c.pos + z } ∧ (v.grp k).mask = ((s.th th).grp k).mask ∧
      v.ps.clk = (s.th th).ps.clk + 1 + st ∧ v.rg = (s.th th).rg := by
  unfold finishInstr
  simp only [hc, if_neg (Nat.not_le.mpr hp)]
  rw [State.th_modTh, if_pos ⟨rfl, hl⟩]
  unfold Strand.grp Strand.setSlot Strand.slot
  by_cases hk : k = 0 <;> simp [hk]

/-- An instruction whose body writes registers, and that then ends, leaves what the statements ask of a result: its cells, their
latency, its flags, its place and its frame. -/
theorem finish_resultW {s u : State} {i : Iss} {lat cost : Nat} {ws : List (Nat × Word)} {fl : Nat}
    (h : RegWrites s u i ((s.th i.th).ps.clk + cost + lat) ws fl) : ResultW s (finish u i cost) i lat cost ws fl := by
  have he : EndsWith u (finish u i cost) i.th := finishInstr_endsWith u i.th i.k i.size (i.st + cost)
  have inside : ∀ c, ((s.th i.th).slot i.k).clause = some c → c.pos + i.size < c.body.length → _ := fun c hc hp =>
    finishInstr_inside (st := i.st + cost) h.lives (h.thread.clause.trans hc) hp
  refine ⟨fun c => ?_, fun c hc hp w hw n => ?_, ?_, fun c hc hp => ?_, fun n hn => ?_, fun hp => ?_⟩
  · rw [← h.thread.final, Regs.final, (he.sameCells i.th).1]
    rfl
  · obtain ⟨-, -, -, hrg⟩ := inside c hc hp
    have hm : w.1 ∈ ws.map (·.1) := List.mem_map_of_mem hw
    rw [finish, hrg, h.thread.read]
    simp only [hm, true_and]
  · rw [(he.sameCells i.th).2, h.thread.flags]
  · obtain ⟨h1, h2, h3, -⟩ := inside c hc hp
    refine ⟨h1, h2.trans ?_, h3.trans ?_⟩
    · rw [Strand.grp, h.thread.grp]; rfl
    · rw [h.thread.clk]; omega
  · exact (he.others n hn).trans (h.others n hn)
  · have hm := he.pathMoves (by rw [h.thread.frame]; exact hp)
    refine ⟨SameButIssue.trans ?_ hm.issue, h.thread.frame.trans ?_⟩
    · rw [SameButIssue, h.frame]
    · rw [SameButRegs, hm.thread]

end Sys2Proof.Machine

namespace Sys2Proof.Machine

/-! ### Lane instructions at issue (R141) -/

/-- The thread of an instruction at issue exists. -/
theorem Ready.lives {s : State} {i : Iss} {srcs : List Opnd} {dsts : List Nat} {rd : Word → List Nat} (h : Ready s i srcs dsts rd) :
    (kget? s.ths i.th).isSome = true := by
  obtain ⟨-, t, ht, -⟩ := issuer_eq_some.mp h.issues
  rw [ht]
  rfl

theorem poppedState_th {s : State} {i : Iss} (srcs : List Opnd) (h : (kget? s.ths i.th).isSome = true) :
    (poppedState s i srcs).th i.th = popped s i srcs := by
  rw [poppedState, State.th_modTh, if_pos ⟨rfl, h⟩, popped]

/-- A lane instruction that no check stops answers a next state; where its body writes registers, that state is its result. -/
theorem lanesOp_resultW {s : State} {x : LForm} {th k : Nat} {srcs : List Opnd} {dsts : List Nat} {rd : Word → List Nat}
    {body : State → Iss → Given → State} {lat : Nat} {ws : List (Nat × Word)} {fl : Nat} (hr : Ready s (issL x th k) srcs dsts rd)
    (hb : let i := issL x th k
      RegWrites (poppedState s i srcs) (body (poppedState s i srcs) i (given s i srcs)) i
        ((s.th i.th).ps.clk + (given s i srcs).cost + lat) ws fl) :
    ∃ t, lanesOp s x srcs dsts rd body = .next t ∧ ResultW s t (issL x th k) lat (given s (issL x th k) srcs).cost ws fl := by
  refine ⟨_, ?_, finish_resultW (u := body (poppedState s (issL x th k) srcs) (issL x th k) (given s (issL x th k) srcs)) ?_⟩
  · rw [lanesOp, withIssuer_of_issuer hr.issues]
    exact congrArg _ (operate_of_ready _ hr.reads)
  · have hp : RegWrites s (poppedState s (issL x th k) srcs) (issL x th k)
        ((s.th (issL x th k).th).ps.clk + (given s (issL x th k) srcs).cost + lat) [] 0 := .of_modTh hr.lives (popQueues_writes _ _ _ _)
    simpa using hp.trans hb

/-- The body of a lane instruction that writes one vector result in some lanes and raises some flags. -/
theorem lanesOp_putVec {s : State} {x : LForm} {th k : Nat} {srcs : List Opnd} {dsts : List Nat} {rd : Word → List Nat}
    (hd : isS x.d.toNat = false) (hr : Ready s (issL x th k) srcs dsts rd) (act : Word) (lat : Nat) (f : Nat → Nat) (fl : Nat) :
    let i := issL x th k
    RegWrites (poppedState s i srcs)
      (raiseFp (putVec (poppedState s i srcs) i x.d.toNat x.tr act lat (given s i srcs).cost f) i.th fl) i
      ((s.th i.th).ps.clk + (given s i srcs).cost + lat)
      (dstWrites (popped s i srcs) x.d.toNat x.tr act (fun l => BitVec.ofNat 32 (f l))) (fl % 32) := by
  intro i
  have hw := putVec_writes (poppedState s i srcs) i x.tr act lat (given s i srcs).cost f hd
  rw [poppedState_th srcs hr.lives] at hw
  have hf := hw.trans (raiseFp_writes i _ fl hw.lives)
  rw [List.nil_append, Nat.zero_or] at hf
  exact hf

/-! ### Source values -/

/-- An integer or FP32 constant is a word. -/
theorem constVal_lt {ty : OTy} (ht : ty = .w32 ∨ ty = .f32) {n : Nat} (hn : 480 ≤ n) (hm : n < 504) : constVal ty n < 2 ^ 32 := by
  have h : ∀ n ∈ List.range 504, 480 ≤ n → constVal .w32 n < 2 ^ 32 ∧ constVal .f32 n < 2 ^ 32 := by decide +kernel
  obtain ⟨h1, h2⟩ := h n (List.mem_range.mpr hm) hn
  rcases ht with rfl | rfl
  · exact h1
  · exact h2

/-- A 32-bit source of an integer or FP32 type is a word in every lane. -/
theorem srcWord_lt (t : Strand) (k clk : Nat) (lit : Word) {ty : OTy} (spec : Nat) {l : Nat} (hl : l < 32) (ht : ty = .w32 ∨ ty = .f32) :
    srcWord t k clk lit ty spec l < 2 ^ 32 := by
  have hw : ∀ w : Word, w.toNat < 2 ^ 32 := fun w => w.isLt
  have hc : 480 ≤ spec → spec < 504 → constVal ty spec < 2 ^ 32 := constVal_lt ht
  have hlit : litVal ty lit < 2 ^ 32 := by rcases ht with rfl | rfl <;> exact hw lit
  have hm : ∀ m, m % 2 ^ 32 < 2 ^ 32 := fun m => Nat.mod_lt _ (by decide)
  have h0 : 32 < 2 ^ 32 := by decide
  unfold srcWord
  dsimp only
  generalize 2 ^ 32 = B at *
  have hz : 0 < B := by omega
  refine iteInduction (motive := (· < B)) (fun _ => ?_) fun h1 => ?_
  · cases regCell t spec l with
    | none => exact hz
    | some c => exact hw _
  refine iteInduction (motive := (· < B)) (fun _ => hw _) fun h2 => ?_
  refine iteInduction (motive := (· < B)) (fun _ => ?_) fun h3 => ?_
  · cases t.fqs.getD (spec - 464) [] with
    | nil => exact hz
    | cons r _ => exact hw _
  refine iteInduction (motive := (· < B)) (fun _ => ?_) fun h4 => ?_
  · cases (t.slot k).byp[spec - 472]? with
    | none => exact hz
    | some b => exact iteInduction (motive := (· < B)) (fun _ => hw _) fun _ => hz
  refine iteInduction (motive := (· < B)) (fun _ => by omega) fun h5 => ?_
  refine iteInduction (motive := (· < B)) (fun _ => hm _) fun h6 => ?_
  refine iteInduction (motive := (· < B)) (fun _ => hm _) fun h7 => ?_
  refine iteInduction (motive := (· < B)) (fun _ => hw _) fun h8 => ?_
  refine iteInduction (motive := (· < B)) (fun _ => by omega) fun h9 => ?_
  refine iteInduction (motive := (· < B)) (fun h => hc ?_ h) fun _ => ?_
  · simp only [isFGS, isLq, isFq, isByp, Bool.and_eq_true, decide_eq_true_eq] at h1 h2 h3 h4
    omega
  refine iteInduction (motive := (· < B)) (fun _ => ?_) fun _ => hlit
  exact iteInduction (motive := (· < B)) (fun _ => by omega) fun _ => hw _

/-- A source of one register is a word in every lane, where its type is an integer's or FP32. -/
theorem srcVal_lt (t : Strand) (k clk : Nat) (lit : Word) {o : Opnd} {l : Nat} (hl : l < 32) (hr : o.regs = 1)
    (ht : o.ty = .w32 ∨ o.ty = .f32) : srcVal t k clk lit o l < 2 ^ 32 := by
  have hw := srcWord_lt t k clk lit o.spec hl ht
  unfold srcVal
  rw [hr]
  split
  · simpa using hw
  · exact hw

end Sys2Proof.Machine

namespace Sys2Proof.Machine

/-! ### Steps of a reduction (R145, Table 8-4) -/

/-- A value rounded to FP32 is a word. -/
theorem roundTo_fp32_lt (rm rnd : Nat) (v : FV) : (roundTo fp32 rm rnd v).1 < 2 ^ 32 := by
  have sign : ∀ (neg : Bool) (c : Nat), c < 2 ^ 31 → (if neg then 2 ^ (fp32.w - 1) + c else c) < 2 ^ 32 := by
    intro neg c hc
    cases neg <;> simp [fp32] <;> omega
  have hmax : maxCode fp32 + 1 < 2 ^ 31 := by decide
  cases v with
  | nan => exact (by decide : canonNaN fp32 < 2 ^ 32)
  | inf neg => exact sign neg _ hmax
  | fin neg m e =>
    unfold roundTo
    simp only [show fp32.isInt = false from rfl, Bool.false_eq_true, if_false]
    split
    · exact sign neg 0 (by decide)
    · split
      · refine sign neg _ ?_
        split <;> omega
      · exact sign neg _ (by omega)

/-- The minimum or maximum of two FP32 codes is a word. -/
theorem minmaxF_fp32_lt (mx : Bool) {a b : Nat} (ha : a < 2 ^ 32) (hb : b < 2 ^ 32) : minmaxF fp32 mx a b < 2 ^ 32 := by
  unfold minmaxF
  split
  · decide
  · exact hb
  · exact ha
  · exact iteInduction (motive := (· < 2 ^ 32)) (fun _ => ha) fun _ => hb

/-- A step of a reduction on words, with the flags so far. -/
def wordStep (op : Nat) (r : Word × Nat) (v : Word) : Word × Nat :=
  if op < 8 then (intStep op r.1 v, r.2)
  else if op = 8 then
    let q := sumFV 0 [decodeF fp32 r.1.toNat, decodeF fp32 v.toNat]
    (BitVec.ofNat 32 (roundTo fp32 0 0 q.1).1, r.2 ||| (roundTo fp32 0 0 q.1).2 ||| q.2)
  else (BitVec.ofNat 32 (minmaxF fp32 (op == 10) r.1.toNat v.toNat), r.2)

/-- A reduction of words is a fold of its steps from its identity on. -/
theorem reduced_eq_foldl (op : Nat) (vs : List Word) : reduced op vs = vs.foldl (wordStep op) (stepStart op, 0) := by
  have fst : ∀ (g : Word → Word → Word) (a : Word) (fl : Nat),
      vs.foldl (fun r v => (g r.1 v, r.2)) (a, fl) = (vs.foldl g a, fl) := by
    intro g
    induction vs with
    | nil => intro a fl; rfl
    | cons v vs ih => intro a fl; exact ih _ _
  unfold reduced
  split
  · have h : wordStep op = fun r v => (intStep op r.1 v, r.2) := by funext r v; exact if_pos ‹op < 8›
    rw [h, fst]
  · split
    · subst op
      rfl
    · have h : wordStep op = fun r v => (BitVec.ofNat 32 (minmaxF fp32 (op == 10) r.1.toNat v.toNat), r.2) := by
        funext r v
        rw [wordStep, if_neg ‹¬ op < 8›, if_neg ‹¬ op = 8›]
      rw [h, fst (fun r v => BitVec.ofNat 32 (minmaxF fp32 (op == 10) r.toNat v.toNat))]

/-- The signed value of a word. -/
theorem sextN_toNat (a : Word) : sextN a.toNat 32 = a.toInt := by
  have := a.isLt
  unfold sextN
  rw [BitVec.toInt_eq_toNat_cond, Nat.mod_eq_of_lt this]
  split <;> split <;> omega

/-- An integer step on words that are read as numbers is the step on words, and raises no flag. -/
theorem redStep_int {op : Nat} (hop : op < 8) (a v : Word) : redStep op a.toNat v.toNat = ((intStep op a v).toNat, 0) := by
  match op, hop with
  | 0, _ => exact congrArg (·, 0) (BitVec.toNat_add a v).symm
  | 1, _ =>
    simp only [redStep, intStep, minV, sextN_toNat, BitVec.sle, decide_eq_true_eq]
    split <;> rfl
  | 2, _ =>
    simp only [redStep, intStep, maxV, sextN_toNat, BitVec.sle, decide_eq_true_eq]
    split <;> rfl
  | 3, _ =>
    simp only [redStep, intStep, BitVec.ule, decide_eq_true_eq]
    split
    · exact congrArg (·, 0) (Nat.min_eq_left ‹_›)
    · exact congrArg (·, 0) (Nat.min_eq_right (Nat.le_of_not_le ‹_›))
  | 4, _ =>
    simp only [redStep, intStep, BitVec.ule, decide_eq_true_eq]
    split
    · exact congrArg (·, 0) (Nat.max_eq_right ‹_›)
    · exact congrArg (·, 0) (Nat.max_eq_left (Nat.le_of_not_le ‹_›))
  | 5, _ => exact congrArg (·, 0) (BitVec.toNat_and a v).symm
  | 6, _ => exact congrArg (·, 0) (BitVec.toNat_or a v).symm
  | 7, _ => exact congrArg (·, 0) (BitVec.toNat_xor a v).symm

/-- The identity of a reduction is the same word in both tables (Table 8-4). -/
theorem redId_eq (op : Nat) : redId op = (stepStart op).toNat := by
  have h : ∀ op < 11, redId op = (stepStart op).toNat := by decide
  by_cases hop : op < 11
  · exact h op hop
  · unfold redId stepStart
    rw [List.getD_eq_getElem?_getD, List.getD_eq_getElem?_getD, List.getElem?_eq_none (Nat.le_of_not_lt hop),
      List.getElem?_eq_none (Nat.le_of_not_lt hop)]
    rfl

/-- A step on numbers that are words is a step on words (R145, Table 8-4). -/
theorem redStep_word {op : Nat} (hop : op ≤ 10) (a v : Word) (fl : Nat) :
    (redStep op a.toNat v.toNat).1 < 2 ^ 32 ∧
    (BitVec.ofNat 32 (redStep op a.toNat v.toNat).1, fl ||| (redStep op a.toNat v.toNat).2) = wordStep op (a, fl) v := by
  by_cases h : op < 8
  · rw [redStep_int h, wordStep, if_pos h]
    exact ⟨BitVec.isLt _, by simp⟩
  · obtain rfl | rfl | rfl : op = 8 ∨ op = 9 ∨ op = 10 := by omega
    · exact ⟨roundTo_fp32_lt _ _ _, by simp only [redStep, wordStep, Nat.or_assoc]; rfl⟩
    · exact ⟨minmaxF_fp32_lt _ a.isLt v.isLt, by simp [redStep, wordStep]⟩
    · exact ⟨minmaxF_fp32_lt _ a.isLt v.isLt, by simp [redStep, wordStep]⟩

/-- A reduction of numbers that are words is the reduction of the words, with its flags (R145). -/
theorem redAll_words {op : Nat} (hop : op ≤ 10) {vs : List Nat} (hv : ∀ v ∈ vs, v < 2 ^ 32) :
    (BitVec.ofNat 32 (redAll op vs).1, (redAll op vs).2) = reduced op (vs.map (BitVec.ofNat 32)) := by
  have fold : ∀ (a : Word) (fl : Nat), ∃ b : Word, ∃ fl',
      vs.foldl (fun r v => ((redStep op r.1 v).1, r.2 ||| (redStep op r.1 v).2)) (a.toNat, fl) = (b.toNat, fl') ∧
      (vs.map (BitVec.ofNat 32)).foldl (wordStep op) (a, fl) = (b, fl') := by
    induction vs with
    | nil => exact fun a fl => ⟨a, fl, rfl, rfl⟩
    | cons v vs ih =>
      intro a fl
      have hv' : (BitVec.ofNat 32 v).toNat = v := Nat.mod_eq_of_lt (hv v (by simp))
      obtain ⟨hlt, hstep⟩ := redStep_word hop a (BitVec.ofNat 32 v) fl
      rw [hv'] at hlt hstep
      obtain ⟨b, fl', h1, h2⟩ := ih (fun w hw => hv w (by simp [hw])) (BitVec.ofNat 32 (redStep op a.toNat v).1)
        (fl ||| (redStep op a.toNat v).2)
      rw [BitVec.toNat_ofNat, Nat.mod_eq_of_lt hlt] at h1
      exact ⟨b, fl', h1, by rw [List.map_cons, List.foldl_cons, ← hstep, h2]⟩
  obtain ⟨b, fl', h1, h2⟩ := fold (stepStart op) 0
  rw [redAll, redId_eq, h1, reduced_eq_foldl, h2]
  simp

end Sys2Proof.Machine

namespace Sys2Proof.Machine

/-! ### Tiles (R139, R140) -/

/-- The contributing lanes that the model lists for a lane's tile are those whose tile is the lane's. -/
theorem tileLanes_eq_tileMates (con : Word) {T : Nat} (hT : 0 < T) (l : Nat) : tileLanes con T (tileBase T l) = tileMates T con l := by
  unfold tileLanes tileMates lanesOf tileBase
  rw [List.filter_filter]
  refine List.filter_congr fun j _ => ?_
  have h : (l / T * T ≤ j ∧ j < l / T * T + T) ↔ j / T = l / T := by
    rw [Nat.div_eq_iff hT, Nat.mul_comm]
    omega
  rw [Bool.eq_iff_iff]
  simp [← h]

theorem tileOf_pos (s : State) (i : Iss) : 0 < tileOf s i := Nat.two_pow_pos _

theorem mem_tileMates {T : Nat} {con : Word} {l j : Nat} (h : j ∈ tileMates T con l) : j < 32 :=
  List.mem_range.mp (List.mem_filter.mp h).1

/-! ### Well-formed reductions (R141) -/

/-- The limits of an L form hold of its destination and its modifier. -/
theorem LForm.chk_dst {kd : CodeKind} {x : LForm} {d a b c : FieldRule} {tOk ruOk k0 md : Bool}
    (h : x.chk kd d a b c tOk ruOk k0 md = true) : d.ok x.d.toNat = true ∧ md = true := by
  simp only [LForm.chk, LForm.chkLit, Bool.and_eq_true] at h
  simp [h]

/-- A vector destination is no scalar register. -/
theorem isS_of_dstV {d : Nat} (h : dstV d = true) : isS d = false := by
  simp only [dstV, isFG, isLq, Bool.or_eq_true, Bool.and_eq_true, decide_eq_true_eq, beq_iff_eq] at h
  simp only [isS, Bool.and_eq_false_iff, decide_eq_false_iff_not]
  omega

/-- The fields of a well-formed instruction keep their limits in some kind of code. -/
theorem wfParts_of_wf {i : Instr} (h : i.wf = true) : ∃ kd, wfParts kd i.parts = true := by
  simp only [Instr.wf, Instr.wfIn, Bool.or_eq_true, Bool.and_eq_true] at h
  obtain ((h | h) | h) | h := h <;> exact ⟨_, h.2⟩

/-- A well-formed `redux` has a vector destination and an operation of Table 8-4. -/
theorem wf_redux {x : LForm} (h : (Instr.redux x).wf = true) : isS x.d.toNat = false ∧ x.md.toNat % 16 ≤ 10 := by
  obtain ⟨kd, hk⟩ := wfParts_of_wf h
  obtain ⟨hd, hm⟩ := LForm.chk_dst (show wfXln kd 2 x = true from hk)
  have := of_decide_eq_true hm
  exact ⟨isS_of_dstV hd, by omega⟩

/-- A well-formed `scan` has a vector destination and an operation of Table 8-4. -/
theorem wf_scan {x : LForm} (h : (Instr.scan x).wf = true) : isS x.d.toNat = false ∧ x.md.toNat % 16 ≤ 10 := by
  obtain ⟨kd, hk⟩ := wfParts_of_wf h
  obtain ⟨hd, hm⟩ := LForm.chk_dst (show wfXln kd 3 x = true from hk)
  exact ⟨isS_of_dstV hd, of_decide_eq_true hm⟩

/-! ### Reductions and scans (R145, R146) -/

/-- The reduction of some contributing lanes of a tile in the model is that of their words. -/
theorem redAll_tile (s : State) (i : Iss) (x : LForm) {op : Nat} (hop : op ≤ 10) (con : Word) (l : Nat) (p : Nat → Bool) :
    let m := redAll op (((tileLanes con (tileOf s i) (tileBase (tileOf s i) l)).filter p).map ((given s i [redSrc x]).v 0))
    reduced op (((tileMates (tileOf s i) con l).filter p).map (fun j => src32 s i [redSrc x] j 0)) = (BitVec.ofNat 32 m.1, m.2) := by
  intro m
  have hm : m = redAll op (((tileMates (tileOf s i) con l).filter p).map ((given s i [redSrc x]).v 0)) := by
    rw [← tileLanes_eq_tileMates con (tileOf_pos s i)]
  rw [hm, redAll_words hop, List.map_map]
  · rfl
  · intro v hv
    obtain ⟨j, hj, rfl⟩ := List.mem_map.mp hv
    refine srcVal_lt _ _ _ _ (mem_tileMates (List.mem_filter.mp hj).1) rfl ?_
    unfold redSrc
    split
    · exact .inr rfl
    · exact .inl rfl

/-- The model's contributing lanes are those of the statements; pops change neither helpers nor the partition. -/
theorem contrib_popped (s : State) {i : Iss} (srcs : List Opnd) (h : (kget? s.ths i.th).isSome = true) :
    contrib ((poppedState s i srcs).th i.th) (given s i srcs).act = contributing s i srcs ∧
      tileSize ((poppedState s i srcs).th i.th) = tileOf s i := by
  rw [poppedState_th srcs h]
  exact ⟨rfl, rfl⟩

/-- The meanings that `exec` gives the two instructions. -/
theorem exec_redux (x : LForm) (s : State) : exec (.redux x) s = execRedux x s := rfl
theorem exec_scan (x : LForm) (s : State) : exec (.scan x) s = execScan x s := rfl

/-- `redux` gives every active lane the reduction of its tile's contributing lanes, and raises its flags (R145, R146). -/
theorem execRedux_result : Completes .redux (fun x => [redSrc x]) (fun x => [x.d.toNat]) (fun _ _ _ => True) (fun s i x t =>
    let srcs := [redSrc x]
    let con := contributing s i srcs
    let r (l : Nat) := reduced (x.md.toNat % 16) ((tileMates (tileOf s i) con l).map (fun j => src32 s i srcs j 0))
    Result s t i srcs x.d.toNat x.tr 8 (fun l => (r l).1) ((lanesOf con).foldl (fun a l => a ||| (r l).2) 0 % 32)) := by
  intro s x th k hwf _ hr
  obtain ⟨hd, hop⟩ := wf_redux hwf
  obtain ⟨hcon, hT⟩ := contrib_popped s [redSrc x] hr.lives
  have all : ∀ ls : List Nat, ls.filter (fun _ => true) = ls := fun ls => List.filter_eq_self.mpr fun _ _ => rfl
  have key := fun l => redAll_tile s (issL x th k) x hop (contributing s (issL x th k) [redSrc x]) l (fun _ => true)
  simp only [all] at key
  rw [exec_redux, execRedux]
  refine lanesOp_resultW hr ?_
  dsimp only
  rw [hcon, hT]
  simp only [key]
  exact lanesOp_putVec hd hr _ 8 _ _

/-- `scan` gives every contributing lane the reduction of its tile's contributing lanes up to it (R145, R146). -/
theorem execScan_result : Completes .scan (fun x => [redSrc x]) (fun x => [x.d.toNat]) (fun _ _ _ => True) (fun s i x t =>
    let srcs := [redSrc x]
    let con := contributing s i srcs
    let upTo (l : Nat) (own : Bool) := reduced (x.md.toNat % 16)
      (((tileMates (tileOf s i) con l).filter (fun j => j < l || (own && j == l))).map (fun j => src32 s i srcs j 0))
    ResultW s t i 8 (given s i srcs).cost
      (dstWrites (popped s i srcs) x.d.toNat x.tr con (fun l => (upTo l (x.md.toNat / 16 != 1)).1))
      ((lanesOf con).foldl (fun a l => a ||| (upTo l true).2) 0 % 32)) := by
  intro s x th k hwf _ hr
  obtain ⟨hd, hop⟩ := wf_scan hwf
  obtain ⟨hcon, hT⟩ := contrib_popped s [redSrc x] hr.lives
  rw [exec_scan, execScan]
  refine lanesOp_resultW hr ?_
  dsimp only
  rw [hcon, hT]
  simp only [redAll_tile s (issL x th k) x hop]
  exact lanesOp_putVec hd hr _ 8 _ _

/-- Settles O13: the model folds each tile's contributing lanes in ascending position, and a step on its numbers is the step on words. -/
theorem laneReductions : Obligations.LaneReductions := ⟨execRedux_result, execScan_result⟩

end Sys2Proof.Machine

namespace Sys2Proof.Machine

/-! ### Two statements fail on a ring that no strand has

R104 bounds a strand's ring by 256 plies, and the cell of a ring register then lies below those of the g, s and k registers.
The statements ask no such bound of a state. On a ring of 2,048 plies f1 of a lane whose frame begins at ply 1,024 has the cell of the lane's
bit of k1, and an instruction that writes both leaves there the bit, which it writes last, and not the value that the statements list
first. -/

/-- A strand on a ring of 2,048 plies, each lane's frame at ply 1,024, at issue in a clause of its own. -/
def wideRing : State :=
  { ths := [(0,
      { ps := { s0 := { grp := some { mask := 0xFFFFFFFF }, clause := some { hdr := 0, word := 3, body := [0, 0, 0x40, 0x40] } }
                issuing := some 0 }
        rg := { q := 2048, frames := List.replicate 32 { base := 1024, lo := 1024, size := 1 } } })]
    run := { cur := some 0 } }

/-- An L form that writes f1 and k1. -/
def intoF1K1 (a b c : Spec) (mode : BitVec 5) : LForm :=
  { st := 0, d := 1, a := a, b := b, c := c, gk := 0, gneg := false, tr := false, ru := false, md := mode, lit := none }

/-- `lxch.at f1, 0, 0, k1`: every lane takes the value 0 of lane 0, which contributes. -/
def lxchF1K1 : LForm := intoF1K1 480 480 0 1

/-- `isect f1, k1, s0, %lane, %lane`: lane 0 has the match of positions 0 and 0. -/
def isectF1K1 : LForm := intoF1K1 475 475 384 1

/-- What a cell of thread 0 finally holds in the state that an instruction answers. -/
def finalAfter (i : Instr) (s : State) (c : Nat) : Option Word :=
  match exec i s with
  | .next t => some ((t.th 0).rg.final c)
  | _ => none

theorem finalAfter_next {i : Instr} {s t : State} (h : exec i s = .next t) (c : Nat) : finalAfter i s c = some ((t.th 0).rg.final c) := by
  simp [finalAfter, h]

/-- A statement that lists another value for a cell than the model leaves there fails. -/
theorem not_wrote {i : Instr} {s t : State} {c : Nat} {v w : Word} {ws : List (Nat × Word)} (h : exec i s = .next t)
    (hv : finalAfter i s c = some v) (hw : ws.lookup c = some w) (hne : v ≠ w) : ¬ Wrote s t 0 ws := by
  intro hall
  have e := hall c
  rw [finalAfter_next h] at hv
  rw [hw, Option.some.inj hv] at e
  exact hne e

/-- An instruction of those two is well formed and ready in that state. -/
theorem wideRing_ready {srcs : List Opnd} {dsts : List Nat} {x : LForm}
    (h : (issuer wideRing == some (0, 0) && (operandStop wideRing (issL x 0 0) srcs dsts readActive).isNone) = true) :
    Ready wideRing (issL x 0 0) srcs dsts readActive := by
  simp only [Bool.and_eq_true, beq_iff_eq, Option.isNone_iff_eq_none] at h
  exact ⟨h.1, h.2⟩

/-- Refutes O12: `lxch f1, k1` on a ring of more than 1,024 plies, where f1 has the cell of k1 (R104 allows no such ring). -/
theorem not_laneAndQuadExchanges : ¬ Obligations.LaneAndQuadExchanges := by
  unfold Obligations.LaneAndQuadExchanges
  rintro ⟨⟨hlxch, -⟩, -⟩
  obtain ⟨t, ht, hw, -⟩ := hlxch wideRing lxchF1K1 0 0 (by decide) trivial (wideRing_ready (by decide +kernel))
  exact not_wrote (c := kCell 1 0) (v := 1) (w := 0) ht (by decide +kernel) (by decide +kernel) (by decide) hw

/-- Refutes O14: `isect f1, k1` on a ring of more than 1,024 plies, where f1 has the cell of k1 (R104 allows no such ring). -/
theorem not_packingAndIntersection : ¬ Obligations.PackingAndIntersection := by
  unfold Obligations.PackingAndIntersection
  rintro ⟨⟨-, -, hisect, -⟩, -⟩
  obtain ⟨t, ht, hw, -⟩ := hisect wideRing isectF1K1 0 0 (by decide) trivial (wideRing_ready (by decide +kernel))
  exact not_wrote (c := kCell 1 0) (v := 1) (w := 0) ht (by decide +kernel) (by decide +kernel) (by decide) hw

end Sys2Proof.Machine

namespace Sys2Proof.Machine

/-! ### Source values of every type (Table 2-9, R32, R199) -/

/-- A constant is a word in every type. -/
theorem constVal_lt_word (ty : OTy) {n : Nat} (hn : n < 504) : constVal ty n < 2 ^ 32 := by
  have h : ∀ m ∈ List.range 504, ∀ ty ∈ [OTy.w32, .f32, .f16, .bf16, .s64, .b64], constVal ty m < 2 ^ 32 := by decide +kernel
  exact h n (List.mem_range.mpr hn) ty (by cases ty <;> simp)

/-- The literal is a 64-bit value in every type, and a word in every type but `.s64` (R32). -/
theorem litVal_lt (ty : OTy) (lit : Word) : litVal ty lit < 2 ^ 64 ∧ (ty ≠ .s64 → litVal ty lit < 2 ^ 32) := by
  cases ty with
  | s64 => exact ⟨(lit.signExtend 64).isLt, fun h => absurd rfl h⟩
  | _ => exact ⟨Nat.lt_trans lit.isLt (by decide), fun _ => lit.isLt⟩

/-- Two choices by the same condition stand in a reflexive relation where their last branches do. -/
theorem rel_ite {P : Nat → Nat → Prop} (hP : ∀ a, P a a) {c : Prop} [Decidable c] {a b b' : Nat} (h : ¬c → P b b') :
    P (if c then a else b) (if c then a else b') := by
  split
  · exact hP a
  · exact h ‹_›

/-- What a source reads as by its type, given what it reads as in an integer instruction: the type decides a constant and the literal
alone. -/
def TypedRead (lit : Word) (ty : OTy) (spec v w : Nat) : Prop :=
  v = w ∨ (spec < 504 ∧ v = constVal ty spec) ∨ (504 ≤ spec ∧ v = litVal ty lit)

theorem srcWord_typed (t : Strand) (k clk : Nat) (lit : Word) (ty : OTy) (spec l : Nat) :
    TypedRead lit ty spec (srcWord t k clk lit ty spec l) (srcWord t k clk lit .w32 spec l) := by
  have hP : ∀ a, TypedRead lit ty spec a a := fun a => .inl rfl
  unfold srcWord
  dsimp only
  iterate 9 refine rel_ite hP fun _ => ?_
  by_cases hs : spec < 504
  · rw [if_pos hs]
    exact .inr (.inl ⟨hs, rfl⟩)
  · rw [if_neg hs, if_neg hs]
    exact rel_ite hP fun _ => .inr (.inr ⟨by omega, rfl⟩)

/-- A source that is no literal is a word in a lane, whatever its type; a literal is one where the type is not `.s64`. -/
theorem srcWord_lt_word (t : Strand) (k clk : Nat) (lit : Word) {ty : OTy} {spec l : Nat} (hl : l < 32) (h : spec < 504 ∨ ty ≠ .s64) :
    srcWord t k clk lit ty spec l < 2 ^ 32 := by
  rcases srcWord_typed t k clk lit ty spec l with e | ⟨hs, e⟩ | ⟨hs, e⟩
  · exact lt_of_eq_of_lt e (srcWord_lt t k clk lit spec hl (.inl rfl))
  · exact lt_of_eq_of_lt e (constVal_lt_word ty hs)
  · exact lt_of_eq_of_lt e ((litVal_lt ty lit).2 (h.resolve_left (by omega)))

/-- A source of one register is a word in every lane, where its type is not `.s64`. -/
theorem srcVal_lt_word (t : Strand) (k clk : Nat) (lit : Word) {o : Opnd} {l : Nat} (hl : l < 32) (hr : o.regs = 1) (ht : o.ty ≠ .s64) :
    srcVal t k clk lit o l < 2 ^ 32 := by
  have hw : srcWord t k clk lit o.ty o.spec l < 2 ^ 32 := srcWord_lt_word t k clk lit hl (.inr ht)
  unfold srcVal
  rw [hr]
  split
  · simpa using hw
  · exact hw

/-- Two words make a 64-bit value, low word first. -/
theorem word_pair_lt {a b : Nat} (ha : a < 2 ^ 32) (hb : b < 2 ^ 32) : a + b * 2 ^ 32 < 2 ^ 64 := by omega

/-- The digits of a pair, lowest first. -/
theorem sum_pair (w : Nat → Nat) (b : Nat) : ((List.range 2).map (fun j => w j * b ^ (32 * j))).foldl (· + ·) 0 = w 0 + w 1 * b ^ 32 := by
  simp [List.range_succ]

/-- A source of a register or a pair is a 64-bit value in every lane (R199). -/
theorem srcVal_lt_dword (t : Strand) (k clk : Nat) (lit : Word) {o : Opnd} {l : Nat} (hl : l < 32) (hr : o.regs = 1 ∨ o.regs = 2) :
    srcVal t k clk lit o l < 2 ^ 64 := by
  have dword : ∀ {v : Nat}, v < 2 ^ 32 → v < 2 ^ 64 := fun h => Nat.lt_trans h (Nat.pow_lt_pow_right (by omega) (by omega))
  unfold srcVal
  split
  · have hspec : o.spec < 448 := of_decide_eq_true ‹_›
    have word : ∀ j, j ≤ 1 → srcWord t k clk lit o.ty (o.spec + j) l < 2 ^ 32 := fun j hj =>
      srcWord_lt_word t k clk lit hl (.inl (by omega))
    rcases hr with hr | hr
    · rw [hr]
      simpa using dword (word 0 (by omega))
    · rw [hr, sum_pair]
      exact word_pair_lt (word 0 (by omega)) (word 1 (by omega))
  · rcases srcWord_typed t k clk lit o.ty o.spec l with e | ⟨hs, e⟩ | ⟨-, e⟩
    · exact lt_of_eq_of_lt e (dword (srcWord_lt t k clk lit o.spec hl (.inl rfl)))
    · exact lt_of_eq_of_lt e (dword (constVal_lt_word o.ty hs))
    · exact lt_of_eq_of_lt e (litVal_lt o.ty lit).1

end Sys2Proof.Machine

namespace Sys2Proof.Machine

/-! ### What an instruction reads, as words (R199) -/

/-- Sources whose values are words: one register each, and no literal extended to 64 bits. -/
def Narrow (srcs : List Opnd) : Prop := ∀ o ∈ srcs, o.regs = 1 ∧ o.ty ≠ .s64

/-- Sources whose values are 64-bit: a register or a pair each. -/
def Paired (srcs : List Opnd) : Prop := ∀ o ∈ srcs, o.regs = 1 ∨ o.regs = 2

/-- What an instruction reads has a property that 0 and each of its sources have. -/
theorem given_of_srcs {s : State} {i : Iss} {srcs : List Opnd} {P : Nat → Prop} (h0 : P 0) {l : Nat}
    (h : ∀ o ∈ srcs, P (srcVal (s.th i.th) i.k (issueClk (s.th i.th) srcs) i.lit o l)) (n : Nat) : P ((given s i srcs).v n l) := by
  unfold given
  dsimp only
  split
  · exact h _ (List.mem_of_getElem? ‹_›)
  · exact h0

/-- Each source that is a word is read as the word of the statements. -/
theorem given_word (s : State) (i : Iss) {srcs : List Opnd} (h : Narrow srcs) {l : Nat} (hl : l < 32) :
    (fun n => (given s i srcs).v n l) = fun n => (src32 s i srcs l n).toNat := by
  funext n
  refine (Nat.mod_eq_of_lt ?_).symm
  exact given_of_srcs (P := (· < 2 ^ 32)) (Nat.two_pow_pos _) (fun o ho => srcVal_lt_word _ _ _ _ hl (h o ho).1 (h o ho).2) n

/-- Each source of at most a pair is read as the 64-bit value of the statements. -/
theorem given_dword (s : State) (i : Iss) {srcs : List Opnd} (h : Paired srcs) {l : Nat} (hl : l < 32) :
    (fun n => (given s i srcs).v n l) = fun n => (src64 s i srcs l n).toNat := by
  funext n
  refine (Nat.mod_eq_of_lt ?_).symm
  exact given_of_srcs (P := (· < 2 ^ 64)) (Nat.two_pow_pos _) (fun o ho => srcVal_lt_dword _ _ _ _ hl (h o ho)) n

/-! ### Results of one or two registers -/

/-- The cells of a result depend on its values in the 32 lanes alone. -/
theorem laneWrites_congr (u : Strand) (d : Nat) (act : Word) {f g : Nat → Word} (h : ∀ l < 32, f l = g l) :
    laneWrites u d act f = laneWrites u d act g := by
  unfold laneWrites
  rw [List.flatMap_def, List.flatMap_def]
  refine congrArg List.flatten (List.map_congr_left fun l hl => ?_)
  rw [h l (mem_lanesOf.mp hl).1]

theorem dstWrites_congr (u : Strand) (d : Nat) (tr : Bool) (act : Word) {f g : Nat → Word} (h : ∀ l < 32, f l = g l) :
    dstWrites u d tr act f = dstWrites u d tr act g := by
  unfold dstWrites
  rw [h 0 (by omega), laneWrites_congr u d act h]
  dsimp only
  congr 2
  refine List.map_congr_left fun l hl => ?_
  rw [h l (List.mem_range.mp hl)]

theorem pairWrites_congr (u : Strand) (d : Nat) (act : Word) {f g : Nat → DWord} (h : ∀ l < 32, f l = g l) :
    pairWrites u d act f = pairWrites u d act g := by
  unfold pairWrites
  dsimp only
  rw [h 0 (by omega), dstWrites_congr u d false act (fun l hl => by rw [h l hl] : ∀ l < 32, (f l).setWidth 32 = (g l).setWidth 32),
    laneWrites_congr u (d + 1) act (fun l hl => by rw [h l hl] : ∀ l < 32, (f l >>> 32).setWidth 32 = (g l >>> 32).setWidth 32)]

/-- The flags of a result depend on those of the 32 lanes alone. -/
theorem laneFlags_congr (t : Strand) (d : Nat) (act : Word) {f g : Nat → Nat} (h : ∀ l < 32, f l = g l) :
    laneFlags t d act f = laneFlags t d act g := by
  unfold laneFlags
  rw [h 0 (by omega)]
  congr 1
  refine List.foldl_rel (r := (· = ·)) rfl fun l hl a b hab => ?_
  rw [h l (mem_lanesOf.mp hl).1, hab]

/-- A scalar result is written to its cell (R37, R38). -/
theorem putScalar_writes (s : State) (i : Iss) (d lat cost v : Nat) :
    RegWrites s (putScalar s i d lat cost v) i ((s.th i.th).ps.clk + cost + lat) [(sCell (d - 384), BitVec.ofNat 32 v)] 0 :=
  .of_setTh (.of_put _ _ _ (by simp))

/-- A 32-bit result is written to its destination's cells (R29, R37, R160). -/
theorem putDst_writes (s : State) (i : Iss) (d : Nat) (tr : Bool) (act : Word) (lat cost : Nat) (f : Nat → Nat) :
    RegWrites s (putDst s i d tr act lat cost f) i ((s.th i.th).ps.clk + cost + lat)
      (dstWrites (s.th i.th) d tr act (fun l => BitVec.ofNat 32 (f l))) 0 := by
  unfold putDst
  by_cases hd : isS d = true
  · rw [if_pos hd, dstWrites, if_pos hd]
    exact putScalar_writes s i d lat cost (f 0)
  · rw [if_neg hd]
    exact putVec_writes s i tr act lat cost f (by simpa using hd)

/-- The second register of a vector pair is written to its lanes' cells (R199). -/
theorem putHigh_writes (s : State) (i : Iss) {d : Nat} (act : Word) (lat cost : Nat) (f : Nat → Nat) (hd : isS (d + 1) = false) :
    RegWrites s (putHigh s i d act lat cost f) i ((s.th i.th).ps.clk + cost + lat)
      (laneWrites (s.th i.th) (d + 1) act (fun l => BitVec.ofNat 32 (f l))) 0 :=
  .of_setTh (.put_unclean _ _ _ (laneWrites_nodup _ _ _ hd) _ _)

/-- The same writes in another order, where no cell is written twice. -/
theorem RegWrites.swap {s u : State} {i : Iss} {ready : Nat} {ws ws' : List (Nat × Word)} {fl : Nat}
    (h : RegWrites s u i ready (ws' ++ ws) fl) (hd : ∀ c ∈ ws.map (·.1), c ∉ ws'.map (·.1)) : RegWrites s u i ready (ws ++ ws') fl where
  frame := h.frame
  others := h.others
  lives := h.lives
  thread :=
    { h.thread with
      final := fun c => by
        rw [h.thread.final, List.lookup_append, List.lookup_append]
        by_cases hc : c ∈ ws.map (·.1)
        · have hn : ws'.lookup c = none := List.lookup_eq_none_iff.mpr fun p hp =>
            bne_iff_ne.mpr fun e => hd c hc (e ▸ List.mem_map_of_mem hp)
          simp [hn]
        · have hn : ws.lookup c = none := List.lookup_eq_none_iff.mpr fun p hp =>
            bne_iff_ne.mpr fun e => hc (e ▸ List.mem_map_of_mem hp)
          simp [hn]
      read := fun n c => by
        rw [h.thread.read]
        simp only [List.map_append, List.mem_append, or_comm] }

end Sys2Proof.Machine

namespace Sys2Proof.Machine

/-- A register's cell depends on the frame words, the ring and the number of loop queues alone (R103, R104, R156). -/
theorem regCell_congr {t u : Strand} (hf : u.rg.frames = t.rg.frames) (hq : u.rg.q = t.rg.q) (hl : u.rg.lqs = t.rg.lqs) :
    regCell u = regCell t := by
  funext d l
  unfold regCell fCell vrCell Regs.qf Strand.frame
  rw [hf, hq, hl]

/-- Results in flight change a register file's cells and what has still to land in them. -/
theorem Regs.put_frame (r : Regs) (ready : Nat) (ws : List (Nat × Word)) :
    r.put ready ws = { r with cells := (r.put ready ws).cells, pend := (r.put ready ws).pend } := by
  unfold Regs.put
  induction ws generalizing r with
  | nil => rfl
  | cons w ws ih => rw [List.foldl_cons, ih]

/-- A vector result that is no loop queue's row moves no register to another cell. -/
theorem putVec_regCell (s : State) (i : Iss) {d : Nat} (tr : Bool) (act : Word) (lat cost : Nat) (f : Nat → Nat) (hq : isLq d = false) :
    regCell ((putVec s i d tr act lat cost f).th i.th) = regCell (s.th i.th) := by
  have key : ∀ ws lanes k v, let u := unclean { s.th i.th with rg := (s.th i.th).rg.put ((s.th i.th).ps.clk + cost + lat) ws } d lanes
      regCell (u.setSlot k v) = regCell (s.th i.th) := by
    intro ws lanes k v
    refine regCell_congr ?_ ?_ ?_ <;> rw [Strand.setSlot_rg] <;> unfold unclean <;> split <;> rw [Regs.put_frame]
  unfold putVec
  simp only [hq, Bool.false_eq_true, if_false]
  rw [State.th_setTh, if_pos rfl]
  split <;> exact key _ _ _ _

/-- A vector register's number stands in its cells, modulo the eight registers of a ply (R102, R104). -/
theorem regCell_row {t : Strand} {d l c : Nat} (hd : isS d = false) (hl : l < 32) (h : regCell t d l = some c) : c / 32 % 8 = d % 8 := by
  unfold regCell at h
  split at h
  · simp only [fCell, Option.ite_none_left_eq_some, Option.some.injEq] at h
    obtain ⟨-, rfl⟩ := h
    unfold vrCell ringCell
    omega
  · split at h
    · have hg : 320 ≤ d := by
        simp only [isG, Bool.and_eq_true, decide_eq_true_eq] at *
        omega
      rw [← Option.some.inj h]
      unfold gCell
      omega
    · rw [hd] at h
      cases h

/-- An even specifier of a pair and the next one are of the same kind, neither a loop queue (R28). -/
theorem isPair_kinds {d : Nat} (h : isPair d = true) : isLq d = false ∧ d ≠ 479 ∧ isS (d + 1) = isS d := by
  simp only [isPair, Bool.and_eq_true, decide_eq_true_eq, beq_iff_eq] at h
  refine ⟨?_, by omega, ?_⟩
  · simp only [isLq, Bool.and_eq_false_iff, decide_eq_false_iff_not]
    omega
  · rw [Bool.eq_iff_iff]
    simp only [isS, Bool.and_eq_true, decide_eq_true_eq]
    omega

/-- The two registers of a vector pair have no cell in common. -/
theorem laneWrites_disjoint (u : Strand) {d : Nat} (act : Word) (f g : Nat → Word) (hd : isS d = false) (hd' : isS (d + 1) = false) :
    ∀ c ∈ (laneWrites u d act f).map (·.1), c ∉ (laneWrites u (d + 1) act g).map (·.1) := by
  intro c hc hc'
  rw [laneWrites_keys, List.mem_filterMap] at hc hc'
  obtain ⟨l, hl, h⟩ := hc
  obtain ⟨l', hl', h'⟩ := hc'
  have h1 := regCell_row hd (mem_lanesOf.mp hl).1 h
  have h2 := regCell_row hd' (mem_lanesOf.mp hl').1 h'
  omega

/-- The high word of a 64-bit value that is cut from a number. -/
theorem high_word (v : Nat) : ((BitVec.ofNat 64 v) >>> 32).setWidth 32 = BitVec.ofNat 32 (v / 2 ^ 32) := by
  apply BitVec.eq_of_toNat_eq
  simp [Nat.shiftRight_eq_div_pow]
  omega

/-- A 64-bit result is written to the cells of its pair (R199). -/
theorem putPair_writes (s : State) (i : Iss) {d : Nat} (act : Word) (lat cost : Nat) (f : Nat → Nat) (hd : isPair d = true) :
    RegWrites s (putPair s i d act lat cost f) i ((s.th i.th).ps.clk + cost + lat)
      (pairWrites (s.th i.th) d act (fun l => BitVec.ofNat 64 (f l))) 0 := by
  obtain ⟨hq, hz, hs⟩ := isPair_kinds hd
  have low : ∀ v, (BitVec.ofNat 64 v).setWidth 32 = BitVec.ofNat 32 v := fun v => BitVec.setWidth_ofNat_of_le (by omega) v
  unfold putPair pairWrites
  simp only [low, high_word]
  by_cases h : isS d = true
  · rw [if_pos h, if_pos h]
    have h1 := putScalar_writes s i d lat cost (f 0)
    have h2 := putScalar_writes (putScalar s i d lat cost (f 0)) i (d + 1) lat cost (f 0 / 2 ^ 32)
    rw [h1.thread.clk] at h2
    refine (h1.trans h2).swap ?_
    simp only [isS, Bool.and_eq_true, decide_eq_true_eq] at h
    simp [sCell]
    omega
  · rw [if_neg h, if_neg h]
    rw [Bool.not_eq_true] at h
    have h1 := putVec_writes s i false act lat cost f h
    have h2 := putHigh_writes (putVec s i d false act lat cost f) i act lat cost (fun l => f l / 2 ^ 32) (hs.trans h)
    rw [h1.thread.clk, laneWrites, putVec_regCell s i false act lat cost f hq] at h2
    refine (h1.trans h2).swap ?_
    have hw : dstWrites (s.th i.th) d false act (fun l => BitVec.ofNat 32 (f l)) = laneWrites (s.th i.th) d act (fun l => BitVec.ofNat 32 (f l)) := by
      simp [dstWrites, h, hq, hz]
    rw [hw]
    exact laneWrites_disjoint _ act _ _ h (hs.trans h)

end Sys2Proof.Machine

namespace Sys2Proof.Machine

/-! ### Arithmetic instructions at issue (R29, R199, R203) -/

/-- The flags of an instruction's lanes are those of the statements: pops change no helper, and a flag depends on its lane alone. -/
theorem laneFlags_popped {s : State} {i : Iss} (srcs : List Opnd) (h : (kget? s.ths i.th).isSome = true) (d : Nat) (act : Word)
    {f g : Nat → Nat} (hf : ∀ l < 32, f l = g l) :
    laneFlags ((poppedState s i srcs).th i.th) d act f % 32 = laneFlags (s.th i.th) d act g % 32 := by
  rw [laneFlags_congr _ _ _ hf, poppedState_th srcs h]
  rfl

/-- An instruction whose body writes one 32-bit result and raises some flags answers that result. -/
theorem lanesOp_putDst {s : State} {x : LForm} {th k : Nat} {srcs : List Opnd} {dsts : List Nat} {body : State → Iss → Given → State}
    {lat : Nat} {f : Nat → Nat} {F : Nat → Word} {fl fl' : Nat} (hr : Ready s (issL x th k) srcs dsts readActive)
    (hb : let i := issL x th k
      body (poppedState s i srcs) i (given s i srcs) =
        raiseFp (putDst (poppedState s i srcs) i x.d.toNat x.tr (given s i srcs).act lat (given s i srcs).cost f) th fl)
    (hf : ∀ l < 32, BitVec.ofNat 32 (f l) = F l) (hfl : fl % 32 = fl') :
    ∃ t, lanesOp s x srcs dsts readActive body = .next t ∧ Result s t (issL x th k) srcs x.d.toNat x.tr lat F fl' := by
  refine lanesOp_resultW hr ?_
  intro i
  have hw := putDst_writes (poppedState s i srcs) i x.d.toNat x.tr (given s i srcs).act lat (given s i srcs).cost f
  rw [poppedState_th srcs hr.lives, dstWrites_congr _ _ _ _ hf] at hw
  have hu := hw.trans (raiseFp_writes i _ fl hw.lives)
  rw [List.nil_append, Nat.zero_or, hfl] at hu
  rw [hb]
  exact hu

/-- An instruction whose body writes one 64-bit result and raises some flags answers that result. -/
theorem lanesOp_putPair {s : State} {x : LForm} {th k : Nat} {srcs : List Opnd} {dsts : List Nat} {body : State → Iss → Given → State}
    {lat : Nat} {f : Nat → Nat} {F : Nat → DWord} {fl fl' : Nat} (hr : Ready s (issL x th k) srcs dsts readActive)
    (hd : isPair x.d.toNat = true)
    (hb : let i := issL x th k
      body (poppedState s i srcs) i (given s i srcs) =
        raiseFp (putPair (poppedState s i srcs) i x.d.toNat (given s i srcs).act lat (given s i srcs).cost f) th fl)
    (hf : ∀ l < 32, BitVec.ofNat 64 (f l) = F l) (hfl : fl % 32 = fl') :
    ∃ t, lanesOp s x srcs dsts readActive body = .next t ∧ Result64 s t (issL x th k) srcs x.d.toNat lat F fl' := by
  refine lanesOp_resultW hr ?_
  intro i
  have hw := putPair_writes (poppedState s i srcs) i (given s i srcs).act lat (given s i srcs).cost f hd
  rw [poppedState_th srcs hr.lives, pairWrites_congr _ _ _ hf] at hw
  have hu := hw.trans (raiseFp_writes i _ fl hw.lives)
  rw [List.nil_append, Nat.zero_or, hfl] at hu
  rw [hb]
  exact hu

/-- An instruction of one 32-bit result without flags. -/
theorem aluL_result {s : State} {x : LForm} {th k lat : Nat} {srcs : List Opnd} {f : (Nat → Nat) → Nat} {F : Nat → Word}
    (hr : Ready s (issL x th k) srcs [x.d.toNat] readActive)
    (hf : ∀ l < 32, BitVec.ofNat 32 (f (fun n => (given s (issL x th k) srcs).v n l)) = F l) :
    ∃ t, aluL s x lat srcs f = .next t ∧ Result s t (issL x th k) srcs x.d.toNat x.tr lat F 0 :=
  lanesOp_putDst (body := fun s i g => putDst s i x.d.toNat x.tr g.act lat g.cost (fun l => f (fun n => g.v n l))) (fl := 0) hr rfl hf rfl

/-- An instruction of one 64-bit result without flags. -/
theorem aluPair_result {s : State} {x : LForm} {th k lat : Nat} {srcs : List Opnd} {f : (Nat → Nat) → Nat} {F : Nat → DWord}
    (hr : Ready s (issL x th k) srcs [x.d.toNat, x.d.toNat + 1] readActive) (hd : isPair x.d.toNat = true)
    (hf : ∀ l < 32, BitVec.ofNat 64 (f (fun n => (given s (issL x th k) srcs).v n l)) = F l) :
    ∃ t, aluPair s x lat srcs f = .next t ∧ Result64 s t (issL x th k) srcs x.d.toNat lat F 0 :=
  lanesOp_putPair (body := fun s i g => putPair s i x.d.toNat g.act lat g.cost (fun l => f (fun n => g.v n l))) (fl := 0) hr hd rfl hf rfl

/-- An instruction of one 32-bit result with flags (R203). -/
theorem aluF_result {s : State} {x : LForm} {th k lat : Nat} {srcs : List Opnd} {f : (Nat → Nat) → Nat × Nat} {F : Nat → Word × Nat}
    (hr : Ready s (issL x th k) srcs [x.d.toNat] readActive)
    (hf : ∀ l < 32, let r := f (fun n => (given s (issL x th k) srcs).v n l); (BitVec.ofNat 32 r.1, r.2) = F l) :
    ∃ t, aluF s x lat srcs f = .next t ∧ Result s t (issL x th k) srcs x.d.toNat x.tr lat (fun l => (F l).1)
      (laneFlags (s.th th) x.d.toNat (given s (issL x th k) srcs).act (fun l => (F l).2) % 32) := by
  exact lanesOp_putDst (body := fun s i g => raiseFp (putDst s i x.d.toNat x.tr g.act lat g.cost (fun l => (f (fun n => g.v n l)).1)) i.th
    (laneFlags (s.th i.th) x.d.toNat g.act (fun l => (f (fun n => g.v n l)).2))) hr rfl (fun l hl => congrArg Prod.fst (hf l hl))
    (laneFlags_popped srcs hr.lives _ _ fun l hl => congrArg Prod.snd (hf l hl))

/-- An instruction of one 64-bit result with flags (R203). -/
theorem aluPairF_result {s : State} {x : LForm} {th k : Nat} {srcs : List Opnd} {f : (Nat → Nat) → Nat × Nat} {F : Nat → DWord × Nat}
    (hr : Ready s (issL x th k) srcs [x.d.toNat, x.d.toNat + 1] readActive) (hd : isPair x.d.toNat = true)
    (hf : ∀ l < 32, let r := f (fun n => (given s (issL x th k) srcs).v n l); (BitVec.ofNat 64 r.1, r.2) = F l) :
    ∃ t, aluPairF s x srcs f = .next t ∧ Result64 s t (issL x th k) srcs x.d.toNat 6 (fun l => (F l).1)
      (laneFlags (s.th th) x.d.toNat (given s (issL x th k) srcs).act (fun l => (F l).2) % 32) := by
  exact lanesOp_putPair (body := fun s i g => raiseFp (putPair s i x.d.toNat g.act 6 g.cost (fun l => (f (fun n => g.v n l)).1)) i.th
    (laneFlags (s.th i.th) x.d.toNat g.act (fun l => (f (fun n => g.v n l)).2))) hr hd rfl (fun l hl => congrArg Prod.fst (hf l hl))
    (laneFlags_popped srcs hr.lives _ _ fun l hl => congrArg Prod.snd (hf l hl))

/-- An operation whose meaning is a function of numbers computes the function of words that agrees with it on words. -/
theorem Computes.of_aluL {ins : LForm → Instr} {p : LForm → Bool} {lat : Nat} {srcs : LForm → List Opnd} {F : LForm → (Nat → Word) → Word}
    (f : LForm → (Nat → Nat) → Nat) (hx : ∀ x s, p x = true → exec (ins x) s = aluL s x lat (srcs x) (f x))
    (hn : ∀ x, Narrow (srcs x)) (hf : ∀ x (w : Nat → Word), BitVec.ofNat 32 (f x (fun n => (w n).toNat)) = F x w) :
    Computes ins p lat srcs F := by
  intro s x th k _ hp hr
  rw [hx x s hp]
  refine aluL_result hr fun l hl => ?_
  rw [given_word s _ (hn x) hl, hf]

/-- The same for a 64-bit result in a pair. -/
theorem Computes64.of_aluPair {ins : LForm → Instr} {p : LForm → Bool} {lat : Nat} {srcs : LForm → List Opnd}
    {F : LForm → (Nat → DWord) → DWord} (f : LForm → (Nat → Nat) → Nat)
    (hx : ∀ x s, p x = true → exec (ins x) s = aluPair s x lat (srcs x) (f x))
    (hd : ∀ x, (ins x).wf = true → p x = true → isPair x.d.toNat = true)
    (hn : ∀ x, Paired (srcs x)) (hf : ∀ x, (ins x).wf = true → ∀ w : Nat → DWord, BitVec.ofNat 64 (f x (fun n => (w n).toNat)) = F x w) :
    Computes64 ins p lat srcs F := by
  intro s x th k hwf hp hr
  rw [hx x s hp]
  refine aluPair_result hr (hd x hwf hp) fun l hl => ?_
  rw [given_dword s _ (hn x) hl, hf x hwf]

/-- The same with flags. -/
theorem ComputesF.of_aluF {ins : LForm → Instr} {p : LForm → Bool} {lat : Nat} {srcs : LForm → List Opnd}
    {F : LForm → (Nat → Word) → Word × Nat} (f : LForm → (Nat → Nat) → Nat × Nat)
    (hx : ∀ x s, p x = true → exec (ins x) s = aluF s x lat (srcs x) (f x)) (hn : ∀ x, Narrow (srcs x))
    (hf : ∀ x (w : Nat → Word), (BitVec.ofNat 32 (f x (fun n => (w n).toNat)).1, (f x (fun n => (w n).toNat)).2) = F x w) :
    ComputesF ins p lat srcs F := by
  intro s x th k _ hp hr
  rw [hx x s hp]
  refine aluF_result (F := fun l => F x (src32 s (issL x th k) (srcs x) l)) hr fun l hl => ?_
  rw [given_word s _ (hn x) hl]
  exact hf x _

end Sys2Proof.Machine

namespace Sys2Proof.Machine

/-! ### Numbers as bit vectors

The model computes on numbers, the statements on words: each operation on numbers below is that on words of any width it is used at. -/

theorem ofNat_of_toNat {n v : Nat} {a : BitVec n} (h : v = a.toNat) : BitVec.ofNat n v = a := by simp [h]

/-- The two's-complement value of a number's low bits is that of the word which they are. -/
theorem sextN_eq_toInt (v n : Nat) : sextN v n = (BitVec.ofNat n v).toInt := by
  rw [sextN, BitVec.toInt_eq_toNat_cond, BitVec.toNat_ofNat, Nat.mul_comm]

/-- A number cut from an integer is the word of the integer. -/
theorem wrapN_eq_toNat (z : Int) (n : Nat) : wrapN z n = (BitVec.ofInt n z).toNat := (BitVec.toNat_ofInt z).symm

theorem ofNat_wrapN (z : Int) (n : Nat) : BitVec.ofNat n (wrapN z n) = BitVec.ofInt n z := ofNat_of_toNat (wrapN_eq_toNat z n)

/-- A number of more bits stands for the same word. -/
theorem ofNat_mod_two_pow (v n : Nat) : BitVec.ofNat n (v % 2 ^ n) = BitVec.ofNat n v := by
  apply BitVec.eq_of_toNat_eq
  simp

/-- A multiple by a power of two is a shift. -/
theorem ofNat_mul_two_pow (v n k : Nat) : BitVec.ofNat n (v * 2 ^ k) = BitVec.ofNat n v <<< k := by
  apply BitVec.eq_of_toNat_eq
  simp [Nat.shiftLeft_eq]

theorem bitOf_eq_testBit (v i : Nat) : bitOf v i = v.testBit i := by
  rw [bitOf, Nat.testBit_eq_decide_div_mod_eq, Bool.eq_iff_iff, beq_iff_eq, decide_eq_true_eq]

theorem testBit_bitsOf (v lo n i : Nat) : (bitsOf v lo n).testBit i = (decide (i < n) && v.testBit (lo + i)) := by
  rw [bitsOf, Nat.testBit_mod_two_pow, Nat.testBit_div_two_pow, Nat.add_comm]

/-- A bit field is the extracted word. -/
theorem bitsOf_toNat {n : Nat} (a : BitVec n) (lo w : Nat) : bitsOf a.toNat lo w = (a.extractLsb' lo w).toNat := by
  rw [bitsOf, BitVec.extractLsb'_toNat, Nat.shiftRight_eq_div_pow]

/-- A number with a bit field replaced has the new bits there, and its own elsewhere. -/
theorem testBit_setBits (v lo w b i : Nat) :
    (setBits v lo w b).testBit i = if lo ≤ i ∧ i < lo + w then b.testBit (i - lo) else v.testBit i := by
  have hv : v = 2 ^ lo * (2 ^ w * (v / 2 ^ lo / 2 ^ w) + bitsOf v lo w) + v % 2 ^ lo := by
    rw [bitsOf, Nat.div_add_mod, Nat.div_add_mod]
  have hs : setBits v lo w b = 2 ^ lo * (2 ^ w * (v / 2 ^ lo / 2 ^ w) + b % 2 ^ w) + v % 2 ^ lo := by
    have hd : v - bitsOf v lo w * 2 ^ lo = 2 ^ lo * (2 ^ w * (v / 2 ^ lo / 2 ^ w)) + v % 2 ^ lo := by
      rw [Nat.mul_add, Nat.mul_comm _ (bitsOf v lo w)] at hv
      omega
    rw [setBits, hd, Nat.mul_add _ _ (b % 2 ^ w), Nat.mul_comm (b % 2 ^ w), Nat.add_right_comm]
  have hb : b % 2 ^ w < 2 ^ w := Nat.mod_lt _ (Nat.two_pow_pos _)
  rw [hs, Nat.testBit_two_pow_mul_add _ (Nat.mod_lt _ (Nat.two_pow_pos _)), Nat.testBit_two_pow_mul_add _ hb]
  by_cases h1 : i < lo
  · simp [h1, Nat.testBit_mod_two_pow, Nat.not_le.mpr h1]
  · by_cases h2 : i - lo < w
    · have hin : lo ≤ i ∧ i < lo + w := by omega
      simp [h1, h2, hin, Nat.testBit_mod_two_pow]
    · have hin : ¬ (lo ≤ i ∧ i < lo + w) := by omega
      rw [if_neg h1, if_neg h2, if_neg hin, Nat.testBit_div_two_pow, Nat.testBit_div_two_pow]
      congr 1
      omega

/-- The bits of a sum of distinct powers of two. -/
theorem testBit_bitSum (p : Nat → Bool) (n i : Nat) :
    (((List.range n).map (fun j => if p j then 2 ^ j else 0)).foldl (· + ·) 0).testBit i = (decide (i < n) && p i) := by
  have key : ∀ n, ((List.range n).map (fun j => if p j then 2 ^ j else 0)).foldl (· + ·) 0 < 2 ^ n ∧ ∀ i,
      (((List.range n).map (fun j => if p j then 2 ^ j else 0)).foldl (· + ·) 0).testBit i = (decide (i < n) && p i) := by
    intro n
    induction n with
    | zero => simp
    | succ n ih =>
      obtain ⟨hlt, hbit⟩ := ih
      rw [List.range_succ, List.map_append, List.foldl_append]
      generalize ((List.range n).map (fun j => if p j then 2 ^ j else 0)).foldl (· + ·) 0 = v at *
      have hv : ([n].map (fun j => if p j then 2 ^ j else 0)).foldl (· + ·) v = 2 ^ n * (p n).toNat + v := by
        cases h : p n <;> simp [h, Nat.add_comm]
      rw [hv]
      refine ⟨?_, fun i => ?_⟩
      · cases p n <;> simp <;> omega
      · rw [Nat.testBit_two_pow_mul_add _ hlt, hbit]
        rcases Nat.lt_trichotomy i n with h | rfl | h
        · simp [h, Nat.lt_succ_of_lt h]
        · cases p i <;> simp
        · have h1 : ¬ i < n := by omega
          have h2 : ¬ i < n + 1 := by omega
          have h3 : 1 ≤ i - n := by omega
          simp only [h1, h2, if_false, decide_false, Bool.false_and]
          cases p n
          · simp
          · exact Nat.testBit_lt_two_pow (by simpa using Nat.one_lt_two_pow (by omega))
  exact (key n).2 i

/-! ### Integer operations as words (R204, R205) -/

/-- The complement of a number of n bits. -/
theorem notV_word {n : Nat} (a : BitVec n) : BitVec.ofNat n (notV n a.toNat) = ~~~a :=
  ofNat_of_toNat (by rw [notV, Nat.mod_eq_of_lt a.isLt, BitVec.toNat_not])

theorem shlV_word {n : Nat} (a : BitVec n) (k : Nat) : BitVec.ofNat n (shlV n a.toNat k) = a <<< (k % n) :=
  ofNat_of_toNat (by rw [shlV, BitVec.toNat_shiftLeft, Nat.shiftLeft_eq])

theorem shrV_word {n : Nat} (a : BitVec n) (k : Nat) : BitVec.ofNat n (shrV n a.toNat k) = a >>> (k % n) :=
  ofNat_of_toNat (by rw [shrV, BitVec.toNat_ushiftRight, Nat.shiftRight_eq_div_pow])

theorem sarV_word {n : Nat} (a : BitVec n) (k : Nat) : BitVec.ofNat n (sarV n a.toNat k) = a.sshiftRight (k % n) := by
  have hp : (2 : Int) ^ (k % n) = ((2 ^ (k % n) : Nat) : Int) := (Int.natCast_pow 2 (k % n)).symm
  rw [sarV, ofNat_wrapN, sextN_eq_toInt, BitVec.ofNat_toNat, BitVec.setWidth_eq, BitVec.sshiftRight, Int.shiftRight_eq_div_pow, hp,
    Int.fdiv_eq_ediv_of_nonneg _ (Int.natCast_nonneg _)]

theorem rotlV_word (a : Word) (k : Nat) : BitVec.ofNat 32 (rotlV a.toNat k) = a.rotateLeft (k % 32) := by
  apply ofNat_of_toNat
  have hk : k % 32 < 32 := Nat.mod_lt _ (by decide)
  have hk' : k % 32 + (32 - k % 32) = 32 := by omega
  have hlo : a.toNat / 2 ^ (32 - k % 32) < 2 ^ (k % 32) := by
    rw [Nat.div_lt_iff_lt_mul (Nat.two_pow_pos _), ← Nat.pow_add, hk']
    exact a.isLt
  have hhi : a.toNat * 2 ^ (k % 32) % 2 ^ 32 = 2 ^ (k % 32) * (a.toNat % 2 ^ (32 - k % 32)) := by
    rw [← Nat.mul_mod_mul_left, ← Nat.pow_add, hk', Nat.mul_comm]
  rw [rotlV, BitVec.toNat_rotateLeft, Nat.mod_eq_of_lt hk, Nat.shiftLeft_eq, Nat.shiftRight_eq_div_pow, hhi,
    Nat.two_pow_add_eq_or_of_lt hlo]

theorem popcN_eq (v n : Nat) : popcN v n = ((List.range n).filter (fun i => v.testBit i)).length := by
  induction n with
  | zero => rfl
  | succ n ih =>
    rw [popcN, ih, List.range_succ, List.filter_append, List.length_append]
    congr 1
    rw [← Nat.toNat_testBit]
    cases h : v.testBit n <;> simp [h]

theorem brevV_word (a : Word) : BitVec.ofNat 32 (brevV a.toNat) = a.reverse := by
  apply BitVec.eq_of_getLsbD_eq
  intro i hi
  rw [BitVec.getLsbD_ofNat, brevV, testBit_bitSum, BitVec.getLsbD_reverse, BitVec.getMsbD, bitOf_eq_testBit, BitVec.testBit_toNat]
  simp [hi]

theorem clzV_word (a : Word) : BitVec.ofNat 32 (clzV a.toNat) = a.clz := by
  apply ofNat_of_toNat
  unfold clzV
  by_cases h0 : a = 0#32
  · subst h0
    decide
  · have hc : a.clz.toNat < 32 := BitVec.clz_lt_iff_ne_zero.mpr h0
    have hf : (List.range 32).find? (fun i => bitOf a.toNat (31 - i)) = some a.clz.toNat := by
      rw [List.find?_range_eq_some]
      refine ⟨?_, List.mem_range.mpr hc, fun j hj => ?_⟩
      · rw [bitOf_eq_testBit, BitVec.testBit_toNat]
        exact BitVec.getLsbD_true_clz_of_ne_zero (by decide) h0
      · have hb : a.toNat < 2 ^ (31 - j) :=
          Nat.lt_of_lt_of_le (BitVec.toNat_lt_two_pow_sub_clz (x := a)) (Nat.pow_le_pow_right (by decide) (by omega))
        rw [bitOf_eq_testBit, Nat.testBit_lt_two_pow hb]
        rfl
    rw [hf]
    rfl

/-! ### Truth tables, bit fields and byte products (R205) -/

/-- The bit of a truth-table minterm. -/
theorem getLsbD_minterm (m : Nat) (d a b : Word) {i : Nat} (hi : i < 32) :
    (minterm m d a b).getLsbD i =
      ((d.getLsbD i == decide (m / 4 % 2 = 1)) && (a.getLsbD i == decide (m / 2 % 2 = 1)) && (b.getLsbD i == decide (m % 2 = 1))) := by
  have one : ∀ (p : Prop) [Decidable p] (w : Word), (if p then w else ~~~w).getLsbD i = (w.getLsbD i == decide p) := by
    intro p _ w
    by_cases hp : p <;> simp [hp, hi]
  rw [minterm, BitVec.getLsbD_and, BitVec.getLsbD_and, one, one, one]

theorem tbl3V_word (tt : Spec) (d a b : Word) : BitVec.ofNat 32 (tbl3V tt.toNat d.toNat a.toNat b.toNat) =
    (List.range 8).foldl (fun r m => r ||| if tt.getLsbD m then minterm m d a b else 0) 0 := by
  apply BitVec.eq_of_getLsbD_eq
  intro i hi
  have bit : ∀ w : Word, bitsOf w.toNat i 1 = (w.getLsbD i).toNat := fun w => by
    rw [bitsOf, ← BitVec.testBit_toNat, Nat.toNat_testBit, Nat.pow_one]
  have term : ∀ m, (if tt.getLsbD m then minterm m d a b else 0).getLsbD i = (tt.getLsbD m && (minterm m d a b).getLsbD i) := fun m => by
    cases tt.getLsbD m <;> simp
  rw [BitVec.getLsbD_ofNat, tbl3V, testBit_bitSum, bit, bit, bit, bitOf_eq_testBit, BitVec.testBit_toNat]
  simp only [List.range_succ, List.range_zero, List.nil_append, List.foldl_append, List.foldl_cons, List.foldl_nil, BitVec.getLsbD_or, term,
    getLsbD_minterm _ d a b hi]
  cases d.getLsbD i <;> cases a.getLsbD i <;> cases b.getLsbD i <;> simp [hi]

/-- The length of a bit field is cut at bit 31 (R205). -/
theorem fieldLen_eq (b c : Nat) : fieldLen b c = min (c % 64) (32 - b % 32) := by
  unfold fieldLen
  split <;> omega

/-- The bits of a field's mask are those of the field. -/
theorem getLsbD_fieldMask (b c : Word) (i : Nat) :
    (fieldMask b c).getLsbD i = decide (b.toNat % 32 ≤ i ∧ i < b.toNat % 32 + fieldLen b.toNat c.toNat) := by
  have hlen : fieldLen b.toNat c.toNat + b.toNat % 32 ≤ 32 := by rw [fieldLen_eq]; omega
  have ones : (1#32 <<< fieldLen b.toNat c.toNat) - 1#32 = BitVec.ofNat 32 (2 ^ fieldLen b.toNat c.toNat - 1) := by
    have hle : 2 ^ fieldLen b.toNat c.toNat ≤ 2 ^ 32 := Nat.pow_le_pow_right (by decide) (by omega)
    have hpos := Nat.two_pow_pos (fieldLen b.toNat c.toNat)
    apply BitVec.eq_of_toNat_eq
    rw [BitVec.toNat_sub, BitVec.toNat_shiftLeft, BitVec.toNat_ofNat, BitVec.toNat_ofNat, Nat.mod_eq_of_lt (by decide : 1 < 2 ^ 32),
      Nat.one_shiftLeft]
    generalize 2 ^ fieldLen b.toNat c.toNat = n at *
    omega
  rw [fieldMask]
  simp only [← fieldLen_eq, ones, BitVec.getLsbD_shiftLeft, BitVec.getLsbD_ofNat, Nat.testBit_two_pow_sub_one]
  rw [Bool.eq_iff_iff]
  simp
  omega

theorem bfeuV_word (a b c : Word) :
    BitVec.ofNat 32 (bfeuV a.toNat b.toNat c.toNat) = (a &&& fieldMask b c) >>> (b.toNat % 32) := by
  apply BitVec.eq_of_getLsbD_eq
  intro i hi
  rw [BitVec.getLsbD_ofNat, bfeuV, testBit_bitsOf, BitVec.getLsbD_ushiftRight, BitVec.getLsbD_and, getLsbD_fieldMask, BitVec.testBit_toNat,
    Bool.and_comm (a.getLsbD _)]
  simp [hi]

theorem bfiV_word (d a b c : Word) : BitVec.ofNat 32 (bfiV d.toNat a.toNat b.toNat c.toNat) =
    (d &&& ~~~fieldMask b c) ||| ((a <<< (b.toNat % 32)) &&& fieldMask b c) := by
  apply BitVec.eq_of_getLsbD_eq
  intro i hi
  rw [BitVec.getLsbD_ofNat, bfiV, testBit_setBits]
  simp only [BitVec.getLsbD_or, BitVec.getLsbD_and, BitVec.getLsbD_not, BitVec.getLsbD_shiftLeft, getLsbD_fieldMask, BitVec.testBit_toNat, hi]
  by_cases h : b.toNat % 32 ≤ i ∧ i < b.toNat % 32 + fieldLen b.toNat c.toNat
  · simp [h]
  · simp [h]

theorem bfeV_word (a b c : Word) : BitVec.ofNat 32 (bfeV a.toNat b.toNat c.toNat) =
    ((a &&& fieldMask b c) <<< (32 - min (c.toNat % 64) (32 - b.toNat % 32) - b.toNat % 32)).sshiftRight
      (32 - min (c.toNat % 64) (32 - b.toNat % 32)) := by
  have hlen : fieldLen b.toNat c.toNat + b.toNat % 32 ≤ 32 := by rw [fieldLen_eq]; omega
  have hbits : ∀ j, (a &&& fieldMask b c).getLsbD j =
      (a.getLsbD j && decide (b.toNat % 32 ≤ j ∧ j < b.toNat % 32 + fieldLen b.toNat c.toNat)) :=
    fun j => by rw [BitVec.getLsbD_and, getLsbD_fieldMask]
  have hlow : ∀ j, (BitVec.ofNat (fieldLen b.toNat c.toNat) (bitsOf a.toNat (b.toNat % 32) (fieldLen b.toNat c.toNat))).getLsbD j =
      (decide (j < fieldLen b.toNat c.toNat) && a.getLsbD (b.toNat % 32 + j)) := fun j => by
    rw [BitVec.getLsbD_ofNat, testBit_bitsOf, BitVec.testBit_toNat, ← Bool.and_assoc, Bool.and_self]
  rw [← fieldLen_eq, bfeV]
  generalize fieldLen b.toNat c.toNat = len at *
  generalize b.toNat % 32 = pos at *
  apply BitVec.eq_of_getLsbD_eq
  intro i hi
  rw [BitVec.getLsbD_sshiftRight, BitVec.msb_eq_getLsbD_last, BitVec.getLsbD_shiftLeft, BitVec.getLsbD_shiftLeft, hbits, hbits]
  by_cases h0 : len = 0
  · subst h0
    simp [hi]
  · rw [if_neg h0, ofNat_wrapN, sextN_eq_toInt, ← BitVec.signExtend, BitVec.getLsbD_signExtend, BitVec.msb_eq_getLsbD_last, hlow, hlow]
    by_cases h1 : i < len
    · have e : 32 - len + i - (32 - len - pos) = pos + i := by omega
      have h2 : 32 - len + i < 32 := by omega
      have h3 : ¬ 32 - len + i < 32 - len - pos := by omega
      simp [hi, h1, h2, h3, e]
    · have e : 31 - (32 - len - pos) = pos + (len - 1) := by omega
      have h2 : ¬ 32 - len + i < 32 := by omega
      have h3 : ¬ 31 < 32 - len - pos := by omega
      have h4 : len - 1 < len := by omega
      have h5 : pos + (len - 1) < pos + len := by omega
      simp [hi, h1, h2, h3, h4, h5, e]

/-- A byte of a word as a signed number. -/
theorem sextN_byte (a : Word) (i : Nat) : sextN (bitsOf a.toNat (8 * i) 8) 8 = (a.extractLsb' (8 * i) 8).toInt := by
  rw [bitsOf_toNat, sextN_eq_toInt, BitVec.ofNat_toNat, BitVec.setWidth_eq]

theorem dot4V_word (a b c : Word) : BitVec.ofNat 32 (dot4V a.toNat b.toNat c.toNat) = c + byteDot a b := by
  have ext : ∀ v : BitVec 8, BitVec.ofInt 32 v.toInt = v.signExtend 32 := fun _ => rfl
  rw [dot4V, ofNat_wrapN, sextN_eq_toInt, BitVec.ofNat_toNat, BitVec.setWidth_eq, BitVec.ofInt_add, BitVec.ofInt_toInt, byteDot]
  simp only [sextN_byte, List.range_succ, List.range_zero, List.nil_append, List.map_append, List.map_cons, List.map_nil, List.foldl_append,
    List.foldl_cons, List.foldl_nil, BitVec.ofInt_add, BitVec.ofInt_mul, ext]
  rfl

end Sys2Proof.Machine

namespace Sys2Proof.Machine

/-! ### Integer operations of either width (R199, R204) -/

@[simp] theorem narrow_nil : Narrow [] := List.forall_mem_nil _
@[simp] theorem narrow_cons (o : Opnd) (os : List Opnd) : Narrow (o :: os) ↔ (o.regs = 1 ∧ o.ty ≠ .s64) ∧ Narrow os := List.forall_mem_cons
@[simp] theorem paired_nil : Paired [] := List.forall_mem_nil _
@[simp] theorem paired_cons (o : Opnd) (os : List Opnd) : Paired (o :: os) ↔ (o.regs = 1 ∨ o.regs = 2) ∧ Paired os := List.forall_mem_cons

/-- A well-formed INT instruction of a 64-bit type has a pair as its destination (R28, R199). -/
theorem isPair_of_wfInt {kd : CodeKind} {m : Nat} {x : LForm} (h : wfInt kd m x = true) (hw : is64 x = true) : isPair x.d.toNat = true := by
  have pair : (sp (if is64 x then isPair else dstVS)).ok x.d.toNat = true → isPair x.d.toNat = true := by
    rw [hw]
    exact id
  have word : ([1].contains x.ty && x.rn == 0) = true → isPair x.d.toNat = true := by
    intro hm
    simp only [List.contains_cons, List.contains_nil, Bool.or_false, Bool.and_eq_true, beq_iff_eq] at hm
    simp [is64, hm.1] at hw
  unfold wfInt at h
  dsimp only at h
  split at h
  -- `tbl3` and `bfi`, whose one type is 32-bit, take any register as their destination; the last case is no minor
  case h_19 | h_26 => exact word (LForm.chk_dst h).2
  case h_30 => cases h
  all_goals exact pair (LForm.chk_dst h).1

/-- An INT instruction of a 64-bit type that is well formed has a pair as its destination. -/
theorem wf_int_pair {ins : LForm → Instr} {m : Nat} (hp : ∀ x, (ins x).parts = .l 1 m x) (x : LForm) (h : (ins x).wf = true)
    (hw : is64 x = true) : isPair x.d.toNat = true := by
  obtain ⟨kd, hk⟩ := wfParts_of_wf h
  rw [hp] at hk
  exact isPair_of_wfInt (show wfInt kd m x = true from hk) hw

/-- An operation of two sources computes what its function of numbers gives at each width. -/
theorem IntTwo.of_int2 {ins : LForm → Instr} {m : Nat} {F : LForm → Word → Word → Word} {G : LForm → DWord → DWord → DWord}
    (f : LForm → Nat → Nat → Nat → Nat) (hx : ∀ x s, exec (ins x) s = int2 s x (f x)) (hp : ∀ x, (ins x).parts = .l 1 m x)
    (h32 : ∀ x (a b : Word), BitVec.ofNat 32 (f x 32 a.toNat b.toNat) = F x a b)
    (h64 : ∀ x (a b : DWord), BitVec.ofNat 64 (f x 64 a.toNat b.toNat) = G x a b) : IntTwo ins F G := by
  constructor
  · refine .of_aluL (fun x v => f x 32 (v 0) (v 1)) (fun x s h => ?_) (by simp [srcA, srcB]) (fun x w => h32 x _ _)
    rw [hx, int2, if_neg (by simpa using h)]
  · refine .of_aluPair (fun x v => f x 64 (v 0) (v 1)) (fun x s h => ?_) (wf_int_pair hp) (by simp [wide]) (fun x _ w => h64 x _ _)
    rw [hx, int2, if_pos h]

/-- A shift computes what its function of numbers gives at each width. -/
theorem IntShift.of_intShift {ins : LForm → Instr} {m : Nat} {F : Word → Nat → Word} {G : DWord → Nat → DWord}
    (f : Nat → Nat → Nat → Nat) (hx : ∀ x s, exec (ins x) s = intShift s x f) (hp : ∀ x, (ins x).parts = .l 1 m x)
    (h32 : ∀ (a : Word) b, BitVec.ofNat 32 (f 32 a.toNat b) = F a (b % 32))
    (h64 : ∀ (a : DWord) b, BitVec.ofNat 64 (f 64 a.toNat b) = G a (b % 64)) : IntShift ins F G := by
  constructor
  · refine .of_aluL (fun _ v => f 32 (v 0) (v 1)) (fun x s h => ?_) (by simp [srcA, srcB]) (fun x w => h32 _ _)
    rw [hx, intShift, if_neg (by simpa using h)]
  · refine .of_aluPair (fun _ v => f 64 (v 0) (v 1)) (fun x s h => ?_) (wf_int_pair hp) (by simp [wide, srcB]) (fun x _ w => h64 _ _)
    rw [hx, intShift, if_pos h]

/-- An operation of one source computes what its function of numbers gives at each width. -/
theorem IntOne.of_int1 {ins : LForm → Instr} {m : Nat} {F : Word → Word} {G : DWord → DWord}
    (f : Nat → Nat → Nat) (hx : ∀ x s, exec (ins x) s = int1 s x f) (hp : ∀ x, (ins x).parts = .l 1 m x)
    (h32 : ∀ a : Word, BitVec.ofNat 32 (f 32 a.toNat) = F a) (h64 : ∀ a : DWord, BitVec.ofNat 64 (f 64 a.toNat) = G a) : IntOne ins F G := by
  constructor
  · refine .of_aluL (fun _ v => f 32 (v 0)) (fun x s h => ?_) (by simp [srcA]) (fun x w => h32 _)
    rw [hx, int1, if_neg (by simpa using h)]
  · refine .of_aluPair (fun _ v => f 64 (v 0)) (fun x s h => ?_) (wf_int_pair hp) (by simp [wide]) (fun x _ w => h64 _)
    rw [hx, int1, if_pos h]

/-- A 32-bit operation computes what its function of numbers gives. -/
theorem Int32.of_aluL {ins : LForm → Instr} {srcs : LForm → List Opnd} {F : LForm → (Nat → Word) → Word}
    (f : LForm → (Nat → Nat) → Nat) (hx : ∀ x s, exec (ins x) s = aluL s x 4 (srcs x) (f x)) (hn : ∀ x, Narrow (srcs x))
    (hf : ∀ x (w : Nat → Word), BitVec.ofNat 32 (f x (fun n => (w n).toNat)) = F x w) : Int32 ins srcs F :=
  Computes.of_aluL f (fun x s _ => hx x s) hn hf

/-! ### Logic, shifts, counts, truth tables, bit fields and byte products (R204, R205) -/

theorem execAnd_result : IntTwo .and (fun _ a b => a &&& b) (fun _ a b => a &&& b) :=
  .of_int2 (fun _ _ => Nat.land) (fun _ _ => rfl) (fun _ => rfl) (fun _ a b => ofNat_of_toNat (BitVec.toNat_and a b).symm)
    (fun _ a b => ofNat_of_toNat (BitVec.toNat_and a b).symm)

theorem execOr_result : IntTwo .or (fun _ a b => a ||| b) (fun _ a b => a ||| b) :=
  .of_int2 (fun _ _ => Nat.lor) (fun _ _ => rfl) (fun _ => rfl) (fun _ a b => ofNat_of_toNat (BitVec.toNat_or a b).symm)
    (fun _ a b => ofNat_of_toNat (BitVec.toNat_or a b).symm)

theorem execXor_result : IntTwo .xor (fun _ a b => a ^^^ b) (fun _ a b => a ^^^ b) :=
  .of_int2 (fun _ _ => Nat.xor) (fun _ _ => rfl) (fun _ => rfl) (fun _ a b => ofNat_of_toNat (BitVec.toNat_xor a b).symm)
    (fun _ a b => ofNat_of_toNat (BitVec.toNat_xor a b).symm)

theorem execNot_result : IntOne .not (fun a => ~~~a) (fun a => ~~~a) := .of_int1 notV (fun _ _ => rfl) (fun _ => rfl) notV_word notV_word

theorem execMov_result : IntOne .mov id id :=
  .of_int1 (fun _ a => a) (fun _ _ => rfl) (fun _ => rfl) (fun _ => ofNat_of_toNat rfl) (fun _ => ofNat_of_toNat rfl)

theorem execTbl3_result : Int32 .tbl3 (fun x => [srcA x, srcB x, srcD x])
    (fun x v => (List.range 8).foldl (fun r m => r ||| if x.c.getLsbD m then minterm m (v 2) (v 0) (v 1) else 0) 0) :=
  .of_aluL (fun x v => tbl3V x.c.toNat (v 2) (v 0) (v 1)) (fun _ _ => rfl) (by simp [srcA, srcB, srcD]) (fun x _ => tbl3V_word x.c _ _ _)

theorem execShl_result : IntShift .shl (fun a n => a <<< n) (fun a n => a <<< n) :=
  .of_intShift shlV (fun _ _ => rfl) (fun _ => rfl) shlV_word shlV_word

theorem execShr_result : IntShift .shr (fun a n => a >>> n) (fun a n => a >>> n) :=
  .of_intShift shrV (fun _ _ => rfl) (fun _ => rfl) shrV_word shrV_word

theorem execSar_result : IntShift .sar (fun a n => a.sshiftRight n) (fun a n => a.sshiftRight n) :=
  .of_intShift sarV (fun _ _ => rfl) (fun _ => rfl) sarV_word sarV_word

theorem execRotl_result : Int32 .rotl (fun x => [srcA x, srcB x]) (fun _ v => (v 0).rotateLeft ((v 1).toNat % 32)) :=
  .of_aluL (fun _ v => rotlV (v 0) (v 1)) (fun _ _ => rfl) (by simp [srcA, srcB]) (fun _ _ => rotlV_word _ _)

theorem execBfeu_result : Int32 .bfeu (fun x => [srcA x, srcB x, srcC x])
    (fun _ v => (v 0 &&& fieldMask (v 1) (v 2)) >>> ((v 1).toNat % 32)) :=
  .of_aluL (fun _ v => bfeuV (v 0) (v 1) (v 2)) (fun _ _ => rfl) (by simp [srcA, srcB, srcC]) (fun _ _ => bfeuV_word _ _ _)

theorem execBfe_result : Int32 .bfe (fun x => [srcA x, srcB x, srcC x]) (fun _ v =>
    ((v 0 &&& fieldMask (v 1) (v 2)) <<< (32 - min ((v 2).toNat % 64) (32 - (v 1).toNat % 32) - (v 1).toNat % 32)).sshiftRight
      (32 - min ((v 2).toNat % 64) (32 - (v 1).toNat % 32))) :=
  .of_aluL (fun _ v => bfeV (v 0) (v 1) (v 2)) (fun _ _ => rfl) (by simp [srcA, srcB, srcC]) (fun _ _ => bfeV_word _ _ _)

theorem execBfi_result : Int32 .bfi (fun x => [srcA x, srcB x, srcC x, srcD x]) (fun _ v =>
    (v 3 &&& ~~~fieldMask (v 1) (v 2)) ||| ((v 0 <<< ((v 1).toNat % 32)) &&& fieldMask (v 1) (v 2))) :=
  .of_aluL (fun _ v => bfiV (v 3) (v 0) (v 1) (v 2)) (fun _ _ => rfl) (by simp [srcA, srcB, srcC, srcD]) (fun _ _ => bfiV_word _ _ _ _)

theorem execDot4_result : Int32 .dot4 (fun x => [srcA x, srcB x, srcC x]) (fun _ v => v 2 + byteDot (v 0) (v 1)) :=
  .of_aluL (fun _ v => dot4V (v 0) (v 1) (v 2)) (fun _ _ => rfl) (by simp [srcA, srcB, srcC]) (fun _ _ => dot4V_word _ _ _)

theorem execClz_result : Int32 .clz (fun x => [srcA x]) (fun _ v => (v 0).clz) :=
  .of_aluL (fun _ v => clzV (v 0)) (fun _ _ => rfl) (by simp [srcA]) (fun _ _ => clzV_word _)

theorem execPopc_result : Int32 .popc (fun x => [srcA x])
    (fun _ v => BitVec.ofNat 32 ((List.range 32).filter (fun i => (v 0).getLsbD i)).length) :=
  .of_aluL (fun _ v => popcV (v 0)) (fun _ _ => rfl) (by simp [srcA]) (fun _ _ => congrArg _ (popcN_eq _ 32))

theorem execBrev_result : Int32 .brev (fun x => [srcA x]) (fun _ v => (v 0).reverse) :=
  .of_aluL (fun _ v => brevV (v 0)) (fun _ _ => rfl) (by simp [srcA]) (fun _ _ => brevV_word _)

/-- Settles O3: each operation on numbers is the word operation of R204 and R205, and every INT instruction answers its result alone. -/
theorem intLogicAndFields : Obligations.IntLogicAndFields :=
  ⟨⟨execAnd_result, execOr_result, execXor_result, execNot_result, execMov_result, execTbl3_result, execShl_result, execShr_result,
      execSar_result, execRotl_result⟩,
    execBfeu_result, execBfe_result, execBfi_result, execDot4_result, execClz_result, execPopc_result, execBrev_result⟩

end Sys2Proof.Machine

namespace Sys2Proof.Machine

/-! ### 64-bit address arithmetic (R206, R207, R259) -/

/-- A well-formed ADR instruction of a 64-bit result has a pair as its destination (R206). -/
theorem isPair_of_wfAdr {kd : CodeKind} {m : Nat} {x : LForm} (h : wfAdr kd m x = true) (hm : m ≠ 7) : isPair x.d.toNat = true := by
  unfold wfAdr at h
  dsimp only at h
  split at h
  -- `lea` and `lea.code` share a minor, `apclass` alone has a 32-bit result, and the last case is no minor
  case h_3 =>
    split at h
    · exact (LForm.chk_dst h).1
    · exact (LForm.chk_dst h).1
  case h_8 => exact absurd rfl hm
  case h_9 => cases h
  all_goals exact (LForm.chk_dst h).1

theorem wf_adr_pair {ins : LForm → Instr} {m : Nat} (hp : ∀ x, (ins x).parts = .l 2 m x) (hm : m ≠ 7) (x : LForm) (h : (ins x).wf = true) :
    isPair x.d.toNat = true := by
  obtain ⟨kd, hk⟩ := wfParts_of_wf h
  rw [hp] at hk
  exact isPair_of_wfAdr (show wfAdr kd m x = true from hk) hm

/-- The extension of a 32-bit operand by sign or by zero (R206). -/
theorem adrExt_toNat (x : LForm) (v : DWord) : adrExt x v.toNat = (extended x v).toNat := by
  unfold adrExt extended
  split
  · rw [BitVec.toNat_setWidth, BitVec.toNat_setWidth]
    exact (Nat.mod_eq_of_lt (Nat.lt_trans (Nat.mod_lt _ (Nat.two_pow_pos _)) (by decide))).symm
  · rw [wrapN_eq_toNat, sextN_eq_toInt]
    rfl

/-- Operand b of a sum or a difference: a pair, or a 32-bit operand extended (R206). -/
theorem adrBv_toNat (x : LForm) (v : DWord) : adrBv x v.toNat = (adrOperand x v).toNat := by
  unfold adrBv adrOperand
  split
  · exact adrExt_toNat x v
  · rfl

/-- The sources of a sum or a difference are registers or pairs. -/
theorem paired_adrB (x : LForm) : (adrB x).regs = 1 ∨ (adrB x).regs = 2 := by
  unfold adrB
  split
  · exact .inl rfl
  · exact .inr rfl

theorem execAdd64_result : Computes64 .add64 (fun _ => true) 4 (fun x => [wide x.a (adrTy x), adrB x]) (fun x v => v 0 + adrOperand x (v 1)) := by
  refine .of_aluPair (fun x v => (v 0 + adrBv x (v 1)) % 2 ^ 64) (fun _ _ _ => rfl) (fun x h _ => wf_adr_pair (fun _ => rfl) (by decide) x h)
    (fun x => by simp [wide, paired_adrB]) (fun x _ w => ?_)
  rw [adrBv_toNat]
  exact ofNat_of_toNat (BitVec.toNat_add _ _).symm

theorem execSub64_result : Computes64 .sub64 (fun _ => true) 4 (fun x => [wide x.a (adrTy x), adrB x]) (fun x v => v 0 - adrOperand x (v 1)) := by
  refine .of_aluPair (fun x v => (v 0 + 2 ^ 64 - adrBv x (v 1)) % 2 ^ 64) (fun _ _ _ => rfl)
    (fun x h _ => wf_adr_pair (fun _ => rfl) (by decide) x h) (fun x => by simp [wide, paired_adrB]) (fun x _ w => ?_)
  have hb := (adrOperand x (w 1)).isLt
  rw [adrBv_toNat]
  refine ofNat_of_toNat ?_
  rw [BitVec.toNat_sub, Nat.add_comm, Nat.sub_add_comm (Nat.le_of_lt hb)]

/-- The mode of a well-formed instruction is its own (R55). -/
theorem modeOk_of_wf {i : Instr} (h : i.wf = true) : i.modeOk = true := by
  simp only [Instr.wf, Instr.wfIn, Bool.or_eq_true, Bool.and_eq_true] at h
  obtain ((h | h) | h) | h := h <;> exact h.1.2

/-- A well-formed `lea` extends its offset by sign or by zero (R206). -/
theorem wf_lea_extends {x : LForm} (h : (Instr.lea x).wf = true) : (adrSx x || adrZx x) = true := by
  obtain ⟨kd, hk⟩ := wfParts_of_wf h
  have hmd : x.md.toNat ≠ 16 := bne_iff_ne.mp (show (x.md.toNat != 16) = true from modeOk_of_wf h)
  have hw : wfAdr kd 2 x = true := hk
  simp only [wfAdr, beq_eq_false_iff_ne.mpr hmd, Bool.false_eq_true, if_false] at hw
  have he := (LForm.chk_dst hw).2
  simp only [Bool.or_eq_true, beq_iff_eq] at he
  simp only [adrSx, adrZx, Bool.or_eq_true, beq_iff_eq]
  omega

theorem execLea_result : Computes64 .lea (fun _ => true) 4 (fun x => [wide x.a (adrTy x), srcB x])
    (fun x v => v 0 + (adrOperand x (v 1) <<< x.c.toNat)) := by
  refine .of_aluPair (fun x v => (v 0 + adrExt x (v 1) * 2 ^ x.c.toNat) % 2 ^ 64) (fun _ _ _ => rfl)
    (fun x h _ => wf_adr_pair (fun _ => rfl) (by decide) x h) (fun x => by simp [wide, srcB]) (fun x h w => ?_)
  rw [ofNat_mod_two_pow, BitVec.ofNat_add, ofNat_mul_two_pow, adrExt_toNat, adrOperand, if_pos (wf_lea_extends h)]
  simp

theorem execMov64_pair_result : Computes64 .mov64 (fun x => !adrSx x && !adrZx x && isPair x.a.toNat) 4 (fun x => [wide x.a .b64])
    (fun _ v => v 0) :=
  .of_aluPair (fun _ v => v 0) (fun _ _ h => if_pos h) (fun x h _ => wf_adr_pair (fun _ => rfl) (by decide) x h) (by simp [wide])
    (fun _ _ _ => ofNat_of_toNat rfl)

theorem execMov64_extended_result : Computes64 .mov64 (fun x => adrSx x || adrZx x || !isPair x.a.toNat) 4 (fun x => [srcA x])
    (fun x v => extended x (v 0)) := by
  refine .of_aluPair (fun x v => adrExt x (v 0)) (fun x s h => if_neg ?_) (fun x h _ => wf_adr_pair (fun _ => rfl) (by decide) x h)
    (by simp [srcA]) (fun x _ w => ofNat_of_toNat (adrExt_toNat x _))
  intro hp
  simp only [Bool.and_eq_true, Bool.not_eq_true'] at hp
  obtain ⟨⟨hs, hz⟩, hp⟩ := hp
  simp [hs, hz, hp] at h

theorem execShl64_result : Computes64 .shl64 (fun _ => true) 4 (fun x => [wide x.a .s64, srcB x]) (fun _ v => v 0 <<< ((v 1).toNat % 64)) :=
  .of_aluPair (fun _ v => shlV 64 (v 0) (v 1)) (fun _ _ _ => rfl) (fun x h _ => wf_adr_pair (fun _ => rfl) (by decide) x h)
    (by simp [wide, srcB]) (fun _ _ _ => shlV_word _ _)

theorem execShr64_result : Computes64 .shr64 (fun _ => true) 4 (fun x => [wide x.a .s64, srcB x]) (fun _ v => v 0 >>> ((v 1).toNat % 64)) :=
  .of_aluPair (fun _ v => shrV 64 (v 0) (v 1)) (fun _ _ _ => rfl) (fun x h _ => wf_adr_pair (fun _ => rfl) (by decide) x h)
    (by simp [wide, srcB]) (fun _ _ _ => shrV_word _ _)

/-! ### Labels of the code and parts of generic addresses (R207, R259) -/

/-- An address lies at or above the base of its space's window (R256); local addresses and those of no space have the base 0. -/
theorem spaceBase_le (a : Nat) : spaceBase (spaceOf a) ≤ a := by
  have window : ∀ {b c : Nat}, (decide (b ≤ a) && decide (a < c)) = true → b ≤ a := fun h =>
    of_decide_eq_true (Bool.and_eq_true_iff.mp h).1
  unfold spaceOf
  split
  · exact Nat.zero_le a
  · split
    · exact window ‹_›
    · split
      · exact window ‹_›
      · split
        · exact window ‹_›
        · split
          · exact window ‹_›
          · exact Nat.zero_le a

/-- A difference that does not wrap. -/
theorem ofNat_sub_of_le (a : DWord) {b : Nat} (h : b ≤ a.toNat) : BitVec.ofNat 64 (a.toNat - b) = a - BitVec.ofNat 64 b := by
  apply ofNat_of_toNat
  have ha := a.isLt
  rw [BitVec.toNat_sub, BitVec.toNat_ofNat, Nat.mod_eq_of_lt (Nat.lt_of_le_of_lt h ha)]
  omega

theorem execApoff_result : Computes64 .apoff (fun _ => true) 4 (fun x => [wide x.a .b64])
    (fun _ v => if spaceOf (v 0).toNat = 7 then BitVec.allOnes 64 else v 0 - BitVec.ofNat 64 (spaceBase (spaceOf (v 0).toNat))) := by
  refine .of_aluPair (fun _ v => if spaceOf (v 0) = 7 then 2 ^ 64 - 1 else v 0 - spaceBase (spaceOf (v 0))) (fun _ _ _ => rfl)
    (fun x h _ => wf_adr_pair (fun _ => rfl) (by decide) x h) (by simp [wide]) (fun x _ w => ?_)
  by_cases h : spaceOf (w 0).toNat = 7
  · rw [if_pos h, if_pos h]
    rfl
  · rw [if_neg h, if_neg h]
    exact ofNat_sub_of_le _ (spaceBase_le _)

theorem execApgen_result : Computes64 .apgen (fun _ => true) 4 (fun x => [wide x.a .b64])
    (fun x v => BitVec.ofNat 64 (spaceBase (x.md.toNat / 2 % 8)) + v 0) := by
  refine .of_aluPair (fun x v => (spaceBase (x.md.toNat % 16 / 2) + v 0) % 2 ^ 64) (fun _ _ _ => rfl)
    (fun x h _ => wf_adr_pair (fun _ => rfl) (by decide) x h) (by simp [wide]) (fun x _ w => ?_)
  rw [ofNat_mod_two_pow, BitVec.ofNat_add, show x.md.toNat % 16 / 2 = x.md.toNat / 2 % 8 by omega]
  simp

/-- `lea.code` gives its own first parcel's address with its literal added as a signed number (R207). -/
theorem execLeaCode_result (s : State) (x : LForm) (th k : Nat) (hwf : (Instr.leaCode x).wf = true)
    (hr : Ready s (issL x th k) [] [x.d.toNat, x.d.toNat + 1] readActive) :
    ∃ t, exec (.leaCode x) s = .next t ∧ Result64 s t (issL x th k) [] x.d.toNat 4
      (fun _ => BitVec.ofNat 64 (codeVa s (s.th th).pl.code (curPc (s.th th) k)) + (x.lit.getD 0).signExtend 64) 0 := by
  refine lanesOp_putPair (fl := 0) hr (wf_adr_pair (ins := .leaCode) (fun _ => rfl) (by decide) x hwf)
    (body := fun s' i g => putPair s' i x.d.toNat g.act 4 g.cost (fun _ =>
      wrapN ((codeVa s (s.th i.th).pl.code (curPc (s.th i.th) i.k) : Int) + sextN (x.lit.getD 0).toNat 32) 64)) rfl (fun l _ => ?_) rfl
  rw [ofNat_wrapN, BitVec.ofInt_add, BitVec.ofInt_natCast, sextN_eq_toInt, BitVec.ofNat_toNat, BitVec.setWidth_eq]
  rfl

/-- `apclass` gives the space code of a pair's address (R259). -/
theorem execApclass_result (s : State) (x : LForm) (th k : Nat) (hr : Ready s (issL x th k) [wide x.a .b64] [x.d.toNat] readActive) :
    ∃ t, exec (.apclass x) s = .next t ∧ Result s t (issL x th k) [wide x.a .b64] x.d.toNat x.tr 4
      (fun l => BitVec.ofNat 32 (spaceOf (src64 s (issL x th k) [wide x.a .b64] l 0).toNat)) 0 :=
  aluL_result (f := fun v => spaceOf (v 0)) hr fun l hl => by rw [given_dword s _ (by simp [wide]) hl]

/-- Settles O4: sums, differences and shifts of numbers modulo 2 to the 64 are those of register pairs, and an address in a space lies
at or above its window's base. -/
theorem addressInstructions : Obligations.AddressInstructions :=
  ⟨⟨execAdd64_result, execSub64_result, execLea_result, execMov64_pair_result, execMov64_extended_result, execShl64_result,
      execShr64_result⟩,
    execLeaCode_result, execApoff_result, execApgen_result, fun s x th k _ => execApclass_result s x th k⟩

end Sys2Proof.Machine

namespace Sys2Proof.Machine

/-! ### Rounding to a code and to an integer (R178, R212) -/

/-- A value rounded to a format of floats is a code of the format's width. -/
theorem roundTo_lt {f : Fmt} (hi : f.isInt = false) (hw : 0 < f.w) (hmax : maxCode f + 1 < 2 ^ (f.w - 1)) (hnan : canonNaN f < 2 ^ f.w)
    (rm rnd : Nat) (v : FV) : (roundTo f rm rnd v).1 < 2 ^ f.w := by
  have hpow : 2 ^ f.w = 2 * 2 ^ (f.w - 1) := by rw [Nat.mul_comm, Nat.two_pow_pred_mul_two hw]
  have sign : ∀ (neg : Bool) (c : Nat), c ≤ maxCode f + 1 → (if neg then 2 ^ (f.w - 1) + c else c) < 2 ^ f.w := by
    intro neg c hc
    split <;> omega
  cases v with
  | nan => exact hnan
  | inf neg =>
    simp only [roundTo, hi, Bool.false_eq_true, if_false]
    refine sign neg _ ?_
    split <;> omega
  | fin neg m e =>
    simp only [roundTo, hi, Bool.false_eq_true, if_false]
    split
    · exact sign neg 0 (by omega)
    · split
      · refine sign neg _ ?_
        split <;> omega
      · exact sign neg _ (by omega)

/-- A value rounded to a packed format is a half (R200). -/
theorem roundTo_packed_lt {x : LForm} (h : packedTy x.ty = true) (rm rnd : Nat) (v : FV) : (roundTo (fFmt x) rm rnd v).1 < 2 ^ 16 := by
  simp only [packedTy, Bool.or_eq_true, beq_iff_eq] at h
  rcases h with h | h
  · rw [fFmt, if_pos h]
    exact roundTo_lt (f := fp16) rfl (by decide) (by decide) (by decide) rm rnd v
  · rw [fFmt, if_neg (by omega), if_pos h]
    exact roundTo_lt (f := bf16) rfl (by decide) (by decide) (by decide) rm rnd v

/-- No part of an integer is cut off at an exponent that is not negative. -/
theorem cut_round_exact (rm k : Nat) (n : Bool) : (Cut.mk k 0 0).round rm 0 n = k := by
  unfold Cut.round Cut.up
  match rm with
  | 0 | 1 | 2 | 3 | 4 | _ + 5 => simp

/-- The next integer or the same. -/
theorem next_eq_add (b : Bool) (k : Nat) : (if b then k + 1 else k) = k + if b then 1 else 0 := by cases b <;> rfl

/-- A magnitude cut into integers and parts of one rounds as R212 says; the stochastic mode without random bits rounds toward zero. -/
theorem cut_round_parts (rm m : Nat) (n : Bool) {e : Int} (he : e < 0) :
    (Cut.mk (m / 2 ^ (-e).toNat) (m % 2 ^ (-e).toNat) (-e).toNat).round rm 0 n = (intRounded rm n m e).1 := by
  have hr : m % 2 ^ (-e).toNat < 2 ^ (-e).toNat := Nat.mod_lt _ (Nat.two_pow_pos _)
  unfold Cut.round Cut.up intRounded
  rw [if_neg (Int.not_le.mpr he)]
  dsimp only
  generalize m / 2 ^ (-e).toNat = k at *
  generalize m % 2 ^ (-e).toNat = r at *
  generalize (-e).toNat = sh at *
  match rm with
  | 0 =>
    have hnear : (2 * r == 2 ^ sh && k % 2 == 1 && r != 0) = (2 * r == 2 ^ sh && k % 2 == 1) := by
      rw [Bool.eq_iff_iff]
      simp
      omega
    rw [hnear, next_eq_add]
    rfl
  | 2 | 3 => exact next_eq_add _ _
  | 1 | _ + 5 => rfl
  | 4 =>
    have hlow : r * 2 ^ 16 / 2 ^ sh < 2 ^ 16 := by
      rw [Nat.div_lt_iff_lt_mul (Nat.two_pow_pos sh), Nat.mul_comm]
      exact Nat.mul_lt_mul_of_pos_left hr (by decide)
    simpa using hlow

/-- A magnitude below half of one rounds as any other that is not zero. -/
theorem cut_round_tiny (rm m : Nat) (n : Bool) {e : Int} (he : e < 0) (hm : 2 * m < 2 ^ (-e).toNat) :
    (Cut.mk 0 (if m = 0 then 0 else 1) 40).round rm 0 n = (intRounded rm n m e).1 := by
  have h1 : m / 2 ^ (-e).toNat = 0 := Nat.div_eq_of_lt (by omega)
  have h2 : m % 2 ^ (-e).toNat = m := Nat.mod_eq_of_lt (by omega)
  have h3 : ((if m = 0 then 0 else 1) != 0) = (m != 0) := by by_cases h : m = 0 <;> simp [h]
  have h4 : (if m = 0 then 0 else 1) ≤ 1 := by split <;> omega
  unfold Cut.round Cut.up intRounded
  rw [if_neg (Int.not_le.mpr he)]
  dsimp only
  rw [h1, h2, h3]
  generalize (if m = 0 then 0 else 1) = r at *
  generalize 2 ^ (-e).toNat = p at *
  match rm with
  | 0 =>
    have hl : decide (2 ^ 40 < 2 * r) = false := decide_eq_false (by omega)
    have hl' : (2 * r == 2 ^ 40) = false := beq_eq_false_iff_ne.mpr (by omega)
    have hr : decide (p < 2 * m) = false := decide_eq_false (by omega)
    have hr' : (2 * m == p) = false := beq_eq_false_iff_ne.mpr (by omega)
    show (if (decide (2 ^ 40 < 2 * r) || (2 * r == 2 ^ 40 && 0 % 2 == 1 && m != 0)) then 0 + 1 else 0) =
      0 + if (decide (p < 2 * m) || (2 * m == p && 0 % 2 == 1)) then 1 else 0
    rw [hl, hl', hr, hr']
    rfl
  | 2 | 3 => exact next_eq_add _ 0
  | 1 | _ + 5 => rfl
  | 4 =>
    have hl : decide (2 ^ 16 ≤ r * 2 ^ 16 / 2 ^ 40 + 0) = false := decide_eq_false (by omega)
    show (if decide (2 ^ 16 ≤ r * 2 ^ 16 / 2 ^ 40 + 0) then 0 + 1 else 0) = 0
    rw [hl]
    rfl

/-- The model's cut of a finite value at the integers rounds as R212 says, and is exact where the value is an integer. -/
theorem cut_zero_round (rm m : Nat) (n : Bool) (e : Int) :
    (cut m e 0).round rm 0 n = (intRounded rm n m e).1 ∧ ((cut m e 0).r = 0 ↔ (intRounded rm n m e).2 = false) := by
  by_cases he : 0 ≤ e
  · have hi : intRounded rm n m e = (m * 2 ^ e.toNat, false) := if_pos he
    rw [cut, if_pos he, hi, cut_round_exact, Int.sub_zero]
    simp
  · have hneg : e < 0 := Int.not_le.mp he
    have hi : (intRounded rm n m e).2 = (m % 2 ^ (-e).toNat != 0) := by rw [intRounded, if_neg he]
    by_cases ht : (Nat.log2 m : Int) + e < 0 - 40
    · have hm : 2 * m < 2 ^ (-e).toNat := by
        calc 2 * m < 2 * 2 ^ (Nat.log2 m + 1) := Nat.mul_lt_mul_of_pos_left Nat.lt_log2_self (by decide)
          _ = 2 ^ (Nat.log2 m + 2) := Nat.pow_succ'.symm
          _ ≤ 2 ^ (-e).toNat := Nat.pow_le_pow_right (by decide) (by omega)
      rw [cut, if_neg he, if_pos ht, cut_round_tiny rm m n hneg hm, hi, Nat.mod_eq_of_lt (by omega)]
      by_cases h0 : m = 0 <;> simp [h0]
    · rw [cut, if_neg he, if_neg ht, Int.zero_sub, cut_round_parts rm m n hneg, hi]
      simp

/-! ### Conversions as words (R211, R212) -/

/-- An FP32 code as an integer of n bits is the integer of R212, and raises its flags. -/
theorem f2iV_eq (n : Nat) (u : Bool) (rm c : Nat) :
    let r := floatToInt (if u then 0 else -(2 : Int) ^ (n - 1)) (if u then 2 ^ n - 1 else 2 ^ (n - 1) - 1) rm (decodeF fp32 c)
    f2iV n u rm c = (wrapN r.1 n, r.2) := by
  dsimp only
  unfold f2iV floatToInt
  cases decodeF fp32 c with
  | nan => simp [wrapN]
  | inf s => rfl
  | fin s m e =>
    obtain ⟨hk, hx⟩ := cut_zero_round rm m s e
    have hnx : (if (cut m e 0).r = 0 then 0 else flNX) = if (intRounded rm s m e).2 then flNX else 0 := by
      cases h : (intRounded rm s m e).2
      · rw [if_pos (hx.mpr h)]
        rfl
      · rw [if_neg fun h0 => by rw [hx.mp h0] at h; cases h]
        rfl
    dsimp only
    rw [hk, hnx]
    generalize (if u then (0 : Int) else -2 ^ (n - 1)) = lo
    generalize (if u then (2 : Int) ^ n - 1 else 2 ^ (n - 1) - 1) = hi
    generalize (if s then -((intRounded rm s m e).1 : Int) else (intRounded rm s m e).1) = v
    by_cases hl : v < lo
    · rw [if_pos hl, if_pos hl]
    · rw [if_neg hl, if_neg hl]
      split <;> rfl

/-- The integer of n bits that an FP32 code gives under an instruction's sign and mode, with its flags (R212). -/
def toIntOf (x : LForm) (n c : Nat) : Int × Nat :=
  if x.c = 1 then floatToInt 0 (2 ^ n - 1) x.rn (decodeF fp32 c) else floatToInt (-(2 ^ (n - 1))) (2 ^ (n - 1) - 1) x.rn (decodeF fp32 c)

theorem f2iV_toIntOf (x : LForm) (n c : Nat) :
    (BitVec.ofNat n (f2iV n (x.c == 1) x.rn c).1, (f2iV n (x.c == 1) x.rn c).2) = (BitVec.ofInt n (toIntOf x n c).1, (toIntOf x n c).2) := by
  rw [f2iV_eq, ofNat_wrapN, toIntOf]
  by_cases hc : x.c = 1
  · simp only [if_pos hc, beq_iff_eq]
  · simp only [if_neg hc, beq_iff_eq]

/-- An unsigned word as FP32. -/
theorem i2fV_unsigned {n : Nat} (rm : Nat) (a : BitVec n) : i2fV rm (a.toNat : Int) = roundTo fp32 rm 0 (.fin false a.toNat 0) := by
  rw [i2fV, Int.natAbs_natCast, decide_eq_false (Int.not_lt.mpr (Int.natCast_nonneg _))]

/-- A signed word as FP32. -/
theorem i2fV_signed {n : Nat} (rm : Nat) (a : BitVec n) :
    i2fV rm (sextN a.toNat n) = roundTo fp32 rm 0 (.fin (a.toInt < 0) a.toInt.natAbs 0) := by
  rw [sextN_eq_toInt, BitVec.ofNat_toNat, BitVec.setWidth_eq, i2fV]

/-- Two halves packed in a word, the low one first (R200). -/
theorem ofNat_halves (lo hi : BitVec 16) : BitVec.ofNat 32 (lo.toNat + hi.toNat * 2 ^ 16) = hi ++ lo := by
  apply ofNat_of_toNat
  rw [BitVec.toNat_append, Nat.shiftLeft_eq, Nat.mul_comm, Nat.add_comm, Nat.two_pow_add_eq_or_of_lt lo.isLt]

/-- A word clamped to a signed half (R211). -/
theorem clamp16_word (a : Word) : clamp16 a.toNat = (half16 a).toNat := by
  rw [clamp16, wrapN_eq_toNat, sextN_eq_toInt, BitVec.ofNat_toNat, BitVec.setWidth_eq]
  rfl

/-- Well-formed conversions of a 64-bit type have a pair as their destination (R199). -/
theorem wf_f2i_pair {x : LForm} (h : (Instr.f2i x).wf = true) (ht : x.ty = 5) : isPair x.d.toNat = true := by
  obtain ⟨kd, hk⟩ := wfParts_of_wf h
  have hd := (LForm.chk_dst (show wfCvt kd 1 x = true from hk)).1
  rw [ht] at hd
  exact hd

/-- A well-formed `fcvt` has a packed type (R211). -/
theorem wf_fcvt_packed {x : LForm} (h : (Instr.fcvt x).wf = true) : packedTy x.ty = true := by
  obtain ⟨kd, hk⟩ := wfParts_of_wf h
  have hm := (LForm.chk_dst (show wfCvt kd 0 x = true from hk)).2
  exact (Bool.and_eq_true_iff.mp hm).1

theorem execF2i_result : ComputesF .f2i (fun x => x.ty != 5) 6 (fun x => [{ spec := x.a.toNat, ty := .f32 }]) (fun x v =>
    let r := if x.c = 1 then floatToInt 0 (2 ^ 32 - 1) x.rn (decodeF fp32 (v 0).toNat)
      else floatToInt (-(2 ^ 31)) (2 ^ 31 - 1) x.rn (decodeF fp32 (v 0).toNat)
    (BitVec.ofInt 32 r.1, r.2)) :=
  .of_aluF (fun x v => f2iV 32 (x.c == 1) x.rn (v 0)) (fun x s h => if_neg (bne_iff_ne.mp h)) (by simp)
    (fun x w => f2iV_toIntOf x 32 (w 0).toNat)

theorem execF2i_pair_result : Completes .f2i (fun x => [{ spec := x.a.toNat, ty := .f32 }]) (fun x => [x.d.toNat, x.d.toNat + 1])
    (fun _ _ x => x.ty = 5) (fun s i x t =>
      let srcs : List Opnd := [{ spec := x.a.toNat, ty := .f32 }]
      let r (l : Nat) : Int × Nat :=
        if x.c = 1 then floatToInt 0 (2 ^ 64 - 1) x.rn (decodeF fp32 (src32 s i srcs l 0).toNat)
        else floatToInt (-(2 ^ 63)) (2 ^ 63 - 1) x.rn (decodeF fp32 (src32 s i srcs l 0).toNat)
      Result64 s t i srcs x.d.toNat 6 (fun l => BitVec.ofInt 64 (r l).1)
        (laneFlags (s.th i.th) x.d.toNat (given s i srcs).act (fun l => (r l).2) % 32)) := by
  intro s x th k hwf ht hr
  have hx : exec (.f2i x) s = aluPairF s x [{ spec := x.a.toNat, ty := .f32 }] (fun v => f2iV 64 (x.c == 1) x.rn (v 0)) := if_pos ht
  rw [hx]
  refine aluPairF_result (F := fun l => let r := toIntOf x 64 (src32 s (issL x th k) [{ spec := x.a.toNat, ty := .f32 }] l 0).toNat
    (BitVec.ofInt 64 r.1, r.2)) hr (wf_f2i_pair hwf ht) fun l hl => ?_
  rw [given_word s _ (by simp) hl]
  exact f2iV_toIntOf x 64 _

theorem execI2f_result : ComputesF .i2f (fun x => x.ty != 5) 6 (fun x => [srcA x]) (fun x v =>
    let r := if x.c = 1 then roundTo fp32 x.rn 0 (.fin false (v 0).toNat 0)
      else roundTo fp32 x.rn 0 (.fin ((v 0).toInt < 0) (v 0).toInt.natAbs 0)
    (BitVec.ofNat 32 r.1, r.2)) := by
  refine .of_aluF (fun x v => i2fV x.rn (if x.c = 1 then (v 0 : Int) else sextN (v 0) 32)) (fun x s h => ?_) (by simp [srcA]) (fun x w => ?_)
  · show execI2f x s = _
    simp only [execI2f, if_neg (bne_iff_ne.mp h)]
  · by_cases hc : x.c = 1
    · simp only [if_pos hc, i2fV_unsigned]
    · simp only [if_neg hc, i2fV_signed]

theorem execI2f_pair_result : Completes .i2f (fun x => [wide x.a .s64]) (fun x => [x.d.toNat]) (fun _ _ x => x.ty = 5) (fun s i x t =>
    let v (l : Nat) : DWord := src64 s i [wide x.a .s64] l 0
    let r (l : Nat) : Nat × Nat := if x.c = 1 then roundTo fp32 x.rn 0 (.fin false (v l).toNat 0)
      else roundTo fp32 x.rn 0 (.fin ((v l).toInt < 0) (v l).toInt.natAbs 0)
    Result s t i [wide x.a .s64] x.d.toNat x.tr 6 (fun l => BitVec.ofNat 32 (r l).1)
      (laneFlags (s.th i.th) x.d.toNat (given s i [wide x.a .s64]).act (fun l => (r l).2) % 32)) := by
  intro s x th k hwf ht hr
  have hx : exec (.i2f x) s = aluF s x 6 [wide x.a .s64] (fun v => i2fV x.rn (if x.c = 1 then (v 0 : Int) else sextN (v 0) 64)) := by
    show execI2f x s = _
    simp only [execI2f, if_pos ht]
  rw [hx]
  refine aluF_result (F := fun l => let v := src64 s (issL x th k) [wide x.a .s64] l 0
    let r := if x.c = 1 then roundTo fp32 x.rn 0 (.fin false v.toNat 0) else roundTo fp32 x.rn 0 (.fin (v.toInt < 0) v.toInt.natAbs 0)
    (BitVec.ofNat 32 r.1, r.2)) hr fun l hl => ?_
  rw [given_dword s _ (by simp [wide]) hl]
  by_cases hc : x.c = 1
  · simp only [if_pos hc, i2fV_unsigned]
  · simp only [if_neg hc, i2fV_signed]

theorem execPack2_result : Computes .pack2 (fun _ => true) 6 (fun x => [srcA x, srcB x]) (fun x v =>
    if x.ty = 0 then half16 (v 1) ++ half16 (v 0) else (v 1).setWidth 16 ++ (v 0).setWidth 16) := by
  refine .of_aluL (fun x v => (if x.ty = 0 then clamp16 (v 0) else v 0 % 2 ^ 16) + (if x.ty = 0 then clamp16 (v 1) else v 1 % 2 ^ 16) * 2 ^ 16)
    (fun _ _ _ => rfl) (by simp [srcA, srcB]) (fun x w => ?_)
  by_cases ht : x.ty = 0
  · simp only [if_pos ht, clamp16_word, ofNat_halves]
  · simp only [if_neg ht]
    exact ofNat_halves ((w 0).setWidth 16) ((w 1).setWidth 16)

theorem execUnpack2_result : Computes .unpack2 (fun _ => true) 6
    (fun x => [{ spec := x.a.toNat, ty := if x.ty = 3 then .f16 else if x.ty = 4 then .bf16 else .w32 }]) (fun x v =>
      let h := (v 0).extractLsb' (16 * x.c.toNat) 16
      if x.ty = 3 then BitVec.ofNat 32 (toFp32 fp16 h.toNat) else if x.ty = 4 then BitVec.ofNat 32 (toFp32 bf16 h.toNat)
      else if x.ty = 0 then h.signExtend 32 else h.setWidth 32) := by
  refine .of_aluL (fun x v =>
    let e := bitsOf (v 0) (16 * x.c.toNat) 16
    if x.ty = 3 then toFp32 fp16 e else if x.ty = 4 then toFp32 bf16 e
    else if x.ty = 0 then wrapN (sextN e 16) 32 else e) (fun _ _ _ => rfl) (fun x => ?_) (fun x w => ?_)
  · simp only [narrow_cons, narrow_nil, and_true, true_and]
    split
    · decide
    · split <;> decide
  · dsimp only
    rw [bitsOf_toNat]
    generalize (w 0).extractLsb' (16 * x.c.toNat) 16 = h
    split
    · rfl
    · split
      · rfl
      · split
        · rw [ofNat_wrapN, sextN_eq_toInt, BitVec.ofNat_toNat, BitVec.setWidth_eq]
          rfl
        · exact BitVec.ofNat_toNat 32 h

end Sys2Proof.Machine

namespace Sys2Proof.Machine

/-! ### Two values to a packed pair (R179, R211) -/

/-- The random bits of a lane depend on the discarded bits of the 32 lanes alone. -/
theorem laneRnd_congr (t : Strand) (act : Word) {d d' : Nat → Nat} (h : ∀ l < 32, d l = d' l) (l : Nat) :
    laneRnd t act d l = laneRnd t act d' l := by
  unfold laneRnd
  dsimp only
  congr 2
  funext e
  split
  · exact h _ (BitVec.lt_of_getLsbD ‹_›)
  · rfl

/-- One value of `fcvt` in a lane as a half, with its flags (R211): rounded among its tile's lanes under SR, else in
the mode of the rounding field. -/
def cvtHalf (t : Strand) (x : LForm) (act : Word) (val : Nat → FV) (l : Nat) : Nat × Nat :=
  if x.c = 1 then roundTo (fFmt x) 4 (laneRnd t act (fun l => discard (fFmt x) (val l)) l) (val l) else roundTo (fFmt x) x.rn 0 (val l)

theorem cvtHalf_congr (t : Strand) (x : LForm) (act : Word) {val val' : Nat → FV} (h : ∀ l < 32, val l = val' l) {l : Nat} (hl : l < 32) :
    cvtHalf t x act val l = cvtHalf t x act val' l := by
  unfold cvtHalf
  rw [h l hl, laneRnd_congr t act (fun j hj => congrArg (discard (fFmt x)) (h j hj))]

theorem cvtHalf_lt {x : LForm} (h : packedTy x.ty = true) (t : Strand) (act : Word) (val : Nat → FV) (l : Nat) :
    (cvtHalf t x act val l).1 < 2 ^ 16 := by
  unfold cvtHalf
  split <;> exact roundTo_packed_lt h _ _ _

/-- The sources of `fcvt`. -/
def fcvtSrcs (x : LForm) : List Opnd := [{ spec := x.a.toNat, ty := .f32 }, { spec := x.b.toNat, ty := .f32 }]

/-- What `fcvt` does with its operands: both halves of each lane, and their flags. -/
def fcvtBody (x : LForm) (s : State) (i : Iss) (g : Given) : State :=
  let half (j : Nat) : Nat → Nat × Nat := cvtHalf (s.th i.th) x g.act (fun l => decodeF fp32 (g.v j l))
  raiseFp (putDst s i x.d.toNat x.tr g.act 6 g.cost (fun l => (half 0 l).1 + (half 1 l).1 * 2 ^ 16)) i.th
    (laneFlags (s.th i.th) x.d.toNat g.act (fun l => (half 0 l).2 ||| (half 1 l).2))

theorem exec_fcvt (x : LForm) (s : State) : exec (.fcvt x) s = lanesOp s x (fcvtSrcs x) [x.d.toNat] readActive (fcvtBody x) := rfl

/-- The halves that the model makes of what it reads are those of the statement's words; pops change neither helpers nor the partition. -/
theorem cvtHalf_popped {s : State} {x : LForm} {i : Iss} (h : (kget? s.ths i.th).isSome = true) (j : Nat) {l : Nat} (hl : l < 32) :
    cvtHalf ((poppedState s i (fcvtSrcs x)).th i.th) x (given s i (fcvtSrcs x)).act (fun l => decodeF fp32 ((given s i (fcvtSrcs x)).v j l)) l =
    cvtHalf (s.th i.th) x (given s i (fcvtSrcs x)).act (fun l => decodeF fp32 (src32 s i (fcvtSrcs x) l j).toNat) l := by
  rw [poppedState_th _ h]
  refine cvtHalf_congr (s.th i.th) x _ (fun l hl => congrArg (decodeF fp32) ?_) hl
  exact congrFun (given_word s i (by simp [fcvtSrcs]) hl) j

/-- Two numbers that are halves, packed in a word. -/
theorem ofNat_pack {lo hi : Nat} (hlo : lo < 2 ^ 16) (hhi : hi < 2 ^ 16) :
    BitVec.ofNat 32 (lo + hi * 2 ^ 16) = BitVec.ofNat 16 hi ++ BitVec.ofNat 16 lo := by
  have h := ofNat_halves (BitVec.ofNat 16 lo) (BitVec.ofNat 16 hi)
  rwa [BitVec.toNat_ofNat, BitVec.toNat_ofNat, Nat.mod_eq_of_lt hlo, Nat.mod_eq_of_lt hhi] at h

theorem execFcvt_result : Completes .fcvt (fun x => [{ spec := x.a.toNat, ty := .f32 }, { spec := x.b.toNat, ty := .f32 }])
    (fun x => [x.d.toNat]) (fun _ _ _ => True) (fun s i x t =>
      let srcs : List Opnd := [{ spec := x.a.toNat, ty := .f32 }, { spec := x.b.toNat, ty := .f32 }]
      let val (j l : Nat) : FV := decodeF fp32 (src32 s i srcs l j).toNat
      let act := (given s i srcs).act
      let one (j l : Nat) : Nat × Nat :=
        if x.c = 1 then roundTo (fFmt x) 4 (laneRnd (s.th i.th) act (fun l => discard (fFmt x) (val j l)) l) (val j l)
        else roundTo (fFmt x) x.rn 0 (val j l)
      Result s t i srcs x.d.toNat x.tr 6 (fun l => BitVec.ofNat 16 (one 1 l).1 ++ BitVec.ofNat 16 (one 0 l).1)
        (laneFlags (s.th i.th) x.d.toNat act (fun l => (one 0 l).2 ||| (one 1 l).2) % 32)) := by
  intro s x th k hwf _ hr
  have hpk := wf_fcvt_packed hwf
  have half : ∀ j, ∀ l < 32, _ := fun j l hl => cvtHalf_popped (x := x) (i := issL x th k) hr.lives j hl
  rw [exec_fcvt]
  refine lanesOp_putDst hr rfl (fun l hl => ?_) (laneFlags_popped _ hr.lives _ _ fun l hl => ?_)
  · dsimp only
    rw [half 0 l hl, half 1 l hl]
    exact ofNat_pack (cvtHalf_lt hpk _ _ _ l) (cvtHalf_lt hpk _ _ _ l)
  · dsimp only
    rw [half 0 l hl, half 1 l hl]
    rfl

/-- Settles O9: a cut at the integers rounds as R212 says, a packed result is its two halves, and each conversion raises the flags of its
lanes. -/
theorem conversions : Obligations.Conversions :=
  ⟨execFcvt_result, execF2i_result, execF2i_pair_result, execI2f_result, execI2f_pair_result, execPack2_result, execUnpack2_result⟩

end Sys2Proof.Machine
